-- ==== Sys2Proof/Word.lean ====
section
/-!
DEFINITION. The words of the machine (03 R52, 06 R129): bytes, the scalar, vector and mask register widths, and the
memory cell of the host's interface.
-/
namespace Sys2Proof

/-- One byte of memory. -/
abbrev Byte := BitVec 8
/-- The value of a scalar register, an address or a control register (06 R129). -/
abbrev Word := BitVec 64
/-- The value of a vector register: 32 lanes of 32 bits, lane 0 lowest (06 R129, 07 R161). -/
abbrev VWord := BitVec 1024
/-- The value of a mask register (06 R129). -/
abbrev KWord := BitVec 32

end Sys2Proof
end

