-- ==== Sys2Proof/Syntax.lean ====
section
/-!
DEFINITION. The abstract syntax: one constructor of `Instr` per row of the opcode table (04 R91, 95). The encoded rows
carry the fields of their words, in ascending bit position; the steps of the other agents carry nothing: what such a
step is about (a unit, a message, a request) is plain data of the state beside it. GAP and SW (04 R77, R82) belong to
the word, not to the instruction: the decoder reports them beside it. Constructors without fields stand last.
-/
namespace Sys2Proof

/-- The instructions and the steps of the other agents: one constructor per row of the opcode table. -/
inductive Instr where
  /-- ADD (R139): Writes s[a] + s[b] to s[d]. -/
  | add (d : BitVec 4) (a : BitVec 4) (b : BitVec 4)
  /-- SUB (R139): Writes s[a] − s[b] to s[d]. -/
  | sub (d : BitVec 4) (a : BitVec 4) (b : BitVec 4)
  /-- AND (R139): Writes the bitwise AND of s[a] and s[b] to s[d]. -/
  | and (d : BitVec 4) (a : BitVec 4) (b : BitVec 4)
  /-- OR (R139): Writes the bitwise OR of s[a] and s[b] to s[d]. -/
  | or (d : BitVec 4) (a : BitVec 4) (b : BitVec 4)
  /-- XOR (R139): Writes the bitwise XOR of s[a] and s[b] to s[d]. -/
  | xor (d : BitVec 4) (a : BitVec 4) (b : BitVec 4)
  /-- ANDN (R139): Writes s[a] AND NOT s[b] to s[d]. -/
  | andn (d : BitVec 4) (a : BitVec 4) (b : BitVec 4)
  /-- SHL (R139): Shifts s[a] left by the low 6 bits of s[b]. -/
  | shl (d : BitVec 4) (a : BitVec 4) (b : BitVec 4)
  /-- SHR (R139): Shifts s[a] right logically by the low 6 bits of s[b]. -/
  | shr (d : BitVec 4) (a : BitVec 4) (b : BitVec 4)
  /-- SAR (R139): Shifts s[a] right arithmetically by the low 6 bits of s[b]. -/
  | sar (d : BitVec 4) (a : BitVec 4) (b : BitVec 4)
  /-- MUL (R139): Writes the low 64 bits of the product of s[a] and s[b]. -/
  | mul (d : BitVec 4) (a : BitVec 4) (b : BitVec 4)
  /-- MULH (R139): Writes the high 64 bits of the signed product. -/
  | mulh (d : BitVec 4) (a : BitVec 4) (b : BitVec 4)
  /-- MULHU (R139): Writes the high 64 bits of the unsigned product. -/
  | mulhu (d : BitVec 4) (a : BitVec 4) (b : BitVec 4)
  /-- DIV (R140): Writes the signed quotient, saturating and never trapping. -/
  | div (d : BitVec 4) (a : BitVec 4) (b : BitVec 4)
  /-- DIVU (R140): Writes the unsigned quotient, saturating and never trapping. -/
  | divu (d : BitVec 4) (a : BitVec 4) (b : BitVec 4)
  /-- REM (R140): Writes the signed remainder, which takes the sign of s[a]. -/
  | rem (d : BitVec 4) (a : BitVec 4) (b : BitVec 4)
  /-- REMU (R140): Writes the unsigned remainder. -/
  | remu (d : BitVec 4) (a : BitVec 4) (b : BitVec 4)
  /-- MIN (R139): Writes the signed minimum of s[a] and s[b]. -/
  | min (d : BitVec 4) (a : BitVec 4) (b : BitVec 4)
  /-- MAX (R139): Writes the signed maximum of s[a] and s[b]. -/
  | max (d : BitVec 4) (a : BitVec 4) (b : BitVec 4)
  /-- MINU (R139): Writes the unsigned minimum of s[a] and s[b]. -/
  | minu (d : BitVec 4) (a : BitVec 4) (b : BitVec 4)
  /-- MAXU (R139): Writes the unsigned maximum of s[a] and s[b]. -/
  | maxu (d : BitVec 4) (a : BitVec 4) (b : BitVec 4)
  /-- SLT (R139): Writes 1 if s[a] < s[b] as signed values, else 0. -/
  | slt (d : BitVec 4) (a : BitVec 4) (b : BitVec 4)
  /-- SLTU (R139): Writes 1 if s[a] < s[b] as unsigned values, else 0. -/
  | sltu (d : BitVec 4) (a : BitVec 4) (b : BitVec 4)
  /-- SEQ (R139): Writes 1 if s[a] equals s[b], else 0. -/
  | seq (d : BitVec 4) (a : BitVec 4) (b : BitVec 4)
  /-- CLZ (R139): Counts the leading zeros of s[a]. -/
  | clz (d : BitVec 4) (a : BitVec 4)
  /-- CTZ (R139): Counts the trailing zeros of s[a]. -/
  | ctz (d : BitVec 4) (a : BitVec 4)
  /-- POPC (R139): Counts the 1 bits of s[a]. -/
  | popc (d : BitVec 4) (a : BitVec 4)
  /-- SEXT_B (R139): Sign-extends the low byte of s[a]. -/
  | sextB (d : BitVec 4) (a : BitVec 4)
  /-- SEXT_H (R139): Sign-extends the low 16 bits of s[a]. -/
  | sextH (d : BitVec 4) (a : BitVec 4)
  /-- SEXT_W (R139): Sign-extends the low 32 bits of s[a]. -/
  | sextW (d : BitVec 4) (a : BitVec 4)
  /-- SEL (R139): Writes s[a] to s[d] if s[d] is nonzero, else s[b]. -/
  | sel (d : BitVec 4) (a : BitVec 4) (b : BitVec 4)
  /-- ADDI (R141): Adds the sign-extended imm14 to s[a]. -/
  | addi (d : BitVec 4) (a : BitVec 4) (i : BitVec 14)
  /-- ANDI (R141): ANDs s[a] with the sign-extended imm14. -/
  | andi (d : BitVec 4) (a : BitVec 4) (i : BitVec 14)
  /-- ORI (R141): ORs s[a] with the sign-extended imm14. -/
  | ori (d : BitVec 4) (a : BitVec 4) (i : BitVec 14)
  /-- XORI (R141): XORs s[a] with the sign-extended imm14. -/
  | xori (d : BitVec 4) (a : BitVec 4) (i : BitVec 14)
  /-- SHLI (R141): Shifts s[a] left by an immediate from 0 to 63. -/
  | shli (d : BitVec 4) (a : BitVec 4) (i : BitVec 14)
  /-- SHRI (R141): Shifts s[a] right logically by an immediate. -/
  | shri (d : BitVec 4) (a : BitVec 4) (i : BitVec 14)
  /-- SARI (R141): Shifts s[a] right arithmetically by an immediate. -/
  | sari (d : BitVec 4) (a : BitVec 4) (i : BitVec 14)
  /-- SLTI (R141): Writes 1 if s[a] is below the immediate as signed values, else 0. -/
  | slti (d : BitVec 4) (a : BitVec 4) (i : BitVec 14)
  /-- LUI (R142): Writes the sign-extended imm18 shifted left by 14. -/
  | lui (d : BitVec 4) (i : BitVec 18)
  /-- ADPC (R142): Writes PC plus the sign-extended imm18 shifted left by 14. -/
  | adpc (d : BitVec 4) (i : BitVec 18)
  /-- FADD (R144): FP32 addition, rounded once. -/
  | fadd (d : BitVec 4) (a : BitVec 4) (b : BitVec 4) (m : BitVec 3)
  /-- FSUB (R144): FP32 subtraction, rounded once. -/
  | fsub (d : BitVec 4) (a : BitVec 4) (b : BitVec 4) (m : BitVec 3)
  /-- FMUL (R144): FP32 multiplication, rounded once. -/
  | fmul (d : BitVec 4) (a : BitVec 4) (b : BitVec 4) (m : BitVec 3)
  /-- FFMA (R144): FP32 fused multiply-add into s[d], with one rounding. -/
  | ffma (d : BitVec 4) (a : BitVec 4) (b : BitVec 4) (m : BitVec 3)
  /-- FDIV (R144): FP32 division. -/
  | fdiv (d : BitVec 4) (a : BitVec 4) (b : BitVec 4) (m : BitVec 3)
  /-- FSQRT (R144): FP32 square root. -/
  | fsqrt (d : BitVec 4) (a : BitVec 4) (m : BitVec 3)
  /-- FMIN (R144): FP32 minimumNumber by R59. -/
  | fmin (d : BitVec 4) (a : BitVec 4) (b : BitVec 4)
  /-- FMAX (R144): FP32 maximumNumber by R59. -/
  | fmax (d : BitVec 4) (a : BitVec 4) (b : BitVec 4)
  /-- FCMP_EQ (R145): Compares FP32 values for equality. -/
  | fcmpEq (d : BitVec 4) (a : BitVec 4) (b : BitVec 4)
  /-- FCMP_LT (R145): Compares FP32 values for less-than. -/
  | fcmpLt (d : BitVec 4) (a : BitVec 4) (b : BitVec 4)
  /-- FCMP_LE (R145): Compares FP32 values for less-or-equal. -/
  | fcmpLe (d : BitVec 4) (a : BitVec 4) (b : BitVec 4)
  /-- FCVT_F32_I32 (R146): Converts a signed 32-bit integer to FP32. -/
  | fcvtF32I32 (d : BitVec 4) (a : BitVec 4) (m : BitVec 3)
  /-- FCVT_I32_F32 (R146): Converts FP32 to a signed 32-bit integer in the mode. -/
  | fcvtI32F32 (d : BitVec 4) (a : BitVec 4) (m : BitVec 3)
  /-- FCVT_F32_I64 (R146): Converts a signed 64-bit integer to FP32. -/
  | fcvtF32I64 (d : BitVec 4) (a : BitVec 4) (m : BitVec 3)
  /-- FCVT_I64_F32 (R146): Converts FP32 to a signed 64-bit integer in the mode. -/
  | fcvtI64F32 (d : BitVec 4) (a : BitVec 4) (m : BitVec 3)
  /-- FCLASS (R145): Writes the class word of an FP32 value. -/
  | fclass (d : BitVec 4) (a : BitVec 4)
  /-- FMOV (R144): Copies the low 32 bits of s[a] bit for bit. -/
  | fmov (d : BitVec 4) (a : BitVec 4)
  /-- FSGN_CP (R144): Copies the sign of b onto a. -/
  | fsgnCp (d : BitVec 4) (a : BitVec 4) (b : BitVec 4)
  /-- FSGN_NEG (R144): Inverts the sign of a. -/
  | fsgnNeg (d : BitVec 4) (a : BitVec 4)
  /-- FSGN_ABS (R144): Clears the sign of a. -/
  | fsgnAbs (d : BitVec 4) (a : BitVec 4)
  /-- FSGN_MUL (R144): Sets the sign of a to the XOR of the signs of a and b. -/
  | fsgnMul (d : BitVec 4) (a : BitVec 4) (b : BitVec 4)
  /-- BEQ (R147): Branches if s[a] equals s[b]. -/
  | beq (a : BitVec 4) (b : BitVec 4) (i : BitVec 14)
  /-- BNE (R147): Branches if s[a] differs from s[b]. -/
  | bne (a : BitVec 4) (b : BitVec 4) (i : BitVec 14)
  /-- BLT (R147): Branches if s[a] < s[b] as signed values. -/
  | blt (a : BitVec 4) (b : BitVec 4) (i : BitVec 14)
  /-- BGE (R147): Branches if s[a] ≥ s[b] as signed values. -/
  | bge (a : BitVec 4) (b : BitVec 4) (i : BitVec 14)
  /-- BLTU (R147): Branches if s[a] < s[b] as unsigned values. -/
  | bltu (a : BitVec 4) (b : BitVec 4) (i : BitVec 14)
  /-- BGEU (R147): Branches if s[a] ≥ s[b] as unsigned values. -/
  | bgeu (a : BitVec 4) (b : BitVec 4) (i : BitVec 14)
  /-- CALL (R148): Links PC + 4 into s[d] and jumps PC-relative; with d = 0 it is JMP. -/
  | call (d : BitVec 4) (i : BitVec 18)
  /-- JR (R148): Jumps to the address in s[a]. -/
  | jr (a : BitVec 4)
  /-- CALLR (R148): Jumps to s[a] and links PC + 4 into s[d]. -/
  | callr (d : BitVec 4) (a : BitVec 4)
  /-- LOOP (R150): Arms hardware-loop level L with a count and body bounds, or skips the body. -/
  | loop (a : BitVec 4) (l : BitVec 1) (i : BitVec 14)
  /-- TRAP (R154): Raises the software-trap cause with a code. -/
  | trap (x : BitVec 10)
  /-- CSRR (R133): Reads a control register into s[d]. -/
  | csrr (d : BitVec 4) (x : BitVec 10)
  /-- CSRW (R133): Writes s[a] into the writable fields of a control register. -/
  | csrw (a : BitVec 4) (x : BitVec 10)
  /-- CSRS (R133): Sets bits of a control register. -/
  | csrs (a : BitVec 4) (x : BitVec 10)
  /-- CSRC (R133): Clears bits of a control register. -/
  | csrc (a : BitVec 4) (x : BitVec 10)
  /-- BRK (R154): Raises the breakpoint cause at its own address. -/
  | brk (x : BitVec 10)
  /-- YIELD (R48): Reloads YDL and may hand the slot to a task of higher priority. -/
  | yield (y : BitVec 6)
  /-- FCLD (R159): Loads a frame cell into s[d]. -/
  | fcld (d : BitVec 4) (a : BitVec 4) (o : BitVec 6)
  /-- FCST (R159): Stores the low 32 bits of s[d] to a frame cell. -/
  | fcst (d : BitVec 4) (a : BitVec 4) (o : BitVec 6)
  /-- FCVLD (R159): Loads 32 consecutive frame cells into a vector. -/
  | fcvld (d : BitVec 4) (a : BitVec 4) (o : BitVec 6)
  /-- FCVST (R159): Stores a vector into 32 consecutive frame cells. -/
  | fcvst (d : BitVec 4) (a : BitVec 4) (o : BitVec 6)
  /-- VADD (R166): FP32 lane addition. -/
  | vadd (d : BitVec 4) (a : BitVec 4) (b : BitVec 4) (k : BitVec 3) (m : BitVec 3)
  /-- VSUB (R166): FP32 lane subtraction. -/
  | vsub (d : BitVec 4) (a : BitVec 4) (b : BitVec 4) (k : BitVec 3) (m : BitVec 3)
  /-- VMUL (R166): FP32 lane multiplication. -/
  | vmul (d : BitVec 4) (a : BitVec 4) (b : BitVec 4) (k : BitVec 3) (m : BitVec 3)
  /-- VFMA (R166): FP32 lane fused multiply-add into vd. -/
  | vfma (d : BitVec 4) (a : BitVec 4) (b : BitVec 4) (k : BitVec 3) (m : BitVec 3)
  /-- VFMS (R166): FP32 lane fused multiply-subtract from vd. -/
  | vfms (d : BitVec 4) (a : BitVec 4) (b : BitVec 4) (k : BitVec 3) (m : BitVec 3)
  /-- VMIN (R166): FP32 lane minimumNumber. -/
  | vmin (d : BitVec 4) (a : BitVec 4) (b : BitVec 4) (k : BitVec 3)
  /-- VMAX (R166): FP32 lane maximumNumber. -/
  | vmax (d : BitVec 4) (a : BitVec 4) (b : BitVec 4) (k : BitVec 3)
  /-- VIADD (R167): Wrapping 32-bit lane addition. -/
  | viadd (d : BitVec 4) (a : BitVec 4) (b : BitVec 4) (k : BitVec 3)
  /-- VISUB (R167): Wrapping 32-bit lane subtraction. -/
  | visub (d : BitVec 4) (a : BitVec 4) (b : BitVec 4) (k : BitVec 3)
  /-- VIMUL (R167): Wrapping 32-bit lane multiplication. -/
  | vimul (d : BitVec 4) (a : BitVec 4) (b : BitVec 4) (k : BitVec 3)
  /-- VAND (R167): Lane bitwise AND. -/
  | vand (d : BitVec 4) (a : BitVec 4) (b : BitVec 4) (k : BitVec 3)
  /-- VOR (R167): Lane bitwise OR. -/
  | vor (d : BitVec 4) (a : BitVec 4) (b : BitVec 4) (k : BitVec 3)
  /-- VXOR (R167): Lane bitwise XOR. -/
  | vxor (d : BitVec 4) (a : BitVec 4) (b : BitVec 4) (k : BitVec 3)
  /-- VSHL (R167): Lane shift left. -/
  | vshl (d : BitVec 4) (a : BitVec 4) (b : BitVec 4) (k : BitVec 3)
  /-- VSHR (R167): Lane logical shift right. -/
  | vshr (d : BitVec 4) (a : BitVec 4) (b : BitVec 4) (k : BitVec 3)
  /-- VSAR (R167): Lane arithmetic shift right. -/
  | vsar (d : BitVec 4) (a : BitVec 4) (b : BitVec 4) (k : BitVec 3)
  /-- VCMP (R168): Compares lanes and writes a mask register. -/
  | vcmp (d : BitVec 4) (a : BitVec 4) (b : BitVec 4) (k : BitVec 3) (r : BitVec 4) (t : BitVec 3)
  /-- VSEL (R169): Selects each lane from va or vb by the mask. -/
  | vsel (d : BitVec 4) (a : BitVec 4) (b : BitVec 4) (k : BitVec 3)
  /-- VMOV (R169): Copies the enabled lanes of va. -/
  | vmov (d : BitVec 4) (a : BitVec 4) (k : BitVec 3)
  /-- VBCAST (R169): Broadcasts the low 32 bits of s[a] to the lanes. -/
  | vbcast (d : BitVec 4) (a : BitVec 4) (k : BitVec 3)
  /-- VEXT (R169): Extracts one lane into a scalar register. -/
  | vext (d : BitVec 4) (a : BitVec 4) (b : BitVec 4)
  /-- VINS (R169): Inserts a scalar into one lane. -/
  | vins (d : BitVec 4) (a : BitVec 4) (b : BitVec 4)
  /-- VIOTA (R169): Writes each enabled lane's rank among the enabled lanes. -/
  | viota (d : BitVec 4) (k : BitVec 3)
  /-- VPERM (R169): Permutes the lanes of va by the indices in vb. -/
  | vperm (d : BitVec 4) (a : BitVec 4) (b : BitVec 4) (k : BitVec 3)
  /-- VSLIDE (R170): Slides lanes down or up by a scalar count. -/
  | vslide (d : BitVec 4) (a : BitVec 4) (b : BitVec 4) (k : BitVec 3) (u : BitVec 1)
  /-- VREDSUM (R171): Sums the lanes in a fixed pairwise tree into a scalar. -/
  | vredsum (d : BitVec 4) (a : BitVec 4) (k : BitVec 3) (m : BitVec 3)
  /-- VREDMAX (R171): Tree maximum of the lanes into a scalar. -/
  | vredmax (d : BitVec 4) (a : BitVec 4) (k : BitVec 3)
  /-- VREDMIN (R171): Tree minimum of the lanes into a scalar. -/
  | vredmin (d : BitVec 4) (a : BitVec 4) (k : BitVec 3)
  /-- VRCP (R172): Correctly rounded lane reciprocal. -/
  | vrcp (d : BitVec 4) (a : BitVec 4) (k : BitVec 3)
  /-- VRSQ (R172): Correctly rounded lane reciprocal square root. -/
  | vrsq (d : BitVec 4) (a : BitVec 4) (k : BitVec 3)
  /-- VEXP2 (R172): Correctly rounded lane 2^x. -/
  | vexp2 (d : BitVec 4) (a : BitVec 4) (k : BitVec 3)
  /-- VLOG2 (R172): Correctly rounded lane log2. -/
  | vlog2 (d : BitVec 4) (a : BitVec 4) (k : BitVec 3)
  /-- VCVT (R173): Converts lane elements between formats. -/
  | vcvt (d : BitVec 4) (a : BitVec 4) (e : BitVec 4) (k : BitVec 3) (f : BitVec 4) (m : BitVec 3)
  /-- VQNT (R175): Quantises FP32 lanes with a scale register, trapping on lanes out of range. -/
  | vqnt (d : BitVec 4) (a : BitVec 4) (b : BitVec 3) (k : BitVec 3) (f : BitVec 4) (m : BitVec 3)
  /-- VDEQ (R175): Dequantises 8-bit elements to FP32 with a scale register. -/
  | vdeq (d : BitVec 4) (a : BitVec 4) (b : BitVec 3) (k : BitVec 3) (f : BitVec 4) (m : BitVec 3)
  /-- VSRND (R174): Rounds FP32 lanes onto a format's lattice and keeps them as FP32. -/
  | vsrnd (d : BitVec 4) (a : BitVec 4) (f : BitVec 4) (k : BitVec 3) (m : BitVec 3)
  /-- VSACC (R177): Adds va × 2^e into vd with one rounding. -/
  | vsacc (d : BitVec 4) (a : BitVec 4) (b : BitVec 4) (k : BitVec 3) (m : BitVec 3)
  /-- KAND (R178): Mask AND. -/
  | kand (d : BitVec 3) (a : BitVec 3) (b : BitVec 3)
  /-- KOR (R178): Mask OR. -/
  | kor (d : BitVec 3) (a : BitVec 3) (b : BitVec 3)
  /-- KXOR (R178): Mask XOR. -/
  | kxor (d : BitVec 3) (a : BitVec 3) (b : BitVec 3)
  /-- KNOT (R178): Mask NOT. -/
  | knot (d : BitVec 3) (a : BitVec 3)
  /-- KMOV (R178): Mask copy. -/
  | kmov (d : BitVec 3) (a : BitVec 3)
  /-- KPOPC (R178): Counts the set bits of a mask into a scalar. -/
  | kpopc (d : BitVec 4) (a : BitVec 3)
  /-- KFIRST (R178): Writes the index of the lowest set mask bit, or 32. -/
  | kfirst (d : BitVec 4) (a : BitVec 3)
  /-- TSPAWN (R183): Reads and checks a task record, places its counter and returns a handle; a release at .pkg. -/
  | tspawn (d : BitVec 4) (a : BitVec 4)
  /-- TDEC (R184): Sends decrement messages to a dependence counter; a release at .pkg. -/
  | tdec (a : BitVec 4) (b : BitVec 4) (n : BitVec 6)
  /-- TSELF (R186): Writes the task tag, home core code and slot. -/
  | tself (d : BitVec 4)
  /-- MIGR (R44): Moves the thread toward the memory at s[a], or traps if it holds state. -/
  | migr (a : BitVec 4)
  /-- GANG (R39): Forms a crew of n members on consecutive cores. -/
  | gang (n : BitVec 6)
  /-- DBIND (R190): Binds a deck handle to a control block. -/
  | dbind (h : BitVec 3) (a : BitVec 4) (n : BitVec 11)
  /-- DWAITC (R190): Waits until the deck holds at least c filled slots. -/
  | dwaitc (h : BitVec 3) (a : BitVec 4) (n : BitVec 11)
  /-- DWAITP (R190): Waits until the deck has at least c free slots. -/
  | dwaitp (h : BitVec 3) (a : BitVec 4) (n : BitVec 11)
  /-- DADVC (R190): Consumes c slots: advances HEAD and lowers FILL. -/
  | dadvc (h : BitVec 3) (a : BitVec 4) (n : BitVec 11)
  /-- DADVP (R190): Publishes c slots: advances TAIL and raises FILL; a release. -/
  | dadvp (h : BitVec 3) (a : BitVec 4) (n : BitVec 11)
  /-- CPY (R196): Checks the tag and queues a linear copy command; a release at .pkg. -/
  | cpy (a : BitVec 4) (b : BitVec 4) (p : BitVec 2) (n : BitVec 4)
  /-- CPY2 (R196): Checks the tag and queues a two-dimensional copy command. -/
  | cpy2 (a : BitVec 4) (b : BitVec 4) (p : BitVec 2) (n : BitVec 4)
  /-- CWAITANY (R200): Waits until any tag of the mask is set in CTB. -/
  | cwaitany (a : BitVec 4)
  /-- CWAITALL (R200): Waits until every tag of the mask is set in CTB. -/
  | cwaitall (a : BitVec 4)
  /-- CFIND (R200): Returns the lowest set CTB bit of the thread's group. -/
  | cfind (d : BitVec 4)
  /-- CTAGCLR (R200): Clears CTB bits named by a mask. -/
  | ctagclr (a : BitVec 4)
  /-- SOPEN (R202): Opens a stream to a deck and sends the opening flit. -/
  | sopen (a : BitVec 4) (s : BitVec 2)
  /-- SCLOSE (R202): Sends the closing marker after the stream's data. -/
  | sclose (s : BitVec 2)
  /-- SSEND (R203): Writes registers into outbound stream slots and publishes them. -/
  | ssend (s : BitVec 2) (a : BitVec 4) (k : BitVec 3) (c : BitVec 4)
  /-- PLNCH (R208): Sends a launch packet to a landing queue and returns a code; a release at .dom. -/
  | plnch (d : BitVec 4) (a : BitVec 4) (b : BitVec 4)
  /-- GREPLAY (R211): Replays a task graph, creating every node task and queueing the roots. -/
  | greplay (d : BitVec 4) (a : BitVec 4)
  /-- LD (R231): Loads 1 to 8 bytes into s[d]. -/
  | ld (d : BitVec 4) (a : BitVec 4) (w : BitVec 2) (k : BitVec 1) (x : BitVec 1) (i : BitVec 10)
  /-- ST (R231): Stores 1 to 8 bytes of s[d]. -/
  | st (d : BitVec 4) (a : BitVec 4) (w : BitVec 2) (k : BitVec 1) (i : BitVec 10)
  /-- LDACQ (R232): A load that is an acquire at its scope. -/
  | ldacq (d : BitVec 4) (a : BitVec 4) (w : BitVec 2) (k : BitVec 1) (x : BitVec 1) (c : BitVec 3) (i : BitVec 7)
  /-- STREL (R232): A store that is a release at its scope. -/
  | strel (d : BitVec 4) (a : BitVec 4) (w : BitVec 2) (k : BitVec 1) (c : BitVec 3) (i : BitVec 7)
  /-- VLD (R233): Contiguous all-or-nothing vector load. -/
  | vld (d : BitVec 4) (a : BitVec 4) (k : BitVec 3)
  /-- VLDS (R234): Strided all-or-nothing vector load. -/
  | vlds (d : BitVec 4) (a : BitVec 4) (b : BitVec 4) (k : BitVec 3)
  /-- VLDX (R235): Gather that progresses lane by lane through ERX. -/
  | vldx (d : BitVec 4) (a : BitVec 4) (b : BitVec 4) (k : BitVec 3)
  /-- VLD6 (R236): Loads one 24-byte block of 32 FP6 elements. -/
  | vld6 (d : BitVec 4) (a : BitVec 4) (k : BitVec 3)
  /-- VST (R233): Contiguous vector store, with an optional statistics partial. -/
  | vst (d : BitVec 4) (a : BitVec 4) (k : BitVec 3) (s : BitVec 3) (t : BitVec 1)
  /-- VSTS (R234): Strided vector store. -/
  | vsts (d : BitVec 4) (a : BitVec 4) (b : BitVec 4) (k : BitVec 3) (s : BitVec 3) (t : BitVec 1)
  /-- VSTX (R235): Scatter that progresses lane by lane through ERX. -/
  | vstx (d : BitVec 4) (a : BitVec 4) (b : BitVec 4) (k : BitVec 3) (s : BitVec 3) (t : BitVec 1)
  /-- VST6 (R236): Packs and stores 32 FP6 elements. -/
  | vst6 (d : BitVec 4) (a : BitVec 4) (k : BitVec 3) (s : BitVec 3) (t : BitVec 1)
  /-- DISCARD (R239): Drops a line's dirty data at its home without write-back. -/
  | discard (a : BitVec 4)
  /-- PREF (R240): Brings a line to L1 or L2; never faults. -/
  | pref (a : BitVec 4) (l : BitVec 1)
  /-- WBACK (R240): Writes a dirty line back and leaves it valid and clean. -/
  | wback (a : BitVec 4)
  /-- FENCE (R253): Orders every earlier access before every later one at a scope, and delivers the reduction log. -/
  | fence (c : BitVec 3)
  /-- FENCEH (R255): Heavy fence that drains the FENCEL-marked stores of a target grove or stand. -/
  | fenceh (a : BitVec 4) (c : BitVec 3)
  /-- AMO (R261): Integer atomic read-modify-write at the home, returning the old value. -/
  | amo (d : BitVec 4) (a : BitVec 4) (b : BitVec 4) (o : BitVec 4) (n : BitVec 1)
  /-- CAS (R262): Compare-and-swap at the home, returning the old value. -/
  | cas (d : BitVec 4) (a : BitVec 4) (b : BitVec 4) (n : BitVec 1)
  /-- FAMO (R261): FP32 atomic add, min or max, returning the old value. -/
  | famo (d : BitVec 4) (a : BitVec 4) (b : BitVec 4) (o : BitVec 4)
  /-- RED (R261): Return-free integer reduction at the home. -/
  | red (a : BitVec 4) (b : BitVec 4) (o : BitVec 4) (n : BitVec 1)
  /-- FRED (R261): Return-free FP32 reduction at the home. -/
  | fred (a : BitVec 4) (b : BitVec 4) (o : BitVec 4)
  /-- VRED (R263): Sends one 4-byte reduction per enabled lane. -/
  | vred (d : BitVec 4) (a : BitVec 4) (b : BitVec 4) (k : BitVec 3) (o : BitVec 4)
  /-- MMA (R275): Checks the operands and queues a tile product into an accumulator. -/
  | mma (n : BitVec 2) (m : BitVec 2) (a : BitVec 4) (f : BitVec 4) (s : BitVec 1) (c : BitVec 1)
  /-- MLDA (R273): Queues a load of an A buffer from memory or a deck. -/
  | mlda (n : BitVec 2) (a : BitVec 4) (f : BitVec 4) (k : BitVec 1)
  /-- MLDB (R274): Queues a write of a B tile into plane positions, optionally grove-wide. -/
  | mldb (a : BitVec 4) (b : BitVec 4) (f : BitVec 4) (c : BitVec 1)
  /-- MDRAIN (R277): Queues a conversion and write-out of an accumulator tile. -/
  | mdrain (n : BitVec 2) (a : BitVec 4) (s : BitVec 3) (f : BitVec 4) (m : BitVec 3) (c : BitVec 1) (t : BitVec 1) (k : BitVec 1)
  /-- MOWN (R271): Queues a claim of all four tiles, or their return to the default owners. -/
  | mown (l : BitVec 1)
  /-- MZERO (R278): Queues a clear of an accumulator and its flags. -/
  | mzero (n : BitVec 2)
  /-- MSACC (R278): Queues a block-scaled accumulation of one tile into another. -/
  | msacc (d : BitVec 2) (s : BitVec 2) (a : BitVec 4)
  /-- MSWAP (R279): Queues an exchange of an accumulator and its flags with a memory block. -/
  | mswap (n : BitVec 2) (a : BitVec 4)
  /-- MFLAG (R278): Queues a read-and-clear of ACCFn. -/
  | mflag (d : BitVec 4) (n : BitVec 2)
  /-- PCFG (R283): Checks a plane entry and queues its configuration. -/
  | pcfg (a : BitVec 4)
  /-- PSTEP (R287): Checks the three deck handles and queues a plane step. -/
  | pstep (d : BitVec 3) (a : BitVec 3) (b : BitVec 3)
  /-- PFADE (R289): Queues n fades of the traces. -/
  | pfade (a : BitVec 4)
  /-- PRWD (R291): Broadcasts a reward with a cut to the plane's reward group. -/
  | prwd (a : BitVec 4) (b : BitVec 4) (r : BitVec 1)
  /-- PGATE (R291): Broadcasts a gate entry with a cut to the reward group. -/
  | pgate (a : BitVec 4)
  /-- PRD (R285): Reads a synapse or plane register at once. -/
  | prd (d : BitVec 4) (a : BitVec 4)
  /-- PWR (R285): Writes a synapse or plane register at once. -/
  | pwr (a : BitVec 4) (b : BitVec 4)
  /-- PSTAT (R286): Returns the plane status word. -/
  | pstat (d : BitVec 4)
  /-- NWALK (R303): Queues a gather-and-pool command for the walkers. -/
  | nwalk (a : BitVec 4) (b : BitVec 4) (p : BitVec 2) (n : BitVec 4)
  /-- NADD (R305): Queues indivisible row additions into an M-memory table. -/
  | nadd (a : BitVec 4) (b : BitVec 4) (p : BitVec 2) (n : BitVec 4)
  /-- NUPD (R307): Queues optimiser updates of table rows. -/
  | nupd (a : BitVec 4) (b : BitVec 4) (p : BitVec 2) (n : BitVec 4)
  /-- BRED (R312): Checks a BRE parameter block and queues a reduction job or returns 0. -/
  | bred (d : BitVec 4) (a : BitVec 4) (p : BitVec 2) (n : BitVec 4)
  /-- BPOLL (R314): Returns the status of a BRE job. -/
  | bpoll (d : BitVec 4) (a : BitVec 4)
  /-- TAKE (R327): Sends one token into a counting network. -/
  | take (d : BitVec 4) (a : BitVec 4)
  /-- TAKEB (R327): Sends one token that claims k places. -/
  | takeb (d : BitVec 4) (a : BitVec 4) (b : BitVec 4)
  /-- NSAVE (R328): Closes and drains a network and stores its state. -/
  | nsave (a : BitVec 4) (b : BitVec 4)
  /-- NREST (R328): Checks a save block and restores a network from it. -/
  | nrest (a : BitVec 4) (b : BitVec 4)
  /-- NRESET (R328): Resets a network's toggles and counters and sets BASE. -/
  | nreset (a : BitVec 4) (b : BitVec 4)
  /-- STATA (R335): Sets up a statistics record and bumps its generation. -/
  | stata (a : BitVec 4) (b : BitVec 4)
  /-- STATC (R335): Clears a statistics record and bumps its generation. -/
  | statc (a : BitVec 4)
  /-- STATL (R336): Latches a scale from a record into a scale register, with an optional generation check; an acquire. -/
  | statl (n : BitVec 3) (a : BitVec 4) (b : BitVec 4) (h : BitVec 2) (c : BitVec 3)
  /-- STATR (R337): Returns one 8-byte word of a record. -/
  | statr (d : BitVec 4) (a : BitVec 4) (b : BitVec 4)
  /-- EVCFG (R345): Checks a crossbar image and puts it in force at one instant. -/
  | evcfg (a : BitVec 4)
  /-- EVPULSE (R346): Pulses an EVX input line; a release at .pkg. -/
  | evpulse (l : BitVec 3)
  /-- EVRD (R347): Returns a crossbar counter, term, credit or reward-group entry. -/
  | evrd (d : BitVec 4) (a : BitVec 4)
  /-- ACTW (R350): Writes an access-control entry indivisibly. -/
  | actw (a : BitVec 4) (b : BitVec 4)
  /-- HALTP (R367): Halts a partition and writes its whole state to the save area. -/
  | haltp (a : BitVec 4)
  /-- RESUMEP (R368): Checks and restores a halted partition and restarts it. -/
  | resumep (a : BitVec 4)
  /-- CTXSV (R369): Saves and frees one thread, or freezes and saves one array. -/
  | ctxsv (d : BitVec 4) (a : BitVec 4) (u : BitVec 1)
  /-- CTXLD (R369): Loads one thread into a slot, or one array context. -/
  | ctxld (d : BitVec 4) (a : BitVec 4) (u : BitVec 1)
  /-- MOD (R85): Modifier word issued with the following instruction, supplying NEG, ABS, SCALE and SAT. -/
  | mod (u : BitVec 1) (r : BitVec 1) (q : BitVec 1) (p : BitVec 1) (s : BitVec 6) (t : BitVec 2)
  /-- VADD_F32 (R83): 16-bit vd := vd + vs on all lanes, in the FCSR mode. -/
  | vaddF32 (d : BitVec 4) (s : BitVec 4)
  /-- VSUB_F32 (R83): 16-bit vd := vd − vs. -/
  | vsubF32 (d : BitVec 4) (s : BitVec 4)
  /-- VMUL_F32 (R83): 16-bit vd := vd × vs. -/
  | vmulF32 (d : BitVec 4) (s : BitVec 4)
  /-- VMAX_F32 (R83): 16-bit lane maximum. -/
  | vmaxF32 (d : BitVec 4) (s : BitVec 4)
  /-- VMIN_F32 (R83): 16-bit lane minimum. -/
  | vminF32 (d : BitVec 4) (s : BitVec 4)
  /-- VIADD_16 (R83): 16-bit wrapping lane addition. -/
  | viadd16 (d : BitVec 4) (s : BitVec 4)
  /-- VISUB_16 (R83): 16-bit wrapping lane subtraction. -/
  | visub16 (d : BitVec 4) (s : BitVec 4)
  /-- VAND_16 (R83): 16-bit lane AND. -/
  | vand16 (d : BitVec 4) (s : BitVec 4)
  /-- VOR_16 (R83): 16-bit lane OR. -/
  | vor16 (d : BitVec 4) (s : BitVec 4)
  /-- VXOR_16 (R83): 16-bit lane XOR. -/
  | vxor16 (d : BitVec 4) (s : BitVec 4)
  /-- VSHL_16 (R83): 16-bit lane shift left. -/
  | vshl16 (d : BitVec 4) (s : BitVec 4)
  /-- VSHR_16 (R83): 16-bit lane logical shift right. -/
  | vshr16 (d : BitVec 4) (s : BitVec 4)
  /-- VMOV_16 (R83): 16-bit vd := vs. -/
  | vmov16 (d : BitVec 4) (s : BitVec 4)
  /-- VNEG_F32 (R83): 16-bit vd := vs with the sign inverted. -/
  | vnegF32 (d : BitVec 4) (s : BitVec 4)
  /-- VABS_F32 (R83): 16-bit vd := vs with the sign cleared. -/
  | vabsF32 (d : BitVec 4) (s : BitVec 4)
  /-- VFMAC (R179): 16-bit vd := vd + vs × v15 with one rounding. -/
  | vfmac (d : BitVec 4) (s : BitVec 4)
  /-- MOV_16 (R84): 16-bit s[x] := s[y]. -/
  | mov16 (x : BitVec 4) (y : BitVec 4)
  /-- ADD_16 (R84): 16-bit s[x] := s[x] + s[y]. -/
  | add16 (x : BitVec 4) (y : BitVec 4)
  /-- SUB_16 (R84): 16-bit s[x] := s[x] − s[y]. -/
  | sub16 (x : BitVec 4) (y : BitVec 4)
  /-- AND_16 (R84): 16-bit s[x] := s[x] AND s[y]. -/
  | and16 (x : BitVec 4) (y : BitVec 4)
  /-- OR_16 (R84): 16-bit s[x] := s[x] OR s[y]. -/
  | or16 (x : BitVec 4) (y : BitVec 4)
  /-- ADDI4 (R84): 16-bit add of a signed 4-bit immediate. -/
  | addi4 (x : BitVec 4) (i : BitVec 4)
  /-- SHLI4 (R84): 16-bit shift left by an immediate. -/
  | shli4 (x : BitVec 4) (i : BitVec 4)
  /-- SHRI4 (R84): 16-bit logical shift right by an immediate. -/
  | shri4 (x : BitVec 4) (i : BitVec 4)
  /-- LDD8 (R84): 16-bit doubleword load relative to s14. -/
  | ldd8 (x : BitVec 4) (i : BitVec 4)
  /-- STD8 (R84): 16-bit doubleword store relative to s14. -/
  | std8 (x : BitVec 4) (i : BitVec 4)
  /-- BZ (R84): 16-bit branch if s[x] is zero. -/
  | bz (x : BitVec 4) (i : BitVec 4) (h : BitVec 1)
  /-- BNZ (R84): 16-bit branch if s[x] is nonzero. -/
  | bnz (x : BitVec 4) (i : BitVec 4) (h : BitVec 1)
  /-- JR_16 (R84): 16-bit jump to s[y]. -/
  | jr16 (y : BitVec 4)
  /-- CALLR_16 (R84): 16-bit call to s[y], linking PC + 2 in s15. -/
  | callr16 (y : BitVec 4)
  /-- ERET (R156): Restores the loop state and the privilege and returns to TRAPPC. -/
  | eret
  /-- IFENCE (R158): Makes later fetches reflect the writes the thread observes. -/
  | ifence
  /-- END (R28): Ends the thread after its outstanding work and frees the slot. -/
  | endTask
  /-- GDIS (R43): Dissolves the crew. -/
  | gdis
  /-- JOIN (R42): Reconverges the crew at a common PC. -/
  | join
  /-- DETACH (R188): A follower leaves the crew permanently. -/
  | detach
  /-- FENCEL (R254): Marks its place in the slot's store queue for FENCEH. -/
  | fencel
  /-- NFENCE (R310): Waits for every earlier walker command of the thread. -/
  | nfence
  /-- YIELD1 (R84): 16-bit YIELD that reloads 1,024. -/
  | yield1
  /-- END_16 (R84): 16-bit END. -/
  | end16
  /-- Event DECK_WAIT_COMPLETE (R190): A deck wait's condition comes to hold and the waiting instruction completes. -/
  | deckWaitComplete
  /-- Event COPY_TAG_WAIT_COMPLETE (R199): A tag wait's condition comes to hold; it completes or reports an error mark. -/
  | copyTagWaitComplete
  /-- Event FENCEH_TARGET_DRAIN (R255): At a target core, performs the stores before each slot's FENCEL and invalidates the L1. -/
  | fencehTargetDrain
  /-- Event MOWN_EXECUTE (R271): At the queue head, MOWN sets or clears OWN. -/
  | mownExecute
  /-- Event MLDA_EXECUTE (R273): At the queue head, fills an A buffer, waiting as a consumer for deck slots when it reads a deck. -/
  | mldaExecute
  /-- Event MLDB_EXECUTE (R274): At the queue head, writes a B tile to its plane position. -/
  | mldbExecute
  /-- Event MMA_EXECUTE (R275): At the queue head, accumulates a tile product in the R69 sum order. -/
  | mmaExecute
  /-- Event MMA_BC_ROUND (R276): When all four array heads hold the BC MMAs of one round, the tile is broadcast and they compute in lockstep. -/
  | mmaBcRound
  /-- Event MDRAIN_EXECUTE (R277): At the queue head, converts and writes out a tile, waiting for deck slots when it writes a deck. -/
  | mdrainExecute
  /-- Event MZERO_EXECUTE (R278): At the queue head, clears the accumulator and ACCFn. -/
  | mzeroExecute
  /-- Event MSACC_EXECUTE (R278): At the queue head, adds aS × 2^e into aD. -/
  | msaccExecute
  /-- Event MSWAP_EXECUTE (R279): At the queue head, exchanges the tile and its flags with the block. -/
  | mswapExecute
  /-- Event MFLAG_EXECUTE (R278): At the queue head, returns ACCFn and clears it. -/
  | mflagExecute
  /-- Event PCFG_EXECUTE (R283): At the plane queue head, once rewards are drained, loads the tables, zeroes the synapse region and joins the reward group. -/
  | pcfgExecute
  /-- Event STEP_START (R287): A queued step starts when gate, rewards and decks allow; it numbers itself and computes the outputs. -/
  | stepStart
  /-- Event STEP_RETIRE (R287): A step's trace sweep completes and the step retires. -/
  | stepRetire
  /-- Event FADE (R289): One fade runs as a numbered, gated step that only scales the traces. -/
  | fade
  /-- Event REWARD_ARRIVAL (R292): A reward or gate enters a plane's reward queue, or is held at its input if the queue is full. -/
  | rewardArrival
  /-- Event REWARD_APPLY (R292): A sweep applies a queued reward to every weight and raises PGL. -/
  | rewardApply
  /-- Event GATE_APPLY (R292): A gate entry only raises PGL. -/
  | gateApply
  /-- Event NFENCE_COMPLETE (R310): The awaited walker commands complete; NFENCE acquires them or takes the engine fault. -/
  | nfenceComplete
  /-- Event WALKER_COMMAND_START (R301): A walker takes a registered command whose footprint is clear and reads its block. -/
  | walkerCommandStart
  /-- Event WALKER_GRANULE (R303): A walker performs one granule of row operations. -/
  | walkerGranule
  /-- Event WALKER_COMPLETE (R302): A walker command's writes are in DRAM; the tag, pulse and count are signalled. -/
  | walkerComplete
  /-- Event BRE_JOB_START (R313): The BRE starts a queued job whose footprint is clear. -/
  | breJobStart
  /-- Event BRE_GRANULE (R313): The BRE computes and writes one granule of tree reductions. -/
  | breGranule
  /-- Event BRE_JOB_COMPLETE (R313): After the output is at .sys, the BRE writes FLAGV with a release and marks the job done. -/
  | breJobComplete
  /-- Event BALANCER_TOKEN (R322): A token reaches a balancer, leaves by its toggle, and flips the toggle. -/
  | balancerToken
  /-- Event OUTPUT_COUNTER (R324): A token leaving on an output wire takes its number or the exhausted status. -/
  | outputCounter
  /-- Event NETWORK_QUIET (R328): A closed network becomes quiet and the pending control instruction applies its change. -/
  | networkQuiet
  /-- Event STATISTICS_PARTIAL (R334): A partial merges into its record at the home slice, possibly setting RESC. -/
  | statisticsPartial
  /-- Event EVX_PULSE (R343): Pulses arriving in a fabric cycle act on the counters and seen bits, then terms fire and credits release. -/
  | evxPulse
  /-- Event LOAD_RETURN (R93): A load-path result returns into its destination and releases the interlock. -/
  | loadReturn
  /-- Event STORE_AT_HOME (R244): A write is serialised at its home, stamped, sent to the replica holders, and its TLB entries are removed. -/
  | storeAtHome
  /-- Event REPLICA_UPDATE_APPLY (R246): A stand applies a remote update or stamp once its applied clock allows. -/
  | replicaUpdateApply
  /-- Event ATOMIC_AT_HOME (R264): An atomic or reduction arriving at its home is applied indivisibly in arrival order. -/
  | atomicAtHome
  /-- Event L2WP_WRITE (R220): A write of the grove's way-partition register starts a change of WAYS. -/
  | l2wpWrite
  /-- Event WAYS_CHANGE_COMPLETE (R222): Write-back and invalidation of the changing ways finish and BUSY falls to 0. -/
  | waysChangeComplete
  /-- Event DECREMENT_MESSAGE (R22): A counter's home applies one decrement, releasing the task when the count reaches 0. -/
  | decrementMessage
  /-- Event READY_MESSAGE (R25): A ready task arrives at its home core and enters the run queue or spill ring, or is held. -/
  | readyMessage
  /-- Event SPILL_REFILL (R24): The oldest spill-ring entries move into a hardware queue holding fewer than 48. -/
  | spillRefill
  /-- Event FAR_ENTRY_OBTAINED (R19): A spawn waiting at a full far-counter pool obtains an entry and completes. -/
  | farEntryObtained
  /-- Event TASK_BIND (R26): A free slot binds the highest-priority queued task whose copy tags can be met. -/
  | taskBind
  /-- Event PRIORITY_RAISE (R51): A task waiting 65,536 cycles in a run queue is raised one priority level. -/
  | priorityRaise
  /-- Event DWB_PARK (R34): A wait lasting DWB cycles saves the context and frees the slot, dissolving any crew. -/
  | dwbPark
  /-- Event PARKED_THREAD_WAKE (R36): A parked thread's condition holds and it re-enters its home run queue. -/
  | parkedThreadWake
  /-- Event SPIN_PARK_WAKE (R38): A write to the monitored line requeues the spin-parked thread. -/
  | spinParkWake
  /-- Event SPIN_PARK_TIMEOUT (R38): 1,024 × YDF cycles pass and the spin-parked thread is requeued. -/
  | spinParkTimeout
  /-- Event YIELD_DEADLINE (R359): YDL reaches 0 and the thread is ended with a logged fault. -/
  | yieldDeadline
  /-- Event MIGRATION_ARRIVAL (R46): A migrated context arrives at the chosen core and enters its run queue. -/
  | migrationArrival
  /-- Event JOIN_RECONVERGE (R42): The crew's JOIN conditions come to hold and the crew continues attached. -/
  | joinReconverge
  /-- Event COPY_COMMAND_START (R197): The copy engine reads and checks a block, and starts once armed and clear. -/
  | copyCommandStart
  /-- Event COPY_GRANULE (R197): The copy engine moves one split granule, converting formats as needed. -/
  | copyGranule
  /-- Event COPY_COMPLETE (R198): A copy completes and sets its tag's CTB bit. -/
  | copyComplete
  /-- Event STREAM_OPEN_FLIT (R202): An opening flit claims the destination deck's inbound route. -/
  | streamOpenFlit
  /-- Event STREAM_FLIT_LAND (R203): A stream flit lands in the destination deck, which publishes a slot once it is full. -/
  | streamFlitLand
  /-- Event STREAM_CLOSE_MARKER (R202): The closing marker lands, publishes a partial slot and frees the route. -/
  | streamCloseMarker
  /-- Event PACKET_ARRIVAL (R349): The landing logic accepts, answers busy or denies an arriving launch packet. -/
  | packetArrival
  /-- Event LANDING_SERVER (R209): The landing server acts on an accepted packet and frees its slot. -/
  | landingServer
  /-- Event HOST_PACKET_WRITE (R376): A host write into a landing-window queue page presents a packet. -/
  | hostPacketWrite
  /-- Event HOST_STATUS_READ (R377): A host read of a queue page's status word, returned after earlier writes are decided. -/
  | hostStatusRead
  /-- Event HOST_MEMORY_READ (R378): A host read through DW returns DRAM contents at .sys. -/
  | hostMemoryRead
  /-- Event HOST_MEMORY_WRITE (R378): A host write through DW writes back and invalidates the line, then writes DRAM. -/
  | hostMemoryWrite
  /-- Event CREATE_PARTITION (R373): Mailbox command that grants a partition its groves, memory and tables. -/
  | createPartition
  /-- Event LOAD_IMAGE (R126): Mailbox command that verifies, loads and launches an image. -/
  | loadImage
  /-- Event HALT (R367): Mailbox command that halts a partition. -/
  | halt
  /-- Event RESUME (R368): Mailbox command that resumes a partition. -/
  | resume
  /-- Event RELEASE (R374): Mailbox command that releases a quiet partition's groves. -/
  | release
  /-- Event ATTEST (R382): Mailbox command that returns a signed attestation report. -/
  | attest
  /-- Event SNAPSHOT (R387): Mailbox command that halts, copies the partition to a peer, and resumes. -/
  | snapshot
  /-- Event RESTORE (R387): Mailbox command that restores a snapshot on a replacement package. -/
  | restore
  /-- Event READ_MONITOR_LOG (R375): Mailbox command that returns the monitor log with its drop count. -/
  | readMonitorLog
  /-- Event READ_MARGIN_HISTORY (R385): Mailbox command that returns the margin-table history. -/
  | readMarginHistory
  /-- Event BOOT (R381): On power-on, the boot ROM verifies firmware, trains links and DRAM, and starts the monitor. -/
  | boot
  /-- Event PEER_FAILURE (R386): A peer silent for 1 ms, or reporting failure, is declared failed and fenced. -/
  | peerFailure
  /-- Event FLIT_RESEND (R380): A flit failing its link CRC is resent without duplication or reordering. -/
  | flitResend
  /-- Event VF_STEP (R384): The grove voltage and frequency loop moves the clock one step. -/
  | vfStep
  /-- Event REFRESH_ADJUST (R384): The DRAM refresh interval halves above 85 °C and is restored below 80 °C. -/
  | refreshAdjust
  /-- Event MARGIN_MEASURE (R385): At each grant and once per 24 hours, path delays are measured and the margin table is re-planned. -/
  | marginMeasure
  /-- Event L2_WRITE_BACK (R252): A dirty L2 line of N memory is written to DRAM, by eviction or as the later completion of a WBACK. -/
  | l2WriteBack
  /-- Event LINK_EQUALISATION (R384): The link equalisation loop adjusts a lane's equaliser taps in flit gaps, from its sensed eye margin. -/
  | linkEqualisation
  /-- Event WALKER_PLACEMENT (R384): The walker placement loop changes how many commands each walker runs at once, from 1 to 4, by controller occupancy. -/
  | walkerPlacement
  /-- Event DOMAIN_FORMATION (R319): A scale-up domain is formed or reconfigured, resetting its domain counting networks and their placement. -/
  | domainFormation
deriving DecidableEq, Repr

end Sys2Proof
end

