-- ==== Sys2Proof/Decode.lean ====
section
/-!
DEFINITION. The decoder and the encoder (04 R75-R91). A row of the opcode map is a fixed part, the bits that part
covers, the places of the fields, and the instruction they build. Decoding finds the one row whose fixed part the word
has; a word that has none is refused, naming the field at fault (04 R95, R97). `fieldFault` then names a field whose
value the instruction's entry does not admit. GAP and SW (R77, R82) are reported beside the instruction.
-/
namespace Sys2Proof

/-- One encoding of the opcode map (04 R91): the fixed bits, the bits they cover, each field's low bit and width. -/
structure Row where
  /-- value of the fixed bits -/
  fixed : Nat
  /-- the bits that are fixed -/
  mask : Nat
  /-- low bit and width of each field -/
  fields : List (Nat × Nat)
  /-- the instruction that the field values make -/
  build : List Nat → Option Instr

/-- The 32-bit rows of the opcode map (04 R91), in the order of the table, rows 0 to 15. -/
def rows320 : List Row := [
  ⟨0x00000011, 0xFFC003F1, [(10, 4), (14, 4), (18, 4)], fun | [d, a, b] => some (.add (.ofNat 4 d) (.ofNat 4 a) (.ofNat 4 b)) | _ => none⟩,
  ⟨0x00400011, 0xFFC003F1, [(10, 4), (14, 4), (18, 4)], fun | [d, a, b] => some (.sub (.ofNat 4 d) (.ofNat 4 a) (.ofNat 4 b)) | _ => none⟩,
  ⟨0x00800011, 0xFFC003F1, [(10, 4), (14, 4), (18, 4)], fun | [d, a, b] => some (.and (.ofNat 4 d) (.ofNat 4 a) (.ofNat 4 b)) | _ => none⟩,
  ⟨0x00C00011, 0xFFC003F1, [(10, 4), (14, 4), (18, 4)], fun | [d, a, b] => some (.or (.ofNat 4 d) (.ofNat 4 a) (.ofNat 4 b)) | _ => none⟩,
  ⟨0x01000011, 0xFFC003F1, [(10, 4), (14, 4), (18, 4)], fun | [d, a, b] => some (.xor (.ofNat 4 d) (.ofNat 4 a) (.ofNat 4 b)) | _ => none⟩,
  ⟨0x01400011, 0xFFC003F1, [(10, 4), (14, 4), (18, 4)], fun | [d, a, b] => some (.andn (.ofNat 4 d) (.ofNat 4 a) (.ofNat 4 b)) | _ => none⟩,
  ⟨0x01800011, 0xFFC003F1, [(10, 4), (14, 4), (18, 4)], fun | [d, a, b] => some (.shl (.ofNat 4 d) (.ofNat 4 a) (.ofNat 4 b)) | _ => none⟩,
  ⟨0x01C00011, 0xFFC003F1, [(10, 4), (14, 4), (18, 4)], fun | [d, a, b] => some (.shr (.ofNat 4 d) (.ofNat 4 a) (.ofNat 4 b)) | _ => none⟩,
  ⟨0x02000011, 0xFFC003F1, [(10, 4), (14, 4), (18, 4)], fun | [d, a, b] => some (.sar (.ofNat 4 d) (.ofNat 4 a) (.ofNat 4 b)) | _ => none⟩,
  ⟨0x02400011, 0xFFC003F1, [(10, 4), (14, 4), (18, 4)], fun | [d, a, b] => some (.mul (.ofNat 4 d) (.ofNat 4 a) (.ofNat 4 b)) | _ => none⟩,
  ⟨0x02800011, 0xFFC003F1, [(10, 4), (14, 4), (18, 4)], fun | [d, a, b] => some (.mulh (.ofNat 4 d) (.ofNat 4 a) (.ofNat 4 b)) | _ => none⟩,
  ⟨0x02C00011, 0xFFC003F1, [(10, 4), (14, 4), (18, 4)], fun | [d, a, b] => some (.mulhu (.ofNat 4 d) (.ofNat 4 a) (.ofNat 4 b)) | _ => none⟩,
  ⟨0x03000011, 0xFFC003F1, [(10, 4), (14, 4), (18, 4)], fun | [d, a, b] => some (.div (.ofNat 4 d) (.ofNat 4 a) (.ofNat 4 b)) | _ => none⟩,
  ⟨0x03400011, 0xFFC003F1, [(10, 4), (14, 4), (18, 4)], fun | [d, a, b] => some (.divu (.ofNat 4 d) (.ofNat 4 a) (.ofNat 4 b)) | _ => none⟩,
  ⟨0x03800011, 0xFFC003F1, [(10, 4), (14, 4), (18, 4)], fun | [d, a, b] => some (.rem (.ofNat 4 d) (.ofNat 4 a) (.ofNat 4 b)) | _ => none⟩,
  ⟨0x03C00011, 0xFFC003F1, [(10, 4), (14, 4), (18, 4)], fun | [d, a, b] => some (.remu (.ofNat 4 d) (.ofNat 4 a) (.ofNat 4 b)) | _ => none⟩]

/-- The 32-bit rows of the opcode map (04 R91), in the order of the table, rows 16 to 31. -/
def rows321 : List Row := [
  ⟨0x04000011, 0xFFC003F1, [(10, 4), (14, 4), (18, 4)], fun | [d, a, b] => some (.min (.ofNat 4 d) (.ofNat 4 a) (.ofNat 4 b)) | _ => none⟩,
  ⟨0x04400011, 0xFFC003F1, [(10, 4), (14, 4), (18, 4)], fun | [d, a, b] => some (.max (.ofNat 4 d) (.ofNat 4 a) (.ofNat 4 b)) | _ => none⟩,
  ⟨0x04800011, 0xFFC003F1, [(10, 4), (14, 4), (18, 4)], fun | [d, a, b] => some (.minu (.ofNat 4 d) (.ofNat 4 a) (.ofNat 4 b)) | _ => none⟩,
  ⟨0x04C00011, 0xFFC003F1, [(10, 4), (14, 4), (18, 4)], fun | [d, a, b] => some (.maxu (.ofNat 4 d) (.ofNat 4 a) (.ofNat 4 b)) | _ => none⟩,
  ⟨0x05000011, 0xFFC003F1, [(10, 4), (14, 4), (18, 4)], fun | [d, a, b] => some (.slt (.ofNat 4 d) (.ofNat 4 a) (.ofNat 4 b)) | _ => none⟩,
  ⟨0x05400011, 0xFFC003F1, [(10, 4), (14, 4), (18, 4)], fun | [d, a, b] => some (.sltu (.ofNat 4 d) (.ofNat 4 a) (.ofNat 4 b)) | _ => none⟩,
  ⟨0x05800011, 0xFFC003F1, [(10, 4), (14, 4), (18, 4)], fun | [d, a, b] => some (.seq (.ofNat 4 d) (.ofNat 4 a) (.ofNat 4 b)) | _ => none⟩,
  ⟨0x05C00011, 0xFFFC03F1, [(10, 4), (14, 4)], fun | [d, a] => some (.clz (.ofNat 4 d) (.ofNat 4 a)) | _ => none⟩,
  ⟨0x06000011, 0xFFFC03F1, [(10, 4), (14, 4)], fun | [d, a] => some (.ctz (.ofNat 4 d) (.ofNat 4 a)) | _ => none⟩,
  ⟨0x06400011, 0xFFFC03F1, [(10, 4), (14, 4)], fun | [d, a] => some (.popc (.ofNat 4 d) (.ofNat 4 a)) | _ => none⟩,
  ⟨0x06800011, 0xFFFC03F1, [(10, 4), (14, 4)], fun | [d, a] => some (.sextB (.ofNat 4 d) (.ofNat 4 a)) | _ => none⟩,
  ⟨0x06C00011, 0xFFFC03F1, [(10, 4), (14, 4)], fun | [d, a] => some (.sextH (.ofNat 4 d) (.ofNat 4 a)) | _ => none⟩,
  ⟨0x07000011, 0xFFFC03F1, [(10, 4), (14, 4)], fun | [d, a] => some (.sextW (.ofNat 4 d) (.ofNat 4 a)) | _ => none⟩,
  ⟨0x07400011, 0xFFC003F1, [(10, 4), (14, 4), (18, 4)], fun | [d, a, b] => some (.sel (.ofNat 4 d) (.ofNat 4 a) (.ofNat 4 b)) | _ => none⟩,
  ⟨0x00000021, 0x000003F1, [(10, 4), (14, 4), (18, 14)], fun | [d, a, i] => some (.addi (.ofNat 4 d) (.ofNat 4 a) (.ofNat 14 i)) | _ => none⟩,
  ⟨0x00000031, 0x000003F1, [(10, 4), (14, 4), (18, 14)], fun | [d, a, i] => some (.andi (.ofNat 4 d) (.ofNat 4 a) (.ofNat 14 i)) | _ => none⟩]

/-- The 32-bit rows of the opcode map (04 R91), in the order of the table, rows 32 to 47. -/
def rows322 : List Row := [
  ⟨0x00000041, 0x000003F1, [(10, 4), (14, 4), (18, 14)], fun | [d, a, i] => some (.ori (.ofNat 4 d) (.ofNat 4 a) (.ofNat 14 i)) | _ => none⟩,
  ⟨0x00000051, 0x000003F1, [(10, 4), (14, 4), (18, 14)], fun | [d, a, i] => some (.xori (.ofNat 4 d) (.ofNat 4 a) (.ofNat 14 i)) | _ => none⟩,
  ⟨0x00000061, 0x000003F1, [(10, 4), (14, 4), (18, 14)], fun | [d, a, i] => some (.shli (.ofNat 4 d) (.ofNat 4 a) (.ofNat 14 i)) | _ => none⟩,
  ⟨0x00000071, 0x000003F1, [(10, 4), (14, 4), (18, 14)], fun | [d, a, i] => some (.shri (.ofNat 4 d) (.ofNat 4 a) (.ofNat 14 i)) | _ => none⟩,
  ⟨0x00000081, 0x000003F1, [(10, 4), (14, 4), (18, 14)], fun | [d, a, i] => some (.sari (.ofNat 4 d) (.ofNat 4 a) (.ofNat 14 i)) | _ => none⟩,
  ⟨0x00000091, 0x000003F1, [(10, 4), (14, 4), (18, 14)], fun | [d, a, i] => some (.slti (.ofNat 4 d) (.ofNat 4 a) (.ofNat 14 i)) | _ => none⟩,
  ⟨0x000000A1, 0x000003F1, [(10, 4), (14, 18)], fun | [d, i] => some (.lui (.ofNat 4 d) (.ofNat 18 i)) | _ => none⟩,
  ⟨0x000000B1, 0x000003F1, [(10, 4), (14, 18)], fun | [d, i] => some (.adpc (.ofNat 4 d) (.ofNat 18 i)) | _ => none⟩,
  ⟨0x000000C1, 0x1FC003F1, [(10, 4), (14, 4), (18, 4), (29, 3)], fun | [d, a, b, m] => some (.fadd (.ofNat 4 d) (.ofNat 4 a) (.ofNat 4 b) (.ofNat 3 m)) | _ => none⟩,
  ⟨0x020000C1, 0x1FC003F1, [(10, 4), (14, 4), (18, 4), (29, 3)], fun | [d, a, b, m] => some (.fsub (.ofNat 4 d) (.ofNat 4 a) (.ofNat 4 b) (.ofNat 3 m)) | _ => none⟩,
  ⟨0x040000C1, 0x1FC003F1, [(10, 4), (14, 4), (18, 4), (29, 3)], fun | [d, a, b, m] => some (.fmul (.ofNat 4 d) (.ofNat 4 a) (.ofNat 4 b) (.ofNat 3 m)) | _ => none⟩,
  ⟨0x060000C1, 0x1FC003F1, [(10, 4), (14, 4), (18, 4), (29, 3)], fun | [d, a, b, m] => some (.ffma (.ofNat 4 d) (.ofNat 4 a) (.ofNat 4 b) (.ofNat 3 m)) | _ => none⟩,
  ⟨0x080000C1, 0x1FC003F1, [(10, 4), (14, 4), (18, 4), (29, 3)], fun | [d, a, b, m] => some (.fdiv (.ofNat 4 d) (.ofNat 4 a) (.ofNat 4 b) (.ofNat 3 m)) | _ => none⟩,
  ⟨0x0A0000C1, 0x1FFC03F1, [(10, 4), (14, 4), (29, 3)], fun | [d, a, m] => some (.fsqrt (.ofNat 4 d) (.ofNat 4 a) (.ofNat 3 m)) | _ => none⟩,
  ⟨0x0C0000C1, 0xFFC003F1, [(10, 4), (14, 4), (18, 4)], fun | [d, a, b] => some (.fmin (.ofNat 4 d) (.ofNat 4 a) (.ofNat 4 b)) | _ => none⟩,
  ⟨0x0E0000C1, 0xFFC003F1, [(10, 4), (14, 4), (18, 4)], fun | [d, a, b] => some (.fmax (.ofNat 4 d) (.ofNat 4 a) (.ofNat 4 b)) | _ => none⟩]

/-- The 32-bit rows of the opcode map (04 R91), in the order of the table, rows 48 to 63. -/
def rows323 : List Row := [
  ⟨0x100000C1, 0xFFC003F1, [(10, 4), (14, 4), (18, 4)], fun | [d, a, b] => some (.fcmpEq (.ofNat 4 d) (.ofNat 4 a) (.ofNat 4 b)) | _ => none⟩,
  ⟨0x104000C1, 0xFFC003F1, [(10, 4), (14, 4), (18, 4)], fun | [d, a, b] => some (.fcmpLt (.ofNat 4 d) (.ofNat 4 a) (.ofNat 4 b)) | _ => none⟩,
  ⟨0x108000C1, 0xFFC003F1, [(10, 4), (14, 4), (18, 4)], fun | [d, a, b] => some (.fcmpLe (.ofNat 4 d) (.ofNat 4 a) (.ofNat 4 b)) | _ => none⟩,
  ⟨0x120000C1, 0x1FFC03F1, [(10, 4), (14, 4), (29, 3)], fun | [d, a, m] => some (.fcvtF32I32 (.ofNat 4 d) (.ofNat 4 a) (.ofNat 3 m)) | _ => none⟩,
  ⟨0x124000C1, 0x1FFC03F1, [(10, 4), (14, 4), (29, 3)], fun | [d, a, m] => some (.fcvtI32F32 (.ofNat 4 d) (.ofNat 4 a) (.ofNat 3 m)) | _ => none⟩,
  ⟨0x128000C1, 0x1FFC03F1, [(10, 4), (14, 4), (29, 3)], fun | [d, a, m] => some (.fcvtF32I64 (.ofNat 4 d) (.ofNat 4 a) (.ofNat 3 m)) | _ => none⟩,
  ⟨0x12C000C1, 0x1FFC03F1, [(10, 4), (14, 4), (29, 3)], fun | [d, a, m] => some (.fcvtI64F32 (.ofNat 4 d) (.ofNat 4 a) (.ofNat 3 m)) | _ => none⟩,
  ⟨0x140000C1, 0xFFFC03F1, [(10, 4), (14, 4)], fun | [d, a] => some (.fclass (.ofNat 4 d) (.ofNat 4 a)) | _ => none⟩,
  ⟨0x160000C1, 0xFFFC03F1, [(10, 4), (14, 4)], fun | [d, a] => some (.fmov (.ofNat 4 d) (.ofNat 4 a)) | _ => none⟩,
  ⟨0x180000C1, 0xFFC003F1, [(10, 4), (14, 4), (18, 4)], fun | [d, a, b] => some (.fsgnCp (.ofNat 4 d) (.ofNat 4 a) (.ofNat 4 b)) | _ => none⟩,
  ⟨0x184000C1, 0xFFFC03F1, [(10, 4), (14, 4)], fun | [d, a] => some (.fsgnNeg (.ofNat 4 d) (.ofNat 4 a)) | _ => none⟩,
  ⟨0x188000C1, 0xFFFC03F1, [(10, 4), (14, 4)], fun | [d, a] => some (.fsgnAbs (.ofNat 4 d) (.ofNat 4 a)) | _ => none⟩,
  ⟨0x18C000C1, 0xFFC003F1, [(10, 4), (14, 4), (18, 4)], fun | [d, a, b] => some (.fsgnMul (.ofNat 4 d) (.ofNat 4 a) (.ofNat 4 b)) | _ => none⟩,
  ⟨0x000000D1, 0x000003F1, [(10, 4), (14, 4), (18, 14)], fun | [a, b, i] => some (.beq (.ofNat 4 a) (.ofNat 4 b) (.ofNat 14 i)) | _ => none⟩,
  ⟨0x000000E1, 0x000003F1, [(10, 4), (14, 4), (18, 14)], fun | [a, b, i] => some (.bne (.ofNat 4 a) (.ofNat 4 b) (.ofNat 14 i)) | _ => none⟩,
  ⟨0x000000F1, 0x000003F1, [(10, 4), (14, 4), (18, 14)], fun | [a, b, i] => some (.blt (.ofNat 4 a) (.ofNat 4 b) (.ofNat 14 i)) | _ => none⟩]

/-- The 32-bit rows of the opcode map (04 R91), in the order of the table, rows 64 to 79. -/
def rows324 : List Row := [
  ⟨0x00000101, 0x000003F1, [(10, 4), (14, 4), (18, 14)], fun | [a, b, i] => some (.bge (.ofNat 4 a) (.ofNat 4 b) (.ofNat 14 i)) | _ => none⟩,
  ⟨0x00000111, 0x000003F1, [(10, 4), (14, 4), (18, 14)], fun | [a, b, i] => some (.bltu (.ofNat 4 a) (.ofNat 4 b) (.ofNat 14 i)) | _ => none⟩,
  ⟨0x00000121, 0x000003F1, [(10, 4), (14, 4), (18, 14)], fun | [a, b, i] => some (.bgeu (.ofNat 4 a) (.ofNat 4 b) (.ofNat 14 i)) | _ => none⟩,
  ⟨0x00000131, 0x000003F1, [(10, 4), (14, 18)], fun | [d, i] => some (.call (.ofNat 4 d) (.ofNat 18 i)) | _ => none⟩,
  ⟨0x00000141, 0xFFFC3FF1, [(14, 4)], fun | [a] => some (.jr (.ofNat 4 a)) | _ => none⟩,
  ⟨0x00400141, 0xFFFC03F1, [(10, 4), (14, 4)], fun | [d, a] => some (.callr (.ofNat 4 d) (.ofNat 4 a)) | _ => none⟩,
  ⟨0x00000151, 0x000383F1, [(10, 4), (14, 1), (18, 14)], fun | [a, l, i] => some (.loop (.ofNat 4 a) (.ofNat 1 l) (.ofNat 14 i)) | _ => none⟩,
  ⟨0x00000161, 0x003FFFF1, [(22, 10)], fun | [x] => some (.trap (.ofNat 10 x)) | _ => none⟩,
  ⟨0x00040161, 0xFFFFFFF1, [], fun | [] => some .eret | _ => none⟩,
  ⟨0x00080161, 0x003FC3F1, [(10, 4), (22, 10)], fun | [d, x] => some (.csrr (.ofNat 4 d) (.ofNat 10 x)) | _ => none⟩,
  ⟨0x000C0161, 0x003C3FF1, [(14, 4), (22, 10)], fun | [a, x] => some (.csrw (.ofNat 4 a) (.ofNat 10 x)) | _ => none⟩,
  ⟨0x00100161, 0x003C3FF1, [(14, 4), (22, 10)], fun | [a, x] => some (.csrs (.ofNat 4 a) (.ofNat 10 x)) | _ => none⟩,
  ⟨0x00140161, 0x003C3FF1, [(14, 4), (22, 10)], fun | [a, x] => some (.csrc (.ofNat 4 a) (.ofNat 10 x)) | _ => none⟩,
  ⟨0x00180161, 0xFFFFFFF1, [], fun | [] => some .ifence | _ => none⟩,
  ⟨0x001C0161, 0x003FFFF1, [(22, 10)], fun | [x] => some (.brk (.ofNat 10 x)) | _ => none⟩,
  ⟨0x00200161, 0xF03FFFF1, [(22, 6)], fun | [y] => some (.yield (.ofNat 6 y)) | _ => none⟩]

/-- The 32-bit rows of the opcode map (04 R91), in the order of the table, rows 80 to 95. -/
def rows325 : List Row := [
  ⟨0x00240161, 0xFFFFFFF1, [], fun | [] => some .endTask | _ => none⟩,
  ⟨0x00000171, 0xFF0003F1, [(10, 4), (14, 4), (18, 6)], fun | [d, a, o] => some (.fcld (.ofNat 4 d) (.ofNat 4 a) (.ofNat 6 o)) | _ => none⟩,
  ⟨0x01000171, 0xFF0003F1, [(10, 4), (14, 4), (18, 6)], fun | [d, a, o] => some (.fcst (.ofNat 4 d) (.ofNat 4 a) (.ofNat 6 o)) | _ => none⟩,
  ⟨0x02000171, 0xFF0003F1, [(10, 4), (14, 4), (18, 6)], fun | [d, a, o] => some (.fcvld (.ofNat 4 d) (.ofNat 4 a) (.ofNat 6 o)) | _ => none⟩,
  ⟨0x03000171, 0xFF0003F1, [(10, 4), (14, 4), (18, 6)], fun | [d, a, o] => some (.fcvst (.ofNat 4 d) (.ofNat 4 a) (.ofNat 6 o)) | _ => none⟩,
  ⟨0x00000181, 0x1E0003F1, [(10, 4), (14, 4), (18, 4), (22, 3), (29, 3)], fun | [d, a, b, k, m] => some (.vadd (.ofNat 4 d) (.ofNat 4 a) (.ofNat 4 b) (.ofNat 3 k) (.ofNat 3 m)) | _ => none⟩,
  ⟨0x02000181, 0x1E0003F1, [(10, 4), (14, 4), (18, 4), (22, 3), (29, 3)], fun | [d, a, b, k, m] => some (.vsub (.ofNat 4 d) (.ofNat 4 a) (.ofNat 4 b) (.ofNat 3 k) (.ofNat 3 m)) | _ => none⟩,
  ⟨0x04000181, 0x1E0003F1, [(10, 4), (14, 4), (18, 4), (22, 3), (29, 3)], fun | [d, a, b, k, m] => some (.vmul (.ofNat 4 d) (.ofNat 4 a) (.ofNat 4 b) (.ofNat 3 k) (.ofNat 3 m)) | _ => none⟩,
  ⟨0x06000181, 0x1E0003F1, [(10, 4), (14, 4), (18, 4), (22, 3), (29, 3)], fun | [d, a, b, k, m] => some (.vfma (.ofNat 4 d) (.ofNat 4 a) (.ofNat 4 b) (.ofNat 3 k) (.ofNat 3 m)) | _ => none⟩,
  ⟨0x08000181, 0x1E0003F1, [(10, 4), (14, 4), (18, 4), (22, 3), (29, 3)], fun | [d, a, b, k, m] => some (.vfms (.ofNat 4 d) (.ofNat 4 a) (.ofNat 4 b) (.ofNat 3 k) (.ofNat 3 m)) | _ => none⟩,
  ⟨0x0A000181, 0xFE0003F1, [(10, 4), (14, 4), (18, 4), (22, 3)], fun | [d, a, b, k] => some (.vmin (.ofNat 4 d) (.ofNat 4 a) (.ofNat 4 b) (.ofNat 3 k)) | _ => none⟩,
  ⟨0x0C000181, 0xFE0003F1, [(10, 4), (14, 4), (18, 4), (22, 3)], fun | [d, a, b, k] => some (.vmax (.ofNat 4 d) (.ofNat 4 a) (.ofNat 4 b) (.ofNat 3 k)) | _ => none⟩,
  ⟨0x00000191, 0xFE0003F1, [(10, 4), (14, 4), (18, 4), (22, 3)], fun | [d, a, b, k] => some (.viadd (.ofNat 4 d) (.ofNat 4 a) (.ofNat 4 b) (.ofNat 3 k)) | _ => none⟩,
  ⟨0x02000191, 0xFE0003F1, [(10, 4), (14, 4), (18, 4), (22, 3)], fun | [d, a, b, k] => some (.visub (.ofNat 4 d) (.ofNat 4 a) (.ofNat 4 b) (.ofNat 3 k)) | _ => none⟩,
  ⟨0x04000191, 0xFE0003F1, [(10, 4), (14, 4), (18, 4), (22, 3)], fun | [d, a, b, k] => some (.vimul (.ofNat 4 d) (.ofNat 4 a) (.ofNat 4 b) (.ofNat 3 k)) | _ => none⟩,
  ⟨0x06000191, 0xFE0003F1, [(10, 4), (14, 4), (18, 4), (22, 3)], fun | [d, a, b, k] => some (.vand (.ofNat 4 d) (.ofNat 4 a) (.ofNat 4 b) (.ofNat 3 k)) | _ => none⟩]

/-- The 32-bit rows of the opcode map (04 R91), in the order of the table, rows 96 to 111. -/
def rows326 : List Row := [
  ⟨0x08000191, 0xFE0003F1, [(10, 4), (14, 4), (18, 4), (22, 3)], fun | [d, a, b, k] => some (.vor (.ofNat 4 d) (.ofNat 4 a) (.ofNat 4 b) (.ofNat 3 k)) | _ => none⟩,
  ⟨0x0A000191, 0xFE0003F1, [(10, 4), (14, 4), (18, 4), (22, 3)], fun | [d, a, b, k] => some (.vxor (.ofNat 4 d) (.ofNat 4 a) (.ofNat 4 b) (.ofNat 3 k)) | _ => none⟩,
  ⟨0x0C000191, 0xFE0003F1, [(10, 4), (14, 4), (18, 4), (22, 3)], fun | [d, a, b, k] => some (.vshl (.ofNat 4 d) (.ofNat 4 a) (.ofNat 4 b) (.ofNat 3 k)) | _ => none⟩,
  ⟨0x0E000191, 0xFE0003F1, [(10, 4), (14, 4), (18, 4), (22, 3)], fun | [d, a, b, k] => some (.vshr (.ofNat 4 d) (.ofNat 4 a) (.ofNat 4 b) (.ofNat 3 k)) | _ => none⟩,
  ⟨0x10000191, 0xFE0003F1, [(10, 4), (14, 4), (18, 4), (22, 3)], fun | [d, a, b, k] => some (.vsar (.ofNat 4 d) (.ofNat 4 a) (.ofNat 4 b) (.ofNat 3 k)) | _ => none⟩,
  ⟨0x000001A1, 0x000003F1, [(10, 4), (14, 4), (18, 4), (22, 3), (25, 4), (29, 3)], fun | [d, a, b, k, r, t] => some (.vcmp (.ofNat 4 d) (.ofNat 4 a) (.ofNat 4 b) (.ofNat 3 k) (.ofNat 4 r) (.ofNat 3 t)) | _ => none⟩,
  ⟨0x000001B1, 0xFE0003F1, [(10, 4), (14, 4), (18, 4), (22, 3)], fun | [d, a, b, k] => some (.vsel (.ofNat 4 d) (.ofNat 4 a) (.ofNat 4 b) (.ofNat 3 k)) | _ => none⟩,
  ⟨0x020001B1, 0xFE3C03F1, [(10, 4), (14, 4), (22, 3)], fun | [d, a, k] => some (.vmov (.ofNat 4 d) (.ofNat 4 a) (.ofNat 3 k)) | _ => none⟩,
  ⟨0x040001B1, 0xFE3C03F1, [(10, 4), (14, 4), (22, 3)], fun | [d, a, k] => some (.vbcast (.ofNat 4 d) (.ofNat 4 a) (.ofNat 3 k)) | _ => none⟩,
  ⟨0x060001B1, 0xFFC003F1, [(10, 4), (14, 4), (18, 4)], fun | [d, a, b] => some (.vext (.ofNat 4 d) (.ofNat 4 a) (.ofNat 4 b)) | _ => none⟩,
  ⟨0x080001B1, 0xFFC003F1, [(10, 4), (14, 4), (18, 4)], fun | [d, a, b] => some (.vins (.ofNat 4 d) (.ofNat 4 a) (.ofNat 4 b)) | _ => none⟩,
  ⟨0x0A0001B1, 0xFE3FC3F1, [(10, 4), (22, 3)], fun | [d, k] => some (.viota (.ofNat 4 d) (.ofNat 3 k)) | _ => none⟩,
  ⟨0x0C0001B1, 0xFE0003F1, [(10, 4), (14, 4), (18, 4), (22, 3)], fun | [d, a, b, k] => some (.vperm (.ofNat 4 d) (.ofNat 4 a) (.ofNat 4 b) (.ofNat 3 k)) | _ => none⟩,
  ⟨0x0E0001B1, 0xDE0003F1, [(10, 4), (14, 4), (18, 4), (22, 3), (29, 1)], fun | [d, a, b, k, u] => some (.vslide (.ofNat 4 d) (.ofNat 4 a) (.ofNat 4 b) (.ofNat 3 k) (.ofNat 1 u)) | _ => none⟩,
  ⟨0x000001C1, 0x1E3C03F1, [(10, 4), (14, 4), (22, 3), (29, 3)], fun | [d, a, k, m] => some (.vredsum (.ofNat 4 d) (.ofNat 4 a) (.ofNat 3 k) (.ofNat 3 m)) | _ => none⟩,
  ⟨0x020001C1, 0xFE3C03F1, [(10, 4), (14, 4), (22, 3)], fun | [d, a, k] => some (.vredmax (.ofNat 4 d) (.ofNat 4 a) (.ofNat 3 k)) | _ => none⟩]

/-- The 32-bit rows of the opcode map (04 R91), in the order of the table, rows 112 to 127. -/
def rows327 : List Row := [
  ⟨0x040001C1, 0xFE3C03F1, [(10, 4), (14, 4), (22, 3)], fun | [d, a, k] => some (.vredmin (.ofNat 4 d) (.ofNat 4 a) (.ofNat 3 k)) | _ => none⟩,
  ⟨0x000001D1, 0xFE3C03F1, [(10, 4), (14, 4), (22, 3)], fun | [d, a, k] => some (.vrcp (.ofNat 4 d) (.ofNat 4 a) (.ofNat 3 k)) | _ => none⟩,
  ⟨0x020001D1, 0xFE3C03F1, [(10, 4), (14, 4), (22, 3)], fun | [d, a, k] => some (.vrsq (.ofNat 4 d) (.ofNat 4 a) (.ofNat 3 k)) | _ => none⟩,
  ⟨0x040001D1, 0xFE3C03F1, [(10, 4), (14, 4), (22, 3)], fun | [d, a, k] => some (.vexp2 (.ofNat 4 d) (.ofNat 4 a) (.ofNat 3 k)) | _ => none⟩,
  ⟨0x060001D1, 0xFE3C03F1, [(10, 4), (14, 4), (22, 3)], fun | [d, a, k] => some (.vlog2 (.ofNat 4 d) (.ofNat 4 a) (.ofNat 3 k)) | _ => none⟩,
  ⟨0x000001E1, 0x000003F1, [(10, 4), (14, 4), (18, 4), (22, 3), (25, 4), (29, 3)], fun | [d, a, e, k, f, m] => some (.vcvt (.ofNat 4 d) (.ofNat 4 a) (.ofNat 4 e) (.ofNat 3 k) (.ofNat 4 f) (.ofNat 3 m)) | _ => none⟩,
  ⟨0x000001F1, 0x002003F1, [(10, 4), (14, 4), (18, 3), (22, 3), (25, 4), (29, 3)], fun | [d, a, b, k, f, m] => some (.vqnt (.ofNat 4 d) (.ofNat 4 a) (.ofNat 3 b) (.ofNat 3 k) (.ofNat 4 f) (.ofNat 3 m)) | _ => none⟩,
  ⟨0x00000201, 0x002003F1, [(10, 4), (14, 4), (18, 3), (22, 3), (25, 4), (29, 3)], fun | [d, a, b, k, f, m] => some (.vdeq (.ofNat 4 d) (.ofNat 4 a) (.ofNat 3 b) (.ofNat 3 k) (.ofNat 4 f) (.ofNat 3 m)) | _ => none⟩,
  ⟨0x00000211, 0x1E0003F1, [(10, 4), (14, 4), (18, 4), (22, 3), (29, 3)], fun | [d, a, f, k, m] => some (.vsrnd (.ofNat 4 d) (.ofNat 4 a) (.ofNat 4 f) (.ofNat 3 k) (.ofNat 3 m)) | _ => none⟩,
  ⟨0x02000211, 0x1E0003F1, [(10, 4), (14, 4), (18, 4), (22, 3), (29, 3)], fun | [d, a, b, k, m] => some (.vsacc (.ofNat 4 d) (.ofNat 4 a) (.ofNat 4 b) (.ofNat 3 k) (.ofNat 3 m)) | _ => none⟩,
  ⟨0x00000221, 0xFFE223F1, [(10, 3), (14, 3), (18, 3)], fun | [d, a, b] => some (.kand (.ofNat 3 d) (.ofNat 3 a) (.ofNat 3 b)) | _ => none⟩,
  ⟨0x00400221, 0xFFE223F1, [(10, 3), (14, 3), (18, 3)], fun | [d, a, b] => some (.kor (.ofNat 3 d) (.ofNat 3 a) (.ofNat 3 b)) | _ => none⟩,
  ⟨0x00800221, 0xFFE223F1, [(10, 3), (14, 3), (18, 3)], fun | [d, a, b] => some (.kxor (.ofNat 3 d) (.ofNat 3 a) (.ofNat 3 b)) | _ => none⟩,
  ⟨0x00C00221, 0xFFFE23F1, [(10, 3), (14, 3)], fun | [d, a] => some (.knot (.ofNat 3 d) (.ofNat 3 a)) | _ => none⟩,
  ⟨0x01000221, 0xFFFE23F1, [(10, 3), (14, 3)], fun | [d, a] => some (.kmov (.ofNat 3 d) (.ofNat 3 a)) | _ => none⟩,
  ⟨0x01400221, 0xFFFE03F1, [(10, 4), (14, 3)], fun | [d, a] => some (.kpopc (.ofNat 4 d) (.ofNat 3 a)) | _ => none⟩]

/-- The 32-bit rows of the opcode map (04 R91), in the order of the table, rows 128 to 143. -/
def rows328 : List Row := [
  ⟨0x01800221, 0xFFFE03F1, [(10, 4), (14, 3)], fun | [d, a] => some (.kfirst (.ofNat 4 d) (.ofNat 3 a)) | _ => none⟩,
  ⟨0x00000231, 0xFFFC03F1, [(10, 4), (14, 4)], fun | [d, a] => some (.tspawn (.ofNat 4 d) (.ofNat 4 a)) | _ => none⟩,
  ⟨0x00400231, 0x03C03FF1, [(14, 4), (18, 4), (26, 6)], fun | [a, b, n] => some (.tdec (.ofNat 4 a) (.ofNat 4 b) (.ofNat 6 n)) | _ => none⟩,
  ⟨0x00800231, 0xFFFFC3F1, [(10, 4)], fun | [d] => some (.tself (.ofNat 4 d)) | _ => none⟩,
  ⟨0x00C00231, 0xFFFC3FF1, [(14, 4)], fun | [a] => some (.migr (.ofNat 4 a)) | _ => none⟩,
  ⟨0x00000241, 0x03FFFFF1, [(26, 6)], fun | [n] => some (.gang (.ofNat 6 n)) | _ => none⟩,
  ⟨0x00400241, 0xFFFFFFF1, [], fun | [] => some .gdis | _ => none⟩,
  ⟨0x00800241, 0xFFFFFFF1, [], fun | [] => some .join | _ => none⟩,
  ⟨0x00C00241, 0xFFFFFFF1, [], fun | [] => some .detach | _ => none⟩,
  ⟨0x00000251, 0x001C23F1, [(10, 3), (14, 4), (21, 11)], fun | [h, a, n] => some (.dbind (.ofNat 3 h) (.ofNat 4 a) (.ofNat 11 n)) | _ => none⟩,
  ⟨0x00040251, 0x001C23F1, [(10, 3), (14, 4), (21, 11)], fun | [h, a, n] => some (.dwaitc (.ofNat 3 h) (.ofNat 4 a) (.ofNat 11 n)) | _ => none⟩,
  ⟨0x00080251, 0x001C23F1, [(10, 3), (14, 4), (21, 11)], fun | [h, a, n] => some (.dwaitp (.ofNat 3 h) (.ofNat 4 a) (.ofNat 11 n)) | _ => none⟩,
  ⟨0x000C0251, 0x001C23F1, [(10, 3), (14, 4), (21, 11)], fun | [h, a, n] => some (.dadvc (.ofNat 3 h) (.ofNat 4 a) (.ofNat 11 n)) | _ => none⟩,
  ⟨0x00100251, 0x001C23F1, [(10, 3), (14, 4), (21, 11)], fun | [h, a, n] => some (.dadvp (.ofNat 3 h) (.ofNat 4 a) (.ofNat 11 n)) | _ => none⟩,
  ⟨0x00000261, 0x03C03FF1, [(14, 4), (18, 4), (26, 2), (28, 4)], fun | [a, b, p, n] => some (.cpy (.ofNat 4 a) (.ofNat 4 b) (.ofNat 2 p) (.ofNat 4 n)) | _ => none⟩,
  ⟨0x00400261, 0x03C03FF1, [(14, 4), (18, 4), (26, 2), (28, 4)], fun | [a, b, p, n] => some (.cpy2 (.ofNat 4 a) (.ofNat 4 b) (.ofNat 2 p) (.ofNat 4 n)) | _ => none⟩]

/-- The 32-bit rows of the opcode map (04 R91), in the order of the table, rows 144 to 159. -/
def rows329 : List Row := [
  ⟨0x00000271, 0xFFFC3FF1, [(14, 4)], fun | [a] => some (.cwaitany (.ofNat 4 a)) | _ => none⟩,
  ⟨0x00400271, 0xFFFC3FF1, [(14, 4)], fun | [a] => some (.cwaitall (.ofNat 4 a)) | _ => none⟩,
  ⟨0x00800271, 0xFFFFC3F1, [(10, 4)], fun | [d] => some (.cfind (.ofNat 4 d)) | _ => none⟩,
  ⟨0x00C00271, 0xFFFC3FF1, [(14, 4)], fun | [a] => some (.ctagclr (.ofNat 4 a)) | _ => none⟩,
  ⟨0x00000281, 0xF3FC3FF1, [(14, 4), (26, 2)], fun | [a, s] => some (.sopen (.ofNat 4 a) (.ofNat 2 s)) | _ => none⟩,
  ⟨0x00400281, 0xF3FFFFF1, [(26, 2)], fun | [s] => some (.sclose (.ofNat 2 s)) | _ => none⟩,
  ⟨0x00000291, 0xE03C33F1, [(10, 2), (14, 4), (22, 3), (25, 4)], fun | [s, a, k, c] => some (.ssend (.ofNat 2 s) (.ofNat 4 a) (.ofNat 3 k) (.ofNat 4 c)) | _ => none⟩,
  ⟨0x000002A1, 0xFFC003F1, [(10, 4), (14, 4), (18, 4)], fun | [d, a, b] => some (.plnch (.ofNat 4 d) (.ofNat 4 a) (.ofNat 4 b)) | _ => none⟩,
  ⟨0x004002A1, 0xFFFC03F1, [(10, 4), (14, 4)], fun | [d, a] => some (.greplay (.ofNat 4 d) (.ofNat 4 a)) | _ => none⟩,
  ⟨0x000002B1, 0x000003F1, [(10, 4), (14, 4), (18, 2), (20, 1), (21, 1), (22, 10)], fun | [d, a, w, k, x, i] => some (.ld (.ofNat 4 d) (.ofNat 4 a) (.ofNat 2 w) (.ofNat 1 k) (.ofNat 1 x) (.ofNat 10 i)) | _ => none⟩,
  ⟨0x000002C1, 0x002003F1, [(10, 4), (14, 4), (18, 2), (20, 1), (22, 10)], fun | [d, a, w, k, i] => some (.st (.ofNat 4 d) (.ofNat 4 a) (.ofNat 2 w) (.ofNat 1 k) (.ofNat 10 i)) | _ => none⟩,
  ⟨0x000002D1, 0x000003F1, [(10, 4), (14, 4), (18, 2), (20, 1), (21, 1), (22, 3), (25, 7)], fun | [d, a, w, k, x, c, i] => some (.ldacq (.ofNat 4 d) (.ofNat 4 a) (.ofNat 2 w) (.ofNat 1 k) (.ofNat 1 x) (.ofNat 3 c) (.ofNat 7 i)) | _ => none⟩,
  ⟨0x000002E1, 0x002003F1, [(10, 4), (14, 4), (18, 2), (20, 1), (22, 3), (25, 7)], fun | [d, a, w, k, c, i] => some (.strel (.ofNat 4 d) (.ofNat 4 a) (.ofNat 2 w) (.ofNat 1 k) (.ofNat 3 c) (.ofNat 7 i)) | _ => none⟩,
  ⟨0x000002F1, 0xFE3C03F1, [(10, 4), (14, 4), (22, 3)], fun | [d, a, k] => some (.vld (.ofNat 4 d) (.ofNat 4 a) (.ofNat 3 k)) | _ => none⟩,
  ⟨0x020002F1, 0xFE0003F1, [(10, 4), (14, 4), (18, 4), (22, 3)], fun | [d, a, b, k] => some (.vlds (.ofNat 4 d) (.ofNat 4 a) (.ofNat 4 b) (.ofNat 3 k)) | _ => none⟩,
  ⟨0x040002F1, 0xFE0003F1, [(10, 4), (14, 4), (18, 4), (22, 3)], fun | [d, a, b, k] => some (.vldx (.ofNat 4 d) (.ofNat 4 a) (.ofNat 4 b) (.ofNat 3 k)) | _ => none⟩]

/-- The 32-bit rows of the opcode map (04 R91), in the order of the table, rows 160 to 175. -/
def rows3210 : List Row := [
  ⟨0x060002F1, 0xFE3C03F1, [(10, 4), (14, 4), (22, 3)], fun | [d, a, k] => some (.vld6 (.ofNat 4 d) (.ofNat 4 a) (.ofNat 3 k)) | _ => none⟩,
  ⟨0x00000301, 0x0E3C03F1, [(10, 4), (14, 4), (22, 3), (28, 3), (31, 1)], fun | [d, a, k, s, t] => some (.vst (.ofNat 4 d) (.ofNat 4 a) (.ofNat 3 k) (.ofNat 3 s) (.ofNat 1 t)) | _ => none⟩,
  ⟨0x02000301, 0x0E0003F1, [(10, 4), (14, 4), (18, 4), (22, 3), (28, 3), (31, 1)], fun | [d, a, b, k, s, t] => some (.vsts (.ofNat 4 d) (.ofNat 4 a) (.ofNat 4 b) (.ofNat 3 k) (.ofNat 3 s) (.ofNat 1 t)) | _ => none⟩,
  ⟨0x04000301, 0x0E0003F1, [(10, 4), (14, 4), (18, 4), (22, 3), (28, 3), (31, 1)], fun | [d, a, b, k, s, t] => some (.vstx (.ofNat 4 d) (.ofNat 4 a) (.ofNat 4 b) (.ofNat 3 k) (.ofNat 3 s) (.ofNat 1 t)) | _ => none⟩,
  ⟨0x06000301, 0x0E3C03F1, [(10, 4), (14, 4), (22, 3), (28, 3), (31, 1)], fun | [d, a, k, s, t] => some (.vst6 (.ofNat 4 d) (.ofNat 4 a) (.ofNat 3 k) (.ofNat 3 s) (.ofNat 1 t)) | _ => none⟩,
  ⟨0x00000311, 0xFFFC3FF1, [(14, 4)], fun | [a] => some (.discard (.ofNat 4 a)) | _ => none⟩,
  ⟨0x00400311, 0xFDFC3FF1, [(14, 4), (25, 1)], fun | [a, l] => some (.pref (.ofNat 4 a) (.ofNat 1 l)) | _ => none⟩,
  ⟨0x00800311, 0xFFFC3FF1, [(14, 4)], fun | [a] => some (.wback (.ofNat 4 a)) | _ => none⟩,
  ⟨0x00C00311, 0xF1FFFFF1, [(25, 3)], fun | [c] => some (.fence (.ofNat 3 c)) | _ => none⟩,
  ⟨0x01000311, 0xFFFFFFF1, [], fun | [] => some .fencel | _ => none⟩,
  ⟨0x01400311, 0xF1FC3FF1, [(14, 4), (25, 3)], fun | [a, c] => some (.fenceh (.ofNat 4 a) (.ofNat 3 c)) | _ => none⟩,
  ⟨0x00000321, 0xC1C003F1, [(10, 4), (14, 4), (18, 4), (25, 4), (29, 1)], fun | [d, a, b, o, n] => some (.amo (.ofNat 4 d) (.ofNat 4 a) (.ofNat 4 b) (.ofNat 4 o) (.ofNat 1 n)) | _ => none⟩,
  ⟨0x00400321, 0xDFC003F1, [(10, 4), (14, 4), (18, 4), (29, 1)], fun | [d, a, b, n] => some (.cas (.ofNat 4 d) (.ofNat 4 a) (.ofNat 4 b) (.ofNat 1 n)) | _ => none⟩,
  ⟨0x00800321, 0xE1C003F1, [(10, 4), (14, 4), (18, 4), (25, 4)], fun | [d, a, b, o] => some (.famo (.ofNat 4 d) (.ofNat 4 a) (.ofNat 4 b) (.ofNat 4 o)) | _ => none⟩,
  ⟨0x00C00321, 0xC1C03FF1, [(14, 4), (18, 4), (25, 4), (29, 1)], fun | [a, b, o, n] => some (.red (.ofNat 4 a) (.ofNat 4 b) (.ofNat 4 o) (.ofNat 1 n)) | _ => none⟩,
  ⟨0x01000321, 0xE1C03FF1, [(14, 4), (18, 4), (25, 4)], fun | [a, b, o] => some (.fred (.ofNat 4 a) (.ofNat 4 b) (.ofNat 4 o)) | _ => none⟩]

/-- The 32-bit rows of the opcode map (04 R91), in the order of the table, rows 176 to 191. -/
def rows3211 : List Row := [
  ⟨0x00000331, 0xE00003F1, [(10, 4), (14, 4), (18, 4), (22, 3), (25, 4)], fun | [d, a, b, k, o] => some (.vred (.ofNat 4 d) (.ofNat 4 a) (.ofNat 4 b) (.ofNat 3 k) (.ofNat 4 o)) | _ => none⟩,
  ⟨0x00000341, 0xF03C03F1, [(10, 2), (12, 2), (14, 4), (22, 4), (26, 1), (27, 1)], fun | [n, m, a, f, s, c] => some (.mma (.ofNat 2 n) (.ofNat 2 m) (.ofNat 4 a) (.ofNat 4 f) (.ofNat 1 s) (.ofNat 1 c)) | _ => none⟩,
  ⟨0x00000351, 0xF83C33F1, [(10, 2), (14, 4), (22, 4), (26, 1)], fun | [n, a, f, k] => some (.mlda (.ofNat 2 n) (.ofNat 4 a) (.ofNat 4 f) (.ofNat 1 k)) | _ => none⟩,
  ⟨0x00000361, 0xF8003FF1, [(14, 4), (18, 4), (22, 4), (26, 1)], fun | [a, b, f, c] => some (.mldb (.ofNat 4 a) (.ofNat 4 b) (.ofNat 4 f) (.ofNat 1 c)) | _ => none⟩,
  ⟨0x00000371, 0x002033F1, [(10, 2), (14, 4), (18, 3), (22, 4), (26, 3), (29, 1), (30, 1), (31, 1)], fun | [n, a, s, f, m, c, t, k] => some (.mdrain (.ofNat 2 n) (.ofNat 4 a) (.ofNat 3 s) (.ofNat 4 f) (.ofNat 3 m) (.ofNat 1 c) (.ofNat 1 t) (.ofNat 1 k)) | _ => none⟩,
  ⟨0x00000381, 0xFBFFFFF1, [(26, 1)], fun | [l] => some (.mown (.ofNat 1 l)) | _ => none⟩,
  ⟨0x00400381, 0xFFFFF3F1, [(10, 2)], fun | [n] => some (.mzero (.ofNat 2 n)) | _ => none⟩,
  ⟨0x00800381, 0xFFFC03F1, [(10, 2), (12, 2), (14, 4)], fun | [d, s, a] => some (.msacc (.ofNat 2 d) (.ofNat 2 s) (.ofNat 4 a)) | _ => none⟩,
  ⟨0x00C00381, 0xFFFC33F1, [(10, 2), (14, 4)], fun | [n, a] => some (.mswap (.ofNat 2 n) (.ofNat 4 a)) | _ => none⟩,
  ⟨0x01000381, 0xFFF3C3F1, [(10, 4), (18, 2)], fun | [d, n] => some (.mflag (.ofNat 4 d) (.ofNat 2 n)) | _ => none⟩,
  ⟨0x00000391, 0xFFFC3FF1, [(14, 4)], fun | [a] => some (.pcfg (.ofNat 4 a)) | _ => none⟩,
  ⟨0x00400391, 0xFFE223F1, [(10, 3), (14, 3), (18, 3)], fun | [d, a, b] => some (.pstep (.ofNat 3 d) (.ofNat 3 a) (.ofNat 3 b)) | _ => none⟩,
  ⟨0x00800391, 0xFFFC3FF1, [(14, 4)], fun | [a] => some (.pfade (.ofNat 4 a)) | _ => none⟩,
  ⟨0x00C00391, 0xFBC03FF1, [(14, 4), (18, 4), (26, 1)], fun | [a, b, r] => some (.prwd (.ofNat 4 a) (.ofNat 4 b) (.ofNat 1 r)) | _ => none⟩,
  ⟨0x01000391, 0xFFFC3FF1, [(14, 4)], fun | [a] => some (.pgate (.ofNat 4 a)) | _ => none⟩,
  ⟨0x01400391, 0xFFFC03F1, [(10, 4), (14, 4)], fun | [d, a] => some (.prd (.ofNat 4 d) (.ofNat 4 a)) | _ => none⟩]

/-- The 32-bit rows of the opcode map (04 R91), in the order of the table, rows 192 to 207. -/
def rows3212 : List Row := [
  ⟨0x01800391, 0xFFC03FF1, [(14, 4), (18, 4)], fun | [a, b] => some (.pwr (.ofNat 4 a) (.ofNat 4 b)) | _ => none⟩,
  ⟨0x01C00391, 0xFFFFC3F1, [(10, 4)], fun | [d] => some (.pstat (.ofNat 4 d)) | _ => none⟩,
  ⟨0x000003A1, 0x03C03FF1, [(14, 4), (18, 4), (26, 2), (28, 4)], fun | [a, b, p, n] => some (.nwalk (.ofNat 4 a) (.ofNat 4 b) (.ofNat 2 p) (.ofNat 4 n)) | _ => none⟩,
  ⟨0x004003A1, 0x03C03FF1, [(14, 4), (18, 4), (26, 2), (28, 4)], fun | [a, b, p, n] => some (.nadd (.ofNat 4 a) (.ofNat 4 b) (.ofNat 2 p) (.ofNat 4 n)) | _ => none⟩,
  ⟨0x008003A1, 0x03C03FF1, [(14, 4), (18, 4), (26, 2), (28, 4)], fun | [a, b, p, n] => some (.nupd (.ofNat 4 a) (.ofNat 4 b) (.ofNat 2 p) (.ofNat 4 n)) | _ => none⟩,
  ⟨0x00C003A1, 0xFFFFFFF1, [], fun | [] => some .nfence | _ => none⟩,
  ⟨0x010003A1, 0x03FC03F1, [(10, 4), (14, 4), (26, 2), (28, 4)], fun | [d, a, p, n] => some (.bred (.ofNat 4 d) (.ofNat 4 a) (.ofNat 2 p) (.ofNat 4 n)) | _ => none⟩,
  ⟨0x014003A1, 0xFFFC03F1, [(10, 4), (14, 4)], fun | [d, a] => some (.bpoll (.ofNat 4 d) (.ofNat 4 a)) | _ => none⟩,
  ⟨0x000003B1, 0xFFFC03F1, [(10, 4), (14, 4)], fun | [d, a] => some (.take (.ofNat 4 d) (.ofNat 4 a)) | _ => none⟩,
  ⟨0x004003B1, 0xFFC003F1, [(10, 4), (14, 4), (18, 4)], fun | [d, a, b] => some (.takeb (.ofNat 4 d) (.ofNat 4 a) (.ofNat 4 b)) | _ => none⟩,
  ⟨0x008003B1, 0xFFC03FF1, [(14, 4), (18, 4)], fun | [a, b] => some (.nsave (.ofNat 4 a) (.ofNat 4 b)) | _ => none⟩,
  ⟨0x00C003B1, 0xFFC03FF1, [(14, 4), (18, 4)], fun | [a, b] => some (.nrest (.ofNat 4 a) (.ofNat 4 b)) | _ => none⟩,
  ⟨0x010003B1, 0xFFC03FF1, [(14, 4), (18, 4)], fun | [a, b] => some (.nreset (.ofNat 4 a) (.ofNat 4 b)) | _ => none⟩,
  ⟨0x000003C1, 0xFFC03FF1, [(14, 4), (18, 4)], fun | [a, b] => some (.stata (.ofNat 4 a) (.ofNat 4 b)) | _ => none⟩,
  ⟨0x004003C1, 0xFFFC3FF1, [(14, 4)], fun | [a] => some (.statc (.ofNat 4 a)) | _ => none⟩,
  ⟨0x008003C1, 0x83C023F1, [(10, 3), (14, 4), (18, 4), (26, 2), (28, 3)], fun | [n, a, b, h, c] => some (.statl (.ofNat 3 n) (.ofNat 4 a) (.ofNat 4 b) (.ofNat 2 h) (.ofNat 3 c)) | _ => none⟩]

/-- The 32-bit rows of the opcode map (04 R91), in the order of the table, rows 208 to 217. -/
def rows3213 : List Row := [
  ⟨0x00C003C1, 0xFFC003F1, [(10, 4), (14, 4), (18, 4)], fun | [d, a, b] => some (.statr (.ofNat 4 d) (.ofNat 4 a) (.ofNat 4 b)) | _ => none⟩,
  ⟨0x000003D1, 0xFFFC3FF1, [(14, 4)], fun | [a] => some (.evcfg (.ofNat 4 a)) | _ => none⟩,
  ⟨0x004003D1, 0xE3FFFFF1, [(26, 3)], fun | [l] => some (.evpulse (.ofNat 3 l)) | _ => none⟩,
  ⟨0x008003D1, 0xFFFC03F1, [(10, 4), (14, 4)], fun | [d, a] => some (.evrd (.ofNat 4 d) (.ofNat 4 a)) | _ => none⟩,
  ⟨0x00C003D1, 0xFFC03FF1, [(14, 4), (18, 4)], fun | [a, b] => some (.actw (.ofNat 4 a) (.ofNat 4 b)) | _ => none⟩,
  ⟨0x000003E1, 0xFFFC3FF1, [(14, 4)], fun | [a] => some (.haltp (.ofNat 4 a)) | _ => none⟩,
  ⟨0x000403E1, 0xFFFC3FF1, [(14, 4)], fun | [a] => some (.resumep (.ofNat 4 a)) | _ => none⟩,
  ⟨0x000803E1, 0xFFBC03F1, [(10, 4), (14, 4), (22, 1)], fun | [d, a, u] => some (.ctxsv (.ofNat 4 d) (.ofNat 4 a) (.ofNat 1 u)) | _ => none⟩,
  ⟨0x000C03E1, 0xFFBC03F1, [(10, 4), (14, 4), (22, 1)], fun | [d, a, u] => some (.ctxld (.ofNat 4 d) (.ofNat 4 a) (.ofNat 1 u)) | _ => none⟩,
  ⟨0x000003F1, 0xFFC003FF, [(10, 1), (11, 1), (12, 1), (13, 1), (14, 6), (20, 2)], fun | [u, r, q, p, s, t] => some (.mod (.ofNat 1 u) (.ofNat 1 r) (.ofNat 1 q) (.ofNat 1 p) (.ofNat 6 s) (.ofNat 2 t)) | _ => none⟩]

/-- The 32-bit rows of the opcode map (04 R91), in the order of the table. -/
def rows32 : List Row :=
  rows320 ++ rows321 ++ rows322 ++ rows323 ++ rows324 ++ rows325 ++ rows326 ++ rows327 ++ rows328 ++ rows329 ++ rows3210 ++ rows3211 ++ rows3212 ++ rows3213

/-- The 16-bit rows (04 R83, R84), rows 0 to 15. -/
def rows160 : List Row := [
  ⟨0x0000, 0x803F, [(6, 4), (10, 4)], fun | [d, s] => some (.vaddF32 (.ofNat 4 d) (.ofNat 4 s)) | _ => none⟩,
  ⟨0x0004, 0x803F, [(6, 4), (10, 4)], fun | [d, s] => some (.vsubF32 (.ofNat 4 d) (.ofNat 4 s)) | _ => none⟩,
  ⟨0x0008, 0x803F, [(6, 4), (10, 4)], fun | [d, s] => some (.vmulF32 (.ofNat 4 d) (.ofNat 4 s)) | _ => none⟩,
  ⟨0x000C, 0x803F, [(6, 4), (10, 4)], fun | [d, s] => some (.vmaxF32 (.ofNat 4 d) (.ofNat 4 s)) | _ => none⟩,
  ⟨0x0010, 0x803F, [(6, 4), (10, 4)], fun | [d, s] => some (.vminF32 (.ofNat 4 d) (.ofNat 4 s)) | _ => none⟩,
  ⟨0x0014, 0x803F, [(6, 4), (10, 4)], fun | [d, s] => some (.viadd16 (.ofNat 4 d) (.ofNat 4 s)) | _ => none⟩,
  ⟨0x0018, 0x803F, [(6, 4), (10, 4)], fun | [d, s] => some (.visub16 (.ofNat 4 d) (.ofNat 4 s)) | _ => none⟩,
  ⟨0x001C, 0x803F, [(6, 4), (10, 4)], fun | [d, s] => some (.vand16 (.ofNat 4 d) (.ofNat 4 s)) | _ => none⟩,
  ⟨0x0020, 0x803F, [(6, 4), (10, 4)], fun | [d, s] => some (.vor16 (.ofNat 4 d) (.ofNat 4 s)) | _ => none⟩,
  ⟨0x0024, 0x803F, [(6, 4), (10, 4)], fun | [d, s] => some (.vxor16 (.ofNat 4 d) (.ofNat 4 s)) | _ => none⟩,
  ⟨0x0028, 0x803F, [(6, 4), (10, 4)], fun | [d, s] => some (.vshl16 (.ofNat 4 d) (.ofNat 4 s)) | _ => none⟩,
  ⟨0x002C, 0x803F, [(6, 4), (10, 4)], fun | [d, s] => some (.vshr16 (.ofNat 4 d) (.ofNat 4 s)) | _ => none⟩,
  ⟨0x0030, 0x803F, [(6, 4), (10, 4)], fun | [d, s] => some (.vmov16 (.ofNat 4 d) (.ofNat 4 s)) | _ => none⟩,
  ⟨0x0034, 0x803F, [(6, 4), (10, 4)], fun | [d, s] => some (.vnegF32 (.ofNat 4 d) (.ofNat 4 s)) | _ => none⟩,
  ⟨0x0038, 0x803F, [(6, 4), (10, 4)], fun | [d, s] => some (.vabsF32 (.ofNat 4 d) (.ofNat 4 s)) | _ => none⟩,
  ⟨0x003C, 0x803F, [(6, 4), (10, 4)], fun | [d, s] => some (.vfmac (.ofNat 4 d) (.ofNat 4 s)) | _ => none⟩]

/-- The 16-bit rows (04 R83, R84), rows 16 to 31. -/
def rows161 : List Row := [
  ⟨0x0002, 0x803F, [(6, 4), (10, 4)], fun | [x, y] => some (.mov16 (.ofNat 4 x) (.ofNat 4 y)) | _ => none⟩,
  ⟨0x0006, 0x803F, [(6, 4), (10, 4)], fun | [x, y] => some (.add16 (.ofNat 4 x) (.ofNat 4 y)) | _ => none⟩,
  ⟨0x000A, 0x803F, [(6, 4), (10, 4)], fun | [x, y] => some (.sub16 (.ofNat 4 x) (.ofNat 4 y)) | _ => none⟩,
  ⟨0x000E, 0x803F, [(6, 4), (10, 4)], fun | [x, y] => some (.and16 (.ofNat 4 x) (.ofNat 4 y)) | _ => none⟩,
  ⟨0x0012, 0x803F, [(6, 4), (10, 4)], fun | [x, y] => some (.or16 (.ofNat 4 x) (.ofNat 4 y)) | _ => none⟩,
  ⟨0x0016, 0x803F, [(6, 4), (10, 4)], fun | [x, i] => some (.addi4 (.ofNat 4 x) (.ofNat 4 i)) | _ => none⟩,
  ⟨0x001A, 0x803F, [(6, 4), (10, 4)], fun | [x, i] => some (.shli4 (.ofNat 4 x) (.ofNat 4 i)) | _ => none⟩,
  ⟨0x001E, 0x803F, [(6, 4), (10, 4)], fun | [x, i] => some (.shri4 (.ofNat 4 x) (.ofNat 4 i)) | _ => none⟩,
  ⟨0x0022, 0x803F, [(6, 4), (10, 4)], fun | [x, i] => some (.ldd8 (.ofNat 4 x) (.ofNat 4 i)) | _ => none⟩,
  ⟨0x0026, 0x803F, [(6, 4), (10, 4)], fun | [x, i] => some (.std8 (.ofNat 4 x) (.ofNat 4 i)) | _ => none⟩,
  ⟨0x002A, 0x003F, [(6, 4), (10, 4), (15, 1)], fun | [x, i, h] => some (.bz (.ofNat 4 x) (.ofNat 4 i) (.ofNat 1 h)) | _ => none⟩,
  ⟨0x002E, 0x003F, [(6, 4), (10, 4), (15, 1)], fun | [x, i, h] => some (.bnz (.ofNat 4 x) (.ofNat 4 i) (.ofNat 1 h)) | _ => none⟩,
  ⟨0x0032, 0x83FF, [(10, 4)], fun | [y] => some (.jr16 (.ofNat 4 y)) | _ => none⟩,
  ⟨0x0036, 0x83FF, [(10, 4)], fun | [y] => some (.callr16 (.ofNat 4 y)) | _ => none⟩,
  ⟨0x003A, 0xBFFF, [], fun | [] => some .yield1 | _ => none⟩,
  ⟨0x003E, 0xBFFF, [], fun | [] => some .end16 | _ => none⟩]

/-- The 16-bit rows (04 R83, R84). -/
def rows16 : List Row :=
  rows160 ++ rows161

/-- The row of an instruction and the values of its fields: whether the row is of 32 bits, its place in the list of its
length, and the fields in ascending bit position. A step of another agent has no word. -/
def Instr.toRow : Instr → Option (Bool × Nat × List Nat)
  | .add d a b => some (true, 0, [d.toNat, a.toNat, b.toNat])
  | .sub d a b => some (true, 1, [d.toNat, a.toNat, b.toNat])
  | .and d a b => some (true, 2, [d.toNat, a.toNat, b.toNat])
  | .or d a b => some (true, 3, [d.toNat, a.toNat, b.toNat])
  | .xor d a b => some (true, 4, [d.toNat, a.toNat, b.toNat])
  | .andn d a b => some (true, 5, [d.toNat, a.toNat, b.toNat])
  | .shl d a b => some (true, 6, [d.toNat, a.toNat, b.toNat])
  | .shr d a b => some (true, 7, [d.toNat, a.toNat, b.toNat])
  | .sar d a b => some (true, 8, [d.toNat, a.toNat, b.toNat])
  | .mul d a b => some (true, 9, [d.toNat, a.toNat, b.toNat])
  | .mulh d a b => some (true, 10, [d.toNat, a.toNat, b.toNat])
  | .mulhu d a b => some (true, 11, [d.toNat, a.toNat, b.toNat])
  | .div d a b => some (true, 12, [d.toNat, a.toNat, b.toNat])
  | .divu d a b => some (true, 13, [d.toNat, a.toNat, b.toNat])
  | .rem d a b => some (true, 14, [d.toNat, a.toNat, b.toNat])
  | .remu d a b => some (true, 15, [d.toNat, a.toNat, b.toNat])
  | .min d a b => some (true, 16, [d.toNat, a.toNat, b.toNat])
  | .max d a b => some (true, 17, [d.toNat, a.toNat, b.toNat])
  | .minu d a b => some (true, 18, [d.toNat, a.toNat, b.toNat])
  | .maxu d a b => some (true, 19, [d.toNat, a.toNat, b.toNat])
  | .slt d a b => some (true, 20, [d.toNat, a.toNat, b.toNat])
  | .sltu d a b => some (true, 21, [d.toNat, a.toNat, b.toNat])
  | .seq d a b => some (true, 22, [d.toNat, a.toNat, b.toNat])
  | .clz d a => some (true, 23, [d.toNat, a.toNat])
  | .ctz d a => some (true, 24, [d.toNat, a.toNat])
  | .popc d a => some (true, 25, [d.toNat, a.toNat])
  | .sextB d a => some (true, 26, [d.toNat, a.toNat])
  | .sextH d a => some (true, 27, [d.toNat, a.toNat])
  | .sextW d a => some (true, 28, [d.toNat, a.toNat])
  | .sel d a b => some (true, 29, [d.toNat, a.toNat, b.toNat])
  | .addi d a i => some (true, 30, [d.toNat, a.toNat, i.toNat])
  | .andi d a i => some (true, 31, [d.toNat, a.toNat, i.toNat])
  | .ori d a i => some (true, 32, [d.toNat, a.toNat, i.toNat])
  | .xori d a i => some (true, 33, [d.toNat, a.toNat, i.toNat])
  | .shli d a i => some (true, 34, [d.toNat, a.toNat, i.toNat])
  | .shri d a i => some (true, 35, [d.toNat, a.toNat, i.toNat])
  | .sari d a i => some (true, 36, [d.toNat, a.toNat, i.toNat])
  | .slti d a i => some (true, 37, [d.toNat, a.toNat, i.toNat])
  | .lui d i => some (true, 38, [d.toNat, i.toNat])
  | .adpc d i => some (true, 39, [d.toNat, i.toNat])
  | .fadd d a b m => some (true, 40, [d.toNat, a.toNat, b.toNat, m.toNat])
  | .fsub d a b m => some (true, 41, [d.toNat, a.toNat, b.toNat, m.toNat])
  | .fmul d a b m => some (true, 42, [d.toNat, a.toNat, b.toNat, m.toNat])
  | .ffma d a b m => some (true, 43, [d.toNat, a.toNat, b.toNat, m.toNat])
  | .fdiv d a b m => some (true, 44, [d.toNat, a.toNat, b.toNat, m.toNat])
  | .fsqrt d a m => some (true, 45, [d.toNat, a.toNat, m.toNat])
  | .fmin d a b => some (true, 46, [d.toNat, a.toNat, b.toNat])
  | .fmax d a b => some (true, 47, [d.toNat, a.toNat, b.toNat])
  | .fcmpEq d a b => some (true, 48, [d.toNat, a.toNat, b.toNat])
  | .fcmpLt d a b => some (true, 49, [d.toNat, a.toNat, b.toNat])
  | .fcmpLe d a b => some (true, 50, [d.toNat, a.toNat, b.toNat])
  | .fcvtF32I32 d a m => some (true, 51, [d.toNat, a.toNat, m.toNat])
  | .fcvtI32F32 d a m => some (true, 52, [d.toNat, a.toNat, m.toNat])
  | .fcvtF32I64 d a m => some (true, 53, [d.toNat, a.toNat, m.toNat])
  | .fcvtI64F32 d a m => some (true, 54, [d.toNat, a.toNat, m.toNat])
  | .fclass d a => some (true, 55, [d.toNat, a.toNat])
  | .fmov d a => some (true, 56, [d.toNat, a.toNat])
  | .fsgnCp d a b => some (true, 57, [d.toNat, a.toNat, b.toNat])
  | .fsgnNeg d a => some (true, 58, [d.toNat, a.toNat])
  | .fsgnAbs d a => some (true, 59, [d.toNat, a.toNat])
  | .fsgnMul d a b => some (true, 60, [d.toNat, a.toNat, b.toNat])
  | .beq a b i => some (true, 61, [a.toNat, b.toNat, i.toNat])
  | .bne a b i => some (true, 62, [a.toNat, b.toNat, i.toNat])
  | .blt a b i => some (true, 63, [a.toNat, b.toNat, i.toNat])
  | .bge a b i => some (true, 64, [a.toNat, b.toNat, i.toNat])
  | .bltu a b i => some (true, 65, [a.toNat, b.toNat, i.toNat])
  | .bgeu a b i => some (true, 66, [a.toNat, b.toNat, i.toNat])
  | .call d i => some (true, 67, [d.toNat, i.toNat])
  | .jr a => some (true, 68, [a.toNat])
  | .callr d a => some (true, 69, [d.toNat, a.toNat])
  | .loop a l i => some (true, 70, [a.toNat, l.toNat, i.toNat])
  | .trap x => some (true, 71, [x.toNat])
  | .eret => some (true, 72, [])
  | .csrr d x => some (true, 73, [d.toNat, x.toNat])
  | .csrw a x => some (true, 74, [a.toNat, x.toNat])
  | .csrs a x => some (true, 75, [a.toNat, x.toNat])
  | .csrc a x => some (true, 76, [a.toNat, x.toNat])
  | .ifence => some (true, 77, [])
  | .brk x => some (true, 78, [x.toNat])
  | .yield y => some (true, 79, [y.toNat])
  | .endTask => some (true, 80, [])
  | .fcld d a o => some (true, 81, [d.toNat, a.toNat, o.toNat])
  | .fcst d a o => some (true, 82, [d.toNat, a.toNat, o.toNat])
  | .fcvld d a o => some (true, 83, [d.toNat, a.toNat, o.toNat])
  | .fcvst d a o => some (true, 84, [d.toNat, a.toNat, o.toNat])
  | .vadd d a b k m => some (true, 85, [d.toNat, a.toNat, b.toNat, k.toNat, m.toNat])
  | .vsub d a b k m => some (true, 86, [d.toNat, a.toNat, b.toNat, k.toNat, m.toNat])
  | .vmul d a b k m => some (true, 87, [d.toNat, a.toNat, b.toNat, k.toNat, m.toNat])
  | .vfma d a b k m => some (true, 88, [d.toNat, a.toNat, b.toNat, k.toNat, m.toNat])
  | .vfms d a b k m => some (true, 89, [d.toNat, a.toNat, b.toNat, k.toNat, m.toNat])
  | .vmin d a b k => some (true, 90, [d.toNat, a.toNat, b.toNat, k.toNat])
  | .vmax d a b k => some (true, 91, [d.toNat, a.toNat, b.toNat, k.toNat])
  | .viadd d a b k => some (true, 92, [d.toNat, a.toNat, b.toNat, k.toNat])
  | .visub d a b k => some (true, 93, [d.toNat, a.toNat, b.toNat, k.toNat])
  | .vimul d a b k => some (true, 94, [d.toNat, a.toNat, b.toNat, k.toNat])
  | .vand d a b k => some (true, 95, [d.toNat, a.toNat, b.toNat, k.toNat])
  | .vor d a b k => some (true, 96, [d.toNat, a.toNat, b.toNat, k.toNat])
  | .vxor d a b k => some (true, 97, [d.toNat, a.toNat, b.toNat, k.toNat])
  | .vshl d a b k => some (true, 98, [d.toNat, a.toNat, b.toNat, k.toNat])
  | .vshr d a b k => some (true, 99, [d.toNat, a.toNat, b.toNat, k.toNat])
  | .vsar d a b k => some (true, 100, [d.toNat, a.toNat, b.toNat, k.toNat])
  | .vcmp d a b k r t => some (true, 101, [d.toNat, a.toNat, b.toNat, k.toNat, r.toNat, t.toNat])
  | .vsel d a b k => some (true, 102, [d.toNat, a.toNat, b.toNat, k.toNat])
  | .vmov d a k => some (true, 103, [d.toNat, a.toNat, k.toNat])
  | .vbcast d a k => some (true, 104, [d.toNat, a.toNat, k.toNat])
  | .vext d a b => some (true, 105, [d.toNat, a.toNat, b.toNat])
  | .vins d a b => some (true, 106, [d.toNat, a.toNat, b.toNat])
  | .viota d k => some (true, 107, [d.toNat, k.toNat])
  | .vperm d a b k => some (true, 108, [d.toNat, a.toNat, b.toNat, k.toNat])
  | .vslide d a b k u => some (true, 109, [d.toNat, a.toNat, b.toNat, k.toNat, u.toNat])
  | .vredsum d a k m => some (true, 110, [d.toNat, a.toNat, k.toNat, m.toNat])
  | .vredmax d a k => some (true, 111, [d.toNat, a.toNat, k.toNat])
  | .vredmin d a k => some (true, 112, [d.toNat, a.toNat, k.toNat])
  | .vrcp d a k => some (true, 113, [d.toNat, a.toNat, k.toNat])
  | .vrsq d a k => some (true, 114, [d.toNat, a.toNat, k.toNat])
  | .vexp2 d a k => some (true, 115, [d.toNat, a.toNat, k.toNat])
  | .vlog2 d a k => some (true, 116, [d.toNat, a.toNat, k.toNat])
  | .vcvt d a e k f m => some (true, 117, [d.toNat, a.toNat, e.toNat, k.toNat, f.toNat, m.toNat])
  | .vqnt d a b k f m => some (true, 118, [d.toNat, a.toNat, b.toNat, k.toNat, f.toNat, m.toNat])
  | .vdeq d a b k f m => some (true, 119, [d.toNat, a.toNat, b.toNat, k.toNat, f.toNat, m.toNat])
  | .vsrnd d a f k m => some (true, 120, [d.toNat, a.toNat, f.toNat, k.toNat, m.toNat])
  | .vsacc d a b k m => some (true, 121, [d.toNat, a.toNat, b.toNat, k.toNat, m.toNat])
  | .kand d a b => some (true, 122, [d.toNat, a.toNat, b.toNat])
  | .kor d a b => some (true, 123, [d.toNat, a.toNat, b.toNat])
  | .kxor d a b => some (true, 124, [d.toNat, a.toNat, b.toNat])
  | .knot d a => some (true, 125, [d.toNat, a.toNat])
  | .kmov d a => some (true, 126, [d.toNat, a.toNat])
  | .kpopc d a => some (true, 127, [d.toNat, a.toNat])
  | .kfirst d a => some (true, 128, [d.toNat, a.toNat])
  | .tspawn d a => some (true, 129, [d.toNat, a.toNat])
  | .tdec a b n => some (true, 130, [a.toNat, b.toNat, n.toNat])
  | .tself d => some (true, 131, [d.toNat])
  | .migr a => some (true, 132, [a.toNat])
  | .gang n => some (true, 133, [n.toNat])
  | .gdis => some (true, 134, [])
  | .join => some (true, 135, [])
  | .detach => some (true, 136, [])
  | .dbind h a n => some (true, 137, [h.toNat, a.toNat, n.toNat])
  | .dwaitc h a n => some (true, 138, [h.toNat, a.toNat, n.toNat])
  | .dwaitp h a n => some (true, 139, [h.toNat, a.toNat, n.toNat])
  | .dadvc h a n => some (true, 140, [h.toNat, a.toNat, n.toNat])
  | .dadvp h a n => some (true, 141, [h.toNat, a.toNat, n.toNat])
  | .cpy a b p n => some (true, 142, [a.toNat, b.toNat, p.toNat, n.toNat])
  | .cpy2 a b p n => some (true, 143, [a.toNat, b.toNat, p.toNat, n.toNat])
  | .cwaitany a => some (true, 144, [a.toNat])
  | .cwaitall a => some (true, 145, [a.toNat])
  | .cfind d => some (true, 146, [d.toNat])
  | .ctagclr a => some (true, 147, [a.toNat])
  | .sopen a s => some (true, 148, [a.toNat, s.toNat])
  | .sclose s => some (true, 149, [s.toNat])
  | .ssend s a k c => some (true, 150, [s.toNat, a.toNat, k.toNat, c.toNat])
  | .plnch d a b => some (true, 151, [d.toNat, a.toNat, b.toNat])
  | .greplay d a => some (true, 152, [d.toNat, a.toNat])
  | .ld d a w k x i => some (true, 153, [d.toNat, a.toNat, w.toNat, k.toNat, x.toNat, i.toNat])
  | .st d a w k i => some (true, 154, [d.toNat, a.toNat, w.toNat, k.toNat, i.toNat])
  | .ldacq d a w k x c i => some (true, 155, [d.toNat, a.toNat, w.toNat, k.toNat, x.toNat, c.toNat, i.toNat])
  | .strel d a w k c i => some (true, 156, [d.toNat, a.toNat, w.toNat, k.toNat, c.toNat, i.toNat])
  | .vld d a k => some (true, 157, [d.toNat, a.toNat, k.toNat])
  | .vlds d a b k => some (true, 158, [d.toNat, a.toNat, b.toNat, k.toNat])
  | .vldx d a b k => some (true, 159, [d.toNat, a.toNat, b.toNat, k.toNat])
  | .vld6 d a k => some (true, 160, [d.toNat, a.toNat, k.toNat])
  | .vst d a k s t => some (true, 161, [d.toNat, a.toNat, k.toNat, s.toNat, t.toNat])
  | .vsts d a b k s t => some (true, 162, [d.toNat, a.toNat, b.toNat, k.toNat, s.toNat, t.toNat])
  | .vstx d a b k s t => some (true, 163, [d.toNat, a.toNat, b.toNat, k.toNat, s.toNat, t.toNat])
  | .vst6 d a k s t => some (true, 164, [d.toNat, a.toNat, k.toNat, s.toNat, t.toNat])
  | .discard a => some (true, 165, [a.toNat])
  | .pref a l => some (true, 166, [a.toNat, l.toNat])
  | .wback a => some (true, 167, [a.toNat])
  | .fence c => some (true, 168, [c.toNat])
  | .fencel => some (true, 169, [])
  | .fenceh a c => some (true, 170, [a.toNat, c.toNat])
  | .amo d a b o n => some (true, 171, [d.toNat, a.toNat, b.toNat, o.toNat, n.toNat])
  | .cas d a b n => some (true, 172, [d.toNat, a.toNat, b.toNat, n.toNat])
  | .famo d a b o => some (true, 173, [d.toNat, a.toNat, b.toNat, o.toNat])
  | .red a b o n => some (true, 174, [a.toNat, b.toNat, o.toNat, n.toNat])
  | .fred a b o => some (true, 175, [a.toNat, b.toNat, o.toNat])
  | .vred d a b k o => some (true, 176, [d.toNat, a.toNat, b.toNat, k.toNat, o.toNat])
  | .mma n m a f s c => some (true, 177, [n.toNat, m.toNat, a.toNat, f.toNat, s.toNat, c.toNat])
  | .mlda n a f k => some (true, 178, [n.toNat, a.toNat, f.toNat, k.toNat])
  | .mldb a b f c => some (true, 179, [a.toNat, b.toNat, f.toNat, c.toNat])
  | .mdrain n a s f m c t k => some (true, 180, [n.toNat, a.toNat, s.toNat, f.toNat, m.toNat, c.toNat, t.toNat, k.toNat])
  | .mown l => some (true, 181, [l.toNat])
  | .mzero n => some (true, 182, [n.toNat])
  | .msacc d s a => some (true, 183, [d.toNat, s.toNat, a.toNat])
  | .mswap n a => some (true, 184, [n.toNat, a.toNat])
  | .mflag d n => some (true, 185, [d.toNat, n.toNat])
  | .pcfg a => some (true, 186, [a.toNat])
  | .pstep d a b => some (true, 187, [d.toNat, a.toNat, b.toNat])
  | .pfade a => some (true, 188, [a.toNat])
  | .prwd a b r => some (true, 189, [a.toNat, b.toNat, r.toNat])
  | .pgate a => some (true, 190, [a.toNat])
  | .prd d a => some (true, 191, [d.toNat, a.toNat])
  | .pwr a b => some (true, 192, [a.toNat, b.toNat])
  | .pstat d => some (true, 193, [d.toNat])
  | .nwalk a b p n => some (true, 194, [a.toNat, b.toNat, p.toNat, n.toNat])
  | .nadd a b p n => some (true, 195, [a.toNat, b.toNat, p.toNat, n.toNat])
  | .nupd a b p n => some (true, 196, [a.toNat, b.toNat, p.toNat, n.toNat])
  | .nfence => some (true, 197, [])
  | .bred d a p n => some (true, 198, [d.toNat, a.toNat, p.toNat, n.toNat])
  | .bpoll d a => some (true, 199, [d.toNat, a.toNat])
  | .take d a => some (true, 200, [d.toNat, a.toNat])
  | .takeb d a b => some (true, 201, [d.toNat, a.toNat, b.toNat])
  | .nsave a b => some (true, 202, [a.toNat, b.toNat])
  | .nrest a b => some (true, 203, [a.toNat, b.toNat])
  | .nreset a b => some (true, 204, [a.toNat, b.toNat])
  | .stata a b => some (true, 205, [a.toNat, b.toNat])
  | .statc a => some (true, 206, [a.toNat])
  | .statl n a b h c => some (true, 207, [n.toNat, a.toNat, b.toNat, h.toNat, c.toNat])
  | .statr d a b => some (true, 208, [d.toNat, a.toNat, b.toNat])
  | .evcfg a => some (true, 209, [a.toNat])
  | .evpulse l => some (true, 210, [l.toNat])
  | .evrd d a => some (true, 211, [d.toNat, a.toNat])
  | .actw a b => some (true, 212, [a.toNat, b.toNat])
  | .haltp a => some (true, 213, [a.toNat])
  | .resumep a => some (true, 214, [a.toNat])
  | .ctxsv d a u => some (true, 215, [d.toNat, a.toNat, u.toNat])
  | .ctxld d a u => some (true, 216, [d.toNat, a.toNat, u.toNat])
  | .mod u r q p s t => some (true, 217, [u.toNat, r.toNat, q.toNat, p.toNat, s.toNat, t.toNat])
  | .vaddF32 d s => some (false, 0, [d.toNat, s.toNat])
  | .vsubF32 d s => some (false, 1, [d.toNat, s.toNat])
  | .vmulF32 d s => some (false, 2, [d.toNat, s.toNat])
  | .vmaxF32 d s => some (false, 3, [d.toNat, s.toNat])
  | .vminF32 d s => some (false, 4, [d.toNat, s.toNat])
  | .viadd16 d s => some (false, 5, [d.toNat, s.toNat])
  | .visub16 d s => some (false, 6, [d.toNat, s.toNat])
  | .vand16 d s => some (false, 7, [d.toNat, s.toNat])
  | .vor16 d s => some (false, 8, [d.toNat, s.toNat])
  | .vxor16 d s => some (false, 9, [d.toNat, s.toNat])
  | .vshl16 d s => some (false, 10, [d.toNat, s.toNat])
  | .vshr16 d s => some (false, 11, [d.toNat, s.toNat])
  | .vmov16 d s => some (false, 12, [d.toNat, s.toNat])
  | .vnegF32 d s => some (false, 13, [d.toNat, s.toNat])
  | .vabsF32 d s => some (false, 14, [d.toNat, s.toNat])
  | .vfmac d s => some (false, 15, [d.toNat, s.toNat])
  | .mov16 x y => some (false, 16, [x.toNat, y.toNat])
  | .add16 x y => some (false, 17, [x.toNat, y.toNat])
  | .sub16 x y => some (false, 18, [x.toNat, y.toNat])
  | .and16 x y => some (false, 19, [x.toNat, y.toNat])
  | .or16 x y => some (false, 20, [x.toNat, y.toNat])
  | .addi4 x i => some (false, 21, [x.toNat, i.toNat])
  | .shli4 x i => some (false, 22, [x.toNat, i.toNat])
  | .shri4 x i => some (false, 23, [x.toNat, i.toNat])
  | .ldd8 x i => some (false, 24, [x.toNat, i.toNat])
  | .std8 x i => some (false, 25, [x.toNat, i.toNat])
  | .bz x i h => some (false, 26, [x.toNat, i.toNat, h.toNat])
  | .bnz x i h => some (false, 27, [x.toNat, i.toNat, h.toNat])
  | .jr16 y => some (false, 28, [y.toNat])
  | .callr16 y => some (false, 29, [y.toNat])
  | .yield1 => some (false, 30, [])
  | .end16 => some (false, 31, [])
  | .deckWaitComplete | .copyTagWaitComplete | .fencehTargetDrain | .mownExecute | .mldaExecute
  | .mldbExecute | .mmaExecute | .mmaBcRound | .mdrainExecute | .mzeroExecute
  | .msaccExecute | .mswapExecute | .mflagExecute | .pcfgExecute | .stepStart
  | .stepRetire | .fade | .rewardArrival | .rewardApply | .gateApply
  | .nfenceComplete | .walkerCommandStart | .walkerGranule | .walkerComplete | .breJobStart
  | .breGranule | .breJobComplete | .balancerToken | .outputCounter | .networkQuiet
  | .statisticsPartial | .evxPulse | .loadReturn | .storeAtHome | .replicaUpdateApply
  | .atomicAtHome | .l2wpWrite | .waysChangeComplete | .decrementMessage | .readyMessage
  | .spillRefill | .farEntryObtained | .taskBind | .priorityRaise | .dwbPark
  | .parkedThreadWake | .spinParkWake | .spinParkTimeout | .yieldDeadline | .migrationArrival
  | .joinReconverge | .copyCommandStart | .copyGranule | .copyComplete | .streamOpenFlit
  | .streamFlitLand | .streamCloseMarker | .packetArrival | .landingServer | .hostPacketWrite
  | .hostStatusRead | .hostMemoryRead | .hostMemoryWrite | .createPartition | .loadImage
  | .halt | .resume | .release | .attest | .snapshot
  | .restore | .readMonitorLog | .readMarginHistory | .boot | .peerFailure
  | .flitResend | .vfStep | .refreshAdjust | .marginMeasure | .l2WriteBack
  | .linkEqualisation | .walkerPlacement | .domainFormation => none

/-- The values of the fields of a word. -/
def extractFields (w : Nat) : List (Nat × Nat) → List Nat
  | [] => []
  | (lo, n) :: fs => (w >>> lo) % 2 ^ n :: extractFields w fs

/-- The word with the given field values put in. -/
def insertFields (w : Nat) : List (Nat × Nat) → List Nat → Nat
  | (lo, _) :: fs, v :: vs => insertFields (w ||| (v <<< lo)) fs vs
  | _, _ => w

/-- The first row whose fixed part a word has, read as an instruction. -/
def decodeRows (w : Nat) : List Row → Option Instr
  | [] => none
  | r :: rs => if w &&& r.mask = r.fixed then r.build (extractFields w r.fields) else decodeRows w rs

/-- The formats of the 32-bit word (04 R79-R81). -/
inductive Format where
  | rr | ri | v | u | b | m | mo | s | e | mod | none
deriving DecidableEq, Repr

/-- The format of a major opcode (04 R91). -/
def formatOf (op : Nat) : Format :=
  if op = 0x00 then .none
  else if op = 0x01 then .rr
  else if op ≤ 0x09 then .ri
  else if op ≤ 0x0B then .u
  else if op = 0x0C then .rr
  else if op ≤ 0x12 then .b
  else if op = 0x13 then .u
  else if op = 0x14 then .rr
  else if op = 0x15 then .b
  else if op = 0x16 then .s
  else if op = 0x17 then .ri
  else if op ≤ 0x21 then .v
  else if op ≤ 0x24 then .rr
  else if op = 0x25 then .ri
  else if op = 0x26 then .e
  else if op ≤ 0x28 then .rr
  else if op = 0x29 then .v
  else if op = 0x2A then .e
  else if op ≤ 0x2C then .m
  else if op ≤ 0x2E then .mo
  else if op ≤ 0x30 then .v
  else if op ≤ 0x32 then .rr
  else if op = 0x33 then .v
  else if op ≤ 0x39 then .rr
  else if op = 0x3A then .e
  else if op ≤ 0x3D then .rr
  else if op = 0x3E then .s
  else .mod

/-- The field of a format that a bit lies in: its low bit, its width and its index (04 R79-R81, R97). -/
def formatFields : Format → List (Nat × Nat × Nat)
  | .rr => [(22, 10, 5), (10, 4, 2), (14, 4, 3), (18, 4, 4)]
  | .ri => [(10, 4, 2), (14, 4, 3), (18, 14, 6)]
  | .v => [(25, 7, 5), (10, 4, 2), (14, 4, 3), (18, 4, 4), (22, 3, 7)]
  | .u => [(10, 4, 2), (14, 18, 6)]
  | .b => [(10, 4, 3), (14, 4, 4), (18, 14, 6)]
  | .m => [(10, 4, 2), (14, 4, 3), (22, 10, 6), (21, 1, 8), (20, 1, 8), (18, 2, 8)]
  | .mo => [(10, 4, 2), (14, 4, 3), (25, 7, 6), (22, 3, 8), (21, 1, 8), (20, 1, 8), (18, 2, 8)]
  | .s => [(18, 4, 5), (22, 10, 5), (10, 4, 2), (14, 4, 3)]
  | .e => [(22, 4, 5), (28, 4, 5), (26, 2, 5), (10, 4, 2), (14, 4, 3), (18, 4, 4)]
  | .mod => [(22, 10, 10)]
  | .none => []

/-- The bits that tell the instructions of one opcode apart: those that some two rows of the opcode fix differently. -/
def selectorBits (op : Nat) : List Row → Nat
  | [] => 0
  | r :: rs =>
    (if (r.fixed >>> 4) % 64 = op then
      rs.foldl (fun acc q => if (q.fixed >>> 4) % 64 = op then acc ||| ((r.fixed ^^^ q.fixed) &&& r.mask &&& q.mask) else acc) 0
     else 0) ||| selectorBits op rs

/-- The first field, in the order of `formatFields`, that differs from the row's fixed bits: its index and value. -/
def firstBadField (w diff : Nat) : List (Nat × Nat × Nat) → Nat × Nat
  | [] => (0, 0)
  | (lo, n, i) :: fs => if (diff >>> lo) % 2 ^ n ≠ 0 then (i, (w >>> lo) % 2 ^ n % 256) else firstBadField w diff fs

/-- Why a 32-bit word that has no row is refused: the field index of 04 R97 and the field's value. -/
def refuse32 (w : Nat) : Nat × Nat :=
  let op := (w >>> 4) % 64
  if op = 0 then (1, 0)
  else if op = 0x3F then
    if (w >>> 1) % 8 ≠ 0 then (9, (w >>> 1) % 8) else (10, 1)
  else
    let sel := selectorBits op rows32
    match rows32.find? (fun r => (r.fixed >>> 4) % 64 = op && (w &&& (sel &&& r.mask)) == r.fixed &&& sel) with
    | some r => firstBadField w ((w &&& r.mask) ^^^ r.fixed) (formatFields (formatOf op))
    | none =>
      match formatOf op with
      | .ri => (6, (w >>> 18) % 256)
      | .s => (5, (w >>> 18) % 16)
      | .e => (5, (w >>> 22) % 16)
      | .v => (5, (w >>> 25) % 128)
      | _ => (5, (w >>> 22) % 256)

/-- Why a parcel that has no row is refused (04 R82, R84). -/
def refuse16 (w : Nat) : Nat × Nat :=
  let x := (w >>> 6) % 16
  let y := (w >>> 10) % 16
  let op := (w >>> 2) % 16
  if w = 0 ∨ (w >>> 15 ≠ 0 ∧ ¬ ((w >>> 1) % 2 = 1 ∧ (op = 10 ∨ op = 11))) then (0, 0)
  else if x ≠ 0 then (2, x)
  else (3, y)

/-- A 32-bit word as an instruction, or the field at fault. -/
def decode32 (w : Nat) : Except (Nat × Nat) Instr :=
  match decodeRows w rows32 with
  | some i => .ok i
  | none => .error (refuse32 w)

/-- A 16-bit parcel as an instruction, or the field at fault; the zero parcel is illegal (04 R82), but not 0x4000,
the same with SW set (notes/assumptions/114.md). -/
def decode16 (w : Nat) : Except (Nat × Nat) Instr :=
  if w = 0 then .error (0, 0)
  else match decodeRows w rows16 with
    | some i => .ok i
    | none => .error (refuse16 w)

/-- An instruction with what its word says of issue: its length in bytes, GAP and SW (04 R75, R77, R82). -/
structure Decoded where
  /-- the instruction -/
  instr : Instr
  /-- its length in bytes -/
  len : Nat
  /-- idle issue cycles after it -/
  gap : Nat
  /-- switch-away mark -/
  sw : Bool
deriving DecidableEq, Repr

/-- The outcome of reading an instruction from bytes. -/
inductive DecodeResult where
  /-- an instruction -/
  | ok (d : Decoded)
  /-- an encoding that is not an instruction: the field at fault and its value (04 R95, R97) -/
  | illegal (fidx fval : Nat)
  /-- fewer bytes than the length bit asks for -/
  | short
deriving DecidableEq, Repr

/-- A word whose length is known, with its issue fields. -/
def decodeWord (is32 : Bool) (w : Nat) : DecodeResult :=
  if is32 then
    match decode32 w with
    | .ok i => .ok ⟨i, 4, (w >>> 2) % 4, (w >>> 1) % 2 = 1⟩
    | .error (i, v) => .illegal i v
  else
    match decode16 w with
    | .ok i => .ok ⟨i, 2, 0, (w >>> 14) % 2 = 1⟩
    | .error (i, v) => .illegal i v

/-- The instruction at the head of a list of bytes in memory order (04 R75): little-endian parcels, the first at the
lower address; bit 0 of the first parcel gives the length. -/
def decode : List Byte → DecodeResult
  | b0 :: b1 :: rest =>
    let p := b0.toNat + 256 * b1.toNat
    if p % 2 = 0 then decodeWord false p
    else match rest with
      | b2 :: b3 :: _ => decodeWord true (p + 65536 * (b2.toNat + 256 * b3.toNat))
      | _ => .short
  | _ => .short

/-- The word of an instruction with its issue fields, and whether it is of 32 bits (04 R77, R82). The modifier word and
16-bit words carry no GAP, and the modifier word no SW (R82, R85). -/
def encodeWord (d : Decoded) : Option (Bool × Nat) :=
  match d.instr.toRow with
  | none => none
  | some (true, i, vs) =>
    (rows32[i]?).map fun r => (true, insertFields r.fixed r.fields vs ||| ((d.gap <<< 2) ||| (d.sw.toNat <<< 1)))
  | some (false, i, vs) =>
    (rows16[i]?).map fun r => (false, insertFields r.fixed r.fields vs ||| (d.sw.toNat <<< 14))

/-- The bytes of a word, lowest address first. -/
def wordBytes (is32 : Bool) (w : Nat) : List Byte :=
  if is32 then [.ofNat 8 w, .ofNat 8 (w >>> 8), .ofNat 8 (w >>> 16), .ofNat 8 (w >>> 24)]
  else [.ofNat 8 w, .ofNat 8 (w >>> 8)]

/-- The bytes of an instruction (04 R75); a step of another agent has none. -/
def encode (d : Decoded) : Option (List Byte) :=
  (encodeWord d).map fun p => wordBytes p.1 p.2

/-- The control registers that exist (06 R131). -/
def csrExists (n : Nat) : Bool :=
  n ≤ 0x0D || n = 0x0F || (0x10 ≤ n && n ≤ 0x17) || (0x20 ≤ n && n ≤ 0x2F) || (0x40 ≤ n && n ≤ 0x4E)
    || n = 0x50 || n = 0x51 || (0x100 ≤ n && n ≤ 0x10A)

/-- A rounding-mode field that is reserved (03 R60). -/
def modeBad (m : BitVec 3) : Bool := m = 5 || m = 6

/-- A format code of the matrix operands: bf16, f16, e4m3, e5m2, sap8, fp6, i8 (04 R91). -/
def matrixFormat (f : BitVec 4) : Bool := 1 ≤ f.toNat && f.toNat ≤ 7

/-- A format code of the quantised element formats: e4m3, e5m2, fp6, sap8, i8 (04 R91, 07 R175). -/
def quantFormat (f : BitVec 4) : Bool := 3 ≤ f.toNat && f.toNat ≤ 7

/-- The first condition that holds gives the field at fault. -/
def firstFault : List (Bool × Nat) → Option Nat
  | [] => none
  | (c, i) :: cs => if c then some i else firstFault cs

/-- The field of a decoded instruction whose value its entry does not admit (04 R95), by its index of R97. A scope or a
count that stands in FN is named as FN (notes/assumptions/115.md). -/
def Instr.fieldFault : Instr → Option Nat
  | .fadd _ _ _ m | .fsub _ _ _ m | .fmul _ _ _ m | .ffma _ _ _ m | .fdiv _ _ _ m | .fsqrt _ _ m
  | .fcvtF32I32 _ _ m | .fcvtI32F32 _ _ m | .fcvtF32I64 _ _ m | .fcvtI64F32 _ _ m
  | .vadd _ _ _ _ m | .vsub _ _ _ _ m | .vmul _ _ _ _ m | .vfma _ _ _ _ m | .vfms _ _ _ _ m
  | .vredsum _ _ _ m | .vsacc _ _ _ _ m => firstFault [(modeBad m, 5)]
  | .shli _ _ i | .shri _ _ i | .sari _ _ i => firstFault [(63 < i.toNat, 6)]
  | .loop _ _ i => firstFault [(i.toInt < 1, 6)]
  | .csrr _ x | .csrw _ x | .csrs _ x | .csrc _ x => firstFault [(!csrExists x.toNat, 5)]
  | .vcmp d _ _ _ r t => firstFault [(2 < t.toNat, 5), (7 < r.toNat, 5), (5 < r.toNat && t ≠ 0, 5), (7 < d.toNat, 2)]
  | .vcvt _ _ e _ f m => firstFault [(modeBad m, 5), (8 < f.toNat, 5), (8 < e.toNat, 4), (e = f, 4)]
  | .vqnt _ _ _ _ f m | .vdeq _ _ _ _ f m => firstFault [(modeBad m, 5), (!quantFormat f, 5)]
  | .vsrnd _ _ f _ m => firstFault [(modeBad m, 5), (f = 0 || 8 < f.toNat, 4)]
  | .gang n => firstFault [(n.toNat < 2 || 16 < n.toNat, 5)]
  | .cpy _ _ _ n | .cpy2 _ _ _ n | .nwalk _ _ _ n | .nadd _ _ _ n | .nupd _ _ _ n | .bred _ _ _ n =>
    firstFault [(9 < n.toNat, 5)]
  | .ssend _ a _ c => firstFault [(16 < a.toNat + c.toNat + 1, 5)]
  | .ld _ a w k x _ => firstFault [(k = 1 && 7 < a.toNat, 3), (w = 3 && x = 1, 8)]
  | .st _ a _ k _ => firstFault [(k = 1 && 7 < a.toNat, 3)]
  | .ldacq _ a w k x c _ => firstFault [(k = 1 && 7 < a.toNat, 3), (w = 3 && x = 1, 8), (5 < c.toNat, 8)]
  | .strel _ a _ k c _ => firstFault [(k = 1 && 7 < a.toNat, 3), (5 < c.toNat, 8)]
  | .vst _ _ _ s t | .vsts _ _ _ _ s t | .vstx _ _ _ _ s t | .vst6 _ _ _ s t => firstFault [(t = 0 && s ≠ 0, 5)]
  | .fence c => firstFault [(5 < c.toNat, 5)]
  | .fenceh _ c => firstFault [(c ≠ 1 && c ≠ 2, 5)]
  | .amo _ _ _ o _ => firstFault [(8 < o.toNat, 5)]
  | .famo _ _ _ o | .fred _ _ o => firstFault [(o ≠ 0 && o ≠ 4 && o ≠ 5, 5)]
  | .red _ _ o _ => firstFault [(7 < o.toNat, 5)]
  | .vred _ _ _ _ o => firstFault [(o ≠ 0 && o ≠ 1 && o ≠ 4 && o ≠ 5, 5)]
  | .mma _ _ _ f _ _ | .mldb _ _ f _ => firstFault [(!matrixFormat f, 5)]
  | .mlda _ a f k => firstFault [(!matrixFormat f, 5), (k = 1 && 7 < a.toNat, 3)]
  | .mdrain _ a _ f m _ _ k => firstFault [(modeBad m, 5), (8 < f.toNat, 5), (k = 1 && 7 < a.toNat, 3)]
  | .statl _ _ _ _ c => firstFault [(5 < c.toNat, 5)]
  | _ => none

/-- The value of the field with an index of 04 R97 in a 32-bit word: its low 8 bits (06 R137). Of the fields that share an
index it is the one at fault: SCOPE where that is no scope, else SX (notes/assumptions/19.md). -/
def fieldValue (w idx : Nat) : Nat :=
  let f := formatOf ((w >>> 4) % 64)
  match f, idx with
  | .s, 5 => (w >>> 22) % 256
  | .e, 5 => w >>> 28
  | .mo, 8 => if 5 < (w >>> 22) % 8 then (w >>> 22) % 8 else (w >>> 21) % 2
  | f, i =>
    match (formatFields f).find? (fun p => p.2.2 == i) with
    | some (lo, n, _) => (w >>> lo) % 2 ^ n % 256
    | none => 0

/-- The instruction the decoder reads from the bits of an opcode-table row: bit 0 is the least significant bit of the
first parcel; the bits above `nbits` are 0. The bytes are laid out as the hardware stores them. -/
def decodeTableWord (nbits w : Nat) : Option Instr :=
  let v := w % 2 ^ nbits
  match decode (wordBytes true v) with
  | .ok d => some d.instr
  | _ => none

end Sys2Proof
end

