-- ==== Sys2Proof/Machine/Num.lean ====
section
/-!
DEFINITION. Numbers (chapter 03): the element formats, exact values, rounding, flags and stochastic rounding. An exact
value is a NaN, an infinity, or (−1)^neg × mag × 2^exp; arithmetic on values is exact and rounding happens once.
-/
namespace Sys2Proof.Machine

/-- The element formats by their codes (03 R52, 04 R88). -/
inductive Fmt where
  | f32 | f16 | bf16 | e4m3 | e5m2 | fp6 | sap8 | i8 | i32
deriving DecidableEq, Repr

/-- The format a 4-bit code names; codes 9 to 15 are illegal and never reach here (04 R88). -/
def Fmt.ofCode (c : Nat) : Fmt :=
  match c with
  | 0 => .f32 | 1 => .f16 | 2 => .bf16 | 3 => .e4m3 | 4 => .e5m2 | 5 => .fp6 | 6 => .sap8 | 7 => .i8 | _ => .i32

/-- Width of an element in a register, in bits: FP6 stands one per byte (03 R53, 07 R162). -/
def Fmt.width : Fmt → Nat
  | .f32 | .i32 => 32
  | .f16 | .bf16 => 16
  | _ => 8

/-- The rounding modes (03 R60). -/
inductive Mode where
  | rne | rtz | rdn | rup | sr
deriving DecidableEq, Repr

/-- The mode a 3-bit code names; DYN and the reserved codes are resolved before (03 R60). -/
def Mode.ofCode (c : Nat) : Mode :=
  match c with
  | 1 => .rtz | 2 => .rdn | 3 => .rup | 4 => .sr | _ => .rne

/-- The five exception flags, NV highest and NX lowest (03 R61). -/
abbrev Flags := BitVec 5

/-- Invalid operation. -/
def flagNV : Flags := 0b10000
/-- Division by zero: an exact infinite result. -/
def flagDZ : Flags := 0b01000
/-- Overflow. -/
def flagOF : Flags := 0b00100
/-- Underflow. -/
def flagUF : Flags := 0b00010
/-- Inexact. -/
def flagNX : Flags := 0b00001

/-- A flag raised under a condition. -/
def flagIf (c : Bool) (f : Flags) : Flags := if c then f else 0

/-- An exact value: a NaN, an infinity, or (−1)^neg × mag × 2^exp. -/
inductive Num where
  | nan (signalling : Bool)
  | inf (neg : Bool)
  | fin (neg : Bool) (mag : Nat) (exp : Int)
deriving DecidableEq, Repr

/-- A zero of either sign. -/
def Num.zero (neg : Bool) : Num := .fin neg 0 0

/-- The integer as a value. -/
def Num.ofInt (i : Int) : Num := .fin (decide (i < 0)) i.natAbs 0

/-- Bits of a field. -/
def fieldOf (w lo n : Nat) : Nat := (w >>> lo) % 2 ^ n

/-! ### The binary formats -/

/-- Fraction bits, exponent bits and bias of a floating format; the integers and SAP8 have none (03 R52). -/
def Fmt.layout : Fmt → Nat × Nat × Nat
  | .f32 => (23, 8, 127)
  | .f16 => (10, 5, 15)
  | .bf16 => (7, 8, 127)
  | .e4m3 => (3, 4, 7)
  | .e5m2 => (2, 5, 15)
  | .fp6 => (3, 2, 1)
  | _ => (0, 0, 0)

/-- The formats in which an all-ones exponent is an infinity or a NaN (03 R52). -/
def Fmt.ieee : Fmt → Bool
  | .f32 | .f16 | .bf16 | .e5m2 => true
  | _ => false

/-- The exponent of the lattice step below which no value lies: the smallest subnormal is 2^this (03 R52). -/
def Fmt.stepMin (f : Fmt) : Int :=
  let (p, _, b) := f.layout
  1 - (b : Int) - p

/-- The bits of the largest finite magnitude of a floating format (03 R52). -/
def Fmt.maxBits : Fmt → Nat
  | .f32 => 0x7F7FFFFF
  | .f16 => 0x7BFF
  | .bf16 => 0x7F7F
  | .e4m3 => 0x7E
  | .e5m2 => 0x7B
  | .fp6 => 0x1F
  | _ => 0

/-- The bits of the canonical NaN; formats without a NaN have none (03 R52). -/
def Fmt.nanBits : Fmt → Nat
  | .f32 => 0x7FC00000
  | .f16 => 0x7E00
  | .bf16 => 0x7FC0
  | .e4m3 => 0x7F
  | .e5m2 => 0x7E
  | .sap8 => 0x80
  | _ => 0

/-- Reads the bits of a floating format other than SAP8. -/
def decodeFloat (f : Fmt) (w : Nat) : Num :=
  let (p, eb, _) := f.layout
  let frac := fieldOf w 0 p
  let e := fieldOf w p eb
  let neg := fieldOf w (p + eb) 1 = 1
  if f.ieee ∧ e = 2 ^ eb - 1 then
    if frac = 0 then .inf neg else .nan (frac < 2 ^ (p - 1))
  else if f = .e4m3 ∧ e = 15 ∧ frac = 7 then .nan false
  else if e = 0 then .fin neg frac f.stepMin
  else .fin neg (2 ^ p + frac) (f.stepMin + e - 1)

/-! ### SAP8 (03 R54) -/

/-- The magnitude of a SAP8 code without its sign, in units of 2^−11: 0 for code 0, the cap for code 0x40. -/
def sap8Mag (c : Nat) : Nat :=
  let u := c % 64
  let d := fieldOf c 6 1
  if u = 0 then (if d = 1 then 2 ^ 22 else 0)
  else
    let n := Nat.log2 u
    let l := 5 - n
    let m := if n = 0 then 10 else 2 * l + fieldOf u (n - 1) 1
    let fracBits := n - 1
    let frac := u % 2 ^ fracBits
    -- 2^m × (1 + frac / 2^fracBits), or 2^(−m−1) × the same
    if d = 1 then (2 ^ fracBits + frac) * 2 ^ (m + 11 - fracBits)
    else (2 ^ fracBits + frac) * 2 ^ (10 - m - fracBits)

/-- Reads a SAP8 byte. -/
def decodeSap8 (w : Nat) : Num :=
  if w % 256 = 0x80 then .nan false else .fin (fieldOf w 7 1 = 1) (sap8Mag (w % 128)) (-11)

/-- A two's complement integer of n bits. -/
def signedOf (n w : Nat) : Int :=
  let v := w % 2 ^ n
  if v < 2 ^ (n - 1) then (v : Int) else (v : Int) - 2 ^ n

/-- The value of an element's bits (03 R52-R55). -/
def decodeNum (f : Fmt) (w : Nat) : Num :=
  match f with
  | .i8 => .ofInt (signedOf 8 w)
  | .i32 => .ofInt (signedOf 32 w)
  | .sap8 => decodeSap8 w
  | f => decodeFloat f w

/-! ### Exact arithmetic -/

/-- A signed magnitude as an integer. -/
def signedMag (neg : Bool) (m : Nat) : Int := if neg then -(m : Int) else m

/-- A magnitude brought to the exponent `low`, which is not above its own. -/
def alignTo (low : Int) (m : Nat) (e : Int) : Nat := m * 2 ^ (e - low).toNat

/-- NaN operands and what they raise: NV for a signalling one (03 R61). -/
def Num.isNan : Num → Bool
  | .nan _ => true
  | _ => false

/-- A signalling NaN. -/
def Num.isSnan : Num → Bool
  | .nan s => s
  | _ => false

/-- The value with its sign inverted. -/
def Num.negate : Num → Num
  | .nan s => .nan s
  | .inf n => .inf (!n)
  | .fin n m e => .fin (!n) m e

/-- The value with its sign cleared. -/
def Num.absolute : Num → Num
  | .nan s => .nan s
  | .inf _ => .inf false
  | .fin _ m e => .fin false m e

/-- Multiplies by a power of two, exactly. -/
def Num.scale (x : Num) (k : Int) : Num :=
  match x with
  | .fin n m e => .fin n m (e + k)
  | x => x

/-- A flag for an operand that is a signalling NaN. -/
def snanFlag (xs : List Num) : Flags := flagIf (xs.any Num.isSnan) flagNV

/-- The exact product and its flags: 0 × Inf is invalid (03 R61). -/
def Num.mul (a b : Num) : Num × Flags :=
  match a, b with
  | .nan _, _ | _, .nan _ => (.nan false, snanFlag [a, b])
  | .inf n, .inf n' => (.inf (n != n'), 0)
  | .inf n, .fin n' m _ | .fin n' m _, .inf n =>
    if m = 0 then (.nan false, flagNV) else (.inf (n != n'), 0)
  | .fin n m e, .fin n' m' e' => (.fin (n != n') (m * m') (e + e'), 0)

/-- The exact sum and its flags: Inf − Inf is invalid. An exact zero from operands of unlike sign is +0, but −0 when
rounding down (IEEE 754, 07 R166). -/
def Num.add (down : Bool) (a b : Num) : Num × Flags :=
  match a, b with
  | .nan _, _ | _, .nan _ => (.nan false, snanFlag [a, b])
  | .inf n, .inf n' => if n = n' then (.inf n, 0) else (.nan false, flagNV)
  | .inf n, .fin .. | .fin .., .inf n => (.inf n, 0)
  | .fin n m e, .fin n' m' e' =>
    if m = 0 ∧ m' = 0 then (.fin (if n = n' then n else down) 0 0, 0)
    else
      let lo := min e e'
      let v := signedMag n (alignTo lo m e) + signedMag n' (alignTo lo m' e')
      if v = 0 then (.fin down 0 0, 0) else (.fin (decide (v < 0)) v.natAbs lo, 0)

/-- Integer square root by bits: the largest r below 2^k with r² ≤ n. -/
def isqrtFrom : Nat → Nat → Nat → Nat
  | 0, _, r => r
  | k + 1, n, r =>
    let c := r + 2 ^ k
    isqrtFrom k n (if c * c ≤ n then c else r)

/-- Integer square root. -/
def isqrt (n : Nat) : Nat := isqrtFrom (Nat.log2 n / 2 + 1) n 0

/-- A quotient of magnitudes to 400 binary places below the operands, with a sticky bit for a remainder: it rounds as
the exact quotient does, because every format keeps far fewer bits. -/
def divMag (m : Nat) (e : Int) (m' : Nat) (e' : Int) : Nat × Int :=
  let n := m * 2 ^ 400
  (2 * (n / m') + (if n % m' = 0 then 0 else 1), e - e' - 401)

/-- The quotient and its flags (06 R144). -/
def Num.div (a b : Num) : Num × Flags :=
  match a, b with
  | .nan _, _ | _, .nan _ => (.nan false, snanFlag [a, b])
  | .inf _, .inf _ => (.nan false, flagNV)
  | .inf n, .fin n' _ _ => (.inf (n != n'), 0)
  | .fin n _ _, .inf n' => (.fin (n != n') 0 0, 0)
  | .fin n m e, .fin n' m' e' =>
    if m' = 0 then
      if m = 0 then (.nan false, flagNV) else (.inf (n != n'), flagDZ)
    else if m = 0 then (.fin (n != n') 0 0, 0)
    else let (q, k) := divMag m e m' e'; (.fin (n != n') q k, 0)

/-- A square root of a magnitude to over 200 binary places, with a sticky bit. -/
def sqrtMag (m : Nat) (e : Int) : Nat × Int :=
  -- an even exponent, and 400 more bits under the root
  let (m1, e1) := if e % 2 = 0 then (m, e) else (2 * m, e - 1)
  let n := m1 * 2 ^ 400
  let r := isqrt n
  (2 * r + (if r * r = n then 0 else 1), e1 / 2 - 201)

/-- The square root and its flags (06 R144). -/
def Num.sqrt (a : Num) : Num × Flags :=
  match a with
  | .nan s => (.nan false, flagIf s flagNV)
  | .inf n => if n then (.nan false, flagNV) else (.inf false, 0)
  | .fin n m e =>
    if m = 0 then (.fin n 0 0, 0)
    else if n then (.nan false, flagNV)
    else let (r, k) := sqrtMag m e; (.fin false r k, 0)

/-- Compares two values that are not NaN: negative, zero or positive as a is below, equal to or above b; the two zeros
are equal. -/
def Num.cmp (a b : Num) : Int :=
  match a, b with
  | .inf n, .inf n' => signedMag n 1 - signedMag n' 1
  | .inf n, _ => signedMag n 1
  | _, .inf n => signedMag (!n) 1
  | .fin n m e, .fin n' m' e' =>
    let lo := min e e'
    signedMag n (alignTo lo m e) - signedMag n' (alignTo lo m' e')
  | _, _ => 0

/-- The sign of a value that is not a NaN. -/
def Num.isNeg : Num → Bool
  | .fin n _ _ => n
  | .inf n => n
  | .nan _ => false

/-- −0 is below +0 in minimum and maximum operations (03 R59). -/
def Num.below (a b : Num) : Bool :=
  let c := a.cmp b
  c < 0 || (c = 0 && a.isNeg && !b.isNeg)

/-- minimumNumber and maximumNumber (03 R59): whether the first or the second operand is the result; none when both are
NaN. -/
def pickFirst (wantMax : Bool) (a b : Num) : Option Bool :=
  match a.isNan, b.isNan with
  | true, true => none
  | true, false => some false
  | false, true => some true
  | false, false => some (if wantMax then !(a.below b) else !(b.below a))

/-! ### Rounding -/

/-- floor(log2 (m × 2^e)) of a nonzero magnitude. -/
def magLog2 (m : Nat) (e : Int) : Int := (Nat.log2 m : Int) + e

/-- Rounds a magnitude to a whole number of units, given the units below it, the remainder, the unit's size in the same
scale, and whether the units below are odd: whether it goes up (03 R60, R63). -/
def roundsUp (mode : Mode) (rbits : Nat) (neg odd : Bool) (rem unit : Nat) : Bool :=
  if rem = 0 then false
  else match mode with
    | .rne => if 2 * rem = unit then odd else unit < 2 * rem
    | .rtz => false
    | .rdn => neg
    | .rup => !neg
    | .sr => unit * 2 ^ 32 ≤ rem * 2 ^ 32 + rbits * unit

/-- A magnitude rounded to a multiple of 2^q: the multiple, and whether it is exact. -/
def roundUnits (mode : Mode) (rbits : Nat) (neg : Bool) (m : Nat) (e q : Int) : Nat × Bool :=
  if q ≤ e then (m * 2 ^ (e - q).toNat, true)
  else
    let unit := 2 ^ (q - e).toNat
    let n := m / unit
    let rem := m % unit
    (if roundsUp mode rbits neg (n % 2 = 1) rem unit then n + 1 else n, rem = 0)

/-- Packs n units of 2^q, a value of a floating format's lattice at most its largest, into bits. -/
def packFloat (f : Fmt) (neg : Bool) (n : Nat) (q : Int) : Nat :=
  let (p, eb, _) := f.layout
  -- normalise: n may have p+2 bits after a carry
  let (n, q) := if 2 ^ (p + 1) ≤ n then (n / 2, q + 1) else (n, q)
  let body := if n < 2 ^ p then n else (q - f.stepMin + 1).toNat * 2 ^ p + (n - 2 ^ p)
  (if neg then 2 ^ (p + eb) else 0) + body

/-- Infinity of a format that has one. -/
def infBits (f : Fmt) (neg : Bool) : Nat :=
  let (p, eb, _) := f.layout
  (if neg then 2 ^ (p + eb) else 0) + (2 ^ eb - 1) * 2 ^ p

/-- The largest magnitude of a floating format with a sign. -/
def maxFloatBits (f : Fmt) (neg : Bool) : Nat :=
  let (p, eb, _) := f.layout
  (if neg then 2 ^ (p + eb) else 0) + f.maxBits

/-- What a format without infinities, and one with, delivers above its largest magnitude (03 R57, R58). -/
def overflowBits (f : Fmt) (mode : Mode) (neg : Bool) : Nat :=
  if f.ieee then
    match mode with
    | .rne | .sr => infBits f neg
    | .rtz => maxFloatBits f neg
    | .rup => if neg then maxFloatBits f neg else infBits f neg
    | .rdn => if neg then infBits f neg else maxFloatBits f neg
  else maxFloatBits f neg

/-- Rounds a finite nonzero value to a floating format other than SAP8 (03 R57, R58). -/
def roundFinite (f : Fmt) (mode : Mode) (rbits : Nat) (neg : Bool) (m : Nat) (e : Int) : Nat × Flags :=
  let (p, _, _) := f.layout
  let q := max f.stepMin (magLog2 m e - p)
  let (n, exact) := roundUnits mode rbits neg m e q
  -- the largest finite magnitude, as a value
  let top := decodeFloat f f.maxBits
  let tooBig := (Num.fin false n q).cmp top > 0
  if tooBig then (overflowBits f mode neg, flagOF ||| flagNX)
  else
    -- below the smallest normal 2^(stepMin + p)
    let tiny := q = f.stepMin && decide (n < 2 ^ p)
    (packFloat f neg n q, flagIf (!exact) flagNX ||| flagIf (!exact && tiny) flagUF)

/-- The SAP8 codes without sign: 0 to 127, 0x40 the cap. -/
def sap8Codes : List Nat := List.range 128

/-- The neighbours of a magnitude m × 2^e on the SAP8 lattice (03 R56): the code of the largest magnitude not above it
and that of the smallest magnitude not below it; the magnitude is at most the cap. -/
def sap8Neighbours (m : Nat) (e : Int) : Nat × Nat :=
  let x := Num.fin false m e
  sap8Codes.foldl (fun (lo, hi) c =>
    let v := Num.fin false (sap8Mag c) (-11)
    let lo := if v.cmp x ≤ 0 ∧ sap8Mag lo ≤ sap8Mag c then c else lo
    let hi := if x.cmp v ≤ 0 ∧ sap8Mag c ≤ sap8Mag hi then c else hi
    (lo, hi)) (0, 0x40)

/-- Rounds a finite value to SAP8 (03 R56). -/
def roundSap8 (mode : Mode) (rbits : Nat) (neg : Bool) (m : Nat) (e : Int) : Nat × Flags :=
  let sign := if neg then 0x80 else 0
  if m = 0 then (0, 0)
  else if (Num.fin false m e).cmp (.fin false 1 11) > 0 then (sign + 0x40, flagOF ||| flagNX)
  else
    let (lo, hi) := sap8Neighbours m e
    if lo = hi then (sign + lo, 0)
    else
      -- distances in a common scale, finer than both m × 2^e and 2^−11
      let s := min e (-11)
      let x := alignTo s m e
      let l := alignTo s (sap8Mag lo) (-11)
      let h := alignTo s (sap8Mag hi) (-11)
      let up :=
        match mode with
        | .rne =>
          if 2 * x = l + h then lo % 2 = 1 && hi % 2 = 0
          else decide (l + h < 2 * x)
        | .rtz => false
        | .rdn => neg
        | .rup => !neg
        | .sr => decide ((h - l) * 2 ^ 32 ≤ (x - l) * 2 ^ 32 + rbits * (h - l))
      let c := if up then hi else lo
      let code := if c = 0 then 0 else sign + c
      let tiny := (Num.fin false m e).cmp (.fin false 1 (-11)) < 0
      (code, flagNX ||| flagIf (c = 0x40) flagOF ||| flagIf tiny flagUF)

/-- The least and greatest values of an integer format. -/
def Fmt.intBounds : Fmt → Int × Int
  | .i8 => (-128, 127)
  | _ => (-(2 ^ 31), 2 ^ 31 - 1)

/-- Rounds to an integer of n bits between the given bounds (03 R57, 06 R146): NaN gives 0 and what lies outside gives
the bound of its side, both with NV. -/
def roundInt (n : Nat) (bounds : Int × Int) (mode : Mode) (rbits : Nat) (x : Num) : Nat × Flags :=
  let bitsOf (v : Int) : Nat := (v % 2 ^ n).toNat
  match x with
  | .nan _ => (0, flagNV)
  | .inf neg => (bitsOf (if neg then bounds.1 else bounds.2), flagNV)
  | .fin neg m e =>
    let (k, exact) := roundUnits mode rbits neg m e 0
    let v := signedMag neg k
    if v < bounds.1 then (bitsOf bounds.1, flagNV)
    else if bounds.2 < v then (bitsOf bounds.2, flagNV)
    else (bitsOf v, flagIf (!exact) flagNX)

/-- Rounds a value once to a format (03 R56-R58): its bits and the flags it raises. -/
def roundNum (f : Fmt) (mode : Mode) (rbits : Nat) (x : Num) : Nat × Flags :=
  match f with
  | .i8 => roundInt 8 Fmt.i8.intBounds mode rbits x
  | .i32 => roundInt 32 Fmt.i32.intBounds mode rbits x
  | .sap8 =>
    match x with
    | .nan s => (0x80, flagIf s flagNV)
    | .inf neg => (if neg then 0xC0 else 0x40, flagOF ||| flagNX)
    | .fin neg m e => roundSap8 mode rbits neg m e
  | f =>
    match x with
    | .nan s => if f = .fp6 then (0, flagNV) else (f.nanBits, flagIf s flagNV)
    | .inf neg => if f.ieee then (infBits f neg, 0) else (maxFloatBits f neg, flagOF ||| flagNX)
    | .fin neg m e =>
      if m = 0 then (packFloat f neg 0 f.stepMin, 0) else roundFinite f mode rbits neg m e

/-! ### Modifier arithmetic (03 R66) -/

/-- The fields of a modifier word (04 R85); without a modifier every field is 0. -/
structure Modifier where
  nega : Bool := false
  absa : Bool := false
  negb : Bool := false
  absb : Bool := false
  scale : Int := 0
  sat : Nat := 0
deriving DecidableEq, Repr

/-- ABS, then NEG: the sign alone changes (03 R66), so that NEG makes −0 of the one zero of an integer or SAP8 element that is
converted to a floating format (notes/assumptions/128.md). -/
def applySign (abs neg : Bool) (x : Num) : Num :=
  let x := if abs then x.absolute else x
  if neg then x.negate else x

/-- The bounds of the clamp of SAT for a destination. -/
def satBounds (f : Fmt) (sat : Nat) : Num × Num :=
  match sat with
  | 1 =>
    match f with
    | .i8 => (.ofInt (-128), .ofInt 127)
    | .i32 => (.ofInt (-(2 ^ 31)), .ofInt (2 ^ 31 - 1))
    | .sap8 => (.ofInt (-1024), .ofInt 1024)
    | f => ((decodeFloat f f.maxBits).negate, decodeFloat f f.maxBits)
  | 2 => (.zero false, .ofInt 1)
  | _ => (.ofInt (-1), .ofInt 1)

/-- Clamps between two values; NX when the value changes (03 R66). A NaN passes. -/
def clampBetween (lo hi x : Num) : Num × Flags :=
  if x.isNan then (x, 0)
  else if x.cmp lo < 0 then (lo, flagNX)
  else if hi.cmp x < 0 then (hi, flagNX)
  else (x, 0)

/-- The clamp of SAT before rounding; under SAT = 2 the value −0 becomes +0 and raises nothing. -/
def satClamp (f : Fmt) (sat : Nat) (x : Num) : Num × Flags :=
  if sat = 0 then (x, 0)
  else
    let (lo, hi) := satBounds f sat
    let (y, fl) := clampBetween lo hi x
    (if sat = 2 ∧ !y.isNan ∧ y.cmp (.zero false) = 0 then .zero false else y, fl)

/-- Scale, clamp and round once (03 R66, steps 3 to 5). -/
def finishNum (f : Fmt) (mode : Mode) (rbits : Nat) (md : Modifier) (x : Num) : Nat × Flags :=
  let (y, fl) := satClamp f md.sat (x.scale md.scale)
  let (w, fl') := roundNum f mode rbits y
  (w, fl ||| fl')

/-! ### Random bits (03 R64, R65) -/

/-- The SplitMix64 finaliser. -/
def mix64 (z : BitVec 64) : BitVec 64 :=
  let z := z ^^^ (z >>> 30)
  let z := z * 0xBF58476D1CE4E5B9
  let z := z ^^^ (z >>> 27)
  let z := z * 0x94D049BB133111EB
  z ^^^ (z >>> 31)

/-- What a thread draws its random bits from: its seed, its logical core number and its counter (03 R64). -/
structure Draw where
  jseed : BitVec 64 := 0
  lcid : BitVec 32 := 0
  src : BitVec 64 := 0
deriving DecidableEq, Repr

/-- The random bits of result e of an instruction (03 R64). -/
def Draw.rbits (d : Draw) (e : Nat) : Nat :=
  (mix64 (d.jseed ^^^ ((d.lcid.setWidth 64) <<< 32) ^^^ (d.src * 32 + BitVec.ofNat 64 e))).toNat % 2 ^ 32

/-- The random bits of the synapse in row i and column j (03 R65). -/
def planeRbits (jseed : BitVec 64) (lan : BitVec 32) (pgc : BitVec 64) (i j : Nat) : Nat :=
  (mix64 (jseed ^^^ ((lan.setWidth 64) <<< 32) ^^^ (pgc * 0x100000 + BitVec.ofNat 64 (64 * i + j)))).toNat % 2 ^ 32

end Sys2Proof.Machine
end

