-- ==== Sys2Proof/Machine/Flags.lean ====
section
/-!
DEFINITION. Results with their flags on the bits of an element: minimum and maximum, comparison, classification, the
integer and FP32 operations of atomics (03 R59-R62, 06 R145, 11 R261).
-/
namespace Sys2Proof.Machine

/-- Minimum or maximum of two elements by R59: a NaN gives the other operand, two NaNs the canonical NaN; NV for a
signalling NaN. -/
def minMaxBits (wantMax : Bool) (f : Fmt) (a b : Nat) : Nat × Flags :=
  let x := decodeNum f a
  let y := decodeNum f b
  ((match pickFirst wantMax x y with
    | some true => a
    | some false => b
    | none => f.nanBits), snanFlag [x, y])

/-- A relation of two values (06 R145, 07 R168): 0 equal, 1 not equal, 2 less, 3 at most, 4 greater, 5 at least,
6 ordered, 7 unordered. Equality raises NV for a signalling NaN only, the order relations for any NaN. -/
def relation (r : Nat) (x y : Num) : Bool × Flags :=
  let nan := x.isNan || y.isNan
  let sig := snanFlag [x, y]
  let c := x.cmp y
  match r with
  | 0 => (!nan && c = 0, sig)
  | 1 => (nan || c ≠ 0, sig)
  | 2 => (!nan && c < 0, flagIf nan flagNV)
  | 3 => (!nan && c ≤ 0, flagIf nan flagNV)
  | 4 => (!nan && 0 < c, flagIf nan flagNV)
  | 5 => (!nan && 0 ≤ c, flagIf nan flagNV)
  | 6 => (!nan, sig)
  | _ => (nan, sig)

/-- The class word of an FP32 value (06 R145). -/
def classWord (w : Nat) : Nat :=
  let e := fieldOf w 23 8
  let frac := fieldOf w 0 23
  let kind :=
    if e = 255 then (if frac = 0 then 3 else if frac < 2 ^ 22 then 5 else 4)
    else if e = 0 then (if frac = 0 then 0 else 1)
    else 2
  e * 256 + fieldOf w 31 1 * 8 + kind

/-- An integer operation of an atomic on n-bit values (11 R261). -/
def atomInt (op n old src : Nat) : Nat :=
  let o := signedOf n old
  let s := signedOf n src
  match op with
  | 0 => (old + src) % 2 ^ n
  | 1 => old &&& src
  | 2 => old ||| src
  | 3 => old ^^^ src
  | 4 => if s < o then src else old
  | 5 => if o < s then src else old
  | 6 => min old src
  | 7 => max old src
  | _ => src

/-- An FP32 operation of an atomic, rounded to nearest even (11 R261). -/
def atomFloat (op old src : Nat) : Nat × Flags :=
  match op with
  | 4 => minMaxBits false .f32 old src
  | 5 => minMaxBits true .f32 old src
  | _ =>
    let (x, f) := (decodeNum .f32 old).add false (decodeNum .f32 src)
    let (w, f') := roundNum .f32 .rne 0 x
    (w, f ||| f')

end Sys2Proof.Machine
end

