-- ==== Sys2Proof/Config.lean ====
section
/-!
DEFINITION. What an implementation fixes and the free values. Every constant here is opaque: nothing can evaluate it
or prove a value of it (notes/assumptions/5.md).
-/
namespace Sys2Proof.Config

/-- The bits an open choice of the manual takes at the n-th draw (notes/assumptions/5.md). -/
opaque freeBits : Nat → Nat → Nat
/-- SHA3-512 of a byte string, as the 64 bytes of the digest read as one number (20 R381, R382). -/
opaque sha3 : List Byte → BitVec 512
/-- Whether a signature over a digest verifies under a public key (20 R381). -/
opaque verifies : BitVec 512 → List Byte → List Byte → Bool
/-- The signature of the package's attestation key over a byte string (20 R382). -/
opaque attestSign : List Byte → List Byte
/-- The boot key that the package holds in fuses (20 R381). -/
opaque fusedKey : List Byte
/-- The rollback counter that the package holds in fuses (20 R381). -/
opaque fusedRollback : Nat
/-- Router hops between a grove and the bridge to the next stand (true) or the one before (02 R44; where the bridges stand is
not given). -/
opaque bridgeHops : Nat → Bool → Nat
/-- Router hops between the two bridges of a stand (02 R44). -/
opaque throughHops : Nat → Nat
/-- The supervisor core that runs the system image of a partition (20 R375). -/
opaque systemCore : Nat → Nat
/-- The voltage that a margin table gives a grove for a frequency step (20 R385): the table's version, the grove, the step. -/
opaque voltage : Nat → Nat → Nat → Nat

end Sys2Proof.Config
end

