-- ==== Sys2Proof/Machine/Bits.lean ====
section
/-!
DEFINITION. Byte order, lanes and packed elements: little-endian numbers (R1), vector lanes and elements (07 R162), and
FP6 groups (03 R53).
-/
namespace Sys2Proof.Machine

open Sys2Proof

/-- The number that bytes hold, least significant first (R1). -/
def leNat : List Byte → Nat
  | [] => 0
  | b :: bs => b.toNat + 256 * leNat bs

/-- The n low bytes of a number, least significant first. -/
def leBytes : Nat → Nat → List Byte
  | 0, _ => []
  | n + 1, v => BitVec.ofNat 8 v :: leBytes n (v / 256)

/-- Bytes lo to lo + n − 1 of a list as a number; bytes beyond the end read 0. -/
def leField (bs : List Byte) (lo n : Nat) : Nat := leNat ((bs.drop lo).take n)

/-- A list with the bytes at an offset replaced. -/
def patchBytes (bs : List Byte) (off : Nat) (new : List Byte) : List Byte :=
  bs.take off ++ new ++ bs.drop (off + new.length)

/-- The n bytes of zeros. -/
def zeroBytes (n : Nat) : List Byte := List.replicate n 0

/-- Sign-extends the low n bits of a number to 64 bits. -/
def sext64 (n v : Nat) : Word := BitVec.ofInt 64 (signedOf n v)

/-- Element j of w bits of a vector register (07 R162). -/
def VElem (w : Nat) (v : VWord) (j : Nat) : Nat := (v.toNat >>> (w * j)) % 2 ^ w

/-- Lane i as 32 bits. -/
def lane (v : VWord) (i : Nat) : BitVec 32 := BitVec.ofNat 32 (v.toNat >>> (32 * i))

/-- A vector register made of elements of w bits, element 0 lowest; the rest is 0. -/
def packElems (w : Nat) : List Nat → Nat
  | [] => 0
  | e :: es => e % 2 ^ w + 2 ^ w * packElems w es

/-- The mask that covers the enabled elements of w bits. -/
def elemMask (w : Nat) (k : KWord) : VWord :=
  BitVec.ofNat 1024 (packElems w ((List.range 32).map fun i => if k.getLsbD i then 2 ^ w - 1 else 0))

/-- The lanes a mask enables, lowest first. -/
def lanesOf (k : KWord) : List Nat := (List.range 32).filter fun i => k.getLsbD i

/-- The bits of a value under a mask, and of another elsewhere. -/
def mergeBits {n : Nat} (old new mask : BitVec n) : BitVec n := (old &&& ~~~mask) ||| (new &&& mask)

/-- The 6-bit elements of packed bytes, four to three bytes (03 R53). -/
def unpackFp6 : List Byte → List Nat
  | b0 :: b1 :: b2 :: rest =>
    let v := leNat [b0, b1, b2]
    v % 64 :: (v / 64) % 64 :: (v / 4096) % 64 :: (v / 262144) % 64 :: unpackFp6 rest
  | _ => []

/-- Four 6-bit elements to three bytes (03 R53). -/
def packFp6 : List Nat → List Byte
  | e0 :: e1 :: e2 :: e3 :: rest =>
    leBytes 3 (e0 % 64 + 64 * (e1 % 64) + 4096 * (e2 % 64) + 262144 * (e3 % 64)) ++ packFp6 rest
  | _ => []

/-- The elements of a format in bytes of memory, FP6 packed. -/
def bytesToElems (f : Fmt) (bs : List Byte) : List Nat :=
  match f with
  | .fp6 => unpackFp6 bs
  | f =>
    let n := f.width / 8
    (List.range (bs.length / n)).map fun i => leField bs (n * i) n

/-- Elements of a format as bytes of memory, FP6 packed. -/
def elemsToBytes (f : Fmt) (es : List Nat) : List Byte :=
  match f with
  | .fp6 => packFp6 es
  | f => es.flatMap fun e => leBytes (f.width / 8) e

/-- Bytes that n elements take in memory. -/
def Fmt.bytesFor (f : Fmt) (n : Nat) : Nat :=
  match f with
  | .fp6 => n * 3 / 4
  | f => n * (f.width / 8)

end Sys2Proof.Machine
end

