-- ==== Sys2Proof/Machine/State.lean ====
section
/-!
DEFINITION. The state of the machine: every piece of state the spec names (INVENTORY.md, State), as plain data; the
reasons a step can stop; and the state right after package reset. Units that are alike (cores, groves, arrays, threads)
stand in tables that list only those that differ from their reset.

Numbers of units: a core is its home code of 02 R16 (stand in [10:9], grove in [8:4], core in [3:0]); a grove is that
code without the core bits; an array is 4 × its grove + q; a slot's location is TRAPLOC (06 R137), 4 × core + slot.
-/
namespace Sys2Proof.Machine

open Sys2Proof

/-- A table by number that lists only some entries, in rising order. -/
abbrev Table (α : Type) := List (Nat × α)

/-- Bytes by address: addresses strictly rising, no listed byte 0; an unlisted address reads 0
(notes/assumptions/1.md). -/
abbrev Memory := List Host.Cell

/-! ### Tasks -/

/-- What a task carries from its record to its thread (02 R16, R183). -/
structure TaskDesc where
  /-- ENTRY -/
  entry : Word := 0
  /-- ARGP -/
  argp : Word := 0
  /-- HOME, already a core -/
  home : Nat := 0
  /-- FRAME: cells -/
  frame : Nat := 0
  /-- PRI -/
  pri : Nat := 0
  /-- YDF -/
  ydf : Nat := 0
  /-- FLAGS.FAR -/
  far : Bool := false
  /-- FLAGS.NOSPIN -/
  nospin : Bool := false
  /-- FLAGS.CTAGS, the size code -/
  ctags : Nat := 0
  /-- LCID -/
  lcid : BitVec 32 := 0
  /-- TTAG -/
  ttag : BitVec 32 := 0
  /-- address of the task record (RPTR of R20) -/
  record : Word := 0
  /-- descriptor of the graph whose node the task is (08 R212) -/
  node : Option Word := none
  /-- partition that owns the task -/
  part : Nat := 0
deriving DecidableEq, Repr

/-- Where a task's dependence counter stands, to be freed at its bind (02 R19, R23). -/
inductive CounterRef where
  | none
  /-- entry of the task table of a core -/
  | near (core index : Nat)
  /-- entry of the partition's far pool -/
  | far (part index : Nat)
deriving DecidableEq, Repr

/-- What an entry of a run queue starts: a new task, or a thread that was parked, handed over or migrated. -/
inductive RunWhat where
  | task (t : TaskDesc) (ctr : CounterRef)
  | resume (tid : Nat)
deriving DecidableEq, Repr

/-- A run-queue or spill-ring entry (02 R24): what it starts, its current priority, since when it waits and since when
at this priority (R51), and its order of arrival. -/
structure RunEntry where
  what : RunWhat
  pri : Nat
  since : Nat
  raised : Nat
  ctags : Nat
  /-- the entry's thread keeps its tag group (02 R27) -/
  hasTags : Bool
deriving DecidableEq, Repr

/-! ### Places in memory -/

/-- A byte's place once an address is resolved (09 R216, R227): a local store, a scratchpad, or a physical address with
its memory type. -/
inductive Loc where
  | ls (core off : Nat)
  | sp (grove off : Nat)
  | pa (addr : Nat) (mt : Nat)
deriving DecidableEq, Repr

/-! ### Statistics partials (17 R333) -/

/-- A partial: the largest magnitude as FP32 bits, counts by exponent relative to no base (exponent and count), the
count of NaN and infinite values, and whether a NaN was among them. -/
structure Partial where
  maxmag : Nat := 0
  exps : List (Int × Nat) := []
  bad : Nat := 0
  nan : Bool := false
deriving DecidableEq, Repr

/-! ### Log entries -/

/-- A log entry (18 R356, R357). -/
structure LogEntry where
  cause : Nat := 0
  reason : Nat := 0
  unit : Nat := 0
  issuer : Nat := 0
  ttag : BitVec 32 := 0
  pc : Word := 0
  addr : Word := 0
  value : Word := 0
  extra : Word := 0
  word : BitVec 32 := 0
  opnd : BitVec 32 := 0
deriving DecidableEq, Repr

/-! ### Threads -/

/-- One write of a fixed-latency result (02 R31, R32): only the bits under the mask change. -/
inductive RegWrite where
  | s (d : BitVec 4) (v : Word)
  | v (d : BitVec 4) (value mask : VWord)
  | k (d : BitVec 3) (value mask : KWord)
  /-- sticky flags into FCSR (04 R92) -/
  | flags (f : Flags)
  /-- a CSRW, CSRS or CSRC: the register and the value for its writable fields (04 R94) -/
  | csr (num : Nat) (x : Word)
  /-- a CSRS or CSRC of FCSR: the value, and the flags that it leaves as they stand (03 R62) -/
  | fcsr (keep : BitVec 5) (x : Word)
  /-- a LOOP's write of its level's lc, lb and le (04 R94) -/
  | loop (l : BitVec 1) (count first last : Word)
deriving DecidableEq, Repr

/-- A fixed-latency result that is not yet visible: how far it still is, in issue distance. -/
structure Pending where
  left : Nat
  write : RegWrite
deriving DecidableEq, Repr

/-- A register that an instruction reads or writes. -/
inductive RegRef where
  | s (r : Nat)
  | v (r : Nat)
  | k (r : Nat)
  | sc (r : Nat)
deriving DecidableEq, Repr

/-- The destination of a load-path result (04 R93): a scalar register, the masked bits of a vector register, a scale
register (with FCSR.OF of STATL), or nothing. -/
inductive LoadDest where
  | s (d : BitVec 4)
  | v (d : BitVec 4) (mask : VWord)
  | sc (n : BitVec 3)
  | nothing
deriving DecidableEq, Repr

/-- What becomes of the bytes that a load reads: a number of some bytes, extended by its sign or not; 4 bytes for each
lane; or 3 bytes for each group of four FP6 elements (09 R231, R234, R236). -/
inductive LoadForm where
  | scalar (sx : Bool) (width : Nat)
  | lanes
  | fp6
deriving DecidableEq, Repr

/-- A piece of a load that is single-copy atomic (09 R230): its lane or group, its address and its places. -/
structure LoadPart where
  idx : Nat
  va : Word
  locs : List Loc
deriving DecidableEq, Repr

/-- What is done before an answer comes back through the load path: a spawn, as a release at .pkg (08 R183); or an
instruction with the values of s[a] and s[b] and the places it reads, which something earlier of its thread must come
before (12 R270, notes/assumptions/97.md), or which acts as a release (GREPLAY, 08 R211). -/
inductive Acting where
  | spawn (t : TaskDesc) (depc : Nat)
  | late (i : Instr) (a b : Word) (locs : List Loc)
deriving DecidableEq, Repr

/-- What a load brings: data, or a data error with its address and TRAPV (09 R229), or another fault of an instruction that
acted late; or what is still to be read, with the pieces that have been, or to be done. -/
inductive LoadVal where
  | waiting
  | data (v : VWord) (raiseOF : Bool)
  | error (addr : Word) (info : Nat)
  | fault (cause fidx fval : Nat) (addr value : Word)
  | reading (form : LoadForm) (todo : List LoadPart) (got : List (LoadPart × Nat))
  | acting (a : Acting)
deriving DecidableEq, Repr

/-- A result outstanding on the load path (02 R33). -/
structure Load where
  /-- its number, which places it among its thread's accesses in program order -/
  id : Nat
  dest : LoadDest
  val : LoadVal
  /-- the loading instruction: its address, word and modifier word, for a precise data error -/
  pc : Word
  word : BitVec 32
  /-- the scope of an acquire (09 R232) -/
  acq : Option Nat := none
deriving DecidableEq, Repr

/-- A piece of a store that is single-copy atomic (09 R230): its places, and the bits of a number, lowest byte first, that
it gives them (a partly enabled FP6 group stores only some, R236). -/
structure StorePart where
  locs : List Loc
  value : Nat
  mask : Nat
deriving DecidableEq, Repr

/-- A queued store. -/
structure QStore where
  /-- its place among its thread's accesses in program order -/
  no : Nat
  /-- the pieces not yet performed at their homes -/
  parts : List StorePart
  /-- the scope of a release (09 R232) -/
  rel : Option Nat
  /-- how far it is performed short of its home (11 R243): 1 for the slots of its core, 2 for its grove, none of whose
  observers reads the bytes before it is at its home -/
  lvl : Nat
  /-- the stands' applied clocks as it was issued (11 R246); none for a store that takes them as it is performed -/
  clocks : List (List Nat)
  /-- the partial it carries (09 R237) -/
  part : Option (Word × Partial × LogEntry)
  /-- its issuer as log entries name it -/
  issuer : LogEntry
deriving DecidableEq, Repr

/-- An entry of a slot's store queue (11 R242): a store, a line operation with the stands' clocks at its issue (09 R239,
R240), a deck advance (08 R193), a STATA with its FMT and E0 or a STATC, of a record at a physical address (17 R335), or
the end of a graph node's task with its descriptor (08 R212), which wait for what goes before them; or a FENCEL mark. -/
inductive StoreEntry where
  | store (q : QStore)
  | line (no : Nat) (discard : Bool) (loc : Loc) (clocks : List (List Nat))
  | advance (no : Nat) (publish : Bool) (core off count : Nat)
  | record (no addr handle : Nat) (set : Option (Nat × Nat)) (issuer : LogEntry)
  | live (no : Nat) (desc : Word)
  | mark (no : Nat)
deriving DecidableEq, Repr

/-- What an atomic or reduction does at its home (11 R260, R261). -/
structure AtomOp where
  /-- its place among its thread's accesses in program order -/
  no : Nat
  /-- 0 AMO, 1 CAS, 2 FAMO, 3 RED, 4 FRED; VRED lanes use 3 and 4 -/
  kind : Nat
  /-- operation code of FN[28:25] -/
  op : Nat
  /-- bytes, 4 or 8 -/
  width : Nat
  va : Word
  /-- resolved places of a returning atomic; for a reduction, which resolves its address anew at its home (R266), the places
  that it had at issue -/
  locs : List Loc
  operand : Word
  expected : Word
  /-- the load that returns the old value -/
  load : Option Nat
  word : BitVec 32
  lane : Nat
  isVector : Bool
  priv : Nat
  /-- the stands' applied clocks as it was issued (R246) -/
  clocks : List (List Nat)
deriving DecidableEq, Repr

/-- An entry of the reduction log (11 R266, 18 R362). -/
structure RedEntry where
  addr : Word
  operand : Word
  word : BitVec 32
  cause : Nat
  lane : Nat
deriving DecidableEq, Repr

/-- A stream of a thread (08 R202): open, in error, its target, its descriptor and the number of its route. -/
structure Stream where
  opened : Bool := false
  error : Bool := false
  tgt : Nat := 0
  dcb : Nat := 0
  desc : Word := 0
  route : Nat := 0
deriving DecidableEq, Repr

/-- Why a thread is held by a wait that parks (02 R33). -/
inductive Wait where
  | deckC (cb : Nat) (c : Nat)
  | deckP (cb : Nat) (c : Nat)
  | tagAny (mask : Word)
  | tagAll (mask : Word)
  | join
  /-- GANG of n members waits for slots and tag groups -/
  | gang (n : Nat)
  | ssend (stream count : Nat)
  | arrayQueue (arr : Nat)
  | planeQueue (arr : Nat)
  | walkerQueue (stand : Nat)
  | nfence
  | ending
  | migrating
deriving DecidableEq, Repr

/-- A hold until completion (02 R33): the thread does not park. -/
inductive Hold where
  /-- FENCEH: the target cores that have not drained yet -/
  | fenceh (cores : List Nat)
  /-- NSAVE 0, NREST 1, NRESET 2 waiting for a quiet network: the network, the operand, the block read by NREST, and the
  places NSAVE stores to -/
  | net (what net : Nat) (operand : Word) (bytes : List Byte) (spans : List (Loc × Nat))
  /-- an instruction that waits for accesses and array commands of the thread (12 R270), with their numbers -/
  | other (work : List Nat)
deriving DecidableEq, Repr

/-- What a thread is doing. -/
inductive Status where
  | running
  | waiting (w : Wait) (since : Nat)
  | holding (h : Hold)
  /-- parked with its condition; p is its place (18 R363) -/
  | parked (w : Wait) (p : Nat)
  /-- parked on a monitor of a line: the place of its first byte, the cycle it began, its place, and whether a write has
  reached the line (02 R37, R38) -/
  | spinning (line : Loc) (since p : Nat) (woken : Bool)
  /-- in a run queue, with the place that holds its context if any -/
  | queued (p : Option Nat)
  | moving
  /-- its context saved by CTXSV, its slot free (18 R369) -/
  | saved
  | ended (cause : Nat)
deriving DecidableEq, Repr

/-- A load that the spin-park rule watches (02 R37): its address and place, and its value once it is there; until then the
number of the load. -/
structure SpinLoad where
  va : Word
  loc : Loc
  id : Nat
  value : Option Word
deriving DecidableEq, Repr

/-- What the spin-park rule watches (02 R37): the instructions issued since the last one that rules a park out, newest
first, each with its address and, for a load, what it read. -/
abbrev SpinTrace := List (Word × Option SpinLoad)

/-- The instruction register: the fetched word, the modifier word, length in bytes, GAP, SW, and the privilege at which the
instruction is executed. -/
structure InstrReg where
  word : BitVec 32 := 0
  modw : BitVec 32 := 0
  hasMod : Bool := false
  len : Nat := 4
  gap : Nat := 0
  sw : Bool := false
  priv : BitVec 2 := 0
deriving DecidableEq, Repr

/-- A thread with everything a slot, a park area or a run queue holds for it (06 R129, 18 R362). -/
structure Thread where
  id : Nat := 0
  task : TaskDesc := {}
  core : Nat := 0
  status : Status := .running
  pc : Word := 0
  s : Vector Word 16 := .replicate 16 0
  v : Vector VWord 16 := .replicate 16 0
  k : Vector KWord 8 := .replicate 8 0
  sc : Vector Word 8 := .replicate 8 0
  fc : List (BitVec 32) := []
  decks : Vector (Option Nat) 8 := .replicate 8 none
  streams : Vector Stream 4 := .replicate 4 {}
  lc : Vector Word 2 := .replicate 2 0
  lb : Vector Word 2 := .replicate 2 0
  le : Vector Word 2 := .replicate 2 0
  fcsr : BitVec 32 := 0
  erx : BitVec 32 := 0
  src : Word := 0
  lcid : BitVec 32 := 0
  jseed : Word := 0
  ydl : BitVec 32 := 65536
  -- TSTAT (06 R134); FRAME is the length of fc, SHRD stands with the core's WDOG
  slot : BitVec 2 := 0
  ctgb : BitVec 6 := 0
  det : Bool := false
  crew : Bool := false
  cidx : BitVec 4 := 0
  inh : Bool := false
  priv : BitVec 2 := 0
  trapc : Word := 0
  trappc : Word := 0
  trapi : Word := 0
  trapop : Word := 0
  trapa : Word := 0
  trapv : Word := 0
  trapst : Word := 0
  /-- TSLC0, TSLC1, TSLB0, TSLB1, TSLE0, TSLE1, TSERX -/
  tsl : Vector Word 7 := .replicate 7 0
  sscr : Vector Word 2 := .replicate 2 0
  /-- holds a tag group (02 R27) -/
  tagged : Bool := false
  pend : List Pending := []
  loads : List Load := []
  sq : List StoreEntry := []
  atq : List AtomOp := []
  redlog : List RedEntry := []
  /-- a reduction fault found the log full and was dropped (11 R266) -/
  redDropped : Bool := false
  nearCount : Nat := 0
  /-- failed near commands not yet reported: faulting and block address (14 R310) -/
  nearErrs : List (Word × Word) := []
  /-- a data error an array met for this thread: address and TRAPV (12 R270) -/
  dataErr : Option (Word × Word) := none
  ir : InstrReg := {}
  /-- a modifier word issued with the instruction that follows, and that instruction's word, fetched with it (04 R86) -/
  modLatch : Option (BitVec 32) := none
  second : BitVec 32 := 0
  /-- the instruction just executed took a trap, or is held and will execute again: its issue does not count -/
  uncounted : Bool := false
  spin : SpinTrace := []
  /-- the crew's number; members share it (02 R39) -/
  crewId : Nat := 0
  /-- instructions the leader has forwarded and this follower has not executed, oldest first (02 R41) -/
  fwd : List (InstrReg × Word) := []
  /-- a follower bound by GANG, whose end is not the end of the task (02 R40) -/
  follower : Bool := false
  /-- a fault ends the thread once its outstanding work is done (18 R358): the cause -/
  dying : Option Nat := none
  /-- loads with lower numbers were issued before YDL was last loaded or written (18 R359) -/
  reloaded : Nat := 0
  /-- accesses with lower numbers are those that the thread's latest IFENCE made its fetches see (06 R158) -/
  ifence : Nat := 0
  /-- the first cycle in which the thread is ready again after a gap, a redirected pc or its binding (02 R26, R29, R30; 06 R149) -/
  ready : Nat := 0
deriving DecidableEq, Repr

/-! ### Cores -/

/-- An inbound route of a core: the stream that holds a deck, bytes received of a slot not yet full (08 R203), and how many
flits its deck's overflow area holds that are not yet replayed (08 R206). -/
structure Route where
  dcb : Nat
  route : Nat
  bytes : List Byte
  replay : Nat := 0
deriving DecidableEq, Repr

/-- A core (06 R129, R138; 02 R24-R35; 09 R217). -/
structure Core where
  ls : Memory := []
  ctb : Word := 0
  tagErr : Word := 0
  /-- addresses at which the commands of marked tags failed -/
  tagFault : Table Word := []
  tagOut : Word := 0
  tagAllot : Word := 0
  spinpark : Word := 0
  pmc : Vector Word 8 := .replicate 8 0
  pmsel : Vector Word 8 := .replicate 8 0
  tvec : Word := 0
  dwb : Word := 16
  wdog : Word := 1
  rqsb : Word := 0
  pkob : Word := 0
  fcpb : Word := 0
  jseedm : Word := 0
  psave : Word := 0
  partn : Word := 0
  mpriv : Word := 0
  /-- the TVEC that the partition system image set, and the one held before a launch replaced it (10 R241) -/
  tvecSys : Word := 0
  tvecBase : Option Word := none
  /-- tasks of the task table, by index: what R183 says the task carries -/
  tasks : Table TaskDesc := []
  runq : List RunEntry := []
  spill : List RunEntry := []
  /-- the place in the spill ring of its oldest entry -/
  spillHead : Nat := 0
  inbound : List RunEntry := []
  /-- park places in use: 0 to 11 local store, 12 and up the overflow ring (18 R363) -/
  parks : List Nat := []
  /-- the issue picker's current slot (02 R29) -/
  cur : BitVec 2 := 0
  routes : List Route := []
  /-- opening flits that wait for a route, in arrival order -/
  claims : List (Nat × Nat) := []
  /-- offsets of the deck control blocks the loader built: ordinary stores change only OVFA there (08 R189) -/
  cbs : List Nat := []
  /-- parcels the instruction cache holds, by physical address: 32 KiB (06 R129, R158) -/
  icache : Table Nat := []
  /-- lines that the L1 holds, by line number, with their bytes (09 R218) -/
  l1 : Table (List Byte) := []
deriving DecidableEq, Repr

/-! ### Engine commands -/

/-- A region of an engine command (11 R256): a memory span of virtual addresses, or a span of a core's local store. -/
structure Region where
  /-- none for memory, the core for a deck -/
  core : Option Nat
  base : Nat
  len : Nat
  write : Bool
deriving DecidableEq, Repr

/-- The states of an engine command. -/
inductive CmdState where
  | queued
  | running
  /-- all data moved, completion not yet signalled -/
  | moved
deriving DecidableEq, Repr

/-- A copy command (08 R195-R199). -/
structure CopyCmd where
  id : Nat
  /-- address of the operand block -/
  block : Word
  twoD : Bool
  tag : Nat
  gran : Nat
  pri : Nat
  core : Nat
  slot : Nat
  ttag : BitVec 32
  pc : Word
  word : BitVec 32
  part : Nat
  /-- privilege of the issuing thread -/
  priv : Nat
  /-- the issuing thread, whose earlier accesses the engine's reads go behind (08 R196) -/
  tid : Nat
  /-- order of registration with the stand's checker -/
  reg : Nat
  state : CmdState := .queued
  /-- the block as read by the engine, empty until it is read -/
  bytes : List Byte := []
  regions : List Region := []
  /-- waits for its start line -/
  armed : Bool := false
  /-- granules done -/
  granule : Nat := 0
  /-- at a boundary of its granules: nothing of the next one has moved (02 R49) -/
  boundary : Bool := true
  /-- source bytes read, and destination bytes written, in all and at the last boundary -/
  rd : Nat := 0
  wr : Nat := 0
  mark : Nat := 0
  /-- source bytes read and not yet converted, and destination bytes not yet written -/
  ibuf : List Byte := []
  obuf : List Byte := []
  /-- the statistics partial of the running granule -/
  stats : Partial := {}
deriving DecidableEq, Repr

/-- A walker command (14 R296-R310). -/
structure NearCmd where
  id : Nat
  /-- 0 NWALK, 1 NADD, 2 NUPD -/
  kind : Nat
  block : Word
  completion : Word
  gran : Nat
  pri : Nat
  core : Nat
  slot : Nat
  tid : Nat
  ttag : BitVec 32
  pc : Word
  word : BitVec 32
  part : Nat
  priv : Nat
  reg : Nat
  state : CmdState := .queued
  /-- descriptors, body and NWALK's records as read by a walker, empty until they are read -/
  bytes : List Byte := []
  regions : List Region := []
  granule : Nat := 0
  /-- bytes moved since the last boundary -/
  moved : Nat := 0
  /-- records or entries done -/
  pos : Nat := 0
  /-- output bytes of the running record still to go to its deck -/
  obuf : List Byte := []
  /-- for NUPD: the parameter block, the global norm, and the clip factor of the running row block -/
  params : List Byte := []
  norm : BitVec 32 := 0
  factor : BitVec 32 := 0
  /-- rows that the running entry of NUPD has locked (14 R309), with the bytes it leaves there; none between entries -/
  held : Option (List (Loc × Byte)) := none
  /-- the failure, once met: reason, address, and the walker that met it with its stand -/
  failed : Option (Nat × Word × Nat × Nat) := none
deriving DecidableEq, Repr

/-- A BRE job slot (14 R311-R314). -/
structure BreJob where
  /-- use count -/
  seq : Nat := 0
  /-- 0 queued, 1 running, 2 done, 3 failed -/
  state : Nat := 0
  flags : Flags := 0
  /-- order in which the job finished, for reuse -/
  finished : Nat := 0
  /-- the parameter block -/
  bytes : List Byte := []
  block : Word := 0
  gran : Nat := 0
  pri : Nat := 0
  core : Nat := 0
  slot : Nat := 0
  ttag : BitVec 32 := 0
  pc : Word := 0
  word : BitVec 32 := 0
  part : Nat := 0
  priv : Nat := 0
  /-- the issuing thread, and the job's place among its accesses in program order -/
  tid : Nat := 0
  no : Nat := 0
  regions : List Region := []
  reg : Nat := 0
  granule : Nat := 0
  /-- elements done -/
  pos : Nat := 0
  failed : Option (Nat × Word) := none
deriving DecidableEq, Repr

/-! ### Groves -/

/-- The event crossbar of a grove (17 R339-R347). -/
structure Evx where
  /-- the configuration image, 640 bytes, empty when disabled -/
  image : List Byte := []
  value : Vector (BitVec 16) 16 := .replicate 16 0
  seen : Vector (BitVec 16) 16 := .replicate 16 0
  credit : Vector (BitVec 8) 32 := .replicate 32 0
  /-- counter-out lines that pulse in the next fabric cycle (17 R343) -/
  outs : List Nat := []
deriving DecidableEq, Repr

/-- A grove (09 R220, 08 R195, 17 R339, 20 R384). -/
structure Grove where
  spbase : BitVec 34 := 0
  ways : BitVec 2 := 0
  busy : Bool := false
  /-- the WAYS that a change in progress leaves (09 R222) -/
  oldWays : BitVec 2 := 0
  scratch : Memory := []
  copies : List CopyCmd := []
  evx : Evx := {}
  /-- arithmetic clock in steps of 100 MHz, 16 to 32 -/
  clock : Nat := 32
  owner : Option Nat := none
  /-- L1s fused (09 R218) -/
  fused : Bool := false
  /-- the margin table in effect, and the one re-planned for the next step of the grove's loop (20 R385) -/
  margin : Nat := 0
  replanned : Nat := 0
deriving DecidableEq, Repr

/-! ### Arrays and planes -/

/-- A command of an array or plane queue with what it captured at issue (12 R269, R277, 18 R364). -/
structure ArrayCmd where
  id : Nat
  instr : Instr
  word : BitVec 32
  modw : BitVec 32
  a : Word
  b : Word
  core : Nat
  slot : Nat
  tid : Nat
  ttag : BitVec 32
  pc : Word
  part : Nat
  draw : Draw
  mode : Nat
  sc : Word
  /-- resolved places of the bytes it reads or writes -/
  locs : List (Loc × Nat)
  /-- control blocks of its decks: core and offset -/
  decks : List (Nat × Nat)
  /-- the tile a BC MLDB read for the grove, or a drain's converted bytes -/
  data : Option (List Byte)
  /-- the read of that tile met a data error -/
  failed : Bool := false
  /-- the load that returns MFLAG's result -/
  load : Option Nat
  /-- fades of a PFADE still to run, or slots a drain has published -/
  left : Nat
  /-- the message that carries a drain's statistics partial (17 R338) -/
  sent : Option Nat := none
deriving DecidableEq, Repr

/-- A reward or gate (12 R291, 18 R364). -/
structure Reward where
  r : BitVec 32
  cut : Word
  gate : Bool
  sr : Bool
deriving DecidableEq, Repr

/-- A step, fade or reward sweep between its start and its end (12 R287, R289, R292), with the table values it read when
it started. -/
structure RunningStep where
  /-- 0 step, 1 fade, 2 reward sweep -/
  kind : Nat
  /-- rows with their values, for a step -/
  events : List (Nat × BitVec 16)
  /-- post-factors by column, for a step -/
  post : List (BitVec 16)
  /-- λ by column, or the update factor by column for a sweep -/
  coeff : List (BitVec 32)
  /-- the reward of a sweep -/
  reward : Option Reward
  /-- the message that carries a sweep's statistics partial (17 R338) -/
  sent : Option Nat := none
deriving DecidableEq, Repr

/-- An array with its plane slice (12 R268, R284). -/
structure MArray where
  acc : Vector Memory 4 := .replicate 4 []
  abuf : Vector Memory 4 := .replicate 4 []
  accf : Vector (BitVec 32) 4 := .replicate 4 0
  own : BitVec 3 := 0
  /-- tile positions held in the tile registers, newest first, at most two -/
  tileRegs : List Nat := []
  aq : List ArrayCmd := []
  pq : List ArrayCmd := []
  rq : List Reward := []
  held : List Reward := []
  slice : Memory := []
  psc : Word := 0
  pgl : Word := 0xFFFFFFFFFFFFFFFF
  pgw : BitVec 32 := 0
  plate : BitVec 32 := 0
  pgc : Word := 0
  lan : BitVec 32 := 0
  cfg : BitVec 32 := 0
  pflg : BitVec 32 := 0
  sth : BitVec 32 := 0
  lambda : Vector (BitVec 32) 16 := .replicate 16 0
  eta : Vector (BitVec 32) 16 := .replicate 16 0
  cold : Vector (BitVec 8) 64 := .replicate 64 0
  running : Option RunningStep := none
  /-- CTXSV.arr froze the array (18 R369) -/
  frozen : Bool := false
deriving DecidableEq, Repr

/-! ### Stands -/

/-- A stand's base die (11 R242, 14 R295, 20 R384). -/
structure Stand where
  walkq : List NearCmd := []
  bre : Table BreJob := []
  breDone : Nat := 0
  /-- order numbers the footprint checker has given (11 R256) -/
  regs : Nat := 0
  /-- applied clock A (11 R246) -/
  clock : Vector Nat 4 := .replicate 4 0
  /-- lines homed in other stands of which the stand holds a replica, with the replica's bytes -/
  replicas : List Nat := []
  replica : Memory := []
  hot : Bool := false
  walkers : Table Nat := []
deriving DecidableEq, Repr

/-- A supervisor core (01 R6, R7, 20 R373, R375): whether it runs the monitor, and how many notifications of each partition's
log it has been given. -/
structure Supervisor where
  running : Bool := false
  notices : Table Nat := []
deriving DecidableEq, Repr

/-- The management mailbox (20 R379): the command and response rings, 16 slots of 256 bytes each, and the slot index that
the doorbell took last. -/
structure Mailbox where
  commands : Memory := []
  responses : Memory := []
  doorbell : Nat := 0
deriving DecidableEq, Repr

/-! ### Partitions and the package -/

/-- What a Create command grants a partition (20 R373). -/
structure Grant where
  /-- partition number, 0 to 7 -/
  part : Nat
  /-- granted groves by number, logical grove g the g-th -/
  groves : List Nat
  /-- physical ranges: base and size in bytes, 2 MiB aligned -/
  ranges : List (Nat × Nat)
  /-- package counting networks, 0 to 63 -/
  nets : List Nat
  /-- domain counting networks, 0 to 15 -/
  domNets : List Nat
  /-- landing queues: base address and packets, 16 to 4096 -/
  landing : List (Nat × Nat)
  /-- statistics records granted (RECN) -/
  recN : Nat
  /-- physical base of the record area (RECB) -/
  recB : Nat
  /-- true for a shared partition -/
  shared : Bool
  /-- false when a dedicated partition runs without watchdog -/
  watchdog : Bool
  /-- job seed (JSEEDM) -/
  jseed : Nat
  /-- deck-wait bound in units of 256 cycles (DWB) -/
  dwb : Nat
  /-- trap handler entry (TVEC) that the partition system image uses -/
  tvec : Nat
  /-- save area base (PSAVE) -/
  psave : Nat
  /-- spill-ring bases (RQSB), one per granted core in order -/
  rqsb : List Nat
  /-- park-overflow bases (PKOB), one per granted core in order -/
  pkob : List Nat
  /-- far-counter pool base (FCPB) -/
  fcpb : Nat
  /-- physical address of the root page table (PTROOT) -/
  ptroot : Nat
  /-- partition virtual base and size of the host's memory aperture (DW) -/
  aperture : Nat × Nat
  /-- granted ranges in whole 4 KiB frames that the monitor keeps for pages it maps at a load: base and size -/
  spare : List (Nat × Nat)
  /-- partition address of the overflow areas of decks (08 R189) -/
  overflow : Nat
  /-- physical bytes the monitor has written for the partition, its page tables among them -/
  image : List (Nat × Byte)
  /-- whether MPRIV is set on the granted cores, and the L2WP that the monitor writes in each granted grove, in order (06 R138) -/
  mpriv : Bool := false
  l2wp : List Nat := []
  /-- the owner key against which partition images are verified (R381) -/
  ownerKey : List Byte
deriving DecidableEq, Repr

/-- What a Load command names (05 R126, R128; 20 R381). -/
structure LoadRequest where
  /-- partition number -/
  part : Nat
  /-- the linked image, a POF file -/
  pof : List Byte
  /-- signature over the image -/
  signature : List Byte
  /-- the job seed the monitor chooses when the launch leaves SEED 0 (R125) -/
  seed : Nat
deriving DecidableEq, Repr

/-- What the boot ROM finds (20 R381). -/
structure BootRequest where
  /-- whether the boot flash can be read -/
  readable : Bool
  /-- first-stage firmware image in the boot flash -/
  firmware : List Byte
  /-- its signature -/
  fwSignature : List Byte
  /-- its version, compared with the fused rollback counter -/
  version : Nat
  /-- whether the links and the DRAM train -/
  trained : Bool
  /-- the monitor image -/
  monitor : List Byte
  /-- its signature -/
  monSignature : List Byte
  /-- whether every supervisor core starts -/
  starts : Bool
deriving DecidableEq, Repr

/-- One entry of the margin history (20 R385). -/
structure MarginEntry where
  /-- power-on hours -/
  hours : Nat
  /-- stand 0 to 3 -/
  stand : Nat
  /-- grove 0 to 19 -/
  grove : Nat
  /-- table version -/
  version : Nat
  /-- worst margin in picoseconds -/
  margin : Nat
deriving DecidableEq, Repr

/-- What a spawn's handle goes to (02 R19): the load of a TSPAWN, a node of a graph replay, or the launch packet at the
head of a landing queue. -/
inductive Reply where
  | none
  | load (tid load : Nat)
  | node (desc : Word) (j : Nat)
  | packet (queue : Nat)
deriving DecidableEq, Repr

/-- A spawn that waits for a far counter (02 R19): the task, its count, and what awaits its handle. -/
structure WaitSpawn where
  task : TaskDesc
  depc : Nat
  reply : Reply
deriving DecidableEq, Repr

/-- A graph replay whose nodes have not all got their counters (08 R211): the descriptor, the successor-handle array, the
number of nodes, the successor entries with the nodes they name, the handles so far, and the nodes that are ready. -/
structure Replay where
  desc : Word
  shnd : Nat
  nnode : Nat
  succ : List (Nat × Nat)
  handles : Table Word
  ready : List TaskDesc
  reply : Reply
deriving DecidableEq, Repr

/-- A launch packet in a landing queue (08 R207): its bytes, the access-control entry it counts against, its sender as log
entries name it, and whether the landing server has begun it. -/
structure Packet where
  bytes : List Byte
  act : Nat
  slot : Nat
  sender : LogEntry
  started : Bool
deriving DecidableEq, Repr

/-- A landing queue with the host's status word (08 R208, 20 R377). -/
structure Landing where
  base : Word := 0
  cap : Nat := 0
  packets : List Packet := []
  tail : Nat := 0
  nacc : BitVec 32 := 0
  seq : BitVec 16 := 0
  code : BitVec 2 := 3
deriving DecidableEq, Repr

/-- The halt of a partition (18 R365-R368). -/
inductive HaltState where
  | running | halting | halted | resuming
deriving DecidableEq, Repr


/-- A counting network (17 R319-R329). -/
structure Net where
  toggles : Nat := 0
  counters : Table Nat := []
  base : BitVec 56 := 0
  /-- 0 open, 1 draining, 2 closed -/
  entry : Nat := 0
  /-- threads whose control instructions wait for the network to be quiet, in arrival order (17 R328) -/
  pending : List Nat := []
  /-- a balancer's package was fenced: tokens return status 11, later ones 01 (20 R386) -/
  broken : Bool := false
deriving DecidableEq, Repr

/-- A message in the fabric. -/
inductive Msg where
  /-- a decrement of a counter (02 R22) -/
  | decr (part : Nat) (handle : Word) (amount : Nat) (sender : LogEntry)
  /-- a task or thread bound for a core's run queue (02 R22, R25) -/
  | ready (core : Nat) (e : RunEntry)
  /-- a reward or gate on the broadcast tree (12 R291) -/
  | reward (arr : Nat) (r : Reward)
  /-- a statistics partial on its way home (17 R334) -/
  | statistics (part : Nat) (handle : Word) (p : Partial) (sender : LogEntry)
  /-- a token: network, layer, wire, places, and the thread and load it returns to (17 R322) -/
  | token (net layer wire places tid load : Nat)
  /-- a pulse for a crossbar line (17 R339) -/
  | pulse (grove line : Nat)
  /-- opening flit of a stream: target core, deck, route (08 R202) -/
  | openFlit (core dcb route : Nat)
  /-- one flit of a stream: 32 bytes -/
  | flit (core dcb route : Nat) (bytes : List Byte)
  | closeFlit (core dcb route : Nat)
  /-- a launch packet (08 R208): target partition and queue, sender's package and partition, the load it answers -/
  | packet (part queue pkg spart : Nat) (bytes : List Byte) (load : Option (Nat × Nat))
      (sender : LogEntry)
  /-- a migrating thread, the core it goes to, and its context of 160 bytes (02 R44, R45) -/
  | migrate (core tid : Nat) (bytes : List Byte)
  /-- a write or a stamp alone, from a home stand to another stand (11 R246) -/
  | update (stand home : Nat) (stamp : List Nat) (bytes : List (Nat × Byte))
deriving DecidableEq, Repr

/-- A message with its number, the thread that sent it (0 for a unit), the unit it left (0 for none that keeps an order, else
the unit's number and 1, notes/assumptions/99.md), and the scope of the release it is, if it is one: it acts once every
earlier access of its thread is performed there (11 R249). -/
structure Envelope where
  seq : Nat
  tid : Nat
  src : Nat
  rel : Option Nat
  body : Msg
deriving DecidableEq, Repr

/-- What the halt image holds of a partition (18 R365): its units as they stood, and what was still in the fabric for
them. The parts whose bytes R365 lays out are also in the save area, and come back from there. -/
structure HaltImage where
  /-- the grant at the halt; none while the partition is not halted -/
  grant : Option Grant := none
  threads : List Thread := []
  cores : Table Core := []
  groves : Table Grove := []
  arrays : Table MArray := []
  walkers : List NearCmd := []
  /-- BRE job slots that are not free, with their stands -/
  jobs : List (Nat × Nat × BreJob) := []
  nets : Table Net := []
  msgs : List Envelope := []
  planes : Bool := false
deriving DecidableEq, Repr

/-- A partition (20 R373). -/
structure Part where
  grant : Grant
  landing : List Landing := []
  act : Table (BitVec 128) := []
  /-- tasks of the far pool by index -/
  far : Table TaskDesc := []
  waits : List WaitSpawn := []
  replays : List Replay := []
  halt : HaltState := .running
  image : HaltImage := {}
  /-- log entries numbered since grant, dropped ones too (18 R356) -/
  logSeq : Nat := 0
  /-- a notification of the log is unserved (20 R375) -/
  notified : Bool := false
  /-- record handles allotted by the loader (19 R372) -/
  allotted : Nat := 0
  /-- deck space that the loader has reserved: by core, where the next deck goes (05 R110, 13 R294) -/
  deckEnd : Table Nat := []
  /-- frames that the monitor still keeps for loads -/
  spare : List (Nat × Nat) := []
  /-- arrays on which a launch has planes, and the pages that its sections lie in (05 R126) -/
  planed : List Nat := []
  pages : List Nat := []
  /-- root entries of launches whose packets wait for room in a landing queue (05 R126) -/
  roots : List Nat := []
  /-- digests of the launches, newest first (20 R382) -/
  digests : List (List Byte) := []
  imageDigest : BitVec 512 := 0
deriving DecidableEq, Repr

/-- What a step of another agent is about: up to three numbers, a list of numbers, bytes, or a request. -/
structure EventArg where
  a : Nat := 0
  b : Nat := 0
  c : Nat := 0
  list : List Nat := []
  nets : List Nat := []
  bytes : List Byte := []
  /-- the mailbox slot and sequence number of a command -/
  slot : Nat := 0
  seq : Nat := 0
  grant : Option Grant := none
  load : Option LoadRequest := none
  boot : Option BootRequest := none
  margin : Option MarginEntry := none
deriving DecidableEq, Repr

/-- What moves next (notes/assumptions/2.md): the core of a thread, or a step of another agent. -/
inductive Turn where
  | thread (tid : Nat)
  | event (i : Instr) (arg : EventArg)
deriving DecidableEq, Repr

/-- The answer to the last host request: RESULT (20 R379) and the bytes returned. -/
structure Response where
  code : Nat := 0
  result : Nat := 0
  bytes : List Byte := []
deriving DecidableEq, Repr

/-- Where storage cannot be read: at a place in memory, or at an offset of an array's slice of the plane store. -/
inductive BadPlace where
  | mem (l : Loc)
  | plane (arr off : Nat)
deriving DecidableEq, Repr

/-- Storage that does not read as it should (09 R228, R229), an input: where, TRAPV[3:1], whether the retry succeeds, whether
the line's dirty contents are lost, and whether the code corrects it. -/
structure BadStorage where
  at_ : BadPlace
  info : Nat
  transient : Bool
  lost : Bool
  fixed : Bool := false
deriving DecidableEq, Repr

/-- What a snapshot in a peer's range holds beside the bytes of the partition's memory (20 R387): its base address, and the
partition as it stood halted. -/
structure Snapshot where
  base : Nat
  held : Part
deriving DecidableEq, Repr

/-- A translation that a TLB holds (09 R215, R226): partition and page, the leaf entry's address, the entry, its level. -/
structure TlbEntry where
  part : Nat
  page : Nat
  at_ : Nat
  leaf : Nat
  level : Nat
deriving DecidableEq, Repr

/-- The machine. -/
structure State where
  /-- the thread that issues in this step -/
  th : Thread
  /-- every other thread -/
  threads : List Thread
  cores : Table Core
  groves : Table Grove
  arrays : Table MArray
  stands : Table Stand
  /-- the supervisor cores, n of stand s at 4 × s + n -/
  supers : Table Supervisor
  parts : Table Part
  nets : Table Net
  /-- DRAM of the package and of its peers, by physical address (09 R227) -/
  dram : Memory
  /-- dirty bytes of L2 by physical address (09 R223) -/
  l2 : Table Byte
  /-- bytes of W memory stored and not yet written to DRAM (09 R223, 11 R252), with the threads that stored them -/
  wt : Table (Byte × List Nat)
  /-- TLB entries, newest first: of core c at c, of grove g at 4096 + g, of stand n at 8192 + n (09 R215) -/
  tlb : Table (List TlbEntry)
  /-- end-to-end check values held with lines that do not agree with the line's bytes, an input (20 R383); every other line
  holds the value that was computed when it was written -/
  checks : Table (BitVec 32)
  msgs : List Envelope
  /-- the monitor's log with the number of each entry, and how many were dropped and numbered (20 R375) -/
  monlog : List (LogEntry × Nat)
  monDropped : Nat
  monSeq : Nat
  /-- the step at which boot stopped, and the reason that the mailbox status word shows (20 R381): 5 is running, and 6 a stop at
  step 5 -/
  booted : Nat
  bootReason : Nat
  measure : BitVec 512
  mail : Mailbox
  response : Response
  /-- the package's number in its domain (09 R227) -/
  pkg : Nat
  /-- packages of the domain, and those declared failed (20 R380, R386) -/
  domain : List Nat
  failed : List Nat
  /-- domain networks that the domain's placement table lets partitions of this package have (20 R373) -/
  placement : List Nat
  margins : List MarginEntry
  /-- equaliser taps, lane l of port p at 8 × p + l (01 R14, 20 R384) -/
  taps : Table Nat
  bad : List BadStorage
  /-- reads that the retry cured, and reads that the code corrected (09 R228, R229) -/
  transients : Nat
  corrected : Nat
  /-- aligned 4-byte elements of N memory, dirty in L2, that a store to them as M memory has written since (09 R223) -/
  mixed : List Nat
  snaps : List Snapshot
  /-- what the running event is about -/
  arg : EventArg
  /-- which agents move next (notes/assumptions/2.md) -/
  agenda : List Turn
  /-- the model's clock (notes/assumptions/4.md) -/
  cycle : Nat
  /-- draws of free values so far (notes/assumptions/5.md) -/
  free : Nat
  /-- the next number for threads, messages, loads and commands -/
  fresh : Nat
deriving DecidableEq, Repr

/-- Reasons a run stops with a fault. No cause of 18 R354 stops this machine, and an address that does not exist takes
the access fault its rule names, so nothing raises one of these; the constructor stands for the interface. -/
inductive Fault where
  /-- Raised by nothing. Safe. -/
  | halted
deriving DecidableEq, Repr

/-- Reasons a step is refused. -/
inductive Refusal where
  /-- Raised by `exec` for an instruction without a meaning in this model. Safe: nothing is claimed of it. -/
  | notModelled (mnemonic : String)
deriving DecidableEq, Repr

/-- What a step and a meaning answer. -/
abbrev Outcome := Host.Outcome State Fault Refusal

/-- The package right after reset: no thread is bound, every unit is as its reset value says, and nothing is listed in
memory. The thread record stands for an empty slot. -/
def State.reset : State where
  th := { status := .ended 0 }
  threads := []
  cores := []
  groves := []
  arrays := []
  stands := []
  supers := []
  parts := []
  nets := []
  dram := []
  l2 := []
  wt := []
  tlb := []
  checks := []
  msgs := []
  monlog := []
  monDropped := 0
  monSeq := 0
  booted := 0
  bootReason := 0
  measure := 0
  mail := {}
  response := {}
  pkg := 0
  domain := []
  failed := []
  placement := List.range 16
  margins := []
  taps := []
  bad := []
  transients := 0
  corrected := 0
  mixed := []
  snaps := []
  arg := {}
  agenda := []
  cycle := 0
  free := 0
  fresh := 1

end Sys2Proof.Machine
end

