-- ==== Sys2Proof/Machine/Mem.lean ====
section
/-!
DEFINITION. Tables and memories as sorted lists, and the units of the package looked up in them.
-/
namespace Sys2Proof.Machine

open Sys2Proof

/-! ### Tables -/

/-- The entry of a table. -/
def Table.find {α : Type} (k : Nat) : Table α → Option α
  | [] => none
  | (i, v) :: t => if i = k then some v else Table.find k t

/-- A table with one entry put in its place. -/
def Table.put {α : Type} (k : Nat) (v : α) : Table α → Table α
  | [] => [(k, v)]
  | (i, x) :: t => if i < k then (i, x) :: Table.put k v t else if i = k then (k, v) :: t else (k, v) :: (i, x) :: t

/-- A table without one entry. -/
def Table.drop {α : Type} (k : Nat) (t : Table α) : Table α := t.filter fun p => p.1 ≠ k

/-! ### Memories -/

/-- The byte at an address (notes/assumptions/1.md). -/
def Memory.read (m : Memory) (a : Nat) : Byte :=
  match m with
  | [] => 0
  | (i, b) :: t => if i = a then b else if a < i then 0 else Memory.read t a

/-- The memory with one byte written; writing what an unlisted address reads as removes the entry. -/
def Memory.write (m : Memory) (a : Nat) (b : Byte) : Memory :=
  match m with
  | [] => if b = 0 then [] else [(a, b)]
  | (i, x) :: t =>
    if i < a then (i, x) :: Memory.write t a b
    else if i = a then (if b = 0 then t else (a, b) :: t)
    else if b = 0 then (i, x) :: t else (a, b) :: (i, x) :: t

/-- Every entry lies above a bound, rises, and is not 0. -/
def Memory.wfFrom (lo : Nat) : Memory → Bool
  | [] => true
  | (i, b) :: t => decide (lo ≤ i) && decide (b ≠ 0) && Memory.wfFrom (i + 1) t

/-- The canonical form: addresses strictly rising, no entry equal to what an unlisted address reads as. -/
def Memory.wf (m : Memory) : Bool := Memory.wfFrom 0 m

/-- n bytes from an address, lowest first. -/
def Memory.readN (m : Memory) (a : Nat) : Nat → List Byte
  | 0 => []
  | n + 1 => m.read a :: Memory.readN m (a + 1) n

/-- Bytes written from an address on. -/
def Memory.writeN (m : Memory) (a : Nat) : List Byte → Memory
  | [] => m
  | b :: bs => Memory.writeN (m.write a b) (a + 1) bs

/-- A memory that holds the given bytes from address 0. -/
def Memory.ofBytes (bs : List Byte) : Memory :=
  ((List.range bs.length).zip bs).filter fun p => p.2 ≠ 0

/-- The memory without the bytes from an address on, n of them: they read 0. -/
def Memory.clear (m : Memory) (a n : Nat) : Memory := m.filter fun p => p.1 < a || a + n ≤ p.1

/-- Bytes with their addresses, from an address on. -/
def bytesAt (a : Nat) (bs : List Byte) : List (Nat × Byte) := (List.range bs.length).map fun i => (a + i, bs.getD i 0)

/-! ### Units -/

/-- The stand of a core. -/
def standOfCore (c : Nat) : Nat := c / 512 % 4
/-- The grove of a core. -/
def groveOfCore (c : Nat) : Nat := c / 16
/-- The stand of a grove. -/
def standOfGrove (g : Nat) : Nat := g / 32 % 4
/-- The array of a core's quad (01 R11). -/
def arrayOfCore (c : Nat) : Nat := 4 * (c / 16) + c % 16 / 4
/-- The grove of an array. -/
def groveOfArray (a : Nat) : Nat := a / 4
/-- A core of the package: the grove field names one of 20 (02 R16). -/
def isCore (c : Nat) : Bool := c < 2048 && c / 16 % 32 < 20
/-- The cores of a grove. -/
def coresOfGrove (g : Nat) : List Nat := (List.range 16).map fun j => 16 * g + j

/-- A core's record. -/
def State.core (s : State) (c : Nat) : Core := (Table.find c s.cores).getD {}
/-- A core's record replaced. -/
def State.setCore (s : State) (c : Nat) (x : Core) : State := { s with cores := Table.put c x s.cores }
/-- A grove's record. -/
def State.grove (s : State) (g : Nat) : Grove := (Table.find g s.groves).getD {}
/-- A grove's record replaced. -/
def State.setGrove (s : State) (g : Nat) (x : Grove) : State := { s with groves := Table.put g x s.groves }
/-- An array's record. -/
def State.array (s : State) (a : Nat) : MArray := (Table.find a s.arrays).getD {}
/-- An array's record replaced. -/
def State.setArray (s : State) (a : Nat) (x : MArray) : State := { s with arrays := Table.put a x s.arrays }
/-- A stand's record. -/
def State.stand (s : State) (n : Nat) : Stand := (Table.find n s.stands).getD {}
/-- A stand's record replaced. -/
def State.setStand (s : State) (n : Nat) (x : Stand) : State := { s with stands := Table.put n x s.stands }
/-- A counting network: 0 to 63 of the package, 64 to 79 of the domain (17 R320). -/
def State.net (s : State) (n : Nat) : Net := (Table.find n s.nets).getD {}
/-- A counting network replaced. -/
def State.setNet (s : State) (n : Nat) (x : Net) : State := { s with nets := Table.put n x s.nets }
/-- A partition, if it exists. -/
def State.part? (s : State) (p : Nat) : Option Part := Table.find p s.parts
/-- Where a partition's save area stands: PSAVE (06 R138) of its first granted core, as the halt image holds it while the
partition is halted (notes/assumptions/107.md). -/
def State.saveArea (s : State) (p : Part) : Nat :=
  let c := 16 * p.grant.groves.headD 0
  ((if p.halt = .halted then Table.find c p.image.cores else none).getD (s.core c)).psave.toNat
/-- A partition replaced. -/
def State.setPart (s : State) (p : Nat) (x : Part) : State := { s with parts := Table.put p x s.parts }
/-- A partition changed, if it exists. -/
def State.onPart (s : State) (p : Nat) (f : Part → Part) : State :=
  match s.part? p with
  | some x => s.setPart p (f x)
  | none => s

/-- The focus thread's core record. -/
def State.myCore (s : State) : Core := s.core s.th.core
/-- The focus thread's partition number (06 R138). -/
def State.myPart (s : State) : Nat := s.th.task.part

/-- Every thread. -/
def State.all (s : State) : List Thread := s.th :: s.threads

/-- A thread by number. -/
def State.thread? (s : State) (t : Nat) : Option Thread := s.all.find? fun x => x.id == t

/-- A thread that has ended: its slot is free. -/
def Thread.isEnded (t : Thread) : Bool :=
  match t.status with
  | .ended _ => true
  | _ => false

/-- A thread that has ended and has nothing left in its store queue. -/
def Thread.gone (t : Thread) : Bool := t.isEnded && t.sq.isEmpty

/-- Makes a thread the focus: the thread that issues. A number that names none leaves the focus as it is; the records of
threads that are gone go. -/
def State.focus (s : State) (t : Nat) : State :=
  if s.th.id = t then s
  else match s.threads.find? (fun x => x.id == t) with
    | some x => { s with th := x, threads := (if s.th.gone then [] else [s.th]) ++ s.threads.filter (fun y => y.id ≠ t && !y.gone) }
    | none => s

/-- Changes the thread with a number, whichever it is. -/
def State.onThread (s : State) (t : Nat) (f : Thread → Thread) : State :=
  if s.th.id = t then { s with th := f s.th }
  else { s with threads := s.threads.map fun x => if x.id = t then f x else x }

/-- The focus thread changed. -/
def State.onTh (s : State) (f : Thread → Thread) : State := { s with th := f s.th }

end Sys2Proof.Machine
end

