-- ==== Sys2Proof/Machine/Regs.lean ====
section
/-!
DEFINITION. Registers of a thread and of its core: reading and writing them, results on their way to visibility
(02 R31, R32), and the control registers (06 R131-R138).
-/
namespace Sys2Proof.Machine

open Sys2Proof

/-! ### Reading -/

/-- A scalar register; s0 reads 0 (06 R130). -/
def Thread.getS (t : Thread) (r : BitVec 4) : Word := if r = 0 then 0 else t.s[r.toNat]'r.isLt
/-- A vector register. -/
def Thread.getV (t : Thread) (r : BitVec 4) : VWord := t.v[r.toNat]'r.isLt
/-- A mask register; k0 reads all ones (06 R130). -/
def Thread.getK (t : Thread) (r : BitVec 3) : KWord := if r = 0 then 0xFFFFFFFF else t.k[r.toNat]'r.isLt
/-- A scale register. -/
def Thread.getSc (t : Thread) (r : BitVec 3) : Word := t.sc[r.toNat]'r.isLt

/-- The focus thread's scalar register. -/
def State.getS (s : State) (r : BitVec 4) : Word := s.th.getS r
/-- The focus thread's vector register. -/
def State.getV (s : State) (r : BitVec 4) : VWord := s.th.getV r
/-- The focus thread's mask register. -/
def State.getK (s : State) (r : BitVec 3) : KWord := s.th.getK r

/-! ### Writing -/

/-- A scalar register written; a write to s0 is discarded (06 R130). -/
def Thread.setS (t : Thread) (r : BitVec 4) (x : Word) : Thread :=
  if r = 0 then t else { t with s := t.s.set r.toNat x r.isLt }
/-- The masked bits of a vector register written. -/
def Thread.setV (t : Thread) (r : BitVec 4) (x mask : VWord) : Thread :=
  { t with v := t.v.set r.toNat (mergeBits (t.v[r.toNat]'r.isLt) x mask) r.isLt }
/-- The masked bits of a mask register written; a write to k0 is discarded. -/
def Thread.setK (t : Thread) (r : BitVec 3) (x mask : KWord) : Thread :=
  if r = 0 then t else { t with k := t.k.set r.toNat (mergeBits (t.k[r.toNat]'r.isLt) x mask) r.isLt }
/-- A scale register written. -/
def Thread.setSc (t : Thread) (r : BitVec 3) (x : Word) : Thread := { t with sc := t.sc.set r.toNat x r.isLt }

/-! ### TSTAT and TRAPLOC -/

/-- A bit at a position. -/
def bitAt (b : Bool) (n : Nat) : Word := if b then (1 : Word) <<< n else 0

/-- TSTAT (06 R134); SHRD is what the core's WDOG shows. -/
def Thread.tstat (t : Thread) (shared : Bool) : Word :=
  (BitVec.ofNat 64 t.fc.length <<< 32) ||| (BitVec.ofNat 64 (t.task.pri % 4) <<< 24) ||| ((t.ctgb.setWidth 64) <<< 18)
    ||| (BitVec.ofNat 64 (t.task.ctags % 4) <<< 16) ||| ((t.slot.setWidth 64) <<< 12) ||| bitAt t.det 11
    ||| bitAt t.crew 10 ||| ((t.cidx.setWidth 64) <<< 6) ||| bitAt shared 5 ||| bitAt t.inh 2 ||| t.priv.setWidth 64

/-- The location of a thread's slot in TRAPLOC form (06 R137). -/
def Thread.loc (t : Thread) : Nat := 4 * t.core + t.slot.toNat

/-- SHRD as the focus thread's core shows it. -/
def State.shared (s : State) : Bool := s.myCore.wdog.getLsbD 1

/-! ### L2WP (09 R220) -/

/-- L2WP as it reads. -/
def Grove.l2wp (g : Grove) : Word :=
  ((g.spbase.setWidth 64) <<< 23) ||| bitAt g.busy 2 ||| g.ways.setWidth 64

/-! ### Control registers -/

/-- The value of a control register (06 R131, R138). -/
def csrRead (n : Nat) (s : State) : Word :=
  let t := s.th
  let c := s.myCore
  if n = 0x000 then t.tstat s.shared
  else if n = 0x001 then t.fcsr.setWidth 64
  else if n = 0x002 then t.erx.setWidth 64
  else if n = 0x003 then t.src
  else if n = 0x004 then t.lcid.setWidth 64
  else if n = 0x005 then t.jseed
  else if n = 0x006 then t.ydl.setWidth 64
  else if n = 0x007 then c.ctb
  else if n = 0x008 then t.lc[0]
  else if n = 0x009 then t.lc[1]
  else if n = 0x00A then t.lb[0]
  else if n = 0x00B then t.lb[1]
  else if n = 0x00C then t.le[0]
  else if n = 0x00D then t.le[1]
  else if n = 0x00F then c.spinpark
  else if h : 0x010 ≤ n ∧ n ≤ 0x017 then t.sc[n - 0x010]'(by omega)
  else if h : 0x020 ≤ n ∧ n ≤ 0x027 then c.pmc[n - 0x020]'(by omega)
  else if h : 0x028 ≤ n ∧ n ≤ 0x02F then c.pmsel[n - 0x028]'(by omega)
  else if n = 0x040 then t.trapc
  else if n = 0x041 then t.trappc
  else if n = 0x042 then t.trapi
  else if n = 0x043 then t.trapop
  else if n = 0x044 then BitVec.ofNat 64 t.loc
  else if n = 0x045 then t.trapa
  else if n = 0x046 then t.trapv
  else if n = 0x047 then t.trapst
  else if h : 0x048 ≤ n ∧ n ≤ 0x04E then t.tsl[n - 0x048]'(by omega)
  else if n = 0x050 then t.sscr[0]
  else if n = 0x051 then t.sscr[1]
  else if n = 0x100 then c.tvec
  else if n = 0x101 then c.dwb
  else if n = 0x102 then c.wdog
  else if n = 0x103 then c.rqsb
  else if n = 0x104 then c.pkob
  else if n = 0x105 then c.fcpb
  else if n = 0x106 then c.jseedm
  else if n = 0x107 then c.psave
  else if n = 0x108 then c.partn
  else if n = 0x109 then (s.grove (groveOfCore t.core)).l2wp
  else if n = 0x10A then c.mpriv
  else 0

/-- FCSR with a new value put into its writable fields: a reserved mode code keeps the mode (03 R60, 06 R133, R135). -/
def fcsrMerge (old : BitVec 32) (x : Word) : BitVec 32 :=
  let rm := if (x.extractLsb' 5 3).toNat ≤ 4 then x.extractLsb' 5 3 else old.extractLsb' 5 3
  (rm ++ x.extractLsb' 0 5).setWidth 32

/-- A scale register with a new value: the reserved bits stay 0, and K = −128 keeps K (06 R136). -/
def scMerge (old x : Word) : Word :=
  let k := if x.extractLsb' 0 8 = 0x80 then old.extractLsb' 0 8 else x.extractLsb' 0 8
  (x.extractLsb' 24 32 ++ x.extractLsb' 8 16 ++ k).setWidth 64

/-- PMSEL with a new value: an unlisted event code keeps EVENT (17 R352). -/
def pmselMerge (old x : Word) : Word :=
  let ev := if (x.extractLsb' 0 8).toNat ≤ 0x14 then x.extractLsb' 0 8 else old.extractLsb' 0 8
  (x.extractLsb' 8 2 ++ ev).setWidth 64

/-- DWB with a new value: n = 0 or above 256 keeps it (06 R138). -/
def dwbMerge (old x : Word) : Word :=
  let n := x.extractLsb' 0 9
  if n = 0 ∨ 256 < n.toNat then old else n.setWidth 64

/-- WDOG with a new value: a 0 written to [0] while the register shows SHRD leaves the watchdog on, and it runs wherever
SHRD is 1 (06 R138, notes/assumptions/116.md). -/
def wdogMerge (old x : Word) : Word :=
  if x.getLsbD 1 then 3 else if old.getLsbD 1 then 1 else x &&& 1

/-- The core that a thread's messages leave, in the form of an envelope. -/
def State.srcOf (s : State) (tid : Nat) : Nat :=
  match s.thread? tid with
  | some t => t.core + 1
  | none => 0

/-- The number of an array as a unit that sends messages; cores are numbered below 2,048, L2 slices from there. -/
def arrayUnit (arr : Nat) : Nat := 4096 + arr
/-- The landing server of a partition's queue as a unit that sends messages. -/
def landingUnit (part queue : Nat) : Nat := 8192 + 16 * part + queue
/-- The unit at which a physical address is at home: its grove and slice (09 R219). -/
def sliceUnit (home : Nat × Nat) : Nat := 2048 + 8 * home.1 + home.2
/-- A stand's walkers as a unit that sends messages. -/
def walkerUnit (stand : Nat) : Nat := 8448 + stand

/-- A message put into the fabric for a thread, or for a unit (thread 0), from the unit that an envelope names. -/
def State.sendFrom (s : State) (src tid : Nat) (m : Msg) : State :=
  { s with msgs := s.msgs ++ [⟨s.fresh, tid, src, none, m⟩], fresh := s.fresh + 1 }

/-- A message put into the fabric for a thread, from its core, or for a unit (thread 0) whose messages keep no order. -/
def State.send (s : State) (tid : Nat) (m : Msg) : State := s.sendFrom (if tid = 0 then 0 else s.srcOf tid) tid m

/-- A message of the focus thread that is a release at a scope (11 R249). -/
def State.sendRelease (s : State) (scope : Nat) (m : Msg) : State :=
  { s with msgs := s.msgs ++ [⟨s.fresh, s.th.id, s.th.core + 1, some scope, m⟩], fresh := s.fresh + 1 }

/-- A pulse of a unit on a line of a grove's crossbar (17 R339); a crossbar without a configuration takes none
(notes/assumptions/16.md). -/
def State.pulse (s : State) (unit grove line : Nat) : State :=
  if (s.grove grove).evx.image.isEmpty then s else s.sendFrom (unit + 1) 0 (.pulse grove line)

/-- The focus thread's core changed. -/
def State.onCore (s : State) (f : Core → Core) : State := s.setCore s.th.core (f s.myCore)

/-- A write reaches a grove's L2WP (09 R220): it changes nothing while a change is in progress, or where WAYS is 3 or needs a
base. -/
def writeL2wp (g : Nat) (v : Word) (s : State) : State :=
  let x := s.grove g
  let ways := v.extractLsb' 0 2
  let base := v.extractLsb' 23 34
  if x.busy || ways = 3 || (ways ≠ 0 && base = 0) then s
  else s.setGrove g { x with spbase := base, ways := ways, oldWays := x.ways, busy := decide (ways ≠ x.ways) }

/-- A control register stored, in its writable fields (06 R131, R133, R138). TRAPST takes all 64 bits
(notes/assumptions/111.md), and the bases RQSB, PKOB and FCPB drop their low 6 bits (notes/assumptions/117.md). -/
def csrStore (n : Nat) (x : Word) (s : State) : State :=
  if n = 0x001 then s.onTh fun t => { t with fcsr := fcsrMerge t.fcsr x }
  else if n = 0x002 then s.onTh fun t => { t with erx := x.setWidth 32 }
  else if n = 0x003 then s.onTh fun t => { t with src := x }
  else if n = 0x006 then s.onTh fun t => { t with ydl := x.setWidth 32, reloaded := s.fresh }
  else if n = 0x008 then s.onTh fun t => { t with lc := t.lc.set 0 x }
  else if n = 0x009 then s.onTh fun t => { t with lc := t.lc.set 1 x }
  else if n = 0x00A then s.onTh fun t => { t with lb := t.lb.set 0 (x &&& ~~~1) }
  else if n = 0x00B then s.onTh fun t => { t with lb := t.lb.set 1 (x &&& ~~~1) }
  else if n = 0x00C then s.onTh fun t => { t with le := t.le.set 0 (x &&& ~~~1) }
  else if n = 0x00D then s.onTh fun t => { t with le := t.le.set 1 (x &&& ~~~1) }
  else if n = 0x00F then s.onCore fun c => { c with spinpark := x }
  else if h : 0x010 ≤ n ∧ n ≤ 0x017 then
    s.onTh fun t => { t with sc := t.sc.set (n - 0x010) (scMerge (t.sc[n - 0x010]'(by omega)) x) (by omega) }
  else if h : 0x020 ≤ n ∧ n ≤ 0x027 then s.onCore fun c => { c with pmc := c.pmc.set (n - 0x020) x (by omega) }
  else if h : 0x028 ≤ n ∧ n ≤ 0x02F then
    s.onCore fun c => { c with pmsel := c.pmsel.set (n - 0x028) (pmselMerge (c.pmsel[n - 0x028]'(by omega)) x) (by omega) }
  else if n = 0x040 then s.onTh fun t => { t with trapc := x }
  else if n = 0x041 then s.onTh fun t => { t with trappc := x }
  else if n = 0x042 then s.onTh fun t => { t with trapi := x }
  else if n = 0x043 then s.onTh fun t => { t with trapop := x &&& 0xFFF }
  else if n = 0x045 then s.onTh fun t => { t with trapa := x }
  else if n = 0x046 then s.onTh fun t => { t with trapv := x }
  else if n = 0x047 then s.onTh fun t => { t with trapst := x }
  else if h : 0x048 ≤ n ∧ n ≤ 0x04E then s.onTh fun t => { t with tsl := t.tsl.set (n - 0x048) x (by omega) }
  else if n = 0x050 then s.onTh fun t => { t with sscr := t.sscr.set 0 x }
  else if n = 0x051 then s.onTh fun t => { t with sscr := t.sscr.set 1 x }
  else if n = 0x100 then s.onCore fun c => { c with tvec := x &&& ~~~1, tvecSys := x &&& ~~~1 }
  else if n = 0x101 then s.onCore fun c => { c with dwb := dwbMerge c.dwb x }
  else if n = 0x102 then s.onCore fun c => { c with wdog := wdogMerge c.wdog x }
  else if n = 0x103 then s.onCore fun c => { c with rqsb := x &&& ~~~63 }
  else if n = 0x104 then s.onCore fun c => { c with pkob := x &&& ~~~63 }
  else if n = 0x105 then s.onCore fun c => { c with fcpb := x &&& ~~~63 }
  else if n = 0x106 then s.onCore fun c => { c with jseedm := x }
  else if n = 0x107 then s.onCore fun c => { c with psave := x }
  else if n = 0x108 then s.onCore fun c => { c with partn := x &&& 7 }
  else if n = 0x109 then writeL2wp (groveOfCore s.th.core) x s
  else if n = 0x10A then s.onCore fun c => { c with mpriv := x &&& 1 }
  else s

/-- The value a CSRW, CSRS or CSRC gives (06 R133). -/
def csrCombine (op : Nat) (old x : Word) : Word :=
  match op with
  | 0 => x
  | 1 => old ||| x
  | _ => old &&& ~~~x

/-- The write of a CSRW, CSRS or CSRC to a register that held a value. One to FCSR that names no flag, or sets flags, leaves
the flags that instructions raise before it lands (03 R62). -/
def csrResult (op n : Nat) (old x : Word) : RegWrite :=
  if n = 1 ∧ op ≠ 0 then .fcsr (if op = 1 then 31 else ~~~x.setWidth 5) (csrCombine op old x) else .csr n (csrCombine op old x)

/-- The least privilege that may read a control register (06 R131, R132). -/
def csrReadPriv (n : Nat) : Nat :=
  if n ≤ 0x027 then 0 else if n ≤ 0x0FF then 1 else 2

/-- The least privilege that may write it; none when it is read-only everywhere (06 R131). -/
def csrWritePriv (n : Nat) : Option Nat :=
  if n = 0x000 ∨ n = 0x004 ∨ n = 0x005 ∨ n = 0x007 ∨ n = 0x044 then none
  else if n = 0x006 then some 1
  else if n = 0x00F then some 2
  else if 0x020 ≤ n ∧ n ≤ 0x027 then some 1
  else some (csrReadPriv n)

/-! ### Results on their way (02 R31, R32) -/

/-- A loop level's registers written (06 R150). -/
def setLoop (l : BitVec 1) (count first last : Word) (t : Thread) : Thread :=
  { t with lc := t.lc.set l.toNat count l.isLt, lb := t.lb.set l.toNat first l.isLt, le := t.le.set l.toNat last l.isLt }

/-- A result reaches its register. -/
def RegWrite.apply (w : RegWrite) (s : State) : State :=
  match w with
  | .s d x => s.onTh fun t => t.setS d x
  | .v d x m => s.onTh fun t => t.setV d x m
  | .k d x m => s.onTh fun t => t.setK d x m
  | .flags f => s.onTh fun t => { t with fcsr := t.fcsr ||| f.setWidth 32 }
  | .csr n x => csrStore n x s
  | .fcsr keep x => (csrStore 1 x s).onTh fun t => { t with fcsr := t.fcsr ||| (s.th.fcsr &&& keep.setWidth 32) }
  | .loop l c b e => s.onTh (setLoop l c b e)

/-- Applies the results that have no distance left, oldest first. -/
def applyDue : List Pending → State → State
  | [], s => s
  | p :: ps, s => applyDue ps (if p.left = 0 then p.write.apply s else s)

/-- One unit of issue distance passes (02 R31, R32): the results that become visible are applied in age order. -/
def tickOne (s : State) : State :=
  let ps := s.th.pend.map fun p => { p with left := p.left - 1 }
  applyDue ps { s with th := { s.th with pend := ps.filter fun p => p.left ≠ 0 } }

/-- n units of issue distance pass. -/
def tick : Nat → State → State
  | 0, s => s
  | n + 1, s => tick n (tickOne s)

/-- Every pending result is written, each at its own point (02 R31). -/
def flushPend (s : State) : State := tick (s.th.pend.foldl (fun m p => max m p.left) 0) s

/-- A result with latency L enters the pending results. -/
def State.pushW (s : State) (lat : Nat) (w : RegWrite) : State :=
  { s with th := { s.th with pend := s.th.pend ++ [⟨lat, w⟩] } }

/-- Flags that an instruction raises, visible with its result (04 R92). -/
def State.raise (s : State) (lat : Nat) (f : Flags) : State := if f = 0 then s else s.pushW lat (.flags f)

/-! ### Load-path results (02 R33, 04 R93) -/

/-- The older results still on their way to a load's destination fall behind the load's value
(notes/assumptions/8.md). -/
def LoadDest.cancel (d : LoadDest) (ps : List Pending) : List Pending :=
  match d with
  | .s r => ps.filter fun p => match p.write with
    | .s r' _ => r' ≠ r
    | _ => true
  | .v r m => ps.map fun p => match p.write with
    | .v r' x m' => if r' = r then { p with write := .v r' x (m' &&& ~~~m) } else p
    | _ => p
  | .sc n => ps.filter fun p => match p.write with
    | .csr k _ => k ≠ 0x010 + n.toNat
    | _ => true
  | .nothing => ps

/-- A load-path result is written to its destination. -/
def LoadDest.write (d : LoadDest) (v : VWord) (raiseOF : Bool) (t : Thread) : Thread :=
  let t := { t with pend := d.cancel t.pend }
  let t := if raiseOF then { t with fcsr := t.fcsr ||| 4 } else t
  match d with
  | .s r => t.setS r (v.setWidth 64)
  | .v r m => t.setV r v m
  | .sc n => t.setSc n (v.setWidth 64)
  | .nothing => t

/-- The register a load-path result goes to; a result for s0 holds nothing (06 R130). -/
def LoadDest.reg? : LoadDest → Option RegRef
  | .s r => if r = 0 then none else some (.s r.toNat)
  | .v r _ => some (.v r.toNat)
  | .sc n => some (.sc n.toNat)
  | .nothing => none

/-- A load-path result of the focus thread begins, an acquire at a scope or none; its number is the state's counter. -/
def State.pushAcquire (s : State) (acq : Option Nat) (dest : LoadDest) (val : LoadVal) : State :=
  { s with th := { s.th with loads := s.th.loads ++ [⟨s.fresh, dest, val, s.th.pc, s.th.ir.word, acq⟩] }, fresh := s.fresh + 1 }

/-- A load-path result of the focus thread begins. -/
def State.pushLoad (s : State) (dest : LoadDest) (val : LoadVal) : State := s.pushAcquire none dest val

/-- A load of a thread receives its value. -/
def State.fillLoad (s : State) (tid load : Nat) (val : LoadVal) : State :=
  s.onThread tid fun t => { t with loads := t.loads.map fun l => if l.id = load then { l with val := val } else l }

/-! ### Performance counters (17 R352, R353) -/

/-- Counter i, with a selection, counts an event of a thread at a privilege. -/
def eventHit (priv : BitVec 2) (ev i : Nat) (sel : Word) : Bool :=
  decide (i < 8) && (sel.extractLsb' 0 8).toNat == ev && (if priv = 0 then sel.getLsbD 8 else sel.getLsbD 9)

/-- Some counter of a core counts an event. -/
def Core.counts (c : Core) (priv : BitVec 2) (ev : Nat) : Bool := c.pmsel.toList.zipIdx.any fun p => eventHit priv ev p.2 p.1

/-- The counters of a core after an event. -/
def Core.counted (c : Core) (priv : BitVec 2) (ev : Nat) : Vector Word 8 :=
  c.pmc.mapFinIdx fun i x h => if eventHit priv ev i (c.pmsel[i]'h) then x + 1 else x

/-- One event of a core, of a thread at a privilege, is counted by the counters that select it. -/
def countEvent (core : Nat) (priv : BitVec 2) (ev : Nat) (s : State) : State :=
  let c := s.core core
  if c.counts priv ev then s.setCore core { c with pmc := c.counted priv ev } else s

/-- An event of the focus thread's core. -/
def State.count (s : State) (ev : Nat) : State := countEvent s.th.core s.th.priv ev s

/-! ### Free values -/

/-- Draws the next free value of n bits (notes/assumptions/5.md). -/
def State.draw (s : State) : State := { s with free := s.free + 1 }

/-- The free value that the current draw gives, below a bound. -/
def State.freeBelow (s : State) (n : Nat) : Nat := if n ≤ 1 then 0 else Config.freeBits n s.free % n

end Sys2Proof.Machine
end

