-- ==== Sys2Proof/Machine/Access.lean ====
section
/-!
DEFINITION. Addresses and memory: how an address is resolved and checked (09 R216-R230), what a read of a place gives
and what a write at its home does, with stamps, applied clocks and replicas (11 R243-R248).
-/
namespace Sys2Proof.Machine

open Sys2Proof

/-! ### Physical memory -/

/-- The package number of a physical address (09 R227). -/
def paPkg (a : Nat) : Nat := a / 2 ^ 42 % 1024
/-- The stand of a DRAM address (09 R227). -/
def paStand (a : Nat) : Nat := a / 2 ^ 36 % 4
/-- A physical address of DRAM within a package: PA[41:38] is 0 (09 R227). -/
def paIsDram (a : Nat) : Bool := a / 2 ^ 38 % 16 = 0
/-- The 64-byte line of an address. -/
def lineOf (a : Nat) : Nat := a / 64
/-- The pseudo-channel of a physical address (09 R219). -/
def paChannel (a : Nat) : Nat := a % 2 ^ 42 / 64 / 4 % 128
/-- The walker that serves a physical address (09 R219). -/
def paWalker (a : Nat) : Nat := paChannel a / 2
/-- The grove whose slice is the home of an address, and the slice (09 R219): by the line number PA[51:6] of R218. -/
def paHome (a : Nat) : Nat × Nat :=
  let h := a / 64 % 160
  (32 * paStand a + h / 8, h % 8)

/-- A physical address of this package. -/
def State.ownPa (s : State) (a : Nat) : Bool := paPkg a = s.pkg

/-- A physical address that names memory: DRAM of this package or of a member of its domain (09 R227). -/
def State.paOk (s : State) (a : Nat) : Bool :=
  paIsDram a && (s.ownPa a || s.domain.contains (paPkg a))

/-- The byte that stands for W memory: one not yet written to DRAM, else DRAM's (09 R223). -/
def State.throughByte (s : State) (a : Nat) : Byte := ((Table.find a s.wt).map (·.1)).getD (s.dram.read a)

/-- The byte at the home of a physical address: the dirty byte of L2 where there is one, else what is written through,
else DRAM (09 R223). -/
def State.homeByte (s : State) (a : Nat) : Byte := (Table.find a s.l2).getD (s.throughByte a)

/-- n bytes at their homes. -/
def State.homeBytes (s : State) (a n : Nat) : List Byte := (List.range n).map fun i => s.homeByte (a + i)

/-- A number of n bytes at its home, little-endian. -/
def State.homeNat (s : State) (a n : Nat) : Nat := leNat (s.homeBytes a n)

/-- The byte an observer in a stand reads (11 R243): M memory from the controller, whose writes from W memory it has, a line of the package homed in
another stand from the stand's replica where it has one, else the home. -/
def State.paByte (s : State) (stand a mt : Nat) : Byte :=
  if mt = 2 then s.throughByte a
  else if s.ownPa a && paStand a != stand && (s.stand stand).replicas.contains (lineOf a) then
    (s.stand stand).replica.read a
  else s.homeByte a

/-- The byte at a place, as an observer in a stand reads it. -/
def State.readLoc (s : State) (stand : Nat) : Loc → Byte
  | .ls c o => (s.core c).ls.read o
  | .sp g o => (s.grove g).scratch.read o
  | .pa a mt => s.paByte stand a mt

/-! ### Updates of replicas (11 R246) -/

/-- An update or stamp is applied by a stand: the bytes to the replica where the line is held, and the home's entry of
the applied clock. -/
def applyUpdate (st home : Nat) (stamp : List Nat) (bytes : List (Nat × Byte)) (s : State) : State :=
  let x := s.stand st
  let rep := bytes.foldl (fun m p => if x.replicas.contains (lineOf p.1) then Memory.write m p.1 p.2 else m) x.replica
  s.setStand st { x with replica := rep, clock := x.clock.setIfInBounds home (stamp.getD home 0) }

/-- Whether a stand may apply an update: the home's earlier writes and all that the stamp covers are applied. -/
def updateReady (s : State) (st home : Nat) (stamp : List Nat) : Bool :=
  (List.range 4).all fun j =>
    let a := (s.stand st).clock.toList.getD j 0
    if j = home then decide (a + 1 = stamp.getD j 0) else decide (stamp.getD j 0 ≤ a)

/-- The greater of two clocks, entry by entry. -/
def clockMax (x y : List Nat) : List Nat := (List.range 4).map fun j => max (x.getD j 0) (y.getD j 0)

/-- The update that an envelope brings to a stand: its home, its stamp and its bytes. -/
def updateFor (st : Nat) (e : Envelope) : Option (Nat × List Nat × List (Nat × Byte)) :=
  match e.body with
  | .update st' h t b => if st' = st then some (h, t, b) else none
  | _ => none

/-- What a stand must have applied to have applied all that a clock covers: the clock, and the stamps of the updates on
their way that it covers. A stamp covers only writes that were numbered before, so one pass from the latest back does. -/
def coveredClock (st : Nat) (t : List Nat) (ms : List Envelope) : List Nat :=
  ms.foldr (fun e t => match updateFor st e with
    | some (h, x, _) => if x.getD h 0 ≤ t.getD h 0 then clockMax t x else t
    | none => t) t

/-- A stand applies every write that a clock covers, in the order of the writes. -/
def applyUpTo (st : Nat) (t : List Nat) (s : State) : State :=
  let t := coveredClock st t s.msgs
  let due (e : Envelope) : Option (Nat × List Nat × List (Nat × Byte)) :=
    (updateFor st e).filter fun u => decide (u.2.1.getD u.1 0 ≤ t.getD u.1 0)
  let ups := s.msgs.filterMap due
  if ups.isEmpty then s
  else ups.foldl (fun s u => applyUpdate st u.1 u.2.1 u.2.2 s) { s with msgs := s.msgs.filter fun e => (due e).isNone }

/-- A stand's applied clock. -/
def State.clockOf (s : State) (st : Nat) : List Nat := (s.stand st).clock.toList

/-- The applied clocks of the four stands. -/
def State.clocks (s : State) : List (List Nat) := (List.range 4).map s.clockOf

/-- A stand applies every update on its way to it, in the order of the writes. -/
def syncStand (st : Nat) (s : State) : State := applyUpTo st ((List.range 4).map fun j => (s.clockOf j).getD j 0) s

/-- Every stand applies every update on its way: what the drains of a halt wait for. -/
def syncAll (s : State) : State := syncStand 3 (syncStand 2 (syncStand 1 (syncStand 0 s)))

/-- Who writes: the stand of the writer, the stands' applied clocks as the write was issued (none: as they stand now), and
its thread, 0 for a unit. -/
structure Writer where
  stand : Nat
  clocks : List (List Nat) := []
  tid : Nat := 0
deriving DecidableEq, Repr

/-- A write serialised at a home stand takes its number and stamp, and the update or the stamp alone goes to every other
stand (11 R246). The home stand, and the writer's, apply what the write follows. A stand that holds no replica and awaits
no update applies the stamp at once: nothing it reads can tell. -/
def stampWrite (home : Nat) (w : Writer) (bytes : List (Nat × Byte)) (s : State) : State :=
  let cs := if w.clocks.isEmpty then s.clocks else w.clocks
  let seen := clockMax (cs.getD home []) (cs.getD w.stand [])
  let s := applyUpTo home seen s
  let h := s.stand home
  let n := h.clock.toList.getD home 0 + 1
  let stamp := (List.range 4).map fun j => if j = home then n else seen.getD j 0
  let s := s.setStand home { h with clock := h.clock.setIfInBounds home n }
  let s := (List.range 4).foldl (fun s j =>
    if j = home then s
    else
      let x := s.stand j
      let rep := bytes.filter fun p => x.replicas.contains (lineOf p.1)
      if x.replicas.isEmpty && !(s.msgs.any fun e => (updateFor j e).isSome) then applyUpdate j home stamp [] s
      else s.send 0 (.update j home stamp rep)) s
  if w.stand = home then s else applyUpTo w.stand stamp s

/-! ### Writes at home -/

/-- The threads that spin on a line have seen a write reach it (02 R38). -/
def wakeSpinners (hit : Loc → Bool) (s : State) : State :=
  let f (t : Thread) : Thread := match t.status with
    | .spinning l c p w => { t with status := .spinning l c p (w || hit l) }
    | _ => t
  { s with th := f s.th, threads := s.threads.map f }

/-- The bytes of a line go to DRAM, W bytes first: the line is clean (09 R240). Of an element that a store to it as M memory
has written since, the dirty value or the stored one stays, which a free choice tells (R223). -/
def writeBack (line : Nat) (s : State) : State :=
  let through := s.wt.filter fun p => lineOf p.1 = line
  let here := s.mixed.filter fun e => lineOf e = line
  let stays (a : Nat) : Bool := here.contains (a / 4 * 4) && Config.freeBits (a / 4 * 4) s.free % 2 = 1
  let mine := s.l2.filter fun p => lineOf p.1 = line && !stays p.1
  let s' := { s with
    dram := mine.foldl (fun m p => Memory.write m p.1 p.2) (through.foldl (fun m p => Memory.write m p.1 p.2.1) s.dram)
    l2 := s.l2.filter fun p => lineOf p.1 ≠ line
    wt := s.wt.filter fun p => lineOf p.1 ≠ line
    mixed := s.mixed.filter fun e => lineOf e ≠ line }
  if here.isEmpty then s' else s'.draw

/-- The aligned 4-byte elements that some bytes lie in, of those that are partly dirty in L2. -/
def dirtyElems (bytes : List (Nat × Byte)) (s : State) : List Nat :=
  (bytes.map fun p => p.1 / 4 * 4).eraseDups.filter fun e => (List.range 4).any fun i => (Table.find (e + i) s.l2).isSome

/-- Before a store to M memory the dirty elements that it writes stand whole in L2, so that a later write-back gives each of
them one value (09 R223). -/
def holdElems (es : List Nat) (s : State) : State :=
  if es.isEmpty then s
  else
    let l2 := es.foldl (fun t e => (List.range 4).foldl (fun t i =>
      if (Table.find (e + i) t).isSome then t else Table.put (e + i) (s.throughByte (e + i)) t) t) s.l2
    { s with l2 := l2, mixed := es.filter (fun e => !s.mixed.contains e) ++ s.mixed }

/-- What a thread has stored to W memory is written to DRAM (11 R252). -/
def writeThrough (tid : Nat) (s : State) : State :=
  { s with
    dram := (s.wt.filter fun p => p.2.2.contains tid).foldl (fun m p => Memory.write m p.1 p.2.1) s.dram
    wt := s.wt.filter fun p => !p.2.2.contains tid }

/-- Lines that a slice holds with a WAYS code (09 R215, R220): 2,048 sets of the ways that are cached. -/
def sliceLines (ways : BitVec 2) : Nat := 2048 * (16 - 4 * ways.toNat)

/-- The dirty lines of a slice, if they are more than it holds; a slice that cannot be full is not counted. -/
def crowded (a : Nat) (s : State) : List Nat :=
  if s.l2.length ≤ sliceLines 2 then []
  else
    let h := paHome a
    let ls := ((s.l2.filter fun p => paPkg p.1 = paPkg a && paHome p.1 = h).map fun p => lineOf p.1).eraseDups
    if ls.length ≤ sliceLines (s.grove h.1).ways then [] else ls

/-- A slice that a new dirty line overfills writes one of its lines back: which, the manual does not tell
(notes/assumptions/5.md). -/
def evictL2 (a : Nat) (s : State) : State :=
  match crowded a s with
  | [] => s
  | l :: ls => writeBack ((l :: ls).getD (s.freeBelow (ls.length + 1)) l) s.draw

/-- A store to a line that holds page-table entries removes them from every TLB (09 R226). -/
def dropTlb (line : Nat) (t : Table (List TlbEntry)) : Table (List TlbEntry) :=
  if t.any fun p => p.2.any fun e => lineOf e.at_ = line then
    t.map fun p => (p.1, p.2.filter fun e => lineOf e.at_ ≠ line)
  else t

/-- The bytes of one line reach their home's storage (09 R223): N memory becomes dirty in L2; W memory is on its way to
DRAM, and written to a dirty byte that is there; M memory goes to the controller. -/
def putBytes (w : Writer) (mt : Nat) (bytes : List (Nat × Byte)) (s : State) : State :=
  if mt = 2 then
    let s := holdElems (dirtyElems bytes s) s
    { s with
      dram := bytes.foldl (fun m p => Memory.write m p.1 p.2) s.dram
      wt := bytes.foldl (fun t p => Table.drop p.1 t) s.wt }
  else if mt = 1 then
    { s with
      wt := bytes.foldl (fun t p => Table.put p.1 (p.2, w.tid :: ((Table.find p.1 t).map (·.2)).getD []) t) s.wt
      l2 := bytes.foldl (fun t p => if (Table.find p.1 t).isSome then Table.put p.1 p.2 t else t) s.l2 }
  else { s with l2 := bytes.foldl (fun t p => Table.put p.1 p.2 t) s.l2 }

/-- A write reaches the line of an address: the monitors of spinning threads, the TLBs, and the line's check value see
it. -/
def noteWrite (a : Nat) (s : State) : State :=
  wakeSpinners (fun l => match l with
    | .pa x _ => lineOf x = lineOf a
    | _ => false) { s with tlb := dropTlb (lineOf a) s.tlb, checks := Table.drop (lineOf a) s.checks }

/-- The bytes of one line written at their home (11 R243-R246). -/
def homeWrite (w : Writer) (mt : Nat) (bytes : List (Nat × Byte)) (s : State) : State :=
  match bytes with
  | [] => s
  | (a, _) :: _ =>
    let s := putBytes w mt bytes s
    let s := if mt = 0 then evictL2 a s else s
    noteWrite a (if s.ownPa a && mt != 2 then stampWrite (paStand a) w bytes s else s)

/-- A byte of a local store written by an ordinary store: within a control block only OVFA changes (08 R189). -/
def lsStoreByte (c off : Nat) (b : Byte) (s : State) : State :=
  let x := s.core c
  let ro := x.cbs.any fun cb => cb ≤ off && off < cb + 32 && !(cb + 16 ≤ off && off < cb + 24)
  if ro then s else s.setCore c { x with ls := x.ls.write off b }

/-- Two places in one line of one memory. -/
def sameLine : Loc → Loc → Bool
  | .ls c o, .ls c' o' => c = c' && o / 64 = o' / 64
  | .sp g o, .sp g' o' => g = g' && o / 64 = o' / 64
  | .pa a m, .pa a' m' => lineOf a = lineOf a' && m = m'
  | _, _ => false

/-- Bytes that follow one another in one line, together. -/
def groupStores : List (Loc × Byte) → List (List (Loc × Byte))
  | [] => []
  | p :: r =>
    match groupStores r with
    | (q :: g) :: gs => if sameLine p.1 q.1 then (p :: q :: g) :: gs else [p] :: (q :: g) :: gs
    | gs => [p] :: gs

/-- The bytes of one line written to their places by a writer. -/
def storeGroup (w : Writer) (s : State) (g : List (Loc × Byte)) : State :=
  match g with
  | [] => s
  | (.pa _ mt, _) :: _ =>
    homeWrite w mt (g.filterMap fun p => match p.1 with
      | .pa x _ => some (x, p.2)
      | _ => none) s
  | (l, _) :: _ =>
    wakeSpinners (sameLine l) (g.foldl (fun s p => match p.1 with
      | .ls c o => lsStoreByte c o p.2 s
      | .sp g o => let x := s.grove g; s.setGrove g { x with scratch := x.scratch.write o p.2 }
      | .pa _ _ => s) s)

/-- Bytes written to their places by a writer, in order; the bytes of one line that follow one another are
one write. -/
def storeLocs (w : Writer) (bytes : List (Loc × Byte)) (s : State) : State :=
  (groupStores bytes).foldl (storeGroup w) s

/-! ### Resolving an address (09 R216, R223-R230) -/

/-- What an access does, for the permissions it needs (09 R225, 11 R261, R262). `hardware` and `hardwareStore` are the
device's own accesses to partition memory, which no permission refuses. -/
inductive Access where
  | read | write | readWrite | fetch | cas | hardware | hardwareStore
deriving DecidableEq, Repr

/-- A refused access: the cause and TRAPV (09 R230), and the storage that a walk could not read. -/
structure Flt where
  cause : Nat
  tv : Nat
  bad : Option BadStorage := none
deriving DecidableEq, Repr

/-- Who makes an access: its partition, the core whose window it reaches, the grove whose scratchpad it reaches, its
privilege (09 R216), and the stand whose TLB serves it, if any. -/
structure Who where
  part : Nat
  core : Option Nat
  grove : Option Nat
  priv : Nat
  stand : Option Nat := none
deriving DecidableEq, Repr

/-- The device's own access. -/
def Access.own (k : Access) : Bool := k = .hardware || k = .hardwareStore

/-- An access stores, for the D bit of its leaf (09 R225); CAS only if it stores (11 R261). -/
def Access.stores (k : Access) : Bool := k = .write || k = .readWrite || k = .hardwareStore

/-- A bit of a number. -/
def natBit (w n : Nat) : Bool := (w >>> n) % 2 = 1

/-! ### Uncorrectable storage (09 R228, R229, 20 R383) -/

/-- A place in a package that has been fenced as failed (20 R386). -/
def peerGone (s : State) : Loc → Bool
  | .pa a _ => s.failed.contains (paPkg a)
  | _ => false

/-- One step of CRC-32C, reflected. -/
def crcBit (c : BitVec 32) : BitVec 32 := if c.getLsbD 0 then (c >>> 1) ^^^ 0x82F63B78 else c >>> 1

/-- CRC-32C of bytes. -/
def crc32c (bs : List Byte) : BitVec 32 :=
  ~~~(bs.foldl (fun c b => crcBit (crcBit (crcBit (crcBit (crcBit (crcBit (crcBit (crcBit (c ^^^ b.setWidth 32)))))))))
    (BitVec.allOnes 32))

/-- The end-to-end check value that a line holds (20 R383). -/
def checkValue (line : Nat) (s : State) : BitVec 32 := (Table.find line s.checks).getD (crc32c (s.homeBytes (64 * line) 64))

/-- A line whose check value does not agree with its bytes. -/
def checkFails (line : Nat) (s : State) : Bool :=
  match Table.find line s.checks with
  | some v => v ≠ crc32c (s.homeBytes (64 * line) 64)
  | none => false

/-- A line of L2 is dirty. -/
def dirtyLine (line : Nat) (s : State) : Bool := s.l2.any fun p => lineOf p.1 = line

/-- The storage fault that a read of one place meets; no data come from a failed package. -/
def badPlace (s : State) (l : Loc) : Option BadStorage :=
  if peerGone s l then some { at_ := .mem l, info := 6, transient := false, lost := false }
  else
    let listed := if s.bad.isEmpty then none else s.bad.find? fun b => match b.at_, l with
      | .mem (.pa a _), .pa a' _ => lineOf a = lineOf a'
      | .mem x, l => sameLine x l
      | .plane .., _ => false
    match listed, l with
    | some b, .pa a _ => some { b with lost := b.lost && dirtyLine (lineOf a) s }
    | some b, _ => some { b with lost := false }
    | none, .pa a _ =>
      if checkFails (lineOf a) s then some { at_ := .mem l, info := 5, transient := false, lost := dirtyLine (lineOf a) s } else none
    | none, _ => none

/-- The first storage fault that a read of places meets, in their order. -/
def badRead (s : State) (ls : List Loc) : Option BadStorage :=
  if s.bad.isEmpty && s.checks.isEmpty && s.failed.isEmpty then none else ls.findSome? (badPlace s)

/-- The storage fault that a read of n bytes of the plane store meets. -/
def badSlice (s : State) (arr off n : Nat) : Option BadStorage :=
  s.bad.find? fun b => match b.at_ with
    | .plane a o => a = arr && off ≤ o && o < off + n
    | .mem _ => false

/-- TRAPV of a data error (09 R229). -/
def BadStorage.tv (b : BadStorage) : Nat := (if b.lost then 1 else 0) + 2 * b.info

/-- A read that meets the fault delivers correct data: the code corrects it, or the retry cures it (09 R228, R229). -/
def BadStorage.passes (b : BadStorage) : Bool := b.fixed || b.transient

/-- The bank is retired (09 R229): the fault is gone, and a line that could not be rebuilt is dropped, so that DRAM
stands in its place. A fault that the code corrects or the retry cures is only counted. -/
def retire (b : BadStorage) (s : State) : State :=
  let s := { s with bad := s.bad.filter fun x => !(x.at_ = b.at_ && x.info = b.info && x.transient = b.transient && x.fixed = b.fixed) }
  if b.fixed then { s with corrected := s.corrected + 1 }
  else if b.transient then { s with transients := s.transients + 1 }
  else match b.at_ with
    | .mem (.pa a _) =>
      let s := { s with checks := Table.drop (lineOf a) s.checks }
      if b.lost then { s with l2 := s.l2.filter fun p => lineOf p.1 ≠ lineOf a } else s
    | _ => s

/-- Faults among places that the code corrects or the retry cures are counted; the first other one stops the read, with its
place in the list. -/
def settleBad : Nat → List Loc → State → Except (Nat × BadStorage × State) State
  | 0, _, s => .ok s
  | n + 1, ls, s =>
    match badRead s ls with
    | none => .ok s
    | some b => if b.passes then settleBad n ls (retire b s) else .error (ls.findIdx fun l => badPlace s l = some b, b, s)

/-! ### Page tables (09 R224-R227) -/

/-- An entry that R224 calls malformed, at a level. -/
def pteMalformed (e level : Nat) : Bool :=
  let leaf := natBit e 1
  let r := natBit e 2
  let w := natBit e 3
  let ct := natBit e 10
  let cow := natBit e 11
  fieldOf e 52 5 ≠ 0 || fieldOf e 8 2 = 3 || (w && !r) || (cow && w) || (!leaf && level = 0)
    || (leaf && level = 4) || (ct && level ≠ 0) || (leaf && fieldOf e 12 40 % 2 ^ (9 * level) ≠ 0)

/-- The 16 entries of a contiguous group agree in every bit but A and D, and the frame runs on through them
(09 R224). -/
def ctGroupOk (s : State) (table idx : Nat) : Bool :=
  let base := idx / 16 * 16
  let norm (j : Nat) : Nat :=
    let e := s.homeNat (table + 8 * (base + j)) 8
    e &&& (2 ^ 64 - 1 - 0xC0)
  (List.range 16).all fun j => norm j = norm 0

/-- Why a walk gives no leaf: an entry that is absent or malformed, or storage that cannot be read. -/
inductive WalkStop where
  | absent
  | bad (b : BadStorage)
deriving DecidableEq, Repr

/-- A walk from a level down (09 R225): the leaf entry, its address and its level. -/
def walkFrom (s : State) (va : Nat) : Nat → Nat → Except WalkStop (Nat × Nat × Nat)
  | level, table =>
    let idx := va / 2 ^ (12 + 9 * level) % 512
    let at_ := table + 8 * idx
    if !(s.ownPa table && paIsDram table) then .error .absent
    else match (badRead s [.pa at_ 0]).filter fun b => !b.passes with
    | some b => .error (.bad b)
    | none =>
      let e := s.homeNat at_ 8
      if !natBit e 0 || pteMalformed e level then .error .absent
      else if natBit e 1 then
        if natBit e 10 && !(ctGroupOk s table idx && fieldOf e 12 4 = 0) then .error .absent else .ok (e, at_, level)
      else match level with
        | 0 => .error .absent
        | l + 1 => walkFrom s va l (fieldOf e 12 40 * 4096)

/-- The places of the entries that a walk reads. -/
def walkPlaces (s : State) (va : Nat) : Nat → Nat → List Loc
  | level, table =>
    let at_ := table + 8 * (va / 2 ^ (12 + 9 * level) % 512)
    let e := s.homeNat at_ 8
    let go_ := s.ownPa table && paIsDram table && natBit e 0 && !natBit e 1 && !pteMalformed e level
    .pa at_ 0 :: (match level with
      | 0 => []
      | l + 1 => if go_ then walkPlaces s va l (fieldOf e 12 40 * 4096) else [])

/-- The faults that a walk meets and that the code corrects or the retry cures are counted (09 R228, R229). -/
def countWalk (va root : Nat) (s : State) : State :=
  if s.bad.isEmpty then s
  else (walkPlaces s va 4 root).foldl (fun s l => match badRead s [l] with
    | some b => if b.passes then retire b s else s
    | none => s) s

/-- A page's physical address for an offset, given its leaf: a contiguous group maps 64 KiB. -/
def leafPa (e level va : Nat) : Nat :=
  let size := if natBit e 10 then 65536 else 2 ^ (12 + 9 * level)
  fieldOf e 12 40 * 4096 + va % size

/-- The refusal of a leaf's permissions, in the order of R225 and, for CAS, R262. -/
def leafRefusal (k : Access) (priv e : Nat) : Option Flt :=
  let r := natBit e 2
  let w := natBit e 3
  if k.own then none
  else if natBit e 5 && priv = 0 then some ⟨4, 2, none⟩
  else match k with
    | .read => if r then none else some ⟨4, 0, none⟩
    | .write => if w then none else some ⟨4, 0, none⟩
    | .readWrite => if r && w then none else some ⟨4, 0, none⟩
    | .fetch => if natBit e 4 then none else some ⟨4, 0, none⟩
    | .cas => if !r then some ⟨4, 0, none⟩ else if !w then some ⟨0x15, (natBit e 11).toNat, none⟩ else none
    | .hardware | .hardwareStore => none

/-- TRAPV of a page fault by the access (09 R230). -/
def pageFaultKind : Access → Nat
  | .read | .hardware => 0
  | .write | .readWrite | .cas | .hardwareStore => 1
  | .fetch => 2

/-! ### TLBs (09 R215, R226) -/

/-- The TLBs that serve a party, nearest first, with the entries each holds. -/
def Who.tlbs (w : Who) : List (Nat × Nat) :=
  (w.core.map fun c => (c, 64)).toList ++ (w.grove.map fun g => (4096 + g, 2048)).toList
    ++ (w.stand.map fun n => (8192 + n, 32768)).toList

/-- The entries of a TLB. -/
def State.tlbOf (s : State) (unit : Nat) : List TlbEntry := (Table.find unit s.tlb).getD []

/-- The translation of a page that a party's TLBs hold. -/
def cachedLeaf (w : Who) (page : Nat) (s : State) : Option TlbEntry :=
  w.tlbs.findSome? fun u => (s.tlbOf u.1).find? fun e => e.part = w.part && e.page = page

/-- A TLB takes an entry in place of any for its page; a full one drops another, and which, the manual does not tell
(notes/assumptions/5.md). -/
def fillTlb (e : TlbEntry) (s : State) (u : Nat × Nat) : State :=
  let es := (s.tlbOf u.1).filter fun x => !(x.part = e.part && x.page = e.page)
  if es.length < u.2 then { s with tlb := Table.put u.1 (e :: es) s.tlb }
  else { s with tlb := Table.put u.1 (e :: es.eraseIdx (s.freeBelow es.length)) s.tlb }.draw

/-- Every TLB that serves a party holds an entry. -/
def fillTlbs (w : Who) (e : TlbEntry) (s : State) : State :=
  if w.tlbs.all fun u => (s.tlbOf u.1).contains e then s else w.tlbs.foldl (fillTlb e) s

/-- The leaf of a page as a party finds it (09 R225, R226): by a walk, or as a TLB holds it; where a pointer above has
changed since, the entry that is held may have been dropped meanwhile, which a free choice tells. -/
def findLeaf (w : Who) (va root : Nat) (s : State) : Except WalkStop (Nat × Nat × Nat) × State :=
  let fresh := walkFrom s va 4 root
  let s := countWalk va root s
  match cachedLeaf w (va / 4096) s with
  | none => (fresh, s)
  | some e =>
    match fresh with
    | .ok r => if r = (e.leaf, e.at_, e.level) then (fresh, s)
      else if s.freeBelow 2 = 0 then (.ok (e.leaf, e.at_, e.level), s.draw) else (fresh, s.draw)
    | .error _ => if s.freeBelow 2 = 0 then (.ok (e.leaf, e.at_, e.level), s.draw) else (fresh, s.draw)

/-- A page is at a physical address in the partition's record area (17 R331). -/
def inRecords (p : Part) (pa : Nat) : Bool := p.grant.recB ≤ pa && pa < p.grant.recB + 2 ^ 22

/-- The writer that a walk, or any update by the home stand of an address itself, is. -/
def homeWriter (a : Nat) : Writer := { stand := paStand a }

/-- A leaf is used (09 R225): A is set, and D on a store, at the entry's home, and the TLBs hold it. CAS sets D only if it
stores. -/
def useLeaf (w : Who) (stores : Bool) (va : Nat) (leaf : Nat × Nat × Nat) (s : State) : State :=
  let (e, at_, level) := leaf
  let e' := e ||| 0x40 ||| (if stores then 0x80 else 0)
  let s := if e' = e then s else homeWrite (homeWriter at_) 0 [(at_, BitVec.ofNat 8 e')] s
  fillTlbs w ⟨w.part, va / 4096, at_, e', level⟩ s

/-- Translates an address of a partition (09 R224-R227): the physical address and the memory type. The leaf's permissions are
checked before what its frame names (notes/assumptions/119.md). -/
def translate (w : Who) (k : Access) (va : Nat) (s : State) : Except Flt (Nat × Nat × State) :=
  match s.part? w.part with
  | none => .error ⟨3, pageFaultKind k, none⟩
  | some p =>
    match findLeaf w va p.grant.ptroot s with
    | (.error .absent, _) => .error ⟨3, pageFaultKind k, none⟩
    | (.error (.bad b), _) => .error ⟨0x12, b.tv, some b⟩
    | (.ok (e, at_, level), s) =>
      match leafRefusal k w.priv e with
      | some f => .error f
      | none =>
        let pa := leafPa e level va
        if !s.paOk pa then .error ⟨4, 4, none⟩
        else if inRecords p pa && w.priv < 2 && !k.own then .error ⟨4, 3, none⟩
        else .ok (pa, fieldOf e 8 2, useLeaf w k.stores va (e, at_, level) s)

/-- Bytes of scratchpad that a WAYS code gives (09 R220). -/
def scratchSize (ways : BitVec 2) : Nat := if ways = 1 then 2 ^ 22 else if ways = 2 then 2 ^ 23 else 0

/-- The dirty lines whose home slices are a grove's that lie in the changing ways: those for which a free choice says so
(which way holds a line is not told by the manual; notes/assumptions/5.md), and those for which the ways left to their
slice have no room. -/
def linesInWays (g : Nat) (s : State) : List Nat :=
  let lines := ((s.l2.filter fun p => s.ownPa p.1 && (paHome p.1).1 = g).map fun p => lineOf p.1).eraseDups
  let (gone, kept) := lines.partition fun l => decide (Config.freeBits l s.free % 2 = 1)
  gone ++ (List.range 8).flatMap fun h => (kept.filter fun l => (paHome (64 * l)).2 = h).drop (sliceLines (s.grove g).ways)

/-- A change of WAYS completes (09 R222): dirty lines of the surrendered ways are written back, scratchpad that is added
or dropped reads 0 from now on, and BUSY falls. -/
def completeWays (g : Nat) (s : State) : State :=
  let x := s.grove g
  if x.busy then
    let old := scratchSize x.oldWays
    let new := scratchSize x.ways
    let s := if old < new then (linesInWays g s).foldl (fun s l => writeBack l s) s.draw else s
    s.setGrove g { x with
      busy := false
      scratch := Memory.clear x.scratch (min old new) (max old new - min old new) }
  else s

/-- First address of the local-store window (09 R216). -/
def windowBase : Nat := 0x01FFFFFFFFFE0000

/-- Whether an address lies in a grove's scratchpad window (09 R220). -/
def Grove.inWindow (g : Grove) (va : Nat) : Bool :=
  g.spbase ≠ 0 && g.spbase.toNat * 2 ^ 23 ≤ va && va < g.spbase.toNat * 2 ^ 23 + 2 ^ 23

/-- Whether an access to an address waits for a change of WAYS in progress (09 R222): it reaches scratchpad that is
being added. -/
def waitsForWays (g : Grove) (va : Nat) : Bool :=
  let off := va - g.spbase.toNat * 2 ^ 23
  g.busy && g.inWindow va && scratchSize g.oldWays ≤ off && off < scratchSize g.ways

/-- A change of WAYS that an access waits for completes before the access. -/
def settleWays (g va : Nat) (s : State) : State := if waitsForWays (s.grove g) va then completeWays g s else s

/-- Resolves an address for an access (09 R216, R217, R222): its place, or the fault of the first check that fails. An
access to scratchpad bytes that a change in progress adds is answered after the change. -/
def resolve (w : Who) (k : Access) (va : Nat) (s : State) : Except Flt (Loc × State) :=
  if 2 ^ 57 ≤ va then .error ⟨4, 1, none⟩
  else if windowBase ≤ va then
    match w.core with
    | none => .error ⟨4, 3, none⟩
    | some c =>
      let off := va - windowBase
      if k = .fetch then .error ⟨4, 3, none⟩
      else if off < 0x8800 ∧ w.priv < 2 ∧ !k.own then .error ⟨4, 3, none⟩
      else .ok (.ls c off, s)
  else
    match w.grove with
    | some g =>
      let s := settleWays g va s
      let x := s.grove g
      if x.inWindow va then
        if k = .fetch then .error ⟨4, 3, none⟩
        else
          let off := va - x.spbase.toNat * 2 ^ 23
          let size := if x.busy then min (scratchSize x.oldWays) (scratchSize x.ways) else scratchSize x.ways
          if off < size then .ok (.sp g off, s) else .error ⟨0x13, x.ways.toNat, none⟩
      else (translate w k va s).map fun r => (.pa r.1 r.2.1, r.2.2)
    | none => (translate w k va s).map fun r => (.pa r.1 r.2.1, r.2.2)

/-- The place n bytes on. -/
def Loc.plus : Loc → Nat → Loc
  | .ls c o, n => .ls c (o + n)
  | .sp g o, n => .sp g (o + n)
  | .pa a m, n => .pa (a + n) m

/-- Resolves a span of bytes piece by piece, the pieces ending at multiples of 2 KiB, so that no piece crosses a page,
a window or a reserved range: the places with their lengths, or the first failing byte's fault. -/
def resolveSpan (w : Who) (k : Access) : Nat → Nat → Nat → State → Except (Flt × Nat) (List (Loc × Nat) × State)
  | 0, _, _, s => .ok ([], s)
  | fuel + 1, va, len, s =>
    if len = 0 then .ok ([], s)
    else
      let n := min len (2048 - va % 2048)
      match resolve w k va s with
      | .error f => .error (f, va)
      | .ok (l, s) =>
        match resolveSpan w k fuel (va + n) (len - n) s with
        | .error e => .error e
        | .ok (ls, s) => .ok ((l, n) :: ls, s)

/-- The bytes of places with lengths, one place a byte. -/
def spanLocs (sp : List (Loc × Nat)) : List Loc :=
  sp.flatMap fun p => (List.range p.2).map p.1.plus

/-- Reads places with lengths as an observer in a stand. -/
def readSpan (s : State) (stand : Nat) (sp : List (Loc × Nat)) : List Byte := (spanLocs sp).map (s.readLoc stand)

/-- The focus thread as a party to accesses. -/
def State.who (s : State) : Who :=
  { part := s.myPart, core := some s.th.core, grove := some (groveOfCore s.th.core), priv := s.th.priv.toNat
    stand := some (standOfCore s.th.core) }

/-- The device's own access to a partition's memory. -/
def hwWho (part : Nat) : Who := { part := part, core := none, grove := none, priv := 2 }

/-- The leaves of a span of a partition's memory that the device reads or stores to are used (09 R225). -/
def usePart (k : Access) (part va n : Nat) (s : State) : State :=
  match resolveSpan (hwWho part) k (n / 2048 + 2) va n s with
  | .ok (_, s) => s
  | .error _ => s

/-- Reads bytes of a partition's memory for the device; bytes that do not translate read 0 (notes/assumptions/6.md). -/
def partRead (part va n : Nat) (s : State) : List Byte :=
  match resolveSpan (hwWho part) .hardware (n / 2048 + 2) va n s with
  | .ok (sp, s) => (spanLocs sp).map fun l => match l with
    | .pa a _ => s.homeByte a
    | _ => 0
  | .error _ => zeroBytes n

/-- Bytes of memory written by the device, each line by its home stand; what goes to a failed package is dropped
(20 R386). -/
def storeAtHomes (bytes : List (Loc × Byte)) (s : State) : State :=
  (groupStores (bytes.filter fun p => !peerGone s p.1)).foldl (fun s g => match g with
    | (.pa a _, _) :: _ => storeGroup (homeWriter a) s g
    | _ => storeGroup { stand := 0 } s g) s

/-- Writes bytes of a partition's memory for the device, at their homes; bytes that do not translate are dropped. -/
def partWrite (part va : Nat) (bs : List Byte) (s : State) : State :=
  match resolveSpan (hwWho part) .hardwareStore (bs.length / 2048 + 2) va bs.length s with
  | .ok (sp, s) => storeAtHomes ((spanLocs sp).zip bs) s
  | .error _ => s

/-- Bytes whose layout the manual does not give are free values (notes/assumptions/5.md). -/
def freeBytes (n seed : Nat) : List Byte := (List.range n).map fun i => BitVec.ofNat 8 (Config.freeBits i seed)

/-- The bytes of places in memory are in DRAM: what a release at .sys waits for (11 R252). N memory that the device writes
with such a release is written back too (notes/assumptions/94.md). -/
def toDram (ls : List Loc) (s : State) : State :=
  ((ls.filterMap fun l => match l with
    | .pa a _ => some (lineOf a)
    | _ => none).eraseDups).foldl (fun s l => writeBack l s) s

/-- Writes bytes of a partition's memory for the device with a release at .sys. -/
def partRelease (part va : Nat) (bs : List Byte) (s : State) : State :=
  match resolveSpan (hwWho part) .hardwareStore (bs.length / 2048 + 2) va bs.length s with
  | .ok (sp, s) => toDram (spanLocs sp) (storeAtHomes ((spanLocs sp).zip bs) s)
  | .error _ => s

/-- Replicas of a line everywhere, and the bytes of updates still on their way to them, are dropped (09 R239,
11 R257). -/
def dropReplicas (line : Nat) (s : State) : State :=
  let s := (List.range 4).foldl (fun s j =>
    let x := s.stand j
    if x.replicas.contains line then
      s.setStand j { x with replicas := x.replicas.filter (· ≠ line), replica := Memory.clear x.replica (64 * line) 64 }
    else s) s
  { s with msgs := s.msgs.map fun e => match e.body with
    | .update st h t bs => { e with body := .update st h t (bs.filter fun p => lineOf p.1 ≠ line) }
    | _ => e }

/-- A place's line may stand in L1s and replicas: N and W memory of the package outside record areas, which are never
replicated and never cached in L1 (17 R331). -/
def cachable (s : State) (a mt : Nat) : Bool :=
  mt != 2 && s.ownPa a && !s.parts.any fun p => inRecords p.2 a

/-- A stand's replica of a line goes. -/
def dropReplica (st line : Nat) (s : State) : State :=
  let x := s.stand st
  s.setStand st { x with replicas := x.replicas.filter (· ≠ line), replica := Memory.clear x.replica (64 * line) 64 }

/-- The stand's replica of a line is older than the line's home. -/
def staleReplica (st line : Nat) (s : State) : Bool :=
  (List.range 64).any fun i => (s.stand st).replica.read (64 * line + i) != s.homeByte (64 * line + i)

/-- A stand takes a replica of a line homed elsewhere: first it applies every write that the home's clock covers
(11 R246). A replica that is behind its home may have been evicted meanwhile, which a free choice tells. -/
def fillReplica (stand a mt : Nat) (s : State) : State :=
  let line := lineOf a
  if !cachable s a mt || paStand a = stand then s
  else
    let fill (s : State) : State :=
      let s := applyUpTo stand (s.clockOf (paStand a)) s
      let x := s.stand stand
      let bytes := (List.range 64).map fun i => s.homeByte (64 * line + i)
      s.setStand stand { x with replicas := line :: x.replicas, replica := Memory.writeN x.replica (64 * line) bytes }
    if !(s.stand stand).replicas.contains line then fill s
    else if !staleReplica stand line s then s
    else if s.freeBelow 2 = 0 then s.draw else fill (dropReplica stand line s.draw)

/-- The core whose L1 holds a line for a core: with fused L1s the line number chooses it in the grove (09 R218). -/
def l1Home (s : State) (core a : Nat) : Nat :=
  if (s.grove (groveOfCore core)).fused then core / 16 * 16 + lineOf a % 16 else core

/-- A core's L1 takes a line: 1,024 lines at most (09 R215); which one a full L1 drops, the manual does not tell
(notes/assumptions/5.md). -/
def fillL1 (h line : Nat) (bytes : List Byte) (s : State) : State :=
  let c := s.core h
  let rest := Table.drop line c.l1
  if rest.length < 1024 then s.setCore h { c with l1 := Table.put line bytes c.l1 }
  else s.draw.setCore h { c with l1 := Table.put line bytes (rest.eraseIdx (s.freeBelow rest.length)) }

/-- A load of a core touches a line (09 R218): one that its L1 does not hold is filled; one that it holds and that has
been written since is read as it is there, or anew if it was evicted meanwhile, which a free choice tells. -/
def touchL1 (core a mt : Nat) (s : State) : State :=
  if !cachable s a mt then s
  else
    let h := l1Home s core a
    let now := (List.range 64).map fun i => s.paByte (standOfCore core) (64 * lineOf a + i) mt
    match Table.find (lineOf a) (s.core h).l1 with
    | none => fillL1 h (lineOf a) now s
    | some old => if old = now then s else if s.freeBelow 2 = 0 then s.draw else fillL1 h (lineOf a) now s.draw

/-- The lines of places touched by a core's load. -/
def touchLines (core : Nat) (ls : List Loc) (s : State) : State :=
  ls.foldl (fun (st : State × Option Nat) l => match l with
    | .pa a mt => if st.2 = some (lineOf a) then st else (touchL1 core a mt st.1, some (lineOf a))
    | _ => st) (s, none) |>.1

/-- The byte a core's load reads at a place whose line it has touched. -/
def State.coreByte (s : State) (core : Nat) (l : Loc) : Byte :=
  match l with
  | .pa a mt =>
    if cachable s a mt then
      match Table.find (lineOf a) (s.core (l1Home s core a)).l1 with
      | some bs => bs.getD (a % 64) 0
      | none => s.readLoc (standOfCore core) l
    else s.readLoc (standOfCore core) l
  | l => s.readLoc (standOfCore core) l

/-- A core's own store updates a line that its L1 holds, and allocates none (09 R218). -/
def storeL1 (core : Nat) (bytes : List (Loc × Byte)) (s : State) : State :=
  bytes.foldl (fun s p => match p.1 with
    | .pa a _ =>
      let h := l1Home s core a
      match Table.find (lineOf a) (s.core h).l1 with
      | some bs => s.setCore h { s.core h with l1 := Table.put (lineOf a) (bs.set (a % 64) p.2) (s.core h).l1 }
      | none => s
    | _ => s) s

/-- The L1 line of a place goes from a core's L1. -/
def dropL1 (core : Nat) (l : Loc) (s : State) : State :=
  match l with
  | .pa a _ =>
    let h := l1Home s core a
    if (Table.find (lineOf a) (s.core h).l1).isSome then
      s.setCore h { s.core h with l1 := Table.drop (lineOf a) (s.core h).l1 }
    else s
  | _ => s

/-- A line goes from every L1. -/
def dropL1All (line : Nat) (s : State) : State :=
  { s with cores := s.cores.map fun p => (p.1, { p.2 with l1 := Table.drop line p.2.l1 }) }

/-- A core's L1 is invalidated; `wide`: fused L1s of its grove too (09 R218, 11 R253). -/
def clearL1 (wide : Bool) (core : Nat) (s : State) : State :=
  if (s.grove (groveOfCore core)).fused then
    if wide then { s with cores := s.cores.map fun p => if groveOfCore p.1 = groveOfCore core then (p.1, { p.2 with l1 := [] }) else p }
    else s
  else if (s.core core).l1.isEmpty then s
  else s.setCore core { s.core core with l1 := [] }

/-- The replicas that a read of places takes. -/
def fillReplicas (stand : Nat) (ls : List Loc) (s : State) : State :=
  ls.foldl (fun s l => match l with
    | .pa a mt => fillReplica stand a mt s
    | _ => s) s

end Sys2Proof.Machine
end

