-- ==== Sys2Proof/Machine/Logs.lean ====
section
/-!
DEFINITION. What the device records on its own: the asynchronous log and the monitor's log (18 R356-R358, 20 R375),
statistics partials and records (17 R331-R334), and the atomic exception word (11 R265).
-/
namespace Sys2Proof.Machine

open Sys2Proof

/-! ### Logs -/

/-- UNIT of R357 from its kind, stand, grove within the stand, and index. -/
def unitCode (kind stand grove idx : Nat) : Nat := kind * 2 ^ 28 + stand * 2 ^ 11 + grove * 2 ^ 6 + idx

/-- UNIT of an array or plane. -/
def unitOfArray (a : Nat) : Nat := unitCode 1 (a / 128 % 4) (a / 4 % 32) (a % 4)
/-- UNIT of a grove's copy engine (kind 2) or crossbar (kind 3). -/
def unitOfGrove (kind g : Nat) : Nat := unitCode kind (g / 32 % 4) (g % 32) 0

/-- The 64 bytes of an entry (R356). -/
def LogEntry.toBytes (e : LogEntry) (seq : Nat) : List Byte :=
  leBytes 1 e.cause ++ leBytes 1 e.reason ++ leBytes 2 0 ++ leBytes 4 e.unit ++ leBytes 4 e.issuer
    ++ leBytes 4 e.ttag.toNat ++ leBytes 8 e.pc.toNat ++ leBytes 8 e.addr.toNat ++ leBytes 8 e.value.toNat
    ++ leBytes 8 e.extra.toNat ++ leBytes 4 e.word.toNat ++ leBytes 4 e.opnd.toNat ++ leBytes 8 seq

/-- Offsets in the save-area header (R365). -/
def hdrState : Nat := 4
/-- AEW -/
def hdrAew : Nat := 8
/-- VNR -/
def hdrVnr : Nat := 16
/-- LOGHEAD -/
def hdrHead : Nat := 24
/-- LOGTAIL -/
def hdrTail : Nat := 28
/-- LOGDROP -/
def hdrDrop : Nat := 32
/-- HALTN -/
def hdrHaltn : Nat := 36

/-- The supervisor core that runs a partition's system image is notified of an entry in its log (20 R375). -/
def notifySystem (part : Nat) (s : State) : State :=
  let n := Config.systemCore part % 16
  let x := (Table.find n s.supers).getD {}
  { s with supers := Table.put n { x with notices := Table.put part ((Table.find part x.notices).getD 0 + 1) x.notices } s.supers }

/-- An entry for a partition's asynchronous log (R356): written at LOGHEAD with its number, or dropped and counted. The
notification of an entry that was written is merged with one still unserved, which it is while the log has entries that
software has not taken (notes/assumptions/102.md). -/
def State.logAsync (part : Nat) (e : LogEntry) (s : State) : State :=
  match s.part? part with
  | none => s
  | some p =>
    let base := s.saveArea p
    let word (o : Nat) : Nat := leNat (partRead part (base + o) 4 s)
    let head := word hdrHead % 1024
    let s := s.setPart part { p with logSeq := p.logSeq + 1 }
    if (head + 1) % 1024 = word hdrTail % 1024 then
      partRelease part (base + hdrDrop) (leBytes 4 (min (word hdrDrop + 1) (2 ^ 32 - 1))) s
    else
      let s := partRelease part (base + 0x1000 + 64 * head) (e.toBytes p.logSeq) s
      let s := partRelease part (base + hdrHead) (leBytes 4 ((head + 1) % 1024)) s
      let merged := p.notified && decide (head ≠ word hdrTail % 1024)
      (if merged then s else notifySystem part s).onPart part fun p => { p with notified := true }

/-- An entry for the monitor's log, a ring of 4,096 entries that is full one short of its size (R375). -/
def State.logMonitor (e : LogEntry) (s : State) : State :=
  if s.monlog.length ≥ 4095 then { s with monDropped := min (s.monDropped + 1) (2 ^ 32 - 1), monSeq := s.monSeq + 1 }
  else { s with monlog := s.monlog ++ [(e, s.monSeq)], monSeq := s.monSeq + 1 }

/-- The entry about an access of the device itself that met a data error (20 R386). -/
def hwError (va : Nat) : LogEntry :=
  { cause := 0x12, unit := unitCode 6 0 0 0, issuer := 0xFFFFFFFF, addr := BitVec.ofNat 64 va, value := 12 }

/-- The device stores bytes in a partition's memory; what goes to a failed package is dropped and logged (20 R386). -/
def hwStore (part va : Nat) (bs : List Byte) (s : State) : State :=
  match resolveSpan (hwWho part) .hardwareStore (bs.length / 2048 + 2) va bs.length s with
  | .ok (sp, s') =>
    match (spanLocs sp).findIdx? (peerGone s) with
    | some i => (storeAtHomes ((spanLocs sp).zip bs) s').logAsync part (hwError (va + i))
    | none => storeAtHomes ((spanLocs sp).zip bs) s'
  | .error _ => s

/-- Cores numbered from 2,048 on are the 16 supervisor cores (01 R13), n of stand s at 2,048 + 4 × s + n. -/
def superCore (c : Nat) : Bool := 2048 ≤ c && c < 2064

/-- A fault of a thread goes to its partition's log; one of a supervisor core to the monitor's, never to a partition's
(01 R13). -/
def State.logFault (core part : Nat) (e : LogEntry) (s : State) : State :=
  if superCore core then s.logMonitor e else s.logAsync part e

/-- A fault of what a sender sent goes where the sender's own faults go. -/
def State.logSender (part : Nat) (e : LogEntry) (s : State) : State := s.logFault (e.issuer / 4) part e

/-- An entry about a thread's slot, which reports it and issued what it names (notes/assumptions/9.md). -/
def Thread.entry (t : Thread) (cause : Nat) : LogEntry :=
  { cause := cause, unit := t.loc, issuer := t.loc, ttag := t.task.ttag, pc := t.pc, word := t.ir.word }

/-- Flags ORed into a partition's atomic exception word at its home, a write of the party whose operation raised them
(R265). -/
def State.orAew (w : Writer) (part : Nat) (f : Flags) (s : State) : State :=
  if f = 0 then s
  else match s.part? part with
    | none => s
    | some p =>
      let a := s.saveArea p + hdrAew
      let old := leNat (partRead part a 1 s)
      match resolve (hwWho part) .hardwareStore a s with
      | .ok (l, s) =>
        if peerGone s l then s.logAsync part (hwError a) else storeLocs w [(l, BitVec.ofNat 8 (old ||| f.toNat))] s
      | .error _ => s

/-! ### Statistics (17 R331-R334) -/

/-- floor(log2 |x|) of a finite nonzero value counted once more. -/
def bumpExp (ex : Int) (c : Nat) : List (Int × Nat) → List (Int × Nat)
  | [] => [(ex, c)]
  | (e, n) :: r => if e = ex then (e, n + c) :: r else (e, n) :: bumpExp ex c r

/-- A partial with one more value (R333). -/
def Partial.add (p : Partial) (x : Num) : Partial :=
  match x with
  | .nan _ => { p with bad := p.bad + 1, nan := true }
  | .inf _ => { p with bad := p.bad + 1 }
  | .fin _ m e =>
    if m = 0 then p
    else
      let mag := (roundNum .f32 .rup 0 (.fin false m e)).1
      { p with maxmag := max p.maxmag mag, exps := bumpExp (magLog2 m e) 1 p.exps }

/-- The partial of a list of values. -/
def Partial.ofNums (xs : List Num) : Partial := xs.foldl Partial.add {}

/-- The largest magnitude of a format that R67 names. -/
def scaleMax (f : Nat) : Option Num :=
  match f with
  | 3 => some (decodeFloat .e4m3 Fmt.e4m3.maxBits)
  | 4 => some (decodeFloat .e5m2 Fmt.e5m2.maxBits)
  | 5 => some (decodeFloat .fp6 Fmt.fp6.maxBits)
  | 6 => some (.fin false 1 10)
  | 7 => some (.ofInt 127)
  | _ => none

/-- Offset of bin b in a record's bytes: bits [151+16b : 136+16b] (R332). -/
def binOffset (b : Nat) : Nat := 17 + 2 * b

/-- The bin of an exponent beyond the base E0 (R333). -/
def binOf (e0 ex : Int) : Nat := if ex < e0 then 0 else if ex ≤ e0 + 20 then (ex - e0 + 1).toNat else 22

/-- A record with a partial merged into it (R334), on its 64 bytes. -/
def mergePartial (p : Partial) (r : List Byte) : List Byte :=
  let e0 := signedOf 8 (leField r 16 1)
  let add (st : List Byte × Bool) (b c : Nat) : List Byte × Bool :=
    let v := leField st.1 (binOffset b) 2 + c
    (patchBytes st.1 (binOffset b) (leBytes 2 (min v 0xFFFF)), st.2 || decide (0xFFFF < v))
  let (r, sat) := p.exps.foldl (fun st x => add st (binOf e0 x.1) x.2) (r, false)
  let maxmag := max (leField r 8 4) p.maxmag
  let ncnt := leField r 12 4 + p.bad
  let sat := sat || decide (2 ^ 32 - 1 < ncnt)
  let r := patchBytes r 8 (leBytes 4 maxmag ++ leBytes 4 (min ncnt (2 ^ 32 - 1)))
  let lk := signedOf 8 (leField r 63 1)
  let beyond := match scaleMax (leField r 2 1) with
    | some mx => decide (lk ≠ -128) && decide (0 < ((decodeFloat .f32 maxmag).scale lk).cmp mx)
    | none => false
  let fl := leField r 3 1 ||| (if sat then 1 else 0) ||| (if beyond then 2 else 0) ||| (if p.nan then 4 else 0)
  patchBytes r 3 (leBytes 1 fl)

/-- Whether a handle names a record of a partition (17 R320, R331). -/
def recordOk (p : Part) (h : Nat) : Bool := decide (h < p.grant.recN)

/-- A record's bytes at its home. -/
def recordRead (p : Part) (h : Nat) (s : State) : List Byte := s.homeBytes (p.grant.recB + 64 * h) 64

/-- A record's bytes written at its home: records are never replicated. -/
def recordWrite (p : Part) (h : Nat) (bs : List Byte) (s : State) : State :=
  let a := p.grant.recB + 64 * h
  homeWrite (homeWriter a) 0 (bytesAt a bs) s

/-- A partial reaches its record's home (R334); one whose handle names no record is dropped and logged (R237). -/
def arrivePartial (part : Nat) (h : Nat) (p : Partial) (sender : LogEntry) (s : State) : State :=
  match s.part? part with
  | none => s
  | some g =>
    if recordOk g h then recordWrite g h (mergePartial p (recordRead g h s)) s
    else s.logSender part { sender with cause := 0x1F, value := BitVec.ofNat 64 h }

/-- A record cleared to its reset values, one generation on (R335). -/
def clearedRecord (h fmt e0 gen : Nat) : List Byte :=
  leBytes 2 h ++ leBytes 1 fmt ++ zeroBytes 1 ++ leBytes 4 (gen + 1) ++ zeroBytes 8 ++ leBytes 1 e0 ++ zeroBytes 46
    ++ leBytes 1 0x80

/-- The places of a record at a physical address. -/
def recordPlaces (addr : Nat) : List Loc := (List.range 64).map fun i => .pa (addr + i) 0

/-- A record at a physical address is cleared at its home (R335), by STATA with FMT and E0, or by STATC, which keeps them; one
that cannot be read is logged (18 R354). -/
def recordHome (part addr h : Nat) (set : Option (Nat × Nat)) (issuer : LogEntry) (s : State) : State :=
  match settleBad (s.bad.length + 1) (recordPlaces addr) s with
  | .error (_, b, s) =>
    (retire b s).logAsync part { issuer with cause := 0x12, addr := BitVec.ofNat 64 addr, value := BitVec.ofNat 64 b.tv }
  | .ok s =>
    let r := s.homeBytes addr 64
    let (fmt, e0) := set.getD (leField r 2 1, leField r 16 1)
    homeWrite (homeWriter addr) 0 (bytesAt addr (clearedRecord h fmt e0 (leField r 4 4))) s

end Sys2Proof.Machine
end

