-- ==== Sys2Proof/Machine/Home.lean ====
section
/-!
DEFINITION. What an access does where its location is serialised: a core's store (11 R244, R265), an atomic or reduction
(11 R260-R266); and what an acquire does beside what it orders (09 R218, 11 R249).
-/
namespace Sys2Proof.Machine

open Sys2Proof

/-- The byte at a place where its location is serialised. -/
def State.homeLoc (s : State) : Loc → Byte
  | .pa a mt => if mt = 2 then s.throughByte a else s.homeByte a
  | l => s.readLoc 0 l

/-- The number that places hold where they are serialised. -/
def State.homeLocs (s : State) (ls : List Loc) : Nat := leNat (ls.map s.homeLoc)

/-! ### Row locks (14 R309) -/

/-- Whether two lists of places share a byte; the memory type does not matter. -/
def overlaps (xs ys : List Loc) : Bool :=
  xs.any fun x => ys.any fun y => match x, y with
    | .pa a _, .pa b _ => a == b
    | x, y => x == y

/-- The entry that an NUPD command runs leaves its rows as it made them, and unlocks them. -/
def unlockRows (c : NearCmd) (s : State) : State :=
  match c.held with
  | none => s
  | some bs =>
    let stand := standOfCore c.core
    let x := s.stand stand
    storeLocs { stand := stand, tid := c.tid } bs
      (s.setStand stand { x with walkq := x.walkq.map fun d => if d.id = c.id then { d with held := some [] } else d })

/-- What an access to places waits for: rows there that entries of NUPD have locked are unlocked first. -/
def settleRows (ls : List Loc) (s : State) : State :=
  let held := s.stands.flatMap fun p => p.2.walkq.filter fun c => overlaps ((c.held.getD []).map (·.1)) ls
  held.foldl (fun s c => unlockRows c s) s

/-! ### Stores -/

/-- The physical address of a byte of a partition's save area, where it is mapped. -/
def headerPlace (p : Part) (off : Nat) (s : State) : Option Nat :=
  let va := s.saveArea p + off
  match walkFrom s va 4 p.grant.ptroot with
  | .ok (e, _, level) => some (leafPa e level va)
  | .error _ => none

/-- The bits of a byte in memory that a store may set: of an atomic exception word FLAGS alone (11 R265), and none of the
reserved bytes of a save area's header (00 R2, 18 R365). -/
def writableBits (s : State) (a : Nat) : Byte :=
  let hit (p : Nat × Part) : Option Byte :=
    let off := (a % 4096 + 4096 - s.saveArea p.2 % 4096) % 4096
    if ((hdrAew ≤ off && off < hdrAew + 8) || (108 ≤ off && off < 256)) && headerPlace p.2 off s == some a then
      some (if off = hdrAew then 0x1F else 0)
    else none
  (s.parts.findSome? hit).getD 0xFF

/-- A byte that a program stores, in the bits that its place has. -/
def storable (s : State) (p : Loc × Byte) : Loc × Byte :=
  match p.1 with
  | .pa a _ => (p.1, p.2 &&& writableBits s a)
  | _ => p

/-- Bytes a core's thread stores are written at their places, and to its L1; those for a failed package are dropped and
logged (20 R386). -/
def coreStore (part core : Nat) (w : Writer) (bytes : List (Loc × Byte)) (issuer : LogEntry) (s : State) : State :=
  let gone := bytes.any fun p => peerGone s p.1
  let s := if gone then s.logFault core part { issuer with cause := 0x12, value := 12 } else s
  let bytes := if gone then bytes.filter fun p => !peerGone s p.1 else bytes
  let bytes := bytes.map (storable s)
  storeL1 core bytes (storeLocs w bytes (settleRows (bytes.map (·.1)) s))

/-- The bytes that a piece of a store leaves at its places: the bits under the mask change; a byte without any is not
written (09 R233, R236). -/
def StorePart.bytes (p : StorePart) (s : State) : List (Loc × Byte) :=
  (p.locs.zipIdx.filter fun l => (p.mask >>> (8 * l.2)) % 256 ≠ 0).map fun l =>
    let m := BitVec.ofNat 8 (p.mask >>> (8 * l.2))
    (l.1, (s.homeLoc l.1 &&& ~~~m) ||| (BitVec.ofNat 8 (p.value >>> (8 * l.2)) &&& m))

/-! ### Atomics -/

/-- A reduction that faults leaves an entry in its thread's log; one that finds 16 entries is dropped and noted
(11 R266). -/
def logReduction (tid : Nat) (op : AtomOp) (cause : Nat) (s : State) : State :=
  let operand := if op.isVector then (op.operand.setWidth 32).setWidth 64 ||| (BitVec.ofNat 64 op.lane <<< 32) else op.operand
  s.onThread tid fun t =>
    if t.redlog.length < 16 then { t with redlog := t.redlog ++ [⟨op.va, operand, op.word, cause, op.lane⟩] }
    else { t with redDropped := true }

/-- The stand of a core that has read a line at a home elsewhere applies every write that the home's clock covers
(11 R246). -/
def sawHome (stand : Nat) (ls : List Loc) (s : State) : State :=
  match ls with
  | .pa a mt :: _ => if mt != 2 && s.ownPa a && paStand a != stand then applyUpTo stand (s.clockOf (paStand a)) s else s
  | _ => s

/-- A thread as a party to the accesses that it has queued. -/
def Thread.whoAt (t : Thread) (priv : Nat) : Who :=
  { part := t.task.part, core := some t.core, grove := some (groveOfCore t.core), priv := priv, stand := some (standOfCore t.core) }

/-- D is set in the leaf of a CAS that stores (09 R225, 11 R261). -/
def markStored (t : Thread) (op : AtomOp) (s : State) : State :=
  match resolve (t.whoAt op.priv) .write op.va.toNat s with
  | .ok (_, s) => s
  | .error _ => s

/-- An atomic or reduction acts on its places, indivisibly (11 R261); the value returned is the old one, and the issuing
core's L1 loses the line (11 R260). -/
def applyAtom (t : Thread) (op : AtomOp) (ls : List Loc) (s : State) : State :=
  let n := 8 * op.width
  let s := settleRows ls s
  let old := s.homeLocs ls
  let src := op.operand.toNat % 2 ^ n
  let (new, fl, stores) :=
    if op.kind = 1 then (src, (0 : Flags), decide (old = op.expected.toNat % 2 ^ n))
    else if op.kind = 2 || op.kind = 4 then
      let (w, f) := atomFloat op.op old src
      (w, f, true)
    else (atomInt op.op n old src, 0, true)
  let stand := standOfCore t.core
  let s := if op.kind = 1 && stores then markStored t op s else s
  let s := if stores then storeLocs { stand := stand, clocks := op.clocks, tid := t.id } ((ls.zip (leBytes op.width new)).map (storable s)) s
    else s
  let s := ls.foldl (fun s l => dropL1 t.core l s) (sawHome stand ls s)
  let s := s.orAew { stand := stand, tid := t.id } t.task.part fl
  match op.load with
  | some l => s.fillLoad t.id l (.data (BitVec.ofNat 1024 old) false)
  | none => s

/-- A returning atomic acts at the places resolved at issue; a reduction resolves its address at its home, and a fault
there goes to its thread's log (11 R260, R266). -/
def performAtom (t : Thread) (op : AtomOp) (s : State) : State :=
  match op.load with
  | some l =>
    if op.locs.any (peerGone s) then s.fillLoad t.id l (.error op.va 12) else applyAtom t op op.locs s
  | none =>
    match resolve (t.whoAt op.priv) .write op.va.toNat s with
    | .error f => logReduction t.id op f.cause s
    | .ok (l, s) =>
      let ls := (List.range op.width).map l.plus
      match settleBad (s.bad.length + 1) ls s with
      | .error (_, b, s) => logReduction t.id op 0x12 (retire b s)
      | .ok s => applyAtom t op ls s

/-! ### Acquires (11 R249-R253) -/

/-- What an acquire at a scope by a core's thread does beside what it orders: at .grove or wider its L1 is invalidated, at
.stand or wider a fused one too (09 R218). -/
def acquireL1 (scope core : Nat) (s : State) : State :=
  if scope = 0 then s else clearL1 (decide (2 ≤ scope)) core s

/-- An acquiring event at .pkg or wider by a core's thread (R249): its stand has applied what the event's cause follows,
all that is on its way. -/
def acquireAt (core : Nat) (s : State) : State := acquireL1 3 core (syncStand (standOfCore core) s)

end Sys2Proof.Machine
end

