-- ==== Sys2Proof/Machine/Operands.lean ====
section
/-!
DEFINITION. Operand forms: sign-extended immediates, branch targets, scalar and deck-relative addresses (09 R231, R232,
08 R192), deck control blocks (08 R189), modifiers and modes (03 R60, 04 R85), and tag groups (02 R27).
-/
namespace Sys2Proof.Machine

open Sys2Proof

/-! ### Traps -/

/-- What a precise trap records (06 R155): the cause, TRAPOP's field index and value, TRAPA, TRAPV, whether TRAPPC is
the next instruction, and the word TRAPI shows when it is not the instruction's own; and the storage that a data error
retires (09 R229). -/
structure Trap where
  cause : Nat
  fidx : Nat := 0
  fval : Nat := 0
  a : Word := 0
  v : Word := 0
  next : Bool := false
  word : Option (BitVec 32) := none
  bad : Option BadStorage := none
deriving DecidableEq, Repr

/-- What the checks of an instruction give: the state they leave, or the trap to take. -/
abbrev Checked (α : Type) := Except Trap α

/-- A trap unless a condition holds. -/
def need (c : Bool) (t : Trap) : Checked Unit := if c then .ok () else .error t

/-- The trap of a refused access (09 R230): the cause with the field that names its address, the register in va or a
(index 3) or, of a gather or scatter lane, in vb (index 4). A data error names no field, and the ranges of scratchpad name
index 3 for every form. -/
def Flt.trap (f : Flt) (fidx fval base va : Nat) : Trap :=
  let field : Nat × Nat := if f.cause = 0x12 then (0, 0) else if f.cause = 0x13 then (3, base) else (fidx, fval)
  { cause := f.cause, fidx := field.1, fval := field.2, a := BitVec.ofNat 64 va, v := BitVec.ofNat 64 f.tv, bad := f.bad }

/-- The data-error trap of storage that cannot be read (09 R229). -/
def BadStorage.trap (b : BadStorage) (va : Word) : Trap :=
  { cause := 0x12, a := va, v := BitVec.ofNat 64 b.tv, bad := some b }

/-- The storage that a trap found bad is retired (09 R229). -/
def retireTrap (t : Trap) (s : State) : State :=
  match t.bad with
  | some b => retire b s
  | none => s

/-! ### Immediates and modes -/

/-- A signed immediate as 64 bits. -/
def imm64 {n : Nat} (i : BitVec n) : Word := i.signExtend 64

/-- The offset of a branch: twice a signed immediate (06 R147). -/
def branchOffset {n : Nat} (i : BitVec n) : Word := imm64 i <<< 1

/-- The effective mode of a field (03 R60): DYN reads FCSR. -/
def Thread.mode (t : Thread) (m : BitVec 3) : Mode := Mode.ofCode (if m = 7 then (t.fcsr.extractLsb' 5 3).toNat else m.toNat)

/-- What the focus thread draws random bits from (03 R64). -/
def Thread.drawOf (t : Thread) : Draw := { jseed := t.jseed, lcid := t.lcid, src := t.src }

/-- The fields of a modifier word (04 R85). -/
def Modifier.ofWord (w : BitVec 32) : Modifier :=
  { nega := w.getLsbD 10, absa := w.getLsbD 11, negb := w.getLsbD 12, absb := w.getLsbD 13
    scale := (w.extractLsb' 14 6).toInt, sat := (w.extractLsb' 20 2).toNat }

/-- The modifier that the instruction in flight carries; without one every field is 0. -/
def Thread.modifier (t : Thread) : Modifier := (t.modLatch.map Modifier.ofWord).getD {}

/-- The address of the instruction in flight: its modifier word's where it has one (04 R86). -/
def Thread.instrPc (t : Thread) : Word := if t.modLatch.isSome then t.pc - 4 else t.pc

/-! ### Tag groups (02 R27) -/

/-- Tags of a size code. -/
def groupSize (code : Nat) : Nat :=
  match code % 4 with
  | 0 => 0 | 1 => 4 | 2 => 8 | _ => 16

/-- The bits of n tags from a base. -/
def tagBits (base n : Nat) : Word := BitVec.ofNat 64 ((2 ^ n - 1) * 2 ^ base)

/-- The bits of a thread's tag group. -/
def Thread.tagMask (t : Thread) : Word :=
  if t.tagged then tagBits t.ctgb.toNat (groupSize t.task.ctags) else 0

/-- A tag lies in the thread's group. -/
def Thread.ownsTag (t : Thread) (tag : Nat) : Bool := tag < 64 && t.tagMask.getLsbD tag

/-- The base of the lowest free group of a size, none when there is none. -/
def freeGroup (allot : Word) (n : Nat) : Option Nat :=
  if n = 0 then some 0
  else ((List.range (64 / n)).map (· * n)).find? fun b => allot &&& tagBits b n = 0

/-! ### Decks (08 R189) -/

/-- A control block as read from the local store it lies in. -/
structure Deck where
  core : Nat
  off : Nat
  base : Nat
  size : Nat
  n : Nat
  head : Nat
  tail : Nat
  fill : Nat
  /-- slots that may be filled -/
  room : Nat
  ovfh : Bool
  ovfa : Nat
deriving DecidableEq, Repr

/-- Reads a control block. -/
def deckAt (core off : Nat) (s : State) : Deck :=
  let bs := (s.core core).ls.readN off 32
  let n := leField bs 4 1 + 1
  let fill := leField bs 8 2 % 512
  { core := core, off := off, base := leField bs 0 3, size := 32 * 2 ^ (leField bs 3 1 % 4), n := n
    head := leField bs 5 1, tail := leField bs 6 1, fill := fill, room := n - fill, ovfh := leField bs 11 1 % 2 = 1
    ovfa := leField bs 16 8 }

/-- The slots of a deck in advances that some queue holds: of those that publish or of those that free, of a thread (some)
or of every thread of the core (none). -/
def heldSlots (d : Deck) (publish : Bool) (tid : Option Nat) (s : State) : Nat :=
  ((s.all.filter fun t => t.core = d.core && (tid = none || tid = some t.id)).flatMap fun t => t.sq.map fun e => match e with
    | .advance _ p core off c => if p = publish && core = d.core && off = d.off then c else 0
    | _ => 0).sum

/-- A deck as a thread finds it (08 R190, R193): its own advances that still wait for what goes before them count for it.
The slots of another's waiting DADVC are no longer there to be taken, those of another's waiting DADVP not yet there to be
read nor to be filled. -/
def deckView (tid : Nat) (d : Deck) (s : State) : Deck :=
  let freed := heldSlots d false none s
  let given := heldSlots d true none s
  { d with
    head := (d.head + freed) % d.n, tail := (d.tail + given) % d.n
    fill := d.fill + heldSlots d true (some tid) s - freed, room := d.n - d.fill + heldSlots d false (some tid) s - given }

/-- A control block as a unit finds it that would advance it, to publish or to free: while a thread's advance of the kind
waits, nothing there is to be read or filled, so that the advances of a deck stay in order (08 R193). -/
def unitDeck (publish : Bool) (core off : Nat) (s : State) : Deck :=
  let d := deckAt core off s
  if heldSlots d publish none s = 0 then d else { d with fill := 0, room := 0 }

/-- The deck threshold that a crossbar watches for a core (17 R344): control block and FILL. -/
def deckThreshold (x : Evx) (core : Nat) : Option (Nat × Nat) :=
  let v := leField x.image (432 + 8 * (core % 16)) 8
  if v / 2 ^ 63 % 2 = 1 then some (v % 2 ^ 24, v / 2 ^ 24 % 512) else none

/-- The pulse of a deck whose FILL rises to its threshold (17 R339). -/
def pulseDeck (d : Deck) (old : Nat) (s : State) : State :=
  match deckThreshold (s.grove (groveOfCore d.core)).evx d.core with
  | some (off, th) => if off = d.off ∧ old < th ∧ th ≤ d.fill then s.pulse d.core (groveOfCore d.core) (20 + d.core % 16) else s
  | none => s

/-- Writes a control block's live fields: HEAD, TAIL, FILL and OVFH; spinners on its line see the write, and
the crossbar a threshold that FILL reaches. -/
def deckStore (d : Deck) (s : State) : State :=
  let old := (deckAt d.core d.off s).fill
  let x := s.core d.core
  let ls := x.ls.writeN (d.off + 5) (leBytes 1 d.head ++ leBytes 1 d.tail)
  let ls := ls.writeN (d.off + 8) (leBytes 2 d.fill)
  let ls := ls.writeN (d.off + 11) (leBytes 1 (if d.ovfh then 1 else 0))
  pulseDeck d old (wakeSpinners (sameLine (.ls d.core d.off)) (s.setCore d.core { x with ls := ls }))

/-- Frees c slots (R190 DADVC). -/
def deckConsume (c : Nat) (d : Deck) : Deck :=
  { d with head := (d.head + c) % d.n, fill := d.fill - c, room := d.room + c }
/-- Publishes c slots (R190 DADVP). -/
def deckPublish (c : Nat) (d : Deck) : Deck :=
  { d with tail := (d.tail + c) % d.n, fill := d.fill + c, room := d.room - c }

/-- The local-store offset of byte o counted from HEAD or TAIL (08 R192). -/
def deckByte (d : Deck) (fromHead : Bool) (o : Nat) : Nat :=
  d.base + (((if fromHead then d.head else d.tail) + o / d.size) % d.n) * d.size + o % d.size

/-- A control block that a handle may be bound to (R191): it lies in the local store and its slots fit. -/
def deckValid (core off : Nat) (s : State) : Bool :=
  let d := deckAt core off s
  off % 32 = 0 && decide (off + 32 ≤ 0x20000) && decide (d.base + d.n * d.size ≤ 0x20000)

/-- The deck a handle is bound to, or the deck-misuse trap that names the handle's field (R191). -/
def boundDeck (s : State) (h : BitVec 3) (fidx : Nat) (v : Word) : Checked Deck :=
  match s.th.decks[h.toNat]'h.isLt with
  | some off => .ok (deckView s.th.id (deckAt s.th.core off s) s)
  | none => .error { cause := 9, fidx := fidx, fval := h.toNat, v := v }

/-- The window address of a control block (09 R216). -/
def cbAddr (off : Nat) : Word := BitVec.ofNat 64 (windowBase + off)

/-- The place of a deck-relative access (08 R192): a load counts from HEAD, a store from TAIL. `fimm` is the value of the
offset's field. -/
def deckPlace (s : State) (h : BitVec 3) (o : Int) (width : Nat) (load : Bool) (fimm : Nat) : Checked (List Loc) := do
  let v := BitVec.ofInt 64 o
  let d ← boundDeck s h 3 v
  let bad : Trap := { cause := 9, fidx := 6, fval := fimm, a := cbAddr d.off, v := v }
  need (0 ≤ o) bad
  let o := o.toNat
  need (decide (o + width ≤ (if load then d.fill else d.room) * d.size)) bad
  .ok ((List.range width).map fun i => Loc.ls d.core (deckByte d load o + i))

/-! ### Checked accesses of the focus thread -/

/-- A span of bytes checked and translated as R230 orders, alignment first; the trap names a field. -/
def spanPlace (k : Access) (va : Word) (len align fidx fval : Nat) (s : State) : Checked (List Loc × State) :=
  if va.toNat % align ≠ 0 then .error { cause := 2, fidx := fidx, fval := fval, a := va }
  else match resolveSpan s.who k (len / 2048 + 2) va.toNat len s with
    | .ok (sp, s) => .ok (spanLocs sp, s)
    | .error (f, a) => .error (f.trap fidx fval fval a)

/-- A data error among places from an address (09 R228, R229): faults that the retry cures are only counted; the first that
it does not is the precise data-error trap. -/
def checkData (va : Word) (ls : List Loc) (s : State) : Checked State :=
  match settleBad (s.bad.length + 1) ls s with
  | .ok s => .ok s
  | .error (i, b, _) => .error (b.trap (va + BitVec.ofNat 64 i))

/-- Whether an array command writes memory (12 R277, R279). -/
def ArrayCmd.stores (c : ArrayCmd) : Bool :=
  match c.instr with
  | .mdrain .. | .mswap .. => true
  | _ => false

/-- The places an array command touches. -/
def ArrayCmd.places (c : ArrayCmd) : List Loc := spanLocs c.locs

/-- An array command touches memory or a deck. -/
def ArrayCmd.accesses (c : ArrayCmd) : Bool := !c.locs.isEmpty || !c.decks.isEmpty

/-- The commands of a thread in its quad's array queue. -/
def State.cmdsOf (s : State) (t : Thread) : List ArrayCmd :=
  (s.array (arrayOfCore t.core)).aq.filter fun c => c.tid == t.id

/-- The commands of the focus thread in its quad's array queue. -/
def State.ownCmds (s : State) : List ArrayCmd := s.cmdsOf s.th

/-- The commands of a thread in every array queue. -/
def State.threadCmds (s : State) (tid : Nat) : List ArrayCmd := s.arrays.flatMap fun p => p.2.aq.filter fun c => c.tid == tid

/-- The array commands of the focus thread that touch some of the places. -/
def State.ownCmdsOn (s : State) (ls : List Loc) : List ArrayCmd := (s.threadCmds s.th.id).filter fun c => overlaps c.places ls

end Sys2Proof.Machine
end

