-- ==== Sys2Proof/Machine/Order.lean ====
section
/-!
DEFINITION. The accesses of a thread that are not yet performed, and the order in which they may be (11 R242-R255, 12 R270):
loads, stores, line operations, deck advances and atomics stand in the thread's queues with their places in program order,
and each is performed, at its home or short of it, in a step of its own.
-/
namespace Sys2Proof.Machine

open Sys2Proof

/-! ### What is outstanding -/

/-- The places that a load still has to read. -/
def Load.places (l : Load) : List Loc :=
  match l.val with
  | .reading _ todo _ => todo.flatMap (·.locs)
  | .acting (.late _ _ _ ls) => ls
  | _ => []

/-- A load has not read all its places. -/
def Load.unread (l : Load) : Bool :=
  match l.val with
  | .reading .. | .acting (.late ..) => true
  | _ => false

/-- The 64 places of a place's line. -/
def Loc.line (l : Loc) : List Loc :=
  let start : Loc := match l with
    | .ls c o => .ls c (o / 64 * 64)
    | .sp g o => .sp g (o / 64 * 64)
    | .pa a m => .pa (a / 64 * 64) m
  (List.range 64).map start.plus

/-- The places a store still has to write. -/
def QStore.places (q : QStore) : List Loc := q.parts.flatMap (·.locs)

/-- The places that an entry of a store queue touches: a deck advance its control block. -/
def StoreEntry.places : StoreEntry → List Loc
  | .store q => q.places
  | .line _ _ l _ => l.line
  | .advance _ _ core off _ => (List.range 32).map fun i => .ls core (off + i)
  | .record _ addr .. => recordPlaces addr
  | .live .. | .mark _ => []

/-- An entry's place in program order. -/
def StoreEntry.no : StoreEntry → Nat
  | .store q => q.no
  | .line no .. | .advance no .. | .record no .. | .live no _ | .mark no => no

/-- An entry is a mark. -/
def StoreEntry.isMark : StoreEntry → Bool
  | .mark _ => true
  | _ => false

/-- A number in its place in a rising list. -/
def insertNo (n : Nat) : List Nat → List Nat
  | [] => [n]
  | x :: xs => if n ≤ x then n :: x :: xs else x :: insertNo n xs

/-- The numbers of a thread's outstanding accesses, in program order. -/
def Thread.outstanding (t : Thread) : List Nat :=
  ((t.loads.filter Load.unread).map (·.id) ++ t.atq.map (·.no) ++ (t.sq.filter fun e => !e.isMark).map (·.no)).foldr insertNo []

/-! ### The order (11 R249) -/

/-- A place in another package. -/
def farPlace (s : State) : Loc → Bool
  | .pa a _ => !s.ownPa a
  | _ => false

/-- An access to another package, which below .dom nothing but a fence waits for (11 R248). -/
def farAccess (s : State) (ls : List Loc) : Bool := !ls.isEmpty && ls.all (farPlace s)

/-- An earlier acquire of the thread that an access to places comes behind has not read its value (11 R249); below .dom an
acquire says nothing of another package (R248). -/
def acquireOpen (s : State) (t : Thread) (no : Nat) (ls : List Loc) : Bool :=
  t.loads.any fun l => l.id < no && l.unread && (match l.acq with
    | some c => decide (4 ≤ c) || !(farAccess s ls || farAccess s l.places)
    | none => false)

/-- An earlier access of the thread that touches some of the places is not performed. -/
def earlierOverlap (s : State) (t : Thread) (no : Nat) (ls : List Loc) : Bool :=
  t.loads.any (fun l => l.id < no && overlaps l.places ls) || t.atq.any (fun o => o.no < no && overlaps o.locs ls)
    || t.sq.any (fun e => e.no < no && overlaps e.places ls)
    || (s.threadCmds t.id).any fun c => c.id < no && overlaps c.places ls

/-- Nothing earlier keeps an access to places from being performed: no acquire, and no access to the same bytes. -/
def mayPerform (s : State) (t : Thread) (no : Nat) (ls : List Loc) : Bool :=
  !acquireOpen s t no ls && !earlierOverlap s t no ls

/-- How far an entry of a queue is performed satisfies a scope (11 R243): short of its home at .core or .grove. -/
def entryDone (scope : Nat) : StoreEntry → Bool
  | .store q => (scope = 0 && decide (1 ≤ q.lvl)) || (scope = 1 && q.lvl = 2)
  | .mark _ => true
  | _ => false

/-- The numbers of a thread's accesses before a number that are not performed at a scope, its array commands among them;
those that `apart` names do not count. -/
def openAccesses (apart : List Loc → Bool) (scope : Nat) (t : Thread) (no : Nat) (s : State) : List Nat :=
  ((t.loads.filter fun l => l.unread && !apart l.places).map (·.id) ++ (t.atq.filter fun o => !apart o.locs).map (·.no)
    ++ (t.sq.filter fun e => !entryDone scope e && !apart e.places).map (·.no)
    ++ ((s.threadCmds t.id).filter ArrayCmd.accesses).map (·.id)).filter (· < no)

/-- What the threads of other slots have stored short of its home where a thread's loads would find it (11 R243): what is
performed in the L1 of its core, and what is performed for its grove. -/
def raisedSeen (s : State) (t : Thread) : List (Thread × Nat × QStore) :=
  (s.all.filter fun u => u.id ≠ t.id && groveOfCore u.core = groveOfCore t.core && !u.sq.isEmpty).flatMap fun u =>
    u.sq.zipIdx.filterMap fun e => match e.1 with
      | .store q => if q.lvl = 2 || (q.lvl = 1 && u.core = t.core) then some (u, e.2, q) else none
      | _ => none

/-- What others have stored and the thread may have read is performed as far as a release of its own at a scope carries it
(11 R251). -/
def carried (s : State) (t : Thread) (scope : Nat) : Bool :=
  (raisedSeen s t).all fun r => scope = 0 || (scope = 1 && r.2.2.lvl = 2)

/-- Every access of a thread before a number is performed at a scope (11 R249, R252, 12 R270), but for those to another
package below .dom (R248). -/
def performedBefore (s : State) (tid no scope : Nat) : Bool :=
  (decide (scope < 5) || !(s.wt.any fun p => p.2.2.contains tid))
    && (match s.thread? tid with
      | some t => (openAccesses (fun ls => decide (scope < 4) && farAccess s ls) scope t no s).isEmpty && carried s t scope
      | none => (s.threadCmds tid).all fun c => !(c.id < no && c.accesses))

/-- A store's release, if it is one, is satisfied (09 R232). -/
def releaseReady (s : State) (t : Thread) (q : QStore) : Bool :=
  match q.rel with
  | some c => performedBefore s t.id q.no c
  | none => true

/-! ### Stores, line operations and advances -/

/-- A queue without entry i. -/
def eraseEntry (i : Nat) (sq : List StoreEntry) : List StoreEntry := sq.eraseIdx i

/-- A thread's entry i is another. -/
def putEntry (tid i : Nat) (e : StoreEntry) (s : State) : State := s.onThread tid fun t => { t with sq := t.sq.set i e }

/-- The partial that a store carries reaches its record, in the step that performs the store's last piece, or the store short
of its home (09 R237, 17 R338, notes/assumptions/99.md). -/
def storePartialHome (part : Nat) (q : QStore) (s : State) : State :=
  match q.part with
  | some (h, p, e) => arrivePartial part h.toNat p e s
  | none => s

/-- Piece j of a store, entry i of a thread's queue, is performed at its home; with the last the entry goes, and its partial
arrives. -/
def storePiece (t : Thread) (i j : Nat) (q : QStore) (s : State) : State :=
  match q.parts[j]? with
  | none => s
  | some p =>
    let w : Writer := { stand := standOfCore t.core, clocks := q.clocks, tid := t.id }
    let rest := q.parts.eraseIdx j
    let s := if rest.isEmpty then s.onThread t.id fun t => { t with sq := eraseEntry i t.sq }
      else putEntry t.id i (.store { q with parts := rest }) s
    let s := coreStore t.task.part t.core w (p.bytes s) q.issuer s
    if rest.isEmpty then storePartialHome t.task.part q s else s

/-- Every piece of a store is performed at its home, in order. -/
def storeHome (tid : Nat) (no : Nat) : Nat → State → State
  | 0, s => s
  | n + 1, s =>
    match s.thread? tid with
    | none => s
    | some t =>
      match t.sq.findIdx? (fun e => e.no = no && !e.isMark) with
      | none => s
      | some i =>
        match t.sq[i]? with
        | some (.store q) => storeHome tid no n (storePiece t i 0 q s)
        | _ => s

/-- Two lists of places share a line of memory, or a place. -/
def shareLine (xs ys : List Loc) : Bool :=
  xs.any fun x => ys.any fun y => match x, y with
    | .pa a _, .pa b _ => lineOf a == lineOf b
    | x, y => x == y

/-- What others have stored short of its home, where a thread's loads would find it, is performed at its home: for the grove,
what shares a line with the places, since an L1 takes lines; with `deep` what shares a byte with them in the L1 of the core too;
all of it where `all` says so (11 R244, R251; notes/assumptions/131.md). -/
def settleRaised (t : Thread) (deep all : Bool) (ls : List Loc) (s : State) : State :=
  (raisedSeen s t).foldl (fun s r =>
    if all || (r.2.2.lvl = 2 && shareLine r.2.2.places ls) || (deep && overlaps r.2.2.places ls) then
      storeHome r.1.id r.2.2.no r.2.2.parts.length s
    else s) s

/-! ### Loads -/

/-- The byte a thread reads at a place: what another slot of its core has stored in the core's L1 (11 R243), else what the
core's load path gives. -/
def seenByte (raised : List (Thread × Nat × QStore)) (base : Byte) (l : Loc) : Byte :=
  raised.foldl (fun b r => r.2.2.parts.foldl (fun b p =>
    match p.locs.findIdx? fun x => overlaps [x] [l] with
    | some i =>
      let m := BitVec.ofNat 8 (p.mask >>> (8 * i))
      (b &&& ~~~m) ||| (BitVec.ofNat 8 (p.value >>> (8 * i)) &&& m)
    | none => b) b) base

/-- Places come within a stand's reach (11 R246): it takes replicas of lines homed elsewhere; a location of which no
replica is taken, at a memory controller, in another package or in a record area, is read only once the stand has applied what may have been released
through it. -/
def reachPlaces (stand : Nat) (ls : List Loc) (s : State) : State :=
  let bare (l : Loc) : Bool := match l with
    | .pa a mt => !cachable s a mt
    | _ => false
  let s := settleRows ls s
  fillReplicas stand ls (if ls.any bare then syncStand stand s else s)

/-- A unit of a stand reads places. -/
def standRead (stand : Nat) (ls : List Loc) (s : State) : List Byte × State :=
  let s := reachPlaces stand ls s
  (ls.map (s.readLoc stand), s)

/-- A thread's load path reads places (09 R218, R230), its core's L1 the lines: what is performed for its grove is at its home
before; an acquire at .grove or wider (`deep`) reads nothing that is only in the core's L1. -/
def readAs (t : Thread) (deep : Bool) (ls : List Loc) (s : State) : List Byte × State :=
  let s := settleRaised t deep false ls s
  let s := touchLines t.core ls (reachPlaces (standOfCore t.core) ls s)
  let raised := raisedSeen s t
  (ls.map fun l => seenByte raised (s.coreByte t.core l) l, s)

/-- A vector of lanes from values by lane; the others are 0. -/
def packLaneValues (vs : List (Nat × Nat)) : VWord :=
  BitVec.ofNat 1024 (packElems 32 ((List.range 32).map fun i => ((vs.find? fun p => p.1 = i).map (·.2)).getD 0))

/-- A loaded value as a register takes it. -/
def extendValue (sx : Bool) (width v : Nat) : Word := if sx then sext64 (8 * width) v else BitVec.ofNat 64 v

/-- The value of a load of a form from the pieces it has read. -/
def LoadForm.value (f : LoadForm) (got : List (Nat × Nat)) : VWord :=
  let piece (i : Nat) : Nat := ((got.find? fun p => p.1 = i).map (·.2)).getD 0
  match f with
  | .scalar sx width => (extendValue sx width (piece 0)).setWidth 1024
  | .lanes => packLaneValues got
  | .fp6 => BitVec.ofNat 1024 (packElems 8 ((List.range 32).map fun j => piece (j / 4) / 2 ^ (6 * (j % 4)) % 64))

/-- The values that a load's pieces have read, by index. -/
def pieceValues (got : List (LoadPart × Nat)) : List (Nat × Nat) := got.map fun p => (p.1.idx, p.2)

/-- An acquire's scope is .grove or wider. -/
def wideAcquire (acq : Option Nat) : Bool :=
  match acq with
  | some c => decide (1 ≤ c)
  | none => false

/-- One piece of a load is read (09 R230); no data come from a failed package (20 R386). -/
def readPart (tid id : Nat) (p : LoadPart) (s : State) : State :=
  match s.thread? tid with
  | none => s
  | some t =>
    match t.loads.find? (fun l => l.id = id) with
    | some ⟨_, _, .reading form todo got, _, _, acq⟩ =>
      if p.locs.any (peerGone s) then s.fillLoad tid id (.error p.va 12)
      else
        let (bs, s) := readAs t (wideAcquire acq) p.locs s
        let got := got ++ [(p, leNat bs)]
        let todo := todo.erase p
        if todo.isEmpty then
          let s := s.fillLoad tid id (.data (form.value (pieceValues got)) false)
          match acq with
          | some c => acquireL1 c t.core s
          | none => s
        else s.fillLoad tid id (.reading form todo got)
    | _ => s

/-- Every piece of a load is read. -/
def readLoad (tid id : Nat) (s : State) : State :=
  match (s.thread? tid).bind fun t => t.loads.find? fun l => l.id = id with
  | some l =>
    match l.val with
    | .reading form [] got => s.fillLoad tid id (.data (form.value (pieceValues got)) false)
    | .reading _ todo _ => todo.foldl (fun s p => readPart tid id p s) s
    | _ => s
  | none => s

/-- A load that has read some of the pieces among places, and not all, reads them anew: every byte of a line is as it was
before a DISCARD or as it is after it (09 R239), and of a locked row (14 R309). -/
def reread (hit : Loc → Bool) (l : Load) : Load :=
  match l.val with
  | .reading form todo got =>
    let (back, kept) := got.partition fun p => p.1.locs.any hit
    if todo.any (fun p => p.locs.any hit) then { l with val := .reading form (back.map (·.1) ++ todo) kept } else l
  | _ => l

/-- Every thread's loads among places that have read some of their pieces read them anew. -/
def rereadAll (hit : Loc → Bool) (s : State) : State :=
  let f (t : Thread) : Thread := { t with loads := t.loads.map (reread hit) }
  { s with th := f s.th, threads := s.threads.map f }

/-! ### At the homes -/

/-- The line's dirty data are dropped at the home (09 R239), with every copy in an L1 or replica, and it counts as a write.
W and M memory keep their data. -/
def discardLine (w : Writer) (a mt : Nat) (s : State) : State :=
  let line := lineOf a
  let s := rereadAll (fun l => match l with
    | .pa x _ => lineOf x = line
    | _ => false) s
  let s := if mt = 0 then { s with l2 := s.l2.filter fun p => lineOf p.1 ≠ line } else s
  let s := if mt = 2 then s else dropL1All line (dropReplicas line s)
  noteWrite a (if s.ownPa a && mt != 2 then stampWrite (paStand a) w [] s else s)

/-- A line operation of a thread, issued with the stands' clocks, acts at the home of its line (09 R239, R240). -/
def lineHome (t : Thread) (i : Nat) (discard : Bool) (l : Loc) (clocks : List (List Nat)) (s : State) : State :=
  let s := s.onThread t.id fun t => { t with sq := eraseEntry i t.sq }
  match l with
  | .pa a mt =>
    if discard then discardLine { stand := standOfCore t.core, clocks := clocks, tid := t.id } a mt s else writeBack (lineOf a) s
  | _ => s

/-- A deck advance of a thread is applied at the deck's home core (08 R190, R193). -/
def advanceHome (t : Thread) (i : Nat) (publish : Bool) (core off c : Nat) (s : State) : State :=
  let s := s.onThread t.id fun t => { t with sq := eraseEntry i t.sq }
  deckStore (if publish then deckPublish c (deckAt core off s) else deckConsume c (deckAt core off s)) s

/-- LIVE of a descriptor where it stands, 0 where it is not mapped. -/
def liveOf (part : Nat) (desc : Word) (s : State) : Nat := leNat (partRead part (desc.toNat + 16) 4 s)

/-- A graph node's task has ended (08 R212): LIVE falls at the descriptor, after everything the thread did. -/
def nodeEnd (part : Nat) (desc : Word) (s : State) : State :=
  let live := liveOf part desc s
  let s := usePart .hardware part (desc.toNat + 16) 4 s
  if live = 0 then s else hwStore part (desc.toNat + 16) (leBytes 4 (live - 1)) s

/-- The places of a deck's slots. -/
def Deck.slotArea (d : Deck) : List Loc := (List.range (d.n * d.size)).map fun i => Loc.ls d.core (d.base + i)

/-- An earlier load of the thread, or an array's read for it, from a deck's slots is outstanding (08 R193). -/
def readsDeck (s : State) (t : Thread) (no : Nat) (d : Deck) : Bool :=
  let inside (l : Loc) : Bool := match l with
    | .ls core o => core = d.core && d.base ≤ o && o < d.base + d.n * d.size
    | _ => false
  t.loads.any (fun l => l.id < no && l.places.any inside) || (s.threadCmds t.id).any fun c => c.id < no && c.places.any inside

/-- An advance may be applied (08 R193): DADVP as a release once all before it is performed, DADVC once every earlier load
from the deck's slots has returned; advances of one kind of a deck in order, those of other threads too. -/
def advanceReady (s : State) (t : Thread) (no : Nat) (publish : Bool) (core off : Nat) : Bool :=
  mayPerform s t no ((List.range 32).map fun i => Loc.ls core (off + i))
    && !(s.all.any fun u => u.core = core && u.sq.any fun e => match e with
      | .advance n p c o _ => n < no && p = publish && c = core && o = off
      | _ => false)
    && (if publish then performedBefore s t.id no 3 else !readsDeck s t no (deckAt core off s))

/-- What others have stored short of its home, and the thread could have read, shares a byte with the places. -/
def raisedOn (s : State) (t : Thread) (ls : List Loc) : Bool := (raisedSeen s t).any fun r => overlaps r.2.2.places ls

/-- Piece j of a store may be performed at its home: nothing earlier touches it, no other piece before it does, its release
is satisfied, and what the thread may have read of others there is at home before. -/
def pieceReady (s : State) (t : Thread) (q : QStore) (j : Nat) : Bool :=
  match q.parts[j]? with
  | some p => mayPerform s t q.no p.locs && releaseReady s t q && !raisedOn s t p.locs
      && !((q.parts.take j).any fun x => overlaps x.locs p.locs)
  | none => false

/-- An entry of a thread's queue may be performed: nothing earlier keeps it (11 R249), and what it waits for as a release, or
as an advance (08 R193), is done. -/
def entryMay (s : State) (t : Thread) : StoreEntry → Bool
  | .store q => mayPerform s t q.no q.places && releaseReady s t q
  | .line no _ l _ => mayPerform s t no l.line
  | .advance no p core off _ => advanceReady s t no p core off
  | .record no addr .. => mayPerform s t no (recordPlaces addr)
  | .live no _ => performedBefore s t.id no 3
  | .mark _ => false

/-- Entry i of a thread's queue may be performed at its home, what the thread may have read of others there being at home. -/
def entryReady (s : State) (t : Thread) (i : Nat) : Bool :=
  match t.sq[i]? with
  | some e => entryMay s t e && !raisedOn s t e.places
  | none => false

/-- The threads of a grove, but one, have nothing short of its home on the places. -/
def unraised (s : State) (t : Thread) (ls : List Loc) : Bool :=
  !(s.all.any fun u => u.id ≠ t.id && groveOfCore u.core = groveOfCore t.core && u.sq.any fun e => match e with
    | .store q => decide (1 ≤ q.lvl) && overlaps q.places ls
    | _ => false)

/-- A store may be performed short of its home, at level 1 or 2 (11 R243): not one that another package serialises. -/
def raiseReady (s : State) (t : Thread) (lvl : Nat) (q : QStore) : Bool :=
  decide (q.lvl < lvl) && !q.places.any (farPlace s) && entryMay s t (.store q) && unraised s t q.places

/-- A store is performed at a level short of its home; its partial arrives. -/
def raiseStore (t : Thread) (i lvl : Nat) (q : QStore) (s : State) : State :=
  storePartialHome t.task.part q (putEntry t.id i (.store { q with lvl := lvl, part := none }) s)

/-! ### Performing what is outstanding, in program order -/

/-- A queued store is performed at a scope: short of its home for .core and .grove, but for what another package serialises
(11 R243). -/
def storeAt (scope : Nat) (t : Thread) (i : Nat) (q : QStore) (s : State) : State :=
  if decide (scope ≤ 1) && !q.places.any (farPlace s) then
    if q.lvl < scope + 1 then raiseStore t i (scope + 1) q s else s
  else storeHome t.id q.no q.parts.length s

/-- An array command before a number still has to touch some of the places (12 R270). -/
def arrayBefore (s : State) (tid no : Nat) (ls : List Loc) : Bool :=
  (s.threadCmds tid).any fun c => c.id < no && overlaps c.places ls

/-- An entry of a thread's queue is performed at a scope. -/
def performEntry (scope : Nat) (t : Thread) (i : Nat) (e : StoreEntry) (s : State) : State :=
  let gone (s : State) : State := s.onThread t.id fun t => { t with sq := eraseEntry i t.sq }
  match e with
  | .store q => storeAt scope t i q s
  | .line _ discard l clocks => lineHome t i discard l clocks s
  | .advance _ p core off c => advanceHome t i p core off c s
  | .record _ addr h set issuer => recordHome t.task.part addr h set issuer (gone s)
  | .live _ desc => nodeEnd t.task.part desc (gone s)
  | .mark _ => s

/-- The scope at which an entry of a queue is a release, 0 where it is none or only one at .core: .pkg for a DADVP and for the
end of a graph node's task (11 R249, 08 R212). -/
def StoreEntry.releases : StoreEntry → Nat
  | .store q => q.rel.getD 0
  | .advance _ true .. | .live .. => 3
  | _ => 0

/-- What a thread itself has stored before a number, short of its home, on some places is performed at its home: overlapping
accesses are in order at every scope (11 R249). -/
def settleOwn (t : Thread) (no : Nat) (ls : List Loc) (s : State) : State :=
  t.sq.foldl (fun s e => match e with
    | .store q => if q.no < no && decide (1 ≤ q.lvl) && overlaps q.places ls then storeHome t.id q.no q.parts.length s else s
    | _ => s) s

/-- What must be done before an entry of a thread is performed: what is stored short of its home on its places, and all of
others' that a release carries (11 R244, R251); for one at .sys, what the thread stored is in DRAM (R252). -/
def beforeEntry (t : Thread) (e : StoreEntry) (s : State) : State :=
  let s := settleRaised t true (decide (e.releases ≠ 0)) e.places (settleOwn t e.no e.places s)
  if e.releases = 5 then writeThrough t.id s else s

/-- The outstanding access of a thread with a number is performed at a scope, if nothing before it keeps it. -/
def performNo (scope tid : Nat) (s : State) (no : Nat) : State :=
  match s.thread? tid with
  | none => s
  | some t =>
    match t.loads.find? (fun l => l.id = no && l.unread), t.atq.find? (fun o => o.no = no), t.sq.find? (fun e => e.no = no && !e.isMark) with
    | some l, _, _ =>
      let s' := settleOwn t no l.places s
      if mayNow s' no l.places then readLoad tid no s' else s
    | none, some o, _ =>
      let s' := settleRaised t true false o.locs (settleOwn t no o.locs s)
      if mayNow s' no o.locs then performAtom t o (s'.onThread tid fun t => { t with atq := t.atq.filter fun o => o.no ≠ no }) else s
    | none, none, some e =>
      let s' := beforeEntry t e s
      match s'.thread? tid with
      | some t =>
        match t.sq.findIdx? fun e => e.no = no && !e.isMark with
        | some i => if entryMay s' t e then performEntry scope t i e s' else s
        | none => s'
      | none => s
    | none, none, none => s
where
  mayNow (s : State) (no : Nat) (ls : List Loc) : Bool :=
    match s.thread? tid with
    | some t => mayPerform s t no ls
    | none => false

/-- Every access of a thread before a number that may be is performed at a scope, in program order, with what a release there
waits for beside (11 R249, R252). What must wait for an array command stays (12 R270). -/
def performBefore (scope tid no : Nat) (s : State) : State :=
  match s.thread? tid with
  | none => s
  | some t =>
    let scope := t.sq.foldl (fun m e => max m e.releases) scope
    let s := (t.outstanding.filter (· < no)).foldl (performNo scope tid) s
    let s := if scope = 0 then s else (raisedSeen s t).foldl (fun s r =>
      if scope = 1 && r.2.2.lvl = 2 then s else storeHome r.1.id r.2.2.no r.2.2.parts.length s) s
    if scope = 5 then writeThrough tid s else s

/-- Every access of a thread that may be is performed at a scope. -/
def performAt (scope tid : Nat) (s : State) : State := performBefore scope tid s.fresh s

/-- The atomics and reductions of a thread that may act do, with what must come before. -/
def performAtoms (tid : Nat) (s : State) : State :=
  match (s.thread? tid).bind fun t => t.atq.getLast? with
  | some o => performBefore 3 tid (o.no + 1) s
  | none => s

/-- What threads that have ended left in the store queue of a slot is performed: a thread that binds finds it empty
(11 R242). -/
def emptySlot (core : Nat) (slot : BitVec 2) (s : State) : State :=
  (s.all.filter fun t => t.isEnded && t.core = core && t.slot = slot && !t.sq.isEmpty).foldl (fun s t => performAt 3 t.id s) s

/-- What threads of a grove have stored for the grove to read, short of its home, is performed at its home where it shares a
byte with the places: before an engine or array of the grove reads or writes there (11 R243, R244). -/
def settleGrove (g : Nat) (ls : List Loc) (s : State) : State :=
  (s.all.filter fun t => groveOfCore t.core = g && !t.sq.isEmpty).foldl (fun s t =>
    t.sq.foldl (fun s e => match e with
      | .store q => if q.lvl = 2 && overlaps q.places ls then storeHome t.id q.no q.parts.length s else s
      | _ => s) s) s

/-! ### Queueing -/

/-- An entry is a store (11 R242). -/
def StoreEntry.isStore : StoreEntry → Bool
  | .store _ => true
  | _ => false

/-- The stores that a queue holds, FENCEL marks and what is no store apart (11 R242). -/
def storeCount (sq : List StoreEntry) : Nat := (sq.filter StoreEntry.isStore).length

/-- The oldest store of the focus thread's queue that may be performed. -/
def readyStore (s : State) : Option Nat :=
  (List.range s.th.sq.length).find? fun i => entryReady s s.th i && (s.th.sq[i]?.map StoreEntry.isStore).getD false

/-- Room for a store in the focus thread's queue of 16: where it is full the oldest store that may be performed is, or else
all that may be is. A store never holds its thread (09 R230): where none may be yet, behind an array command, it joins the
sixteen (notes/assumptions/96.md). -/
def makeRoom (s : State) : State :=
  if storeCount s.th.sq < 16 then s
  else match readyStore s with
    | some i => performNo 3 s.th.id s ((s.th.sq[i]?.map (·.no)).getD 0)
    | none => performAt 3 s.th.id s

/-- An entry with the next number joins the focus thread's queue. -/
def queueEntry (e : Nat → StoreEntry) (s : State) : State :=
  { s.onTh fun t => { t with sq := t.sq ++ [e s.fresh] } with fresh := s.fresh + 1 }

/-- The clocks that a write of the focus thread to places takes as it is issued (11 R246): none for one that an earlier
acquire, or the release it is, holds back, which is issued to its home when they let it. -/
def issueClocks (rel : Bool) (ls : List Loc) (s : State) : List (List Nat) :=
  if rel || acquireOpen s s.th s.fresh ls then [] else s.clocks

/-- The focus thread queues a store of pieces (11 R242). -/
def queueStore (rel : Option Nat) (parts : List StorePart) (part : Option (Word × Partial × LogEntry)) (issuer : LogEntry)
    (s : State) : State :=
  if parts.isEmpty then s
  else
    let s := makeRoom s
    queueEntry (fun no => .store { no := no, parts := parts, rel := rel, lvl := 0
                                   clocks := issueClocks rel.isSome (parts.flatMap (·.locs)) s, part := part, issuer := issuer }) s

/-- The focus thread's deck advance acts at once where nothing it waits for is outstanding, else it joins the queue. -/
def queueAdvance (publish : Bool) (d : Deck) (c : Nat) (s : State) : State :=
  if advanceReady s s.th s.fresh publish d.core d.off then
    let d := deckAt d.core d.off s
    deckStore (if publish then deckPublish c d else deckConsume c d) s
  else queueEntry (fun no => .advance no publish d.core d.off c) s

/-- The focus thread's STATA or STATC acts at once where nothing keeps it, else it joins the queue: neither holds the thread
(17 R335). -/
def queueRecord (addr h : Nat) (set : Option (Nat × Nat)) (issuer : LogEntry) (s : State) : State :=
  let ls := recordPlaces addr
  if mayPerform s s.th s.fresh ls then recordHome s.myPart addr h set issuer (settleRaised s.th true false ls s)
  else queueEntry (fun no => .record no addr h set issuer) s

/-! ### Reads that an instruction makes as it issues -/

/-- Something that an instruction of the focus thread cannot read places before is still to be done: an acquire, or an access
to the same bytes. -/
def readBlocked (s : State) (ls : List Loc) : Bool := !mayPerform s s.th s.fresh ls

/-- The numbers of what keeps an instruction of the focus thread from reading places as it issues. -/
def blockingWork (ls : List Loc) (s : State) : List Nat :=
  ((s.th.loads.filter fun l => (l.unread && l.acq.isSome) || overlaps l.places ls).map (·.id)
    ++ (s.th.atq.filter fun o => overlaps o.locs ls).map (·.no) ++ (s.th.sq.filter fun e => overlaps e.places ls).map (·.no)
    ++ (s.ownCmdsOn ls).map (·.id)).foldr insertNo []

/-- What the focus thread must have performed before an instruction reads places as it issues: its earlier accesses to the
same bytes, and acquires, with what comes before those. -/
def beforeReading (ls : List Loc) (s : State) : State :=
  if readBlocked s ls then
    let s := (blockingWork ls s).foldl (performNo 3 s.th.id) s
    if readBlocked s ls then performAt 3 s.th.id s else s
  else s

/-- What a load-path result waits for before it acts (12 R270): what its bytes come behind, and a replay, as a release at .pkg,
for all that the thread did before (08 R211), as a spawn does (R183). -/
def Acting.ready (a : Acting) (s : State) (t : Thread) (l : Load) : Bool :=
  match a with
  | .spawn .. => performedBefore s t.id l.id 3
  | .late (.greplay ..) _ _ ls => performedBefore s t.id l.id 3 && mayPerform s t l.id ls
  | .late _ _ _ ls => mayPerform s t l.id ls

end Sys2Proof.Machine
end

