-- ==== Sys2Proof/Machine/Ops.lean ====
section
/-!
DEFINITION. The operations that every family shares: taking a trap and returning from one (06 R155, R156, 18 R358),
moving past an instruction (06 R151), waits and holds (02 R33), the end of a thread (02 R28), results of fixed latency
and of the load path (02 R31, R33), reduction faults (11 R266), and the accounting of an issue (18 R359, 02 R29).
-/
namespace Sys2Proof.Machine

open Sys2Proof

/-! ### Moving past an instruction -/

/-- The loop-back test at the completion of an instruction at `at_` (06 R151): level 1, then level 0; the registers and
the next pc. -/
def loopBack (at_ next : Word) (t : Thread) : Thread :=
  let level0 (t : Thread) : Thread :=
    if at_ = t.le[0] && t.lc[0] ≠ 0 then
      if 1 < t.lc[0].toNat then { t with lc := t.lc.set 0 (t.lc[0] - 1), pc := t.lb[0] }
      else { t with lc := t.lc.set 0 0, pc := next }
    else { t with pc := next }
  if at_ = t.le[1] && t.lc[1] ≠ 0 then
    if 1 < t.lc[1].toNat then { t with lc := t.lc.set 1 (t.lc[1] - 1), pc := t.lb[1] }
    else level0 { t with lc := t.lc.set 1 0 }
  else level0 t

/-- The focus thread moves past an instruction of a length that did not redirect the pc. -/
def advance (len : Nat) (s : State) : State :=
  s.onTh fun t => { loopBack t.instrPc (t.pc + BitVec.ofNat 64 len) t with modLatch := none }

/-- The focus thread's pc is redirected (06 R147, R148): no loop-back happens. -/
def jumpTo (pc : Word) (s : State) : State := s.onTh fun t => { t with pc := pc, modLatch := none }

/-! ### Crews -/

/-- A crew dissolves (02 R43): every member goes on as an independent thread. -/
def dissolveCrew (crew : Nat) (s : State) : State :=
  let f (t : Thread) : Thread :=
    if t.crew && t.crewId == crew then { t with crew := false, det := false, cidx := 0, fwd := [] } else t
  { s with th := f s.th, threads := s.threads.map f }

/-- The focus thread is an attached follower of a crew (02 R41). -/
def Thread.attached (t : Thread) : Bool := t.crew && !t.det && t.cidx ≠ 0

/-! ### Streams (08 R202, R205) -/

/-- Flits of a route still on their way. -/
def flitsOf (s : State) (route : Nat) : Nat :=
  (s.msgs.filter fun e => match e.body with
    | .flit _ _ r _ => r == route
    | _ => false).length

/-- Free slots of a stream's outbound deck of 8: a slot is free again once its four flits have landed. -/
def outboundFree (s : State) (x : Stream) : Nat := 8 - (flitsOf s x.route + 3) / 4

/-- A stream of the focus thread closes: the closing marker follows its data, and the number is free at once. -/
def closeStream (i : Nat) (s : State) : State :=
  match s.th.streams.toList[i]? with
  | some x =>
    let s := if x.opened && !x.error then s.send s.th.id (.closeFlit x.tgt x.dcb x.route) else s
    s.onTh fun t => { t with streams := t.streams.setIfInBounds i {} }
  | none => s

/-- Every open stream closes. -/
def closeStreams (s : State) : State := closeStream 3 (closeStream 2 (closeStream 1 (closeStream 0 s)))

/-! ### The end of a thread -/

/-- The reduction-log entries of a thread that ends by a fault go to the asynchronous log (18 R358). -/
def discardReductions (s : State) : State :=
  s.th.redlog.foldl (fun s e =>
    s.logFault s.th.core s.myPart { s.th.entry 0x14 with
      addr := e.addr, value := e.operand, word := e.word, opnd := BitVec.ofNat 32 ((e.cause ||| 0x80) * 16) })
    (s.onTh fun t => t)

/-- What END waits for (02 R28): the thread's loads, atomics and copies. -/
def busyThread (s : State) (t : Thread) : Bool :=
  !t.loads.isEmpty || ((s.core t.core).tagOut &&& t.tagMask) ≠ 0 || !t.atq.isEmpty

/-- The focus thread ends (02 R28 step 3, 18 R358, 08 R205, R212): its streams close, its tags, frame, decks and slot are free;
a fault also empties its reduction log. What it has stored stays in the slot's store queue until it is performed; the task of
a graph node leaves there, behind it, the release at .pkg that counts LIVE down. A follower's end is not the end of the task
(02 R40). -/
def endFocus (cause : Nat) (s : State) : State :=
  let s := if cause = 0 then s else discardReductions s
  let s := closeStreams s
  let t := s.th
  let s := if t.crew && t.cidx = 0 then dissolveCrew t.crewId s else s
  let s := s.onCore fun c => { c with tagAllot := c.tagAllot &&& ~~~t.tagMask }
  let s := s.onTh fun t => { t with
    status := .ended cause, fc := [], decks := .replicate 8 none, tagged := false, redlog := [], redDropped := false, pend := []
    modLatch := none, uncounted := true, dying := none, crew := false, det := false, fwd := [] }
  match t.task.node, t.follower with
  | some d, false => performAt 3 t.id (queueEntry (fun no => .live no d) s)
  | _, _ => s

/-- A fault ends the focus thread: step 1 of R28 first, without step 2 (18 R358). -/
def dieFocus (cause : Nat) (s : State) : State :=
  let s := performAtoms s.th.id s
  if busyThread s s.th then
    s.onTh fun t => { t with status := .waiting .ending s.cycle, dying := some cause, uncounted := true }
  else endFocus cause s

/-! ### Traps -/

/-- TRAPOP of a trap: the field index and value (06 R137). -/
def Trap.opnd (t : Trap) : Word := BitVec.ofNat 64 ((t.fval % 256) * 16 + t.fidx % 16)

/-- The monitor's entry for a precise cause met in a handler (18 R358). -/
def nestedEntry (t : Trap) (back : Word) (th : Thread) : LogEntry :=
  { th.entry 0x1C with
    pc := back, addr := t.a, value := BitVec.ofNat 64 t.cause, word := t.word.getD th.ir.word, opnd := t.opnd.setWidth 32 }

/-- The thread as a trap leaves it, at the handler's first instruction (06 R155 steps 2 to 6); an attached follower
leaves its crew's stream of instructions (02 R41). -/
def enterHandler (t : Trap) (back tvec : Word) (shared : Bool) (th : Thread) : Thread :=
  { th with
    trapst := th.tstat shared
    trapc := BitVec.ofNat 64 t.cause
    trappc := back
    trapi := BitVec.ofNat 64 ((if th.ir.hasMod then th.ir.modw.toNat else 0) * 2 ^ 32 + (t.word.getD th.ir.word).toNat)
    trapop := t.opnd
    trapa := t.a
    trapv := t.v
    tsl := #v[th.lc[0], th.lc[1], th.lb[0], th.lb[1], th.le[0], th.le[1], th.erx.setWidth 64]
    lc := .replicate 2 0, lb := .replicate 2 0, le := .replicate 2 0, erx := 0
    priv := if th.priv = 0 then 1 else th.priv
    inh := true
    pc := tvec
    modLatch := none
    uncounted := true
    spin := []
    det := th.det || th.attached
    fwd := if th.attached then [] else th.fwd }

/-- A precise trap of the focus thread (06 R155); one met in a handler ends the thread and goes to the monitor's log
(18 R358). Storage that a data error found bad is retired (09 R229). -/
def takeTrap (t : Trap) (s : State) : State :=
  let s := flushPend (retireTrap t s)
  let back := if t.next then s.th.pc + 4 else s.th.instrPc
  if s.th.inh then dieFocus 0x1C (s.logMonitor (nestedEntry t back s.th))
  else (s.count 0x0D).onTh (enterHandler t back s.myCore.tvec s.shared)

/-- The outcome of a meaning whose checks may trap: the state it leaves, or the state the trap leaves. -/
def settle (s : State) (r : Checked State) : Outcome :=
  match r with
  | .ok s' => .next s'
  | .error t => .next (takeTrap t s)

/-- The thread after a return from its handler (06 R156); bit 0 of lb and le stays 0 (R131). -/
def leaveHandler (th : Thread) : Thread :=
  { th with
    lc := #v[th.tsl[0], th.tsl[1]], lb := #v[th.tsl[2] &&& ~~~1, th.tsl[3] &&& ~~~1]
    le := #v[th.tsl[4] &&& ~~~1, th.tsl[5] &&& ~~~1]
    erx := th.tsl[6].setWidth 32
    priv := if (th.trapst.extractLsb' 0 2).toNat < th.priv.toNat then th.trapst.extractLsb' 0 2 else th.priv
    inh := false
    pc := th.trappc
    modLatch := none }

/-- Return from a trap (06 R156): privilege first, then the pc's alignment, met while INH is 1. -/
def returnFromTrap (s : State) : Outcome :=
  if s.th.priv = 0 then .next (takeTrap { cause := 1, fidx := 5, fval := 1, v := 1 } s)
  else if s.th.trappc.getLsbD 0 then .next (takeTrap { cause := 2, a := s.th.trappc } s)
  else .next (s.onTh leaveHandler)

/-! ### Waits and holds -/

/-- The focus thread waits at its instruction, which will execute again (02 R33). -/
def waitFor (w : Wait) (s : State) : State :=
  s.onTh fun t => { t with status := .waiting w s.cycle, uncounted := true }

/-- The focus thread is held at its instruction until work completes; it does not park. -/
def holdFor (h : Hold) (s : State) : State := s.onTh fun t => { t with status := .holding h, uncounted := true }

/-- The numbers of what a thread has outstanding: its load-path results, its queued accesses and its array commands. -/
def workOf (s : State) (t : Thread) : List Nat :=
  t.loads.map (·.id) ++ t.atq.map (·.no) ++ (t.sq.filter fun e => !e.isMark).map (·.no)
    ++ ((s.threadCmds t.id).filter ArrayCmd.accesses).map (·.id)

/-- The focus thread is held until some of the work with given numbers is done. -/
def holdForWork (work : List Nat) (s : State) : State := holdFor (.other work) s

/-- Some of the work with given numbers is done. -/
def workDone (s : State) (t : Thread) (work : List Nat) : Bool := !(work.all (workOf s t).contains)

/-- What the accesses of the focus thread leave open at a scope once all that may be is performed (11 R253). -/
def openWork (scope : Nat) (s : State) : List Nat := openAccesses (fun _ => false) scope s.th s.fresh s

/-! ### Results -/

/-- A 32-bit instruction writes a scalar register with a latency (02 R31). -/
def writeS (lat : Nat) (d : BitVec 4) (x : Word) (s : State) : State := advance 4 (s.pushW lat (.s d x))

/-- A 16-bit instruction writes a scalar register with a latency. -/
def writeS16 (lat : Nat) (d : BitVec 4) (x : Word) (s : State) : State := advance 2 (s.pushW lat (.s d x))

/-- A result whose value is at hand comes back through the load path. -/
def loadS (len : Nat) (d : BitVec 4) (x : Word) (s : State) : State :=
  advance len (s.pushLoad (.s d) (.data (x.setWidth 1024) false))

/-- Instructions with effective mode SR advance SRC (03 R64). -/
def bumpSrc (m : Mode) (s : State) : State :=
  if m = .sr then (s.count 0x0E).onTh fun t => { t with src := t.src + 1 } else s

/-! ### Reduction faults (11 R266) -/

/-- The trap that the oldest entry of the reduction log gives, with the log without it. -/
def reductionTrap (s : State) : Option (Trap × State) :=
  match s.th.redlog with
  | [] => none
  | e :: r =>
    let last := r.isEmpty && s.th.redDropped
    some ({ cause := 0x14, fval := e.cause ||| (if last then 0x80 else 0), a := e.addr, v := e.operand, word := some e.word },
      s.onTh fun t => { t with redlog := r, redDropped := t.redDropped && !r.isEmpty })

/-- A deferred data error of an array read is taken in place of the instruction (12 R270, 18 R355). -/
def deferredError (s : State) (go : State → Outcome) : Outcome :=
  match s.th.dataErr with
  | some (a, v) => .next (takeTrap { cause := 0x12, a := a, v := v } (s.onTh fun t => { t with dataErr := none }))
  | none => go s

/-- The data-error check of places from an address (09 R229). -/
def dataChecked (va : Word) (ls : List Loc) (s : State) (go : State → Outcome) : Outcome :=
  match checkData va ls s with
  | .error t => .next (takeTrap t s)
  | .ok s => go s

/-- An instruction reads places as it issues, or takes the data-error trap (09 R229); what goes before is performed first,
and an array command that does holds the thread (12 R270, notes/assumptions/97.md). -/
def readChecked (va : Word) (ls : List Loc) (s : State) (go : List Byte → State → Outcome) : Outcome :=
  dataChecked va ls s fun s =>
    let s := beforeReading ls s
    if readBlocked s ls then .next (holdForWork (blockingWork ls s) s)
    else let (bs, s) := readAs s.th false ls s; go bs s

/-- An instruction whose result comes back through the load path reads places as it issues, or takes the data-error trap; where
something must come before, it reads them when that is done (12 R270), and its thread goes on. `go` has the load's number and
the bytes; `a` and `b` are the values of its registers. -/
def readOrLate (dest : LoadDest) (acq : Option Nat) (i : Instr) (a b : Word) (va : Word) (ls : List Loc) (s : State)
    (go : Nat → List Byte → State → Checked State) : Outcome :=
  dataChecked va ls s fun s =>
    let s := beforeReading ls s
    if readBlocked s ls then .next (advance 4 (s.pushAcquire acq dest (.acting (.late i a b ls))))
    else
      let (bs, s) := readAs s.th (wideAcquire acq) ls s
      settle s ((go s.fresh bs (s.pushLoad dest .waiting)).map (advance 4))

/-! ### Illegal instructions -/

/-- The illegal-instruction trap of a field (04 R95, R97). -/
def illegal (fidx fval : Nat) : Trap := { cause := 1, fidx := fidx, fval := fval }

/-- A refusal for privilege (06 R132). -/
def denied (fidx fval : Nat) : Trap := { cause := 1, fidx := fidx, fval := fval, v := 1 }

/-! ### The accounting of an issue -/

/-- The focus thread's instruction is counted as issued, at the privilege at which it was executed (17 R352, R353). -/
def countIssue (s : State) : State :=
  let s := countEvent s.th.core s.th.ir.priv 0x02 s
  if s.th.ir.len = 2 then countEvent s.th.core s.th.ir.priv 0x03 s else s

/-- The picker moves to the next slot (02 R29). -/
def nextSlot (s : State) : State := s.onCore fun c => { c with cur := c.cur + 1 }

/-- The focus thread's instruction has issued (18 R359, 02 R31): YDL counts down where the watchdog runs, the results on
their way come nearer by 1 + GAP, the counters count, SW moves the picker, and the thread is not ready for GAP cycles (02 R30).
A modifier word issues in the cycle of the instruction after it. An instruction that trapped or is held
does not count; nor does a modifier word on its own (04 R86). `reloads`: the instruction reloads YDL itself. -/
def finishIssue (reloads : Bool) (s : State) : State :=
  if s.th.modLatch.isSome && !s.th.uncounted then s
  else
  let s := { s with cycle := s.cycle + 1 }
  if s.th.uncounted then s.onTh fun t => { t with uncounted := false }
  else
    let s := countIssue s
    let s := if reloads then s.onTh fun t => { t with reloaded := s.fresh }
      else if s.myCore.wdog.getLsbD 0 then s.onTh fun t => { t with ydl := t.ydl - 1 } else s
    let s := if s.th.ir.sw then nextSlot s else s
    tick (1 + s.th.ir.gap) (s.onTh fun t => { t with ready := max t.ready s.cycle + t.ir.gap })

end Sys2Proof.Machine
end

