-- ==== Sys2Proof/Machine/Context.lean ====
section
/-!
DEFINITION. The thread context block of 4,096 bytes (18 R362): its bytes from a thread, and a thread from its bytes.
-/
namespace Sys2Proof.Machine

open Sys2Proof

/-- The values of a vector of words, n bytes each, lowest first. -/
def wordsBytes {w n : Nat} (k : Nat) (v : Vector (BitVec w) n) : List Byte := v.toList.flatMap fun x => leBytes k x.toNat

/-- Bytes filled up with zeros to a length. -/
def padTo (n : Nat) (bs : List Byte) : List Byte := (bs ++ zeroBytes (n - bs.length)).take n

/-- FLAGS of a context: VALID, PARKED, SPIN and HELD (R362). -/
def contextFlags (t : Thread) : Nat :=
  match t.status with
  | .ended _ => 0
  | .waiting .. => 1 + 8
  | .parked .. => 1 + 2 + 8
  | .spinning .. => 1 + 2 + 4
  | .queued (some _) => 1 + 2
  | _ => 1

/-- A reduction-log entry as 32 bytes, with whether entries were dropped after it. -/
def redBytes (dropped : Bool) (e : RedEntry) : List Byte :=
  padTo 32 (leBytes 8 e.addr.toNat ++ leBytes 8 e.operand.toNat ++ leBytes 4 e.word.toNat ++ leBytes 1 e.cause
    ++ leBytes 1 e.lane ++ leBytes 1 (1 + (if dropped then 2 else 0)))

/-- A reduction log's bytes: the last entry shows that entries were dropped. -/
def redlogBytes (t : Thread) : List Byte :=
  t.redlog.zipIdx.flatMap fun e => redBytes (t.redDropped && e.2 + 1 = t.redlog.length) e.1

/-- A stream's 8 bytes. -/
def streamBytes (x : Stream) : List Byte :=
  leBytes 8 (x.tgt % 65536 + 65536 * (x.dcb % 2 ^ 24) + (if x.error then 2 ^ 62 else 0) + (if x.opened then 2 ^ 63 else 0))

/-- The register part of a context, 2,560 bytes (R362). -/
def registerPart (shared : Bool) (t : Thread) : List Byte :=
  padTo 2560 (leBytes 1 (contextFlags t) ++ zeroBytes 3 ++ leBytes 4 t.task.ttag.toNat ++ leBytes 8 t.instrPc.toNat
    ++ leBytes 8 (t.tstat shared).toNat ++ (wordsBytes 8 t.s).drop 8 ++ wordsBytes 128 t.v ++ (wordsBytes 4 t.k).drop 4
    ++ leBytes 4 t.fcsr.toNat ++ wordsBytes 8 t.sc ++ wordsBytes 8 t.lc ++ wordsBytes 8 t.lb ++ wordsBytes 8 t.le
    ++ leBytes 4 t.erx.toNat ++ leBytes 8 t.src.toNat ++ leBytes 4 t.lcid.toNat ++ leBytes 8 t.jseed.toNat
    ++ leBytes 4 t.ydl.toNat ++ leBytes 4 (t.nearCount % 65536 + (if t.nearErrs.isEmpty then 0 else 65536))
    ++ leBytes 8 t.trapc.toNat ++ leBytes 8 t.trappc.toNat ++ leBytes 8 t.trapi.toNat ++ leBytes 8 t.trapop.toNat
    ++ leBytes 8 t.trapa.toNat ++ leBytes 8 t.trapv.toNat ++ leBytes 8 t.trapst.toNat ++ wordsBytes 8 t.tsl
    ++ wordsBytes 8 t.sscr
    ++ t.decks.toList.flatMap (fun d => leBytes 4 (match d with
        | some o => 2 ^ 31 + o % 2 ^ 24
        | none => 0))
    ++ t.streams.toList.flatMap streamBytes)

/-- The extension of a context, 1,536 bytes: frame cells and the reduction log. -/
def extensionPart (t : Thread) : List Byte :=
  padTo 1024 (t.fc.flatMap fun x => leBytes 4 x.toNat) ++ padTo 512 (redlogBytes t)

/-- A thread's context block. -/
def contextBytes (shared : Bool) (t : Thread) : List Byte := registerPart shared t ++ extensionPart t

/-- The context of a thread that migrates, 160 bytes (02 R45). -/
def migrationBytes (shared : Bool) (t : Thread) : List Byte :=
  (wordsBytes 8 t.s).drop 8 ++ leBytes 8 t.pc.toNat ++ leBytes 8 (t.tstat shared).toNat ++ leBytes 4 t.fcsr.toNat
    ++ leBytes 8 t.src.toNat ++ leBytes 4 t.lcid.toNat ++ leBytes 4 t.ydl.toNat ++ leBytes 4 t.task.ttag.toNat

/-- A vector of words from bytes. -/
def vectorAt (w n k off : Nat) (bs : List Byte) : Vector (BitVec w) n :=
  Vector.ofFn fun i => BitVec.ofNat w (leField bs (off + k * i.val) k)

/-- A reduction-log entry from its 32 bytes. -/
def redOf (bs : List Byte) : Option RedEntry :=
  if leField bs 22 1 % 2 = 1 then
    some { addr := BitVec.ofNat 64 (leField bs 0 8), operand := BitVec.ofNat 64 (leField bs 8 8)
           word := BitVec.ofNat 32 (leField bs 16 4), cause := leField bs 20 1, lane := leField bs 21 1 }
  else none

/-- A stream from its 8 bytes; the route is the one the thread's record had. -/
def streamOf (old : Stream) (v : Nat) : Stream :=
  { old with opened := v / 2 ^ 63 % 2 = 1, error := v / 2 ^ 62 % 2 = 1, tgt := v % 65536, dcb := v / 65536 % 2 ^ 24 }

/-- A thread as its migration context brings it to a core (02 R45, R46); what neither names is as it was (06 R129). -/
def migrated (core : Nat) (bs : List Byte) (t : Thread) : Thread :=
  let ts : Word := BitVec.ofNat 64 (leField bs 128 8)
  { t with
    core := core
    s := Vector.ofFn fun i => if i.val = 0 then 0 else BitVec.ofNat 64 (leField bs (8 * i.val - 8) 8)
    pc := BitVec.ofNat 64 (leField bs 120 8), inh := ts.getLsbD 2, priv := ts.extractLsb' 0 2
    fcsr := BitVec.ofNat 32 (leField bs 136 4), src := BitVec.ofNat 64 (leField bs 140 8), lcid := BitVec.ofNat 32 (leField bs 148 4)
    ydl := BitVec.ofNat 32 (leField bs 152 4), task := { t.task with ttag := BitVec.ofNat 32 (leField bs 156 4) }
    v := .replicate 16 0, k := .replicate 8 0, sc := .replicate 8 0, erx := 0
    lc := .replicate 2 0, lb := .replicate 2 0, le := .replicate 2 0, tagged := false }

/-- A thread whose registers are those of a context block (R362). -/
def loadContext (bs : List Byte) (t : Thread) : Thread :=
  let f (lo n : Nat) : Nat := leField bs lo n
  let w (lo : Nat) : Word := BitVec.ofNat 64 (f lo 8)
  let ts := w 16
  let frame := min 256 (ts.extractLsb' 32 9).toNat
  { t with
    task := { t.task with ttag := BitVec.ofNat 32 (f 4 4), pri := (ts.extractLsb' 24 2).toNat, ctags := (ts.extractLsb' 16 2).toNat }
    pc := w 8 &&& ~~~1
    ctgb := ts.extractLsb' 18 6, det := ts.getLsbD 11, crew := ts.getLsbD 10, cidx := ts.extractLsb' 6 4
    inh := ts.getLsbD 2, priv := if ts.extractLsb' 0 2 = 3 then 2 else ts.extractLsb' 0 2
    s := Vector.ofFn fun i => if i.val = 0 then 0 else BitVec.ofNat 64 (f (16 + 8 * i.val) 8)
    v := vectorAt 1024 16 128 144 bs
    k := Vector.ofFn fun i => if i.val = 0 then 0 else BitVec.ofNat 32 (f (2188 + 4 * i.val) 4)
    fcsr := fcsrMerge 0 (BitVec.ofNat 64 (f 2220 4))
    sc := (vectorAt 64 8 8 2224 bs).map fun x => scMerge 0 x
    lc := vectorAt 64 2 8 2288 bs, lb := (vectorAt 64 2 8 2304 bs).map (· &&& ~~~1), le := (vectorAt 64 2 8 2320 bs).map (· &&& ~~~1)
    erx := BitVec.ofNat 32 (f 2336 4), src := w 2340, lcid := BitVec.ofNat 32 (f 2348 4), jseed := w 2352
    ydl := BitVec.ofNat 32 (f 2360 4)
    nearCount := f 2364 2
    nearErrs := if f 2366 1 % 2 = 0 then [] else if t.nearErrs.isEmpty then [(0, 0)] else t.nearErrs
    trapc := w 2368, trappc := w 2376, trapi := w 2384, trapop := w 2392 &&& 0xFFF, trapa := w 2400, trapv := w 2408, trapst := w 2416
    tsl := vectorAt 64 7 8 2424 bs, sscr := vectorAt 64 2 8 2480 bs
    decks := Vector.ofFn fun i =>
      let v := f (2496 + 4 * i.val) 4
      if v / 2 ^ 31 = 1 then some (v % 2 ^ 24) else none
    streams := Vector.ofFn fun i => streamOf (t.streams[i.val]'i.isLt) (f (2528 + 8 * i.val) 8)
    fc := (List.range frame).map fun i => BitVec.ofNat 32 (f (2560 + 4 * i) 4)
    redlog := (List.range 16).filterMap fun e => redOf ((bs.drop (3584 + 32 * e)).take 32)
    redDropped := (List.range 16).any fun e => f (3606 + 32 * e) 1 % 4 = 3 }

end Sys2Proof.Machine
end

