-- ==== Sys2Proof/Machine/Queue.lean ====
section
/-!
DEFINITION. Tasks on their way to a slot: task records (02 R16, R17), dependence counters (R19-R23), run queues and spill
rings (R24, R25), parking (R34-R36), and binding (R18, R26, R27).
-/
namespace Sys2Proof.Machine

open Sys2Proof

/-! ### Task records (02 R16, R17) -/

/-- A partition's grant holds a core's grove. -/
def Part.hasCore (p : Part) (core : Nat) : Bool := isCore core && p.grant.groves.contains (groveOfCore core)

/-- A core that a partition is granted. -/
def State.granted (s : State) (part core : Nat) : Bool :=
  match s.part? part with
  | some p => p.hasCore core
  | none => false

/-- A record's bytes as a task and its count, or the byte offset of the first field R17 refuses. `self` is the core
that HOME 0x7FF names; where there is none, that HOME is refused. Reserved bits are ignored (R2). -/
def readRecord (granted : Nat → Bool) (part : Nat) (self : Option Nat) (rptr : Word) (bs : List Byte) : Except Nat (TaskDesc × Nat) :=
  let entry := leField bs 0 8
  let home := leField bs 20 2 % 2048
  let home := if home = 0x7FF then self else if granted home then some home else none
  let frame := leField bs 22 2 % 512
  let flags := leField bs 26 1
  if entry % 2 = 1 ∨ 2 ^ 57 ≤ entry then .error 0
  else match home with
    | none => .error 20
    | some h =>
      if 256 < frame then .error 22
      else .ok ({
        entry := BitVec.ofNat 64 entry, argp := BitVec.ofNat 64 (leField bs 8 8), home := h, frame := frame
        pri := leField bs 24 1 % 4, ydf := leField bs 25 1 % 64, far := flags % 2 = 1, nospin := flags / 2 % 2 = 1
        ctags := flags / 4 % 4, lcid := BitVec.ofNat 32 (leField bs 28 4), ttag := BitVec.ofNat 32 (leField bs 32 4)
        record := rptr, node := none, part := part }, leField bs 16 4)

/-! ### Run queues (02 R24, R25) -/

/-- The partition that a core belongs to. -/
def State.partOfCore (s : State) (core : Nat) : Option Part :=
  (s.parts.find? fun p => p.2.hasCore core).map (·.2)

/-- An entry joins the tail of a core's spill ring: its 16 bytes are written in partition memory, in a layout that the manual
does not give (notes/assumptions/35.md). -/
def joinSpill (core : Nat) (e : RunEntry) (s : State) : State :=
  let c := s.core core
  let s := s.setCore core { c with spill := c.spill ++ [e] }
  match s.partOfCore core with
  | some p => hwStore p.grant.part (c.rqsb.toNat + 16 * ((c.spillHead + c.spill.length) % 4096)) (freeBytes 16 s.free) s.draw
  | none => s

/-- An entry joins a core's run queue, or its spill ring, or waits inbound behind a full ring; the first that finds the
ring full reports it to the monitor (R25). -/
def enqueue (core : Nat) (e : RunEntry) (s : State) : State :=
  let c := s.core core
  if c.inbound.isEmpty && c.runq.length < 64 then s.setCore core { c with runq := c.runq ++ [e] }
  else if c.inbound.isEmpty && c.spill.length < 4096 then joinSpill core e s
  else
    let s := if c.inbound.isEmpty then s.logMonitor { cause := 0x1A, unit := 4 * core } else s
    s.setCore core { c with inbound := c.inbound ++ [e] }

/-- The oldest held message of a core enters its queue, or the ring, where there is room (R25). -/
def admitInbound (core : Nat) (s : State) : Option State :=
  let c := s.core core
  match c.inbound with
  | e :: r =>
    if c.runq.length < 64 && c.spill.isEmpty then some (s.setCore core { c with runq := c.runq ++ [e], inbound := r })
    else if c.spill.length < 4096 then some (joinSpill core e (s.setCore core { c with inbound := r })) else none
  | [] => none

/-- The hardware queue takes the oldest entry of the ring while it holds fewer than 48 entries, and held messages follow
(R24, R25). -/
def refillOne (core : Nat) (s : State) : Option State :=
  let c := s.core core
  match c.spill with
  | e :: r =>
    if c.runq.length < 48 then
      some (s.setCore core { c with runq := c.runq ++ [e], spill := r, spillHead := (c.spillHead + 1) % 4096 })
    else admitInbound core s
  | [] => admitInbound core s

/-- Refilling until nothing more moves. -/
def refill (core : Nat) : Nat → State → State
  | 0, s => s
  | n + 1, s => match refillOne core s with
    | some t => refill core n t
    | none => s

/-- The entry of a new task. -/
def taskEntry (t : TaskDesc) (ctr : CounterRef) (now : Nat) : RunEntry :=
  { what := .task t ctr, pri := t.pri, since := now, raised := now, ctags := t.ctags, hasTags := false }

/-- The entry of a thread that comes back, at its record priority. -/
def resumeEntry (t : Thread) (now : Nat) : RunEntry :=
  { what := .resume t.id, pri := t.task.pri, since := now, raised := now, ctags := t.task.ctags, hasTags := t.tagged }

/-! ### Dependence counters (02 R19-R23) -/

/-- Address of a far-pool entry of a home core. -/
def farAddr (s : State) (home idx : Nat) : Nat := (s.core home).fcpb.toNat + 16 * idx

/-- A counter entry's bytes: RPTR, COUNT, SEQ, STATE (R20). -/
def counterBytes (rptr : Word) (count seq state : Nat) : List Byte :=
  leBytes 8 rptr.toNat ++ leBytes 4 count ++ leBytes 2 seq ++ leBytes 1 state ++ leBytes 1 0

/-- The free entry of a core's task table that a search from a place meets first. -/
def freeNear (ls : Memory) (start : Nat) : Option Nat :=
  ((List.range 256).map fun i => (start + i) % 256).find? fun i => (ls.read (16 * i + 14)).toNat = 0

/-- The free entry of the far pool that a search from a place meets first. -/
def freeFar (s : State) (part home : Nat) : Nat → Nat → Option Nat
  | 0, _ => none
  | n + 1, i => if leNat (partRead part (farAddr s home i + 14) 1 s) = 0 then some i else freeFar s part home n ((i + 1) % 65536)

/-- A handle of a near counter (R21). -/
def nearHandle (core idx seq : Nat) : Word := BitVec.ofNat 64 (core * 2 + idx * 2 ^ 12 + seq % 65536 * 2 ^ 20)
/-- A handle of a far counter (R21). -/
def farHandle (addr seq : Nat) : Word := BitVec.ofNat 64 (1 + addr % 2 ^ 57 / 16 * 16 + seq % 128 * 2 ^ 57)

/-- Places the counter of a task in the home core's table. Which free entry serves is a free choice. -/
def placeNear (t : TaskDesc) (count : Nat) (s : State) : Option (Word × State) :=
  let c := s.core t.home
  match freeNear c.ls (s.freeBelow 256) with
  | none => none
  | some i =>
    let seq := leNat (c.ls.readN (16 * i + 12) 2)
    let ls := c.ls.writeN (16 * i) (counterBytes t.record count seq 1)
    some (nearHandle t.home i seq, s.draw.setCore t.home { c with ls := ls, tasks := Table.put i t c.tasks })

/-- Places the counter of a task in the partition's far pool. -/
def placeFar (t : TaskDesc) (count : Nat) (s : State) : Option (Word × State) :=
  let start := s.freeBelow 65536
  match freeFar s t.part t.home 65536 start with
  | none => none
  | some i =>
    let a := farAddr s t.home i
    let looked (i n : Nat) (s : State) : State := usePart .hardware t.part (farAddr s t.home i) (16 * n) s
    let s := if start ≤ i then looked start (i + 1 - start) s else looked 0 (i + 1) (looked start (65536 - start) s)
    let seq := leNat (partRead t.part (a + 12) 2 s)
    let s := hwStore t.part a (counterBytes t.record count seq 1) s.draw
    some (farHandle a seq, s.onPart t.part fun p => { p with far := Table.put i t p.far })

/-- Places a counter by R19: near unless FAR is set or the table is full, else far, in which spawns that wait already
come first. -/
def placeCounter (t : TaskDesc) (count : Nat) (s : State) : Option (Word × State) :=
  let waits := match s.part? t.part with
    | some p => !p.waits.isEmpty
    | none => false
  match (if t.far then none else placeNear t count s) with
  | some r => some r
  | none => if waits then none else placeFar t count s

/-- The requester as SENDER shows it (08 R207). -/
def senderCode (pkg rpart : Nat) : Nat := pkg + 1024 * rpart

/-- A sender outside the package's cores. -/
def outsideSender : LogEntry := { issuer := 0xFFFFFFFF }

/-- A packet stands at the tail of a landing queue: the place of its slot, and the partition. -/
def appendPacket (queue act : Nat) (bs : List Byte) (sender : LogEntry) (p : Part) : Nat × Part :=
  let l := p.landing.getD queue {}
  let l' := { l with
    packets := l.packets ++ [⟨bs, act, l.tail, sender, false⟩], tail := if l.tail + 1 < l.cap then l.tail + 1 else 0 }
  (l.base.toNat + 64 * l.tail, { p with landing := p.landing.set queue l' })

/-- A landing queue has room. -/
def Landing.roomy (l : Landing) : Bool := decide (l.packets.length < l.cap)

/-- The first landing queue with room (05 R126 step 6). -/
def roomyQueue (p : Part) : Option Nat := (List.range 16).find? fun q => (p.landing.getD q {}).roomy

/-- A launch packet of the loader for a root: NAMED for a task, REPLAY for a graph. -/
def rootPacket (entry : Nat) : List Byte :=
  leBytes 1 (if entry % 2 = 0 then 1 else 3) ++ zeroBytes 7 ++ leBytes 2 (senderCode 0x3FF 0) ++ zeroBytes 6
    ++ leBytes 8 (entry / 2 * 2) ++ zeroBytes 40

/-- The packets of the roots of launches stand in landing queues, in root-list order, as far as there is room; the loader's
packets count against no entry, and the others wait (notes/assumptions/70.md). -/
def submitRoots (part : Nat) : Nat → State → State
  | 0, s => s
  | n + 1, s =>
    match s.part? part with
    | none => s
    | some p =>
      match p.roots, roomyQueue p with
      | entry :: r, some q =>
        let bs := rootPacket entry
        let (at_, p) := appendPacket q 256 bs outsideSender { p with roots := r }
        submitRoots part n (hwStore part at_ bs (s.setPart part p))
      | _, _ => s

/-- The packet at the head of a landing queue is done: its slot is free and its requester's count falls (R209, 17
R349). Roots that waited for room follow (05 R126). -/
def popPacket (part queue : Nat) (s : State) : State :=
  submitRoots part 64 <| s.onPart part fun p =>
    let l := p.landing.getD queue {}
    match l.packets with
    | k :: r =>
      let act := match Table.find k.act p.act with
        | some e => Table.put k.act (BitVec.ofNat 128 (e.toNat - (if e.extractLsb' 48 13 = 0 then 0 else 2 ^ 48))) p.act
        | none => p.act
      { p with act := act, landing := p.landing.set queue { l with packets := r } }
    | [] => p

/-- The unit that creates a task, in the form of an envelope: the core of the thread that awaits its handle, or the landing
server. -/
def replyUnit (part : Nat) (reply : Reply) (s : State) : Nat :=
  match reply with
  | .load tid _ => s.srcOf tid
  | .packet q => landingUnit part q + 1
  | .none | .node .. => 0

/-- A task that counts nothing goes to its home core's run queue (02 R19), in a message of a unit. -/
def sendReady (src : Nat) (t : TaskDesc) (ctr : CounterRef) (s : State) : State :=
  s.sendFrom src 0 (.ready t.home (taskEntry t ctr s.cycle))

/-- A replay whose nodes all have their handles (08 R211): the successor handles are written, LIVE is set, the ready nodes
are queued, and the replay's own answer is 0. A successor that names no node gets a free value. -/
def finishReplay (part : Nat) (r : Replay) (s : State) : State :=
  let s := r.succ.foldl (fun s e =>
    let h : Word := (Table.find e.2 r.handles).getD (BitVec.ofNat 64 (Config.freeBits 64 s.free))
    (hwStore part (r.shnd + 8 * e.1) (leBytes 8 h.toNat) s).draw) s
  let s := hwStore part (r.desc.toNat + 16) (leBytes 4 r.nnode) s
  let s := r.ready.foldl (fun s t => sendReady (replyUnit part r.reply s) t .none s) s
  match r.reply with
  | .load tid l => s.fillLoad tid l (.data 0 false)
  | .packet q => popPacket part q s
  | _ => s

/-- A handle goes to what awaits it. -/
def deliverHandle (part : Nat) (reply : Reply) (h : Word) (s : State) : State :=
  match reply with
  | .none => s
  | .load tid l => s.fillLoad tid l (.data (h.setWidth 1024) false)
  | .packet q => popPacket part q s
  | .node desc j =>
    match (s.part? part).bind fun p => p.replays.find? fun r => r.desc = desc with
    | none => s
    | some r =>
      let r' := { r with handles := Table.put j h r.handles }
      if r'.handles.length = r.nnode then
        finishReplay part r' (s.onPart part fun p => { p with replays := p.replays.filter fun x => x.desc ≠ desc })
      else s.onPart part fun p => { p with replays := p.replays.map fun x => if x.desc = desc then r' else x }

/-- A task is created (R19, R183): one that counts nothing is ready at its home, a graph's node once the replay is
complete; one that counts takes a counter, or waits for one and is reported to the monitor. -/
def spawnTask (t : TaskDesc) (count : Nat) (reply : Reply) (s : State) : State :=
  if count = 0 then
    match reply with
    | .node .. => deliverHandle t.part reply 0 s
    | _ => deliverHandle t.part reply 0 (sendReady (replyUnit t.part reply s) t .none s)
  else match placeCounter t count s with
    | some (h, s) => deliverHandle t.part reply h s
    | none =>
      let s := s.logMonitor { cause := 0x11, unit := 4 * t.home, ttag := t.ttag, addr := t.record, value := BitVec.ofNat 64 t.home }
      s.onPart t.part fun p => { p with waits := p.waits ++ [⟨t, count, reply⟩] }

/-- A counter whose task binds is free again: its SEQ counts (R23). -/
def freeCounter (r : CounterRef) (part home : Nat) (s : State) : State :=
  match r with
  | .none => s
  | .near core i =>
    let c := s.core core
    let seq := leNat (c.ls.readN (16 * i + 12) 2)
    s.setCore core { c with ls := c.ls.writeN (16 * i + 12) (leBytes 2 (seq + 1) ++ [0]), tasks := Table.drop i c.tasks }
  | .far _ i =>
    let a := farAddr s home i
    let seq := leNat (partRead part (a + 12) 2 s)
    (hwStore part (a + 12) (leBytes 2 (seq + 1) ++ [0]) s).onPart part fun p => { p with far := Table.drop i p.far }

/-- What a decrement finds of a counter: COUNT, SEQ and STATE. -/
def applyCount (count amount : Nat) : Nat × Bool × Nat :=
  if amount < count then (count - amount, false, 0) else (0, true, amount - count)

/-- The L2 slice at which a far counter is at home (R22). -/
def counterSlice (part a : Nat) (s : State) : Nat :=
  match resolve (hwWho part) .hardware a s with
  | .ok (.pa x _, _) => sliceUnit (paHome x)
  | _ => 2047

/-- A decrement message is applied (R22): stale ones and excesses are logged; the decrement that reaches 0 releases the
task to its home core. -/
def decrement (part : Nat) (handle : Word) (amount : Nat) (sender : LogEntry) (s : State) : State :=
  let h := handle.toNat
  let stale (s : State) : State := s.logSender part { sender with cause := 0x1D, value := handle }
  let excessLog (e : Nat) (s : State) : State := if e = 0 then s else s.logSender part { sender with cause := 0x1E, value := BitVec.ofNat 64 e }
  match s.part? part with
  | none => s
  | some p =>
    if h % 2 = 0 then
      let core := h / 2 % 2048
      let i := h / 2 ^ 12 % 256
      let c := s.core core
      let bs := c.ls.readN (16 * i) 16
      if !p.hasCore core || 2 ^ 36 ≤ h || leField bs 14 1 ≠ 1 || leField bs 12 2 ≠ h / 2 ^ 20 % 65536 then stale s
      else
        let (left, done, excess) := applyCount (leField bs 8 4) amount
        let ls := c.ls.writeN (16 * i + 8) (leBytes 4 left)
        let ls := if done then ls.writeN (16 * i + 14) [2] else ls
        let s := s.setCore core { c with ls := ls }
        let s := excessLog excess s
        match done, Table.find i c.tasks with
        | true, some t => enqueue core (taskEntry t (.near core i) s.cycle) s
        | _, _ => s
    else
      let a := h % 2 ^ 57 / 16 * 16
      let base := match p.far with
        | (_, t) :: _ => (s.core t.home).fcpb.toNat
        | [] => p.grant.fcpb
      let i := (a - base) / 16
      let bs := partRead part a 16 s
      let s := usePart .hardware part a 16 s
      if h / 2 % 8 ≠ 0 || a < base || 65536 ≤ i || leField bs 14 1 ≠ 1 || leField bs 12 2 % 128 ≠ h / 2 ^ 57 then stale s
      else
        let (left, done, excess) := applyCount (leField bs 8 4) amount
        let s := hwStore part (a + 8) (leBytes 4 left) s
        let s := if done then hwStore part (a + 14) [2] s else s
        let s := excessLog excess s
        match done, Table.find i p.far with
        | true, some t => sendReady (counterSlice part a s + 1) t (.far part i) s
        | _, _ => s

/-! ### Parking (02 R34, R35) -/

/-- The lowest free park place of a core: 12 in the local store, 256 in the overflow ring. -/
def freePlace (c : Core) : Option Nat := (List.range 268).find? fun p => !c.parks.contains p

/-- Address of the local-store context p, or of entry p − 12 of the overflow ring, and of its extension (18 R363). -/
def extensionAddr (c : Core) (p : Nat) : Nat := c.pkob.toNat + 0xA0000 + 1536 * p

/-- The focus thread gives up its slot (R34): its results are written, its context is saved at a place, and its status
is what the place makes of it. None where no place is free. -/
def parkFocus (status : Nat → Status) (s : State) : Option State :=
  match freePlace s.myCore with
  | none => none
  | some p =>
    let s := flushPend s
    let s := s.onTh fun t => { t with pc := t.instrPc, modLatch := none, status := status p, uncounted := true, spin := [] }
    let reg := registerPart s.shared s.th
    let c := s.myCore
    let part := s.myPart
    let s := s.onCore fun c => { c with parks := p :: c.parks }
    let s := if p < 12 then s.onCore fun c => { c with ls := c.ls.writeN (0x1000 + 2560 * p) reg }
      else hwStore part (c.pkob.toNat + 2560 * (p - 12)) reg s
    let s := hwStore part (extensionAddr c p) (extensionPart s.th) s
    some s

/-- The place a thread's status names. -/
def Thread.place (t : Thread) : Option Nat :=
  match t.status with
  | .parked _ p => some p
  | .spinning _ _ p _ => some p
  | .queued p => p
  | _ => none

/-- A thread out of its slot enters its home core's run queue at its record priority (R36). -/
def requeue (tid : Nat) (s : State) : State :=
  match s.thread? tid with
  | none => s
  | some t =>
    let s := s.onThread tid fun t => { t with status := .queued t.place }
    enqueue t.core (resumeEntry t s.cycle) s

/-! ### Binding (02 R18, R26, R27) -/

/-- A thread holds a slot. -/
def Thread.bound (t : Thread) : Bool :=
  match t.status with
  | .running | .waiting .. | .holding _ => true
  | _ => false

/-- The lowest-numbered free slot of a core. -/
def freeSlot (s : State) (core : Nat) : Option (BitVec 2) :=
  ((List.range 4).map (BitVec.ofNat 2)).find? fun j => !s.all.any fun t => t.bound && t.core == core && t.slot == j

/-- An entry whose tag group can be met (R26). -/
def canBind (c : Core) (e : RunEntry) : Bool := e.hasTags || (freeGroup c.tagAllot (groupSize e.ctags)).isSome

/-- The entry the binder chooses: the highest priority, the oldest among equals. -/
def chooseEntry (c : Core) : List RunEntry → Option RunEntry
  | [] => none
  | e :: r =>
    match chooseEntry c r with
    | none => if canBind c e then some e else none
    | some f => if canBind c e && (f.pri < e.pri || (f.pri = e.pri && e.since ≤ f.since)) then some e else some f

/-- A tag group is allotted: the lowest free one of its size; its CTB bits and error marks are cleared (R27). -/
def allotTags (code : Nat) (c : Core) : Core × BitVec 6 :=
  match freeGroup c.tagAllot (groupSize code) with
  | none => (c, 0)
  | some b =>
    let m := tagBits b (groupSize code)
    ({ c with tagAllot := c.tagAllot ||| m, ctb := c.ctb &&& ~~~m, tagErr := c.tagErr &&& ~~~m }, BitVec.ofNat 6 b)

/-- YDL as it is loaded at bind (R47). -/
def ydlAtBind (ydf : Nat) : BitVec 32 := if ydf = 0 then 65536 else BitVec.ofNat 32 (1024 * ydf)

/-- The thread that a task starts (R18). -/
def newThread (id core : Nat) (slot : BitVec 2) (ctgb : BitVec 6) (jseed : Word) (t : TaskDesc) : Thread :=
  { id := id, task := t, core := core, status := .running, pc := t.entry
    s := (Vector.replicate 16 0).set 1 t.argp, fc := List.replicate t.frame 0
    lcid := t.lcid, jseed := jseed, ydl := ydlAtBind t.ydf, slot := slot, ctgb := ctgb, tagged := groupSize t.ctags ≠ 0 }

/-- The binder acts on a core (R26): the chosen entry's task or thread takes the lowest free slot, and issues first 16 cycles later. Binding acquires
what the releases that counted the task down made visible (R185). -/
def bindCore (core : Nat) (s : State) : State :=
  match freeSlot s core, chooseEntry (s.core core) (s.core core).runq with
  | some slot, some e =>
    let s := acquireAt core (emptySlot core slot s)
    let c := { s.core core with runq := (s.core core).runq.erase e }
    match e.what with
    | .task t ctr =>
      let (c, b) := allotTags t.ctags c
      let s := freeCounter ctr t.part t.home (s.setCore core c)
      let n := { newThread s.fresh core slot b c.jseedm t with ready := s.cycle + 16 }
      let s := { s with threads := s.threads ++ [n], fresh := s.fresh + 1 }
      countEvent core 0 0x0F (s.focus n.id)
    | .resume tid =>
      match s.thread? tid with
      | none => s.setCore core c
      | some t =>
        let c := match t.place with
          | some p => { c with parks := c.parks.filter (· ≠ p) }
          | none => c
        let (c, b) := if e.hasTags then (c, t.ctgb) else allotTags t.task.ctags c
        let s := (s.setCore core c).onThread tid fun t => { t with
          status := .running, core := core, slot := slot, ctgb := b, tagged := groupSize t.task.ctags ≠ 0, uncounted := false
          ready := s.cycle + 16 }
        s.focus tid
  | _, _ => s

/-- The cores of a crew of n led from a core, without the leader's own (R39). -/
def crewCores (core n : Nat) : List Nat := (List.range (n - 1)).map fun i => core + 1 + i

/-- Every core of a crew to be has a free slot and a free tag group of a size code (R39, R40). -/
def crewReady (s : State) (core n code : Nat) : Bool :=
  (crewCores core n).all fun c => (freeSlot s c).isSome && (freeGroup (s.core c).tagAllot (groupSize code)).isSome

end Sys2Proof.Machine
end

