-- ==== Sys2Proof/Machine/Issue.lean ====
section
/-!
DEFINITION. Fetching an instruction (04 R75, R76, 06 R158), the registers an instruction uses and the load interlock
(02 R33), the spin-park rule (02 R37), forwarding in a crew (02 R41), and what moves next (notes/assumptions/2.md).
-/
namespace Sys2Proof.Machine

open Sys2Proof

/-! ### Fetch -/

/-- The parcel at a physical address as any thread of the focus thread's core could find it now (06 R158). -/
def newParcel (a mt : Nat) (s : State) : Nat :=
  leNat ([a, a + 1].map fun x => seenByte (raisedSeen s s.th) (s.paByte (standOfCore s.th.core) x mt) (.pa x mt))

/-- What the focus thread itself has stored to a parcel and still has in its queue, of the stores before a number. -/
def ownStored (a no : Nat) (s : State) : List (Thread × Nat × QStore) :=
  s.th.sq.filterMap fun e => match e with
    | .store q => if q.no < no && overlaps q.places [.pa a 0, .pa (a + 1) 0] then some (s.th, 0, q) else none
    | _ => none

/-- A parcel with stores laid over it. -/
def overlayParcel (stores : List (Thread × Nat × QStore)) (a v : Nat) : Nat :=
  leNat ([(a, v % 256), (a + 1, v / 256)].map fun x => seenByte stores (BitVec.ofNat 8 x.2) (.pa x.1 0))

/-- A parcel joins a core's instruction cache of 16,384 parcels; a full one loses one of them, which a free choice
tells. -/
def cacheParcel (a v : Nat) (s : State) : State :=
  let rest := Table.drop a s.myCore.icache
  if rest.length < 16384 then s.onCore fun c => { c with icache := Table.put a v c.icache }
  else (s.onCore fun c => { c with icache := Table.put a v (rest.eraseIdx (s.freeBelow rest.length)) }).draw

/-- A parcel of code at a physical address in the core's instruction cache (06 R158): one fetched before and written since is
read as its old or its new value, which a free choice tells. -/
def cachedParcel (a mt : Nat) (s : State) : Nat × State :=
  let new := newParcel a mt s
  match Table.find a s.myCore.icache with
  | none => (new, cacheParcel a new s)
  | some old => if old = new then (new, s) else if s.freeBelow 2 = 0 then (old, s.draw) else (new, cacheParcel a new s.draw)

/-- A parcel of code at a physical address (06 R158): what the thread stored before its latest IFENCE shows, and of what it has
stored since a free choice tells whether it does. What is in its queue is not in the core's cache. -/
def readParcel (a mt : Nat) (s : State) : Nat × State :=
  let (v, s) := cachedParcel a mt s
  let before := overlayParcel (ownStored a s.th.ifence s) a v
  let all := overlayParcel (ownStored a s.fresh s) a v
  if all = before then (before, s) else (if s.freeBelow 2 = 0 then before else all, s.draw)

/-- A parcel at an address of the focus thread (04 R76), or the fetch fault, with TRAPA the parcel. -/
def fetchParcel (pc : Word) (s : State) : Checked (Nat × State) :=
  match resolve s.who .fetch pc.toNat s with
  | .error f => .error (f.trap 0 0 0 pc.toNat)
  | .ok (l, s) => do
    let s ← checkData pc [l, l.plus 1] s
    match l with
    | .pa a mt => .ok (readParcel a mt (fillReplica (standOfCore s.th.core) a mt s))
    | _ => .error { cause := 4, a := pc, v := 3 }

/-- The word at an address: its length in bytes and its bits. -/
def fetchWord (pc : Word) (s : State) : Checked (Nat × Nat × State) := do
  let (p, s) ← fetchParcel pc s
  if p % 2 = 0 then .ok (2, p, s)
  else
    let (q, s) ← fetchParcel (pc + 2) s
    .ok (4, p + 65536 * q, s)

/-- The instruction of a word whose encoding is checked (04 R95, R96), or the illegal-instruction trap. -/
def checkedWord (len w : Nat) : Checked Decoded :=
  match decodeWord (len = 4) w with
  | .ok d =>
    match d.instr.fieldFault with
    | none => .ok d
    | some i => .error (illegal i (fieldValue w i))
  | .illegal i v => .error (illegal i v)
  | .short => .error (illegal 0 0)

/-- A word is a modifier word (04 R85). -/
def isModifier (w : Nat) : Bool := w % 2 = 1 && w / 16 % 64 = 0x3F

/-- The instruction register for a word that carries no modifier. -/
def loadIr (d : Decoded) (w : Nat) (t : Thread) : Thread :=
  { t with ir := { word := BitVec.ofNat 32 w, modw := (t.modLatch.getD 0), hasMod := t.modLatch.isSome
                   len := d.len, gap := d.gap, sw := d.sw, priv := t.priv } }

/-- The word that the focus thread executes next: the one fetched with its modifier word, or the one at its pc. -/
def wordAhead (s : State) : Checked (Nat × Nat × State) :=
  if s.th.modLatch.isSome then .ok (4, s.th.second.toNat, s) else fetchWord s.th.pc s

/-- The next instruction of the focus thread: one its leader forwarded, else the one at its pc; or the state its fetch
or encoding trap leaves; a modifier word that is refused is fetched with the word after it (04 R86). A thread that a fault is ending ends here. -/
def fetchFocus (s : State) : Except State (Instr × State) :=
  match s.th.dying with
  | some c => .error (dieFocus c s)
  | none =>
  match s.th.attached, s.th.fwd with
  | true, (ir, _) :: _ =>
    match checkedWord ir.len ir.word.toNat with
    | .ok d =>
      let t := s.th
      let t := if ir.hasMod && t.modLatch.isNone then { t with modLatch := some ir.modw, pc := t.pc + 4 } else t
      .ok (d.instr, { s with th := { t with ir := { ir with priv := t.priv } } })
    | .error t => .error (takeTrap t s)
  | _, _ =>
    match wordAhead s with
    | .error t => .error (takeTrap t (s.onTh fun th => { th with ir := {} }))
    | .ok (len, w, s) =>
      match checkedWord len w with
      | .ok d => .ok (d.instr, s.onTh (loadIr d w))
      | .error t =>
        if len = 4 && isModifier w then
          let show_ (x : Nat) (th : Thread) : Thread :=
            { th with ir := { word := BitVec.ofNat 32 x, modw := BitVec.ofNat 32 w, hasMod := true } }
          match fetchWord (s.th.pc + 4) s with
          | .error t => .error (takeTrap t (s.onTh (show_ 0)))
          | .ok (_, x, s) => .error (takeTrap t (s.onTh (show_ x)))
        else .error (takeTrap t (s.onTh (loadIr ⟨.eret, len, 0, false⟩ w)))

/-! ### Registers an instruction uses (02 R33) -/

/-- A scalar register. -/
def rS (r : BitVec 4) : RegRef := .s r.toNat
/-- A vector register. -/
def rV (r : BitVec 4) : RegRef := .v r.toNat
/-- A scale register. -/
def rSc (r : BitVec 3) : RegRef := .sc r.toNat

/-- The registers that can await a load-path result among those an instruction reads or writes. -/
def usedRegs : Instr → List RegRef
  | .add d a b | .sub d a b | .and d a b | .or d a b | .xor d a b | .andn d a b | .shl d a b | .shr d a b
  | .sar d a b | .mul d a b | .mulh d a b | .mulhu d a b | .div d a b | .divu d a b | .rem d a b | .remu d a b
  | .min d a b | .max d a b | .minu d a b | .maxu d a b | .slt d a b | .sltu d a b | .seq d a b | .sel d a b
  | .fmin d a b | .fmax d a b | .fcmpEq d a b | .fcmpLt d a b | .fcmpLe d a b | .fsgnCp d a b | .fsgnMul d a b
  | .plnch d a b | .takeb d a b | .statr d a b => [rS d, rS a, rS b]
  | .clz d a | .ctz d a | .popc d a | .sextB d a | .sextH d a | .sextW d a | .fclass d a | .fmov d a | .fsgnNeg d a
  | .fsgnAbs d a | .callr d a | .tspawn d a | .greplay d a | .prd d a | .bpoll d a | .take d a | .evrd d a
  | .mov16 d a | .add16 d a | .sub16 d a | .and16 d a | .or16 d a => [rS d, rS a]
  | .addi d a _ | .andi d a _ | .ori d a _ | .xori d a _ | .shli d a _ | .shri d a _ | .sari d a _ | .slti d a _ =>
    [rS d, rS a]
  | .lui d _ | .adpc d _ | .call d _ | .tself d | .cfind d | .pstat d | .kpopc d _ | .kfirst d _ | .mflag d _ => [rS d]
  | .fadd d a b _ | .fsub d a b _ | .fmul d a b _ | .ffma d a b _ | .fdiv d a b _ => [rS d, rS a, rS b]
  | .fsqrt d a _ | .fcvtF32I32 d a _ | .fcvtI32F32 d a _ | .fcvtF32I64 d a _ | .fcvtI64F32 d a _ => [rS d, rS a]
  | .beq a b _ | .bne a b _ | .blt a b _ | .bge a b _ | .bltu a b _ | .bgeu a b _ => [rS a, rS b]
  | .jr a | .loop a _ _ | .migr a | .cwaitany a | .cwaitall a | .ctagclr a | .sopen a _ | .discard a | .pref a _
  | .wback a | .fenceh a _ | .mswap _ a | .msacc _ _ a | .pcfg a | .pfade a | .pgate a | .statc a
  | .evcfg a | .haltp a | .resumep a | .dbind _ a _ | .dwaitc _ a _ | .dwaitp _ a _ | .dadvc _ a _ | .dadvp _ a _
  | .mma _ _ a _ _ _ => [rS a]
  | .csrr d n => rS d :: (if 0x010 ≤ n.toNat && n.toNat ≤ 0x017 then [.sc (n.toNat - 0x010)] else [])
  | .csrw a n | .csrs a n | .csrc a n => rS a :: (if 0x010 ≤ n.toNat && n.toNat ≤ 0x017 then [.sc (n.toNat - 0x010)] else [])
  | .fcld d a _ | .fcst d a _ => [rS d, rS a]
  | .fcvld d a _ | .fcvst d a _ => [rV d, rS a]
  | .vadd d a b _ _ | .vsub d a b _ _ | .vmul d a b _ _ | .vfma d a b _ _ | .vfms d a b _ _ => [rV d, rV a, rV b]
  | .vmin d a b _ | .vmax d a b _ | .viadd d a b _ | .visub d a b _ | .vimul d a b _ | .vand d a b _ | .vor d a b _
  | .vxor d a b _ | .vshl d a b _ | .vshr d a b _ | .vsar d a b _ | .vsel d a b _ | .vperm d a b _ => [rV d, rV a, rV b]
  | .vcmp _ a b _ _ _ => [rV a, rV b]
  | .vmov d a _ | .vrcp d a _ | .vrsq d a _ | .vexp2 d a _ | .vlog2 d a _ => [rV d, rV a]
  | .vbcast d a _ => [rV d, rS a]
  | .vext d a b => [rS d, rV a, rS b]
  | .vins d a b => [rV d, rS a, rS b]
  | .viota d _ => [rV d]
  | .vslide d a b _ _ | .vsacc d a b _ _ => [rV d, rV a, rS b]
  | .vredsum d a _ _ | .vredmax d a _ | .vredmin d a _ => [rS d, rV a]
  | .vcvt d a _ _ _ _ | .vsrnd d a _ _ _ => [rV d, rV a]
  | .vqnt d a b _ _ _ | .vdeq d a b _ _ _ => [rV d, rV a, rSc b]
  | .tdec a b _ | .cpy a b _ _ | .cpy2 a b _ _ | .red a b _ _ | .fred a b _ | .mldb a b _ _ | .prwd a b _ | .pwr a b
  | .nwalk a b _ _ | .nadd a b _ _ | .nupd a b _ _ | .nsave a b | .nrest a b | .nreset a b | .stata a b | .actw a b =>
    [rS a, rS b]
  | .ssend _ a _ c => (List.range (c.toNat + 1)).map fun i => .v (a.toNat + i)
  | .ld d a _ k _ _ => rS d :: (if k = 0 then [rS a] else [])
  | .st d a _ k _ => rS d :: (if k = 0 then [rS a] else [])
  | .ldacq d a _ k _ _ _ => rS d :: (if k = 0 then [rS a] else [])
  | .strel d a _ k _ _ => rS d :: (if k = 0 then [rS a] else [])
  | .vld d a _ | .vld6 d a _ => [rV d, rS a]
  | .vlds d a b _ => [rV d, rS a, rS b]
  | .vldx d a b _ => [rV d, rS a, rV b]
  | .vst d a _ n t | .vst6 d a _ n t => [rV d, rS a] ++ (if t = 1 then [rSc n] else [])
  | .vsts d a b _ n t => [rV d, rS a, rS b] ++ (if t = 1 then [rSc n] else [])
  | .vstx d a b _ n t => [rV d, rS a, rV b] ++ (if t = 1 then [rSc n] else [])
  | .amo d a b _ _ | .cas d a b _ | .famo d a b _ => [rS d, rS a, rS b]
  | .vred d a b _ _ => [rV d, rS a, rV b]
  | .mdrain _ a b _ _ _ _ k => rSc b :: (if k = 0 then [rS a] else [])
  | .mlda _ a _ k => if k = 0 then [rS a] else []
  | .bred d a _ _ => [rS d, rS a]
  | .statl n a b _ _ => [rSc n, rS a, rS b]
  | .ctxsv d a _ | .ctxld d a _ => [rS d, rS a]
  | .vaddF32 d x | .vsubF32 d x | .vmulF32 d x | .vmaxF32 d x | .vminF32 d x | .viadd16 d x | .visub16 d x
  | .vand16 d x | .vor16 d x | .vxor16 d x | .vshl16 d x | .vshr16 d x | .vmov16 d x | .vnegF32 d x | .vabsF32 d x =>
    [rV d, rV x]
  | .vfmac d x => [rV d, rV x, .v 15]
  | .addi4 x _ | .shli4 x _ | .shri4 x _ | .bz x _ _ | .bnz x _ _ => [rS x]
  | .ldd8 x _ | .std8 x _ => [rS x, .s 14]
  | .jr16 y => [rS y]
  | .callr16 y => [rS y, .s 15]
  | _ => []

/-- An instruction uses a register that awaits a load-path result (02 R33); GANG reads every register. -/
def loadHazard (t : Thread) (i : Instr) : Bool :=
  t.loads.any fun l => match l.dest.reg?, i with
    | some _, .gang _ => true
    | some r, i => (usedRegs i).contains r
    | none, _ => false

/-! ### The spin-park rule (02 R37) -/

/-- The instructions an iteration may hold besides its load, and branches that may close it. -/
inductive SpinKind where
  | plain | load | branch | other
deriving DecidableEq, Repr

/-- The kind of an instruction for the spin-park rule. -/
def spinKindOf : Instr → SpinKind
  | .beq .. | .bne .. | .blt .. | .bge .. | .bltu .. | .bgeu .. | .bz .. | .bnz .. => .branch
  | .ld .. | .ldacq .. | .ldd8 .. => .load
  | .add .. | .sub .. | .and .. | .or .. | .xor .. | .andn .. | .shl .. | .shr .. | .sar .. | .mul .. | .mulh ..
  | .mulhu .. | .div .. | .divu .. | .rem .. | .remu .. | .min .. | .max .. | .minu .. | .maxu .. | .slt .. | .sltu ..
  | .seq .. | .clz .. | .ctz .. | .popc .. | .sextB .. | .sextH .. | .sextW .. | .sel .. | .addi .. | .andi .. | .ori ..
  | .xori .. | .shli .. | .shri .. | .sari .. | .slti .. | .lui .. | .adpc .. | .fadd .. | .fsub .. | .fmul ..
  | .ffma .. | .fdiv .. | .fsqrt .. | .fmin .. | .fmax .. | .fcmpEq .. | .fcmpLt .. | .fcmpLe .. | .fcvtF32I32 ..
  | .fcvtI32F32 .. | .fcvtF32I64 .. | .fcvtI64F32 .. | .fclass .. | .fmov .. | .fsgnCp .. | .fsgnNeg .. | .fsgnAbs ..
  | .fsgnMul .. | .mov16 .. | .add16 .. | .sub16 .. | .and16 .. | .or16 .. | .addi4 .. | .shli4 .. | .shri4 ..
  | .yield .. | .yield1 => .plain
  | _ => .other

/-- The target of a branch at an address. -/
def branchTarget (pc : Word) : Instr → Option Word
  | .beq _ _ i | .bne _ _ i | .blt _ _ i | .bge _ _ i | .bltu _ _ i | .bgeu _ _ i => some (pc + branchOffset i)
  | .bz _ i h | .bnz _ i h => some (pc + branchOffset (h ++ i))
  | _ => none

/-- A new result of the focus thread differs from what its register held. -/
def changes (old : Thread) (w : RegWrite) : Bool :=
  match w with
  | .s d v => d ≠ 0 && old.getS d ≠ v
  | .flags f => (f.setWidth 32 &&& ~~~old.fcsr) ≠ 0
  | _ => true

/-- The one load of an iteration, and the rest of the trace: the instructions back to the branch target. -/
def iterationOf (target : Word) : SpinTrace → Option (List SpinLoad × SpinTrace)
  | [] => none
  | (pc, l) :: r =>
    if pc = target then some (l.toList, r)
    else match iterationOf target r with
      | some (ls, rest) => some (l.toList ++ ls, rest)
      | none => none

/-- Three consecutive iterations closed by the branch at an address, each with one load that has returned, all alike. -/
def spinLoad (branch target : Word) (tr : SpinTrace) : Option SpinLoad :=
  let one (tr : SpinTrace) : Option (SpinLoad × SpinTrace) :=
    match tr with
    | (pc, _) :: _ => if pc = branch then
        match iterationOf target tr with
        | some ([l], r) => some (l, r)
        | _ => none
      else none
    | [] => none
  match one tr with
  | some (l1, r1) => match one r1 with
    | some (l2, r2) => match one r2 with
      | some (l3, _) => if l1 = l2 ∧ l2 = l3 ∧ l1.value.isSome then some l1 else none
      | none => none
    | none => none
  | none => none

/-- The load an instruction began: the newest entry of the load path that was not there before, with its address and
place. -/
def newLoad (old new : Thread) : Option SpinLoad :=
  if old.loads.length < new.loads.length then
    match new.loads.getLast? with
    | some ⟨id, _, .reading _ (⟨_, va, l :: _⟩ :: _) _, _, _, _⟩ => some ⟨va, l, id, none⟩
    | _ => none
  else none

/-- The trace after an instruction: `old` is the thread before it, `new` after it, before any time has passed. A modifier
word is one instruction with the word after it (04 R86). -/
def spinTrace (i : Instr) (old new : Thread) : SpinTrace :=
  let fresh := new.pend.drop old.pend.length
  if new.modLatch.isSome then old.spin
  else if old.src ≠ new.src then []
  else if fresh.any fun p => changes old p.write then []
  else match spinKindOf i with
    | .other => []
    | .load => match newLoad old new with
      | some l => (old.instrPc, some l) :: old.spin
      | none => []
    | _ => (old.instrPc, none) :: old.spin

/-! ### Crews (02 R41) -/

/-- The leader's instruction goes to every attached follower, with the pc it led to; its handler's instructions do
not. -/
def forward (s : State) : State :=
  let l := s.th
  if l.crew && l.cidx = 0 && !l.inh then
    { s with threads := s.threads.map fun t =>
        if t.attached && t.crewId = l.crewId then { t with fwd := t.fwd ++ [(l.ir, l.pc)] } else t }
  else s

/-- A follower has executed a forwarded instruction; a pc that differs from the leader's detaches it. -/
def followed (s : State) : State :=
  s.onTh fun t =>
    match t.attached, t.fwd with
    | true, (_, pc) :: r => if t.pc = pc then { t with fwd := r } else { t with det := true, fwd := [] }
    | _, _ => t

/-- An instruction of the focus thread has completed: crew bookkeeping, unless it is one that is not forwarded, then the
accounting of its issue. -/
def completed (reloads quiet : Bool) (s : State) : State :=
  if s.th.uncounted || s.th.modLatch.isSome || quiet then finishIssue reloads s
  else finishIssue reloads (forward (followed s))

/-! ### Conditions of waits -/

/-- The watchdog runs for a thread and its deadline has come (02 R47, 18 R359). -/
def deadline (s : State) (t : Thread) : Bool := (s.core t.core).wdog.getLsbD 0 && t.ydl = 0

/-- Whether the leader's JOIN may complete (02 R42): every attached follower has caught up, and every detached one waits
at a JOIN, parked or not. -/
def joinReady (s : State) (l : Thread) : Bool :=
  s.all.all fun t =>
    if t.crew && t.crewId = l.crewId && t.cidx ≠ 0 && !t.isEnded then
      if t.det then (match t.status with
        | .waiting .join _ | .parked .join _ => true
        | _ => false)
      else t.fwd.isEmpty
    else true

/-- The condition a waiting thread awaits holds (02 R33). -/
def waitOver (s : State) (t : Thread) : Wait → Bool
  | .deckC cb c => decide (c ≤ (deckView t.id (deckAt t.core cb s) s).fill)
  | .deckP cb c => decide (c ≤ (deckView t.id (deckAt t.core cb s) s).room)
  | .tagAny m => ((s.core t.core).ctb &&& m) ≠ 0
  | .tagAll m => ((s.core t.core).ctb &&& m) = m
  | .join => !t.crew || (t.cidx = 0 && joinReady s t)
  | .gang n => crewReady s t.core n t.task.ctags
  | .ssend i n => match t.streams.toList[i]? with
    | some x => decide (n ≤ outboundFree s x)
    | none => true
  | .arrayQueue a => decide ((s.array a).aq.length < 16) && !(s.array a).frozen
  | .planeQueue a => decide ((s.array a).pq.length < 16) && !(s.array a).frozen
  | .walkerQueue n => decide ((s.stand n).walkq.length < 4352)
  | .nfence => decide (t.nearCount = 0)
  | .ending => !busyThread s t
  | .migrating => false

/-- The step that completes a wait by itself, where the table has one. -/
def waitEvent : Wait → Option Instr
  | .deckC .. | .deckP .. => some .deckWaitComplete
  | .tagAny _ | .tagAll _ => some .copyTagWaitComplete
  | .nfence => some .nfenceComplete
  | .join => some .joinReconverge
  | _ => none

/-- Parks the focus thread on a monitor of the line of the load it polls with, where the rule holds (02 R37); where no place is
free the monitor is told, and the thread polls on (R35, notes/assumptions/40.md). -/
def spinPark (i : Instr) (old : Thread) (s : State) : State :=
  let t := s.th
  if branchTarget old.pc i = some t.pc && decide (t.pc.toNat ≤ old.pc.toNat) && !t.task.nospin then
    match spinLoad old.pc t.pc t.spin with
    | some l =>
      match parkFocus (fun p => .spinning l.loc s.cycle p false) s with
      | some s => (s.count 0x09).onCore fun c => { c with spinpark := c.spinpark + 1 }
      | none => (s.logMonitor { s.th.entry 0x1A with value := 1 }).onTh fun t => { t with spin := [] }
    | none => s
  else s

/-- A branch that is taken, any other jump, call or return, or a loop that skips its body (06 R149). -/
def redirects (i : Instr) (s : State) : Bool :=
  match i with
  | .beq a b _ => s.getS a == s.getS b
  | .bne a b _ => s.getS a != s.getS b
  | .blt a b _ => (s.getS a).slt (s.getS b)
  | .bge a b _ => !(s.getS a).slt (s.getS b)
  | .bltu a b _ => (s.getS a).ult (s.getS b)
  | .bgeu a b _ => !(s.getS a).ult (s.getS b)
  | .bz x _ _ => s.getS x == 0
  | .bnz x _ _ => s.getS x != 0
  | .loop a _ o => s.getS a == 0 && o ≠ 1
  | .call .. | .jr .. | .callr .. | .jr16 .. | .callr16 .. | .eret => true
  | _ => false

/-- The two cycles that a redirected pc costs its thread (06 R149), from the cycle after its issue. -/
def redirectStall (i : Instr) (s t : State) : State :=
  if redirects i s && !t.th.uncounted then t.onTh fun th => { th with ready := t.cycle + 3 } else t

/-- After an instruction of the focus thread: `s` is the state it ran in, `t` the state it left. -/
def afterIssue (i : Instr) (s t : State) : State :=
  let t := if t.th.uncounted then t else t.onTh fun th => { th with spin := spinTrace i s.th th }
  spinPark i s.th <| completed (match i with
    | .yield _ | .yield1 => true
    | _ => false) (i == .eret) (redirectStall i s t)

/-! ### What a core lets move (02 R29) -/

/-- What a step does. -/
inductive Move where
  /-- a thread issues -/
  | issue (tid : Nat)
  /-- another agent steps -/
  | event (i : Instr) (arg : EventArg)
  /-- a cycle passes -/
  | idle
deriving DecidableEq, Repr

/-- A network holds no token (17 R325). -/
def netQuiet (s : State) (n : Nat) : Bool :=
  !s.msgs.any fun e => match e.body with
    | .token m .. => m == n
    | _ => false

/-- A control instruction that a thread waits for may act (17 R328): it is the first of its quiet network's, and the thread's
earlier accesses let it store to its places. -/
def netReady (s : State) (t : Thread) (n : Nat) (spans : List (Loc × Nat)) : Bool :=
  (s.net n).pending.head? = some t.id && netQuiet s n
    && (let ls := spanLocs spans; !readBlocked (beforeReading ls (s.focus t.id)) ls)

/-- What a bound thread can do now, if it can do anything. -/
def threadMove (s : State) (t : Thread) : Option Move :=
  let halted : Bool := match s.part? t.task.part with
    | some p => p.halt != .running
    | none => false
  if halted then none
  else match t.status with
    | .running =>
      if decide (s.cycle < t.ready) || t.attached && t.fwd.isEmpty then none
      else if t.modLatch.isNone && deadline s t then some (.event .yieldDeadline { a := t.id })
      else
        match fetchFocus (s.focus t.id) with
        | .ok (i, s') => if loadHazard s'.th i then none else some (.issue t.id)
        | .error _ => some (.issue t.id)
    | .waiting w _ =>
      if waitOver s t w then
        match waitEvent w with
        | some i => some (.event i { a := t.id })
        | none => some (.issue t.id)
      else none
    | .holding (.other work) => if workDone s t work then some (.issue t.id) else none
    | .holding (.fenceh []) => some (.event .fencehTargetDrain { a := t.id })
    | .holding (.fenceh _) => none
    | .holding (.net _ n _ _ spans) => if netReady s t n spans then some (.event .networkQuiet { a := n }) else none
    | _ => none

/-- The bound threads of a core, in the picker's order: the current slot first (02 R29). -/
def slotOrder (s : State) (core : Nat) : List Thread :=
  let cur := (s.core core).cur
  (List.range 4).filterMap fun j => s.all.find? fun t =>
    t.core == core && t.slot == cur + BitVec.ofNat 2 j && (match t.status with
      | .running | .waiting .. | .holding _ => true
      | _ => false)

/-- The first move among threads. -/
def firstMove (s : State) : List Thread → Option Move
  | [] => none
  | t :: ts => match threadMove s t with
    | some m => some m
    | none => firstMove s ts

/-- What a core's picker lets move (02 R29). -/
def coreMove (s : State) (core : Nat) : Option Move := firstMove s (slotOrder s core)

/-- The picker stands at the slot that issues. -/
def pickFocus (tid : Nat) (s : State) : State :=
  let s := s.focus tid
  (s.onTh fun t => { t with status := .running }).onCore fun c => { c with cur := s.th.slot }

/-- An event is what a core's picker lets go on (02 R29). -/
def pickedEvent (s : State) (core : Nat) (i : Instr) (a : Nat) : Bool := coreMove s core == some (.event i { a := a })

/-- The thread whose wait is over is the one that its core's picker lets go on, with an event. -/
def pickedWait (s : State) (t : Thread) (i : Instr) : Bool := pickedEvent s t.core i t.id

/-- A waiting thread's instruction completes: it runs on past it. -/
def finishWait (s : State) : State :=
  completed false false (advance 4 ((pickFocus s.th.id s).onTh fun t => { t with uncounted := false }))

end Sys2Proof.Machine
end

