-- ==== Sys2Proof/Machine/Decks.lean ====
section
/-!
DEFINITION. Decks: DBIND, DWAITC, DWAITP, DADVC and DADVP, and the completion of a deck wait (08 R189-R194, 02 R33).
-/
namespace Sys2Proof.Machine

open Sys2Proof

/-- The operand c of a deck instruction: unsigned(s[a]) + n (R190). -/
def deckCount (s : State) (a : BitVec 4) (n : BitVec 11) : Nat := (s.getS a).toNat + n.toNat

/-- The value of the running instruction's field with an index. -/
def State.fieldOf (s : State) (idx : Nat) : Nat := fieldValue s.th.ir.word.toNat idx

/-- DBIND (R190, R191). -/
def execDbind (h : BitVec 3) (a : BitVec 4) (n : BitVec 11) (s : State) : Outcome :=
  let c := deckCount s a n
  let off := c - windowBase
  settle s do
    need (decide (windowBase ≤ c) && deckValid s.th.core off s)
      { cause := 9, fidx := 2, fval := h.toNat, a := BitVec.ofNat 64 c, v := BitVec.ofNat 64 c }
    .ok (advance 4 (s.onTh fun t => { t with decks := t.decks.set h.toNat (some off) h.isLt }))

/-- The count's deck-misuse trap (R191). -/
def badCount (d : Deck) (c : Nat) (s : State) : Trap :=
  { cause := 9, fidx := 6, fval := s.fieldOf 6, a := cbAddr d.off, v := BitVec.ofNat 64 c }

/-- A deck operation on a bound handle with a count that is not 0 (R190): a count of 0 completes at once. -/
def deckOp (h : BitVec 3) (a : BitVec 4) (n : BitVec 11) (limit : Deck → Nat) (s : State) (go : Deck → Nat → Outcome) :
    Outcome :=
  let c := deckCount s a n
  match boundDeck s h 2 (BitVec.ofNat 64 c) with
  | .error t => .next (takeTrap t s)
  | .ok d =>
    if c = 0 then .next (advance 4 s)
    else if limit d < c then .next (takeTrap (badCount d c s) s)
    else go d c

/-- DWAITC (R190): an acquire of every publication it counts (R193). -/
def execDwaitc (h : BitVec 3) (a : BitVec 4) (n : BitVec 11) (s : State) : Outcome :=
  deckOp h a n (·.n) s fun d c =>
    if c ≤ d.fill then .next (advance 4 (acquireAt s.th.core s)) else .next (waitFor (.deckC d.off c) s)

/-- DWAITP (R190). -/
def execDwaitp (h : BitVec 3) (a : BitVec 4) (n : BitVec 11) (s : State) : Outcome :=
  deckOp h a n (·.n) s fun d c =>
    if c ≤ d.room then .next (advance 4 s) else .next (waitFor (.deckP d.off c) s)

/-- DADVC (R190): the slots are free once every earlier load from them has returned (R193), an array's too. -/
def execDadvc (h : BitVec 3) (a : BitVec 4) (n : BitVec 11) (s : State) : Outcome :=
  deckOp h a n (·.fill) s fun d c => .next (advance 4 (queueAdvance false d c s))

/-- DADVP (R190): a release toward the deck's consumers (R193). -/
def execDadvp (h : BitVec 3) (a : BitVec 4) (n : BitVec 11) (s : State) : Outcome :=
  deckOp h a n (·.room) s fun d c => .next (advance 4 (queueAdvance true d c s))

/-- DECK_WAIT_COMPLETE (02 R33, 08 R193): the wait of thread a is over. -/
def execDeckWaitComplete (s : State) : Outcome :=
  match s.thread? s.arg.a with
  | some t =>
    match t.status with
    | .waiting (.deckC ..) _ =>
      if pickedWait s t .deckWaitComplete then .next (finishWait (acquireAt t.core (s.focus t.id))) else .next s
    | .waiting (.deckP ..) _ =>
      if pickedWait s t .deckWaitComplete then .next (finishWait (s.focus t.id)) else .next s
    | _ => .next s
  | none => .next s

end Sys2Proof.Machine
end

