-- ==== Sys2Proof/Machine/Arrays.lean ====
section
/-!
DEFINITION. The matrix arrays as threads see them (12 R269-R279): the checks of each array instruction at issue and its
entry into the array queue of the thread's quad.
-/
namespace Sys2Proof.Machine

open Sys2Proof

/-! ### Ownership (R271) -/

/-- OWN after a MOWN of a core of the quad executes: `mown.all` claims, `mown` by the claiming core returns the array. -/
def ownAfter (all : Bool) (core : Nat) (own : BitVec 3) : BitVec 3 :=
  let me := BitVec.ofNat 3 (4 + core % 4)
  if all then me else if own = me then 0 else own

/-- OWN as it will stand once every queued MOWN has executed. -/
def MArray.ownAhead (x : MArray) : BitVec 3 :=
  x.aq.foldl (fun o c => match c.instr with
    | .mown l => ownAfter (l = 1) c.core o
    | _ => o) x.own

/-- The core of the quad that owns accumulator and buffer n. -/
def ownerOf (own : BitVec 3) (n : Nat) : Nat := if own.getLsbD 2 then own.toNat % 4 else n % 4

/-- The accumulator-ownership trap unless the focus thread's core owns tile n; `fval` is the field that names it. -/
def needOwner (n fval : Nat) (s : State) : Checked Unit :=
  let arr := arrayOfCore s.th.core
  let o := ownerOf (s.array arr).ownAhead n
  need (o = s.th.core % 4) { cause := 0x16, fidx := 2, fval := fval, v := BitVec.ofNat 64 (4 * (arr % 4) + o) }

/-! ### Tile positions (R272) -/

/-- Bytes of a row of a plane's synapse region (12 R282). -/
def rowBytes (cfg : BitVec 32) : Nat := if cfg.getLsbD 16 then 512 else 256
/-- ROWS of a plane. -/
def planeRows (cfg : BitVec 32) : Nat := (cfg.extractLsb' 0 16).toNat
/-- Tile positions that the synapse region covers. -/
def regionTiles (cfg : BitVec 32) : Nat := (planeRows cfg * rowBytes cfg + 16383) / 16384

/-- The plane-configuration trap of a tile offset (R272, R275): a bit outside the fields, a position in the synapse
region, or a row half out of range. -/
def needTile (v mask : Word) (z halves fidx fval : Nat) : Checked Unit :=
  need ((v &&& ~~~mask) = 0 && decide (z ≤ v.toNat % 256) && decide (v.toNat / 1024 % 4 < halves))
    { cause := 0x17, fidx := fidx, fval := fval, v := v }

/-- Row halves of a format that MMA may name (R275). -/
def rowHalves (f : Fmt) (swapped : Bool) : Nat := if swapped then (if f.width = 16 then 2 else 4) else 1

/-! ### Entering a queue -/

/-- A command with what the focus thread's instruction gives it (R269, R270). -/
def newCommand (i : Instr) (a b : Word) (s : State) : ArrayCmd :=
  { id := s.fresh, instr := i, word := s.th.ir.word, modw := s.th.modLatch.getD 0, a := a, b := b, core := s.th.core
    slot := s.th.slot.toNat, tid := s.th.id, ttag := s.th.task.ttag, pc := s.th.instrPc, part := s.myPart
    draw := s.th.drawOf, mode := 0, sc := 0, locs := [], decks := [], data := none, load := none, left := 0 }

/-- An array's queue takes another command. -/
def arrayRoom (x : MArray) : Bool := decide (x.aq.length < 16) && !x.frozen

/-- A command enters an array's queue. -/
def pushArray (c : ArrayCmd) (s : State) (arr : Nat) : State :=
  let x := s.array arr
  s.setArray arr { x with aq := x.aq ++ [c] }

/-- A checked command enters the queues of arrays once each has room; else the thread waits as on a deck (R269). -/
def enqueueArrays (arrs : List Nat) (c : ArrayCmd) (s : State) (go : State → State) : Outcome :=
  match arrs.find? fun j => !arrayRoom (s.array j) with
  | some j => .next (waitFor (.arrayQueue j) s)
  | none => .next (go (arrs.foldl (pushArray c) { s with fresh := s.fresh + 1 }))

/-- A checked command enters the queue of the focus thread's array. -/
def enqueueArray (c : ArrayCmd) (s : State) : Outcome := enqueueArrays [arrayOfCore s.th.core] c s (advance 4)

/-- An array instruction: a deferred data error comes first (R270), then the checks, then the queue. -/
def arrayInstr (s : State) (check : Checked (ArrayCmd × State)) : Outcome :=
  deferredError s fun s => match check with
    | .error t => .next (takeTrap t s)
    | .ok (c, s) => enqueueArray c s

/-- The four arrays of the focus thread's grove. -/
def groveArrays (s : State) : List Nat := (List.range 4).map fun q => 4 * groveOfCore s.th.core + q

/-! ### Operands in memory and decks -/

/-- A span of places as places with lengths. -/
def spanOf (k : Access) (va : Word) (len align fidx fval : Nat) (s : State) : Checked (List (Loc × Nat) × State) :=
  if va.toNat % align ≠ 0 then .error { cause := 2, fidx := fidx, fval := fval, a := va }
  else match resolveSpan s.who k (len / 2048 + 2) va.toNat len s with
    | .ok r => .ok r
    | .error (f, a) => .error (f.trap fidx fval fval a)

/-- A deck operand of n bytes (R273, R277): a whole number of slots, no more than the deck holds. -/
def deckOperand (a : BitVec 4) (n : Nat) (s : State) : Checked Deck := do
  let d ← boundDeck s (a.setWidth 3) 3 (BitVec.ofNat 64 n)
  need (n % d.size = 0 && decide (n ≤ d.n * d.size))
    { cause := 9, fidx := 3, fval := a.toNat, a := cbAddr d.off, v := BitVec.ofNat 64 n }
  .ok d

/-- Bytes of an A tile in memory (R273). -/
def aTileBytes (f : Fmt) : Nat := if f = .fp6 then 6144 else 8192
/-- Bytes of a B tile in memory (R272). -/
def bTileBytes (f : Fmt) : Nat := if f = .fp6 then 12288 else 16384
/-- Bytes of a drained tile (R277). -/
def drainBytes (f : Fmt) : Nat := f.bytesFor 2048

/-! ### The instructions -/

/-- MMA (R275): a tile product; it counts as issued. -/
def execMma (n m : BitVec 2) (a f : BitVec 4) (sw c : BitVec 1) (s : State) : Outcome :=
  let v := s.getS a
  let check : Checked (ArrayCmd × State) := do
    needOwner n.toNat (s.fieldOf 2) s
    needOwner m.toNat (s.fieldOf 2) s
    needTile v 0xCFF (regionTiles (s.array (arrayOfCore s.th.core)).cfg) (rowHalves (Fmt.ofCode f.toNat) (sw = 1)) 3 a.toNat
    .ok (newCommand (.mma n m a f sw c) v 0 s, s)
  deferredError s fun s => match check with
    | .error t => .next (takeTrap t s)
    | .ok (c, _) => enqueueArrays [arrayOfCore s.th.core] c s fun s => advance 4 (s.count 0x11)

/-- MLDA (R273). -/
def execMlda (n : BitVec 2) (a f : BitVec 4) (k : BitVec 1) (s : State) : Outcome :=
  let len := aTileBytes (Fmt.ofCode f.toNat)
  arrayInstr s do
    needOwner n.toNat (s.fieldOf 2) s
    if k = 1 then
      let d ← deckOperand a len s
      .ok ({ newCommand (.mlda n a f k) 0 0 s with decks := [(d.core, d.off)] }, s)
    else
      let (sp, s) ← spanOf .read (s.getS a) len 64 3 a.toNat s
      .ok ({ newCommand (.mlda n a f k) (s.getS a) 0 s with locs := sp }, s)

/-- MLDB (R274): BC enters the four queues of the grove at one instant. -/
def execMldb (a b f : BitVec 4) (c : BitVec 1) (s : State) : Outcome :=
  let arrs := if c = 1 then groveArrays s else [arrayOfCore s.th.core]
  let v := s.getS b
  let check : Checked (ArrayCmd × State) := do
    let (sp, s) ← spanOf .read (s.getS a) (bTileBytes (Fmt.ofCode f.toNat)) 64 3 a.toNat s
    needTile v 0xFF ((arrs.map fun j => regionTiles (s.array j).cfg).foldl max 0) 1 4 b.toNat
    .ok ({ newCommand (.mldb a b f c) (s.getS a) v s with locs := sp }, s)
  deferredError s fun s => match check with
    | .error t => .next (takeTrap t s)
    | .ok (c, s) => enqueueArrays arrs c s (advance 4)

/-- MDRAIN (R277): what it takes from the thread is read now; SR advances SRC by 64. -/
def execMdrain (n : BitVec 2) (a : BitVec 4) (sc : BitVec 3) (f : BitVec 4) (m : BitVec 3) (c t k : BitVec 1) (s : State) :
    Outcome :=
  let len := drainBytes (Fmt.ofCode f.toNat)
  let mode := if m = 7 then (s.th.fcsr.extractLsb' 5 3).toNat else m.toNat
  let check : Checked (ArrayCmd × State) := do
    needOwner n.toNat (s.fieldOf 2) s
    let base (s : State) : ArrayCmd := { newCommand (.mdrain n a sc f m c t k) 0 0 s with mode := mode, sc := s.th.getSc sc }
    if k = 1 then
      let d ← deckOperand a len s
      .ok ({ base s with decks := [(d.core, d.off)] }, s)
    else
      let (sp, s) ← spanOf .write (s.getS a) len 64 3 a.toNat s
      .ok ({ base s with a := s.getS a, locs := sp }, s)
  deferredError s fun s => match check with
    | .error t => .next (takeTrap t s)
    | .ok (c, s) => enqueueArrays [arrayOfCore s.th.core] c s fun s =>
        advance 4 (if mode = 4 then (s.count 0x0E).onTh fun t => { t with src := t.src + 64 } else s)

/-- MOWN (R271): a claim while another core's claim stands is refused. -/
def execMown (l : BitVec 1) (s : State) : Outcome :=
  let arr := arrayOfCore s.th.core
  let own := (s.array arr).ownAhead
  arrayInstr s do
    need (l = 0 || !own.getLsbD 2 || own.toNat % 4 = s.th.core % 4)
      { cause := 0x16, fidx := 2, fval := s.fieldOf 2, v := BitVec.ofNat 64 (4 * (arr % 4) + own.toNat % 4) }
    .ok (newCommand (.mown l) 0 0 s, s)

/-- MZERO (R278). -/
def execMzero (n : BitVec 2) (s : State) : Outcome :=
  arrayInstr s do
    needOwner n.toNat (s.fieldOf 2) s
    .ok (newCommand (.mzero n) 0 0 s, s)

/-- MSACC (R278): the source's owner is checked before the destination's (notes/assumptions/129.md). -/
def execMsacc (d n : BitVec 2) (a : BitVec 4) (s : State) : Outcome :=
  arrayInstr s do
    needOwner n.toNat (s.fieldOf 2) s
    needOwner d.toNat (s.fieldOf 2) s
    .ok (newCommand (.msacc d n a) (s.getS a) 0 s, s)

/-- MSWAP (R279). -/
def execMswap (n : BitVec 2) (a : BitVec 4) (s : State) : Outcome :=
  arrayInstr s do
    needOwner n.toNat (s.fieldOf 2) s
    let (sp, s) ← spanOf .readWrite (s.getS a) 8256 64 3 a.toNat s
    .ok ({ newCommand (.mswap n a) (s.getS a) 0 s with locs := sp }, s)

/-- MFLAG (R278): the result comes back through the load path. -/
def execMflag (d : BitVec 4) (n : BitVec 2) (s : State) : Outcome :=
  let check : Checked Unit := needOwner n.toNat (s.fieldOf 4) s
  deferredError s fun s => match check with
    | .error t => .next (takeTrap t s)
    | .ok _ =>
      let c := { newCommand (.mflag d n) 0 0 s with load := some (s.fresh + 1) }
      enqueueArrays [arrayOfCore s.th.core] c s fun s => advance 4 (s.pushLoad (.s d) .waiting)

end Sys2Proof.Machine
end

