-- ==== Sys2Proof/Machine/Scalar.lean ====
section
/-!
DEFINITION. Scalar integer and FP32 instructions (06 R139-R146) and their 16-bit forms (04 R84).
-/
namespace Sys2Proof.Machine

open Sys2Proof

/-! ### Integer arithmetic (06 R139-R142) -/

/-- The signed quotient (R140): a zero divisor saturates toward the dividend's sign, and −2^63 / −1 gives 2^63 − 1. -/
def quotS (a b : Word) : Word :=
  if b = 0 then (if a = 0 then 0 else if a.toInt < 0 then 0x8000000000000000 else 0x7FFFFFFFFFFFFFFF)
  else if a = 0x8000000000000000 && b = -1 then 0x7FFFFFFFFFFFFFFF
  else BitVec.ofInt 64 (a.toInt.tdiv b.toInt)

/-- The unsigned quotient (R140). -/
def quotU (a b : Word) : Word :=
  if b = 0 then (if a = 0 then 0 else 0xFFFFFFFFFFFFFFFF) else BitVec.ofNat 64 (a.toNat / b.toNat)

/-- The signed remainder, with the sign of the dividend (R140). -/
def remS (a b : Word) : Word := if b = 0 then a else BitVec.ofInt 64 (a.toInt.tmod b.toInt)

/-- The unsigned remainder (R140). -/
def remU (a b : Word) : Word := if b = 0 then a else BitVec.ofNat 64 (a.toNat % b.toNat)

/-- The shift amount of a register: its low 6 bits. -/
def shiftOf (b : Word) : Nat := b.toNat % 64

/-- 1 where a condition holds, else 0. -/
def truth (c : Bool) : Word := if c then 1 else 0

/-- Leading zeros of a word, 64 for 0. -/
def leadingZeros (a : Word) : Word := if a = 0 then 64 else BitVec.ofNat 64 (63 - Nat.log2 a.toNat)

/-- Trailing zeros of a word, 64 for 0. -/
def trailingZeros (a : Word) : Word :=
  BitVec.ofNat 64 (((List.range 64).find? fun i => a.getLsbD i).getD 64)

/-- Number of 1 bits among the low n of a word. -/
def onesIn (n : Nat) (a : Word) : Word := BitVec.ofNat 64 ((List.range n).filter fun i => a.getLsbD i).length

/-- An ALU form of two registers (R139). -/
def aluRR (lat : Nat) (f : Word → Word → Word) (d a b : BitVec 4) (s : State) : Outcome :=
  .next (writeS lat d (f (s.getS a) (s.getS b)) s)

/-- An ALU form of one register (R139). -/
def aluR (f : Word → Word) (d a : BitVec 4) (s : State) : Outcome := .next (writeS 1 d (f (s.getS a)) s)

/-- An ALU form of a register and a sign-extended immediate (R141). -/
def aluRI (f : Word → Word → Word) (d a : BitVec 4) (i : BitVec 14) (s : State) : Outcome :=
  .next (writeS 1 d (f (s.getS a) (imm64 i)) s)

/-- A 16-bit ALU form (04 R84): the destination is the first source. -/
def alu16 (f : Word → Word → Word) (x y : BitVec 4) (s : State) : Outcome :=
  .next (writeS16 1 x (f (s.getS x) (s.getS y)) s)

/-- A 16-bit form with a 4-bit immediate (04 R84). -/
def alu16I (f : Word → Word) (x : BitVec 4) (s : State) : Outcome := .next (writeS16 1 x (f (s.getS x)) s)

/-- ADD (R139): s[a] + s[b]. -/
def execAdd (d a b : BitVec 4) (s : State) : Outcome := aluRR 1 (· + ·) d a b s

/-- SUB (R139): s[a] − s[b]. -/
def execSub (d a b : BitVec 4) (s : State) : Outcome := aluRR 1 (· - ·) d a b s

/-- AND (R139): s[a] and s[b]. -/
def execAnd (d a b : BitVec 4) (s : State) : Outcome := aluRR 1 (· &&& ·) d a b s

/-- OR (R139): s[a] or s[b]. -/
def execOr (d a b : BitVec 4) (s : State) : Outcome := aluRR 1 (· ||| ·) d a b s

/-- XOR (R139): s[a] xor s[b]. -/
def execXor (d a b : BitVec 4) (s : State) : Outcome := aluRR 1 (· ^^^ ·) d a b s

/-- ANDN (R139): s[a] and not s[b]. -/
def execAndn (d a b : BitVec 4) (s : State) : Outcome := aluRR 1 (fun x y => x &&& ~~~y) d a b s

/-- SHL (R139): s[a] shifted left. -/
def execShl (d a b : BitVec 4) (s : State) : Outcome := aluRR 1 (fun x y => x <<< shiftOf y) d a b s

/-- SHR (R139): s[a] shifted right logically. -/
def execShr (d a b : BitVec 4) (s : State) : Outcome := aluRR 1 (fun x y => x >>> shiftOf y) d a b s

/-- SAR (R139): s[a] shifted right arithmetically. -/
def execSar (d a b : BitVec 4) (s : State) : Outcome := aluRR 1 (fun x y => x.sshiftRight (shiftOf y)) d a b s

/-- MUL (R139): the low 64 bits of the product. -/
def execMul (d a b : BitVec 4) (s : State) : Outcome := aluRR 3 (· * ·) d a b s

/-- MULH (R139): the high 64 bits of the signed product. -/
def execMulh (d a b : BitVec 4) (s : State) : Outcome := aluRR 3 (fun x y => BitVec.ofInt 64 (x.toInt * y.toInt / 2 ^ 64)) d a b s

/-- MULHU (R139): the high 64 bits of the unsigned product. -/
def execMulhu (d a b : BitVec 4) (s : State) : Outcome := aluRR 3 (fun x y => BitVec.ofNat 64 (x.toNat * y.toNat / 2 ^ 64)) d a b s

/-- DIV (R139): the signed quotient. -/
def execDiv (d a b : BitVec 4) (s : State) : Outcome := aluRR 18 quotS d a b s

/-- DIVU (R139): the unsigned quotient. -/
def execDivu (d a b : BitVec 4) (s : State) : Outcome := aluRR 18 quotU d a b s

/-- REM (R139): the signed remainder. -/
def execRem (d a b : BitVec 4) (s : State) : Outcome := aluRR 18 remS d a b s

/-- REMU (R139): the unsigned remainder. -/
def execRemu (d a b : BitVec 4) (s : State) : Outcome := aluRR 18 remU d a b s

/-- MIN (R139): the signed minimum. -/
def execMin (d a b : BitVec 4) (s : State) : Outcome := aluRR 1 (fun x y => if y.slt x then y else x) d a b s

/-- MAX (R139): the signed maximum. -/
def execMax (d a b : BitVec 4) (s : State) : Outcome := aluRR 1 (fun x y => if x.slt y then y else x) d a b s

/-- MINU (R139): the unsigned minimum. -/
def execMinu (d a b : BitVec 4) (s : State) : Outcome := aluRR 1 (fun x y => if y.ult x then y else x) d a b s

/-- MAXU (R139): the unsigned maximum. -/
def execMaxu (d a b : BitVec 4) (s : State) : Outcome := aluRR 1 (fun x y => if x.ult y then y else x) d a b s

/-- SLT (R139): 1 if s[a] < s[b] signed. -/
def execSlt (d a b : BitVec 4) (s : State) : Outcome := aluRR 1 (fun x y => truth (x.slt y)) d a b s

/-- SLTU (R139): 1 if s[a] < s[b] unsigned. -/
def execSltu (d a b : BitVec 4) (s : State) : Outcome := aluRR 1 (fun x y => truth (x.ult y)) d a b s

/-- SEQ (R139): 1 if equal. -/
def execSeq (d a b : BitVec 4) (s : State) : Outcome := aluRR 1 (fun x y => truth (x == y)) d a b s

/-- CLZ (R139): leading zeros. -/
def execClz (d a : BitVec 4) (s : State) : Outcome := aluR leadingZeros d a s

/-- CTZ (R139): trailing zeros. -/
def execCtz (d a : BitVec 4) (s : State) : Outcome := aluR trailingZeros d a s

/-- POPC (R139): number of 1 bits. -/
def execPopc (d a : BitVec 4) (s : State) : Outcome := aluR (onesIn 64) d a s

/-- SEXT_B (R139): sign-extended low byte. -/
def execSextB (d a : BitVec 4) (s : State) : Outcome := aluR (fun x => (x.setWidth 8).signExtend 64) d a s

/-- SEXT_H (R139): sign-extended low 16 bits. -/
def execSextH (d a : BitVec 4) (s : State) : Outcome := aluR (fun x => (x.setWidth 16).signExtend 64) d a s

/-- SEXT_W (R139): sign-extended low 32 bits. -/
def execSextW (d a : BitVec 4) (s : State) : Outcome := aluR (fun x => (x.setWidth 32).signExtend 64) d a s

/-- SEL (R139): s[a] where s[d] is nonzero, else s[b]. -/
def execSel (d a b : BitVec 4) (s : State) : Outcome :=
  .next (writeS 1 d (if s.getS d ≠ 0 then s.getS a else s.getS b) s)

/-- ADDI (R141): sum. -/
def execAddi (d a : BitVec 4) (i : BitVec 14) (s : State) : Outcome := aluRI (· + ·) d a i s

/-- ANDI (R141): and. -/
def execAndi (d a : BitVec 4) (i : BitVec 14) (s : State) : Outcome := aluRI (· &&& ·) d a i s

/-- ORI (R141): or. -/
def execOri (d a : BitVec 4) (i : BitVec 14) (s : State) : Outcome := aluRI (· ||| ·) d a i s

/-- XORI (R141): xor. -/
def execXori (d a : BitVec 4) (i : BitVec 14) (s : State) : Outcome := aluRI (· ^^^ ·) d a i s

/-- SHLI (R141): shift left by the immediate. -/
def execShli (d a : BitVec 4) (i : BitVec 14) (s : State) : Outcome := aluRI (fun x i => x <<< shiftOf i) d a i s

/-- SHRI (R141): logical shift right by the immediate. -/
def execShri (d a : BitVec 4) (i : BitVec 14) (s : State) : Outcome := aluRI (fun x i => x >>> shiftOf i) d a i s

/-- SARI (R141): arithmetic shift right by the immediate. -/
def execSari (d a : BitVec 4) (i : BitVec 14) (s : State) : Outcome := aluRI (fun x i => x.sshiftRight (shiftOf i)) d a i s

/-- SLTI (R141): 1 if s[a] is below the immediate, signed. -/
def execSlti (d a : BitVec 4) (i : BitVec 14) (s : State) : Outcome := aluRI (fun x i => truth (x.slt i)) d a i s

/-- LUI (R142): the sign-extended immediate shifted left by 14. -/
def execLui (d : BitVec 4) (i : BitVec 18) (s : State) : Outcome := .next (writeS 1 d (imm64 i <<< 14) s)

/-- ADPC (R142): the instruction's address plus the shifted immediate. -/
def execAdpc (d : BitVec 4) (i : BitVec 18) (s : State) : Outcome := .next (writeS 1 d (s.th.pc + imm64 i <<< 14) s)

/-! ### 16-bit forms (04 R84) -/

/-- MOV_16 (R84): s[x] := s[y]. -/
def execMov16 (x y : BitVec 4) (s : State) : Outcome := .next (writeS16 1 x (s.getS y) s)

/-- ADD_16 (R84). -/
def execAdd16 (x y : BitVec 4) (s : State) : Outcome := alu16 (· + ·) x y s

/-- SUB_16 (R84). -/
def execSub16 (x y : BitVec 4) (s : State) : Outcome := alu16 (· - ·) x y s

/-- AND_16 (R84). -/
def execAnd16 (x y : BitVec 4) (s : State) : Outcome := alu16 (· &&& ·) x y s

/-- OR_16 (R84). -/
def execOr16 (x y : BitVec 4) (s : State) : Outcome := alu16 (· ||| ·) x y s

/-- ADDI4 (R84): a signed immediate. -/
def execAddi4 (x i : BitVec 4) (s : State) : Outcome := alu16I (· + imm64 i) x s

/-- SHLI4 (R84). -/
def execShli4 (x i : BitVec 4) (s : State) : Outcome := alu16I (· <<< i.toNat) x s

/-- SHRI4 (R84): logical. -/
def execShri4 (x i : BitVec 4) (s : State) : Outcome := alu16I (· >>> i.toNat) x s

/-! ### FP32 arithmetic (06 R143-R146) -/

/-- The FP32 value in the low 32 bits of a scalar register. -/
def fpOf (w : Word) : Num := decodeNum .f32 (w.toNat % 2 ^ 32)

/-- Source a with the modifier's signs (03 R66). -/
def srcA (t : Thread) (w : Word) : Num := applySign t.modifier.absa t.modifier.nega (fpOf w)
/-- Source b with the modifier's signs. -/
def srcB (t : Thread) (w : Word) : Num := applySign t.modifier.absb t.modifier.negb (fpOf w)

/-- An exact FP32 result with its flags is scaled, clamped, rounded once, and on its way with its flags (R143, R144);
SR advances SRC (03 R64). -/
def fpuResult (lat : Nat) (d : BitVec 4) (m : BitVec 3) (x : Num × Flags) (s : State) : Outcome :=
  let mode := s.th.mode m
  let r := finishNum .f32 mode (s.th.drawOf.rbits 0) s.th.modifier x.1
  .next (advance 4 (bumpSrc mode ((s.pushW lat (.s d (BitVec.ofNat 64 r.1))).raise lat (x.2 ||| r.2))))

/-- The sum rounds an exact zero from unlike signs down to −0 only when rounding down. -/
def roundsDown (s : State) (m : BitVec 3) : Bool := s.th.mode m = .rdn

/-- FADD (R144). -/
def execFadd (d a b : BitVec 4) (m : BitVec 3) (s : State) : Outcome :=
  fpuResult 4 d m ((srcA s.th (s.getS a)).add (roundsDown s m) (srcB s.th (s.getS b))) s

/-- FSUB (R144). -/
def execFsub (d a b : BitVec 4) (m : BitVec 3) (s : State) : Outcome :=
  fpuResult 4 d m ((srcA s.th (s.getS a)).add (roundsDown s m) (srcB s.th (s.getS b)).negate) s

/-- FMUL (R144). -/
def execFmul (d a b : BitVec 4) (m : BitVec 3) (s : State) : Outcome :=
  fpuResult 4 d m ((srcA s.th (s.getS a)).mul (srcB s.th (s.getS b))) s

/-- The exact a × b + c with the flags of the product and of the sum (R144). -/
def fusedSum (down : Bool) (a b c : Num) : Num × Flags :=
  let p := a.mul b
  let r := p.1.add down c
  (r.1, p.2 ||| r.2)

/-- FFMA (R144): a × b + d with one rounding. -/
def execFfma (d a b : BitVec 4) (m : BitVec 3) (s : State) : Outcome :=
  fpuResult 4 d m (fusedSum (roundsDown s m) (srcA s.th (s.getS a)) (srcB s.th (s.getS b)) (fpOf (s.getS d))) s

/-- FDIV (R144). -/
def execFdiv (d a b : BitVec 4) (m : BitVec 3) (s : State) : Outcome :=
  fpuResult 14 d m ((srcA s.th (s.getS a)).div (srcB s.th (s.getS b))) s

/-- FSQRT (R144). -/
def execFsqrt (d a : BitVec 4) (m : BitVec 3) (s : State) : Outcome :=
  fpuResult 14 d m (srcA s.th (s.getS a)).sqrt s

/-- A result with flags that no rounding follows. -/
def fpuBits (lat : Nat) (d : BitVec 4) (r : Nat × Flags) (s : State) : Outcome :=
  .next (advance 4 ((s.pushW lat (.s d (BitVec.ofNat 64 r.1))).raise lat r.2))

/-- The low 32 bits of a scalar register. -/
def low32 (w : Word) : Nat := w.toNat % 2 ^ 32

/-- FMIN (R144, R59). -/
def execFmin (d a b : BitVec 4) (s : State) : Outcome :=
  fpuBits 4 d (minMaxBits false .f32 (low32 (s.getS a)) (low32 (s.getS b))) s

/-- FMAX (R144, R59). -/
def execFmax (d a b : BitVec 4) (s : State) : Outcome :=
  fpuBits 4 d (minMaxBits true .f32 (low32 (s.getS a)) (low32 (s.getS b))) s

/-- A comparison of FP32 values (R145). -/
def fpuCompare (r : Nat) (d a b : BitVec 4) (s : State) : Outcome :=
  let x := relation r (fpOf (s.getS a)) (fpOf (s.getS b))
  fpuBits 2 d (x.1.toNat, x.2) s

/-- FCMP_EQ (R145). -/
def execFcmpEq (d a b : BitVec 4) (s : State) : Outcome := fpuCompare 0 d a b s
/-- FCMP_LT (R145). -/
def execFcmpLt (d a b : BitVec 4) (s : State) : Outcome := fpuCompare 2 d a b s
/-- FCMP_LE (R145). -/
def execFcmpLe (d a b : BitVec 4) (s : State) : Outcome := fpuCompare 3 d a b s

/-- An integer converted to FP32 (R146), which no modifier reaches; `quiet`: the rule gives the form no flag. -/
def fromInteger (quiet : Bool) (d : BitVec 4) (m : BitVec 3) (x : Int) (s : State) : Outcome :=
  let mode := s.th.mode m
  let r := roundNum .f32 mode (s.th.drawOf.rbits 0) (.ofInt x)
  .next (advance 4 (bumpSrc mode ((s.pushW 3 (.s d (BitVec.ofNat 64 r.1))).raise 3 (if quiet then 0 else r.2))))

/-- FCVT_F32_I32 (R146): "exact, so no flag", in the rule's words, also where FP32 cannot hold the integer
(notes/assumptions/14.md). -/
def execFcvtF32I32 (d a : BitVec 4) (m : BitVec 3) (s : State) : Outcome :=
  fromInteger true d m (signedOf 32 (low32 (s.getS a))) s

/-- FCVT_F32_I64 (R146): NX when inexact. -/
def execFcvtF32I64 (d a : BitVec 4) (m : BitVec 3) (s : State) : Outcome := fromInteger false d m (s.getS a).toInt s

/-- An FP32 value converted to an integer of n bits (R146): scaled, clamped by SAT, rounded in the mode. -/
def toInteger (n : Nat) (mode : Mode) (rb : Nat) (md : Modifier) (x : Num) : Nat × Flags :=
  let lo : Int := -(2 ^ (n - 1))
  let hi : Int := 2 ^ (n - 1) - 1
  let y := x.scale md.scale
  let c := if md.sat = 1 then clampBetween (.ofInt lo) (.ofInt hi) y else satClamp .i32 md.sat y
  let r := roundInt n (lo, hi) mode rb c.1
  (r.1, c.2 ||| r.2)

/-- A conversion to an integer of n bits, sign-extended (R146). -/
def fpuToInt (n : Nat) (d a : BitVec 4) (m : BitVec 3) (s : State) : Outcome :=
  let mode := s.th.mode m
  let r := toInteger n mode (s.th.drawOf.rbits 0) s.th.modifier (srcA s.th (s.getS a))
  .next (advance 4 (bumpSrc mode ((s.pushW 3 (.s d (sext64 n r.1))).raise 3 r.2)))

/-- FCVT_I32_F32 (R146). -/
def execFcvtI32F32 (d a : BitVec 4) (m : BitVec 3) (s : State) : Outcome := fpuToInt 32 d a m s
/-- FCVT_I64_F32 (R146). -/
def execFcvtI64F32 (d a : BitVec 4) (m : BitVec 3) (s : State) : Outcome := fpuToInt 64 d a m s

/-- FCLASS (R145). -/
def execFclass (d a : BitVec 4) (s : State) : Outcome := fpuBits 2 d (classWord (low32 (s.getS a)), 0) s

/-- FMOV (R144): the low 32 bits, bit for bit. -/
def execFmov (d a : BitVec 4) (s : State) : Outcome := fpuBits 2 d (low32 (s.getS a), 0) s

/-- The low 31 bits with a sign bit. -/
def withSign (a : Word) (sign : Bool) : Nat := a.toNat % 2 ^ 31 + (if sign then 2 ^ 31 else 0)

/-- FSGN_CP (R144): b's sign. -/
def execFsgnCp (d a b : BitVec 4) (s : State) : Outcome :=
  fpuBits 2 d (withSign (s.getS a) ((s.getS b).getLsbD 31), 0) s
/-- FSGN_NEG (R144): the inverse of a's sign. -/
def execFsgnNeg (d a : BitVec 4) (s : State) : Outcome :=
  fpuBits 2 d (withSign (s.getS a) (!(s.getS a).getLsbD 31), 0) s
/-- FSGN_ABS (R144): sign 0. -/
def execFsgnAbs (d a : BitVec 4) (s : State) : Outcome := fpuBits 2 d (withSign (s.getS a) false, 0) s
/-- FSGN_MUL (R144): the exclusive or of the signs. -/
def execFsgnMul (d a b : BitVec 4) (s : State) : Outcome :=
  fpuBits 2 d (withSign (s.getS a) ((s.getS a).getLsbD 31 != (s.getS b).getLsbD 31), 0) s

end Sys2Proof.Machine
end

