-- ==== Sys2Proof/Machine/Transcendental.lean ====
section
/-!
DEFINITION. Reciprocal, reciprocal square root, 2^x and log2 of values (07 R172), to far more bits than FP32 keeps and
with a sticky bit below them, so that rounding the result once rounds the exact value (notes/assumptions/15.md).
-/
namespace Sys2Proof.Machine

/-- 1/x and its flags. -/
def Num.recip (x : Num) : Num × Flags :=
  match x with
  | .nan s => (.nan false, flagIf s flagNV)
  | .inf n => (.zero n, 0)
  | .fin n m e =>
    if m = 0 then (.inf n, flagDZ)
    else let (q, k) := divMag 1 0 m e; (.fin n q k, 0)

/-- 1/√x and its flags. -/
def Num.rsqrt (x : Num) : Num × Flags :=
  match x with
  | .nan s => (.nan false, flagIf s flagNV)
  | .inf n => if n then (.nan false, flagNV) else (.zero false, 0)
  | .fin n m e =>
    if m = 0 then (.inf n, flagDZ)
    else if n then (.nan false, flagNV)
    else
      let (m1, e1) := if e % 2 = 0 then (m, e) else (2 * m, e - 1)
      let y := 2 ^ 600 / m1
      let r := isqrt y
      let exact := 2 ^ 600 % m1 = 0 ∧ r * r = y
      (.fin false (2 * r + (if exact then 0 else 1)) (-301 - e1 / 2), 0)

/-- Binary places kept by `expFrac` and `logFrac`. -/
def fracBits : Nat := 400

/-- 2^f in units of 2^−400, for a fraction f whose bits below the point are given, the first the highest: the product of
the successive square roots of 2 that they name. -/
def expFrac : Nat → Nat → Nat → Nat → Nat
  | 0, _, _, acc => acc
  | n + 1, f, root, acc =>
    -- root is 2^(2^−i) for the bit about to be read, bit n of f
    let acc := if f / 2 ^ n % 2 = 1 then acc * root / 2 ^ fracBits else acc
    expFrac n f (isqrt (root * 2 ^ fracBits)) acc

/-- 2^x and its flags: exact for an integer; below 2^−60 in magnitude x leaves 1 but for a sticky bit. -/
def Num.exp2 (x : Num) : Num × Flags :=
  match x with
  | .nan s => (.nan false, flagIf s flagNV)
  | .inf n => if n then (.zero false, 0) else (.inf false, 0)
  | .fin neg m e =>
    if m = 0 then (.fin false 1 0, 0)
    else if 0 ≤ magLog2 m e ∧ 8 ≤ magLog2 m e then
      -- |x| ≥ 256: far beyond the format on either side
      (.fin false 1 (if neg then -400 else 400), 0)
    else if magLog2 m e < -60 then
      (.fin false (if neg then 2 ^ 100 - 1 else 2 ^ 100 + 1) (-100), 0)
    else
      -- 100 bits below the point hold x exactly
      let v : Int := signedMag neg (m * 2 ^ (e + 100).toNat)
      let n := v / 2 ^ 100
      let f := (v % 2 ^ 100).toNat
      if f = 0 then (.fin false 1 n, 0)
      else
        let r := expFrac 100 f (isqrt (2 * 2 ^ (2 * fracBits))) (2 ^ fracBits)
        (.fin false (2 * r + 1) (n - fracBits - 1), 0)

/-- The bits of log2 of y × 2^−400 below the point, y at least 2^400 and below 2^401: each squaring gives one. -/
def logFrac : Nat → Nat → Nat → Nat
  | 0, _, acc => acc
  | n + 1, y, acc =>
    let z := y * y / 2 ^ fracBits
    if 2 ^ (fracBits + 1) ≤ z then logFrac n (z / 2) (2 * acc + 1) else logFrac n z (2 * acc)

/-- log2 x and its flags: exact for a power of two. -/
def Num.log2 (x : Num) : Num × Flags :=
  match x with
  | .nan s => (.nan false, flagIf s flagNV)
  | .inf n => if n then (.nan false, flagNV) else (.inf false, 0)
  | .fin neg m e =>
    if m = 0 then (.inf true, flagDZ)
    else if neg then (.nan false, flagNV)
    else
      let b := Nat.log2 m
      let n : Int := b + e
      if m = 2 ^ b then (.ofInt n, 0)
      else
        let t := n * 2 ^ 160 + logFrac 160 (m * 2 ^ (fracBits - b)) 0
        let w := 2 * t + 1
        (.fin (decide (w < 0)) w.natAbs (-161), 0)

end Sys2Proof.Machine
end

