-- ==== Sys2Proof/Machine/Vector.lean ====
section
/-!
DEFINITION. Vector and mask instructions (07 R161-R181) and their 16-bit forms (04 R83, 07 R179).
-/
namespace Sys2Proof.Machine

open Sys2Proof

/-! ### Lanes -/

/-- Element values with flags for the enabled elements of w bits (07 R162, R163): the packed result, and the flags of
the enabled ones. -/
def packLanes (w : Nat) (k : KWord) (f : Nat → Nat × Flags) : VWord × Flags :=
  let rs := (List.range 32).map fun i => if k.getLsbD i then f i else (0, 0)
  (BitVec.ofNat 1024 (packElems w (rs.map (·.1))), rs.foldl (fun fl r => fl ||| r.2) 0)

/-- A vector result: its enabled elements of w bits with their flags, of a latency, for an instruction of a length. -/
def vectorResult (len lat w : Nat) (d : BitVec 4) (k : KWord) (f : Nat → Nat × Flags) (s : State) : State :=
  let r := packLanes w k f
  advance len ((s.pushW lat (.v d r.1 (elemMask w k))).raise lat r.2)

/-- Lane i of a vector as an FP32 value. -/
def laneNum (v : VWord) (i : Nat) : Num := decodeNum .f32 (lane v i).toNat

/-- Source a of a lane with the modifier's signs (07 R180). -/
def modA (md : Modifier) (x : Num) : Num := applySign md.absa md.nega x
/-- Source b of a lane with the modifier's signs. -/
def modB (md : Modifier) (x : Num) : Num := applySign md.absb md.negb x

/-! ### Floating lane arithmetic (07 R166) -/

/-- A VFP form: the exact value of each lane with its flags, from d, a and b, rounded once in the mode. -/
def vfp (len : Nat) (op : Bool → Num → Num → Num → Num × Flags) (d a b : BitVec 4) (k : KWord) (m : BitVec 3) (s : State) :
    Outcome :=
  let t := s.th
  let mode := t.mode m
  let md := t.modifier
  let va := s.getV a
  let vb := s.getV b
  let vd := s.getV d
  .next (bumpSrc mode (vectorResult len 4 32 d k (fun i =>
    let x := op (mode = .rdn) (laneNum vd i) (modA md (laneNum va i)) (modB md (laneNum vb i))
    let r := finishNum .f32 mode (t.drawOf.rbits i) md x.1
    (r.1, x.2 ||| r.2)) s))

/-- a + b -/
def laneAdd (down : Bool) (_ a b : Num) : Num × Flags := a.add down b
/-- a − b -/
def laneSub (down : Bool) (_ a b : Num) : Num × Flags := a.add down b.negate
/-- a × b -/
def laneMul (_ : Bool) (_ a b : Num) : Num × Flags := a.mul b
/-- d + a × b -/
def laneFma (down : Bool) (d a b : Num) : Num × Flags := fusedSum down a b d
/-- d − a × b -/
def laneFms (down : Bool) (d a b : Num) : Num × Flags :=
  let p := a.mul b
  let r := d.add down p.1.negate
  (r.1, p.2 ||| r.2)

/-- VADD (R166). -/
def execVadd (d a b : BitVec 4) (k m : BitVec 3) (s : State) : Outcome := vfp 4 laneAdd d a b (s.getK k) m s

/-- VSUB (R166). -/
def execVsub (d a b : BitVec 4) (k m : BitVec 3) (s : State) : Outcome := vfp 4 laneSub d a b (s.getK k) m s

/-- VMUL (R166). -/
def execVmul (d a b : BitVec 4) (k m : BitVec 3) (s : State) : Outcome := vfp 4 laneMul d a b (s.getK k) m s

/-- VFMA (R166). -/
def execVfma (d a b : BitVec 4) (k m : BitVec 3) (s : State) : Outcome := vfp 4 laneFma d a b (s.getK k) m s

/-- VFMS (R166). -/
def execVfms (d a b : BitVec 4) (k m : BitVec 3) (s : State) : Outcome := vfp 4 laneFms d a b (s.getK k) m s

/-- Minimum or maximum of lanes (R59). -/
def vminmax (len : Nat) (wantMax : Bool) (d a b : BitVec 4) (k : KWord) (s : State) : Outcome :=
  .next (vectorResult len 2 32 d k (fun i => minMaxBits wantMax .f32 (lane (s.getV a) i).toNat (lane (s.getV b) i).toNat) s)

/-- VMIN (R166). -/
def execVmin (d a b : BitVec 4) (k : BitVec 3) (s : State) : Outcome := vminmax 4 false d a b (s.getK k) s
/-- VMAX (R166). -/
def execVmax (d a b : BitVec 4) (k : BitVec 3) (s : State) : Outcome := vminmax 4 true d a b (s.getK k) s

/-! ### Integer and logical lane operations (07 R167) -/

/-- A VINT form of two lanes. -/
def vint (len lat : Nat) (f : BitVec 32 → BitVec 32 → BitVec 32) (d a b : BitVec 4) (k : KWord) (s : State) : Outcome :=
  .next (vectorResult len lat 32 d k (fun i => ((f (lane (s.getV a) i) (lane (s.getV b) i)).toNat, 0)) s)

/-- A lane's shift amount: its low 5 bits. -/
def laneShift (b : BitVec 32) : Nat := b.toNat % 32

/-- VIADD (R167). -/
def execViadd (d a b : BitVec 4) (k : BitVec 3) (s : State) : Outcome := vint 4 2 (· + ·) d a b (s.getK k) s

/-- VISUB (R167). -/
def execVisub (d a b : BitVec 4) (k : BitVec 3) (s : State) : Outcome := vint 4 2 (· - ·) d a b (s.getK k) s

/-- VIMUL (R167). -/
def execVimul (d a b : BitVec 4) (k : BitVec 3) (s : State) : Outcome := vint 4 4 (· * ·) d a b (s.getK k) s

/-- VAND (R167). -/
def execVand (d a b : BitVec 4) (k : BitVec 3) (s : State) : Outcome := vint 4 2 (· &&& ·) d a b (s.getK k) s

/-- VOR (R167). -/
def execVor (d a b : BitVec 4) (k : BitVec 3) (s : State) : Outcome := vint 4 2 (· ||| ·) d a b (s.getK k) s

/-- VXOR (R167). -/
def execVxor (d a b : BitVec 4) (k : BitVec 3) (s : State) : Outcome := vint 4 2 (· ^^^ ·) d a b (s.getK k) s

/-- VSHL (R167). -/
def execVshl (d a b : BitVec 4) (k : BitVec 3) (s : State) : Outcome := vint 4 2 (fun x y => x <<< laneShift y) d a b (s.getK k) s

/-- VSHR (R167). -/
def execVshr (d a b : BitVec 4) (k : BitVec 3) (s : State) : Outcome := vint 4 2 (fun x y => x >>> laneShift y) d a b (s.getK k) s

/-- VSAR (R167). -/
def execVsar (d a b : BitVec 4) (k : BitVec 3) (s : State) : Outcome := vint 4 2 (fun x y => x.sshiftRight (laneShift y)) d a b (s.getK k) s

/-! ### Compares (07 R168) -/

/-- A relation of two lanes of type t: 0 FP32, 1 signed, 2 unsigned. -/
def laneRelation (r t : Nat) (a b : BitVec 32) : Bool × Flags :=
  if t = 0 then relation r (decodeNum .f32 a.toNat) (decodeNum .f32 b.toNat)
  else
    let lt := if t = 1 then a.slt b else a.ult b
    let gt := if t = 1 then b.slt a else b.ult a
    ((match r with
      | 0 => a == b | 1 => a != b | 2 => lt | 3 => !gt | 4 => gt | _ => !lt), 0)

/-- VCMP (R168): the enabled bits of a mask register. -/
def execVcmp (d a b : BitVec 4) (k : BitVec 3) (r : BitVec 4) (t : BitVec 3) (s : State) : Outcome :=
  let m := s.getK k
  let rs := (List.range 32).map fun i =>
    if m.getLsbD i then laneRelation r.toNat t.toNat (lane (s.getV a) i) (lane (s.getV b) i) else (false, 0)
  let bits := BitVec.ofNat 32 (packElems 1 (rs.map fun x => x.1.toNat))
  let fl := rs.foldl (fun f x => f ||| x.2) (0 : Flags)
  .next (advance 4 ((s.pushW 2 (.k (d.setWidth 3) bits m)).raise 2 fl))

/-! ### Selection and movement (07 R169, R170) -/

/-- A movement of lanes without flags. -/
def vmove (len lat : Nat) (d : BitVec 4) (k : KWord) (f : Nat → BitVec 32) (s : State) : Outcome :=
  .next (vectorResult len lat 32 d k (fun i => ((f i).toNat, 0)) s)

/-- VSEL (R169): the mask selects; every lane is written. -/
def execVsel (d a b : BitVec 4) (k : BitVec 3) (s : State) : Outcome :=
  vmove 4 2 d (BitVec.allOnes 32) (fun i => if (s.getK k).getLsbD i then lane (s.getV a) i else lane (s.getV b) i) s

/-- VMOV (R169). -/
def execVmov (d a : BitVec 4) (k : BitVec 3) (s : State) : Outcome := vmove 4 2 d (s.getK k) (lane (s.getV a)) s

/-- VBCAST (R169). -/
def execVbcast (d a : BitVec 4) (k : BitVec 3) (s : State) : Outcome :=
  vmove 4 2 d (s.getK k) (fun _ => (s.getS a).setWidth 32) s

/-- VEXT (R169): the lane index is taken modulo 32. -/
def execVext (d a b : BitVec 4) (s : State) : Outcome :=
  .next (writeS 2 d ((lane (s.getV a) ((s.getS b).toNat % 32)).setWidth 64) s)

/-- VINS (R169). -/
def execVins (d a b : BitVec 4) (s : State) : Outcome :=
  vmove 4 2 d (BitVec.ofNat 32 (2 ^ ((s.getS b).toNat % 32))) (fun _ => (s.getS a).setWidth 32) s

/-- VIOTA (R169): the number of enabled lanes below. -/
def execViota (d : BitVec 4) (k : BitVec 3) (s : State) : Outcome :=
  vmove 4 2 d (s.getK k) (fun i => BitVec.ofNat 32 ((lanesOf (s.getK k)).filter (· < i)).length) s

/-- VPERM (R169). -/
def execVperm (d a b : BitVec 4) (k : BitVec 3) (s : State) : Outcome :=
  vmove 4 3 d (s.getK k) (fun i => lane (s.getV a) ((lane (s.getV b) i).toNat % 32)) s

/-- VSLIDE (R170). -/
def execVslide (d a b : BitVec 4) (k : BitVec 3) (u : BitVec 1) (s : State) : Outcome :=
  let n := (s.getS b).toNat
  vmove 4 3 d (s.getK k) (fun i =>
    if u = 0 then (if i + n ≤ 31 then lane (s.getV a) (i + n) else 0)
    else if n ≤ i then lane (s.getV a) (i - n) else 0) s

/-! ### Cross-lane reductions (03 R71, 07 R171) -/

/-- One level of the pairwise tree: adjacent values combined by the node function, whose numbers begin at n. -/
def treeLevel (f : Nat → Nat → Nat → Nat × Flags) : Nat → List Nat → List Nat × Flags
  | n, x :: y :: r =>
    let z := f n x y
    let zs := treeLevel f (n + 1) r
    (z.1 :: zs.1, z.2 ||| zs.2)
  | _, xs => (xs, 0)

/-- The tree from a list of values down to one: `fuel` levels. -/
def treeReduce (f : Nat → Nat → Nat → Nat × Flags) : Nat → Nat → List Nat → List Nat × Flags
  | 0, _, xs => (xs, 0)
  | fuel + 1, n, xs =>
    let l := treeLevel f n xs
    let r := treeReduce f fuel (n + xs.length / 2) l.1
    (r.1, l.2 ||| r.2)

/-- A reduction of the lanes into a scalar; masked-off lanes give the neutral value. -/
def vreduce (f : Nat → Nat → Nat → Nat × Flags) (neutral : Nat) (d a : BitVec 4) (k : BitVec 3) (s : State) : State :=
  let m := s.getK k
  let xs := (List.range 32).map fun i => if m.getLsbD i then (lane (s.getV a) i).toNat else neutral
  let r := treeReduce f 5 0 xs
  advance 4 ((s.pushW 10 (.s d (BitVec.ofNat 64 (r.1.headD 0)))).raise 10 r.2)

/-- An FP32 sum of bits rounded in a mode. -/
def sumBits (mode : Mode) (rb : Nat) (x y : Nat) : Nat × Flags :=
  let r := (decodeNum .f32 x).add (mode = .rdn) (decodeNum .f32 y)
  let w := roundNum .f32 mode rb r.1
  (w.1, r.2 ||| w.2)

/-- VREDSUM (R171). -/
def execVredsum (d a : BitVec 4) (k m : BitVec 3) (s : State) : Outcome :=
  let mode := s.th.mode m
  .next (bumpSrc mode (vreduce (fun n x y => sumBits mode (s.th.drawOf.rbits n) x y) 0x80000000 d a k s))

/-- VREDMAX (R171). -/
def execVredmax (d a : BitVec 4) (k : BitVec 3) (s : State) : Outcome :=
  .next (vreduce (fun _ x y => minMaxBits true .f32 x y) 0xFF800000 d a k s)

/-- VREDMIN (R171). -/
def execVredmin (d a : BitVec 4) (k : BitVec 3) (s : State) : Outcome :=
  .next (vreduce (fun _ x y => minMaxBits false .f32 x y) 0x7F800000 d a k s)

/-! ### Function instructions (07 R172) -/

/-- A VAPX form: each lane the function's value, rounded to nearest even. -/
def vapx (f : Num → Num × Flags) (d a : BitVec 4) (k : BitVec 3) (s : State) : Outcome :=
  .next (vectorResult 4 6 32 d (s.getK k) (fun i =>
    let x := f (laneNum (s.getV a) i)
    let r := roundNum .f32 .rne 0 x.1
    (r.1, x.2 ||| r.2)) s)

/-- VRCP (R172). -/
def execVrcp (d a : BitVec 4) (k : BitVec 3) (s : State) : Outcome := vapx Num.recip d a k s
/-- VRSQ (R172). -/
def execVrsq (d a : BitVec 4) (k : BitVec 3) (s : State) : Outcome := vapx Num.rsqrt d a k s
/-- VEXP2 (R172). -/
def execVexp2 (d a : BitVec 4) (k : BitVec 3) (s : State) : Outcome := vapx Num.exp2 d a k s
/-- VLOG2 (R172). -/
def execVlog2 (d a : BitVec 4) (k : BitVec 3) (s : State) : Outcome := vapx Num.log2 d a k s

/-! ### Conversions (07 R173, R174) -/

/-- Element i of a format in a vector register. -/
def elemNum (f : Fmt) (v : VWord) (i : Nat) : Num := decodeNum f (VElem f.width v i)

/-- VCVT (R173): from format e to format f. -/
def execVcvt (d a e : BitVec 4) (k : BitVec 3) (f : BitVec 4) (m : BitVec 3) (s : State) : Outcome :=
  let t := s.th
  let mode := t.mode m
  let md := t.modifier
  let src := Fmt.ofCode e.toNat
  let dst := Fmt.ofCode f.toNat
  .next (bumpSrc mode (vectorResult 4 4 dst.width d (s.getK k) (fun i =>
    finishNum dst mode (t.drawOf.rbits i) md (modA md (elemNum src (s.getV a) i))) s))

/-- A value rounded to a format's lattice and given as FP32 bits; the flags are those of the rounding into the format alone.
The write back is exact but for a large INT32 (notes/assumptions/14.md). -/
def ontoLattice (f : Fmt) (mode : Mode) (rb : Nat) (md : Modifier) (x : Num) : Nat × Flags :=
  let r := finishNum f mode rb md x
  ((roundNum .f32 mode rb (decodeNum f r.1)).1, r.2)

/-- VSRND (R174). -/
def execVsrnd (d a f : BitVec 4) (k m : BitVec 3) (s : State) : Outcome :=
  let t := s.th
  let mode := t.mode m
  let md := t.modifier
  .next (bumpSrc mode (vectorResult 4 4 32 d (s.getK k) (fun i =>
    ontoLattice (Fmt.ofCode f.toNat) mode (t.drawOf.rbits i) md (modA md (laneNum (s.getV a) i))) s))

/-! ### Quantisation (07 R175, R176, 03 R68) -/

/-- The exponent of a scale register. -/
def scaleK (x : Word) : Int := (x.setWidth 8).toInt

/-- A value out of range of a quantised format (R68). -/
def outOfRange (f : Fmt) (x : Num) : Bool :=
  match x with
  | .nan _ => false
  | .inf _ => true
  | x =>
    if f = .i8 then decide (x.cmp (.ofInt (-128)) < 0) || decide (0 < x.cmp (.ofInt 127))
    else decide (0 < x.absolute.cmp ((scaleMax (match f with
      | .e4m3 => 3 | .e5m2 => 4 | .fp6 => 5 | _ => 6)).getD (.zero false)))

/-- VQNT (R175): the rescale trap of the lowest lane out of range, where SAT is 0; else the quantised elements. -/
def execVqnt (d a : BitVec 4) (b : BitVec 3) (k : BitVec 3) (f : BitVec 4) (m : BitVec 3) (s : State) : Outcome :=
  let t := s.th
  let mode := t.mode m
  let md := t.modifier
  let fmt := Fmt.ofCode f.toNat
  let sc := t.getSc b
  let y (i : Nat) : Num := (laneNum (s.getV a) i).scale (scaleK sc)
  match (if md.sat = 0 then (lanesOf (s.getK k)).find? fun i => outOfRange fmt (y i) else none) with
  | some i =>
    .next (takeTrap { cause := 0x10, fidx := 4, fval := b.toNat, a := (lane (s.getV a) i).setWidth 64
                      v := (sc &&& 0x00FFFFFFFFFFFF00) ||| BitVec.ofNat 64 i } s)
  | none =>
    .next (bumpSrc mode (vectorResult 4 5 8 d (s.getK k) (fun i =>
      finishNum fmt mode (t.drawOf.rbits i) { sat := md.sat } (y i)) s))

/-- VDEQ (R175). NEGA makes −0 of an element of value 0 (notes/assumptions/128.md). -/
def execVdeq (d a : BitVec 4) (b : BitVec 3) (k : BitVec 3) (f : BitVec 4) (m : BitVec 3) (s : State) : Outcome :=
  let t := s.th
  let mode := t.mode m
  let md := t.modifier
  let kk := scaleK (t.getSc b)
  .next (bumpSrc mode (vectorResult 4 4 32 d (s.getK k) (fun i =>
    finishNum .f32 mode (t.drawOf.rbits i) md ((modA md (elemNum (Fmt.ofCode f.toNat) (s.getV a) i)).scale (-kk))) s))

/-- An exponent beyond which a scaled FP32 value rounds alike: the sum of R73 needs no more. -/
def nearExponent (e : Int) : Int := max (-2000) (min 2000 e)

/-- VSACC (R177): vd + va × 2^e with one rounding. -/
def execVsacc (d a b : BitVec 4) (k m : BitVec 3) (s : State) : Outcome :=
  let t := s.th
  let mode := t.mode m
  let md := t.modifier
  let e := nearExponent (s.getS b).toInt
  .next (bumpSrc mode (vectorResult 4 4 32 d (s.getK k) (fun i =>
    let x := (laneNum (s.getV d) i).add (mode = .rdn) ((modA md (laneNum (s.getV a) i)).scale e)
    let r := finishNum .f32 mode (t.drawOf.rbits i) md x.1
    (r.1, x.2 ||| r.2)) s))

/-! ### Mask instructions (07 R178) -/

/-- A mask result of latency 1. -/
def maskResult (d : BitVec 3) (x : KWord) (s : State) : Outcome :=
  .next (advance 4 (s.pushW 1 (.k d x (BitVec.allOnes 32))))

/-- KAND (R178). -/
def execKand (d a b : BitVec 3) (s : State) : Outcome := maskResult d (s.getK a &&& s.getK b) s
/-- KOR (R178). -/
def execKor (d a b : BitVec 3) (s : State) : Outcome := maskResult d (s.getK a ||| s.getK b) s
/-- KXOR (R178). -/
def execKxor (d a b : BitVec 3) (s : State) : Outcome := maskResult d (s.getK a ^^^ s.getK b) s
/-- KNOT (R178). -/
def execKnot (d a : BitVec 3) (s : State) : Outcome := maskResult d (~~~s.getK a) s
/-- KMOV (R178). -/
def execKmov (d a : BitVec 3) (s : State) : Outcome := maskResult d (s.getK a) s
/-- KPOPC (R178). -/
def execKpopc (d : BitVec 4) (a : BitVec 3) (s : State) : Outcome :=
  .next (writeS 2 d (onesIn 32 ((s.getK a).setWidth 64)) s)
/-- KFIRST (R178). -/
def execKfirst (d : BitVec 4) (a : BitVec 3) (s : State) : Outcome :=
  .next (writeS 2 d (BitVec.ofNat 64 ((lanesOf (s.getK a)).headD 32)) s)

/-! ### 16-bit lane forms (04 R83, 07 R179) -/

/-- Every lane. -/
def allLanes : KWord := BitVec.allOnes 32

/-- The 16-bit form of VADD, mode DYN (R83, R179). -/
def execVaddF32 (d x : BitVec 4) (s : State) : Outcome := vfp 2 laneAdd d d x allLanes 7 s

/-- The 16-bit form of VSUB (R83, R179). -/
def execVsubF32 (d x : BitVec 4) (s : State) : Outcome := vfp 2 laneSub d d x allLanes 7 s

/-- The 16-bit form of VMUL (R83, R179). -/
def execVmulF32 (d x : BitVec 4) (s : State) : Outcome := vfp 2 laneMul d d x allLanes 7 s

/-- The 16-bit form of VMAX (R83, R179). -/
def execVmaxF32 (d x : BitVec 4) (s : State) : Outcome := vminmax 2 true d d x allLanes s

/-- The 16-bit form of VMIN (R83, R179). -/
def execVminF32 (d x : BitVec 4) (s : State) : Outcome := vminmax 2 false d d x allLanes s

/-- The 16-bit form of VIADD (R83, R179). -/
def execViadd16 (d x : BitVec 4) (s : State) : Outcome := vint 2 2 (· + ·) d d x allLanes s

/-- The 16-bit form of VISUB (R83, R179). -/
def execVisub16 (d x : BitVec 4) (s : State) : Outcome := vint 2 2 (· - ·) d d x allLanes s

/-- The 16-bit form of VAND (R83, R179). -/
def execVand16 (d x : BitVec 4) (s : State) : Outcome := vint 2 2 (· &&& ·) d d x allLanes s

/-- The 16-bit form of VOR (R83, R179). -/
def execVor16 (d x : BitVec 4) (s : State) : Outcome := vint 2 2 (· ||| ·) d d x allLanes s

/-- The 16-bit form of VXOR (R83, R179). -/
def execVxor16 (d x : BitVec 4) (s : State) : Outcome := vint 2 2 (· ^^^ ·) d d x allLanes s

/-- The 16-bit form of VSHL (R83, R179). -/
def execVshl16 (d x : BitVec 4) (s : State) : Outcome := vint 2 2 (fun x y => x <<< laneShift y) d d x allLanes s

/-- The 16-bit form of VSHR (R83, R179). -/
def execVshr16 (d x : BitVec 4) (s : State) : Outcome := vint 2 2 (fun x y => x >>> laneShift y) d d x allLanes s

/-- The 16-bit form of VMOV (R83, R179). -/
def execVmov16 (d x : BitVec 4) (s : State) : Outcome := vmove 2 2 d allLanes (lane (s.getV x)) s

/-- The 16-bit form of VMOV with the sign inverted (R83, R179). -/
def execVnegF32 (d x : BitVec 4) (s : State) : Outcome := vmove 2 2 d allLanes (fun i => lane (s.getV x) i ^^^ 0x80000000) s

/-- The 16-bit form of VMOV with the sign cleared (R83, R179). -/
def execVabsF32 (d x : BitVec 4) (s : State) : Outcome := vmove 2 2 d allLanes (fun i => lane (s.getV x) i &&& 0x7FFFFFFF) s

/-- The 16-bit form of VFMA of vs and v15, mode DYN (R83, R179). -/
def execVfmac (d x : BitVec 4) (s : State) : Outcome := vfp 2 laneFma d x 15 allLanes 7 s


end Sys2Proof.Machine
end

