-- ==== Sys2Proof/Machine/ArrayEngine.lean ====
section
/-!
DEFINITION. What an array does with the command at the head of its queue (12 R269-R279, 03 R69, R70, R73, R74). A step of
an array is about the array numbered by the event's first argument, a round about the grove.
-/
namespace Sys2Proof.Machine

open Sys2Proof

/-! ### Tiles as bytes -/

/-- n bytes of a memory from an address on, in one pass. -/
def Memory.span : Memory → Nat → Nat → List Byte
  | _, _, 0 => []
  | m, a, n + 1 =>
    let m := m.dropWhile fun p => p.1 < a
    (match m with
      | (i, b) :: _ => if i = a then b else 0
      | [] => 0) :: Memory.span m (a + 1) n

/-- A memory with the bytes from an address on replaced. -/
def Memory.splice (m : Memory) (a : Nat) (bs : List Byte) : Memory :=
  m.filter (fun p => p.1 < a) ++ (bytesAt a bs).filter (fun p => p.2 ≠ 0) ++ m.filter (fun p => a + bs.length ≤ p.1)

/-- Numbers of n bytes each, lowest first. -/
def wordsOf (n : Nat) : Nat → List Byte → List Nat
  | 0, _ => []
  | k + 1, bs => leNat (bs.take n) :: wordsOf n k (bs.drop n)

/-- Lists of n elements each. -/
def rowsOf {α : Type} (n : Nat) : Nat → List α → List (List α)
  | 0, _ => []
  | k + 1, xs => xs.take n :: rowsOf n k (xs.drop n)

/-- The elements of a buffer or tile in a format, FP6 from bits [5:0] of a byte each (R275). -/
def tileElems (f : Fmt) (bs : List Byte) : List Num :=
  if f.width = 16 then (wordsOf 2 (bs.length / 2) bs).map (decodeNum f)
  else bs.map fun b => decodeNum f (if f = .fp6 then b.toNat % 64 else b.toNat)

/-- The 2,048 words of an accumulator tile. -/
def accWords (m : Memory) : List Nat := wordsOf 4 2048 (m.span 0 8192)

/-- An accumulator tile of given words. -/
def accOf (ws : List Nat) : Memory := Memory.ofBytes (ws.flatMap (leBytes 4))

/-! ### The product (R275, 03 R69, R70) -/

/-- Groups of n elements. -/
def groupsOf {α : Type} (n : Nat) (xs : List α) : List (List α) := rowsOf n ((xs.length + n - 1) / n) xs

/-- The exact sum of a group's products; NV for a sum that is a NaN (R69). The sign of a sum that is exactly 0 is that of
adding them one by one (notes/assumptions/113.md). -/
def groupSum (ps : List (Num × Num)) : Num × Flags :=
  let x := match ps.map (fun p => (p.1.mul p.2).1) with
    | [] => .zero false
    | y :: ys => ys.foldl (fun acc z => (acc.add false z).1) y
  (x, flagIf x.isNan flagNV)

/-- An accumulator word with a group's products added (R69, R70). An INT8 addition that saturates raises OF alone
(notes/assumptions/112.md). -/
def accumulate (f : Fmt) (acc : Nat × Flags) (ps : List (Num × Num)) : Nat × Flags :=
  let (x, f1) := groupSum ps
  if f = .i8 then
    let v := match x with
      | .fin n m e => signedOf 32 acc.1 + signedMag n (m * 2 ^ e.toNat)
      | _ => 0
    let w := max (-(2 ^ 31)) (min (2 ^ 31 - 1) v)
    ((w % 2 ^ 32).toNat, acc.2 ||| flagIf (v ≠ w) flagOF)
  else
    let (g, f2) := roundNum .f32 .rne 0 x
    let (y, f3) := (decodeNum .f32 acc.1).add false (decodeNum .f32 g)
    let (w, f4) := roundNum .f32 .rne 0 y
    (w, acc.2 ||| f1 ||| f2 ||| f3 ||| f4)

/-- A row and a column multiplied into an accumulator word, group by group. -/
def dotInto (f : Fmt) (acc : Nat) (row col : List Num) : Nat × Flags :=
  (groupsOf (if f.width = 16 then 16 else 32) (row.zip col)).foldl (accumulate f) (acc, 0)

/-- Columns of a matrix given by rows. -/
def columnsOf (n : Nat) (rows : List (List Num)) : List (List Num) :=
  (List.range n).map fun j => rows.map fun r => r.getD j (.zero false)

/-- Elements of a row of an A buffer in a format. -/
def depthOf (f : Fmt) : Nat := if f.width = 16 then 128 else 256

/-- The product of a buffer and a tile into an accumulator tile, with the flags (R275). -/
def tileProduct (f : Fmt) (swapped : Bool) (h : Nat) (a b : List Byte) (acc : Memory) : Memory × Flags :=
  let k := depthOf f
  let rows := rowsOf k 32 (tileElems f a)
  let tile := rowsOf 64 k (tileElems f b)
  let pairs := if swapped then (rows.map (·.take 64), (tile.drop (64 * h)).take 64) else (rows, columnsOf 64 tile)
  let outs := (rowsOf 64 32 (accWords acc)).zip pairs.1 |>.flatMap fun r => (r.1.zip pairs.2).map fun c => dotInto f c.1 r.2 c.2
  (accOf (outs.map (·.1)), outs.foldl (fun x o => x ||| o.2) 0)

/-! ### The head of a queue -/

/-- The array that an event is about, and its head command, where the array is not frozen. -/
def headCommand (s : State) (arr : Nat) : Option ArrayCmd :=
  let x := s.array arr
  if x.frozen then none else x.aq.head?

/-- The head command of an array is done and leaves the queue. -/
def popArray (arr : Nat) (s : State) : State :=
  let x := s.array arr
  s.setArray arr { x with aq := x.aq.drop 1 }

/-- An array changed. -/
def State.onArray (s : State) (arr : Nat) (f : MArray → MArray) : State := s.setArray arr (f (s.array arr))

/-- Flags ORed into an accumulator's flag register. -/
def orAccf (arr n : Nat) (f : BitVec 32) (s : State) : State :=
  s.onArray arr fun x => { x with accf := x.accf.setIfInBounds n (x.accf.toList.getD n 0 ||| f) }

/-- An accumulator tile. -/
def MArray.tile (x : MArray) (n : Nat) : Memory := x.acc.toList.getD n []

/-- A command may touch its places in memory: what its thread did before and must come before is performed (R270). -/
def arrayMay (c : ArrayCmd) (s : State) : Bool :=
  match s.thread? c.tid with
  | some t => mayPerform s t c.id c.places
  | none => true

/-- The bytes an array reads for a command, and whether a data error was met: it is recorded against the issuing thread
with the address of the byte (R270). -/
def arrayRead (c : ArrayCmd) (addr : Nat → Word) (ls : List Loc) (s : State) : List Byte × Bool × State :=
  let (bs, s) := standRead (standOfCore c.core) ls (settleGrove (groveOfCore c.core) ls s)
  match settleBad (s.bad.length + 1) ls s with
  | .ok s => (bs, false, s)
  | .error (i, b, s) =>
    (bs, true, (retire b s).onThread c.tid fun t => { t with dataErr := t.dataErr <|> some (addr i, BitVec.ofNat 64 b.tv) })

/-- An array writes bytes at places for a command (R270): a store of its thread. -/
def arrayStore (c : ArrayCmd) (ls : List Loc) (bs : List Byte) (issuer : LogEntry) (s : State) : State :=
  coreStore c.part c.core { stand := standOfCore c.core, tid := c.tid } (ls.zip bs) issuer (settleGrove (groveOfCore c.core) ls s)

/-- The issuer of a command as log entries name it. -/
def ArrayCmd.entry (arr : Nat) (c : ArrayCmd) (cause : Nat) : LogEntry :=
  { cause := cause, unit := unitOfArray arr, issuer := 4 * c.core + c.slot, ttag := c.ttag, pc := c.pc, word := c.word }

/-- The storage fault that a read of n bytes of an array's slice of the plane store meets, those that the code corrects or
the retry cures only counted (09 R228, R229). -/
def sliceFault (arr off n : Nat) : Nat → State → Option BadStorage × State
  | 0, s => (none, s)
  | k + 1, s =>
    match badSlice s arr off n with
    | none => (none, s)
    | some b => if b.passes then sliceFault arr off n k (retire b s) else (some b, s)

/-- Where a fault of the plane store lies: the byte's offset in its slice (notes/assumptions/98.md). -/
def BadStorage.offset (b : BadStorage) : Word :=
  match b.at_ with
  | .plane _ o => BitVec.ofNat 64 o
  | .mem _ => 0

/-- An array reads n bytes of its slice for a command (09 R229); on a fault the command ends, and the error is logged. -/
def sliceChecked (arr part : Nat) (e : LogEntry) (off n : Nat) (s : State) : Except State State :=
  match sliceFault arr off n (s.bad.length + 1) s with
  | (none, s) => .ok s
  | (some b, s) => .error ((retire b s).logAsync part { e with cause := 0x12, addr := b.offset, value := BitVec.ofNat 64 b.tv })

/-- After a data error each byte being loaded is old or new, which a free choice tells (R270). -/
def mixBytes (failed : Bool) (old new : List Byte) (s : State) : List Byte :=
  if failed then (old.zip new).zipIdx.map fun p => if Config.freeBits p.2 s.free % 2 = 0 then p.1.1 else p.1.2 else new

/-- The address of byte i of a command's memory operand. -/
def ArrayCmd.byteAddr (c : ArrayCmd) (i : Nat) : Word := c.a + BitVec.ofNat 64 i

/-- Tile elements as they stand in a slice or buffer: FP6 unpacked one a byte (R53). -/
def unpackTile (f : Fmt) (bs : List Byte) : List Byte := if f = .fp6 then (unpackFp6 bs).map (BitVec.ofNat 8) else bs

/-! ### The steps -/

/-- MOWN_EXECUTE (R271). -/
def execMownExecute (s : State) : Outcome :=
  match headCommand s s.arg.a with
  | some c =>
    match c.instr with
    | .mown l => .next (popArray s.arg.a (s.onArray s.arg.a fun x => { x with own := ownAfter (l = 1) c.core x.own }))
    | _ => .next s
  | none => .next s

/-- A command may read and free slots of a deck: what its thread did to those bytes and must come before is performed, and its
earlier loads from the deck have returned (R270, R273, 08 R193). -/
def arrayMayFree (c : ArrayCmd) (d : Deck) (ls : List Loc) (s : State) : Bool :=
  match s.thread? c.tid with
  | some t => mayPerform s t c.id ls && !readsDeck s t c.id d
  | none => true

/-- MLDA_EXECUTE (R273): from a deck it waits as a consumer, reads from HEAD, then frees the slots. Toward what the thread does
after it the deck's own protocol orders the bytes (R193, notes/assumptions/97.md). -/
def execMldaExecute (s : State) : Outcome :=
  match headCommand s s.arg.a with
  | some c =>
    match c.instr with
    | .mlda n _ f _ =>
      let fmt := Fmt.ofCode f.toNat
      let len := aTileBytes fmt
      let load (r : List Byte × Bool × State) : State :=
        let (bs, failed, s) := r
        let new := unpackTile fmt bs
        let old := ((s.array s.arg.a).abuf.toList.getD n.toNat []).span 0 8192
        (s.onArray s.arg.a fun x => { x with abuf := x.abuf.setIfInBounds n.toNat (Memory.ofBytes (mixBytes failed old new s)) }).draw
      match c.decks with
      | (core, off) :: _ =>
        let d := unitDeck false core off s
        let ls := (List.range len).map fun i => Loc.ls core (deckByte d true i)
        if decide (d.fill * d.size < len) || !arrayMayFree c d ls s then .next s
        else
          let s := syncStand (standOfCore core) s
          let s := load (arrayRead c (fun i => cbAddr (deckByte d true i)) ls s)
          .next (popArray s.arg.a (deckStore (deckConsume (len / d.size) (deckAt core off s)) s))
      | [] => .next (if arrayMay c s then popArray s.arg.a (load (arrayRead c c.byteAddr c.places s)) else s)
    | _ => .next s
  | none => .next s

/-- A tile is written to a position; tile registers that hold it are invalid (R274). -/
def writeTile (t : Nat) (bs : List Byte) (x : MArray) : MArray :=
  { x with slice := x.slice.splice (16384 * t) bs, tileRegs := x.tileRegs.filter (· ≠ t) }

/-- The commands of a BC MLDB in the other queues take the tile that was read, and whether its read failed. -/
def shareTile (id : Nat) (bs : List Byte) (failed : Bool) (s : State) : State :=
  { s with arrays := s.arrays.map fun p =>
      (p.1, { p.2 with aq := p.2.aq.map fun c => if c.id = id then { c with data := some bs, failed := failed, locs := [] } else c }) }

/-- A tile that was read goes to a position of an array's slice; of one whose read failed, each byte is old or new (R270). -/
def placeTile (arr t : Nat) (bs : List Byte) (failed : Bool) (s : State) : State :=
  let old := (s.array arr).slice.span (16384 * t) 16384
  (s.onArray arr (writeTile t (mixBytes failed old bs s))).draw

/-- MLDB_EXECUTE (R274): the first array that executes a BC MLDB reads the tile for all four. -/
def execMldbExecute (s : State) : Outcome :=
  match headCommand s s.arg.a with
  | some c =>
    match c.instr with
    | .mldb _ _ f bc =>
      let t := c.b.toNat % 256
      match c.data with
      | some bs => .next (popArray s.arg.a (placeTile s.arg.a t bs c.failed s))
      | none =>
        if arrayMay c s then
          let (bs, failed, s) := arrayRead c c.byteAddr c.places s
          let tile := unpackTile (Fmt.ofCode f.toNat) bs
          .next (popArray s.arg.a (placeTile s.arg.a t tile failed (if bc = 1 then shareTile c.id tile failed s else s)))
        else .next s
    | _ => .next s
  | none => .next s

/-- The tile registers after an MMA that reads a position: the two banks hold the latest two. -/
def loadTileRegs (t : Nat) (regs : List Nat) : List Nat := if regs.contains t then regs else (t :: regs).take 2

/-- An array computes an MMA with a tile. -/
def runMma (arr : Nat) (n m : Nat) (f : Fmt) (swapped : Bool) (h : Nat) (tile : List Byte) (s : State) : State :=
  let x := s.array arr
  let (acc, fl) := tileProduct f swapped h ((x.abuf.toList.getD m []).span 0 8192) tile (x.tile n)
  orAccf arr n (fl.setWidth 32) (s.setArray arr { x with acc := x.acc.setIfInBounds n acc })

/-- MMA_EXECUTE (R275); one whose tile cannot be read ends without effect (09 R229). -/
def execMmaExecute (s : State) : Outcome :=
  match headCommand s s.arg.a with
  | some c =>
    match c.instr with
    | .mma n m _ f sw bc =>
      if bc = 1 then .next s
      else
        let t := c.a.toNat % 256
        match sliceChecked s.arg.a c.part (c.entry s.arg.a 0x12) (16384 * t) 16384 s with
        | .error s => .next (popArray s.arg.a s)
        | .ok s =>
          let x := s.array s.arg.a
          let tile := x.slice.span (16384 * t) 16384
          let s := s.setArray s.arg.a { x with tileRegs := loadTileRegs t x.tileRegs }
          .next (popArray s.arg.a
            (runMma s.arg.a n.toNat m.toNat (Fmt.ofCode f.toNat) (sw = 1) (c.a.toNat / 1024 % 4) tile s))
    | _ => .next s
  | none => .next s

/-- The head of an array's queue where it is a BC MMA. -/
def headRound (s : State) (arr : Nat) : Option ArrayCmd :=
  (headCommand s arr).filter fun c => match c.instr with
    | .mma _ _ _ _ _ bc => bc = 1
    | _ => false

/-- One array's part of a round. -/
def runRound (tile : List Byte) (s : State) (arr : Nat) : State :=
  match headRound s arr with
  | some c =>
    match c.instr with
    | .mma n m _ f sw _ =>
      popArray arr (runMma arr n.toNat m.toNat (Fmt.ofCode f.toNat) (sw = 1) (c.a.toNat / 1024 % 4) tile s)
    | _ => s
  | none => s

/-- MMA_BC_ROUND (R276): when the four heads of grove a are BC MMAs, array 0's tile goes to all; where it cannot be read the
round ends without effect (09 R229). -/
def execMmaBcRound (s : State) : Outcome :=
  let arrs := (List.range 4).map fun q => 4 * s.arg.a + q
  if arrs.all fun j => (headRound s j).isSome then
    match headRound s (4 * s.arg.a) with
    | some c =>
      let t := c.a.toNat % 256
      match sliceChecked (4 * s.arg.a) c.part (c.entry (4 * s.arg.a) 0x12) (16384 * t) 16384 s with
      | .error s => .next (arrs.foldl (fun s j => popArray j s) s)
      | .ok s =>
        let x := s.array (4 * s.arg.a)
        let tile := x.slice.span (16384 * t) 16384
        let s := s.setArray (4 * s.arg.a) { x with tileRegs := loadTileRegs t x.tileRegs }
        .next (arrs.foldl (runRound tile) s)
    | none => .next s
  else .next s

/-! ### Drains (R277) -/

/-- The least and greatest value that a conversion to a format without infinities delivers (03 R57): for SAP8 its caps. -/
def drainBounds (f : Fmt) : Num × Num := if f = .sap8 then (.fin true 1 11, .fin false 1 11) else satBounds f 1

/-- What a conversion saturates: a value beyond what the format delivers, where the format has no infinity (R277). -/
def drainSaturates (f : Fmt) (x : Num) : Bool :=
  (f = .e4m3 || f = .fp6 || f = .sap8 || f = .i8 || f = .i32) && !x.isNan
    && (let b := drainBounds f; decide (x.cmp b.1 < 0) || decide (0 < x.cmp b.2))

/-- One element's conversion: its bits, the flags, and whether it saturated. -/
def drainElem (f : Fmt) (mode : Mode) (rbits : Nat) (md : Modifier) (x : Num) : Nat × Flags × Bool :=
  let (y, f1) := satClamp f md.sat (x.scale md.scale)
  let (w, f2) := roundNum f mode rbits y
  (w, f1 ||| f2, f1 ≠ 0 || drainSaturates f y)

/-- The exponent a drain adds from its scale register (R277). -/
def drainScale (f : Fmt) (sc : Word) : Int :=
  if f = .e4m3 || f = .e5m2 || f = .fp6 || f = .sap8 || f = .i8 then scaleK sc else 0

/-- The converted elements of a tile, in row-major order. -/
def drainTile (c : ArrayCmd) (f : Fmt) (acc : Memory) : List (Nat × Flags × Bool) :=
  let md := Modifier.ofWord c.modw
  let md := { md with scale := md.scale + drainScale f c.sc }
  let src : Fmt := if f = .i8 || f = .i32 then .i32 else .f32
  (accWords acc).zipIdx.map fun p => drainElem f (Mode.ofCode c.mode) (c.draw.rbits p.2) md (decodeNum src p.1)

/-- Elements written row-major, or transposed with CT: element (m, n) at 32n + m (R277). -/
def drainOrder (ct : Bool) (ws : List Nat) : List Nat :=
  if ct then
    let rows := rowsOf 64 32 ws
    (List.range 64).flatMap fun j => rows.map fun r => r.getD j 0
  else ws

/-- A drain converts its tile: the flags go to ACCF and the thread's FCSR, the bytes stay with the command. -/
def convertDrain (arr : Nat) (c : ArrayCmd) (n : Nat) (f : Fmt) (ct : Bool) (s : State) : List Byte × State :=
  let out := drainTile c f ((s.array arr).tile n)
  let fl : Flags := out.foldl (fun x o => x ||| o.2.1) 0
  let sat := out.any fun o => o.2.2
  let s := orAccf arr n (fl.setWidth 32 ||| (if sat then 0x20 else 0)) s
  let acc := (s.array arr).accf.toList.getD n 0
  let bs := elemsToBytes f (drainOrder ct (out.map (·.1)))
  let s := s.onThread c.tid fun t => { t with fcsr := t.fcsr ||| (acc &&& 0x1F) }
  (bs, s.onArray arr fun x => { x with aq := x.aq.map fun d => if d.id = c.id then { d with data := some bs } else d })

/-- The statistics partial of a drain's delivered values leaves for its record (R277); the command keeps the message's
number. -/
def sendDrainPartial (arr : Nat) (c : ArrayCmd) (f : Fmt) (bs : List Byte) (s : State) : State :=
  let p := Partial.ofNums ((bytesToElems f bs).map (decodeNum f))
  let n := s.fresh
  let s := s.sendFrom (arrayUnit arr + 1) 0 (.statistics c.part (BitVec.ofNat 64 (c.sc.extractLsb' 8 16).toNat) p (c.entry arr 0x1F))
  s.onArray arr fun x => { x with aq := x.aq.map fun d => if d.id = c.id then { d with sent := some n } else d }

/-- A partial that was sent as a message has reached its record (17 R334). -/
def partialThere (sent : Option Nat) (s : State) : Bool := sent.all fun n => !s.msgs.any (·.seq == n)

/-- A drain is done: it leaves the queue, and its completion pulse goes out (17 R339, R346). -/
def finishDrainCmd (arr : Nat) (s : State) : State := (popArray arr s).pulse (arrayUnit arr) (groveOfArray arr) (arr % 4)

/-- A drain's bytes: those that it converts now, or has converted. -/
def drainedBytes (arr : Nat) (c : ArrayCmd) (n : Nat) (f : Fmt) (ct : Bool) (s : State) : List Byte × State :=
  match c.data with
  | some bs => (bs, s)
  | none => convertDrain arr c n f ct s

/-- MDRAIN_EXECUTE (R277): to memory at once; to a deck slot by slot, each published as it is filled. A statistics partial has
reached its record before the drain is done, and before anything is published in a deck (17 R338). -/
def execMdrainExecute (s : State) : Outcome :=
  let arr := s.arg.a
  match headCommand s arr with
  | some c =>
    match c.instr with
    | .mdrain n _ _ f _ ct st _ =>
      let fmt := Fmt.ofCode f.toNat
      let begins := st = 1 && c.sent.isNone
      if !partialThere c.sent s then .next s
      else match c.decks with
      | (core, off) :: _ =>
        let d := unitDeck true core off s
        if !performedBefore s c.tid c.id 3 then .next s
        else if begins then
          let (bs, s) := drainedBytes arr c n.toNat fmt (ct = 1) s
          .next (sendDrainPartial arr c fmt bs s)
        else if 0 < d.room then
          let (bs, s) := drainedBytes arr c n.toNat fmt (ct = 1) s
          let slot := (bs.drop (d.size * c.left)).take d.size
          let s := storeLocs { stand := standOfCore core, tid := c.tid } (slot.zipIdx.map fun p => (Loc.ls core (deckByte d false p.2), p.1)) s
          let s := deckStore (deckPublish 1 (deckAt core off s)) s
          if bs.length ≤ d.size * (c.left + 1) then .next (finishDrainCmd arr s)
          else .next (s.onArray arr fun x => { x with aq := x.aq.map fun d => if d.id = c.id then { d with left := d.left + 1 } else d })
        else .next s
      | [] =>
        if c.sent.isSome then .next (finishDrainCmd arr s)
        else if arrayMay c s then
          let (bs, s) := drainedBytes arr c n.toNat fmt (ct = 1) s
          let s := arrayStore c c.places bs (c.entry arr 0) s
          .next (if begins then sendDrainPartial arr c fmt bs s else finishDrainCmd arr s)
        else .next s
    | _ => .next s
  | none => .next s

/-- MZERO_EXECUTE (R278). -/
def execMzeroExecute (s : State) : Outcome :=
  match headCommand s s.arg.a with
  | some c =>
    match c.instr with
    | .mzero n => .next (popArray s.arg.a (s.onArray s.arg.a fun x =>
        { x with acc := x.acc.setIfInBounds n.toNat [], accf := x.accf.setIfInBounds n.toNat 0 }))
    | _ => .next s
  | none => .next s

/-- One element of MSACC (R73): one rounding of the exact value. -/
def sumScaled (e : Int) (d x : Nat) : Nat × Flags :=
  let (y, f1) := (decodeNum .f32 d).add false ((decodeNum .f32 x).scale e)
  let (w, f2) := roundNum .f32 .rne 0 y
  (w, f1 ||| f2)

/-- MSACC_EXECUTE (R278). -/
def execMsaccExecute (s : State) : Outcome :=
  match headCommand s s.arg.a with
  | some c =>
    match c.instr with
    | .msacc d n _ =>
      let x := s.array s.arg.a
      let e := nearExponent c.a.toInt
      let out := ((accWords (x.tile d.toNat)).zip (accWords (x.tile n.toNat))).map fun p => sumScaled e p.1 p.2
      let fl : Flags := out.foldl (fun f o => f ||| o.2) 0
      let s := s.setArray s.arg.a { x with acc := x.acc.setIfInBounds d.toNat (accOf (out.map (·.1))) }
      .next (popArray s.arg.a (orAccf s.arg.a d.toNat (fl.setWidth 32) s))
    | _ => .next s
  | none => .next s

/-- MSWAP_EXECUTE (R279): the block is read, the tile and its flags are written there, and the block's become theirs. The
reserved bytes of the block stay as they were (notes/assumptions/120.md). -/
def execMswapExecute (s : State) : Outcome :=
  let arr := s.arg.a
  match headCommand s arr with
  | some c =>
    match c.instr with
    | .mswap n _ =>
      if arrayMay c s then
        let (bs, failed, s) := arrayRead c c.byteAddr c.places s
        let x := s.array arr
        let old := (x.tile n.toNat).span 0 8192 ++ leBytes 4 (x.accf.toList.getD n.toNat 0).toNat
        let new := mixBytes failed old (bs.take 8196) s
        let s := arrayStore c (c.places.take 8196) old (c.entry arr 0) s.draw
        .next (popArray arr (s.onArray arr fun x =>
          { x with
            acc := x.acc.setIfInBounds n.toNat (Memory.ofBytes (new.take 8192))
            accf := x.accf.setIfInBounds n.toNat (BitVec.ofNat 32 (leField new 8192 4 % 64)) }))
      else .next s
    | _ => .next s
  | none => .next s

/-- MFLAG_EXECUTE (R278): ACCF returns to the thread and is cleared. -/
def execMflagExecute (s : State) : Outcome :=
  match headCommand s s.arg.a with
  | some c =>
    match c.instr with
    | .mflag _ n =>
      let v := (s.array s.arg.a).accf.toList.getD n.toNat 0
      let s := match c.load with
        | some l => s.fillLoad c.tid l (.data (v.setWidth 1024) false)
        | none => s
      .next (popArray s.arg.a (s.onArray s.arg.a fun x => { x with accf := x.accf.setIfInBounds n.toNat 0 }))
    | _ => .next s
  | none => .next s

end Sys2Proof.Machine
end

