-- ==== Sys2Proof/Machine/Control.lean ====
section
/-!
DEFINITION. Branches, jumps, loops, traps, control registers, YIELD and END, frame cells (06 R133, R147-R160), and the
modifier word (04 R85-R87).
-/
namespace Sys2Proof.Machine

open Sys2Proof

/-! ### Branches and jumps (06 R147, R148) -/

/-- A branch of a length: to the pc plus an offset, or past the instruction. -/
def branchIf (len : Nat) (c : Bool) (off : Word) (s : State) : Outcome :=
  .next (if c then jumpTo (s.th.pc + off) s else advance len s)

/-- BEQ (R147). -/
def execBeq (a b : BitVec 4) (i : BitVec 14) (s : State) : Outcome := branchIf 4 (s.getS a == s.getS b) (branchOffset i) s
/-- BNE (R147). -/
def execBne (a b : BitVec 4) (i : BitVec 14) (s : State) : Outcome := branchIf 4 (s.getS a != s.getS b) (branchOffset i) s
/-- BLT (R147): signed. -/
def execBlt (a b : BitVec 4) (i : BitVec 14) (s : State) : Outcome := branchIf 4 ((s.getS a).slt (s.getS b)) (branchOffset i) s
/-- BGE (R147): signed. -/
def execBge (a b : BitVec 4) (i : BitVec 14) (s : State) : Outcome := branchIf 4 (!(s.getS a).slt (s.getS b)) (branchOffset i) s
/-- BLTU (R147): unsigned. -/
def execBltu (a b : BitVec 4) (i : BitVec 14) (s : State) : Outcome := branchIf 4 ((s.getS a).ult (s.getS b)) (branchOffset i) s
/-- BGEU (R147): unsigned. -/
def execBgeu (a b : BitVec 4) (i : BitVec 14) (s : State) : Outcome := branchIf 4 (!(s.getS a).ult (s.getS b)) (branchOffset i) s
/-- BZ (04 R84): the 5-bit offset has its sign in bit 15 of the parcel. -/
def execBz (x i : BitVec 4) (h : BitVec 1) (s : State) : Outcome := branchIf 2 (s.getS x == 0) (branchOffset (h ++ i)) s
/-- BNZ (04 R84). -/
def execBnz (x i : BitVec 4) (h : BitVec 1) (s : State) : Outcome := branchIf 2 (s.getS x != 0) (branchOffset (h ++ i)) s

/-- CALL (R148): the link, of latency 1, and the jump; with d = 0 it is JMP. -/
def execCall (d : BitVec 4) (i : BitVec 18) (s : State) : Outcome :=
  .next (jumpTo (s.th.pc + branchOffset i) (s.pushW 1 (.s d (s.th.pc + 4))))

/-- A jump to a register's value, refused when odd (04 R76): the field's index and value are the trap's. -/
def jumpReg (fval : Nat) (target : Word) (link : State → State) (s : State) : Outcome :=
  if target.getLsbD 0 then .next (takeTrap { cause := 2, fidx := 3, fval := fval, a := target } s)
  else .next (jumpTo target (link s))

/-- JR (R148). -/
def execJr (a : BitVec 4) (s : State) : Outcome := jumpReg a.toNat (s.getS a) id s
/-- CALLR (R148): the target is read before the link is written. -/
def execCallr (d a : BitVec 4) (s : State) : Outcome :=
  jumpReg a.toNat (s.getS a) (fun s => s.pushW 1 (.s d (s.th.pc + 4))) s
/-- JR_16 (04 R84). -/
def execJr16 (y : BitVec 4) (s : State) : Outcome := jumpReg y.toNat (s.getS y) id s
/-- CALLR_16 (04 R84): links the pc + 2 in s15. -/
def execCallr16 (y : BitVec 4) (s : State) : Outcome :=
  jumpReg y.toNat (s.getS y) (fun s => s.pushW 1 (.s 15 (s.th.pc + 2))) s

/-! ### Hardware loops (06 R150) -/

/-- The length of the instruction whose first parcel is given, with the instruction that a modifier word modifies. -/
def lengthFrom (parcel : Nat) : Nat := if parcel % 2 = 0 then 2 else if parcel / 16 % 64 = 0x3F then 8 else 4

/-- LOOP (R150): arms a level and enters the body, or disarms the level and skips it. The address after the body's last
instruction is found by its first parcel; a fault of that fetch is the LOOP's. The registers are written with latency 1 (04 R94). -/
def execLoop (a : BitVec 4) (l : BitVec 1) (i : BitVec 14) (s : State) : Outcome :=
  let count := s.getS a
  let last := s.th.pc + branchOffset i
  let first := s.th.pc + 4
  if i = 1 then .next (advance 4 (s.pushW 1 (.loop l 0 first last)))
  else if count = 0 then
    match fetchParcel last s with
    | .error t => .next (takeTrap t s)
    | .ok (p, s) => .next (jumpTo (last + BitVec.ofNat 64 (lengthFrom p)) (s.pushW 1 (.loop l 0 first last)))
  else .next (advance 4 (s.pushW 1 (.loop l count first last)))

/-! ### Traps on purpose (06 R154, R156) and IFENCE (06 R158) -/

/-- TRAP (R154): TRAPPC is the next instruction. -/
def execTrap (x : BitVec 10) (s : State) : Outcome :=
  .next (takeTrap { cause := 6, v := x.setWidth 64, next := true } s)

/-- BRK (R154): TRAPPC is the BRK itself. -/
def execBrk (x : BitVec 10) (s : State) : Outcome := .next (takeTrap { cause := 7, v := x.setWidth 64 } s)

/-- ERET (R156). -/
def execEret (s : State) : Outcome := returnFromTrap s

/-- What an IFENCE waits for (R158): the thread's own atomics and reductions, and its arrays' writes, which its loads would find
behind them. Its queued stores show in its fetches as they are. -/
def ifenceWork (s : State) : List Nat := s.th.atq.map (·.no) ++ ((s.threadCmds s.th.id).filter fun c => c.stores && !c.locs.isEmpty).map (·.id)

/-- IFENCE (R158): the core's cached parcels go; it orders no data access. -/
def execIfence (s : State) : Outcome :=
  let s := (s.th.atq.map (·.no)).foldl (performNo 3 s.th.id) s
  match ifenceWork s with
  | [] => .next (advance 4 ((s.onCore fun c => { c with icache := [] }).onTh fun t => { t with ifence := s.fresh }))
  | work => .next (holdForWork work s)

/-! ### Control registers (06 R131-R133) -/

/-- Events that count timing, of which the manual gives no values (17 R353). -/
def timingEvent (ev : Nat) : Bool := ev = 1 || (4 ≤ ev && ev ≤ 7) || (0x0A ≤ ev && ev ≤ 0x0C) || ev = 0x12

/-- A performance counter counts timing: its event is one, and some privilege is selected or the event takes no heed of it
(17 R352, R353). -/
def timingCounter (c : Core) (i : Nat) : Bool :=
  let sel := c.pmsel.toList.getD i 0
  let ev := (sel.extractLsb' 0 8).toNat
  timingEvent ev && (ev = 1 || sel.getLsbD 8 || sel.getLsbD 9)

/-- A control register as CSRR reads it: a counter of timing gives a free value (notes/assumptions/5.md). -/
def csrValue (n : Nat) (s : State) : Word × State :=
  if 0x020 ≤ n && n ≤ 0x027 && timingCounter s.myCore (n - 0x020) then
    (BitVec.ofNat 64 (Config.freeBits 64 s.free), s.draw)
  else (csrRead n s, s)

/-- The refusal of a read for privilege (R132): MPRIV lets privilege 1 read the privileged registers. -/
def csrReadRefused (n : Nat) (s : State) : Bool :=
  let p := s.th.priv.toNat
  decide (p < csrReadPriv n) && !(decide (p = 1) && decide (0x100 ≤ n) && s.myCore.mpriv.getLsbD 0)

/-- CSRR (R133). -/
def execCsrr (d : BitVec 4) (x : BitVec 10) (s : State) : Outcome :=
  let n := x.toNat
  if csrReadRefused n s then .next (takeTrap (denied 5 (n % 256)) s)
  else let (v, s') := csrValue n s; .next (writeS 2 d v s')

/-- A write, set or clear of a control register (R133): refused for the class, then where the register is read-only at
the thread's privilege; CSRS and CSRC take the register's value as an instruction at their place sees it, and the result
is visible to instructions at issue distance 2 (04 R94). Selecting another event for a counter of
timing leaves it a free value. -/
def csrWrite (op : Nat) (a : BitVec 4) (x : BitVec 10) (s : State) : Outcome :=
  let n := x.toNat
  let p := s.th.priv.toNat
  if p < csrReadPriv n then .next (takeTrap (denied 5 (n % 256)) s)
  else match csrWritePriv n with
    | none => .next (takeTrap (illegal 5 (n % 256)) s)
    | some q =>
      if p < q then .next (takeTrap (illegal 5 (n % 256)) s)
      else
        let i := n - 0x028
        let (old, s) := csrValue n s
        let s := if 0x028 ≤ n && n ≤ 0x02F && timingCounter s.myCore i then
            (s.onCore fun c => { c with pmc := c.pmc.setIfInBounds i (BitVec.ofNat 64 (Config.freeBits 64 s.free)) }).draw
          else s
        .next (advance 4 (s.pushW 2 (csrResult op n old (s.getS a))))

/-- CSRW (R133). -/
def execCsrw (a : BitVec 4) (x : BitVec 10) (s : State) : Outcome := csrWrite 0 a x s
/-- CSRS (R133). -/
def execCsrs (a : BitVec 4) (x : BitVec 10) (s : State) : Outcome := csrWrite 1 a x s
/-- CSRC (R133). -/
def execCsrc (a : BitVec 4) (x : BitVec 10) (s : State) : Outcome := csrWrite 2 a x s

/-! ### YIELD and END (06 R153, 02 R28, R48) -/

/-- A task of higher current priority than the focus thread's waits in its core's queue (02 R48). -/
def higherWaits (s : State) : Bool := s.myCore.runq.any fun e => decide (s.th.task.pri < e.pri) && canBind s.myCore e

/-- The focus thread hands its slot over, where a park place is free: it parks without a condition, is queued at its
record priority, and the waiting task binds (02 R48). -/
def handOver (s : State) : Option State :=
  match parkFocus (fun p => .queued (some p)) s with
  | none => none
  | some s =>
    let tid := s.th.id
    let core := s.th.core
    let s := (s.count 0x10).count 0x08
    let s := bindCore core (requeue tid s)
    some (s.onTh fun t => { t with uncounted := true })

/-- YIELD of a length (R47, R48): YDL reloads; outside a crew and a handler the slot may be handed over. -/
def yieldOf (len : Nat) (y : Nat) (s : State) : Outcome :=
  let s := s.onTh fun t => { t with ydl := if y = 0 then ydlAtBind t.task.ydf else BitVec.ofNat 32 (1024 * y) }
  let s := advance len s
  if !s.th.crew && !s.th.inh && higherWaits s then
    .next ((handOver (countIssue s)).getD s)
  else .next s

/-- YIELD (R153). -/
def execYield (y : BitVec 6) (s : State) : Outcome := yieldOf 4 y.toNat s
/-- YIELD1 (04 R84): reloads 1,024. -/
def execYield1 (s : State) : Outcome := yieldOf 2 1 s

/-- END (02 R28): a deferred data error comes first (18 R355); then the wait, the reduction log, and the end, which counts
as the issue of the instruction. -/
def endOf (s : State) : Outcome :=
  deferredError s fun s =>
    let s := performAtoms s.th.id s
    if busyThread s s.th then .next (waitFor .ending s)
    else match reductionTrap s with
      | some (t, s) => .next (takeTrap t s)
      | none => .next (endFocus 0 (countIssue s))

/-- END (R153). -/
def execEndTask (s : State) : Outcome := endOf s
/-- END_16 (04 R84). -/
def execEnd16 (s : State) : Outcome := endOf s

/-! ### Frame cells (06 R159, R160) -/

/-- The cell index of a frame access: the signed index register plus the offset. -/
def cellIndex (s : State) (a : BitVec 4) (o : BitVec 6) : Int := (s.getS a).toInt + o.toNat

/-- The frame-bounds trap unless cells idx to idx + n − 1 are allocated (R160). -/
def frameCheck (a : BitVec 4) (idx : Int) (n : Nat) (s : State) : Checked Nat :=
  if 0 ≤ idx ∧ idx + n ≤ s.th.fc.length then .ok idx.toNat
  else .error { cause := 5, fidx := 3, fval := a.toNat, a := BitVec.ofInt 64 idx, v := s.getS a }

/-- FCLD (R159). -/
def execFcld (d a : BitVec 4) (o : BitVec 6) (s : State) : Outcome :=
  settle s do
    let i ← frameCheck a (cellIndex s a o) 1 s
    .ok (writeS 2 d ((s.th.fc.getD i 0).setWidth 64) s)

/-- FCST (R159). -/
def execFcst (d a : BitVec 4) (o : BitVec 6) (s : State) : Outcome :=
  settle s do
    let i ← frameCheck a (cellIndex s a o) 1 s
    .ok (advance 4 (s.onTh fun t => { t with fc := t.fc.set i ((s.getS d).setWidth 32) }))

/-- FCVLD (R159): 32 cells into the lanes. -/
def execFcvld (d a : BitVec 4) (o : BitVec 6) (s : State) : Outcome :=
  settle s do
    let i ← frameCheck a (cellIndex s a o) 32 s
    let v := packElems 32 (((s.th.fc.drop i).take 32).map BitVec.toNat)
    .ok (advance 4 (s.pushW 3 (.v d (BitVec.ofNat 1024 v) (BitVec.allOnes 1024))))

/-- FCVST (R159): the lanes into 32 cells. -/
def execFcvst (d a : BitVec 4) (o : BitVec 6) (s : State) : Outcome :=
  settle s do
    let i ← frameCheck a (cellIndex s a o) 32 s
    let lanes := (List.range 32).map (lane (s.getV d))
    .ok (advance 4 (s.onTh fun t => { t with fc := t.fc.take i ++ lanes ++ t.fc.drop (i + 32) }))

/-! ### The modifier word (04 R85-R87) -/

/-- The fields of a modifier that an instruction accepts: NEGA and ABSA, NEGB and ABSB, SCALE, SAT (R87); none where it
takes no modifier. -/
def acceptsModifier : Instr → Option (Bool × Bool × Bool × Bool)
  | .fadd .. | .fsub .. | .fmul .. | .ffma .. | .fdiv .. => some (true, true, true, true)
  | .fsqrt .. | .fcvtI32F32 .. | .fcvtI64F32 .. => some (true, false, true, true)
  | .vadd .. | .vsub .. | .vmul .. | .vfma .. | .vfms .. => some (true, true, true, true)
  | .vcvt .. | .vdeq .. | .vsrnd .. => some (true, false, true, true)
  | .vqnt .. => some (false, false, false, true)
  | .vsacc .. => some (true, false, false, true)
  | .mdrain .. => some (false, false, true, true)
  | _ => none

/-- The word of a modifier with its GAP and SW (R85). -/
def modWord (u r q p : BitVec 1) (sc : BitVec 6) (t : BitVec 2) (gap : Nat) (sw : Bool) : BitVec 32 :=
  BitVec.ofNat 32 (1 + (if sw then 2 else 0) + gap % 4 * 4 + 0x3F0 + u.toNat * 2 ^ 10 + r.toNat * 2 ^ 11 + q.toNat * 2 ^ 12
    + p.toNat * 2 ^ 13 + sc.toNat * 2 ^ 14 + t.toNat * 2 ^ 20)

/-- The misuse of a modifier before a 32-bit instruction (R86), as FVAL of index 10. -/
def modifierMisuse (u r q p : BitVec 1) (sc : BitVec 6) (t : BitVec 2) (i : Instr) : Option Nat :=
  match acceptsModifier i with
  | none => some 3
  | some (a, b, c, d) =>
    if (!a && (u = 1 || r = 1)) || (!b && (q = 1 || p = 1)) || (!c && sc ≠ 0) || (!d && t ≠ 0) then some 4 else none

/-- MOD (R85, R86): the following instruction is fetched with it, the modifier's misuses are checked, then the
instruction's own encoding, and the instruction takes the modifier at once. -/
def execMod (u r q p : BitVec 1) (sc : BitVec 6) (t : BitVec 2) (s : State) : Outcome :=
  let gap := s.th.ir.gap
  let sw := s.th.ir.sw
  let w := modWord u r q p sc t gap sw
  let show_ (following : Nat) (s : State) : State :=
    s.onTh fun th => { th with ir := { th.ir with word := BitVec.ofNat 32 following, modw := w, hasMod := true } }
  match fetchWord (s.th.pc + 4) s with
  | .error tr => .next (takeTrap tr (show_ 0 s))
  | .ok (len, x, s) =>
    if gap % 4 ≠ 0 || sw then .next (takeTrap (illegal 9 (gap % 4 * 2 + sw.toNat)) (show_ x s))
    else if len = 2 || isModifier x then .next (takeTrap (illegal 10 2) (show_ x s))
    else match decodeWord true x with
      | .ok d =>
        match modifierMisuse u r q p sc t d.instr, d.instr.fieldFault with
        | some v, _ => .next (takeTrap (illegal 10 v) (show_ x s))
        | none, some f => .next (takeTrap (illegal f (fieldValue x f)) (show_ x s))
        | none, none => .next (s.onTh fun th => { th with modLatch := some w, second := BitVec.ofNat 32 x, pc := th.pc + 4 })
      | .illegal f v => .next (takeTrap (illegal f v) (show_ x s))
      | .short => .next (takeTrap (illegal 0 0) (show_ x s))

end Sys2Proof.Machine
end

