-- ==== Sys2Proof/Machine/Tags.lean ====
section
/-!
DEFINITION. Copy tags: CWAITANY, CWAITALL, CFIND and CTAGCLR, the completion of a tag wait, and the claim of a tag by an
engine command (08 R196, R198-R200, 14 R300).
-/
namespace Sys2Proof.Machine

open Sys2Proof

/-- Claims the tag of a copy or near command (R196, 14 R300): the copy-command trap when it is not the thread's, is
outstanding, or is marked in error; else its CTB bit falls and it is outstanding. -/
def claimTag (tag : Word) (fval : Nat) (s : State) : Checked State := do
  let bad : Trap := { cause := 0x0B, fidx := 4, fval := fval, v := tag }
  let n := tag.toNat
  need (s.th.ownsTag n) bad
  let c := s.myCore
  need (!c.tagOut.getLsbD n) bad
  need (!c.tagErr.getLsbD n) bad
  .ok (s.onCore fun c => { c with ctb := c.ctb &&& ~~~bitAt true n, tagOut := c.tagOut ||| bitAt true n })

/-- A command's tag completes on its core (R198, R199): its CTB bit is set, with the pulse of the core's line (17 R339);
a failed command marks it with its faulting address. -/
def completeTag (core tag : Nat) (failed : Option Word) (s : State) : State :=
  let c := s.core core
  let b := bitAt true tag
  (s.setCore core { c with
    ctb := c.ctb ||| b, tagOut := c.tagOut &&& ~~~b
    tagErr := if failed.isSome then c.tagErr ||| b else c.tagErr
    tagFault := match failed with
      | some a => Table.put tag a c.tagFault
      | none => c.tagFault }).pulse core (groveOfCore core) (4 + core % 16)

/-- The lowest bit of a word. -/
def lowestBit (w : Word) : Option Nat := (List.range 64).find? fun i => w.getLsbD i

/-- A mark among tags that are set is reported (R199): the engine-fault trap of the lowest, whose mark goes. -/
def tagReport (mask : Word) (s : State) : Option (Trap × State) :=
  let c := s.myCore
  match lowestBit (c.ctb &&& c.tagErr &&& mask) with
  | none => none
  | some n =>
    some ({ cause := 0x0E, a := (Table.find n c.tagFault).getD 0, v := BitVec.ofNat 64 n },
      s.onCore fun c => { c with tagErr := c.tagErr &&& ~~~bitAt true n, tagFault := Table.drop n c.tagFault })

/-- The mask's copy-command trap (R200). -/
def badMask (a : BitVec 4) (m : Word) : Trap := { cause := 0x0B, fidx := 3, fval := a.toNat, v := m }

/-- A tag wait whose condition holds ends: the report of a mark, else an acquire of the commands' writes (R198, R199). -/
def endTagWait (mask : Word) (s : State) (go : State → State) : State :=
  match tagReport mask s with
  | some (t, s) => takeTrap t s
  | none => go (acquireAt s.th.core s)

/-- CWAITANY (R200). -/
def execCwaitany (a : BitVec 4) (s : State) : Outcome :=
  let m := s.getS a
  if (m &&& ~~~s.th.tagMask) ≠ 0 ∨ m = 0 then .next (takeTrap (badMask a m) s)
  else if (s.myCore.ctb &&& m) = 0 then .next (waitFor (.tagAny m) s)
  else .next (endTagWait m s (advance 4))

/-- CWAITALL (R200). -/
def execCwaitall (a : BitVec 4) (s : State) : Outcome :=
  let m := s.getS a
  if (m &&& ~~~s.th.tagMask) ≠ 0 then .next (takeTrap (badMask a m) s)
  else if m = 0 then .next (advance 4 s)
  else if (s.myCore.ctb &&& m) ≠ m then .next (waitFor (.tagAll m) s)
  else .next (endTagWait m s (advance 4))

/-- CFIND (R200): a result that is a marked tag is reported instead. -/
def execCfind (d : BitVec 4) (s : State) : Outcome :=
  match lowestBit (s.myCore.ctb &&& s.th.tagMask) with
  | none => .next (writeS 2 d 64 s)
  | some n => .next (endTagWait (bitAt true n) s (writeS 2 d (BitVec.ofNat 64 n)))

/-- CTAGCLR (R200): the marks stay. -/
def execCtagclr (a : BitVec 4) (s : State) : Outcome :=
  let m := s.getS a
  if (m &&& ~~~s.th.tagMask) ≠ 0 then .next (takeTrap (badMask a m) s)
  else .next (advance 4 (s.onCore fun c => { c with ctb := c.ctb &&& ~~~m }))

/-- The end of a tag wait of the focus thread: it runs on, or takes the trap of a mark in place of completing. -/
def tagWaitDone (m : Word) (s : State) : State :=
  match tagReport m s with
  | some (t, s) => finishIssue false (takeTrap t (pickFocus s.th.id s))
  | none => finishWait (acquireAt s.th.core s)

/-- COPY_TAG_WAIT_COMPLETE (R198, R199): the wait of thread a is over. -/
def execCopyTagWaitComplete (s : State) : Outcome :=
  match s.thread? s.arg.a with
  | some t =>
    match t.status with
    | .waiting (.tagAny m) _ => if pickedWait s t .copyTagWaitComplete then .next (tagWaitDone m (s.focus t.id)) else .next s
    | .waiting (.tagAll m) _ => if pickedWait s t .copyTagWaitComplete then .next (tagWaitDone m (s.focus t.id)) else .next s
    | _ => .next s
  | none => .next s

end Sys2Proof.Machine
end

