-- ==== Sys2Proof/Machine/Engines.lean ====
section
/-!
DEFINITION. What the engines share: the footprint checker (11 R256), an engine's accesses with the reasons of their
failures (08 R199, 14 R302, 18 R356), and split granules (04 R81).
-/
namespace Sys2Proof.Machine

open Sys2Proof

/-! ### Issue -/

/-- A partition is halted: none of its commands moves (18 R367). -/
def partHalted (s : State) (part : Nat) : Bool :=
  match s.part? part with
  | some p => p.halt = .halted
  | none => false

/-- A command takes its number and its order of registration with a stand's checker. -/
def registerIn (stand : Nat) (s : State) : State :=
  let x := s.stand stand
  { s.setStand stand { x with regs := x.regs + 1 } with fresh := s.fresh + 1 }

/-- Bytes of a split granule; none when the command runs whole (04 R81). -/
def granuleBytes (gran : Nat) : Option Nat := if gran = 0 then none else some (4096 * 2 ^ (gran - 1))

/-! ### Footprints (11 R256) -/

/-- Two regions share a byte. -/
def Region.meets (x y : Region) : Bool :=
  x.core == y.core && decide (x.base < y.base + y.len) && decide (y.base < x.base + x.len)

/-- Two footprints with an edge: a shared byte that one of them writes. -/
def footprintsMeet (xs ys : List Region) : Bool := xs.any fun x => ys.any fun y => x.meets y && (x.write || y.write)

/-- The commands that a stand's engines have, of every partition: their order, their partition and, once their block is read,
their regions. -/
def checkerHolds (s : State) (stand : Nat) : List (Nat × Nat × Option (List Region)) :=
  let copies := s.groves.flatMap fun p => if standOfGrove p.1 = stand then p.2.copies else []
  copies.map (fun c => (c.reg, c.part, if c.bytes.isEmpty then none else some c.regions))
    ++ (s.stand stand).walkq.map (fun c => (c.reg, c.part, if c.bytes.isEmpty then none else some c.regions))
    ++ ((s.stand stand).bre.filter fun p => decide (p.2.state < 2)).map fun p => (p.2.reg, p.2.part, some p.2.regions)

/-- A command may start: the checker, which has room for 512 of a stand, holds it, and no command of its partition
registered before it has an edge to it. -/
def footprintClear (s : State) (stand part reg : Nat) (rs : List Region) : Bool :=
  let before := (checkerHolds s stand).filter fun p => p.1 < reg
  decide (before.length < 512) && (before.filter fun p => p.2.1 = part).all fun p => match p.2.2 with
    | some q => !footprintsMeet q rs
    | none => false

/-! ### Accesses -/

/-- REASON of a refused access: translation or access (18 R356). -/
def Flt.reason (f : Flt) : Nat := if f.cause = 3 then 5 else 6

/-- The address of byte i of spans of addresses. -/
def spanAddr : List (Nat × Nat) → Nat → Nat
  | [], _ => 0
  | (va, n) :: r, i => if i < n then va + i else spanAddr r (i - n)

/-- The places of spans of addresses, up to the first failing byte; its reason and address. -/
def engineSpans (w : Who) (k : Access) : List (Nat × Nat) → State → List Loc × Option (Nat × Nat) × State
  | [], s => ([], none, s)
  | (va, n) :: r, s =>
    match resolveSpan w k (n / 2048 + 2) va n s with
    | .ok (sp, s) => let (ls, e, s) := engineSpans w k r s; (spanLocs sp ++ ls, e, s)
    | .error (f, a) =>
      match resolveSpan w k (n / 2048 + 2) va (a - va) s with
      | .ok (sp, s) => (spanLocs sp, some (f.reason, a), s)
      | .error _ => ([], some (f.reason, a), s)

/-- How an engine reads places: their bytes, and the state once it has reached them. -/
abbrev Reader := List Loc → State → List Byte × State

/-- A walker or BRE reads DRAM, and consults neither L2 nor replicas (11 R257). -/
def readDram (ls : List Loc) (s : State) : List Byte × State :=
  let s := settleRows ls s
  (ls.map fun l => match l with
    | .pa a _ => s.dram.read a
    | l => s.readLoc 0 l, s)

/-- A copy engine reads as a unit of its grove. -/
def readGrove (g : Nat) (ls : List Loc) (s : State) : List Byte × State :=
  standRead (standOfGrove g) ls (settleGrove g ls s)

/-- The bytes that an engine reads at places, up to the first that storage cannot deliver; `addr` gives the address of
each. -/
def engineBytes (read : Reader) (addr : Nat → Nat) (ls : List Loc) (s : State) : List Byte × Option (Nat × Nat) × State :=
  match settleBad (s.bad.length + 1) ls s with
  | .ok s => let (bs, s) := read ls s; (bs, none, s)
  | .error (i, b, s) => let (bs, s) := read (ls.take i) s; (bs, some (7, addr i), retire b s)

/-- An engine reads spans of addresses: the bytes up to the first failing one, with its reason and address. -/
def engineRead (w : Who) (read : Reader) (sp : List (Nat × Nat)) (s : State) : List Byte × Option (Nat × Nat) × State :=
  let (ls, e, s) := engineSpans w .read sp s
  let (bs, e', s) := engineBytes read (spanAddr sp) ls s
  (bs, e' <|> e, s)

/-- An engine stores bytes; those for a failed package are dropped and logged (20 R386). -/
def engineStore (part : Nat) (w : Writer) (bytes : List (Loc × Byte)) (issuer : LogEntry) (s : State) : State :=
  let s := settleRows (bytes.map (·.1)) s
  if bytes.any fun p => peerGone s p.1 then
    storeLocs w ((bytes.filter fun p => !peerGone s p.1).map (storable s))
      (s.logAsync part { issuer with cause := 0x12, value := 12 })
  else storeLocs w (bytes.map (storable s)) s

/-- Bytes of a faulting granule: each is written or not, which a free choice tells (08 R199, 14 R302). -/
def someOf (bytes : List (Loc × Byte)) (s : State) : List (Loc × Byte) :=
  (bytes.zipIdx.filter fun p => Config.freeBits p.2 s.free % 2 = 1).map (·.1)

/-- The control block that a window address names in a core's local store, if it is one (08 R195). -/
def deckOfAddr (core va : Nat) (s : State) : Option Deck :=
  if windowBase ≤ va && deckValid core (va - windowBase) s then some (deckAt core (va - windowBase) s) else none

/-- The slot area of a deck as a region. -/
def Deck.region (d : Deck) (write : Bool) : Region := { core := some d.core, base := d.base, len := d.n * d.size, write := write }

/-- The places of the slot at HEAD, or at TAIL. -/
def Deck.slotLocs (d : Deck) (fromHead : Bool) : List Loc := (List.range d.size).map fun i => Loc.ls d.core (deckByte d fromHead i)

end Sys2Proof.Machine
end

