-- ==== Sys2Proof/Machine/Copies.lean ====
section
/-!
DEFINITION. Copies: CPY and CPY2, and the copy engine of a grove (08 R195-R199). A step of the engine is about grove a
and, where it names a command, command b.
-/
namespace Sys2Proof.Machine

open Sys2Proof

/-! ### Issue (R196) -/

/-- CPY or CPY2: the block's alignment, then the tag; the command goes behind what the thread did before. -/
def queueCopy (twoD : Bool) (a b gran : BitVec 4) (pri : BitVec 2) (s : State) : Outcome :=
  let va := s.getS a
  let tag := s.getS b
  settle s do
    need (va.toNat % 64 = 0) { cause := 2, fidx := 3, fval := a.toNat, a := va }
    let s ← claimTag tag b.toNat s
    let g := groveOfCore s.th.core
    let stand := standOfGrove g
    let c : CopyCmd := {
      id := s.fresh, block := va, twoD := twoD, tag := tag.toNat, gran := gran.toNat, pri := pri.toNat, core := s.th.core
      slot := s.th.slot.toNat, ttag := s.th.task.ttag, pc := s.th.instrPc, word := s.th.ir.word, part := s.myPart
      priv := s.th.priv.toNat, tid := s.th.id, reg := (s.stand stand).regs }
    let s := registerIn stand s
    let x := s.grove g
    .ok (advance 4 (s.setGrove g { x with copies := x.copies ++ [c] }))

/-- CPY (R196). -/
def execCpy (a b : BitVec 4) (pri : BitVec 2) (gran : BitVec 4) (s : State) : Outcome := queueCopy false a b gran pri s
/-- CPY2 (R196). -/
def execCpy2 (a b : BitVec 4) (pri : BitVec 2) (gran : BitVec 4) (s : State) : Outcome := queueCopy true a b gran pri s

/-! ### The operand block (R195) -/

/-- A field of the block that was read. -/
def CopyCmd.f (c : CopyCmd) (lo n : Nat) : Nat := leField c.bytes lo n
/-- Source format. -/
def CopyCmd.sfmt (c : CopyCmd) : Fmt := Fmt.ofCode (c.f 40 1)
/-- Destination format. -/
def CopyCmd.dfmt (c : CopyCmd) : Fmt := Fmt.ofCode (c.f 41 1)
/-- Bytes of a row; a linear copy is one row. -/
def CopyCmd.rowLen (c : CopyCmd) : Nat := if c.twoD then c.f 20 4 else c.f 16 8
/-- Rows. -/
def CopyCmd.rows (c : CopyCmd) : Nat := if c.twoD then c.f 16 4 else 1
/-- Source bytes in all. -/
def CopyCmd.total (c : CopyCmd) : Nat := c.rows * c.rowLen
/-- The source is a deck. -/
def CopyCmd.fromDeck (c : CopyCmd) : Bool := natBit (c.f 42 1) 4
/-- The destination is a deck. -/
def CopyCmd.toDeck (c : CopyCmd) : Bool := natBit (c.f 42 1) 5

/-- Bytes of the smallest whole group of elements (R197). -/
def Fmt.groupBytes (f : Fmt) : Nat := if f = .fp6 then 3 else f.width / 8

/-- Source and destination bytes of the smallest group that converts by itself. -/
def CopyCmd.group (c : CopyCmd) : Nat × Nat :=
  let (x, y) := (c.sfmt, c.dfmt)
  if x = y then (x.groupBytes, x.groupBytes)
  else if x = .fp6 || y = .fp6 then (x.bytesFor 4, y.bytesFor 4)
  else (x.groupBytes, y.groupBytes)

/-- Destination bytes for source bytes. -/
def CopyCmd.converted (c : CopyCmd) (n : Nat) : Nat := n / c.group.1 * c.group.2

/-- Every field and reserved bit of the block is as R195 and R197 demand. -/
def CopyCmd.blockOk (c : CopyCmd) (s : State) : Bool :=
  let zeroBytes (lo n : Nat) : Bool := c.f lo n = 0
  decide (c.f 40 1 ≤ 8) && decide (c.f 41 1 ≤ 8) && decide (c.f 42 1 % 8 ≤ 3) && decide (c.f 42 1 < 64) && decide (c.f 43 1 < 64)
    && c.f 44 1 ≠ 0x80 && zeroBytes 45 1 && zeroBytes 48 16
    && (if c.twoD then decide (c.f 16 4 ≤ 65535) && decide (c.f 20 4 ≤ 2 ^ 20)
        else decide (c.f 16 8 ≤ 2 ^ 40) && zeroBytes 24 16)
    && c.rowLen % c.sfmt.groupBytes = 0
    && (c.dfmt ≠ .fp6 || c.sfmt = .fp6 || c.rowLen / c.sfmt.groupBytes % 4 = 0)
    && (!c.fromDeck || (match deckOfAddr c.core (c.f 0 8) s with
        | some d => c.total % d.size = 0
        | none => false))
    && (!c.toDeck || (match deckOfAddr c.core (c.f 8 8) s with
        | some d => c.converted c.total % d.size = 0
        | none => false))

/-- The span of rows from a base. -/
def rowsRegion (base stride rows len : Nat) (write : Bool) : Region :=
  { core := none, base := base, len := (rows - 1) * stride + len, write := write }

/-- The footprint (R195): from the base to the last byte of the last row, or a deck's slot area. -/
def CopyCmd.footprint (c : CopyCmd) (s : State) : List Region :=
  if c.total = 0 then []
  else
    let src := if c.fromDeck then (deckOfAddr c.core (c.f 0 8) s).map fun d => d.region false
      else some (rowsRegion (c.f 0 8) (c.f 24 8) c.rows c.rowLen false)
    let dst := if c.toDeck then (deckOfAddr c.core (c.f 8 8) s).map fun d => d.region true
      else some (rowsRegion (c.f 8 8) (c.f 32 8) c.rows (c.converted c.rowLen) true)
    src.toList ++ dst.toList

/-- The addresses of n bytes from an offset on, in rows of a length and stride. -/
def rowSpans (base stride len : Nat) : Nat → Nat → Nat → List (Nat × Nat)
  | 0, _, _ => []
  | fuel + 1, off, n =>
    if n = 0 ∨ len = 0 then []
    else
      let k := min n (len - off % len)
      ((base + off / len * stride) % 2 ^ 64 + off % len, k) :: rowSpans base stride len fuel (off + k) (n - k)

/-- Addresses of source bytes. -/
def CopyCmd.srcSpans (c : CopyCmd) (off n : Nat) : List (Nat × Nat) := rowSpans (c.f 0 8) (c.f 24 8) c.rowLen (n + 1) off n
/-- Addresses of destination bytes. -/
def CopyCmd.dstSpans (c : CopyCmd) (off n : Nat) : List (Nat × Nat) :=
  rowSpans (c.f 8 8) (c.f 32 8) (c.converted c.rowLen) (n + 1) off n

/-! ### The engine -/

/-- The engine as a party to accesses: it reaches its grove's scratchpad, and no local store but through decks (R195). -/
def CopyCmd.who (c : CopyCmd) : Who := { part := c.part, core := none, grove := some (groveOfCore c.core), priv := c.priv }

/-- A grove's copy commands changed. -/
def onCopies (g : Nat) (f : List CopyCmd → List CopyCmd) (s : State) : State :=
  let x := s.grove g
  s.setGrove g { x with copies := f x.copies }

/-- A command replaced by its later state. -/
def putCopy (g : Nat) (c : CopyCmd) (s : State) : State := onCopies g (fun cs => cs.map fun x => if x.id = c.id then c else x) s

/-- A command as log entries name it. -/
def CopyCmd.entry (c : CopyCmd) (cause : Nat) : LogEntry :=
  { cause := cause, unit := unitOfGrove 2 (groveOfCore c.core), issuer := 4 * c.core + c.slot, ttag := c.ttag, pc := c.pc
    word := c.word }

/-- A command leaves and its tag completes, with the pulse of its core's line (R198, 17 R339). -/
def leaveCopy (g : Nat) (c : CopyCmd) (failed : Option Word) (s : State) : State :=
  completeTag c.core c.tag failed (onCopies g (fun cs => cs.filter fun x => x.id ≠ c.id) s)

/-- A command ends in failure (R199): the record, then the tag with its mark. -/
def failCopy (g : Nat) (c : CopyCmd) (reason addr : Nat) (s : State) : State :=
  let e := { c.entry 0x0E with
    reason := reason, addr := BitVec.ofNat 64 addr, value := BitVec.ofNat 64 c.tag
    extra := BitVec.ofNat 64 (c.tag + c.granule % 2 ^ 32 * 256) }
  leaveCopy g c (some (BitVec.ofNat 64 addr)) (s.logAsync c.part e)

/-- A command that may start now: read, released, and clear of earlier footprints. -/
def startable (s : State) (c : CopyCmd) : Bool :=
  c.state == .queued && !c.bytes.isEmpty && !c.armed && footprintClear s (standOfCore c.core) c.part c.reg c.regions

/-- The command that is served first: the highest priority, the oldest among equals (02 R49). -/
def firstCopy (cs : List CopyCmd) : Option CopyCmd :=
  cs.foldl (fun b c => match b with
    | none => some c
    | some d => if d.pri < c.pri then some c else some d) none

/-- Credits of a grove's start lines release the armed commands that name them, the oldest first (17 R342). -/
def releaseArmed (g : Nat) (s : State) : State :=
  let x := s.grove g
  let step (st : List CopyCmd × Evx) (c : CopyCmd) : List CopyCmd × Evx :=
    let line := c.f 43 1 / 2 % 32
    let cr := st.2.credit.toList.getD line 0
    if c.armed && cr ≠ 0 then
      (st.1 ++ [{ c with armed := false }], { st.2 with credit := st.2.credit.setIfInBounds line (cr - 1) })
    else (st.1 ++ [c], st.2)
  let (cs, e) := x.copies.foldl step ([], x.evx)
  s.setGrove g { x with copies := cs, evx := e }

/-- The engine reads and checks a block (R197 step 1), behind what its thread did before (R196). -/
def readBlock (g : Nat) (c : CopyCmd) (s : State) : State :=
  let (bs, e, s) := engineRead c.who (readGrove g) [(c.block.toNat, 64)] (syncStand (standOfGrove g) s)
  match e with
  | some (r, a) => failCopy g c r a s
  | none =>
    let c := { c with bytes := bs }
    if c.blockOk s then releaseArmed g (putCopy g { c with regions := c.footprint s, armed := natBit (c.f 43 1) 0 } s)
    else failCopy g c 3 c.block.toNat s

/-- A running command may be interrupted by one of a priority (02 R49): at a boundary of its granules, if it has any. -/
def CopyCmd.yieldsTo (c : CopyCmd) (pri : Nat) : Bool := decide (c.pri < pri) && c.gran ≠ 0 && c.boundary

/-- COPY_COMMAND_START (R197): a block is read, or the command that is served first starts. -/
def execCopyCommandStart (s : State) : Outcome :=
  let g := s.arg.a
  let cs := (s.grove g).copies
  match cs.find? fun c => c.id == s.arg.b with
  | none => .next s
  | some c =>
    if c.state != .queued then .next s
    else if c.bytes.isEmpty then (if performedBefore s c.tid c.id 3 then .next (readBlock g c s) else .next s)
    else
      let first := ((firstCopy (cs.filter (startable s))).map (·.id)) == some c.id
      let outranks := (cs.filter fun d => d.state == .running).all fun d => d.yieldsTo c.pri
      if first && outranks then
        .next (putCopy g { c with state := if c.total = 0 then .moved else .running } (syncStand (standOfGrove g) s))
      else .next s

/-- The elements of source bytes as destination bytes, with the flags and the statistics (R197). -/
def convertBytes (c : CopyCmd) (bs : List Byte) : List Byte × Flags :=
  if c.sfmt = c.dfmt then (bs, 0)
  else
    let md : Modifier := { scale := signedOf 8 (c.f 44 1), sat := 1 }
    let out := (bytesToElems c.sfmt bs).map fun e =>
      finishNum c.dfmt (Mode.ofCode (c.f 42 1 % 8)) 0 md (decodeNum c.sfmt e)
    (elemsToBytes c.dfmt (out.map (·.1)), out.foldl (fun f o => f ||| o.2) 0)

/-- A command with source bytes converted into its output. -/
def takeInput (c : CopyCmd) (n : Nat) (s : State) : CopyCmd × State :=
  let (bs, fl) := convertBytes c (c.ibuf.take n)
  let st := if natBit (c.f 42 1) 3 then
      ((bytesToElems c.dfmt bs).map (decodeNum c.dfmt)).foldl Partial.add c.stats else c.stats
  ({ c with ibuf := c.ibuf.drop n, obuf := c.obuf ++ bs, stats := st }, s.orAew { stand := standOfCore c.core, tid := c.tid } c.part fl)

/-- A boundary after n more destination bytes, where the granule is whole or the copy is at its end: it counts, and its
partial goes to the record (R197). -/
def wrote (c : CopyCmd) (n : Nat) (s : State) : CopyCmd × State :=
  let c := { c with wr := c.wr + n, obuf := c.obuf.drop n, boundary := false }
  let done := decide (c.converted c.total ≤ c.wr)
  let whole := match granuleBytes c.gran with
    | some g => decide (g ≤ c.wr - c.mark)
    | none => false
  if done || whole then
    let s := if natBit (c.f 42 1) 3 then arrivePartial c.part (c.f 46 2) c.stats (c.entry 0x1F) s else s
    ({ c with granule := c.granule + 1, mark := c.wr, boundary := true, stats := {}, state := if done then .moved else c.state }, s)
  else (c, s)

/-- Destination bytes of the next piece: a slot of a deck, else what the granule still has. -/
def pieceSize (c : CopyCmd) (dst : Option Deck) : Nat :=
  match dst with
  | some d => d.size
  | none =>
    let left := c.converted c.total - c.wr
    match granuleBytes c.gran with
    | some g => min left ((g + c.group.2 - 1) / c.group.2 * c.group.2 - (c.wr - c.mark))
    | none => left

/-- A copy writes bytes: a write of its grove's stand for its thread. -/
def CopyCmd.store (c : CopyCmd) (bytes : List (Loc × Byte)) (s : State) : State :=
  let g := groveOfCore c.core
  engineStore c.part { stand := standOfGrove g, tid := c.tid } bytes (c.entry 0) (settleGrove g (bytes.map (·.1)) s)

/-- Output bytes are written (R197): to memory whole, or some of a faulting granule's; to a deck's slot once one is
free. -/
def writePiece (g : Nat) (c : CopyCmd) (dst : Option Deck) (s : State) : State :=
  match dst with
  | some d =>
    if 0 < (unitDeck true d.core d.off s).room then
      let s := c.store (d.slotLocs false |>.zip (c.obuf.take d.size)) s
      let s := deckStore (deckPublish 1 (deckAt d.core d.off s)) s
      let (c, s) := wrote c d.size s
      putCopy g c s
    else putCopy g c s
  | none =>
    let n := c.obuf.length
    let (ls, e, s) := engineSpans c.who .write (c.dstSpans c.wr n) s
    match e with
    | some (r, a) => failCopy g c r a (c.store (someOf (ls.zip c.obuf) s) s.draw)
    | none =>
      let s := c.store (ls.zip c.obuf) s
      let (c, s) := wrote c n s
      putCopy g c s

/-- A read of the source failed (R199): what came before the failing byte may be written, then the command ends. -/
def failRead (g : Nat) (c : CopyCmd) (got : List Byte) (reason addr : Nat) (toDeck : Bool) (s : State) : State :=
  let all := c.ibuf ++ got
  let (bs, _) := convertBytes c (all.take (all.length / c.group.1 * c.group.1))
  let out := c.obuf ++ bs
  let (ls, _, s) := engineSpans c.who .write (c.dstSpans c.wr out.length) s
  let s := if toDeck then s else c.store (someOf (ls.zip out) s) s.draw
  failCopy g c reason addr s

/-- A running command moves its next piece: a slot is read from a source deck, or a piece is converted and written. -/
def movePiece (g : Nat) (c : CopyCmd) (s : State) : State :=
  let dst := if c.toDeck then deckOfAddr c.core (c.f 8 8) s else none
  let (sg, dg) := c.group
  let groups := min ((pieceSize c dst - c.obuf.length + dg - 1) / dg) ((c.total - c.rd + c.ibuf.length) / sg)
  let need := groups * sg
  if c.ibuf.length < need then
    if c.fromDeck then
      match deckOfAddr c.core (c.f 0 8) s with
      | none => failCopy g c 3 (c.f 0 8) s
      | some d =>
        if (unitDeck false d.core d.off s).fill = 0 then s
        else
          let (bs, e, s) := engineBytes (readGrove g) (fun i => windowBase + deckByte d true i) (d.slotLocs true) s
          match e with
          | some (r, a) => failRead g c bs r a c.toDeck s
          | none => putCopy g { c with ibuf := c.ibuf ++ bs, rd := c.rd + d.size, boundary := false }
              (deckStore (deckConsume 1 (deckAt d.core d.off s)) s)
    else
      let n := need - c.ibuf.length
      let (bs, e, s) := engineRead c.who (readGrove g) (c.srcSpans c.rd n) s
      match e with
      | some (r, a) => failRead g c bs r a c.toDeck s
      | none =>
        let (c, s) := takeInput { c with ibuf := c.ibuf ++ bs, rd := c.rd + n, boundary := false } need s
        writePiece g c dst s
  else
    let (c, s) := takeInput c need s
    writePiece g c dst s

/-- COPY_GRANULE (R197): the running command of highest priority moves on; at a boundary a startable command of higher
priority goes first (02 R49). -/
def execCopyGranule (s : State) : Outcome :=
  let g := s.arg.a
  let cs := (s.grove g).copies
  match firstCopy (cs.filter fun c => c.state == .running) with
  | none => .next s
  | some c =>
    if (cs.filter (startable s)).any (fun d => c.yieldsTo d.pri) then .next s
    else .next (movePiece g c s)

/-- COPY_COMPLETE (R198): command b of grove a, all its data moved, sets its tag's bit. -/
def execCopyComplete (s : State) : Outcome :=
  match (s.grove s.arg.a).copies.find? fun c => c.id == s.arg.b with
  | some c => if c.state == .moved then .next (leaveCopy s.arg.a c none s) else .next s
  | none => .next s

end Sys2Proof.Machine
end

