-- ==== Sys2Proof/Machine/Planes.lean ====
section
/-!
DEFINITION. The plastic planes as threads see them (12 R282-R292): configuration, plane registers and addresses, steps
and fades as they are queued, rewards and gates as they are sent.
-/
namespace Sys2Proof.Machine

open Sys2Proof

/-- A checked command enters the plane queue of the focus thread's array once there is room (R269). -/
def enqueuePlane (c : ArrayCmd) (s : State) : Outcome :=
  let arr := arrayOfCore s.th.core
  let x := s.array arr
  if decide (16 ≤ x.pq.length) || x.frozen then .next (waitFor (.planeQueue arr) s)
  else .next (advance 4 { s.setArray arr { x with pq := x.pq ++ [c] } with fresh := s.fresh + 1 })

/-- A queued plane instruction: a deferred data error comes first, then the checks, then the queue. -/
def planeInstr (s : State) (check : Checked (ArrayCmd × State)) : Outcome :=
  deferredError s fun s => match check with
    | .error t => .next (takeTrap t s)
    | .ok (c, s) => enqueuePlane c s

/-! ### Configuration (R283) -/

/-- The byte offset of the first field of a plane entry that R283 refuses, for an array. -/
def planeEntryFault (arr : Nat) (bs : List Byte) : Option Nat :=
  let f := leField bs 0 1
  let rows := leField bs 4 2
  let g := leField bs 6 1
  if 1 < f then some 0
  else if leField bs 1 1 ≠ arr % 4 then some 1
  else if leField bs 2 2 ≠ 16 * (arr / 4) then some 2
  else if (if f = 1 then 8192 else 16384) < rows then some 4
  else if 15 < g ∧ g ≠ 0xFF then some 6
  else none

/-- PCFG (R283): the entry is read and checked at issue. -/
def execPcfg (a : BitVec 4) (s : State) : Outcome :=
  let va := s.getS a
  deferredError s fun s => match spanPlace .read va 208 8 3 a.toNat s with
    | .error t => .next (takeTrap t s)
    | .ok (ls, s) => readChecked va ls s fun bs s =>
      match planeEntryFault (arrayOfCore s.th.core) bs with
      | some off => .next (takeTrap { cause := 0x17, fidx := 3, fval := a.toNat, a := va, v := BitVec.ofNat 64 off } s)
      | none => enqueuePlane { newCommand (.pcfg a) va 0 s with data := some bs } s

/-! ### Steps and fades (R287, R289) -/

/-- The slot-size check of a step's deck. -/
def needSlot (d : Deck) (size fidx fval : Nat) : Checked Unit :=
  need (d.size = size) { cause := 9, fidx := fidx, fval := fval, a := cbAddr d.off }

/-- PSTEP (R287): the three control blocks go with the command, the output's first. -/
def execPstep (d a b : BitVec 3) (s : State) : Outcome :=
  planeInstr s do
    let out ← boundDeck s d 2 0
    let ev ← boundDeck s a 3 0
    let post ← boundDeck s b 4 0
    needSlot ev 128 3 a.toNat
    needSlot post 128 4 b.toNat
    needSlot out 256 2 d.toNat
    .ok ({ newCommand (.pstep d a b) 0 0 s with decks := [(out.core, out.off), (ev.core, ev.off), (post.core, post.off)] }, s)

/-- PFADE (R289). -/
def execPfade (a : BitVec 4) (s : State) : Outcome :=
  let v := s.getS a
  planeInstr s do
    need (decide (v.toNat < 2 ^ 16)) { cause := 0x17, fidx := 3, fval := a.toNat, v := v }
    .ok ({ newCommand (.pfade a) v 0 s with left := v.toNat }, s)

/-! ### Plane registers and addresses (R284, R285) -/

/-- The reward group of a plane, if it has one. -/
def planeGroup (cfg : BitVec 32) : Option Nat := if cfg.getLsbD 17 then some (cfg.extractLsb' 18 4).toNat else none

/-- The value of a plane register, none where there is no such register. -/
def planeReg (x : MArray) (n : Nat) : Option Nat :=
  if n = 0 then some x.psc.toNat
  else if n = 1 then some x.pgl.toNat
  else if n = 2 then some x.pgw.toNat
  else if n = 3 then some x.plate.toNat
  else if n = 4 then some x.pgc.toNat
  else if n = 5 then some x.lan.toNat
  else if n = 6 then some x.cfg.toNat
  else if n = 7 then some x.pflg.toNat
  else if n = 8 then some x.sth.toNat
  else if h : 0x10 ≤ n ∧ n < 0x20 then some (x.lambda[n - 0x10]'(by omega)).toNat
  else if h : 0x20 ≤ n ∧ n < 0x30 then some (x.eta[n - 0x20]'(by omega)).toNat
  else if h : 0x40 ≤ n ∧ n < 0x80 then some (x.cold[n - 0x40]'(by omega)).toNat
  else none

/-- A plane register that PWR may write. -/
def planeRegWritable (n : Nat) : Bool := n = 1 || n = 2 || n = 3 || n = 7 || n = 8 || decide (0x10 ≤ n)

/-- A plane register written with the low bits of a word, reserved bits staying 0. -/
def setPlaneReg (n : Nat) (v : Word) (x : MArray) : MArray :=
  if n = 1 then { x with pgl := v }
  else if n = 2 then { x with pgw := v.setWidth 32 }
  else if n = 3 then { x with plate := v.setWidth 32 }
  else if n = 7 then { x with pflg := v.setWidth 32 &&& 0x3F }
  else if n = 8 then { x with sth := v.setWidth 32 &&& 0x1FFFF }
  else if h : 0x10 ≤ n ∧ n < 0x20 then { x with lambda := x.lambda.set (n - 0x10) (v.setWidth 32) (by omega) }
  else if h : 0x20 ≤ n ∧ n < 0x30 then { x with eta := x.eta.set (n - 0x20) (v.setWidth 32) (by omega) }
  else if h : 0x40 ≤ n ∧ n < 0x80 then { x with cold := x.cold.set (n - 0x40) (v.setWidth 8 &&& 0x0F) (by omega) }
  else x

/-- What a plane address names. -/
inductive PlaneLoc where
  /-- the slice bytes of a weight or trace -/
  | synapse (off len : Nat)
  | reg (n : Nat)
deriving DecidableEq, Repr

/-- The slice bytes of the weight or trace of a synapse (R282). -/
def synapseAt (cfg : BitVec 32) (trace : Bool) (row col : Nat) : Nat × Nat :=
  if cfg.getLsbD 16 then (512 * row + 8 * col + (if trace then 4 else 0), 4)
  else (256 * row + 4 * col + (if trace then 2 else 0), 2)

/-- What a plane address names, or nothing where it faults (R285). -/
def planeLoc (x : MArray) (v : Word) (write : Bool) : Option PlaneLoc :=
  let n := v.toNat
  if 2 ^ 32 ≤ n ∨ n / 2 ^ 21 % 128 ≠ 0 ∨ 1 < n / 2 ^ 28 then none
  else if n / 2 ^ 28 = 0 then
    let row := n % 2 ^ 14
    if planeRows x.cfg ≤ row then none
    else let p := synapseAt x.cfg (n / 2 ^ 20 % 2 = 1) row (n / 2 ^ 14 % 64); some (.synapse p.1 p.2)
  else
    let r := n % 256
    if n / 2 ^ 8 % 2 ^ 13 ≠ 0 ∨ planeReg x r = none ∨ (write && !planeRegWritable r) = true then none else some (.reg r)

/-- The plane-configuration trap of a plane address (R285). -/
def badPlaneAddr (a : BitVec 4) (v : Word) : Trap := { cause := 0x17, fidx := 3, fval := a.toNat, v := v }

/-- PRD (R285): at once, outside both queues; bytes of the slice that cannot be read are a data error (09 R229). -/
def execPrd (d a : BitVec 4) (s : State) : Outcome :=
  deferredError s fun s =>
    let arr := arrayOfCore s.th.core
    let x := s.array arr
    match planeLoc x (s.getS a) false with
    | none => .next (takeTrap (badPlaneAddr a (s.getS a)) s)
    | some (.synapse off len) =>
      match sliceFault arr off len (s.bad.length + 1) s with
      | (some b, s) => .next (takeTrap (b.trap (s.getS a)) s)
      | (none, s) => .next (loadS 4 d (BitVec.ofNat 64 (leNat (x.slice.readN off len))) s)
    | some (.reg n) => .next (loadS 4 d (BitVec.ofNat 64 ((planeReg x n).getD 0)) s)

/-- PWR (R285): at once, outside both queues. -/
def execPwr (a b : BitVec 4) (s : State) : Outcome :=
  deferredError s fun s =>
    let arr := arrayOfCore s.th.core
    match planeLoc (s.array arr) (s.getS a) true with
    | none => .next (takeTrap (badPlaneAddr a (s.getS a)) s)
    | some (.synapse off len) => .next (advance 4 (s.onArray arr fun x =>
        { x with slice := x.slice.writeN off (leBytes len (s.getS b).toNat) }))
    | some (.reg n) => .next (advance 4 (s.onArray arr (setPlaneReg n (s.getS b))))

/-! ### Readiness of the plane queue's head (R287, R292) -/

/-- A reward or gate is due: its cut is not above PSC. -/
def rewardDue (x : MArray) (r : Reward) : Bool := decide (r.cut.toNat ≤ x.psc.toNat)

/-- A step's decks are ready: events and post-factors hold a slot each, the output has a free one, and what its publication
comes after is performed (08 R193). -/
def stepDecksReady (s : State) (c : ArrayCmd) : Bool :=
  match c.decks with
  | [(oc, o), (ec, e), (pc, p)] =>
    decide (0 < (unitDeck true oc o s).room) && decide (0 < (unitDeck false ec e s).fill) && decide (0 < (unitDeck false pc p s).fill)
      && performedBefore s c.tid c.id 3
  | _ => true

/-- The head of the plane queue is a step or fade that every condition but the gate lets start. -/
def headReady (s : State) (arr : Nat) : Option ArrayCmd :=
  let x := s.array arr
  if x.frozen || x.running.isSome || x.rq.any (rewardDue x) then none
  else match x.pq.head? with
    | some c =>
      match c.instr with
      | .pstep .. => if stepDecksReady s c then some c else none
      | .pfade _ => if c.left = 0 then none else some c
      | _ => none
    | none => none

/-- The gate lets the next step start: its number is at most PGL. -/
def gateOpen (x : MArray) : Bool := decide (x.psc.toNat + 1 ≤ x.pgl.toNat)

/-- The plane status word (R286). -/
def planeStatus (s : State) (arr : Nat) : Word :=
  let x := s.array arr
  let q := (x.pq.filter fun c => match c.instr with
    | .pstep .. | .pfade _ => true
    | _ => false).length
  let sweep := match x.running with
    | some r => r.kind = 2
    | none => false
  let step := x.running.isSome && !sweep
  let gated := (headReady s arr).isSome && !gateOpen x
  BitVec.ofNat 64 (x.psc.toNat % 2 ^ 32 * 2 ^ 32 + q * 256 + x.rq.length * 16 + (if x.held.isEmpty then 0 else 8)
    + (if gated then 4 else 0) + (if sweep then 2 else 0) + (if step then 1 else 0))

/-- PSTAT (R286). -/
def execPstat (d : BitVec 4) (s : State) : Outcome :=
  deferredError s fun s => .next (loadS 4 d (planeStatus s (arrayOfCore s.th.core)) s)

/-! ### Rewards and gates as they are sent (R291) -/

/-- The planes of a partition that are members of a reward group (R283, 17 R351). -/
def groupMembers (s : State) (part g : Nat) : List Nat :=
  (s.arrays.filter fun p => planeGroup p.2.cfg = some g && (s.grove (groveOfArray p.1)).owner = some part).map (·.1)

/-- A reward-group entry as EVRD returns it (17 R351): the number of members and the stands they lie in. -/
def groupEntry (s : State) (part g : Nat) : Nat :=
  let ms := groupMembers s part g
  ms.length + ((List.range 4).map fun i => if ms.any fun a => standOfGrove (groveOfArray a) = i then 2 ^ (9 + i) else 0).sum

/-- Where the focus thread's rewards and gates go: its plane's group, or its plane alone. -/
def rewardTargets (s : State) : List Nat :=
  let arr := arrayOfCore s.th.core
  match planeGroup (s.array arr).cfg with
  | some g => groupMembers s s.myPart g
  | none => [arr]

/-- A reward or gate enters the broadcast tree. -/
def sendReward (r : Reward) (s : State) : State :=
  (rewardTargets s).foldl (fun s arr => s.send s.th.id (.reward arr r)) s

/-- PRWD (R291). -/
def execPrwd (a b : BitVec 4) (r : BitVec 1) (s : State) : Outcome :=
  deferredError s fun s =>
    .next (advance 4 (sendReward { r := (s.getS a).setWidth 32, cut := s.getS b, gate := false, sr := r = 1 } s))

/-- PGATE (R291). -/
def execPgate (a : BitVec 4) (s : State) : Outcome :=
  deferredError s fun s => .next (advance 4 (sendReward { r := 0, cut := s.getS a, gate := true, sr := false } s))

end Sys2Proof.Machine
end

