-- ==== Sys2Proof/Machine/Fabric.lean ====
section
/-!
DEFINITION. The fabric (01 R8, R9): which message may arrive next. Messages of one sender to one receiver keep their order,
those of a stream and the tokens on a wire too; a message that is a release acts once what its thread did before is
performed (11 R249).
-/
namespace Sys2Proof.Machine

open Sys2Proof

/-- The unit that a decrement goes to (02 R21, R22): the home core of a near counter, the home slice of a far one. -/
def counterUnit (part : Nat) (handle : Word) (s : State) : Nat :=
  let h := handle.toNat
  if h % 2 = 0 then h / 2 % 2048
  else counterSlice part (h % 2 ^ 57 / 16 * 16) s

/-- The unit that a partial goes to (17 R334): the home slice of its record. -/
def recordUnit (part h : Nat) (s : State) : Nat :=
  match s.part? part with
  | some p => sliceUnit (paHome (p.grant.recB + 64 * h))
  | none => 2047

/-- The unit that a message goes to, where one receives it: a core, an L2 slice, an array's crossbar, a landing queue, or a
network's entry on a wire. -/
def Envelope.unit (s : State) (e : Envelope) : Nat :=
  match e.body with
  | .decr part h _ _ => counterUnit part h s
  | .ready core _ | .migrate core _ _ => core
  | .statistics part h _ _ => recordUnit part h.toNat s
  | .pulse g _ => 12288 + g
  | .packet part queue _ _ _ _ _ => landingUnit part queue
  | .token net _ wire _ _ _ => 16384 + 128 * net + wire
  | .reward arr _ => arrayUnit arr
  | _ => 0

/-- The lane in which a message keeps its order, if it has one (01 R8, R9, notes/assumptions/99.md): a stream's route; a wire of
a network; for a reward its thread and its array (12 R291); else its sender and its receiver, whatever the message. -/
def Envelope.lane (s : State) (e : Envelope) : Option (List Nat) :=
  let pair : Option (List Nat) := if e.src = 0 then none else some [1, e.src, e.unit s]
  match e.body with
  | .openFlit _ _ r | .flit _ _ r _ | .closeFlit _ _ r => some [0, r]
  | .token net layer wire _ _ _ => if layer = 0 then pair else some [2, net, layer, wire]
  | .reward arr _ => some [3, e.tid, arr]
  | .update .. => none
  | _ => pair

/-- The release that an envelope is is satisfied (11 R249): until then it is not sent. -/
def Envelope.sent (s : State) (e : Envelope) : Bool :=
  match e.rel with
  | some c => performedBefore s e.tid e.seq c
  | none => true

/-- An envelope is the first of its lane among those that are sent. -/
def firstInLane (s : State) (e : Envelope) : Bool :=
  match e.lane s with
  | none => true
  | some k => ((s.msgs.find? fun x => x.lane s = some k && x.sent s).map (·.seq)) = some e.seq

/-- A message may arrive: it is the first of its lane, and the release it is is satisfied. -/
def mayArrive (s : State) (e : Envelope) : Bool := e.sent s && firstInLane s e

/-- An envelope by number, if it may arrive. -/
def arrived (s : State) (seq : Nat) : Option Envelope := s.msgs.find? fun e => e.seq == seq && mayArrive s e

/-- The fabric without an envelope. -/
def dropMsg (seq : Nat) (s : State) : State := { s with msgs := s.msgs.filter fun e => e.seq ≠ seq }

end Sys2Proof.Machine
end

