-- ==== Sys2Proof/Machine/Streams.lean ====
section
/-!
DEFINITION. Streams: SOPEN, SCLOSE, SSEND, and the steps of the routes they open (08 R201-R206).
-/
namespace Sys2Proof.Machine

open Sys2Proof

/-- The stream trap (R202): the stream's number and its descriptor. -/
def streamTrap (s : State) (i : BitVec 2) (desc : Word) : Trap :=
  { cause := 0x0C, fidx := 5, fval := s.fieldOf 5, a := desc, v := i.setWidth 64 }

/-- A stream of the focus thread. -/
def State.stream (s : State) (i : BitVec 2) : Stream := s.th.streams[i.toNat]'i.isLt

/-- A stream of the focus thread replaced. -/
def setStream (i : BitVec 2) (x : Stream) (s : State) : State :=
  s.onTh fun t => { t with streams := t.streams.set i.toNat x i.isLt }

/-- The target core and control block of a descriptor, if it names them (R201, R202); reserved bits are ignored (00 R2). -/
def streamTarget (s : State) (bs : List Byte) : Option (Nat × Nat) :=
  let tgt := leField bs 0 2 % 2048
  let dcb := leField bs 4 4
  if s.granted s.myPart tgt && deckValid tgt dcb s then some (tgt, dcb) else none

/-- SOPEN (R202): an error of the descriptor is met at the stream's next use; its thread is held behind an array command that
writes the descriptor (notes/assumptions/97.md). -/
def execSopen (a : BitVec 4) (i : BitVec 2) (s : State) : Outcome :=
  let va := s.getS a
  if (s.stream i).opened then .next (takeTrap (streamTrap s i va) s)
  else
    let bad (s : State) : Outcome := .next (advance 4 (setStream i { opened := true, error := true, desc := va } s))
    match spanPlace .read va 16 1 3 a.toNat s with
    | .error t => bad (retireTrap t s)
    | .ok (ls, s) =>
      match checkData va ls s with
      | .error t => bad (retireTrap t s)
      | .ok s =>
        let s := beforeReading ls s
        if readBlocked s ls then .next (holdForWork (blockingWork ls s) s)
        else
          let (bs, s) := readAs s.th false ls s
          match streamTarget s bs with
          | none => bad s
          | some (tgt, dcb) =>
            let r := s.fresh
            let s := { s with fresh := r + 1 }
            let s := setStream i { opened := true, tgt := tgt, dcb := dcb, desc := va, route := r } s
            .next (advance 4 (s.send s.th.id (.openFlit tgt dcb r)))

/-- The use of a stream: not open, it is the trap at once, whose TRAPA is 0 as there is no descriptor
(notes/assumptions/122.md); in error, the trap that also closes it. -/
def usedStream (i : BitVec 2) (s : State) (go : Stream → Outcome) : Outcome :=
  let x := s.stream i
  if !x.opened then .next (takeTrap (streamTrap s i 0) s)
  else if x.error then .next (takeTrap (streamTrap s i x.desc) (setStream i {} s))
  else go x

/-- SCLOSE (R202). -/
def execSclose (i : BitVec 2) (s : State) : Outcome :=
  usedStream i s fun _ => .next (advance 4 (closeStream i.toNat s))

/-- One register as the four flits of an outbound slot, its masked-off lanes 0 (R203). -/
def slotFlits (v : VWord) (k : KWord) : List (List Byte) :=
  let bs := leBytes 128 (v &&& elemMask 32 k).toNat
  (List.range 4).map fun q => (bs.drop (32 * q)).take 32

/-- SSEND (R203): a release toward the consumer (R204). A count above the outbound deck's eight slots could never be met,
and is deck misuse as for DWAITP (notes/assumptions/11.md). -/
def execSsend (i : BitVec 2) (a : BitVec 4) (k : BitVec 3) (c : BitVec 4) (s : State) : Outcome :=
  let n := c.toNat + 1
  usedStream i s fun x =>
    if 8 < n then .next (takeTrap { cause := 9, fidx := 5, fval := s.fieldOf 5, v := BitVec.ofNat 64 n } s)
    else if outboundFree s x < n then .next (waitFor (.ssend i.toNat n) s)
    else
      let flits := (List.range n).flatMap fun j => slotFlits (s.getV (a + BitVec.ofNat 4 j)) (s.getK k)
      .next (advance 4 (flits.foldl (fun s f => s.sendRelease 3 (.flit x.tgt x.dcb x.route f)) s))

/-! ### Routes -/

/-- The route that holds a deck is the given one. -/
def holdsRoute (s : State) (core dcb route : Nat) : Bool := (s.core core).routes.any fun r => r.dcb = dcb && r.route = route

/-- STREAM_OPEN_FLIT (R202): the opening flit, message a, claims the deck's inbound route, or waits its turn. -/
def execStreamOpenFlit (s : State) : Outcome :=
  match arrived s s.arg.a with
  | some e =>
    match e.body with
    | .openFlit core dcb r =>
      let c := s.core core
      let c := if c.routes.any fun x => x.dcb = dcb then { c with claims := c.claims ++ [(dcb, r)] }
        else { c with routes := c.routes ++ [⟨dcb, r, [], 0⟩] }
      .next (dropMsg e.seq (s.setCore core c))
    | _ => .next s
  | none => .next s

/-- Bytes of a thread's stream land in the slot at a deck's TAIL, after those that landed before; a full slot is published
(R203). -/
def landBytes (tid core dcb : Nat) (bs : List Byte) (s : State) : State :=
  let d := deckAt core dcb s
  let c := s.core core
  let have_ := ((c.routes.find? fun r => r.dcb = dcb).map (·.bytes)).getD []
  let all := have_ ++ bs
  let s := storeLocs { stand := standOfCore core, tid := tid }
    (bs.zipIdx.map fun p => (Loc.ls core (deckByte d false (have_.length + p.2)), p.1)) s
  let full := decide (d.size ≤ all.length)
  let s := if full then deckStore (deckPublish 1 d) s else s
  let c := s.core core
  s.setCore core { c with routes := c.routes.map fun r => if r.dcb = dcb then { r with bytes := if full then [] else all } else r }

/-- A flit has landed that a halt had put into the deck's overflow area, if any had been: OVFH falls with the last of them
(08 R189, R206). -/
def replayed (core dcb : Nat) (s : State) : State :=
  let c := s.core core
  match c.routes.find? fun r => r.dcb = dcb && decide (0 < r.replay) with
  | none => s
  | some x =>
    let s := s.setCore core { c with routes := c.routes.map fun r => if r.dcb = dcb then { r with replay := r.replay - 1 } else r }
    if x.replay = 1 then deckStore { deckAt core dcb s with ovfh := false } s else s

/-- STREAM_FLIT_LAND (R203): the flit, message a, lands where the deck has a free slot. -/
def execStreamFlitLand (s : State) : Outcome :=
  match arrived s s.arg.a with
  | some e =>
    match e.body with
    | .flit core dcb r bs =>
      if holdsRoute s core dcb r && decide (0 < (unitDeck true core dcb s).room) then
        .next (dropMsg e.seq (replayed core dcb (landBytes e.tid core dcb bs s)))
      else .next s
    | _ => .next s
  | none => .next s

/-- A deck's inbound route is free; the first opening flit that waits for it takes it (R202). -/
def freeRoute (core dcb : Nat) (s : State) : State :=
  let c := s.core core
  let rest := c.routes.filter fun r => r.dcb ≠ dcb
  match c.claims.find? (fun p => p.1 = dcb) with
  | none => s.setCore core { c with routes := rest }
  | some p => s.setCore core { c with routes := rest ++ [⟨dcb, p.2, [], 0⟩], claims := c.claims.erase p }

/-- A closing marker that lands in a deck the crossbar selects pulses the stream lines that select it (17 R339, R344). -/
def pulseMarker (core dcb : Nat) (s : State) : State :=
  let g := groveOfCore core
  (List.range 4).foldl (fun s j =>
    let v := leField (s.grove g).evx.image (560 + 8 * j) 8
    if v / 2 ^ 63 % 2 = 1 && v % 16 = core % 16 && v / 16 % 2 ^ 24 = dcb then s.pulse core g (40 + j) else s) s

/-- STREAM_CLOSE_MARKER (R202, R203): the marker, message a, publishes a partly filled slot and frees the route. -/
def execStreamCloseMarker (s : State) : Outcome :=
  match arrived s s.arg.a with
  | some e =>
    match e.body with
    | .closeFlit core dcb r =>
      let n := (((s.core core).routes.find? fun x => x.dcb = dcb).map (·.bytes.length)).getD 0
      if holdsRoute s core dcb r && (n = 0 || decide (0 < (unitDeck true core dcb s).room)) then
        let s := if n = 0 then s else landBytes e.tid core dcb (zeroBytes ((deckAt core dcb s).size - n)) s
        .next (pulseMarker core dcb (dropMsg e.seq (freeRoute core dcb s)))
      else .next s
    | _ => .next s
  | none => .next s

end Sys2Proof.Machine
end

