-- ==== Sys2Proof/Machine/Counters.lean ====
section
/-!
DEFINITION. Counting networks, statistics records, the event crossbar and the access-control table (17 R319-R350).
-/
namespace Sys2Proof.Machine

open Sys2Proof

/-! ### Counting networks (R320-R330) -/

/-- log2 of a network's width: package networks 0 to 63 have 32 wires, domain networks 64 to 79 have 64. -/
def netLog (n : Nat) : Nat := if n < 64 then 5 else 6
/-- A network's width. -/
def netWidth (n : Nat) : Nat := 2 ^ netLog n

/-- A network's balancers, one toggle each (R322). -/
def netToggles (n : Nat) : Nat := if n < 64 then 240 else 672

/-- The layers of a network of width 2^p, each as s and q (R322). -/
def netLayers (p : Nat) : List (Nat × Nat) :=
  (List.range p).flatMap fun s => (List.range (s + 1)).map fun i => (s + 1, s + 1 - i)

/-- The lower wire, the upper wire and the number of the balancer that a wire meets in a layer. -/
def balancerAt (layer : Nat × Nat) (x : Nat) : Nat × Nat × Nat :=
  let q := layer.2
  let y := if q = layer.1 then x ^^^ (2 ^ layer.1 - 1) else x ^^^ (2 ^ (q - 1))
  let lo := if natBit x (q - 1) then y else x
  let hi := if natBit x (q - 1) then x else y
  (lo, hi, lo / 2 ^ q * 2 ^ (q - 1) + lo % 2 ^ (q - 1))

/-- The word of a TAKE (R326). -/
def takeWord (status num : Nat) : Word := BitVec.ofNat 64 (status * 2 ^ 62 + num % 2 ^ 62)

/-- A partition may use a network (R320). -/
def netGranted (s : State) (part n : Nat) : Bool :=
  match s.part? part with
  | some p => if n < 64 then p.grant.nets.contains n else decide (n < 80) && p.grant.domNets.contains (n - 64)
  | none => false

/-- The table-operand trap of an operand (R321). -/
def tableOperand (fidx fval : Nat) (v : Word) : Trap := { cause := 0x19, fidx := fidx, fval := fval, v := v }

/-- The network that s[a] names. -/
def needNet (a : BitVec 4) (s : State) : Checked Nat := do
  let v := s.getS a
  need (decide (v.toNat < 128) && netGranted s s.myPart v.toNat) (tableOperand 3 a.toNat v)
  .ok v.toNat

/-- The wire a core's token enters on (R323). -/
def entryWire (s : State) (core n : Nat) : Nat :=
  if n < 64 then (20 * standOfCore core + core / 16 % 32) % 32 else s.pkg % 64

/-- A token sent for m places: turned back where entry is not open (R326), else on its way through the layers. -/
def sendToken (d : BitVec 4) (n m : Nat) (s : State) : State :=
  let x := s.net n
  if x.entry ≠ 0 ∨ x.broken = true then loadS 4 d (takeWord 1 0) (s.count 0x13)
  else
    let l := s.fresh
    let s := s.pushLoad (.s d) .waiting
    advance 4 (s.send s.th.id (.token n 0 (entryWire s s.th.core n) m s.th.id l))

/-- TAKE (R327). -/
def execTake (d a : BitVec 4) (s : State) : Outcome :=
  settle s do
    let n ← needNet a s
    .ok (sendToken d n 1 s)

/-- TAKEB (R327). -/
def execTakeb (d a b : BitVec 4) (s : State) : Outcome :=
  let k := s.getS b
  settle s do
    let n ← needNet a s
    need (decide (1 ≤ k.toNat) && decide (k.toNat ≤ 4096)) (tableOperand 4 b.toNat k)
    .ok (sendToken d n k.toNat s)

/-- BALANCER_TOKEN (R322): the token, message a, leaves its balancer by the toggle, which flips. -/
def execBalancerToken (s : State) : Outcome :=
  match arrived s s.arg.a with
  | some e =>
    match e.body with
    | .token n layer wire m tid l =>
      match (netLayers (netLog n))[layer]? with
      | none => .next s
      | some lay =>
        let (lo, hi, i) := balancerAt lay wire
        let x := s.net n
        let t := netWidth n / 2 * layer + i
        let out := if natBit x.toggles t then hi else lo
        let s := s.setNet n { x with toggles := x.toggles ^^^ 2 ^ t }
        .next { s with msgs := (dropMsg e.seq s).msgs ++ [{ e with body := .token n (layer + 1) out m tid l }] }
    | _ => .next s
  | none => .next s

/-- OUTPUT_COUNTER (R324): the token, message a, takes its places on its output wire, or the exhausted status. -/
def execOutputCounter (s : State) : Outcome :=
  match arrived s s.arg.a with
  | some e =>
    match e.body with
    | .token n layer wire m tid l =>
      if layer < (netLayers (netLog n)).length then .next s
      else
        let x := s.net n
        let c := (Table.find wire x.counters).getD 0
        let s := dropMsg e.seq s
        if 2 ^ 48 < c + m then .next (s.fillLoad tid l (.data ((takeWord 2 0).setWidth 1024) false))
        else
          let v := x.base.toNat + wire + netWidth n * c
          let s := s.setNet n { x with counters := Table.put wire (c + m) x.counters }
          .next (s.fillLoad tid l (.data ((takeWord 0 v).setWidth 1024) false))
    | _ => .next s
  | none => .next s

/-- A network's save block (R329). -/
def netBytes (n : Nat) (x : Net) : List Byte :=
  leBytes 128 x.toggles ++ leBytes 8 x.base.toNat ++ leBytes 1 (if n < 64 then 0 else 1) ++ zeroBytes 119
    ++ (List.range 64).flatMap fun i => leBytes 8 ((Table.find i x.counters).getD 0)

/-- The byte offset of the first field of a save block that R329 refuses. -/
def netBlockFault (n : Nat) (bs : List Byte) : Option Nat :=
  let bits := netToggles n
  let counters := netWidth n
  if 2 ^ bits ≤ leField bs 0 128 then some 0
  else if 2 ^ 56 ≤ leField bs 128 8 then some 128
  else if leField bs 136 1 ≠ (if n < 64 then 0 else 1) then some 136
  else if leField bs 137 119 ≠ 0 then some 137
  else ((List.range 64).find? fun i => decide ((if i < counters then 2 ^ 48 else 1) ≤ leField bs (256 + 8 * i) 8)).map
    fun i => 256 + 8 * i

/-- A network as a save block says, open (R328); bits that it has no toggle or counter for are ignored (00 R2). -/
def netOf (n : Nat) (bs : List Byte) (x : Net) : Net :=
  { x with
    toggles := leField bs 0 128 % 2 ^ netToggles n, base := BitVec.ofNat 56 (leField bs 128 8), entry := 0
    counters := (List.range (netWidth n)).filterMap fun i =>
      let c := leField bs (256 + 8 * i) 8 % 2 ^ 49
      if c = 0 then none else some (i, c) }

/-- A control instruction joins its network's queue; the first closes entry (R328). -/
def controlNet (what n : Nat) (operand : Word) (bytes : List Byte) (spans : List (Loc × Nat)) (s : State) : State :=
  let x := s.net n
  let s := s.setNet n { x with pending := x.pending ++ [s.th.id], entry := if x.pending.isEmpty then 1 else x.entry }
  holdFor (.net what n operand bytes spans) s

/-- The privilege check of the table instructions (R321). -/
def needTablePriv (s : State) : Checked Unit := need (decide (1 ≤ s.th.priv.toNat)) (denied 5 (s.fieldOf 5))

/-- NSAVE (R328). -/
def execNsave (a b : BitVec 4) (s : State) : Outcome :=
  let check : Checked (Nat × List (Loc × Nat) × State) := do
    needTablePriv s
    let n ← needNet a s
    let (sp, s) ← spanOf .write (s.getS b) 768 64 4 b.toNat s
    .ok (n, sp, s)
  match check with
  | .error t => .next (takeTrap t s)
  | .ok (n, sp, s) =>
    .next (controlNet 0 n (s.getS b) [] sp s)

/-- NREST (R328): the block is read and checked before the network is touched. -/
def execNrest (a b : BitVec 4) (s : State) : Outcome :=
  let va := s.getS b
  let check : Checked (Nat × List Loc × State) := do
    needTablePriv s
    let n ← needNet a s
    let (ls, s) ← spanPlace .read va 768 64 4 b.toNat s
    .ok (n, ls, s)
  match check with
  | .error t => .next (takeTrap t s)
  | .ok (n, ls, s) =>
    readChecked va ls s fun bs s =>
      match netBlockFault n bs with
      | some off => .next (takeTrap { cause := 0x19, a := va, v := BitVec.ofNat 64 off } s)
      | none => .next (controlNet 1 n va bs [] s)

/-- NRESET (R328). -/
def execNreset (a b : BitVec 4) (s : State) : Outcome :=
  let v := s.getS b
  settle s do
    needTablePriv s
    let n ← needNet a s
    need (decide (v.toNat < 2 ^ 56)) (tableOperand 4 b.toNat v)
    .ok (controlNet 2 n v [] [] s)

/-- The change of a control instruction on a quiet network, for its thread in the focus; what NSAVE stores is performed with
it, behind the thread's earlier accesses there. -/
def applyControl (what n : Nat) (operand : Word) (bytes : List Byte) (spans : List (Loc × Nat)) (s : State) : State :=
  let x := s.net n
  match what with
  | 0 =>
    let ls := spanLocs spans
    let s := settleRaised s.th true false ls (beforeReading ls s)
    let w : Writer := { stand := standOfCore s.th.core, tid := s.th.id }
    let s := coreStore s.myPart s.th.core w (ls.zip (netBytes n x)) { s.th.entry 0 with addr := operand } s
    s.setNet n { x with entry := 2 }
  | 1 => s.setNet n (netOf n bytes x)
  | _ => s.setNet n { x with toggles := 0, counters := [], base := operand.setWidth 56, entry := 0 }

/-- NETWORK_QUIET (R328): network a is quiet, and the first control instruction that waits for it is applied, where its core's
picker lets it go on (02 R29); the next one closes entry again. -/
def execNetworkQuiet (s : State) : Outcome :=
  let n := s.arg.a
  match (s.net n).pending with
  | [] => .next s
  | tid :: rest =>
    match s.thread? tid with
    | none => .next (s.setNet n { s.net n with pending := rest })
    | some t =>
      match t.status with
      | .holding (.net what m operand bytes spans) =>
        if m ≠ n || !netReady s t n spans || !pickedEvent s t.core .networkQuiet n then .next s
        else
          let s := applyControl what n operand bytes spans (s.focus tid)
          let x := s.net n
          .next (finishWait (s.setNet n { x with pending := rest, entry := if rest.isEmpty then x.entry else 1 }))
      | _ => .next (s.setNet n { s.net n with pending := rest })

/-! ### Statistics records (R331-R338) -/

/-- The record that s[a] names, with its partition (R320). -/
def needRecord (a : BitVec 4) (s : State) : Checked (Nat × Part) := do
  let v := s.getS a
  match s.part? s.myPart with
  | none => .error (tableOperand 3 a.toNat v)
  | some p =>
    need (decide (v.toNat < 65536) && recordOk p v.toNat) (tableOperand 3 a.toNat v)
    .ok (v.toNat, p)

/-- The physical address of a record. -/
def recordAddr (p : Part) (h : Nat) : Nat := p.grant.recB + 64 * h

/-- STATA and STATC (R335): the record is cleared at its home, at once or behind what must come before (11 R249); a record that
cannot be read is a data error at its physical address (notes/assumptions/101.md). -/
def clearRecord (check : Checked (Nat × Part)) (set : Option (Nat × Nat)) (s : State) : Outcome :=
  match check with
  | .error t => .next (takeTrap t s)
  | .ok (h, p) =>
    let a := recordAddr p h
    dataChecked (BitVec.ofNat 64 a) (recordPlaces a) s fun s => .next (advance 4 (queueRecord a h set (s.th.entry 0) s))

/-- STATA (R335). -/
def execStata (a b : BitVec 4) (s : State) : Outcome :=
  let v := s.getS b
  let check : Checked (Nat × Part) := do
    let r ← needRecord a s
    need (v.toNat / 2 ^ 16 = 0 && v.toNat / 16 % 16 = 0 && decide (v.toNat % 16 ≤ 8)) (tableOperand 4 b.toNat v)
    .ok r
  clearRecord check (some (v.toNat % 16, v.toNat / 256 % 256)) s

/-- STATC (R335). -/
def execStatc (a : BitVec 4) (s : State) : Outcome := clearRecord (needRecord a s) none s

/-- STATL and STATR (R336, R337): the record is read at its home as the instruction issues, or once what it comes behind is
done. -/
def onRecord (check : Checked (Nat × Part)) (dest : LoadDest) (acq : Option Nat) (i : Instr) (x y : Word) (s : State)
    (go : Nat → Nat → List Byte → State → Checked State) : Outcome :=
  match check with
  | .error t => .next (takeTrap t s)
  | .ok (h, p) =>
    let a := recordAddr p h
    readOrLate dest acq i x y (BitVec.ofNat 64 a) (recordPlaces a) s (go h)

/-- eF of a format that scales (03 R67). -/
def scaleExponent (fmt : Nat) : Option Int :=
  match fmt with
  | 3 => some 8
  | 4 => some 15
  | 5 => some 2
  | 6 => some 10
  | 7 => some 6
  | _ => none

/-- The exponent that STATL latches (03 R67). -/
def latchExponent (ef : Int) (maxmag h : Nat) : Int :=
  match decodeFloat .f32 maxmag with
  | .fin _ m e => if m = 0 then 0 else max (-127) (min 127 (ef - magLog2 m e - h))
  | _ => 0

/-- What STATL does with a record it reads (R336): the exponent is latched in the record, and comes back for the scale
register. -/
def latchRecord (a b : BitVec 4) (c : BitVec 3) (x y : Word) (h2 : BitVec 2) (h id : Nat) (r : List Byte) (s : State) : Checked State := do
  let gen := leField r 4 4
  let want := y.toNat % 2 ^ 32
  need (b = 0 || gen = want) { cause := 0x18, fidx := 4, fval := b.toNat, v := BitVec.ofNat 64 (want * 2 ^ 32 + gen) }
  match scaleExponent (leField r 2 1) with
  | none => .error (tableOperand 3 a.toNat x)
  | some ef =>
    let k := latchExponent ef (leField r 8 4) h2.toNat
    let k8 := (k % 256).toNat
    let report := natBit (leField r 3 1) 1
    let fl := leField r 3 1
    let r' := patchBytes (patchBytes r 3 (leBytes 1 (if report then fl - 2 else fl))) 63 (leBytes 1 k8)
    let sc := BitVec.ofNat 1024 (gen * 2 ^ 24 + leField r 0 2 * 256 + k8)
    let s := match s.part? s.myPart with
      | some p => recordWrite p h r' s
      | none => s
    let s := if report then s.count 0x14 else s
    .ok ((acquireL1 c.toNat s.th.core s).fillLoad s.th.id id (.data sc report))

/-- STATL (R336): an acquire at its scope. -/
def execStatl (n : BitVec 3) (a b : BitVec 4) (h : BitVec 2) (c : BitVec 3) (s : State) : Outcome :=
  let x := s.getS a
  let y := s.getS b
  onRecord (needRecord a s) (.sc n) (some c.toNat) (.statl n a b h c) x y s fun i => latchRecord a b c x y h i

/-- What STATR does with a record it reads (R337): word y comes back. -/
def recordWord (y : Word) (id : Nat) (r : List Byte) (s : State) : Checked State :=
  .ok (s.fillLoad s.th.id id (.data (BitVec.ofNat 1024 (leField r (8 * y.toNat) 8)) false))

/-- STATR (R337). -/
def execStatr (d a b : BitVec 4) (s : State) : Outcome :=
  let w := s.getS b
  let check : Checked (Nat × Part) := do
    let r ← needRecord a s
    need (decide (w.toNat < 8)) (tableOperand 4 b.toNat w)
    .ok r
  onRecord check (.s d) none (.statr d a b) (s.getS a) w s fun _ => recordWord w

/-- STATISTICS_PARTIAL (R334): the partial, message a, merges into its record at its home. -/
def execStatisticsPartial (s : State) : Outcome :=
  match arrived s s.arg.a with
  | some e =>
    match e.body with
    | .statistics part h p sender => .next (arrivePartial part h.toNat p sender (dropMsg e.seq s))
    | _ => .next s
  | none => .next s

/-! ### The event crossbar (R339-R347) -/

/-- A counter's field of 8 bytes. -/
def evxCounter (img : List Byte) (j : Nat) : Nat := leField img (16 + 8 * j) 8
/-- Literal i of a term: its byte. -/
def evxLiteral (img : List Byte) (t i : Nat) : Nat := leField img (144 + 16 * t + i) 1

/-- The offset of the first field of an image that R345 refuses, for a grove: the header, then every reserved bit, then the
products in use, then the thresholds of those that are enabled. -/
def imageFault (grove : Nat) (img : List Byte) : Option Nat :=
  let dth (c : Nat) : Nat := leField img (432 + 8 * c) 8
  let reserved : List (Bool × Nat) :=
    [(leField img 8 8 != 0, 8)]
      ++ (List.range 16).map (fun j => (decide (2 ^ 40 ≤ evxCounter img j), 16 + 8 * j + 5))
      ++ (List.range 32).map (fun i => (leField img (400 + i) 1 / 16 % 8 != 0, 400 + i))
      ++ (List.range 16).map (fun c => (dth c / 2 ^ 33 % 2 ^ 30 != 0, 432 + 8 * c + 4))
      ++ (List.range 4).map (fun j => (leField img (560 + 8 * j) 8 / 2 ^ 28 % 2 ^ 35 != 0, 560 + 8 * j + 3))
      ++ [(leField img 592 48 != 0, 592)]
  let product (p : Nat) : Bool × Nat :=
    let ls := (List.range 4).map fun l => leField img (144 + 4 * p + l) 1
    ((ls.any fun x => decide (128 ≤ x)) && !(ls.any fun x => decide (128 ≤ x) && !natBit x 6), 144 + 4 * p)
  let threshold (c : Nat) : Bool × Nat :=
    let th := dth c / 2 ^ 24 % 512
    (decide (2 ^ 63 ≤ dth c) && (th == 0 || decide (256 < th)), 432 + 8 * c + 3)
  let checks : List (Bool × Nat) :=
    [(leField img 0 4 != 0x43585645, 0), (leField img 4 2 != 0x0100, 4), (leField img 6 2 != 16 * grove, 6)]
      ++ reserved ++ (List.range 64).map product ++ (List.range 16).map threshold
  (checks.find? (·.1)).map (·.2)

/-- EVCFG (R345): the new image replaces the old one at one instant; zero events on their way to lines 56 to 63 are not lost
(R339). -/
def execEvcfg (a : BitVec 4) (s : State) : Outcome :=
  let va := s.getS a
  match spanPlace .read va 640 64 3 a.toNat s with
  | .error t => .next (takeTrap t s)
  | .ok (ls, s) =>
    readChecked va ls s fun bs s =>
      let g := groveOfCore s.th.core
      match imageFault g bs with
      | some off => .next (takeTrap { cause := 0x19, a := va, v := BitVec.ofNat 64 off } s)
      | none =>
        let x : Evx := {
          image := bs, value := Vector.ofFn fun j => BitVec.ofNat 16 (evxCounter bs j.val / 2 ^ 24), outs := (s.grove g).evx.outs }
        .next (advance 4 (s.setGrove g { s.grove g with evx := x }))

/-- EVPULSE (R346): a release at .pkg. -/
def execEvpulse (n : BitVec 3) (s : State) : Outcome :=
  .next (advance 4 (s.sendRelease 3 (.pulse (groveOfCore s.th.core) (48 + n.toNat))))

/-- The item that EVRD selects (R347). -/
def evxItem (s : State) (v : Nat) : Option Nat :=
  let x := (s.grove (groveOfCore s.th.core)).evx
  if v < 0x10 then some ((x.value.toList.getD v 0).toNat + 65536 * (evxCounter x.image v % 65536))
  else if v < 0x20 then some (x.seen.toList.getD (v - 0x10) 0).toNat
  else if v < 0x40 then some (x.credit.toList.getD (v - 0x20) 0).toNat
  else if v < 0x50 then some (groupEntry s s.myPart (v - 0x40))
  else none

/-- EVRD (R347). -/
def execEvrd (d a : BitVec 4) (s : State) : Outcome :=
  match evxItem s (s.getS a).toNat with
  | some v => .next (loadS 4 d (BitVec.ofNat 64 v) s)
  | none => .next (takeTrap (tableOperand 3 a.toNat (s.getS a)) s)

/-- One pulse on a counter (R340): its value, and whether it signals its zero event. -/
def pulseCounter (field : Nat) (value : BitVec 16) : BitVec 16 × Bool :=
  let load := BitVec.ofNat 16 field
  if natBit field 22 then (if value + 1 = 0 then (load, true) else (value + 1, false))
  else if 1 < value.toNat then (value - 1, false) else (load, true)

/-- The seen bits of a term after pulses on lines (R341): a literal of either sign sees the pulses of its line
(notes/assumptions/17.md). -/
def seeLines (img : List Byte) (lines : List Nat) (t : Nat) (seen : BitVec 16) : BitVec 16 :=
  (List.range 16).foldl (fun b i =>
    let l := evxLiteral img t i
    if natBit l 7 && lines.contains (l % 64) then b ||| (1 <<< i) else b) seen

/-- A term fires (R341): every literal in use of some product in use is true. -/
def termFires (img : List Byte) (t : Nat) (seen : BitVec 16) : Bool :=
  (List.range 4).any fun p =>
    let ls := (List.range 4).map fun l => 4 * p + l
    let used := ls.filter fun i => natBit (evxLiteral img t i) 7
    !used.isEmpty && used.all fun i => seen.getLsbD i != natBit (evxLiteral img t i) 6

/-- One fabric cycle of a crossbar with pulses on lines (R343): counters and seen bits, then firings, then credits; the
zero events go out in the next cycle. -/
def evxCycle (lines : List Nat) (x : Evx) : Evx :=
  let ctr := x.value.toList.zipIdx.map fun p =>
    let f := evxCounter x.image p.2
    if natBit f 23 && lines.contains (f / 65536 % 64) then pulseCounter f p.1 else (p.1, false)
  let zeros := (ctr.zipIdx.filter fun p => p.1.2).map fun p => 56 + p.2 % 8
  let seen := x.seen.toList.zipIdx.map fun p => seeLines x.image lines p.2 p.1
  let fired := (seen.zipIdx.filter fun p => termFires x.image p.2 p.1).map (·.2)
  { x with
    value := Vector.ofFn fun j => (ctr.getD j.val (0, false)).1
    seen := Vector.ofFn fun t => if fired.contains t.val then 0 else seen.getD t.val 0
    credit := x.credit.mapFinIdx fun i c _ =>
      let f := leField x.image (400 + i) 1
      if natBit f 7 && fired.contains (f % 16) && c ≠ 255 then c + 1 else c
    outs := x.outs ++ zeros }

/-- Distinct lines, with what is left of a list once each line is taken once. -/
def takeOnce : List Nat → List Nat × List Nat
  | [] => ([], [])
  | l :: r => let (ls, rest) := takeOnce r; if ls.contains l then (ls, l :: rest) else (l :: ls, rest)

/-- EVX_PULSE (R343): one fabric cycle of grove a, in which the counter-outs of the last cycle and the pulses of the
listed messages arrive, at most one on each line. -/
def execEvxPulse (s : State) : Outcome :=
  let g := s.arg.a
  let x := (s.grove g).evx
  let (outs, later) := takeOnce x.outs
  let (lines, s) := s.msgs.foldl (fun (st : List Nat × State) e => match e.body with
    | .pulse h l =>
      if h = g && st.2.arg.list.contains e.seq && !st.1.contains l && mayArrive st.2 e then (l :: st.1, dropMsg e.seq st.2) else st
    | _ => st) (outs, s)
  if x.image.isEmpty then .next s
  else .next (releaseArmed g (s.setGrove g { s.grove g with evx := evxCycle lines { x with outs := later } }))

/-! ### The access-control table (R348-R350) -/

/-- The offset of the first field of an entry's image that R350 refuses. -/
def actFault (v : Nat) : Option Nat :=
  let pkg := v % 1024
  if 640 ≤ pkg ∧ pkg ≤ 0x3FE then some 0
  else if v / 2 ^ 13 % 4 ≠ 0 then some 1
  else if 4096 < v / 2 ^ 32 % 65536 then some 4
  else if v / 2 ^ 61 % 8 ≠ 0 then some 7
  else none

/-- ACTW (R350): the entry is written indivisibly; RES stays. -/
def execActw (a b : BitVec 4) (s : State) : Outcome :=
  let idx := s.getS a
  let va := s.getS b
  let check : Checked (List Loc × State) := do
    needTablePriv s
    need (decide (idx.toNat < 256)) (tableOperand 3 a.toNat idx)
    spanPlace .read va 16 16 4 b.toNat s
  match check with
  | .error t => .next (takeTrap t s)
  | .ok (ls, s) =>
    readChecked va ls s fun bs s =>
      let v := leNat bs
      match actFault v with
      | some off => .next (takeTrap { cause := 0x19, a := va, v := BitVec.ofNat 64 off } s)
      | none =>
        .next (advance 4 (s.onPart s.myPart fun p =>
          let res := (((Table.find idx.toNat p.act).getD 0).extractLsb' 48 13).toNat
          let e := v - v / 2 ^ 48 % 2 ^ 13 * 2 ^ 48 + res * 2 ^ 48
          { p with act := Table.put idx.toNat (BitVec.ofNat 128 e) p.act }))

end Sys2Proof.Machine
end

