-- ==== Sys2Proof/Machine/ArrayContext.lean ====
section
/-!
DEFINITION. The per-array context block of 67,584 bytes (18 R364): its bytes from an array, and an array from its bytes.
-/
namespace Sys2Proof.Machine

open Sys2Proof

/-- Bytes of the block. -/
def arrayBlockBytes : Nat := 67584

/-- The word of a saved command: an MDRAIN's carries the effective mode. -/
def ArrayCmd.savedWord (c : ArrayCmd) : Nat :=
  match c.instr with
  | .mdrain .. => c.word.toNat - fieldOf c.word.toNat 26 3 * 2 ^ 26 + c.mode % 8 * 2 ^ 26
  | _ => c.word.toNat

/-- The operands of a saved command, 16 bytes. -/
def ArrayCmd.savedOperands (c : ArrayCmd) : List Byte :=
  let deck := ((c.decks.head?).map (·.2)).getD 0
  match c.instr with
  | .pstep .. => padTo 16 (c.decks.flatMap fun d => leBytes 4 d.2)
  | .mdrain _ _ _ _ _ _ _ k => leBytes 8 (if k = 1 then deck else c.a.toNat) ++ leBytes 8 c.sc.toNat
  | .mlda _ _ _ k => leBytes 8 (if k = 1 then deck else c.a.toNat) ++ zeroBytes 8
  | .pfade _ => leBytes 8 c.left ++ zeroBytes 8
  | _ => leBytes 8 c.a.toNat ++ leBytes 8 c.b.toNat

/-- A queue entry, 32 bytes. -/
def ArrayCmd.savedEntry (c : ArrayCmd) : List Byte :=
  leBytes 4 c.savedWord ++ leBytes 4 c.modw.toNat ++ c.savedOperands ++ leBytes 4 (4 * c.core + c.slot) ++ zeroBytes 4

/-- The side entry, 24 bytes. -/
def ArrayCmd.savedSide (c : ArrayCmd) : List Byte :=
  match c.instr with
  | .mdrain .. => leBytes 8 c.draw.src.toNat ++ leBytes 8 c.draw.jseed.toNat ++ leBytes 4 c.draw.lcid.toNat ++ zeroBytes 4
  | _ => zeroBytes 24

/-- A reward entry, 16 bytes. -/
def Reward.saved (r : Reward) : List Byte :=
  leBytes 4 r.r.toNat ++ leBytes 8 r.cut.toNat ++ [if r.gate then 1 else 0, if r.sr then 1 else 0, 0, 0]

/-- The data error that a thread of an array's quad still has to take: address, location and TRAPV. -/
def quadError (s : State) (arr : Nat) : List Byte :=
  match s.all.find? fun t => t.bound && arrayOfCore t.core == arr && t.dataErr.isSome with
  | some t =>
    match t.dataErr with
    | some (a, v) => leBytes 8 a.toNat ++ leBytes 4 t.loc ++ leBytes 4 v.toNat
    | none => zeroBytes 16
  | none => zeroBytes 16

/-- An array's block. -/
def arrayBytes (s : State) (arr : Nat) : List Byte :=
  let x := s.array arr
  x.acc.toList.flatMap (fun m => m.span 0 8192) ++ x.abuf.toList.flatMap (fun m => m.span 0 8192)
    ++ leBytes 8 x.psc.toNat ++ leBytes 8 x.pgl.toNat ++ leBytes 8 x.pgc.toNat ++ leBytes 4 x.pgw.toNat ++ leBytes 4 x.plate.toNat
    ++ leBytes 4 x.lan.toNat ++ leBytes 4 x.cfg.toNat ++ leBytes 4 x.pflg.toNat ++ leBytes 4 x.sth.toNat
    ++ wordsBytes 4 x.accf ++ wordsBytes 4 x.lambda ++ wordsBytes 4 x.eta ++ wordsBytes 1 x.cold
    ++ leBytes 1 x.own.toNat ++ leBytes 1 x.aq.length ++ leBytes 1 x.pq.length ++ leBytes 1 x.rq.length ++ zeroBytes 4
    ++ quadError s arr ++ zeroBytes 232
    ++ padTo 512 (x.aq.flatMap ArrayCmd.savedEntry) ++ padTo 512 (x.pq.flatMap ArrayCmd.savedEntry)
    ++ padTo 128 (x.rq.flatMap Reward.saved) ++ padTo 384 (x.aq.flatMap ArrayCmd.savedSide)

/-- Whether a block's OWN and counts are legal (R271, R364). -/
def arrayBlockOk (bs : List Byte) : Bool :=
  let own := leField bs 65792 1
  (own == 0 || (decide (4 ≤ own) && decide (own ≤ 7))) && decide (leField bs 65793 1 ≤ 16) && decide (leField bs 65794 1 ≤ 16)
    && decide (leField bs 65795 1 ≤ 8)

/-- A reward from its entry. -/
def rewardOf (bs : List Byte) : Reward :=
  { r := BitVec.ofNat 32 (leField bs 0 4), cut := BitVec.ofNat 64 (leField bs 4 8), gate := leField bs 12 1 % 2 = 1
    sr := leField bs 13 1 % 2 = 1 }

/-- The places of a saved command's memory operand, for its issuer. -/
def savedPlaces (k : Access) (priv part core a len : Nat) (s : State) : List (Loc × Nat) :=
  match resolveSpan { part := part, core := some core, grove := some (groveOfCore core), priv := priv } k (len / 2048 + 2) a len s with
  | .ok r => r.1
  | .error _ => []

/-- A command from its entry and side entry, for an array whose queues hold it no more: its operands are those saved. -/
def commandOf (e side : List Byte) (s : State) : Option ArrayCmd :=
  match decode32 (leField e 0 4) with
  | .error _ => none
  | .ok i =>
    let loc := leField e 24 4
    let core := loc / 4
    let t := s.all.find? fun t => t.bound && t.loc == loc
    let part := ((s.grove (groveOfCore core)).owner).getD 0
    let op1 := leField e 8 8
    let op2 := leField e 16 8
    let w (n : Nat) : Word := BitVec.ofNat 64 n
    let places (k : Access) (len : Nat) : List (Loc × Nat) :=
      savedPlaces k ((t.map fun t => t.priv.toNat).getD 0) part core op1 len s
    let c : ArrayCmd :=
      { id := 0, instr := i, word := BitVec.ofNat 32 (leField e 0 4), modw := BitVec.ofNat 32 (leField e 4 4), a := w op1, b := w op2
        core := core, slot := loc % 4, tid := (t.map (·.id)).getD 0, ttag := (t.map (·.task.ttag)).getD 0
        pc := (t.map (·.pc)).getD 0, part := part
        draw := { jseed := w (leField side 8 8), lcid := BitVec.ofNat 32 (leField side 16 4), src := w (leField side 0 8) }
        mode := 0, sc := 0, locs := [], decks := [], data := none, load := none, left := 0 }
    some (match i with
      | .pstep .. => { c with a := 0, b := 0, decks := (List.range 3).map fun n => (core, leField e (8 + 4 * n) 4) }
      | .mdrain _ _ _ f m _ _ k =>
        let c := { c with mode := m.toNat, sc := w op2, b := 0 }
        if k = 1 then { c with a := 0, decks := [(core, op1)] } else { c with locs := places .write (drainBytes (Fmt.ofCode f.toNat)) }
      | .mlda _ _ f k =>
        if k = 1 then { c with a := 0, decks := [(core, op1)] } else { c with locs := places .read (aTileBytes (Fmt.ofCode f.toNat)) }
      | .mldb _ _ f _ => { c with locs := places .read (bTileBytes (Fmt.ofCode f.toNat)) }
      | .mswap .. => { c with locs := places .readWrite 8256 }
      | .pfade _ => { c with a := 0, left := op1 }
      | .pcfg _ => { c with data := some (readSpan s 0 (places .read 208)) }
      | _ => c)

/-- A command is the one that an entry and its side entry hold; their reserved bytes are not looked at (00 R2, R364). -/
def ArrayCmd.heldIn (c : ArrayCmd) (e side : List Byte) : Bool :=
  let known : Nat := match c.instr with
    | .pstep .. => 20
    | _ => 24
  let own := c.savedEntry
  own.take known == e.take known && (own.drop 24).take 4 == (e.drop 24).take 4
    && (match c.instr with
      | .mdrain .. => c.savedSide.take 20 == side.take 20
      | _ => true)

/-- The commands of a saved queue: a command of the array's own queue with the same entry is that command, each used
once; another is built from its entry. -/
def commandsOf (s : State) : List ArrayCmd → List (List Byte × List Byte) → List ArrayCmd
  | _, [] => []
  | old, (e, side) :: r =>
    match old.find? fun c => c.heldIn e side with
    | some c => c :: commandsOf s (old.erase c) r
    | none =>
      match commandOf e side s with
      | some c => c :: commandsOf s old r
      | none => commandsOf s old r

/-- Entry n of size k of a queue at an offset of a block. -/
def blockEntry (bs : List Byte) (off k n : Nat) : List Byte := (bs.drop (off + k * n)).take k

/-- Commands built from entries get numbers of their own. -/
def numberCommands (next : Nat) (cs : List ArrayCmd) : List ArrayCmd :=
  cs.zipIdx.map fun p => if p.1.id = 0 then { p.1 with id := next + p.2 } else p.1

/-- An array as a block says (R364): the B-tile space, the synapse region and the rewards held at its input stay. -/
def loadArray (arr : Nat) (bs : List Byte) (s : State) : State :=
  let x := s.array arr
  let queue (off n : Nat) (side : Bool) : List (List Byte × List Byte) :=
    (List.range n).map fun e => (blockEntry bs off 32 e, if side then blockEntry bs 67200 24 e else zeroBytes 24)
  let aq := commandsOf s x.aq (queue 66048 (leField bs 65793 1 % 32) true)
  let pq := commandsOf s x.pq (queue 66560 (leField bs 65794 1 % 32) false)
  let x' : MArray :=
    { x with
      acc := Vector.ofFn fun i => Memory.ofBytes (blockEntry bs 0 8192 i.val)
      abuf := Vector.ofFn fun i => Memory.ofBytes (blockEntry bs 32768 8192 i.val)
      psc := BitVec.ofNat 64 (leField bs 65536 8), pgl := BitVec.ofNat 64 (leField bs 65544 8), pgc := BitVec.ofNat 64 (leField bs 65552 8)
      pgw := BitVec.ofNat 32 (leField bs 65560 4), plate := BitVec.ofNat 32 (leField bs 65564 4), lan := BitVec.ofNat 32 (leField bs 65568 4)
      cfg := BitVec.ofNat 32 (leField bs 65572 4) &&& 0x3FFFFF, pflg := BitVec.ofNat 32 (leField bs 65576 4) &&& 0x3F
      sth := BitVec.ofNat 32 (leField bs 65580 4) &&& 0x1FFFF
      accf := (vectorAt 32 4 4 65584 bs).map (· &&& 0x3F), lambda := vectorAt 32 16 4 65600 bs, eta := vectorAt 32 16 4 65664 bs
      cold := (vectorAt 8 64 1 65728 bs).map (· &&& 0x0F)
      own := BitVec.ofNat 3 (leField bs 65792 1)
      aq := numberCommands s.fresh aq, pq := numberCommands (s.fresh + 32) pq
      rq := (List.range (leField bs 65795 1 % 16)).map fun e => rewardOf (blockEntry bs 67072 16 e)
      running := none, frozen := false }
  let s := { s.setArray arr x' with fresh := s.fresh + 64 }
  let loc := leField bs 65808 4
  match s.all.find? fun t => t.bound && t.loc == loc && arrayOfCore t.core == arr with
  | some t =>
    if leField bs 65800 16 = 0 then s
    else s.onThread t.id fun t =>
      { t with dataErr := some (BitVec.ofNat 64 (leField bs 65800 8), BitVec.ofNat 64 (leField bs 65812 4)) }
  | none => s

end Sys2Proof.Machine
end

