-- ==== Sys2Proof/Machine/Tasks.lean ====
section
/-!
DEFINITION. Tasks, migration and crews: TSPAWN, TDEC, TSELF, MIGR, GANG, GDIS, JOIN, DETACH and GREPLAY (08 R183-R188,
R210-R213; 02 R16-R23, R39-R46).
-/
namespace Sys2Proof.Machine

open Sys2Proof

/-! ### TSPAWN, TDEC and TSELF -/

/-- What TSPAWN does with the record it reads, for the load that returns its handle: the task is created once every earlier
access is performed at .pkg. -/
def spawnRead (va : Word) (id : Nat) (bs : List Byte) (s : State) : Checked State :=
  match readRecord (s.granted s.myPart) s.myPart (some s.th.core) va bs with
  | .error o => .error { cause := 8, fval := o, a := va }
  | .ok (t, depc) => .ok (s.fillLoad s.th.id id (.acting (.spawn t depc)))

/-- TSPAWN (08 R183): a release at .pkg. The record is read as it issues, or once what it comes behind is done. -/
def execTspawn (d a : BitVec 4) (s : State) : Outcome :=
  let va := s.getS a
  match spanPlace .read va 64 64 3 a.toNat s with
  | .error t => .next (takeTrap t s)
  | .ok (ls, s) => readOrLate (.s d) none (.tspawn d a) va 0 va ls s (spawnRead va)

/-- TDEC (08 R184): a release at .pkg; one message carries the whole amount. -/
def execTdec (a b : BitVec 4) (n : BitVec 6) (s : State) : Outcome :=
  let h := s.getS a
  let amount := (s.getS b).toNat + n.toNat
  if amount = 0 ∨ h = 0 then .next (advance 4 s)
  else .next (advance 4 (s.sendRelease 3 (.decr s.myPart h amount (s.th.entry 0))))

/-- TSELF (08 R186). -/
def execTself (d : BitVec 4) (s : State) : Outcome :=
  .next (writeS 2 d (BitVec.ofNat 64 (s.th.task.ttag.toNat + s.th.core * 2 ^ 32 + s.th.slot.toNat * 2 ^ 43)) s)

/-! ### MIGR (02 R44-R46, 08 R187) -/

/-- The first condition of R44 that stops a migration. -/
def migrateStop (s : State) : Option Nat :=
  let t := s.th
  if !t.fc.isEmpty then some 1
  else if t.decks.toList.any Option.isSome then some 2
  else if t.streams.toList.any (·.opened) then some 3
  else if t.lc[0] ≠ 0 ∨ t.lc[1] ≠ 0 then some 4
  else if (s.myCore.tagOut &&& t.tagMask) ≠ 0 then some 5
  else none

/-- Router hops between two groves: within a stand along the rows and columns of its mesh (01 R7); between stands to a bridge,
over the bridges of the row 0-1-2-3, through every stand between, and on from the last bridge (01 R9). Where the bridges
stand in the meshes is not given (notes/assumptions/10.md). -/
def hops (g h : Nat) : Nat :=
  let dist (x y : Nat) : Nat := max x y - min x y
  let (a, b) := (g / 32, h / 32)
  if a = b then dist (g % 32 % 5) (h % 32 % 5) + dist (g % 32 / 5) (h % 32 / 5)
  else
    let between := (List.range 4).filter fun n => decide (min a b < n) && decide (n < max a b)
    Config.bridgeHops g (decide (a < b)) + Config.bridgeHops h (decide (b < a)) + dist a b + (between.map Config.throughHops).sum

/-- The first of a list whose weight is least. -/
def leastBy (f : Nat → Nat) : List Nat → Option Nat
  | [] => none
  | x :: xs => match leastBy f xs with
    | some y => if f x ≤ f y then some x else some y
    | none => some x

/-- The granted grove nearest to a home slice's grove, the lower number on a tie. -/
def nearestGrove (groves : List Nat) (home : Nat) : Option Nat :=
  (leastBy (hops home) ((List.range 128).filter groves.contains))

/-- The core of a grove whose run queue, its spill ring included, holds the fewest entries. -/
def shortestQueue (s : State) (g : Nat) : Option Nat :=
  leastBy (fun c => (s.core c).runq.length + (s.core c).spill.length) (coresOfGrove g)

/-- Where R44 sends a thread that migrates to a place: none keeps it on its own core. -/
def migrateTarget (s : State) : Loc → Option Nat
  | .pa p _ =>
    if !s.ownPa p || (paHome p).1 = groveOfCore s.th.core then none
    else match s.part? s.myPart with
      | some x => (nearestGrove x.grant.groves (paHome p).1).bind (shortestQueue s)
      | none => none
  | _ => none

/-- The focus thread leaves its slot for its own core's run queue (R44 step 3). -/
def requeueSelf (s : State) : State := requeue s.th.id (s.onTh fun t => { t with uncounted := true })

/-- The accounting of an instruction after which its thread has no slot: it is done before the slot is given up. -/
def accountNow (s : State) : State := finishIssue false (s.onTh fun t => { t with uncounted := false })

/-- The focus thread leaves for a core: its context goes there, its tag group is free (02 R44 step 4, R46). -/
def migrateTo (core : Nat) (s : State) : State :=
  let m := s.th.tagMask
  let s := s.onCore fun c => { c with tagAllot := c.tagAllot &&& ~~~m }
  let bytes := migrationBytes s.shared s.th
  let s := s.onTh fun t => { t with status := .moving, tagged := false, uncounted := true, spin := [] }
  s.send s.th.id (.migrate core s.th.id bytes)

/-- MIGR (08 R187): the conditions, the address, then, as a FENCE at .pkg does, the thread's accesses and the reduction log
(11 R266); a thread that stays in its grove goes to its own queue; another waits for its load-path results too, and moves. Its
issue is accounted before it leaves. -/
def execMigr (a : BitVec 4) (s : State) : Outcome :=
  let va := s.getS a
  match migrateStop s with
  | some c => .next (takeTrap { cause := 0x0A, fval := c, a := va, v := BitVec.ofNat 64 c } s)
  | none =>
    match spanPlace .read va 1 1 3 a.toNat s with
    | .error t => .next (takeTrap t s)
    | .ok (ls, s) =>
      let s := performAt 3 s.th.id s
      match openWork 3 s, reductionTrap s with
      | n :: ns, _ => .next (holdForWork (n :: ns) s)
      | [], some (t, s) => .next (takeTrap t s)
      | [], none =>
        match ls.head?.bind (migrateTarget s), s.th.loads.map (·.id) with
        | none, _ => .next (requeueSelf (flushPend (accountNow (advance 4 s))))
        | some core, [] => .next (migrateTo core (flushPend (accountNow (advance 4 s))))
        | some _, n :: ns => .next (holdForWork (n :: ns) s)

/-! ### Crews (02 R39-R43, 08 R188) -/

/-- A result on its way that a follower takes over: not one for a register of the core, nor for ERX. -/
def sharedPending (p : Pending) : Bool :=
  match p.write with
  | .csr n _ => n ≤ 0x017 && n ≠ 0x002 && n ≠ 0x00F
  | _ => true

/-- The follower a leader's GANG starts (R40), as it stands before the issue of the GANG is accounted. -/
def followerOf (l : Thread) (id crew core cidx : Nat) (slot : BitVec 2) (ctgb : BitVec 6) : Thread :=
  { l with
    id := id, core := core, slot := slot, ctgb := ctgb, tagged := groupSize l.task.ctags ≠ 0
    task := { l.task with node := none }
    crew := true, det := false, cidx := BitVec.ofNat 4 cidx, crewId := crew, follower := true, fwd := []
    erx := 0, decks := .replicate 8 none, streams := .replicate 4 {}, inh := false
    trapc := 0, trappc := 0, trapi := 0, trapop := 0, trapa := 0, trapv := 0, trapst := 0, tsl := .replicate 7 0
    sscr := .replicate 2 0
    pend := l.pend.filter sharedPending
    loads := [], sq := [], atq := [], redlog := [], nearCount := 0, nearErrs := [], dataErr := none, spin := [] }

/-- One follower takes its slot and tag group; the results on their way come nearer as the leader's do with the GANG. -/
def addFollower (crew core cidx : Nat) (s : State) : State :=
  match freeSlot s core with
  | none => s
  | some slot =>
    let s := emptySlot core slot s
    let (c, b) := allotTags s.th.task.ctags (s.core core)
    let f := followerOf s.th s.fresh crew core cidx slot b
    let f := { f with ydl := if s.myCore.wdog.getLsbD 0 then f.ydl - 1 else f.ydl }
    let f := (tick (1 + s.th.ir.gap) { s with th := f }).th
    { s.setCore core c with threads := s.threads ++ [f], fresh := s.fresh + 1 }

/-- GANG (08 R188). -/
def execGang (n : BitVec 6) (s : State) : Outcome :=
  let core := s.th.core
  let n := n.toNat
  if s.th.crew || n < 2 || 16 < n || 15 < core % 16 + n - 1 then
    .next (takeTrap (illegal 5 (fieldValue s.th.ir.word.toNat 5)) s)
  else if !crewReady s core n s.th.task.ctags then .next (waitFor (.gang n) s)
  else
    let crew := s.fresh
    let s := advance 4 { s with fresh := s.fresh + 1 }
    let s := (List.range (n - 1)).foldl (fun s i => addFollower crew (core + 1 + i) (1 + i) s) s
    .next (s.onTh fun t => { t with crew := true, det := false, cidx := 0, crewId := crew })

/-- The focus thread leaves its crew for good (R188). -/
def leaveCrew (s : State) : State := s.onTh fun t => { t with crew := false, det := false, cidx := 0, fwd := [] }

/-- GDIS and DETACH (R188): the leader dissolves the crew, a follower leaves it; outside a crew nothing happens. -/
def leaveOrDissolve (s : State) : State :=
  if !s.th.crew then s else if s.th.cidx = 0 then dissolveCrew s.th.crewId s else leaveCrew s

/-- GDIS (08 R188). -/
def execGdis (s : State) : Outcome := .next (leaveOrDissolve (advance 4 s))
/-- DETACH (08 R188). -/
def execDetach (s : State) : Outcome := .next (leaveOrDissolve (advance 4 s))

/-- A detached follower's JOIN ends with the leader's at an address (R42): at the same one it is attached again and its
JOIN completes, its SW moving the picker only where the picker stands at its slot (R29); elsewhere it leaves the crew. One that
is parked goes to its run queue. -/
def rejoin (pc : Word) (s : State) (tid : Nat) : State :=
  match s.thread? tid with
  | none => s
  | some t =>
    let parked := t.place.isSome
    let s :=
      if t.pc = pc then
        let back := s.th.id
        let s := s.focus tid
        let picked := s.myCore.cur = s.th.slot
        let s := finishIssue false (advance 4 (s.onTh fun t => { t with
          det := false, fwd := [], uncounted := false, ir := { t.ir with sw := t.ir.sw && picked } }))
        s.focus back
      else s.onThread tid fun t => { t with crew := false, det := false, cidx := 0, fwd := [] }
    if parked then requeue tid s else s.onThread tid fun t => { t with status := .running }

/-- The detached followers of the focus thread's crew. -/
def detachedOf (s : State) : List Nat :=
  (s.threads.filter fun t => t.crew && t.crewId = s.th.crewId && t.cidx ≠ 0 && t.det && !t.isEnded).map (·.id)

/-- The leader's JOIN completes (R42). -/
def reconverge (s : State) : State :=
  let pc := s.th.pc
  let others := detachedOf s
  others.foldl (rejoin pc) (finishWait s)

/-- JOIN (08 R188). -/
def execJoin (s : State) : Outcome :=
  let t := s.th
  if !t.crew || t.attached then .next (advance 4 s)
  else if t.cidx = 0 && joinReady s t && (detachedOf s).isEmpty then .next (advance 4 s)
  else .next (waitFor .join s)

/-- JOIN_RECONVERGE (R42): the waiting thread a; a leader's crew goes on attached, and a thread whose crew is gone goes
on alone. -/
def execJoinReconverge (s : State) : Outcome :=
  match s.thread? s.arg.a with
  | some t =>
    match t.status with
    | .waiting .join _ =>
      if pickedWait s t .joinReconverge then
        let s := s.focus t.id
        if s.th.crew then .next (reconverge s) else .next (finishWait s)
      else .next s
    | _ => .next s
  | none => .next s

/-! ### Graph replay (08 R210-R213) -/

/-- A node's 32 bytes. -/
structure NodeRow where
  task : Word
  p0 : Word
  p1 : Word
  depc : Nat
  succn : Nat
  succi : Nat
deriving DecidableEq, Repr

/-- A node from its bytes. -/
def nodeOf (bs : List Byte) : NodeRow :=
  { task := BitVec.ofNat 64 (leField bs 0 8), p0 := BitVec.ofNat 64 (leField bs 8 8), p1 := BitVec.ofNat 64 (leField bs 16 8)
    depc := leField bs 24 2, succn := leField bs 26 2, succi := leField bs 28 4 }

/-- Bytes a replay reads or writes for a party, at their homes: none where an access is refused, or where a read meets a data
error (09 R229). -/
def replaySpan (w : Who) (k : Access) (va n : Nat) (s : State) : Except (Flt × Nat) (List Byte × State) :=
  match resolveSpan w k (n / 2048 + 2) va n s with
  | .error e => .error e
  | .ok (sp, s) =>
    let ls := spanLocs sp
    if k = .write then .ok (ls.map s.homeLoc, s)
    else match settleBad (s.bad.length + 1) ls s with
      | .error (i, b, _) => .error (⟨0x12, b.tv, some b⟩, va + i)
      | .ok s => .ok (ls.map s.homeLoc, s)

/-- Why a replay does not start: it is busy, a template or the header is refused (record and offset), or an access
faults. -/
inductive ReplayStop where
  | busy
  | denied (record : Word) (offset : Nat)
  | fault (f : Flt) (va : Nat)
deriving DecidableEq, Repr

/-- An access of a replay, its fault as a reason to stop. -/
def replayRead (w : Who) (k : Access) (va n : Nat) (s : State) : Except ReplayStop (List Byte × State) :=
  match replaySpan w k va n s with
  | .ok r => .ok r
  | .error (f, a) => .error (.fault f a)

/-- The successor entries of a node. -/
def succEntries (r : NodeRow) : List Nat := (List.range r.succn).map fun i => r.succi + i

/-- Reads the node table from a row on: each node's task with its count, and its successor entries (R211). DEPC and SUCCN are
taken as they stand, and a template whose address is not a multiple of 64 denies the replay at its offset 0
(notes/assumptions/100.md). -/
def replayNodes (w : Who) (self : Option Nat) (desc : Word) (vsel : Bool) (succ shnd : Nat) :
    Nat → Nat → Nat → State → Except ReplayStop ((List (TaskDesc × Nat)) × List (Nat × Nat) × State)
  | 0, _, _, s => .ok ([], [], s)
  | n + 1, j, at_, s => do
    let (bs, s) ← replayRead w .read at_ 32 s
    let row := nodeOf bs
    if row.task.toNat % 64 ≠ 0 then .error (.denied row.task 0)
    else
      let (rec_, s) ← replayRead w .read row.task.toNat 64 s
      match readRecord (s.granted w.part) w.part self row.task rec_ with
      | .error o => .error (.denied row.task o)
      | .ok (t, _) =>
        let t := { t with
          argp := if vsel then row.p1 else row.p0
          ttag := BitVec.ofNat 32 (t.ttag.toNat / 4096 * 4096 + j % 4096), node := some desc }
        let (sb, s) ← replayRead w .read (succ + 2 * row.succi) (2 * row.succn) s
        let (_, s) ← replayRead w .write (shnd + 8 * row.succi) (8 * row.succn) s
        let es := (succEntries row).zipIdx.map fun e => (e.1, leField sb (2 * e.2) 2)
        let (ts, ss, s) ← replayNodes w self desc vsel succ shnd n (j + 1) (at_ + 32) s
        .ok ((t, row.depc) :: ts, es ++ ss, s)

/-- A replay of a descriptor still gathers its counters. -/
def gathering (part : Nat) (desc : Word) (s : State) : Bool :=
  match s.part? part with
  | some p => p.replays.any fun r => r.desc = desc
  | none => false

/-- What a replay reads of a graph: its nodes' tasks with their counts, its successor entries, and the successor-handle array. -/
structure ReplayPlan where
  nodes : List (TaskDesc × Nat)
  succ : List (Nat × Nat)
  shnd : Nat
deriving DecidableEq, Repr

/-- Reads and checks a descriptor (R210, R211). A replay of the descriptor that still gathers its counters is busy too. -/
def replayPlan (w : Who) (self : Option Nat) (desc : Word) (s : State) : Except ReplayStop (ReplayPlan × State) := do
  let (h, s) ← replayRead w .read desc.toNat 64 s
  let (_, s) ← replayRead w .write (desc.toNat + 16) 4 s
  if leField h 16 4 ≠ 0 ∨ gathering w.part desc s = true then .error .busy
  else if leField h 0 4 ≠ 0x48505247 then .error (.denied desc 0)
  else
    let n := leField h 4 2
    if n < 1 ∨ 4096 < n then .error (.denied desc 4)
    else
      let succ := leField h 32 8
      let shnd := leField h 40 8
      let (ts, es, s) ← replayNodes w self desc (leField h 12 1 % 2 = 1) succ shnd n 0 (leField h 24 8) s
      .ok (⟨ts, es, shnd⟩, s)

/-- A replay starts: every node's task is created, and the replay completes once every node has its counter (R211). -/
def startReplay (part : Nat) (desc : Word) (p : ReplayPlan) (reply : Reply) (s : State) : State :=
  let r : Replay :=
    { desc := desc, shnd := p.shnd, nnode := p.nodes.length, succ := p.succ, handles := []
      ready := (p.nodes.filter fun n => n.2 = 0).map (·.1), reply := reply }
  let s := s.onPart part fun x => { x with replays := x.replays ++ [r] }
  p.nodes.zipIdx.foldl (fun s n => spawnTask n.1.1 n.1.2 (.node desc n.2) s) s

/-- A spawn that a load waits for is done, as a release at .pkg (08 R183): its handle comes back then. -/
def spawnNow (t : Thread) (l : Load) (task : TaskDesc) (depc : Nat) (s : State) : State :=
  spawnTask task depc (.load t.id l.id) (s.fillLoad t.id l.id .waiting)

/-- A replay for the focus thread, its answer through a load (R211): 1 where it is busy, 2 where it is denied, and the fault of
an access that is refused; else its nodes are created. VSEL, the nodes and LIVE are read in this step (R213). -/
def runReplay (a : BitVec 4) (desc : Word) (id : Nat) (s : State) : Checked State :=
  let tid := s.th.id
  match replayPlan s.who (some s.th.core) desc s with
  | .error .busy => .ok (s.fillLoad tid id (.data 1 false))
  | .error (.denied r o) =>
    .ok ((s.logFault s.th.core s.myPart { s.th.entry 8 with addr := r, opnd := BitVec.ofNat 32 (o % 256 * 16) }).fillLoad tid id (.data 2 false))
  | .error (.fault f va) => .error (f.trap 3 a.toNat a.toNat va)
  | .ok (p, s) => .ok (startReplay s.myPart desc p (.load tid id) s)

/-- GREPLAY (08 R211): a release at .pkg. A header that is not aligned is a misaligned access, an access that is refused is the
thread's fault. It acts as it issues where all that the thread did before is performed, else once it is
(notes/assumptions/46.md). -/
def execGreplay (d a : BitVec 4) (s : State) : Outcome :=
  let desc := s.getS a
  match spanPlace .read desc 64 64 3 a.toNat s with
  | .error t => .next (takeTrap t s)
  | .ok (ls, s) => dataChecked desc ls s fun s =>
    let s := performAt 3 s.th.id s
    if performedBefore s s.th.id s.fresh 3 && !readBlocked s ls then
      settle s ((runReplay a desc s.fresh (s.pushLoad (.s d) .waiting)).map (advance 4))
    else .next (advance 4 (s.pushLoad (.s d) (.acting (.late (.greplay d a) desc 0 ls))))

end Sys2Proof.Machine
end

