-- ==== Sys2Proof/Machine/Launch.lean ====
section
/-!
DEFINITION. Launch packets: PLNCH, the decision of the landing logic, the landing server, and the host's queue pages
(08 R207-R209, 17 R348, R349, 20 R376, R377).
-/
namespace Sys2Proof.Machine

open Sys2Proof

/-! ### PLNCH (08 R208) -/

/-- The package a launch goes to answers at once: no such package in the domain, a fenced one, or no such partition here.
A reserved bit of the target names nothing (notes/assumptions/12.md). -/
def launchRefused (s : State) (target : Nat) : Bool :=
  let pkg := target % 1024
  let part := target / 1024 % 8
  decide (2 ^ 17 ≤ target) || s.failed.contains pkg ||
    (if pkg = s.pkg then (s.part? part).isNone else !s.domain.contains pkg)

/-- What PLNCH does with the packet it reads, for the load that returns its answer: a release at .dom. What a peer answers is a
free value. -/
def launchRead (target : Nat) (id : Nat) (bs : List Byte) (s : State) : Checked State :=
  let tid := s.th.id
  if launchRefused s target then .ok (s.fillLoad tid id (.data 2 false))
  else if target % 1024 ≠ s.pkg then .ok (s.fillLoad tid id (.data (BitVec.ofNat 1024 (s.freeBelow 3)) false)).draw
  else .ok (s.sendRelease 4 (.packet (target / 1024 % 8) (target / 2 ^ 13 % 16) s.pkg s.myPart bs (some (tid, id)) (s.th.entry 0)))

/-- PLNCH (R208): the packet is read as it issues, or once what it comes behind is done. -/
def execPlnch (d a b : BitVec 4) (s : State) : Outcome :=
  let va := s.getS a
  let target := s.getS b
  match spanPlace .read va 64 64 3 a.toNat s with
  | .error t => .next (takeTrap t s)
  | .ok (ls, s) => readOrLate (.s d) none (.plnch d a b) va target va ls s (launchRead target.toNat)

/-! ### The landing logic (17 R349) -/

/-- A field of an access-control entry (17 R348). -/
def actField (e : BitVec 128) (lo n : Nat) : Nat := fieldOf e.toNat lo n

/-- The lowest-numbered valid entry that names a requester. -/
def matchAct (act : Table (BitVec 128)) (pkg rpart : Nat) : Option (Nat × BitVec 128) :=
  act.find? fun p => p.1 < 256 && actField p.2 15 1 = 1 && actField p.2 0 10 = pkg && actField p.2 10 3 = rpart

/-- What the landing logic decides of a packet, and the entry it counts against: 0 accepted, 1 busy, 2 denied. A halted
partition answers busy (18 R371). -/
def decide349 (p : Part) (queue pkg rpart : Nat) (bs : List Byte) : Nat × Nat :=
  let kind := leField bs 0 1
  let l := p.landing.getD queue {}
  if p.halt ≠ .running then (1, 0)
  else if kind < 1 ∨ 3 < kind then (2, 0)
  else match matchAct p.act pkg rpart with
    | none => (2, 0)
    | some (i, e) =>
      let gid := leField bs 4 4
      if actField e (16 + queue) 1 = 0 then (2, i)
      else if kind = 3 ∧ (gid < actField e 64 32 ∨ actField e 96 32 < gid) then (2, i)
      else if actField e 32 16 ≤ actField e 48 13 ∨ l.cap ≤ l.packets.length then (1, i)
      else (0, i)

/-- A packet is decided (R349): accepted, it stands in the queue with its sender; denied, it is logged here (08 R208). -/
def landPacket (part queue pkg rpart : Nat) (bs : List Byte) (sender : LogEntry) (s : State) : Nat × State :=
  match s.part? part with
  | none => (2, s)
  | some p =>
    match (if s.failed.contains pkg then (2, 0) else decide349 p queue pkg rpart bs) with
    | (0, i) =>
      let bs := patchBytes bs 8 (leBytes 2 (senderCode pkg rpart))
      let act := match Table.find i p.act with
        | some e => Table.put i (e + (1 <<< 48)) p.act
        | none => p.act
      let (at_, p) := appendPacket queue i bs sender { p with act := act }
      (0, hwStore part at_ bs (s.setPart part p))
    | (2, _) =>
      let at_ := (appendPacket queue 256 bs sender p).1
      (2, s.logAsync part { sender with
        cause := 0x0D, unit := unitCode 6 0 0 0, addr := BitVec.ofNat 64 at_, value := BitVec.ofNat 64 (senderCode pkg rpart) })
    | (c, _) => (c, s)

/-- PACKET_ARRIVAL (R349): the packet of message a is decided, and its code returns; packets of one sender for one queue in
issue order (R208). -/
def execPacketArrival (s : State) : Outcome :=
  match arrived s s.arg.a with
  | some e =>
    match e.body with
    | .packet part queue pkg rpart bs load sender =>
      let (c, s) := landPacket part queue pkg rpart bs sender (dropMsg e.seq s)
      match load with
      | some (tid, l) => .next (s.fillLoad tid l (.data (BitVec.ofNat 1024 c) false))
      | none => .next s
    | _ => .next s
  | none => .next s

/-! ### The landing server (08 R209) -/

/-- The head packet of a queue is begun. -/
def beginPacket (part queue : Nat) (s : State) : State :=
  s.onPart part fun p =>
    let l := p.landing.getD queue {}
    { p with landing := p.landing.set queue { l with packets := match l.packets with
      | k :: r => { k with started := true } :: r
      | [] => [] } }

/-- Storage that an access could not read is retired (09 R229). -/
def Flt.settle (f : Flt) (s : State) : State :=
  match f.bad with
  | some b => retire b s
  | none => s

/-- A packet's failure is logged, and its slot is free. -/
def failPacket (part queue : Nat) (sender : LogEntry) (cause : Nat) (addr : Word) (fval value : Nat) (s : State) : State :=
  popPacket part queue (s.logAsync part { sender with
    cause := cause, unit := unitCode 6 0 0 0, addr := addr, value := BitVec.ofNat 64 value, opnd := BitVec.ofNat 32 (fval * 16) })

/-- The record a CARRIED packet makes (R207, R16): DEPC is 0. -/
def carriedRecord (bs : List Byte) : List Byte :=
  (bs.drop 16).take 16 ++ zeroBytes 4 ++ (bs.drop 32).take 4 ++ (bs.drop 36).take 3 ++ zeroBytes 1
    ++ (bs.drop 40).take 8 ++ zeroBytes 28

/-- A graph's own GID lies outside the range of the access-control entry that let its packet in (R210). -/
def graphDenied (part : Nat) (act : Nat) (desc : Word) (s : State) : Bool :=
  match (s.part? part).bind (fun p => Table.find act p.act), replaySpan (hwWho part) .read desc.toNat 64 s with
  | some e, .ok (h, _) => let gid := leField h 8 4; decide (gid < actField e 64 32) || decide (actField e 96 32 < gid)
  | _, _ => false

/-- The landing server acts on a packet (R209): NAMED reads the record, CARRIED carries it, REPLAY replays the graph, one
whose id is not allowed being denied. An address that is not a multiple of 64 is a task-record fault of its first byte
(notes/assumptions/100.md); the record fault of a CARRIED packet has address 0 (notes/assumptions/127.md). -/
def servePacket (part queue : Nat) (k : Packet) (s : State) : State :=
  let kind := leField k.bytes 0 1
  let addr := BitVec.ofNat 64 (leField k.bytes 16 8)
  let fail (cause : Nat) (a : Word) (fval value : Nat) (s : State) : State := failPacket part queue k.sender cause a fval value s
  let spawn (a : Word) (rec_ : List Byte) (s : State) : State :=
    match readRecord (s.granted part) part none a rec_ with
    | .error o => fail 8 a o 0 s
    | .ok (t, depc) => spawnTask t depc (.packet queue) s
  if kind = 1 then
    if addr.toNat % 64 ≠ 0 then fail 8 addr 0 0 s
    else match replaySpan (hwWho part) .read addr.toNat 64 s with
      | .error (f, a) => fail f.cause (BitVec.ofNat 64 a) 0 f.tv (f.settle s)
      | .ok (bs, s) => spawn addr bs s
  else if kind = 2 then spawn 0 (carriedRecord k.bytes) s
  else
    if addr.toNat % 64 ≠ 0 then fail 8 addr 0 0 s
    else if graphDenied part k.act addr s then
      let l := ((s.part? part).map fun p => p.landing.getD queue {}).getD {}
      fail 0x0D (l.base + BitVec.ofNat 64 (64 * k.slot)) 0 (leField k.bytes 8 2) s
    else match replayPlan (hwWho part) none addr s with
      | .error .busy => popPacket part queue s
      | .error (.denied r o) => fail 8 r (o % 256) 0 s
      | .error (.fault f a) => fail f.cause (BitVec.ofNat 64 a) 0 f.tv (f.settle s)
      | .ok (p, s) => startReplay part addr p (.packet queue) s

/-- LANDING_SERVER (R209): the packet at the head of queue b of partition a. -/
def execLandingServer (s : State) : Outcome :=
  match s.part? s.arg.a with
  | none => .next s
  | some p =>
    match (p.landing.getD s.arg.b {}).packets with
    | k :: _ =>
      if k.started || p.halt ≠ .running then .next s
      else .next (servePacket s.arg.a s.arg.b k (beginPacket s.arg.a s.arg.b s))
    | [] => .next s

/-! ### The host's queue pages (20 R376, R377) -/

/-- HOST_PACKET_WRITE (R376): bytes written at offset a of the landing window. One aligned 64-byte write of a page's first
64 bytes presents a packet; any other write is discarded and the page's code becomes 2. -/
def execHostPacketWrite (s : State) : Outcome :=
  let page := s.arg.a / 128 % 128
  let part := page / 16
  let queue := page % 16
  let bs := s.arg.bytes
  match s.part? part with
  | none => .next s
  | some p =>
    let set (code : Nat) (accepted : Bool) (s : State) : State :=
      s.onPart part fun p =>
        let l := p.landing.getD queue {}
        { p with landing := p.landing.set queue { l with
          code := BitVec.ofNat 2 code
          seq := if bs.length = 64 then BitVec.ofNat 16 (leField bs 2 2) else l.seq
          nacc := if accepted then l.nacc + 1 else l.nacc } }
    if s.arg.a % 128 = 0 && bs.length = 64 then
      let (c, s) := landPacket part queue 0x3FF 0 bs outsideSender s
      .next (set c (c = 0) s)
    else .next (s.setPart part { p with landing := p.landing.set queue { p.landing.getD queue {} with code := 2 } })

/-- The status word of a queue page (R377). -/
def statusWord (s : State) (page : Nat) : Nat :=
  match s.part? (page / 16) with
  | none => 2
  | some p =>
    let l := p.landing.getD (page % 16) {}
    l.code.toNat + l.seq.toNat * 2 ^ 16 + l.nacc.toNat * 2 ^ 32

/-- The mailbox status word (R381): where boot stopped, and why; 0 otherwise. -/
def mailStatus (s : State) : Nat := if s.booted = 0 || s.booted = 5 then 0 else min s.booted 5 + 256 * (s.bootReason % 256)

/-- A byte of the management window (R376, R379): the doorbell, the status word and the rings; the rest reads 0. -/
def mailByte (s : State) (off : Nat) : Byte :=
  if off < 8 then (leBytes 8 s.mail.doorbell).getD off 0
  else if off < 16 then (leBytes 8 (mailStatus s)).getD (off - 8) 0
  else if 0x1000 ≤ off && off < 0x2000 then s.mail.commands.read (off - 0x1000)
  else if 0x2000 ≤ off && off < 0x3000 then s.mail.responses.read (off - 0x2000)
  else 0

/-- HOST_STATUS_READ (R377, R379, R381): the status word of landing page a, every earlier write being decided already; or, with
c not 0, c bytes at offset b of the management window. -/
def execHostStatusRead (s : State) : Outcome :=
  .next { s with response := { bytes :=
    if s.arg.c = 0 then leBytes 8 (statusWord s (s.arg.a % 128)) else (List.range (s.arg.c % 65537)).map fun i => mailByte s (s.arg.b + i) } }

end Sys2Proof.Machine
end

