-- ==== Sys2Proof/Machine/Memory.lean ====
section
/-!
DEFINITION. Loads and stores, scalar and vector, line operations, fences, atomics and reductions, and the steps that
finish them (09 R231-R240, 11 R249-R266).
-/
namespace Sys2Proof.Machine

open Sys2Proof

/-! ### Scalar loads and stores (09 R231, R232) -/

/-- The address of a scalar access: base plus a multiple of the width. -/
def scalarAddr (s : State) (a : BitVec 4) (off : Int) (width : Nat) : Word := s.getS a + BitVec.ofInt 64 (off * width)

/-- The places of a scalar access: the deck's with DK, else the address's; with the address and the state. -/
def scalarPlace (k : Access) (a : BitVec 4) (dk : Bool) (off : Int) (width fval : Nat) (s : State) :
    Checked (Word × List Loc × State) :=
  if dk then do
    let o := off * width
    let ls ← deckPlace s (a.setWidth 3) o width (k = .read) (s.fieldOf 6)
    let va := match ls with
      | .ls _ x :: _ => cbAddr x
      | _ => 0
    .ok (va, ls, s)
  else do
    let va := scalarAddr s a off width
    let (ls, s) ← spanPlace k va width width 3 fval s
    .ok (va, ls, s)

/-- A scalar load of a length: its value is read as it returns through the load path (R230); `acq`: the scope of an
acquire. -/
def scalarLoad (len : Nat) (d a : BitVec 4) (dk sx : Bool) (off : Int) (width fval : Nat) (acq : Option Nat) (s : State) :
    Outcome :=
  match scalarPlace .read a dk off width fval s with
  | .error t => .next (takeTrap t s)
  | .ok (va, ls, s) => dataChecked va ls s fun s =>
    .next (advance len (s.pushAcquire acq (.s d) (.reading (.scalar sx width) [⟨0, va, ls⟩] [])))

/-- The issuer of a store as log entries name it, with the address. -/
def storeIssuer (s : State) (va : Word) : LogEntry := { s.th.entry 0 with addr := va }

/-- A whole value of some bytes stored at places. -/
def wholePart (ls : List Loc) (value : Nat) : StorePart := { locs := ls, value := value, mask := 2 ^ (8 * ls.length) - 1 }

/-- A scalar store of a length completes at issue (09 R230); `rel`: the scope of a release. -/
def scalarStore (len : Nat) (d a : BitVec 4) (dk : Bool) (off : Int) (width fval : Nat) (rel : Option Nat) (s : State) :
    Outcome :=
  match scalarPlace .write a dk off width fval s with
  | .error t => .next (takeTrap t s)
  | .ok (va, ls, s) => .next (advance len (queueStore rel [wholePart ls (s.getS d).toNat] none (storeIssuer s va) s))

/-- LD (R231). -/
def execLd (d a : BitVec 4) (w : BitVec 2) (k x : BitVec 1) (i : BitVec 10) (s : State) : Outcome :=
  scalarLoad 4 d a (k = 1) (x = 1) i.toInt (2 ^ w.toNat) a.toNat none s

/-- ST (R231). -/
def execSt (d a : BitVec 4) (w : BitVec 2) (k : BitVec 1) (i : BitVec 10) (s : State) : Outcome :=
  scalarStore 4 d a (k = 1) i.toInt (2 ^ w.toNat) a.toNat none s

/-- LDACQ (R232): an acquire at its scope. -/
def execLdacq (d a : BitVec 4) (w : BitVec 2) (k x : BitVec 1) (c : BitVec 3) (i : BitVec 7) (s : State) : Outcome :=
  scalarLoad 4 d a (k = 1) (x = 1) i.toInt (2 ^ w.toNat) a.toNat (some c.toNat) s

/-- STREL (R232): a release at its scope; it is visible to nobody before what goes before it is performed there. -/
def execStrel (d a : BitVec 4) (w : BitVec 2) (k : BitVec 1) (c : BitVec 3) (i : BitVec 7) (s : State) : Outcome :=
  scalarStore 4 d a (k = 1) i.toInt (2 ^ w.toNat) a.toNat (some c.toNat) s

/-- LDD8 (04 R84): a doubleword at s14 plus eight times an unsigned offset. -/
def execLdd8 (x i : BitVec 4) (s : State) : Outcome := scalarLoad 2 x 14 false false i.toNat 8 14 none s

/-- STD8 (04 R84). -/
def execStd8 (x i : BitVec 4) (s : State) : Outcome := scalarStore 2 x 14 false i.toNat 8 14 none s

/-! ### Vector loads and stores (09 R233-R237) -/

/-- The places of a lane's four bytes, checked in the order of R230; alignment and translation name their own fields, and
the ranges of scratchpad the base register. -/
def lanePlace (k : Access) (va : Word) (base : Nat) (alignField transField : Nat × Nat) (s : State) :
    Checked (List Loc × State) :=
  if va.toNat % 4 ≠ 0 then .error { cause := 2, fidx := alignField.1, fval := alignField.2, a := va }
  else match spanPlace k va 4 1 transField.1 transField.2 s with
    | .error t => .error (if t.cause = 0x13 then { t with fval := base } else t)
    | .ok r => .ok r

/-- Every enabled lane's places, or the trap of the lowest that fails (R234). -/
def lanePlaces (k : Access) (addr : Nat → Word) (base : Nat) (alignField transField : Nat × Nat) :
    List Nat → State → Checked (List (Nat × List Loc) × State)
  | [], s => .ok ([], s)
  | i :: is, s => do
    let (ls, s) ← lanePlace k (addr i) base alignField transField s
    let (rest, s) ← lanePlaces k addr base alignField transField is s
    .ok ((i, ls) :: rest, s)

/-- The data-error check of lanes, lowest first. -/
def checkLanes (addr : Nat → Word) : List (Nat × List Loc) → State → Checked State
  | [], s => .ok s
  | (i, ls) :: r, s => do
    let s ← checkData (addr i) ls s
    checkLanes addr r s

/-- The mask of given lanes. -/
def lanesMask (is : List Nat) : KWord := is.foldl (fun m i => m ||| (1 <<< i)) 0

/-- The lanes' values go to a vector register through the load path. -/
def loadLanes (d : BitVec 4) (addr : Nat → Word) (ps : List (Nat × List Loc)) (s : State) : State :=
  if ps.isEmpty then s
  else s.pushLoad (.v d (elemMask 32 (lanesMask (ps.map (·.1))))) (.reading .lanes (ps.map fun p => ⟨p.1, addr p.1, p.2⟩) [])

/-- A load of all enabled lanes or none (R234). -/
def vectorLoad (d : BitVec 4) (addr : Nat → Word) (base : BitVec 4) (alignField : Nat × Nat) (k : KWord) (s : State) : Outcome :=
  let check : Checked State := do
    let (ps, s) ← lanePlaces .read addr base.toNat alignField (3, base.toNat) (lanesOf k) s
    let s ← checkLanes addr ps s
    .ok (advance 4 (loadLanes d addr ps s))
  settle s check

/-- The partial a vector store carries (R237): the record that a scale register names, and the values it delivers. -/
def storePartial (s : State) (n : BitVec 3) (stat : BitVec 1) (xs : List Num) : Option (Word × Partial × LogEntry) :=
  if stat = 1 && !xs.isEmpty then
    some (BitVec.ofNat 64 ((s.th.getSc n).extractLsb' 8 16).toNat, Partial.ofNums xs, s.th.entry 0x1F)
  else none

/-- Lanes of a vector register are stored: a piece for each, the lower before the higher where they meet. -/
def storeLanes (d : BitVec 4) (n : BitVec 3) (stat : BitVec 1) (va : Word) (ps : List (Nat × List Loc)) (s : State) : State :=
  let v := s.getV d
  let part := storePartial s n stat (ps.map fun p => decodeFloat .f32 (lane v p.1).toNat)
  queueStore none (ps.map fun p => wholePart p.2 (lane v p.1).toNat) part (storeIssuer s va) s

/-- A store of all enabled lanes or none (R234). -/
def vectorStore (d : BitVec 4) (n : BitVec 3) (stat : BitVec 1) (addr : Nat → Word) (base : BitVec 4) (alignField : Nat × Nat)
    (k : KWord) (s : State) : Outcome :=
  let check : Checked State := do
    let (ps, s) ← lanePlaces .write addr base.toNat alignField (3, base.toNat) (lanesOf k) s
    .ok (advance 4 (storeLanes d n stat (addr ((lanesOf k).headD 0)) ps s))
  settle s check

/-- Unit-stride lane addresses. -/
def unitAddr (base : Word) (i : Nat) : Word := base + BitVec.ofNat 64 (4 * i)
/-- Strided lane addresses. -/
def strideAddr (base stride : Word) (i : Nat) : Word := base + BitVec.ofNat 64 i * stride
/-- Indexed lane addresses. -/
def indexAddr (base : Word) (idx : VWord) (i : Nat) : Word := base + (lane idx i).signExtend 64

/-- The field that a misaligned strided lane names: the base, or the stride when the base is aligned (R234). -/
def strideField (s : State) (a b : BitVec 4) : Nat × Nat :=
  if (s.getS a).toNat % 4 ≠ 0 then (3, a.toNat) else (4, b.toNat)

/-- VLD (R233). -/
def execVld (d a : BitVec 4) (k : BitVec 3) (s : State) : Outcome :=
  vectorLoad d (unitAddr (s.getS a)) a (3, a.toNat) (s.getK k) s
/-- VLDS (R233). -/
def execVlds (d a b : BitVec 4) (k : BitVec 3) (s : State) : Outcome :=
  vectorLoad d (strideAddr (s.getS a) (s.getS b)) a (strideField s a b) (s.getK k) s
/-- VST (R233). -/
def execVst (d a : BitVec 4) (k n : BitVec 3) (t : BitVec 1) (s : State) : Outcome :=
  vectorStore d n t (unitAddr (s.getS a)) a (3, a.toNat) (s.getK k) s
/-- VSTS (R233). -/
def execVsts (d a b : BitVec 4) (k n : BitVec 3) (t : BitVec 1) (s : State) : Outcome :=
  vectorStore d n t (strideAddr (s.getS a) (s.getS b)) a (strideField s a b) (s.getK k) s

/-- The lanes a gather or scatter still has to do: from low(5, ERX) up; none where ERX is 32 or more (R235). -/
def lanesFrom (erx : BitVec 32) (k : KWord) : List Nat :=
  if 32 ≤ erx.toNat then [] else (lanesOf k).filter fun i => erx.toNat ≤ i

/-- The lanes up to the first whose check fails, with that lane and its trap (R235). -/
def progress (check : Nat → State → Checked (List Loc × State)) :
    List Nat → State → List (Nat × List Loc) × Option (Nat × Trap) × State
  | [], s => ([], none, s)
  | i :: is, s =>
    match check i s with
    | .error t => ([], some (i, t), s)
    | .ok (ls, s) => let (ps, stop, s) := progress check is s; ((i, ls) :: ps, stop, s)

/-- ERX after a lane-wise instruction, and its end: the trap of the failing lane, or past the instruction. -/
def lanesEnd (stop : Option (Nat × Trap)) (s : State) : State :=
  match stop with
  | some (i, t) => takeTrap t (s.onTh fun th => { th with erx := BitVec.ofNat 32 i })
  | none => advance 4 (s.onTh fun th => { th with erx := 0 })

/-- A lane of a gather: its place, and no data error there. -/
def gatherLane (addr : Nat → Word) (a b : BitVec 4) (i : Nat) (s : State) : Checked (List Loc × State) := do
  let (ls, s) ← lanePlace .read (addr i) a.toNat (4, b.toNat) (4, b.toNat) s
  let s ← checkData (addr i) ls s
  .ok (ls, s)

/-- VLDX (R235). -/
def execVldx (d a b : BitVec 4) (k : BitVec 3) (s : State) : Outcome :=
  let addr := indexAddr (s.getS a) (s.getV b)
  let (ps, stop, s) := progress (gatherLane addr a b) (lanesFrom s.th.erx (s.getK k)) s
  .next (lanesEnd stop (loadLanes d addr ps s))

/-- VSTX (R235). -/
def execVstx (d a b : BitVec 4) (k n : BitVec 3) (t : BitVec 1) (s : State) : Outcome :=
  let addr := indexAddr (s.getS a) (s.getV b)
  let check (i : Nat) : State → Checked (List Loc × State) := lanePlace .write (addr i) a.toNat (4, b.toNat) (4, b.toNat)
  let (ps, stop, s) := progress check (lanesFrom s.th.erx (s.getK k)) s
  .next (lanesEnd stop (storeLanes d n t (addr ((ps.head?.map (·.1)).getD 0)) ps s))

/-- The eight 3-byte groups of a block of 24 bytes as the pieces of a load (R230, R236). -/
def groupParts (va : Word) (ls : List Loc) : List LoadPart :=
  (List.range 8).map fun g => ⟨g, va + BitVec.ofNat 64 (3 * g), (ls.drop (3 * g)).take 3⟩

/-- VLD6 (R236): the whole block, or nothing. -/
def execVld6 (d a : BitVec 4) (k : BitVec 3) (s : State) : Outcome :=
  let m := s.getK k
  let va := s.getS a
  if m = 0 then .next (advance 4 s)
  else match spanPlace .read va 24 8 3 a.toNat s with
    | .error t => .next (takeTrap t s)
    | .ok (ls, s) => dataChecked va ls s fun s =>
      .next (advance 4 (s.pushLoad (.v d (elemMask 8 m)) (.reading .fp6 (groupParts va ls) [])))

/-- The groups of four FP6 elements that hold an enabled one. -/
def groups6 (m : KWord) : List Nat := (List.range 8).filter fun g => (m.toNat >>> (4 * g)) % 16 ≠ 0

/-- The 24-bit value of group g of a register's elements, and the mask of its enabled fields. -/
def group6Bits (v : VWord) (m : KWord) (g : Nat) : Nat × Nat :=
  let es := (List.range 4).map fun j => VElem 8 v (4 * g + j) % 64
  let ms := (List.range 4).map fun j => if m.getLsbD (4 * g + j) then 63 else 0
  (packElems 6 es, packElems 6 ms)

/-- The bytes of a group, by offset, that hold a bit of an enabled element: no other is accessed (R233, R236). -/
def groupBytes (mask : Nat) : List Nat := (List.range 3).filter fun i => mask / 256 ^ i % 256 ≠ 0

/-- The places of a group's bytes from the first accessed one to the last, or the trap of the first failing byte. -/
def groupPlace (va : Word) (fval g mask : Nat) (s : State) : Checked (Nat × List Loc × State) := do
  let is := groupBytes mask
  let first := is.headD 0
  let (ls, s) ← spanPlace .write (va + BitVec.ofNat 64 (3 * g + first)) ((is.getLastD 0) + 1 - first) 1 3 fval s
  .ok (first, ls, s)

/-- The pieces of the groups, or the trap of the first failing byte. -/
def groupStores6 (va : Word) (fval : Nat) (v : VWord) (m : KWord) : List Nat → State → Checked (List StorePart × State)
  | [], s => .ok ([], s)
  | g :: gs, s => do
    let (x, e) := group6Bits v m g
    let (first, ls, s) ← groupPlace va fval g e s
    let (rest, s) ← groupStores6 va fval v m gs s
    .ok (⟨ls, x / 256 ^ first, e / 256 ^ first⟩ :: rest, s)

/-- VST6 (R236): a group with every element enabled stores its three bytes, another merges the enabled ones at its home. -/
def execVst6 (d a : BitVec 4) (k n : BitVec 3) (t : BitVec 1) (s : State) : Outcome :=
  let m := s.getK k
  let va := s.getS a
  let v := s.getV d
  if m = 0 then .next (advance 4 s)
  else if va.toNat % 8 ≠ 0 then .next (takeTrap { cause := 2, fidx := 3, fval := a.toNat, a := va } s)
  else match groupStores6 va a.toNat v m (groups6 m) s with
    | .error t => .next (takeTrap t s)
    | .ok (ps, s) =>
      let part := storePartial s n t ((lanesOf m).map fun j => decodeNum .fp6 (VElem 8 v j % 64))
      .next (advance 4 (queueStore none ps part (storeIssuer s va) s))

/-! ### Line operations (09 R238-R240) -/

/-- A line operation joins the queue of the focus thread: it is performed at its place among the thread's accesses to the
line (R239, R240). In the local-store window and the scratchpad it does nothing. -/
def lineOp (k : Access) (discard : Bool) (a : BitVec 4) (s : State) : Outcome :=
  match spanPlace k (s.getS a) 1 1 3 a.toNat s with
  | .error t => .next (takeTrap t s)
  | .ok (l :: _, s) => .next (advance 4 (match l with
      | .pa .. => queueEntry (fun no => .line no discard l (issueClocks false l.line s)) s
      | _ => s))
  | .ok ([], s) => .next (advance 4 s)

/-- DISCARD (R239). -/
def execDiscard (a : BitVec 4) (s : State) : Outcome := lineOp .write true a s

/-- PREF (R240): the L1 takes the line, or nothing happens, as where a store to the line is on its way; it never faults. -/
def execPref (a : BitVec 4) (l : BitVec 1) (s : State) : Outcome :=
  .next (advance 4 (match resolve s.who .read (s.getS a).toNat s with
    | .ok (.pa x mt, _) =>
      if l = 1 || (raisedSeen s s.th).any fun r => shareLine r.2.2.places [.pa x mt] then s
      else touchL1 s.th.core x mt (fillReplica (standOfCore s.th.core) x mt s)
    | _ => s))

/-- WBACK (R240). -/
def execWback (a : BitVec 4) (s : State) : Outcome := lineOp .read false a s

/-! ### Fences (11 R253-R255) -/

/-- What a fence at a scope waits for, then the reduction log (R253 steps 1 to 4): what may be performed is; where something
must wait for an array command, or for another thread's advance, the thread is held. -/
def fenced (scope : Nat) (s : State) (go : State → Outcome) : Outcome :=
  let s := performAt scope s.th.id s
  match openWork scope s, reductionTrap s with
  | n :: ns, _ => .next (holdForWork (n :: ns) s)
  | [], some (t, s) => .next (takeTrap t s)
  | [], none => go s

/-- FENCE (R253): a deferred data error comes first (18 R355). -/
def execFence (c : BitVec 3) (s : State) : Outcome :=
  deferredError s fun s => fenced c.toNat s fun s => .next (advance 4 (acquireL1 c.toNat s.th.core s))

/-- FENCEL (R254): a mark behind what the thread has outstanding, in place of any mark before it; where nothing is, there is
nothing for a FENCEH to drain. -/
def execFencel (s : State) : Outcome :=
  let bare := s.onTh fun t => { t with sq := t.sq.filter fun e => !e.isMark }
  .next (advance 4 (if (openWork 3 s).isEmpty then bare else queueEntry (fun no => .mark no) bare))

/-- The groves that a FENCEH names: none where a field is not 0 or nothing of it is granted (R255). -/
def fencehGroves (s : State) (scope : Nat) (x : Word) : Option (List Nat) :=
  let granted := match s.part? s.myPart with
    | some p => p.grant.groves
    | none => []
  if x.toNat % 16 ≠ 0 ∨ 2 ^ 11 ≤ x.toNat then none
  else
    let gs := if scope = 1 then granted.filter fun g => g = x.toNat / 16 else granted.filter fun g => standOfGrove g = x.toNat / 512
    if gs.isEmpty then none else some gs

/-- FENCEH (R255): after its own fence, and once the target's stand has applied what the thread wrote, the thread is held
until every core of the target has drained. -/
def execFenceh (a : BitVec 4) (c : BitVec 3) (s : State) : Outcome :=
  let x := s.getS a
  match fencehGroves s c.toNat x with
  | none => .next (takeTrap { cause := 4, fidx := 3, fval := a.toNat, a := x } s)
  | some gs =>
    fenced 3 s fun s =>
      let s := gs.foldl (fun s g => applyUpTo (standOfGrove g) (s.clockOf (standOfCore s.th.core)) s) s
      .next (holdFor (.fenceh (gs.flatMap coresOfGrove)) s)

/-- The number of a queue's latest FENCEL mark, 0 where it has none. -/
def latestMark (sq : List StoreEntry) : Nat := sq.foldl (fun m e => match e with
  | .mark no => no
  | _ => m) 0

/-- What a core's slots did before their latest FENCEL marks is performed, as far as it may be (R255 step 2). -/
def drainMarked (core : Nat) (s : State) : State :=
  s.all.foldl (fun s t => if t.core = core && latestMark t.sq ≠ 0 then performBefore 3 t.id (latestMark t.sq) s else s) s

/-- All that a core's slots did before their latest FENCEL marks is performed at .pkg. -/
def markedDone (core : Nat) (s : State) : Bool :=
  s.all.all fun t => t.core ≠ core || (openAccesses (fun _ => false) 3 t (latestMark t.sq) s).isEmpty

/-- A core's marks go, and its L1 is invalidated. -/
def dropMarks (core : Nat) (s : State) : State :=
  let f (t : Thread) : Thread := if t.core = core then { t with sq := t.sq.filter fun e => !e.isMark } else t
  clearL1 true core { s with th := f s.th, threads := s.threads.map f }

/-- FENCEH_TARGET_DRAIN (R255): core b of the target of thread a's FENCEH; once the last is done the hold ends, where the
thread's own core's picker lets it go on (02 R29). -/
def execFencehTargetDrain (s : State) : Outcome :=
  match s.thread? s.arg.a with
  | some t =>
    match t.status with
    | .holding (.fenceh []) =>
      .next (if pickedWait s t .fencehTargetDrain then finishWait (acquireL1 3 t.core (s.focus t.id)) else s)
    | .holding (.fenceh cores) =>
      let s' := drainMarked s.arg.b s
      if cores.contains s.arg.b && markedDone s.arg.b s' then
        .next ((dropMarks s.arg.b s').onThread t.id fun t => { t with status := .holding (.fenceh (cores.filter (· ≠ s.arg.b))) })
      else .next s
    | _ => .next s
  | none => .next s

/-! ### Atomics and reductions (11 R260-R263) -/

/-- An atomic of the focus thread joins its queue. -/
def queueAtom (op : Nat → AtomOp) (s : State) : State :=
  { s.onTh fun t => { t with atq := t.atq ++ [op s.fresh] } with fresh := s.fresh + 1 }

/-- An atomic's operation record. -/
def atomOp (kind op width : Nat) (va : Word) (ls : List Loc) (operand expected : Word) (load : Option Nat) (s : State)
    (no : Nat) : AtomOp :=
  { no := no, kind := kind, op := op, width := width, va := va, locs := ls, operand := operand, expected := expected
    load := load, word := s.th.ir.word, lane := 0, isVector := false, priv := s.th.priv.toNat, clocks := issueClocks false ls s }

/-- A returning atomic (R260, R261): its faults are precise. -/
def returningAtom (k : Access) (kind op width : Nat) (d a b : BitVec 4) (s : State) : Outcome :=
  let va := s.getS a
  match spanPlace k va width width 3 a.toNat s with
  | .error t => .next (takeTrap t s)
  | .ok (ls, s) => dataChecked va ls s fun s =>
    let x := atomOp kind op width va ls (s.getS b) (s.getS d) (some s.fresh) s
    .next (advance 4 (queueAtom x (s.pushLoad (.s d) .waiting)))

/-- The width of FN[29]. -/
def atomWidth (n : BitVec 1) : Nat := if n = 1 then 8 else 4

/-- AMO (R261). -/
def execAmo (d a b o : BitVec 4) (n : BitVec 1) (s : State) : Outcome :=
  returningAtom .readWrite 0 o.toNat (atomWidth n) d a b s
/-- CAS (R261, R262). -/
def execCas (d a b : BitVec 4) (n : BitVec 1) (s : State) : Outcome := returningAtom .cas 1 0 (atomWidth n) d a b s
/-- FAMO (R261). -/
def execFamo (d a b o : BitVec 4) (s : State) : Outcome := returningAtom .readWrite 2 o.toNat 4 d a b s

/-- The places that a reduction has at its issue, none where its home will refuse it. -/
def reductionPlaces (s : State) (va : Word) (width : Nat) : List Loc :=
  match resolve s.who .hardware va.toNat s with
  | .ok (l, _) => (List.range width).map l.plus
  | .error _ => []

/-- A reduction (R260): alignment is precise, the rest is met at its home. -/
def reduction (kind op width : Nat) (a b : BitVec 4) (s : State) : Outcome :=
  let va := s.getS a
  if va.toNat % width ≠ 0 then .next (takeTrap { cause := 2, fidx := 3, fval := a.toNat, a := va } s)
  else .next (advance 4 (queueAtom (atomOp kind op width va (reductionPlaces s va width) (s.getS b) 0 none s) s))

/-- RED (R261). -/
def execRed (a b o : BitVec 4) (n : BitVec 1) (s : State) : Outcome := reduction 3 o.toNat (atomWidth n) a b s
/-- FRED (R261). -/
def execFred (a b o : BitVec 4) (s : State) : Outcome := reduction 4 o.toNat 4 a b s

/-- One lane of a VRED. -/
def vredLane (o : Nat) (addr : Nat → Word) (d : BitVec 4) (s : State) (i : Nat) : State :=
  let op := atomOp (if o = 0 then 3 else 4) (if o < 4 then 0 else o) 4 (addr i) (reductionPlaces s (addr i) 4)
    ((lane (s.getV d) i).setWidth 64) 0 none s
  queueAtom (fun no => { op no with lane := i, isVector := true }) s

/-- The lanes that a VRED still has to do: from low(5, ERX) up (R263). -/
def vredLanes (erx : BitVec 32) (k : KWord) : List Nat := (lanesOf k).filter fun i => erx.toNat % 32 ≤ i

/-- VRED (R263): lanes through ERX; a misaligned one traps. -/
def execVred (d a b : BitVec 4) (k : BitVec 3) (o : BitVec 4) (s : State) : Outcome :=
  let addr := indexAddr (s.getS a) (s.getV b)
  let check (i : Nat) (s : State) : Checked (List Loc × State) :=
    if (addr i).toNat % 4 ≠ 0 then .error { cause := 2, fidx := 4, fval := b.toNat, a := addr i } else .ok ([], s)
  let (ps, stop, s) := progress check (vredLanes s.th.erx (s.getK k)) s
  .next (lanesEnd stop (ps.foldl (fun s p => vredLane o.toNat addr d s p.1) s))

/-! ### The steps of memory -/

/-- A load of a thread by number. -/
def loadOf (t : Thread) (id : Nat) : Option Load := t.loads.find? fun l => l.id = id

/-- The trap that a load-path result brings: a data error (09 R229, 20 R386), or the fault of an instruction that acted late. -/
def LoadVal.trap? : LoadVal → Option Trap
  | .error addr info => some { cause := 0x12, a := addr, v := BitVec.ofNat 64 info }
  | .fault cause fidx fval addr value => some { cause := cause, fidx := fidx, fval := fval, a := addr, v := value }
  | _ => none

/-- The loading instruction traps as its result returns: it does not count as issued after all (18 R359), and a wait of its
thread is over. -/
def loadTrap (l : Load) (trap : Trap) (s : State) : State :=
  let back := s.myCore.wdog.getLsbD 0 && decide (s.th.reloaded ≤ l.id)
  let s := s.onTh fun t => { t with
    status := .running, pc := l.pc, modLatch := none, ydl := if back then t.ydl + 1 else t.ydl
    ir := { t.ir with word := l.word, hasMod := false } }
  (takeTrap trap s).onTh fun t => { t with uncounted := false }

/-- The value of a load in the thread's spin trace (02 R37); one that changes its register rules a park out for now. -/
def spinValue (l : Load) (v : VWord) (t : Thread) : Thread :=
  let watched := t.spin.any fun p => match p.2 with
    | some x => x.value.isNone && x.id = l.id
    | none => false
  let x : Word := v.setWidth 64
  let same := match l.dest with
    | .s d => d = 0 || t.getS d = x
    | _ => false
  if !watched then t
  else if !same then { t with spin := [] }
  else { t with spin := t.spin.map fun p => (p.1, p.2.map fun y => if y.id = l.id && y.value.isNone then { y with id := 0, value := some x } else y) }

/-- A load-path result returns (04 R93, 09 R229): it is written to its destination, or its instruction traps, of a thread that
has no slot once it has one again (18 R355); of one that a fault is ending the trap is dropped. -/
def returnLoad (t : Thread) (l : Load) (s : State) : State :=
  let drop (t : Thread) : Thread := { t with loads := t.loads.filter fun x => x.id ≠ l.id }
  match l.val, l.val.trap? with
  | .data v f, _ => s.onThread t.id fun t => l.dest.write v f (drop (spinValue l v t))
  | _, some trap =>
    if t.dying.isSome then s.onThread t.id drop
    else if t.bound then loadTrap l trap ((s.onThread t.id drop).focus t.id) else s
  | _, none => s

/-- A load of a thread is read where its order lets it be: all that is left (piece 0), or one piece (R230, 11 R249). -/
def performLoad (t : Thread) (l : Load) (piece : Nat) (s : State) : State :=
  match l.val with
  | .reading _ todo _ =>
    match piece with
    | 0 => if mayPerform s t l.id l.places then readLoad t.id l.id s else s
    | k + 1 => match todo[k]? with
      | some p => if mayPerform s t l.id p.locs then readPart t.id l.id p s else s
      | none => s
  | _ => s

/-- STORE_AT_HOME (11 R243, R244): entry b of thread a's store queue; c is 0 for the whole of it at its home, 1 or 2 for a
store short of its home, and 3 and above for one piece. -/
def execStoreAtHome (s : State) : Outcome :=
  match s.thread? s.arg.a with
  | none => .next s
  | some t =>
    match t.sq[s.arg.b]?, s.arg.c with
    | some e, 0 => .next (if entryReady s t s.arg.b then performEntry 3 t s.arg.b e s else s)
    | some (.store q), 1 => .next (if raiseReady s t 1 q then raiseStore t s.arg.b 1 q s else s)
    | some (.store q), 2 => .next (if raiseReady s t 2 q then raiseStore t s.arg.b 2 q s else s)
    | some (.store q), j + 3 => .next (if pieceReady s t q j then storePiece t s.arg.b j q s else s)
    | _, _ => .next s

/-- An atomic or reduction may act: nothing earlier touches its places, nor an acquire holds it (11 R249). -/
def atomReady (s : State) (t : Thread) (o : AtomOp) : Bool := mayPerform s t o.no o.locs && !raisedOn s t o.locs

/-- ATOMIC_AT_HOME (11 R264): atomic or reduction b of thread a's queue. -/
def execAtomicAtHome (s : State) : Outcome :=
  match s.thread? s.arg.a with
  | some t =>
    match t.atq[s.arg.b]? with
    | some o => .next (if atomReady s t o then performAtom t o (s.onThread t.id fun t => { t with atq := t.atq.eraseIdx s.arg.b }) else s)
    | none => .next s
  | none => .next s

/-- REPLICA_UPDATE_APPLY (11 R246): the update of message a, once the stand's applied clock allows. -/
def execReplicaUpdateApply (s : State) : Outcome :=
  match arrivedUpdate s with
  | some (seq, st, home, stamp, bytes) =>
    if updateReady s st home stamp then
      .next (applyUpdate st home stamp bytes { s with msgs := s.msgs.filter fun e => e.seq ≠ seq })
    else .next s
  | none => .next s
where
  arrivedUpdate (s : State) : Option (Nat × Nat × Nat × List Nat × List (Nat × Byte)) :=
    match s.msgs.find? (fun e => e.seq = s.arg.a) with
    | some e => match e.body with
      | .update st h t b => some (e.seq, st, h, t, b)
      | _ => none
    | none => none

/-- L2WP_WRITE (R220): a write of b to the register of grove a, from the monitor, starts a change of WAYS. A write by CSRW is
one too, at its visibility (04 R94). -/
def execL2wpWrite (s : State) : Outcome := .next (writeL2wp s.arg.a (BitVec.ofNat 64 s.arg.b) s)

/-- WAYS_CHANGE_COMPLETE (R222): grove a. -/
def execWaysChangeComplete (s : State) : Outcome := .next (completeWays s.arg.a s)

/-- L2_WRITE_BACK (11 R252): line a is evicted or written back. -/
def execL2WriteBack (s : State) : Outcome := .next (writeBack s.arg.a s)

end Sys2Proof.Machine
end

