-- ==== Sys2Proof/Machine/Near.lean ====
section
/-!
DEFINITION. Commands to the near-memory engines: NWALK, NADD, NUPD and NFENCE (14 R296-R302, R310), and what walkers and
the reduction engine share: their accesses (R296, R297, 11 R257) and the purge of written regions (R257).
-/
namespace Sys2Proof.Machine

open Sys2Proof

/-! ### Issue (R300, R301) -/

/-- Commands that a stand's walker queue and its overflow ring hold (R298). -/
def walkerCapacity : Nat := 256 + 4096

/-- The completion word has a nonzero bit that must be 0 (R300). -/
def completionBad (w : Word) : Bool := (w &&& ~~~(0x1D3F : Word)) ≠ 0
/-- TAGV of a completion word. -/
def completionTagged (w : Word) : Bool := w.getLsbD 8
/-- TAG of a completion word. -/
def completionTag (w : Word) : Nat := (w.extractLsb' 0 6).toNat

/-- NWALK, NADD or NUPD: the completion word, the block's alignment, room in the queue. -/
def queueNear (kind : Nat) (a b gran : BitVec 4) (pri : BitVec 2) (s : State) : Outcome :=
  let va := s.getS a
  let w := s.getS b
  let stand := standOfCore s.th.core
  let bad : Trap := { cause := 0x0B, fidx := 4, fval := b.toNat, v := w }
  settle s do
    need (!completionBad w) bad
    let t ← if completionTagged w then (match claimTag (BitVec.ofNat 64 (completionTag w)) b.toNat s with
        | .ok t => .ok t
        | .error _ => .error bad) else .ok s
    need (va.toNat % 64 = 0) { cause := 2, fidx := 3, fval := a.toNat, a := va }
    if walkerCapacity ≤ (s.stand stand).walkq.length then .ok (waitFor (.walkerQueue stand) s)
    else
      let s := t
      let c : NearCmd := {
        id := s.fresh, kind := kind, block := va, completion := w, gran := gran.toNat, pri := pri.toNat, core := s.th.core
        slot := s.th.slot.toNat, tid := s.th.id, ttag := s.th.task.ttag, pc := s.th.instrPc, word := s.th.ir.word
        part := s.myPart, priv := s.th.priv.toNat, reg := (s.stand stand).regs }
      let s := registerIn stand s
      let x := s.stand stand
      let s := s.setStand stand { x with walkq := x.walkq ++ [c] }
      .ok (advance 4 (s.onTh fun t => { t with nearCount := t.nearCount + 1 }))

/-- NWALK (R301, R303). -/
def execNwalk (a b : BitVec 4) (pri : BitVec 2) (gran : BitVec 4) (s : State) : Outcome := queueNear 0 a b gran pri s
/-- NADD (R301, R305). -/
def execNadd (a b : BitVec 4) (pri : BitVec 2) (gran : BitVec 4) (s : State) : Outcome := queueNear 1 a b gran pri s
/-- NUPD (R301, R307). -/
def execNupd (a b : BitVec 4) (pri : BitVec 2) (gran : BitVec 4) (s : State) : Outcome := queueNear 2 a b gran pri s

/-! ### NFENCE (R310) -/

/-- The oldest error mark of the thread's commands: its trap, and the state without it. -/
def nearReport (s : State) : Option (Trap × State) :=
  match s.th.nearErrs with
  | [] => none
  | (a, b) :: r => some ({ cause := 0x0E, a := a, v := b }, s.onTh fun t => { t with nearErrs := r })

/-- NFENCE (R310): with no command outstanding it reports an error, or acquires the commands' writes. -/
def execNfence (s : State) : Outcome :=
  if s.th.nearCount ≠ 0 then .next (waitFor .nfence s)
  else match nearReport s with
    | some (t, s) => .next (takeTrap t s)
    | none => .next (advance 4 (acquireAt s.th.core s))

/-- The end of the focus thread's wait at NFENCE. -/
def nfenceDone (s : State) : State :=
  match nearReport s with
  | some (t, s) => finishIssue false (takeTrap t (pickFocus s.th.id s))
  | none => finishWait (acquireAt s.th.core s)

/-- NFENCE_COMPLETE (R310): the wait of thread a is over. -/
def execNfenceComplete (s : State) : Outcome :=
  match s.thread? s.arg.a with
  | some t =>
    match t.status with
    | .waiting .nfence _ => if pickedWait s t .nfenceComplete then .next (nfenceDone (s.focus t.id)) else .next s
    | _ => .next s
  | none => .next s

/-! ### Regions and accesses (R296, R297) -/

/-- A failed access of a near-memory engine: the reason, the faulting address and the state. -/
abbrev NearFault := Nat × Nat × State

/-- REASON of a refused access (R302): a data error in a page table (R315), translation, not package memory for a frame that is
no memory, else access. -/
def nearReason (f : Flt) : Nat := if f.cause = 0x12 then 7 else if f.cause = 3 then 5 else if f.tv = 4 then 2 else 6

/-- How far, from an address, one region that may be used reaches (R296). -/
def coveredTo (rs : List Region) (core : Option Nat) (write : Bool) (a : Nat) : Nat :=
  rs.foldl (fun m r =>
    if r.core == core && (r.write || !write) && decide (r.base ≤ a) && decide (a < r.base + r.len) then max m (r.base + r.len)
    else m) a

/-- An access lies inside a region, or the first byte that does not. -/
def insideRegions (rs : List Region) (core : Option Nat) (write : Bool) (a n : Nat) : Option Nat :=
  let e := coveredTo rs core write a
  if n = 0 ∨ a + n ≤ e then none else some e

/-- An access as the footprint and the memory it reaches allow it: the places of its bytes. An engine reaches the memory
of the package only, and a local store only through decks. `checked`: the access needs a declared region. -/
def nearPlaces (who : Who) (rs : Option (List Region)) (k : Access) (va n : Nat) (s : State) : Except NearFault (List Loc × State) :=
  let stores := k = .write || k = .readWrite
  if windowBase ≤ va ∧ va < 2 ^ 57 then .error (6, va, s)
  else
    match rs.bind fun rs => insideRegions rs none stores va n with
    | some a => .error (1, a, s)
    | none =>
      match resolveSpan who k (n / 2048 + 2) va n s with
      | .error (f, a) => .error (nearReason f, a, s)
      | .ok (sp, s) =>
        let ls := spanLocs sp
        let foreign (l : Loc) : Bool := match l with
          | .pa a _ => !s.ownPa a
          | _ => true
        match ls.findIdx? foreign with
        | some i => .error (2, va + i, s)
        | none => .ok (ls, s)

/-- The bytes at places from an address, or the data error. -/
def nearBytes (va : Nat) (ls : List Loc) (s : State) : Except NearFault (List Byte × State) :=
  let (bs, e, s) := engineBytes readDram (va + ·) ls s
  match e with
  | some (r, a) => .error (r, a, s)
  | none => .ok (bs, s)

/-- A read of an engine. -/
def nearRead (who : Who) (rs : Option (List Region)) (va n : Nat) (s : State) : Except NearFault (List Byte × State) := do
  let (ls, s) ← nearPlaces who rs .read va n s
  nearBytes va ls s

/-- A place as an engine writes it: straight to DRAM. -/
def Loc.direct : Loc → Loc
  | .pa a _ => .pa a 2
  | l => l

/-- Bytes an engine writes, performed at .sys (R295). -/
def nearStore (w : Writer) (ls : List Loc) (bs : List Byte) (s : State) : State :=
  storeLocs w (((ls.map Loc.direct).zip bs).map (storable s)) (settleRows ls s)

/-! ### The purge of written regions (11 R257) -/

/-- The pages that a table maps in a range of addresses: address, size and physical address of each. -/
def leavesIn (s : State) (lo hi : Nat) : Nat → Nat → Nat → List (Nat × Nat × Nat)
  | level, table, base =>
    let size := 2 ^ (12 + 9 * level)
    let first := (lo - base) / size
    let last := (hi - base + size - 1) / size
    (List.range (min 512 last - min 512 first)).flatMap fun i =>
      let idx := min 512 first + i
      let va := base + idx * size
      let e := s.homeNat (table + 8 * idx) 8
      if !(s.ownPa table && paIsDram table) || !natBit e 0 || pteMalformed e level then []
      else if natBit e 1 then [(va, size, leafPa e level va)]
      else match level with
        | 0 => []
        | l + 1 => leavesIn s lo hi l (fieldOf e 12 40 * 4096) va

/-- The lines of physical addresses that dirty data or a replica stand in. -/
def heldLines (a n : Nat) (s : State) : List Nat :=
  let hit (l : Nat) : Bool := decide (a / 64 ≤ l) && decide (64 * l < a + n)
  ((s.l2.map fun p => lineOf p.1).filter hit ++ s.stands.flatMap fun p => p.2.replicas.filter hit).eraseDups

/-- Every line of a written region of memory is written back, and its copies go. -/
def purgeRegion (part : Nat) (r : Region) (s : State) : State :=
  match r.core, r.write, s.part? part with
  | none, true, some p =>
    let hi := min (r.base + r.len) (2 ^ 57)
    (leavesIn s r.base hi 4 p.grant.ptroot 0).foldl (fun s (x : Nat × Nat × Nat) =>
      let (va, size, pa) := x
      let lo := max r.base va
      (heldLines (pa + (lo - va)) (min hi (va + size) - lo) s).foldl (fun s l => dropReplicas l (writeBack l s)) s) s
  | _, _, _ => s

/-- The purge of every written region of a command. -/
def purge (part : Nat) (rs : List Region) (s : State) : State := rs.foldl (fun s r => purgeRegion part r s) s

/-! ### FP32 arithmetic, rounded to nearest even (R303, R305, R307) -/

/-- The FP32 value nearest to an exact one, with the flags. -/
def rne32 (x : Num × Flags) : Nat × Flags :=
  let (w, f) := roundNum .f32 .rne 0 x.1
  (w, x.2 ||| f)

/-- a + b. -/
def rneAdd (a b : Nat) : Nat × Flags := rne32 ((decodeNum .f32 a).add false (decodeNum .f32 b))

/-- a × b. -/
def rneMul (a b : Nat) : Nat × Flags := rne32 ((decodeNum .f32 a).mul (decodeNum .f32 b))

/-- a ÷ b. -/
def rneDiv (a b : Nat) : Nat × Flags := rne32 ((decodeNum .f32 a).div (decodeNum .f32 b))

/-- The square root. -/
def rneSqrt (a : Nat) : Nat × Flags := rne32 (decodeNum .f32 a).sqrt

/-- The exact sum of exact values, with the flags of both. -/
def addExact (x y : Num × Flags) : Num × Flags :=
  let (z, f) := x.1.add false y.1
  (z, x.2 ||| y.2 ||| f)

/-- c + a × b, rounded once. -/
def rneFma (c a b : Nat) : Nat × Flags :=
  rne32 (addExact (decodeNum .f32 c, 0) ((decodeNum .f32 a).mul (decodeNum .f32 b)))

end Sys2Proof.Machine
end

