-- ==== Sys2Proof/Machine/Reduction.lean ====
section
/-!
DEFINITION. The base-die reduction engine: BRED and BPOLL, and the steps of a job (14 R311-R314, 03 R72). A step of the
engine is about stand a and job slot b.
-/
namespace Sys2Proof.Machine

open Sys2Proof

/-! ### Parameter blocks (R311) -/

/-- A field of the parameter block. -/
def BreJob.f (j : BreJob) (lo n : Nat) : Nat := leField j.bytes lo n
/-- OP: 0 FP32 sum, 1 BF16 sum, 2 FP32 maximum. -/
def BreJob.op (j : BreJob) : Nat := j.f 0 1
/-- N -/
def BreJob.inputs (j : BreJob) : Nat := j.f 1 1
/-- COUNT -/
def BreJob.count (j : BreJob) : Nat := j.f 8 8
/-- OUT -/
def BreJob.out (j : BreJob) : Nat := j.f 16 8
/-- FLAGA -/
def BreJob.flagAddr (j : BreJob) : Nat := j.f 24 8
/-- FLAGV -/
def BreJob.flagVal (j : BreJob) : Nat := j.f 32 8
/-- Address of input i. -/
def BreJob.input (j : BreJob) (i : Nat) : Nat := j.f (48 + 8 * i) 8
/-- Bytes of an element. -/
def BreJob.width (j : BreJob) : Nat := if j.op = 1 then 2 else 4

/-- Byte offset of the first field that breaks R311. -/
def BreJob.badField (j : BreJob) : Option Nat :=
  let input (i : Nat) : Nat × Bool := (48 + 8 * i, decide (j.input i % (if i < j.inputs then 64 else 2 ^ 64) = 0))
  let checks : List (Nat × Bool) :=
    [(0, decide (j.op ≤ 2)), (1, decide (2 ≤ j.inputs ∧ j.inputs ≤ 16)), (2, j.f 2 6 = 0),
      (8, decide (1 ≤ j.count ∧ j.count ≤ 2 ^ 32)), (16, j.out % 64 = 0), (24, j.flagAddr % 8 = 0),
      (32, j.flagVal ≠ 2 ^ 64 - 1), (40, j.f 40 8 = 0)]
      ++ (List.range 16).map input ++ [(176, decide (j.f 176 16 = 0))]
  (checks.find? fun c => !c.2).map (·.1)

/-- The regions that a job registers (R312). -/
def BreJob.spans (j : BreJob) : List Region :=
  let ins := (List.range j.inputs).map j.input
  let lo := ins.foldl min (j.input 0)
  let hi := ins.foldl max 0
  [{ core := none, base := lo, len := hi - lo + j.count * j.width, write := false },
    { core := none, base := j.out, len := j.count * j.width, write := true },
    { core := none, base := j.flagAddr, len := 8, write := true }]

/-! ### BRED and BPOLL (R312, R314) -/

/-- Job slots of a stand. -/
def breSlots : Nat := 32

/-- The slots of a stand to which jobs of halted partitions come back. -/
def savedSlots (stand : Nat) (s : State) : List Nat :=
  s.parts.flatMap fun p => (p.2.image.jobs.filter fun j => j.1 = stand).map fun j => j.2.1

/-- The slot that a new job takes: the lowest never used, else the one whose job finished earliest; none that a job of a halted
partition comes back to. -/
def chooseSlot (saved : List Nat) (t : Table BreJob) : Option Nat :=
  match (List.range breSlots).find? fun i => (Table.find i t).isNone && !saved.contains i with
  | some i => some i
  | none =>
    let done := t.filter fun p => decide (2 ≤ p.2.state)
    (done.foldl (fun (b : Option (Nat × Nat)) p => match b with
      | some (_, f) => if p.2.finished < f then some (p.1, p.2.finished) else b
      | none => some (p.1, p.2.finished)) none).map (·.1)

/-- A job's handle (R312). -/
def breHandle (stand slot seq : Nat) : Nat := seq % 2 ^ 24 * 256 + 128 + slot * 4 + stand

/-- The job that BRED queues for a block. -/
def newJob (va : Word) (bs : List Byte) (gran : BitVec 4) (pri : BitVec 2) (s : State) : BreJob :=
  { bytes := bs, block := va, gran := gran.toNat, pri := pri.toNat, core := s.th.core, slot := s.th.slot.toNat
    ttag := s.th.task.ttag, pc := s.th.instrPc, word := s.th.ir.word, part := s.myPart, priv := s.th.priv.toNat
    tid := s.th.id }

/-- An engine as a party to accesses. -/
def BreJob.who (j : BreJob) : Who := { part := j.part, core := none, grove := none, priv := j.priv }

/-- A job as the writer of its results, for its thread. -/
def BreJob.writer (j : BreJob) (stand : Nat) : Writer := { stand := stand, tid := j.tid }

/-- FLAGA's page, translated at issue for a write (R312). -/
def flagCheck (j : BreJob) (a : BitVec 4) (s : State) : Checked State :=
  match resolveSpan j.who .write 2 j.flagAddr 8 s with
  | .ok (_, s) => .ok s
  | .error (f, va) => .error (f.trap 3 a.toNat a.toNat va)

/-- A job is queued in a slot; its handle comes back through a load. -/
def queueJob (id : Nat) (j : BreJob) (s : State) : State :=
  let stand := standOfCore s.th.core
  match chooseSlot (savedSlots stand s) (s.stand stand).bre with
  | none => s.fillLoad s.th.id id (.data 0 false)
  | some slot =>
    let x := s.stand stand
    let seq := (((Table.find slot x.bre).map (·.seq)).getD 0 + 1) % 2 ^ 24
    let j := { j with seq := seq, no := id, regions := j.spans, reg := x.regs }
    let s := registerIn stand s
    let x := s.stand stand
    (s.setStand stand { x with bre := Table.put slot j x.bre }).fillLoad s.th.id id (.data (BitVec.ofNat 1024 (breHandle stand slot seq)) false)

/-- What BRED does with the parameter block it reads (R312). -/
def bredRead (a : BitVec 4) (va : Word) (pri : BitVec 2) (gran : BitVec 4) (id : Nat) (bs : List Byte) (s : State) : Checked State := do
  let j := newJob va bs gran pri s
  let s ← flagCheck j a s
  match j.badField with
  | some o => .error { cause := 0x0E, a := va, v := BitVec.ofNat 64 o }
  | none => .ok (queueJob id j s)

/-- BRED (R312): the parameter block is read as it issues, or once what it comes behind is done. -/
def execBred (d a : BitVec 4) (pri : BitVec 2) (gran : BitVec 4) (s : State) : Outcome :=
  let va := s.getS a
  match spanPlace .read va 192 64 3 a.toNat s with
  | .error t => .next (takeTrap t s)
  | .ok (ls, s) => readOrLate (.s d) none (.bred d a pri gran) va 0 va ls s (bredRead a va pri gran)

/-- The status of the job that a handle names (R314). -/
def jobStatus (h : Word) (s : State) : Nat :=
  match Table.find (h.extractLsb' 2 5).toNat (s.stand (h.extractLsb' 0 2).toNat).bre with
  | some j =>
    if 2 ^ 32 ≤ h.toNat ∨ h.getLsbD 7 = false ∨ (h.extractLsb' 8 24).toNat ≠ j.seq then 0x80
    else j.flags.toNat * 4 + j.state
  | none => 0x80

/-- BPOLL (R314): a status of a job that is done is an acquire of its writes. -/
def execBpoll (d a : BitVec 4) (s : State) : Outcome :=
  let v := jobStatus (s.getS a) s
  let s := if v < 0x80 ∧ v % 4 = 2 then acquireAt s.th.core s else s
  .next (loadS 4 d (BitVec.ofNat 64 v) s)

/-! ### Jobs (R313) -/

/-- A stand's job in a slot replaced. -/
def putJob (stand slot : Nat) (j : BreJob) (s : State) : State :=
  let x := s.stand stand
  s.setStand stand { x with bre := Table.put slot j x.bre }

/-- A running job stands at the boundary of a split granule. -/
def BreJob.atBoundary (j : BreJob) : Bool :=
  match granuleBytes j.gran with
  | some g => j.pos * j.width % g = 0
  | none => false

/-- A job that may start now: what its thread did before is performed at .sys (R312). -/
def jobStartable (s : State) (stand : Nat) (j : BreJob) : Bool :=
  decide (j.state = 0) && !partHalted s j.part && performedBefore s j.tid j.no 5 && footprintClear s stand j.part j.reg j.regions

/-- The job that is served first among some: the highest priority, then the oldest (02 R49). -/
def firstJob (js : List (Nat × BreJob)) : Option Nat :=
  (js.foldl (fun (b : Option (Nat × BreJob)) p => match b with
    | some (_, d) => if d.pri < p.2.pri || (d.pri == p.2.pri && decide (p.2.reg < d.reg)) then some p else b
    | none => some p) none).map (·.1)

/-- BRE_JOB_START (R313): the job in slot b of stand a starts; the lines of its written regions are purged first (11
R257). -/
def execBreJobStart (s : State) : Outcome :=
  let stand := s.arg.a
  let t := (s.stand stand).bre
  match Table.find s.arg.b t with
  | none => .next s
  | some j =>
    let outranks := (t.filter fun p => p.2.state = 1 && !partHalted s p.2.part).all fun p => decide (p.2.pri < j.pri) && p.2.atBoundary
    if firstJob (t.filter fun p => jobStartable s stand p.2) = some s.arg.b && outranks then
      .next (putJob stand s.arg.b { j with state := 1 } (purge j.part j.regions s))
    else .next s

/-- One pass of the tree: neighbours meet, and one without a neighbour passes on (R72). -/
def treePass (f : Nat → Nat → Nat × Flags) : List Nat → List Nat × Flags
  | x :: y :: r =>
    let (z, fl) := f x y
    let (zs, fl') := treePass f r
    (z :: zs, fl ||| fl')
  | xs => (xs, 0)

/-- The root of the tree over up to 16 values. -/
def treeRoot (f : Nat → Nat → Nat × Flags) (xs : List Nat) : Nat × Flags :=
  let (x1, f1) := treePass f xs
  let (x2, f2) := treePass f x1
  let (x3, f3) := treePass f x2
  let (x4, f4) := treePass f x3
  (x4.headD 0, f1 ||| f2 ||| f3 ||| f4)

/-- One element of the output from the inputs' elements (R72, R313). -/
def jobElem (op : Nat) (xs : List Nat) : Nat × Flags :=
  match op with
  | 0 => treeRoot rneAdd xs
  | 1 =>
    let (w, f) := treeRoot rneAdd (xs.map (· * 65536))
    let (y, f') := roundNum .bf16 .rne 0 (decodeNum .f32 w)
    (y, f ||| f')
  | _ => treeRoot (minMaxBits true .f32) xs

/-- Elements of the next piece of a job: a page of output at most. -/
def BreJob.piece (j : BreJob) : Nat := min (4096 / j.width) (j.count - j.pos)

/-- The inputs' bytes for the next piece. -/
def jobInputs (j : BreJob) : List Nat → State → Except NearFault (List (List Byte) × State)
  | [], s => .ok ([], s)
  | i :: is, s => do
    let (bs, s) ← nearRead j.who (some j.regions) ((j.input i + j.pos * j.width) % 2 ^ 64) (j.piece * j.width) s
    let (r, s) ← jobInputs j is s
    .ok (bs :: r, s)

/-- A running job does its next piece. -/
def jobPiece (stand slot : Nat) (j : BreJob) (s : State) : Except NearFault State := do
  let n := j.piece
  let w := j.width
  let (ins, s) ← jobInputs j (List.range j.inputs) s
  let (ls, s) ← nearPlaces j.who (some j.regions) .write ((j.out + j.pos * w) % 2 ^ 64) (n * w) s
  let out := (List.range n).map fun e => jobElem j.op (ins.map fun bs => leField bs (w * e) w)
  let fl := out.foldl (fun f x => f ||| x.2) j.flags
  let s := nearStore (j.writer stand) ls (out.flatMap fun x => leBytes w x.1) s
  let j := { j with pos := j.pos + n, flags := fl }
  .ok (putJob stand slot { j with granule := if j.atBoundary || decide (j.count ≤ j.pos) then j.granule + 1 else j.granule } s)

/-- A job's log entry (R313). -/
def jobEntry (stand slot : Nat) (j : BreJob) (reason addr : Nat) : LogEntry :=
  { cause := 0x0E, reason := reason, unit := unitCode 5 stand 0 0, issuer := 4 * j.core + j.slot, ttag := j.ttag, pc := j.pc
    addr := BitVec.ofNat 64 addr, value := BitVec.ofNat 64 (breHandle stand slot j.seq)
    extra := BitVec.ofNat 64 (j.granule % 2 ^ 32 * 2 ^ 8), word := j.word }

/-- A job fails at its faulting granule: it is logged; its flag and status follow. -/
def failJob (stand slot : Nat) (j : BreJob) (e : NearFault) : State :=
  let (reason, addr, s) := e
  putJob stand slot { j with failed := some (reason, BitVec.ofNat 64 addr) } (s.logAsync j.part (jobEntry stand slot j reason addr))

/-- BRE_GRANULE (R313): the job in slot b of stand a does its next piece; at a boundary a job of higher priority that may
start goes first. -/
def execBreGranule (s : State) : Outcome :=
  let stand := s.arg.a
  let t := (s.stand stand).bre
  match Table.find s.arg.b t with
  | none => .next s
  | some j =>
    let first := firstJob (t.filter fun p => p.2.state = 1 && !partHalted s p.2.part) = some s.arg.b
    let higher := t.any fun p => jobStartable s stand p.2 && decide (j.pri < p.2.pri)
    if !first || j.failed.isSome || decide (j.count ≤ j.pos) || (j.atBoundary && higher) then .next s
    else match jobPiece stand s.arg.b j s with
      | .ok s => .next s
      | .error e => .next (failJob stand s.arg.b j e)

/-- The flag is written, a release at .sys: FLAGV, or all ones after a failure; a flag that cannot be written fails the
job. -/
def jobFlag (stand slot : Nat) (j : BreJob) (s : State) : Bool × State :=
  match nearPlaces j.who (some j.regions) .write j.flagAddr 8 s with
  | .error (r, a, s) => (false, s.logAsync j.part (jobEntry stand slot j r a))
  | .ok (ls, s) => (true, nearStore (j.writer stand) ls (leBytes 8 (if j.failed.isSome then 2 ^ 64 - 1 else j.flagVal)) s)

/-- BRE_JOB_COMPLETE (R313): the job in slot b of stand a, all its output written or failed, purges its written regions, then
writes its flag, then its status. -/
def execBreJobComplete (s : State) : Outcome :=
  let stand := s.arg.a
  match Table.find s.arg.b (s.stand stand).bre with
  | none => .next s
  | some j =>
    if j.state ≠ 1 ∨ partHalted s j.part = true ∨ (j.failed = none ∧ j.pos < j.count) then .next s
    else
      let (ok, s) := jobFlag stand s.arg.b j (purge j.part j.regions s)
      let x := s.stand stand
      let s := s.setStand stand { x with breDone := x.breDone + 1 }
      .next (putJob stand s.arg.b { j with
        state := if ok && j.failed.isNone then 2 else 3, finished := x.breDone } s)

end Sys2Proof.Machine
end

