-- ==== Sys2Proof/Machine/Late.lean ====
section
/-!
DEFINITION. Load-path results as they return (04 R93), and instructions that act on the way: a spawn and a graph replay, which
are releases (08 R183, R211), and an instruction whose bytes had to come behind something else of its thread (12 R270).
-/
namespace Sys2Proof.Machine

open Sys2Proof

/-- What an instruction that acts late does with the bytes that it reads, for its thread in the focus: as it would have as it
issued. `a` and `b` are the values of its registers. -/
def lateBody (i : Instr) (a b : Word) (id : Nat) (bs : List Byte) (s : State) : Checked State :=
  match i with
  | .tspawn _ _ => spawnRead a id bs s
  | .plnch _ _ _ => launchRead b.toNat id bs s
  | .bred _ r pri gran => bredRead r a pri gran id bs s
  | .statl _ ra rb h c => latchRecord ra rb c a b h (a.toNat % 65536) id bs s
  | .statr _ _ _ => recordWord b id bs s
  | .greplay _ r => runReplay r a id s
  | _ => .ok s

/-- The address of the bytes of an instruction that acts late: its first register's, or a record's physical one
(notes/assumptions/101.md). -/
def lateAddr (i : Instr) (a : Word) (ls : List Loc) : Word :=
  match i, ls with
  | .statl .., .pa p _ :: _ | .statr .., .pa p _ :: _ => BitVec.ofNat 64 p
  | _, _ => a

/-- The bytes of an instruction that acts late, checked (09 R229) and read as its thread's loads read; a replay reads for
itself. -/
def lateRead (i : Instr) (a : Word) (wide : Bool) (ls : List Loc) (s : State) : Checked (List Byte × State) :=
  match i with
  | .greplay _ _ => .ok ([], s)
  | _ => do
    let s ← checkData (lateAddr i a ls) ls s
    .ok (readAs s.th wide ls s)

/-- An instruction of a thread acts late, its thread's registers apart (notes/assumptions/97.md): a fault comes back through the
load path. -/
def actLate (t : Thread) (l : Load) (i : Instr) (a b : Word) (ls : List Loc) (s : State) : State :=
  let here := s.th.id
  let mine := (s.fillLoad t.id l.id .waiting).focus t.id
  let mine := mine.onTh fun t => { t with pc := l.pc, modLatch := none, ir := { t.ir with word := l.word, hasMod := false } }
  let done : Checked State := do
    let (bs, s) ← lateRead i a (wideAcquire l.acq) ls mine
    lateBody i a b l.id bs s
  match done with
  | .ok s => (s.onTh fun x => { x with pc := t.pc, modLatch := t.modLatch, ir := t.ir }).focus here
  | .error tr => (retireTrap tr s).fillLoad t.id l.id (.fault tr.cause tr.fidx tr.fval tr.a tr.v)

/-- What a load-path result waits to do is done. -/
def act (t : Thread) (l : Load) (a : Acting) (s : State) : State :=
  match a with
  | .spawn task depc => spawnNow t l task depc s
  | .late i a b ls => actLate t l i a b ls s

/-- LOAD_RETURN (04 R93): result b of thread a; c names one piece of it to be read, or, at 0, the whole result to return. -/
def execLoadReturn (s : State) : Outcome :=
  match s.thread? s.arg.a with
  | none => .next s
  | some t =>
    match loadOf t s.arg.b with
    | none => .next s
    | some l =>
      match l.val with
      | .acting a => .next (if a.ready s t l then act t l a s else s)
      | _ =>
        let s' := performLoad t l s.arg.c s
        match s.arg.c, (s'.thread? t.id).bind fun t => loadOf t l.id with
        | 0, some l => .next (returnLoad t l s')
        | _, _ => .next s'

end Sys2Proof.Machine
end

