-- ==== Sys2Proof/Machine/PlaneEngine.lean ====
section
/-!
DEFINITION. What a plane does (12 R283-R292): configuration at the head of its queue, steps, fades and reward sweeps in
two steps each, their start and their end, and the arrival and application of rewards and gates. A step of a plane is
about the array numbered by the event's first argument; an arrival is about a message.
-/
namespace Sys2Proof.Machine

open Sys2Proof

/-- The head of the plane queue leaves it. -/
def popPlane (x : MArray) : MArray := { x with pq := x.pq.tail }

/-- A plane is configured from its entry (R283 steps 2 to 5); its group membership is what CFG says. -/
def configurePlane (bs : List Byte) (x : MArray) : MArray :=
  let f := leField bs 0 1
  let rows := leField bs 4 2
  let g := leField bs 6 1
  let cfg := BitVec.ofNat 32 (rows + f % 2 * 2 ^ 16 + (if g = 0xFF then 0 else 2 ^ 17 + g % 16 * 2 ^ 18))
  { x with
    lambda := Vector.ofFn fun i => BitVec.ofNat 32 (leField bs (12 + 4 * i.val) 4)
    eta := Vector.ofFn fun i => BitVec.ofNat 32 (leField bs (76 + 4 * i.val) 4)
    cold := Vector.ofFn fun i => BitVec.ofNat 8 (leField bs (140 + i.val) 1 % 16)
    lan := BitVec.ofNat 32 (leField bs 8 4), cfg := cfg
    slice := x.slice.clear 0 (16384 * regionTiles cfg), tileRegs := x.tileRegs.filter fun t => regionTiles cfg ≤ t
    psc := 0, pgl := 0xFFFFFFFFFFFFFFFF, pgw := 0, plate := 0, pgc := 0, pflg := 0, sth := 0, rq := [], held := [] }

/-- PCFG_EXECUTE (R283): once the reward queue is empty and nothing runs. -/
def execPcfgExecute (s : State) : Outcome :=
  let x := s.array s.arg.a
  match x.pq.head? with
  | some c =>
    match c.instr, c.data with
    | .pcfg _, some bs =>
      if x.frozen || !x.rq.isEmpty || x.running.isSome then .next s
      else .next (s.setArray s.arg.a (popPlane (configurePlane bs x)))
    | _, _ => .next s
  | none => .next s

/-! ### Synapses -/

/-- Weight and trace formats (R282). -/
def weightFmt (cfg : BitVec 32) : Fmt := if cfg.getLsbD 16 then .f32 else .bf16
/-- Trace format. -/
def traceFmt (cfg : BitVec 32) : Fmt := if cfg.getLsbD 16 then .f32 else .f16

/-- Pairs of neighbours. -/
def pairUp : List Nat → List (Nat × Nat)
  | a :: b :: r => (a, b) :: pairUp r
  | _ => []

/-- The synapses of a plane in row-major order, weight and trace. -/
def synapses (x : MArray) : List (Nat × Nat) :=
  let n := if x.cfg.getLsbD 16 then 4 else 2
  pairUp (wordsOf n (128 * planeRows x.cfg) (x.slice.span 0 (planeRows x.cfg * rowBytes x.cfg)))

/-- An array reads its synapse region (09 R229): a fault ends what it does there. -/
def regionChecked (arr part : Nat) (e : LogEntry) (s : State) : Except State State :=
  let x := s.array arr
  sliceChecked arr part e 0 (planeRows x.cfg * rowBytes x.cfg) s

/-- A plane with its synapses replaced. -/
def setSynapses (ss : List (Nat × Nat)) (x : MArray) : MArray :=
  let n := if x.cfg.getLsbD 16 then 4 else 2
  { x with slice := x.slice.splice 0 (ss.flatMap fun p => leBytes n p.1 ++ leBytes n p.2) }

/-- The exact sum of products with its flags, from its first product on (R287). -/
def sumProducts (ps : List (Num × Num)) : Num × Flags :=
  match ps with
  | [] => (.zero false, 0)
  | p :: r => r.foldl (fun acc q =>
      let (x, f1) := q.1.mul q.2
      let (y, f2) := acc.1.add false x
      (y, acc.2 ||| f1 ||| f2)) (p.1.mul p.2)

/-- A value rounded once with flags added to those of its computation. -/
def rounded (f : Fmt) (mode : Mode) (rb : Nat) (x : Num × Flags) : Nat × Flags :=
  let (w, g) := roundNum f mode rb x.1
  (w, x.2 ||| g)

/-- λ by column, through the descriptors. -/
def lambdaByColumn (x : MArray) : List (BitVec 32) :=
  x.cold.toList.map fun c => x.lambda.toList.getD (c.toNat % 16) 0

/-- Sticky flags of a plane. -/
def orPflg (f : Flags) (x : MArray) : MArray := { x with pflg := x.pflg ||| f.setWidth 32 }

/-- The partition of an array. -/
def partOfArray (s : State) (arr : Nat) : Nat := ((s.grove (groveOfArray arr)).owner).getD 0

/-! ### Steps (R287, R288) -/

/-- The bytes of the slot at a deck's HEAD; data that cannot be read are free values, and the error goes to the issuing
thread (R270). -/
def readSlot (c : ArrayCmd) (core off n : Nat) (s : State) : List Byte × State :=
  let d := deckAt core off s
  let ls := (List.range n).map fun i => Loc.ls core (deckByte d true i)
  let (bs, failed, s) := arrayRead c (fun i => cbAddr (deckByte d true i)) ls s
  if failed then ((List.range n).map fun i => BitVec.ofNat 8 (Config.freeBits i s.free), s.draw) else (bs, s)

/-- The pairs of an event slot that are not empty: pair number, row index and value. -/
def eventPairs (bs : List Byte) : List (Nat × Nat × BitVec 16) :=
  ((List.range 32).map fun p => (p, leField bs (4 * p) 2, BitVec.ofNat 16 (leField bs (4 * p + 2) 2))).filter
    fun e => e.2.1 ≠ 0xFFFF

/-- The outputs of a step with their flags: y by column. -/
def forwardRead (x : MArray) (events : List (Nat × BitVec 16)) : List (Nat × Flags) :=
  let rows := rowsOf 64 (planeRows x.cfg) (synapses x)
  let wf := weightFmt x.cfg
  (List.range 64).map fun j => rounded .f32 .rne 0 (sumProducts (events.map fun e =>
    (decodeNum .bf16 e.2.toNat, decodeNum wf ((rows.getD e.1 []).getD j (0, 0)).1)))

/-- A bad event index is logged (R288). -/
def logBadIndex (arr : Nat) (c : ArrayCmd) (psc : Word) (s : State) (e : Nat × Nat × BitVec 16) : State :=
  s.logAsync c.part { c.entry arr 0x17 with
    value := BitVec.ofNat 64 e.2.1, extra := BitVec.ofNat 64 (e.1 + psc.toNat % 2 ^ 24 * 2 ^ 40) }

/-- A step starts (R287): it numbers itself, reads its slots, computes and publishes its outputs, and frees what it
read. -/
def startStep (arr : Nat) (c : ArrayCmd) (oc o ec e pc p : Nat) (s : State) : State :=
  let s := s.onArray arr fun x => { x with psc := x.psc + 1 }
  let s := syncStand (standOfCore c.core) s
  let (evs, s) := readSlot c ec e 128 s
  let (post, s) := readSlot c pc p 128 s
  let x := s.array arr
  let pairs := eventPairs evs
  let good := (pairs.filter fun q => q.2.1 < planeRows x.cfg).map fun q => (q.2.1, q.2.2)
  let bad := pairs.filter fun q => planeRows x.cfg ≤ q.2.1
  let ys := forwardRead x good
  let run : RunningStep := { kind := 0, events := good, post := wordsOf 2 64 post |>.map (BitVec.ofNat 16), coeff := lambdaByColumn x
                             reward := none }
  let x := orPflg (ys.foldl (fun f y => f ||| y.2) 0) { x with running := some run }
  let s := s.setArray arr (if bad.isEmpty then x else { x with pflg := x.pflg ||| 0x20 })
  let s := bad.foldl (logBadIndex arr c x.psc) s
  let out := deckAt oc o s
  let s := storeLocs { stand := standOfCore oc, tid := c.tid }
    ((ys.flatMap fun y => leBytes 4 y.1).zipIdx.map fun q => (Loc.ls oc (deckByte out false q.2), q.1)) s
  let s := deckStore (deckPublish 1 (deckAt oc o s)) s
  let s := deckStore (deckConsume 1 (deckAt ec e s)) s
  deckStore (deckConsume 1 (deckAt pc p s)) s

/-- STEP_START (R287); a step whose weights cannot be read ends (09 R229). -/
def execStepStart (s : State) : Outcome :=
  match headReady s s.arg.a with
  | some c =>
    match c.instr, c.decks with
    | .pstep .., [(oc, o), (ec, e), (pc, p)] =>
      if gateOpen (s.array s.arg.a) then
        match regionChecked s.arg.a c.part (c.entry s.arg.a 0x12) s with
        | .ok s => .next (startStep s.arg.a c oc o ec e pc p s)
        | .error s => .next (s.onArray s.arg.a popPlane)
      else .next s
    | _, _ => .next s
  | none => .next s

/-- The trace of a synapse after a step or fade: λ × e, and the exact product of the row's event sum and the column's
post-factor (R287). -/
def nextTrace (x : MArray) (r : RunningStep) (i j trace : Nat) : Nat × Flags :=
  let tf := traceFmt x.cfg
  let decay := (decodeNum .f32 (r.coeff.getD j 0).toNat).mul (decodeNum tf trace)
  if r.kind = 1 then rounded tf .rne 0 decay
  else
    let (xi, f1) := sumProducts ((r.events.filter fun e => e.1 = i).map fun e => (decodeNum .bf16 e.2.toNat, .ofInt 1))
    let (q, f2) := xi.mul (decodeNum .bf16 (r.post.getD j 0).toNat)
    let (y, f3) := decay.1.add false q
    rounded tf .rne 0 (y, decay.2 ||| f1 ||| f2 ||| f3)

/-- The trace sweep of a step or fade. -/
def sweepTraces (r : RunningStep) (x : MArray) : MArray :=
  let out := (synapses x).zipIdx.map fun p => let t := nextTrace x r (p.2 / 64) (p.2 % 64) p.1.2; ((p.1.1, t.1), t.2)
  orPflg (out.foldl (fun f o => f ||| o.2) 0) (setSynapses (out.map (·.1)) x)

/-- The issuer of what an array runs, as log entries name it: the head of its plane queue. -/
def MArray.planeEntry (arr : Nat) (x : MArray) : LogEntry :=
  match x.pq with
  | c :: _ => c.entry arr 0x12
  | [] => { cause := 0x12, unit := unitOfArray arr, issuer := 0xFFFFFFFF }

/-- The trace sweep of a step or fade over an array's region, and what follows; traces that cannot be read are left
(09 R229). -/
def sweepRegion (arr : Nat) (r : RunningStep) (after : MArray → MArray) (s : State) : State :=
  match regionChecked arr (partOfArray s arr) ((s.array arr).planeEntry arr) s with
  | .ok s => s.onArray arr fun x => after { sweepTraces r x with running := none }
  | .error s => s.onArray arr fun x => after { x with running := none }

/-- STEP_RETIRE (R287): the trace sweep ends, and the step leaves the queue. -/
def execStepRetire (s : State) : Outcome :=
  match (s.array s.arg.a).running with
  | some r => if r.kind = 0 then
      .next ((sweepRegion s.arg.a r popPlane s).pulse (arrayUnit s.arg.a) (groveOfArray s.arg.a) (s.arg.a % 4))
    else .next s
  | none => .next s

/-! ### Fades (R289) -/

/-- A fade is done; the last of its PFADE takes the command from the queue. -/
def countFade (x : MArray) : MArray :=
  match x.pq with
  | c :: r => if c.left ≤ 1 then { x with pq := r } else { x with pq := { c with left := c.left - 1 } :: r }
  | [] => x

/-- FADE (R289): a fade that runs ends; else the head's next fade starts; a PFADE of none leaves the queue. -/
def execFade (s : State) : Outcome :=
  let x := s.array s.arg.a
  match x.running with
  | some r => if r.kind = 1 then .next (sweepRegion s.arg.a r countFade s) else .next s
  | none =>
    match headReady s s.arg.a with
    | some c =>
      match c.instr with
      | .pfade _ =>
        if gateOpen x then
          .next (s.setArray s.arg.a { x with
            psc := x.psc + 1
            running := some { kind := 1, events := [], post := [], coeff := lambdaByColumn x, reward := none } })
        else .next s
      | _ => .next s
    | none =>
      match x.pq with
      | c :: r =>
        match c.instr with
        | .pfade _ => if c.left = 0 && !x.frozen then .next (s.setArray s.arg.a { x with pq := r }) else .next s
        | _ => .next s
      | [] => .next s

/-! ### Rewards (R291, R292) -/

/-- REWARD_ARRIVAL (R292): message a enters the reward queue, or is held at the input behind eight. -/
def execRewardArrival (s : State) : Outcome :=
  match arrived s s.arg.a with
  | some e =>
    match e.body with
    | .reward arr r =>
      .next ((dropMsg e.seq s).onArray arr fun x =>
        if x.held.isEmpty && decide (x.rq.length < 8) then { x with rq := x.rq ++ [r] } else { x with held := x.held ++ [r] })
    | _ => .next s
  | none => .next s

/-- The entry that is applied next: the due one of least cut, the oldest among equals (R292). -/
def nextReward (x : MArray) : Option Reward :=
  if x.frozen || x.running.isSome then none
  else (x.rq.filter (rewardDue x)).foldl (fun b r => match b with
    | none => some r
    | some q => if r.cut.toNat < q.cut.toNat then some r else some q) none

/-- Lateness counted (R292): an entry whose step is past. -/
def countLate (r : Reward) (x : MArray) : MArray :=
  let l := x.psc.toNat - r.cut.toNat
  if l = 0 then x
  else
    let n := min (x.plate.toNat % 65536 + 1) 65535
    let m := min (max (x.plate.toNat / 65536) l) 65535
    { x with plate := BitVec.ofNat 32 (m * 65536 + n) }

/-- PGL after an entry with a cut (R292). -/
def raiseGate (cut : Word) (x : MArray) : MArray :=
  { x with pgl := BitVec.ofNat 64 (min (2 ^ 64 - 1) (max x.pgl.toNat (cut.toNat + x.pgw.toNat))) }

/-- A held entry takes the place that an applied one leaves. -/
def admitHeld (x : MArray) : MArray :=
  match x.held with
  | r :: rest => if x.rq.length < 8 then { x with rq := x.rq ++ [r], held := rest } else x
  | [] => x

/-- The update factors of a sweep by column: η × r, rounded (R292). -/
def updateFactors (x : MArray) (r : Reward) : List (Nat × Flags) :=
  x.cold.toList.map fun c =>
    rounded .f32 .rne 0 ((decodeNum .f32 (x.eta.toList.getD (c.toNat % 16) 0).toNat).mul (decodeNum .f32 r.r.toNat))

/-- A weight after a sweep (R292). -/
def nextWeight (x : MArray) (jseed : Word) (r : Reward) (u : BitVec 32) (i j weight trace : Nat) : Nat × Flags :=
  let wf := weightFmt x.cfg
  let (p, f1) := (decodeNum .f32 u.toNat).mul (decodeNum (traceFmt x.cfg) trace)
  let (y, f2) := (decodeNum wf weight).add false p
  rounded wf (if r.sr then .sr else .rne) (if r.sr then planeRbits jseed x.lan x.pgc i j else 0) (y, f1 ||| f2)

/-- A sweep's weights are updated, and its statistics partial leaves for the record that STH names (R292). -/
def sweepWeights (arr : Nat) (run : RunningStep) (r : Reward) (s : State) : State :=
  let x := s.array arr
  let part := partOfArray s arr
  let jseed := match s.part? part with
    | some p => BitVec.ofNat 64 p.grant.jseed
    | none => 0
  let out := (synapses x).zipIdx.map fun p =>
    let w := nextWeight x jseed r (run.coeff.getD (p.2 % 64) 0) (p.2 / 64) (p.2 % 64) p.1.1 p.1.2
    ((w.1, p.1.2), w.2)
  let counted := x.sth.getLsbD 16
  let x := orPflg (out.foldl (fun f o => f ||| o.2) 0) (setSynapses (out.map (·.1)) x)
  let n := s.fresh
  let s := if counted then
      s.sendFrom (arrayUnit arr + 1) 0 (.statistics part ((x.sth.extractLsb' 0 16).setWidth 64)
        (Partial.ofNums (out.map fun o => decodeNum (weightFmt x.cfg) o.1.1))
        { cause := 0x1F, unit := unitOfArray arr, issuer := 0xFFFFFFFF })
    else s
  s.setArray arr { x with
    running := some { run with sent := if counted then some n else none }, pgc := if r.sr then x.pgc + 1 else x.pgc }

/-- A sweep ends (R292): PGL is raised, and the completion pulse goes out (17 R339, R346). -/
def endSweep (arr : Nat) (r : Reward) (s : State) : State :=
  (s.onArray arr fun x => admitHeld (raiseGate r.cut { x with running := none })).pulse (arrayUnit arr) (groveOfArray arr) (44 + arr % 4)

/-- REWARD_APPLY (R292): a sweep that runs updates its weights, without effect on weights that cannot be read (09 R229), and
ends once its statistics partial, where it has one, has reached its record (17 R338); else the next due reward's sweep
starts. -/
def execRewardApply (s : State) : Outcome :=
  let arr := s.arg.a
  let x := s.array arr
  match x.running with
  | some run =>
    match run.kind, run.reward with
    | 2, some r =>
      if run.sent.isSome then .next (if partialThere run.sent s then endSweep arr r s else s)
      else match regionChecked arr (partOfArray s arr) { cause := 0x12, unit := unitOfArray arr, issuer := 0xFFFFFFFF } s with
      | .ok s =>
        let s := sweepWeights arr run r s
        .next (if x.sth.getLsbD 16 then s else endSweep arr r s)
      | .error s => .next (s.onArray arr fun x => admitHeld (raiseGate r.cut { x with running := none }))
    | _, _ => .next s
  | none =>
    match nextReward x with
    | some r =>
      if r.gate then .next s
      else
        let us := updateFactors x r
        .next (s.setArray arr (orPflg (us.foldl (fun f u => f ||| u.2) 0) (countLate r { x with
          rq := x.rq.erase r
          running := some { kind := 2, events := [], post := [], coeff := us.map fun u => BitVec.ofNat 32 u.1, reward := some r } })))
    | none => .next s

/-- GATE_APPLY (R292): a gate entry only raises PGL; one that is late counts in PLATE as a late entry does
(notes/assumptions/121.md). -/
def execGateApply (s : State) : Outcome :=
  let x := s.array s.arg.a
  match nextReward x with
  | some r =>
    if r.gate then
      .next ((s.setArray s.arg.a (admitHeld (raiseGate r.cut (countLate r { x with rq := x.rq.erase r })))).pulse
        (arrayUnit s.arg.a) (groveOfArray s.arg.a) (44 + s.arg.a % 4))
    else .next s
  | none => .next s

end Sys2Proof.Machine
end

