-- ==== Sys2Proof/Machine/Schedule.lean ====
section
/-!
DEFINITION. The steps that bring tasks and threads to slots and take them away: decrements, ready messages, refills,
binding, priority raises, parking and waking, the yield deadline, and the arrival of a migrated thread (02 R19-R51,
18 R359).
-/
namespace Sys2Proof.Machine

open Sys2Proof

/-- DECREMENT_MESSAGE (02 R22): message a reaches its counter's home. -/
def execDecrementMessage (s : State) : Outcome :=
  match arrived s s.arg.a with
  | some e =>
    match e.body with
    | .decr part h n sender => .next (decrement part h n sender (dropMsg e.seq s))
    | _ => .next s
  | none => .next s

/-- READY_MESSAGE (02 R24, R25): message a reaches its core. -/
def execReadyMessage (s : State) : Outcome :=
  match arrived s s.arg.a with
  | some e =>
    match e.body with
    | .ready core x => .next (enqueue core x (dropMsg e.seq s))
    | _ => .next s
  | none => .next s

/-- SPILL_REFILL (02 R24, R25): the queue of core a refills. -/
def execSpillRefill (s : State) : Outcome := .next (refill s.arg.a 8400 s)

/-- A spawn obtains a far entry, if one is free (02 R19). -/
def obtainFar (part : Nat) (w : WaitSpawn) (s : State) : Option State :=
  match placeFar w.task w.depc s with
  | none => none
  | some (h, s) => some (deliverHandle part w.reply h (s.onPart part fun p => { p with waits := p.waits.drop 1 }))

/-- FAR_ENTRY_OBTAINED (02 R19): the spawn that has waited longest in partition a. -/
def execFarEntryObtained (s : State) : Outcome :=
  match s.part? s.arg.a with
  | none => .next s
  | some p =>
    match p.waits with
    | w :: _ => .next ((obtainFar s.arg.a w s).getD s)
    | [] => .next s

/-- The partition of a core is not halted. -/
def coreRuns (s : State) (core : Nat) : Bool :=
  match s.partOfCore core with
  | some p => p.halt = .running
  | none => true

/-- TASK_BIND (02 R18, R26, R27): the binder of core a. -/
def execTaskBind (s : State) : Outcome := .next (if coreRuns s s.arg.a then bindCore s.arg.a s else s)

/-- Whether an entry has waited 65,536 cycles at its priority (02 R51). -/
def raiseDue (s : State) (e : RunEntry) : Bool := e.pri < 3 && decide (e.raised + 65536 ≤ s.cycle)

/-- The entry rises by one level. -/
def raiseEntry (e : RunEntry) : RunEntry := { e with pri := e.pri + 1, raised := e.raised + 65536 }

/-- PRIORITY_RAISE (02 R51): entry b of the run queue of core a and its spill ring, if it is due. -/
def execPriorityRaise (s : State) : Outcome :=
  let c := s.core s.arg.a
  let up (off : Nat) (es : List RunEntry) : List RunEntry :=
    es.mapIdx fun i e => if off + i = s.arg.b && raiseDue s e then raiseEntry e else e
  .next (s.setCore s.arg.a { c with runq := up 0 c.runq, spill := up c.runq.length c.spill })

/-- A wait of a bound thread has lasted the deck-wait bound (02 R34). -/
def parkDue (s : State) (t : Thread) : Bool :=
  match t.status with
  | .waiting _ since => decide (since + 256 * (s.core t.core).dwb.toNat ≤ s.cycle)
  | _ => false

/-- The focus thread, which waits, parks (02 R34): a crew that it is attached to dissolves first (R43); where no place is free
the monitor is told, and the wait begins anew (R35). -/
def parkWaiting (w : Wait) (s : State) : State :=
  let s := if s.th.crew && !s.th.det then dissolveCrew s.th.crewId s else s
  match parkFocus (fun p => .parked w p) s with
  | some s => s.count 0x08
  | none =>
    let s := s.logMonitor { s.th.entry 0x1A with value := 1 }
    s.onTh fun t => { t with status := .waiting w s.cycle }

/-- DWB_PARK (02 R34, R35): the wait of thread a. -/
def execDwbPark (s : State) : Outcome :=
  match s.thread? s.arg.a with
  | some t =>
    match t.status with
    | .waiting w _ => if parkDue s t then .next (parkWaiting w (s.focus t.id)) else .next s
    | _ => .next s
  | none => .next s

/-- PARKED_THREAD_WAKE (02 R36): the condition of thread a holds. -/
def execParkedThreadWake (s : State) : Outcome :=
  match s.thread? s.arg.a with
  | some t =>
    match t.status with
    | .parked w _ => if waitOver s t w then .next (requeue t.id s) else .next s
    | _ => .next s
  | none => .next s

/-- SPIN_PARK_WAKE (02 R38): a write has reached the line that thread a spins on. -/
def execSpinParkWake (s : State) : Outcome :=
  match s.thread? s.arg.a with
  | some t =>
    match t.status with
    | .spinning _ _ _ true => .next (requeue t.id s)
    | _ => .next s
  | none => .next s

/-- How long a spin park lasts at most (02 R38). -/
def spinBound (s : State) (t : Thread) : Nat :=
  if t.task.ydf = 0 || !(s.core t.core).wdog.getLsbD 0 then 65536 else 1024 * t.task.ydf

/-- SPIN_PARK_TIMEOUT (02 R38): the bound of thread a has passed. -/
def execSpinParkTimeout (s : State) : Outcome :=
  match s.thread? s.arg.a with
  | some t =>
    match t.status with
    | .spinning _ since _ _ => if since + spinBound s t ≤ s.cycle then .next (requeue t.id s) else .next s
    | _ => .next s
  | none => .next s

/-- The word at the focus thread's pc as a log entry shows it; 0 where it cannot be fetched. -/
def nextWord (s : State) : BitVec 32 :=
  match fetchWord s.th.pc s with
  | .ok (_, w, _) => BitVec.ofNat 32 w
  | .error _ => 0

/-- The focus thread has reached its yield deadline (18 R359): it is logged and ends, without step 2 of R28. -/
def missDeadline (s : State) : State :=
  let e := { s.th.entry 0x0F with value := BitVec.ofNat 64 s.th.task.ydf, word := nextWord s }
  dieFocus 0x0F (s.logFault s.th.core s.myPart e)

/-- YIELD_DEADLINE (18 R359): thread a, before its next issue. -/
def execYieldDeadline (s : State) : Outcome :=
  match s.thread? s.arg.a with
  | some t =>
    if t.status = .running && t.modLatch.isNone && deadline s t then
      .next ((missDeadline (s.focus t.id)).onTh fun t => { t with uncounted := false })
    else .next s
  | none => .next s

/-- MIGRATION_ARRIVAL (02 R46): the context of message a reaches its core and enters its run queue. -/
def execMigrationArrival (s : State) : Outcome :=
  match arrived s s.arg.a with
  | some e =>
    match e.body with
    | .migrate core tid bytes => .next (requeue tid ((dropMsg e.seq s).onThread tid (migrated core bytes)))
    | _ => .next s
  | none => .next s

end Sys2Proof.Machine
end

