-- ==== Sys2Proof/Machine/Loader.lean ====
section
/-!
DEFINITION. Loading and launching a linked image: LOAD_IMAGE (05 R110-R128, 10 R241, 12 R283, 13 R294, 15 R316, 19 R372,
20 R381).
-/
namespace Sys2Proof.Machine

open Sys2Proof

/-! ### The container (05 R118-R122) -/

/-- A check that refuses an image names the section and the offset of what it refuses (R128). -/
abbrev LoadFault := Nat × Nat

/-- A condition of the loader. -/
def loadNeed (c : Bool) (e : LoadFault) : Except LoadFault Unit := if c then .ok () else .error e

/-- Number of section headers. -/
def pofCount (f : List Byte) : Nat := leField f 8 4

/-- The header of a section. -/
def pofHeader (f : List Byte) (i : Nat) : List Byte := (f.drop (leField f 16 8 + 48 * i)).take 48

/-- A section of an image as the loader holds it. -/
structure Sect where
  index : Nat
  type : Nat
  flags : Nat
  addr : Nat
  link : Nat
  info : Nat
  bytes : List Byte
deriving DecidableEq, Repr

/-- The section is placed in memory. -/
def Sect.alloc (x : Sect) : Bool := x.flags % 2 = 1
/-- Its memory type. -/
def Sect.mt (x : Sect) : Nat := x.flags / 16 % 4

/-- A section with its contents. -/
def pofSect (f : List Byte) (i : Nat) : Sect :=
  let h := pofHeader f i
  let size := leField h 24 8
  let zero := leField h 4 2 = 6 || natBit (leField h 6 2) 3
  { index := i, type := leField h 4 2, flags := leField h 6 2, addr := leField h 8 8, link := leField h 32 2, info := leField h 34 2
    bytes := if zero then zeroBytes size else (f.drop (leField h 16 8)).take size }

/-- The header check (R118): the offset of the first field that is refused. -/
def headerFault (f : List Byte) : Option Nat :=
  if leField f 0 4 ≠ 0x00464F50 then some 0
  else if leField f 4 2 ≠ 0x0100 then some 4
  else if leField f 6 1 ≠ 1 then some 6
  else if pofCount f < 2 then some 8
  else if f.length < leField f 16 8 + 48 * pofCount f then some 16
  else none

/-- The check of one section header (R119, R120): the offset in the header of the first field that is refused. -/
def sectionFault (f : List Byte) (i : Nat) : Option Nat :=
  let h := pofHeader f i
  let type := leField h 4 2
  let flags := leField h 6 2
  let size := leField h 24 8
  let empty := type = 6 || natBit flags 3
  if i = 0 && leNat h ≠ 0 then some 0
  else if i = 1 && type ≠ 1 then some 4
  else if 15 < type then some 4
  else if flags / 16 % 4 = 3 then some 6
  else if flags % 2 = 1 && (leField h 8 8 % 2 ^ leField h 36 1 ≠ 0 || windowBase < leField h 8 8 + size
      || (flags / 16 % 4 ≠ 0 && leField h 8 8 % 4096 ≠ 0)) then some 8
  else if !empty && f.length < leField h 16 8 + size then some 16
  else if 21 < leField h 36 1 then some 36
  else none

/-- Every section checked, the launch descriptor among them (R125). -/
def checkSections (f : List Byte) : Except LoadFault (List Sect) := do
  let is := List.range (pofCount f)
  match is.findSome? fun i => (sectionFault f i).map fun o => (i, o) with
  | some e => .error e
  | none =>
    let xs := is.map (pofSect f)
    match xs.filter fun x => x.type = 13 with
    | [l] =>
      loadNeed (leField l.bytes 0 4 = 0x48434E4C) (l.index, 0)
      loadNeed (leField l.bytes 4 2 = 0x0100) (l.index, 4)
      loadNeed (decide (1 ≤ leField l.bytes 6 1 ∧ leField l.bytes 6 1 ≤ 80)) (l.index, 6)
      loadNeed (decide (leField l.bytes 7 1 / 2 % 4 < 3)) (l.index, 7)
      loadNeed (decide (1 ≤ leField l.bytes 16 2 ∧ leField l.bytes 16 2 ≤ 64)) (l.index, 16)
      loadNeed (decide (leField l.bytes 18 2 ≤ 256)) (l.index, 18)
      .ok xs
    | x :: _ :: _ => .error (x.index, 0)
    | [] => .error (0, 0)

/-- The launch section. -/
def launchOf (xs : List Sect) : List Byte := ((xs.find? fun x => x.type = 13).map (·.bytes)).getD []

/-- NREC: the records to allot (R125). -/
def recordsToAllot (xs : List Sect) : Nat := leField (launchOf xs) 20 4
/-- NPLANE: the planes to configure (R125). -/
def planesToConfigure (xs : List Sect) : Nat := leField (launchOf xs) 24 2

/-! ### Relocations of the loader (R123) -/

/-- Entries of a size in the sections of a type that come before a section. -/
def entriesBefore (xs : List Sect) (type size sect : Nat) : Nat :=
  ((xs.filter fun x => x.type = type && x.index < sect).map fun x => x.bytes.length / size).sum

/-- The index of the entry that a symbol names among the entries of a type, over the image. VALUE of a record or plane symbol
is taken as an address in its section: R121 leaves open which of address, offset and handle it is
(notes/assumptions/103.md). -/
def entryOf (xs : List Sect) (type size : Nat) (sym : List Byte) : Option Nat :=
  match xs[leField sym 6 2]? with
  | some x =>
    let off := leField sym 8 8 - x.addr
    if x.type = type && decide (x.addr ≤ leField sym 8 8) && off % size = 0 && decide (off < x.bytes.length) then
      some (entriesBefore xs type size x.index + off / size)
    else none
  | none => none

/-- The granted core that a logical home code, 16 × grove + core, stands for (R109, R123). -/
def physicalHome (g : Grant) (v : Nat) : Option Nat := (g.groves[v / 16]?).map fun x => 16 * x + v % 16

/-- The bytes that a relocation of type 10, 11 or 12 writes, or none where it does not fit. The place of a HOME11 holds the
logical code (notes/assumptions/68.md). -/
def relocBytes (p : Part) (xs : List Sect) (type : Nat) (sym : List Byte) (addend : Int) (old : List Byte) : Option (List Byte) :=
  match type with
  | 10 => (physicalHome p.grant (leField old 0 2 % 2 ^ 11)).map fun h => leBytes 2 (leField old 0 2 / 2 ^ 11 * 2 ^ 11 + h % 2 ^ 11)
  | 11 => (entryOf xs 10 4 sym).bind fun i =>
    if i < recordsToAllot xs && p.allotted + i < 65536 then some (leBytes 2 (p.allotted + i)) else none
  | 12 => (entryOf xs 9 208 sym).bind fun i =>
    let v : Int := i + addend
    if 0 ≤ v && v < 2 ^ 32 then some (leBytes 4 v.toNat) else none
  | _ => none

/-- One relocation applied to the sections; the loader resolves types 10 to 12 only. -/
def applyReloc (p : Part) (r : Sect) (k : Nat) (xs : List Sect) : Except LoadFault (List Sect) :=
  let e := (r.bytes.drop (24 * k)).take 24
  let off := leField e 0 8
  let sym := (xs[r.info]?.map fun t => (t.bytes.drop (24 * leField e 8 4)).take 24).getD []
  match xs[r.link]? with
  | none => .error (r.index, 24 * k)
  | some t =>
    match relocBytes p xs (leField e 12 2) sym (signedOf 64 (leField e 16 8)) (t.bytes.drop off) with
    | some bs =>
      if off + bs.length ≤ t.bytes.length then .ok (xs.set r.link { t with bytes := patchBytes t.bytes off bs })
      else .error (r.index, 24 * k)
    | none => .error (r.index, 24 * k)

/-- Every relocation of some sections, in order. -/
def applyRelocs (p : Part) : List (Sect × Nat) → List Sect → Except LoadFault (List Sect)
  | [], xs => .ok xs
  | (r, k) :: rs, xs => do applyRelocs p rs (← applyReloc p r k xs)

/-- The relocations of an image. -/
def relocsOf (xs : List Sect) : List (Sect × Nat) :=
  (xs.filter fun x => x.type = 3).flatMap fun x => (List.range (x.bytes.length / 24)).map fun k => (x, k)

/-! ### Allotment (R110, R111, R294, R372) -/

/-- The entries of a type, each with its section, its offset there and its bytes. -/
def entriesOf (xs : List Sect) (type size : Nat) : List (Nat × Nat × List Byte) :=
  (xs.filter fun x => x.type = type).flatMap fun x =>
    (List.range (x.bytes.length / size)).map fun k => (x.index, size * k, (x.bytes.drop (size * k)).take size)

/-- A deck as the loader places it (R294): its core, its control block's offset, the first slot, and its entry. -/
structure PlacedDeck where
  core : Nat
  off : Nat
  base : Nat
  entry : List Byte
deriving DecidableEq, Repr

/-- Bytes of a deck's slots. -/
def deckSpace (e : List Byte) : Nat := 32 * 2 ^ leField e 0 1 * (leField e 1 1 + 1)

/-- The decks placed in declaration order, each core's from 0x8800 upward, as they were linked (R294). A core in which a launch
holds deck space has none to allot. -/
def placeDecks (p : Part) : List (Nat × Nat × List Byte) → Table Nat → Except LoadFault (List PlacedDeck)
  | [], _ => .ok []
  | (i, o, e) :: r, next => do
    let core := leField e 2 2 % 2048
    let off := (Table.find core next).getD 0x8800
    let base := (off + 32 + 31) / 32 * 32
    loadNeed (decide (leField e 0 1 ≤ 3)) (i, o)
    loadNeed (decide (1 ≤ leField e 1 1)) (i, o + 1)
    loadNeed (p.hasCore core) (i, o + 2)
    loadNeed (Table.find core p.deckEnd).isNone (i, o)
    loadNeed (decide (base + deckSpace e ≤ 0x20000)) (i, o)
    let ds ← placeDecks p r (Table.put core (base + deckSpace e) next)
    .ok ({ core := core, off := off, base := base, entry := e } :: ds)

/-- The array that a plane entry names. -/
def planeArray (e : List Byte) : Nat := 4 * (leField e 2 2 / 16) + leField e 1 1 % 4

/-- The planes: each on a granted array of its own, on which no launch has one, within its limits. -/
def checkPlanes (p : Part) : List (Nat × Nat × List Byte) → List Nat → Except LoadFault Unit
  | [], _ => .ok ()
  | (i, o, e) :: r, seen => do
    let a := planeArray e
    loadNeed (p.grant.groves.contains (a / 4)) (i, o + 2)
    match planeEntryFault a e with
    | some f => .error (i, o + f)
    | none =>
      loadNeed (!seen.contains a && !p.planed.contains a) (i, o + 1)
      checkPlanes p r (a :: seen)

/-- The pages that a section lies in. -/
def pagesOf (x : Sect) : List Nat :=
  if x.bytes.isEmpty then [] else (List.range ((x.addr + x.bytes.length - 1) / 4096 + 1 - x.addr / 4096)).map fun i => x.addr / 4096 + i

/-- A section that launches share: code, or read-only data, that stands in memory as the image gives it (R126). -/
def Sect.shared (p : Part) (s : State) (x : Sect) : Bool :=
  !natBit x.flags 1 && (x.type = 4 || x.type = 5) && partRead p.grant.part x.addr x.bytes.length s == x.bytes

/-- Every launch has pages of its own for what it does not share (R126): a section over those of a launch that has not ended
is refused. -/
def checkPages (p : Part) (s : State) (xs : List Sect) : Except LoadFault Unit :=
  match (xs.filter Sect.alloc).find? fun x => (pagesOf x).any p.pages.contains && !x.shared p s with
  | some x => .error (x.index, 0)
  | none => .ok ()

/-! ### Mapping pages (15 R316; notes/assumptions/18.md) -/

/-- A page-table entry written at its home. -/
def putPte (at_ e : Nat) (s : State) : State := homeWrite (homeWriter at_) 0 (bytesAt at_ (leBytes 8 e)) s

/-- A frame of a partition's memory that the monitor has kept, zeroed. -/
def takeFrame (part : Nat) (s : State) : Option (Nat × State) :=
  match s.part? part with
  | none => none
  | some p =>
    match p.spare.dropWhile fun r => decide (r.2 < 4096) with
    | [] => none
    | (a, n) :: r =>
      let inside (x : Nat) : Bool := decide (a ≤ x) && decide (x < a + 4096)
      some (a, { s.setPart part { p with spare := (a + 4096, n - 4096) :: r } with
        dram := Memory.clear s.dram a 4096, l2 := s.l2.filter fun x => !inside x.1, wt := s.wt.filter fun x => !inside x.1
        checks := s.checks.filter fun x => !inside (64 * x.1) })

/-- The leaf of a page above level 0 becomes a table of leaves one level down, which map the same frames. -/
def splitLeaf (e level frame : Nat) (s : State) : State :=
  (List.range 512).foldl (fun s j => putPte (frame + 8 * j) (e + j * 2 ^ (12 + 9 * level)) s) s

/-- The entries of a contiguous group become 16 pages of their own. -/
def splitGroup (table idx : Nat) (s : State) : State :=
  let base := idx / 16 * 16
  (List.range 16).foldl (fun s j =>
    let at_ := table + 8 * (base + j)
    putPte at_ (s.homeNat at_ 8 - 2 ^ 10 + j * 4096) s) s

/-- An entry of a table says nothing (09 R224, R225): it is absent or malformed, one of a contiguous group that does not agree,
or its pointer leaves the package's own DRAM. -/
def pteVoid (e level table idx : Nat) (s : State) : Bool :=
  !natBit e 0 || pteMalformed e level
    || (if natBit e 1 then natBit e 10 && !(ctGroupOk s table idx && fieldOf e 12 4 = 0)
        else !(s.ownPa (fieldOf e 12 40 * 4096) && paIsDram (fieldOf e 12 40 * 4096)))

/-- A page gets a leaf of its own at level 0, from a table at a level down: the address of the entry. Tables and pages that are
not there take frames, and a larger page is split. -/
def ownLeaf (part va : Nat) : Nat → Nat → State → Option (Nat × State)
  | level, table, s =>
    let idx := va / 2 ^ (12 + 9 * level) % 512
    let at_ := table + 8 * idx
    let e := s.homeNat at_ 8
    if pteVoid e level table idx s then
      match takeFrame part s, level with
      | none, _ => none
      | some (f, s), 0 => some (at_, putPte at_ (f + 3) s)
      | some (f, s), l + 1 => ownLeaf part va l f (putPte at_ (f + 1) s)
    else if natBit e 1 then
      match level with
      | 0 => some (at_, if natBit e 10 then splitGroup table idx s else s)
      | l + 1 =>
        match takeFrame part s with
        | none => none
        | some (f, s) => ownLeaf part va l f (putPte at_ (f + 1) (splitLeaf e l f s))
    else match level with
      | 0 => none
      | l + 1 => ownLeaf part va l (fieldOf e 12 40 * 4096) s

/-- The lines of a frame are written back, and no copy of them is left (09 R223). -/
def flushFrame (a : Nat) (s : State) : State :=
  (List.range 64).foldl (fun s i => let l := lineOf a + i; dropL1All l (dropReplicas l (writeBack l s))) s

/-- A page is mapped with a section's memory type, readable, and writable and executable as the section's flags say; the lines
of a page whose type changes are written back before (09 R223). -/
def mapPage (part root : Nat) (x : Sect) (n : Nat) (s : State) : Option State :=
  (ownLeaf part (4096 * n) 4 root s).map fun (at_, s) =>
    let e := s.homeNat at_ 8
    let s := if fieldOf e 8 2 = x.mt then s else flushFrame (fieldOf e 12 40 * 4096) s
    let e := e - fieldOf e 8 2 * 256 + x.mt * 256
    let e := if natBit x.flags 1 && natBit e 11 then e - 2 ^ 11 else e
    putPte at_ (e ||| 4 ||| (if natBit x.flags 1 then 8 else 0) ||| (if natBit x.flags 2 then 16 else 0)) s

/-- No TLB holds an entry of a partition (09 R215). -/
def clearTlbs (part : Nat) (s : State) : State := { s with tlb := s.tlb.map fun p => (p.1, p.2.filter fun e => e.part ≠ part) }

/-- Pages mapped, one after the other. -/
def mapPages (part root : Nat) (x : Sect) : List Nat → State → Option State
  | [], s => some s
  | n :: ns, s => (mapPage part root x n s).bind (mapPages part root x ns)

/-- Every page of the sections that are placed is mapped; where the memory kept for pages does not suffice, the section. -/
def mapSections (p : Part) : List Sect → State → Except LoadFault State
  | [], s => .ok s
  | x :: xs, s =>
    if x.alloc then
      match mapPages p.grant.part p.grant.ptroot x (pagesOf x) s with
      | some s => mapSections p xs s
      | none => .error (x.index, 0)
    else mapSections p xs s

/-- The records of the image as R17 sees them. -/
def checkRecords (s : State) (p : Part) : List (Nat × Nat × List Byte) → Except LoadFault Unit
  | [] => .ok ()
  | (i, o, e) :: r =>
    match readRecord (s.granted p.grant.part) p.grant.part (some 0) 0 e with
    | .error f => .error (i, o + f)
    | .ok _ => checkRecords s p r

/-- Every check of the loader, in the order of R128; the sections with their relocations done, and the decks. A fault of the
header, and a missing LAUNCH section, are reported under section 0 (notes/assumptions/123.md). -/
def checkImage (s : State) (p : Part) (f : List Byte) : Except LoadFault (List Sect × List PlacedDeck) := do
  match headerFault f with
  | some o => .error (0, o)
  | none =>
    let xs ← checkSections f
    let xs ← applyRelocs p (relocsOf xs) xs
    let l := launchOf xs
    loadNeed (decide (leField l 6 1 ≤ p.grant.groves.length)) (((xs.find? fun x => x.type = 13).map (·.index)).getD 0, 6)
    loadNeed (decide (p.allotted + recordsToAllot xs ≤ p.grant.recN)) (((xs.find? fun x => x.type = 13).map (·.index)).getD 0, 20)
    checkPlanes p ((entriesOf xs 9 208).take (planesToConfigure xs)) []
    let ds ← placeDecks p (entriesOf xs 8 16) []
    checkPages p s xs
    let _ ← mapSections p xs s
    checkRecords s p (entriesOf xs 7 64)
    .ok (xs, ds)

/-! ### Writing and launching (R126) -/

/-- A section's bytes are written, as the launch's release at .sys leaves them (R126); a NOTE with ALLOC too
(notes/assumptions/124.md). -/
def writeSection (p : Part) (s : State) (x : Sect) : State := if x.alloc then partRelease p.grant.part x.addr x.bytes s else s

/-- Where the overflow area of a deck stands: those of a core beside each other, in the memory that the grant gives them, each
with room for the 32 flits that a route can have on its way (08 R205), since a deck and its control block take 96 bytes or more
(notes/assumptions/104.md). -/
def overflowArea (p : Part) (d : PlacedDeck) : Nat :=
  p.grant.overflow + 0x200000 * (p.grant.groves.flatMap coresOfGrove).idxOf d.core + 16 * d.off

/-- A deck's control block is built, with its overflow area (08 R189), and its space reserved. -/
def buildDeck (p : Part) (s : State) (d : PlacedDeck) : State :=
  let c := s.core d.core
  let bs := leBytes 3 d.base ++ leBytes 1 (leField d.entry 0 1) ++ leBytes 1 (leField d.entry 1 1) ++ zeroBytes 11
    ++ leBytes 8 (overflowArea p d) ++ zeroBytes 8
  (s.setCore d.core { c with ls := c.ls.writeN d.off bs, cbs := (d.off :: c.cbs).eraseDups }).onPart p.grant.part fun q =>
    { q with deckEnd := Table.put d.core (d.base + deckSpace d.entry) q.deckEnd }

/-- Some record entries are set up as by STATA, in the order of their handles, and n handles are allotted (19 R372). -/
def buildRecords (p : Part) (n : Nat) (es : List (Nat × Nat × List Byte)) (s : State) : State :=
  let s := es.zipIdx.foldl (fun s x =>
    let h := p.allotted + x.2
    recordWrite p h (clearedRecord h (leField x.1.2.2 0 1) (leField x.1.2.2 1 1) (leField (recordRead p h s) 4 4)) s) s
  s.onPart p.grant.part fun q => { q with allotted := p.allotted + n }

/-- The name of the symbol that supplies a trap handler (10 R241), with its final zero. -/
def trapvecName : List Byte := [95, 95, 116, 114, 97, 112, 118, 101, 99, 0]

/-- The value of the image's own trap vector, if it has one: a global code symbol of that name. -/
def trapvecOf (xs : List Sect) : Option Nat :=
  let names := ((xs[1]?).map (·.bytes)).getD []
  ((xs.filter fun x => x.type = 2).flatMap fun x =>
    (List.range (x.bytes.length / 24)).map fun k => (x.bytes.drop (24 * k)).take 24).findSome? fun y =>
      if leField y 4 1 = 1 && leField y 5 1 = 1 && ((names.drop (leField y 0 4)).take 10 == trapvecName) then some (leField y 8 8)
      else none

/-- Every core of the granted groves changed. -/
def onGranted (p : Part) (f : Core → Core) (s : State) : State :=
  (p.grant.groves.flatMap coresOfGrove).foldl (fun s c => s.setCore c (f (s.core c))) s

/-- The CGF digest that an image carries, or 0 (R127). -/
def cgfDigest (xs : List Sect) : List Byte :=
  match xs[leField (launchOf xs) 48 4]? with
  | some x => if x.type = 14 then padTo 64 x.bytes else zeroBytes 64
  | none => zeroBytes 64

/-- Offset of DIGEST in the save-area header (18 R365). -/
def hdrDigest : Nat := 40

/-- The partition that a message belongs to; an update belongs to none. -/
def msgPart (s : State) (e : Envelope) : Option Nat :=
  let ofCore (c : Nat) : Option Nat := (s.partOfCore c).map (·.grant.part)
  match e.body with
  | .decr p .. | .statistics p .. => some p
  | .ready c _ | .openFlit c .. | .flit c .. | .closeFlit c .. | .migrate c .. => ofCore c
  | .reward a _ => (s.grove (groveOfArray a)).owner
  | .token _ _ _ _ t _ => (s.thread? t).map (·.task.part)
  | .pulse g _ => (s.grove g).owner
  | .packet _ _ pkg p _ _ _ => if pkg = s.pkg then some p else none
  | .update .. => none

/-- The messages of a partition. -/
def partMsgs (part : Nat) (s : State) : List Envelope := s.msgs.filter fun e => msgPart s e == some part

/-- No engine or array has anything of a partition to do. -/
def unitsIdle (p : Part) (s : State) : Bool :=
  let part := p.grant.part
  p.grant.groves.all (fun g => (s.grove g).copies.isEmpty && (List.range 4).all fun q =>
      let x := s.array (4 * g + q)
      x.aq.isEmpty && x.pq.isEmpty && x.rq.isEmpty && x.held.isEmpty && x.running.isNone)
    && s.stands.all fun n => !(n.2.walkq.any fun c => c.part == part) && !(n.2.bre.any fun j => j.2.part == part && decide (j.2.state < 2))

/-- A partition has no thread, store, task, command, message or packet: its launches have ended. -/
def launchesEnded (p : Part) (s : State) : Bool :=
  let part := p.grant.part
  !(s.all.any fun t => t.task.part = part && (!t.isEnded || !t.sq.isEmpty)) && unitsIdle p s && (partMsgs part s).isEmpty
    && p.far.isEmpty && p.waits.isEmpty && p.replays.isEmpty && p.roots.isEmpty
    && p.landing.all (·.packets.isEmpty)
    && (p.grant.groves.flatMap coresOfGrove).all (fun c =>
      let x := s.core c
      x.runq.isEmpty && x.spill.isEmpty && x.inbound.isEmpty && x.tasks.isEmpty)

/-- What earlier launches have been allotted in cores, arrays and pages is free again once they have ended; handles stay
allotted (notes/assumptions/105.md). -/
def freeLaunches (s : State) (p : Part) : Part := if launchesEnded p s then { p with deckEnd := [], planed := [], pages := [] } else p

/-- Between steps 3 and 4, the image's own trap handler, or the one of the partition system image (10 R241). -/
def setHandlers (p : Part) (h : Option Nat) (s : State) : State :=
  match h with
  | some v => onGranted p (fun c => { c with tvec := BitVec.ofNat 64 v &&& ~~~1, tvecBase := some (c.tvecBase.getD c.tvec) }) s
  | none => onGranted p (fun c => if c.tvecBase.isSome then { c with tvec := c.tvecSys } else c) s

/-- The caches of the granted cores as a launch leaves them: no instruction of it has been fetched (R126); L1s that are fused
hold nothing (09 R215, R218). L2 has the ways that FLAGS asks for. -/
def setCaches (p : Part) (flags : Nat) (s : State) : State :=
  p.grant.groves.foldl (fun s g =>
    let fused := (s.grove g).fused || natBit flags 0
    let s := (coresOfGrove g).foldl (fun s c => s.setCore c { s.core c with icache := [], l1 := if fused then [] else (s.core c).l1 }) s
    let s := s.setGrove g { s.grove g with fused := fused }
    writeL2wp g (BitVec.ofNat 64 ((s.grove g).spbase.toNat * 2 ^ 23 + flags / 2 % 4)) s) s

/-- A checked image is written, configured and launched (R126). -/
def launchImage (p : Part) (seed : Nat) (xs : List Sect) (ds : List PlacedDeck) (s : State) : State :=
  let part := p.grant.part
  let l := launchOf xs
  let s := s.onPart part fun q => { q with deckEnd := p.deckEnd, planed := p.planed, pages := p.pages }
  let s := if p.deckEnd.isEmpty then onGranted p (fun c => { c with cbs := [] }) s else s
  let s := match mapSections p xs s with
    | .ok s => clearTlbs part s
    | .error _ => s
  let s := xs.foldl (writeSection p) s
  let s := setHandlers p (trapvecOf xs) (ds.foldl (buildDeck p) s)
  let planes := (entriesOf xs 9 208).take (planesToConfigure xs)
  let s := planes.foldl (fun s e => let a := planeArray e.2.2; s.setArray a (configurePlane e.2.2 (s.array a))) s
  let s := buildRecords p (recordsToAllot xs) ((entriesOf xs 10 4).take (recordsToAllot xs)) s
  let seed := if leField l 8 8 = 0 then seed else leField l 8 8
  let s := onGranted p (fun c => { c with jseedm := BitVec.ofNat 64 seed }) s
  let s := partRelease part (s.saveArea p + hdrDigest) (cgfDigest xs) (setCaches p (leField l 7 1) s)
  let roots := partRead part (leField l 40 8) (8 * leField l 16 2) s
  let s := usePart .hardware part (leField l 40 8) (8 * leField l 16 2) s
  let s := s.onPart part fun q => { q with
    grant := { q.grant with jseed := seed }, digests := cgfDigest xs :: q.digests
    planed := planes.map (fun e => planeArray e.2.2) ++ q.planed
    pages := (xs.filter Sect.alloc).flatMap pagesOf ++ q.pages
    roots := q.roots ++ (List.range (leField l 16 2)).map fun k => leField roots (8 * k) 8 }
  submitRoots part 64 s

/-! ### LOAD_IMAGE (20 R379, R381) -/

/-- The partition that a mailbox command names. -/
def mailPart (s : State) : Nat :=
  match s.arg.load, s.arg.grant with
  | some r, _ => r.part
  | none, some g => g.part
  | none, none => s.arg.a

/-- The head of a mailbox slot (R379): CODE, partition and sequence number. -/
def slotHead (code : Nat) (s : State) : List Byte := leBytes 1 code ++ leBytes 1 (mailPart s) ++ leBytes 2 s.arg.seq

/-- The answer to a mailbox command (R379): 0 done, 1 refused, 2 verification failure, 3 busy. The command stood in its slot, the
doorbell took the slot's index, and the response goes to the same slot of its ring; what stands in a slot beside the fields
of R379, the manual does not lay out (notes/assumptions/106.md). -/
def respond (code result : Nat) (bytes : List Byte) (s : State) : State :=
  let at_ := 256 * (s.arg.slot % 16)
  let cmd := padTo 256 (slotHead code s ++ leBytes 8 s.arg.b ++ s.arg.bytes)
  let resp := padTo 256 (slotHead code s ++ leBytes 1 result ++ bytes)
  { s with
    mail := { commands := s.mail.commands.writeN at_ cmd, responses := s.mail.responses.writeN at_ resp, doorbell := s.arg.slot % 16 }
    response := { code := code, result := result, bytes := bytes } }

/-- The monitor serves the mailbox once the package has booted (R381). -/
def mailbox (s : State) (go : State → State) : Outcome := if s.booted = 5 then .next (go s) else .next s

/-- A digest as bytes. -/
def digestBytes (d : BitVec 512) : List Byte := leBytes 64 d.toNat

/-- A verified image extends the measurement chain (R381). -/
def measureImage (d : BitVec 512) (s : State) : State :=
  { s with measure := Config.sha3 (digestBytes s.measure ++ digestBytes d) }

/-- LOAD_IMAGE (R126, R381): the request is verified against the owner's key, checked, and launched; a refusal names the
section and the offset (R128). -/
def execLoadImage (s : State) : Outcome :=
  mailbox s fun s =>
    match s.arg.load with
    | none => respond 2 1 [] s
    | some r =>
      match s.part? r.part with
      | none => respond 2 1 [] s
      | some p =>
        let d := Config.sha3 r.pof
        if p.halt ≠ .running then respond 2 3 [] s
        else if !Config.verifies d r.signature p.grant.ownerKey then respond 2 2 [] s
        else
          let s := measureImage d s
          let p := freeLaunches s p
          match checkImage s p r.pof with
          | .error (i, o) => respond 2 1 (leBytes 4 i ++ leBytes 8 o) s
          | .ok (xs, ds) => respond 2 0 [] (launchImage p r.seed xs ds (s.onPart r.part fun q => { q with imageDigest := d }))

end Sys2Proof.Machine
end

