-- ==== Sys2Proof/Machine/Walkers.lean ====
section
/-!
DEFINITION. The walkers of a stand (14 R296-R309): reading command blocks, gathering and pooling, adding rows, and
optimiser updates. A step of a walker is about stand a and command b.
-/
namespace Sys2Proof.Machine

open Sys2Proof

/-! ### Command blocks (R296, R303, R305, R306) -/

/-- A field of the descriptors and the body that were read. -/
def NearCmd.f (c : NearCmd) (lo n : Nat) : Nat := leField c.bytes lo n
/-- A walker as a party to accesses: it has no window and no scratchpad. -/
def NearCmd.who (c : NearCmd) : Who := { part := c.part, core := none, grove := none, priv := c.priv }
/-- NREC of an NWALK block. -/
def NearCmd.records (c : NearCmd) : Nat := c.f 64 2
/-- NIDX of an NADD or NUPD block. -/
def NearCmd.entries (c : NearCmd) : Nat := if c.kind = 1 then c.f 88 2 else c.f 96 2
/-- RLEN of an NADD or NUPD block. -/
def NearCmd.rowLen (c : NearCmd) : Nat := if c.kind = 1 then c.f 90 2 else c.f 98 2
/-- Records or entries in all. -/
def NearCmd.items (c : NearCmd) : Nat := if c.kind = 0 then c.records else c.entries

/-- Descriptor r has no reserved bit, and a declared region a length. -/
def NearCmd.descOk (c : NearCmd) (r : Nat) : Bool :=
  let kind := c.f (16 * r + 15) 1
  decide (kind < 4) && (kind % 2 = 0 || c.f (16 * r + 8) 7 ≠ 0)

/-- Reserved bits are 0 and fields in their ranges, in the descriptors and the body. -/
def NearCmd.blockOk (c : NearCmd) : Bool :=
  (List.range 4).all c.descOk
    && (if c.kind = 0 then decide (1 ≤ c.records ∧ c.records ≤ 256) && c.f 66 62 = 0
        else
          decide (1 ≤ c.rowLen ∧ c.rowLen ≤ 1024)
            && (if c.kind = 1 then c.f 72 8 % 4 = 0 && c.f 80 8 % 4 = 0 && c.f 92 36 = 0
                else c.f 88 8 % 64 = 0 && c.f 100 28 = 0))

/-- The region of descriptor r, if it is declared; a base in the window names a span of the issuing core's local store. -/
def NearCmd.region (c : NearCmd) (r : Nat) : Option Region :=
  let base := c.f (16 * r) 8
  let kind := c.f (16 * r + 15) 1
  if kind % 2 = 0 then none
  else if windowBase ≤ base ∧ base < 2 ^ 57 then
    some { core := some c.core, base := base - windowBase, len := c.f (16 * r + 8) 7, write := kind / 2 % 2 = 1 }
  else some { core := none, base := base, len := c.f (16 * r + 8) 7, write := kind / 2 % 2 = 1 }

/-! ### The records of NWALK (R303) -/

/-- A record of an NWALK block as read (R303). -/
structure WalkRecord where
  bytes : List Byte

/-- A field of a record. -/
def WalkRecord.f (r : WalkRecord) (lo n : Nat) : Nat := leField r.bytes lo n
/-- POOL -/
def WalkRecord.pool (r : WalkRecord) : Nat := r.f 30 1 % 4
/-- FMT: BF16 rows -/
def WalkRecord.bf16 (r : WalkRecord) : Bool := natBit (r.f 30 1) 2
/-- Bytes of an element of a row. -/
def WalkRecord.elemBytes (r : WalkRecord) : Nat := if r.bf16 then 2 else 4
/-- DDK -/
def WalkRecord.toDeck (r : WalkRecord) : Bool := natBit (r.f 30 1) 3
/-- STAT -/
def WalkRecord.stat (r : WalkRecord) : Bool := natBit (r.f 30 1) 4
/-- RLEN -/
def WalkRecord.len (r : WalkRecord) : Nat := r.f 26 2

/-- The record's fields are in their ranges, and its reserved bits 0: R296 names the descriptors and the body, and a record is
read as they are (notes/assumptions/64.md). -/
def WalkRecord.ok (r : WalkRecord) : Bool :=
  r.f 0 8 % 4 = 0 && (r.toDeck || r.f 16 8 % 4 = 0) && decide (1 ≤ r.len ∧ r.len ≤ 1024) && decide (r.f 30 1 < 32) && r.f 31 1 = 0

/-- Slots of a deck that the record's row fills. -/
def WalkRecord.slots (r : WalkRecord) (d : Deck) : Nat := (r.len * 4 + d.size - 1) / d.size

/-- Record i of the block that was read. -/
def NearCmd.record (c : NearCmd) (i : Nat) : WalkRecord := ⟨(c.bytes.drop (128 + 32 * i)).take 32⟩

/-- The deck that a record names has slots for its row. -/
def NearCmd.deckFits (c : NearCmd) (r : WalkRecord) (s : State) : Bool :=
  !r.toDeck || (match deckOfAddr c.core (r.f 16 8) s with
    | some d => decide (r.slots d ≤ d.n)
    | none => false)

/-- The first record of the block with a bad field (R296), and the address that shows it. -/
def NearCmd.badRecord (c : NearCmd) (s : State) : Option (Nat × Nat) :=
  (List.range c.records).findSome? fun i =>
    let r := c.record i
    if !r.ok then some (i, (c.block.toNat + 128 + 32 * i) % 2 ^ 64)
    else if !c.deckFits r s then some (i, r.f 16 8)
    else none

/-! ### The queue -/

/-- A stand's walker commands changed. -/
def onWalkq (stand : Nat) (f : List NearCmd → List NearCmd) (s : State) : State :=
  let x := s.stand stand
  s.setStand stand { x with walkq := f x.walkq }

/-- A command as the writer of its results, for its thread. -/
def NearCmd.writer (c : NearCmd) : Writer := { stand := standOfCore c.core, tid := c.tid }

/-- A command replaced by its later state. -/
def putNear (c : NearCmd) (s : State) : State :=
  onWalkq (standOfCore c.core) (fun cs => cs.map fun x => if x.id = c.id then c else x) s

/-- A command as log entries name it; the walker that performs a row is the row's, else one of the issuing stand. -/
def NearCmd.entry (c : NearCmd) (cause stand walker : Nat) : LogEntry :=
  { cause := cause, unit := unitCode 4 stand 0 walker, issuer := 4 * c.core + c.slot, ttag := c.ttag, pc := c.pc
    word := c.word }

/-- A failure of a command: the access's, with the physical address of the row at work once it is known. -/
abbrev WalkFault := NearFault × Option Nat

/-- An access for the row at a physical address. -/
def atRow {α : Type} (row : Option Nat) (r : Except NearFault α) : Except WalkFault α :=
  match r with
  | .ok x => .ok x
  | .error f => .error (f, row)

/-- A command ends in failure at its faulting granule (R302): the record now, the completion signals after. -/
def failNear (c : NearCmd) (e : WalkFault) : State :=
  let ((reason, addr, s), row) := e
  let (st, wk) := match row with
    | some pa => (paStand pa, paWalker pa)
    | none => (standOfCore c.core, s.freeBelow 64)
  let tag := if completionTagged c.completion then completionTag c.completion else 0
  let e := { c.entry 0x0E st wk with
    reason := reason, addr := BitVec.ofNat 64 addr, value := c.block
    extra := BitVec.ofNat 64 (tag + c.granule % 2 ^ 32 * 2 ^ 8 + c.pos % 2 ^ 24 * 2 ^ 40) }
  putNear { c with state := .moved, failed := some (reason, BitVec.ofNat 64 addr, st, wk) } (s.draw.logAsync c.part e)

/-! ### Starting (R296, R307, 02 R49) -/

/-- The walker reads and checks the block, the records of NWALK with it: before any data moves (R296). -/
def readNear (c : NearCmd) (s : State) : State :=
  match nearRead c.who none c.block.toNat 128 s with
  | .error e => failNear c (e, none)
  | .ok (bs, s) =>
    let c := { c with bytes := bs }
    if !c.blockOk then failNear c ((3, c.block.toNat, s), none)
    else
      let done (c : NearCmd) (s : State) : State := putNear { c with regions := (List.range 4).filterMap c.region } s
      if c.kind ≠ 0 then done c s
      else match nearRead c.who none ((c.block.toNat + 128) % 2 ^ 64) (32 * c.records) s with
        | .error e => failNear c (e, none)
        | .ok (rs, s) =>
          let c := { c with bytes := bs ++ rs }
          match c.badRecord s with
          | some (i, a) => failNear { c with pos := i } ((3, a, s), none)
          | none => done c s

/-- A field of the tensor parameter block. -/
def NearCmd.p (c : NearCmd) (lo n : Nat) : Nat := leField c.params lo n
/-- KIND of the parameter block: 0 SGD, 1 momentum, 2 RMS. -/
def NearCmd.rule (c : NearCmd) : Nat := c.p 0 4
/-- Entries of a row block. -/
def NearCmd.blockRows (c : NearCmd) : Nat := c.p 20 2

/-- GCLIP of the parameter block. -/
def NearCmd.gclip (c : NearCmd) : Bool := natBit (c.p 22 1) 0

/-- The parameter block's fields are in their ranges (R306); its reserved bits are ignored (00 R2). -/
def NearCmd.paramsOk (c : NearCmd) : Bool :=
  let clip := decodeNum .f32 (c.p 16 4)
  decide (c.rule ≤ 2) && !clip.isNan && decide (0 < clip.cmp (Num.zero false)) && decide (1 ≤ c.blockRows ∧ c.blockRows ≤ 256)

/-- The leaf that maps an address has PR set (R308). -/
def leafPrivileged (part va : Nat) (s : State) : Bool :=
  match (s.part? part).map fun p => walkFrom s va 4 p.grant.ptroot with
  | some (.ok (e, _, _)) => natBit e 5
  | _ => false

/-- VNR.NORM as DRAM holds it (R308, 11 R257). -/
def readNorm (part : Nat) (s : State) : BitVec 32 :=
  match s.part? part with
  | none => 0
  | some p =>
    match resolveSpan (hwWho part) .hardware 2 (s.saveArea p + hdrVnr) 4 s with
    | .ok (sp, s) => BitVec.ofNat 32 (leNat (readDram (spanLocs sp) s).1)
    | .error _ => 0

/-- NUPD reads its parameter block and, with GCLIP, the norm (R307, R308). -/
def readParams (c : NearCmd) (s : State) : State :=
  match nearRead c.who (some c.regions) (c.f 88 8) 64 s with
  | .error e => failNear c (e, none)
  | .ok (bs, s) =>
    let c := { c with params := bs }
    if !c.paramsOk || (c.gclip && !leafPrivileged c.part (c.f 88 8) s) then failNear c ((3, c.f 88 8, s), none)
    else
      let norm := if c.gclip then readNorm c.part s else 0
      putNear { c with norm := norm, state := if c.items = 0 then .moved else .running } s

/-- A running command stands at the boundary of a split granule. -/
def NearCmd.atBoundary (c : NearCmd) : Bool := (granuleBytes c.gran).isSome && c.moved = 0 && c.held.isNone

/-- Commands that a stand's walkers run at once: 1 to 4 each (20 R384). -/
def walkersAtOnce (x : Stand) : Nat := ((List.range 64).map fun n => (Table.find n x.walkers).getD 1).sum

/-- A command that may start now. -/
def nearStartable (s : State) (c : NearCmd) : Bool :=
  c.state == .queued && !c.bytes.isEmpty && footprintClear s (standOfCore c.core) c.part c.reg c.regions

/-- The command that is served first. -/
def firstNear (cs : List NearCmd) : Option NearCmd :=
  cs.foldl (fun b c => match b with
    | none => some c
    | some d => if d.pri < c.pri then some c else some d) none

/-- Running commands that a command of a priority does not interrupt. -/
def runningOver (cs : List NearCmd) (pri : Nat) : Nat :=
  (cs.filter fun d => d.state == .running && !(decide (d.pri < pri) && d.atBoundary)).length

/-- A command starts: the lines of its written regions are purged first (11 R257). -/
def startNear (c : NearCmd) (s : State) : State :=
  let s := purge c.part c.regions s
  if c.kind = 2 then readParams c s
  else putNear { c with state := if c.items = 0 then .moved else .running } s

/-- WALKER_COMMAND_START (R296, R301): command b of stand a has its block read, or starts. -/
def execWalkerCommandStart (s : State) : Outcome :=
  let x := s.stand s.arg.a
  match x.walkq.find? fun c => c.id == s.arg.b with
  | none => .next s
  | some c =>
    if c.state != .queued then .next s
    else if c.bytes.isEmpty then (if performedBefore s c.tid c.id 5 then .next (readNear c s) else .next s)
    else
      let first := ((firstNear (x.walkq.filter (nearStartable s))).map (·.id)) == some c.id
      if first && decide (runningOver x.walkq c.pri < walkersAtOnce x) then .next (startNear c s) else .next s

/-! ### Gathering and pooling (R303, R304) -/

/-- The physical address of a row's first byte, once it translates to memory of the package. -/
def rowPa (c : NearCmd) (va : Nat) (s : State) : Option Nat :=
  match resolve c.who .hardware va s with
  | .ok (.pa a _, s) => if s.ownPa a then some a else none
  | _ => none

/-- The table rows that indices name, as bytes. -/
def walkRows (c : NearCmd) (base size : Nat) : List Nat → State → Except WalkFault (List (List Byte) × State)
  | [], s => .ok ([], s)
  | i :: is, s => do
    let va := (base + i * size) % 2 ^ 64
    let (bs, s) ← atRow (rowPa c va s) (nearRead c.who (some c.regions) va size s)
    let (r, s) ← walkRows c base size is s
    .ok (bs :: r, s)

/-- One element of the pooled row: of the elements of the rows in list order, with the weights for a weighted sum
(R303). -/
def poolElem (pool : Nat) (ws xs : List Nat) : Nat × Flags :=
  let go (step : Nat → Nat × Nat → Nat × Flags) (init : Nat × Flags) (r : List (Nat × Nat)) : Nat × Flags :=
    r.foldl (fun a x => let (y, f) := step a.1 x; (y, a.2 ||| f)) init
  match xs.zip (ws ++ List.replicate xs.length 0) with
  | [] => (if pool = 2 then infBits .f32 true else 0, 0)
  | (x, w) :: r =>
    match pool with
    | 0 => go (fun a y => rneAdd a y.1) (x, 0) r
    | 1 =>
      let (a, f) := go (fun a y => rneAdd a y.1) (x, 0) r
      let (q, f') := rneDiv a (roundNum .f32 .rne 0 (Num.ofInt xs.length)).1
      (q, f ||| f')
    | 2 => go (fun a y => minMaxBits true .f32 a y.1) (x, 0) r
    | _ => go (fun a y => rneFma a y.2 y.1) (rneMul w x) r

/-- The deck of a record, with room for its row in its slots, and declared as a written region. -/
def walkDeck (c : NearCmd) (r : WalkRecord) (s : State) : Except WalkFault Deck :=
  match deckOfAddr c.core (r.f 16 8) s with
  | none => .error ((3, r.f 16 8, s), none)
  | some d =>
    if d.n < r.slots d then .error ((3, r.f 16 8, s), none)
    else match insideRegions c.regions (some c.core) true d.base (d.n * d.size) with
      | some o => .error ((1, windowBase + o, s), none)
      | none => .ok d

/-- An element of a row as it is read: a BF16 one widened exactly (03 R57). -/
def rowElem (bf16 : Bool) (bs : List Byte) (e : Nat) : Nat × Flags :=
  if bf16 then roundNum .f32 .rne 0 (decodeNum .bf16 (leField bs (2 * e) 2)) else (leField bs (4 * e) 4, 0)

/-- Element e of the pooled row of a record's rows, with the flags. -/
def poolRows (r : WalkRecord) (ws : List Nat) (rows : List (List Byte)) (e : Nat) : Nat × Flags :=
  let xs := rows.map fun bs => rowElem r.bf16 bs e
  let p := poolElem r.pool ws (xs.map (·.1))
  (p.1, xs.foldl (fun f x => f ||| x.2) p.2)

/-- The pooled row of a record, as elements, with its flags. -/
def poolRecord (c : NearCmd) (r : WalkRecord) (s : State) : Except WalkFault ((List Nat × Flags) × State) := do
  let n := r.f 24 2
  let pair := if r.pool = 3 then 8 else 4
  let (ib, s) ← atRow none (nearRead c.who (some c.regions) (r.f 0 8) (pair * n) s)
  let idx := (List.range n).map fun j => leField ib (pair * j) 4
  let ws := if r.pool = 3 then (List.range n).map fun j => leField ib (8 * j + 4) 4 else []
  let (rows, s) ← walkRows c (r.f 8 8) (r.len * r.elemBytes) idx s
  let out := (List.range r.len).map fun e => poolRows r ws rows e
  .ok ((out.map (·.1), out.foldl (fun f o => f ||| o.2) 0), s)

/-- An item is done after n more bytes: the granule counts where it is whole, and the last item ends the data (R299). -/
def NearCmd.did (c : NearCmd) (n : Nat) : NearCmd :=
  let m := c.moved + n
  let whole := match granuleBytes c.gran with
    | some g => decide (g ≤ m)
    | none => false
  let done := decide (c.items ≤ c.pos + 1)
  { c with
    pos := c.pos + 1, moved := if whole then 0 else m, granule := if whole || done then c.granule + 1 else c.granule, obuf := []
    state := if done then .moved else .running }

/-- A record's row is out: its statistics partial goes to the record (R303). -/
def recordDone (c : NearCmd) (r : WalkRecord) (out : List Byte) (moved : Nat) (s : State) : State :=
  let s := if r.stat then
      arrivePartial c.part (r.f 28 2) (Partial.ofNums ((bytesToElems .f32 out).map (decodeNum .f32)))
        (c.entry 0x1F (standOfCore c.core) 0) s
    else s
  putNear (c.did moved) s

/-- The running record's row goes to its deck once the slots are free (R304). -/
def publishRow (c : NearCmd) (r : WalkRecord) (d : Deck) (moved : Nat) (s : State) : State :=
  let k := r.slots d
  if (unitDeck true d.core d.off s).room < k then putNear c s
  else
    let bytes := c.obuf ++ zeroBytes (k * d.size - c.obuf.length)
    let place (i : Nat) : Loc := .ls d.core (deckByte d false i)
    let s := nearStore c.writer ((List.range bytes.length).map place) bytes s
    recordDone c r c.obuf moved (deckStore (deckPublish k (deckAt d.core d.off s)) s)

/-- One record of NWALK, or the wait for its deck. -/
def walkRecord (c : NearCmd) (s : State) : Except WalkFault State := do
  let r := c.record c.pos
  let moved := r.f 24 2 * r.len * r.elemBytes + 4 * r.len
  if !c.obuf.isEmpty then
    let d ← walkDeck c r s
    .ok (publishRow c r d moved s)
  else
    let ((xs, fl), s) ← poolRecord c r s
    let out := xs.flatMap (leBytes 4)
    if r.toDeck then
      let d ← walkDeck c r s
      .ok (publishRow { c with obuf := out } r d moved (s.orAew c.writer c.part fl))
    else
      let dst := r.f 16 8
      let (ls, s) ← atRow (rowPa c dst s) (nearPlaces c.who (some c.regions) .write dst out.length s)
      .ok (recordDone c r out moved (nearStore c.writer ls out (s.orAew c.writer c.part fl)))

/-! ### Rows in M memory (R305, R307) -/

/-- A row that is read and written, in M memory: its places and bytes. -/
def mRow (c : NearCmd) (va n : Nat) (s : State) : Except WalkFault ((List Loc × List Byte) × State) := do
  let row := rowPa c va s
  let (ls, s) ← atRow row (nearPlaces c.who (some c.regions) .readWrite va n s)
  let other (l : Loc) : Bool := match l with
    | .pa _ mt => mt ≠ 2
    | _ => true
  match ls.findIdx? other with
  | some i => .error ((4, va + i, s), row)
  | none =>
    let (bs, s) ← atRow row (nearBytes va ls s)
    .ok ((ls, bs), s)

/-- FP32 elements of bytes. -/
def f32s (bs : List Byte) : List Nat := bytesToElems .f32 bs

/-- Results with their flags as bytes, and the flags together. -/
def f32Bytes (xs : List (Nat × Flags)) : List Byte × Flags :=
  (xs.flatMap fun x => leBytes 4 x.1, xs.foldl (fun f x => f ||| x.2) 0)

/-- The index of the running entry. -/
def entryIndex (c : NearCmd) (s : State) : Except WalkFault (Nat × State) := do
  let (ib, s) ← atRow none (nearRead c.who (some c.regions) ((c.f 72 8 + 4 * c.pos) % 2 ^ 64) 4 s)
  .ok (leNat ib, s)

/-- One entry of NADD (R305): the row's elements take the source row's. -/
def addEntry (c : NearCmd) (s : State) : Except WalkFault State := do
  let size := 4 * c.rowLen
  let (i, s) ← entryIndex c s
  let va := (c.f 64 8 + i * size) % 2 ^ 64
  let row := rowPa c va s
  let ((ls, old), s) ← mRow c va size s
  let (src, s) ← atRow row (nearRead c.who (some c.regions) ((c.f 80 8 + c.pos * size) % 2 ^ 64) size s)
  let (out, fl) := f32Bytes ((f32s old).zip (f32s src) |>.map fun x => rneAdd x.1 x.2)
  .ok (putNear (c.did (2 * size)) ((nearStore c.writer ls out s).orAew c.writer c.part fl))

/-- The clip factor of a row block from its gradient elements, or from the global norm (R307). -/
def clipFactor (c : NearCmd) (gs : List Nat) : Nat × Flags :=
  let (n, f) :=
    if c.gclip then (c.norm.toNat, (0 : Flags))
    else
      let (q, f) := gs.foldl (fun a g => let (x, f) := rneFma a.1 g g; (x, a.2 ||| f)) ((0, 0) : Nat × Flags)
      let (n, f') := rneSqrt q
      (n, f ||| f')
  let clip := c.p 16 4
  if (relation 4 (decodeNum .f32 n) (decodeNum .f32 clip)).1 then let (x, f') := rneDiv clip n; (x, f ||| f')
  else (0x3F800000, f)

/-- w − x, x exact, rounded once. -/
def rneLess (w : Nat) (x : Num × Flags) : Nat × Flags := rne32 (addExact (decodeNum .f32 w, 0) (x.1.negate, x.2))

/-- w − p ÷ d rounded once: over finite numbers the quotient of w × d − p by d, which a zero result or a number that is
not finite takes term by term. -/
def rneLessQuot (w p d : Num) : Nat × Flags :=
  let terms : Nat × Flags :=
    let (q, f) := p.div d
    rne32 (addExact (w, 0) (q.negate, f))
  match w, p, d with
  | .fin .., .fin .., .fin _ m _ =>
    if m = 0 then terms
    else match ((w.mul d).1.add false p.negate).1 with
      | .fin sg k e => if k = 0 then terms else rne32 ((Num.fin sg k e).div d)
      | _ => terms
  | _, _, _ => terms

/-- The update of one element (R307): the new weight and the new state, from weight, state and clipped gradient. -/
def updateElem (c : NearCmd) (w st g : Nat) : (Nat × Flags) × (Nat × Flags) :=
  let lr := decodeNum .f32 (c.p 4 4)
  let beta := decodeNum .f32 (c.p 8 4)
  let gg := decodeNum .f32 g
  match c.rule with
  | 0 => (rneLess w (lr.mul gg), (st, 0))
  | 1 =>
    let m := rne32 (addExact (beta.mul (decodeNum .f32 st)) (gg, 0))
    (rneLess w (lr.mul (decodeNum .f32 m.1)), m)
  | _ =>
    let (k, f1) := (Num.ofInt 1).add false beta.negate
    let (x, f2) := k.mul gg
    let (y, f3) := x.mul gg
    let v := rne32 (addExact (beta.mul (decodeNum .f32 st)) (y, f1 ||| f2 ||| f3))
    let (r, f4) := rneSqrt v.1
    let (d, f5) := rneAdd r (c.p 12 4)
    let (p, f6) := lr.mul gg
    let (z, f7) := rneLessQuot (decodeNum .f32 w) p (decodeNum .f32 d)
    ((z, f4 ||| f5 ||| f6 ||| f7), v)

/-- The row block's factor, read anew at its first entry. -/
def blockFactor (c : NearCmd) (s : State) : Except WalkFault (NearCmd × State) := do
  let size := 4 * c.rowLen
  if c.pos % c.blockRows ≠ 0 then .ok (c, s)
  else
    let k := min c.blockRows (c.items - c.pos)
    let (gs, s) ← if c.gclip then .ok ([], s)
      else atRow none (nearRead c.who (some c.regions) ((c.f 80 8 + c.pos * size) % 2 ^ 64) (k * size) s)
    let (f, fl) := clipFactor c (f32s gs)
    .ok ({ c with factor := BitVec.ofNat 32 f }, s.orAew c.writer c.part fl)

/-- Rows that a walker has locked, of all that its stands' commands hold (R295). -/
def locksOf (s : State) (stand walker : Nat) : Nat :=
  (s.stands.flatMap fun p => p.2.walkq.flatMap fun c => (heldRows c).filter fun a => paStand a = stand && paWalker a = walker).length
where
  /-- The first byte of each row that a command has locked: a place that does not follow the one before. -/
  heldRows (c : NearCmd) : List Nat :=
    let as := ((c.held.getD []).filterMap fun p => match p.1 with
      | .pa a _ => some a
      | _ => none)
    (as.zip (0 :: as)).filterMap fun p => if p.1 = p.2 + 1 then none else some p.1

/-- The walkers that serve rows can lock one more each for every row that falls to them: four at once (R295). -/
def lockRoom (s : State) (rows : List Nat) : Bool :=
  rows.all fun a => decide (locksOf s (paStand a) (paWalker a)
    + (rows.filter fun b => paStand b = paStand a && paWalker b = paWalker a).length ≤ 4)

/-- Loads that are outstanding when rows are locked return them as they stood (R309); one of which something holds a piece
back reads all its pieces of a row after the unlock, so that none is a mixture. -/
def readBeforeLock (ls : List Loc) (s : State) : State :=
  let s := s.all.foldl (fun s t => t.loads.foldl (fun s l => match l.val with
    | .reading _ todo _ => (todo.filter fun p => overlaps p.locs ls && mayPerform s t l.id p.locs).foldl
        (fun s p => readPart t.id l.id p s) s
    | _ => s) s) s
  rereadAll (fun l => overlaps [l] ls) s

/-- One entry of NUPD begins (R307, R309): its weight row, and the state row of kinds 1 and 2, are locked, and what it leaves
there is known; it waits where the walkers of its rows hold four. -/
def lockEntry (c : NearCmd) (s : State) : Except WalkFault State := do
  let size := 4 * c.rowLen
  let (c', s') ← blockFactor c s
  let (i, s') ← entryIndex c' s'
  let va := (c.f 64 8 + i * size) % 2 ^ 64
  let row := rowPa c va s'
  let sva := (c.p 24 8 + i * size) % 2 ^ 64
  let rows := row.toList ++ (if c.rule = 0 then [] else (rowPa c sva s').toList)
  if !lockRoom s' rows then .ok s
  else
    let c := c'
    let ((wl, wb), s) ← mRow c va size s'
    let ((sl, sb), s) ← if c.rule = 0 then .ok ((([] : List Loc), zeroBytes size), s) else mRow c sva size s
    let (gb, s) ← atRow row (nearRead c.who (some c.regions) ((c.f 80 8 + c.pos * size) % 2 ^ 64) size s)
    let f := c.factor.toNat
    let gs := (f32s gb).map fun g => if f = 0x3F800000 then (g, (0 : Flags)) else rneMul g f
    let out := (f32s wb).zip ((f32s sb).zip gs) |>.map fun x => updateElem c x.1 x.2.1 x.2.2.1
    let (w, f1) := f32Bytes (out.map (·.1))
    let (st, f2) := f32Bytes (out.map (·.2))
    let fl := gs.foldl (fun f g => f ||| g.2) (f1 ||| f2)
    let bytes := (wl.map Loc.direct).zip w ++ (if c.rule = 0 then [] else (sl.map Loc.direct).zip st)
    .ok (putNear { c with held := some bytes } ((readBeforeLock (wl ++ sl) s).orAew c.writer c.part fl))

/-- The running entry of NUPD: its rows are locked, or it ends and unlocks them. -/
def updateEntry (c : NearCmd) (s : State) : Except WalkFault State :=
  match c.held with
  | none => lockEntry c s
  | some _ =>
    let c' := { c.did (4 * c.rowLen * (if c.rule = 0 then 2 else 3)) with held := none }
    .ok (putNear c' (unlockRows c s))

/-! ### Steps of a walker -/

/-- The next record or entry of a running command. -/
def nearItem (c : NearCmd) (s : State) : Except WalkFault State :=
  match c.kind with
  | 0 => walkRecord c s
  | 1 => addEntry c s
  | _ => updateEntry c s

/-- WALKER_GRANULE (R303-R307): command b of stand a does its next record or entry; at a boundary, commands of higher
priority go first (02 R49). -/
def execWalkerGranule (s : State) : Outcome :=
  let x := s.stand s.arg.a
  match x.walkq.find? fun c => c.id == s.arg.b with
  | none => .next s
  | some c =>
    let above := (x.walkq.filter fun d => d.state == .running && decide (c.pri < d.pri)).length
    if c.state != .running || (c.atBoundary && decide (walkersAtOnce x ≤ above)) then .next s
    else match nearItem c s with
      | .ok s => .next s
      | .error e => .next (failNear c e)

/-- The completion signals, in their order (R302): the tag, the pulse, the thread's count. -/
def completeNear (c : NearCmd) (s : State) : State :=
  let s := purge c.part c.regions s
  let s := onWalkq (standOfCore c.core) (fun cs => cs.filter fun x => x.id ≠ c.id) s
  let failed := c.failed.map fun e => e.2.1
  let s := if completionTagged c.completion then completeTag c.core (completionTag c.completion) failed s else s
  let line := 36 + (c.completion.extractLsb' 10 2).toNat
  let s := if c.completion.getLsbD 12 then s.pulse (walkerUnit (standOfCore c.core)) (groveOfCore c.core) line else s
  s.onThread c.tid fun t => { t with
    nearCount := t.nearCount - 1
    nearErrs := match failed with
      | some a => t.nearErrs ++ [(a, c.block)]
      | none => t.nearErrs }

/-- WALKER_COMPLETE (R302): command b of stand a, its data moved or failed, completes. -/
def execWalkerComplete (s : State) : Outcome :=
  match (s.stand s.arg.a).walkq.find? fun c => c.id == s.arg.b with
  | some c => if c.state == .moved then .next (completeNear c s) else .next s
  | none => .next s

end Sys2Proof.Machine
end

