-- ==== Sys2Proof/Machine/Halt.lean ====
section
/-!
DEFINITION. Halting and resuming a partition, and saving and loading one context (18 R365-R371): HALTP, RESUMEP, CTXSV,
CTXLD, and the mailbox's HALT and RESUME (20 R379). A halt is one step of this model.
-/
namespace Sys2Proof.Machine

open Sys2Proof

/-- A step of another agent as part of a longer operation. -/
def runEvent (f : State → Outcome) (arg : EventArg) (s : State) : State :=
  match f { s with arg := arg } with
  | .next t => { t with arg := s.arg }
  | _ => s

/-! ### What belongs to a partition -/

/-- The cores of a partition, in TRAPLOC order. -/
def partCores (g : Grant) : List Nat := (g.groves.flatMap coresOfGrove).mergeSort

/-- The groves of a partition, in order. -/
def partGroves (g : Grant) : List Nat := g.groves.mergeSort

/-- The arrays of a partition, in order. -/
def partArrays (g : Grant) : List Nat := (partGroves g).flatMap fun x => (List.range 4).map fun q => 4 * x + q

/-- The stands in which a partition has cores. -/
def partStands (g : Grant) : List Nat := (g.groves.map standOfGrove).eraseDups

/-- The threads of a partition that a slot, a park area or a run queue holds. -/
def partThreads (part : Nat) (s : State) : List Thread :=
  s.all.filter fun t => t.task.part == part && !t.isEnded && t.status != .saved

/-! ### Step 2 of R367 -/

/-- A thread stops at its next instruction boundary: its results are written, and what it queued is performed at .sys, but
for what a command that an array has not started must precede. -/
def freezeThread (s : State) (tid : Nat) : State :=
  let s := performAt 5 tid s
  match s.thread? tid with
  | none => s
  | some t =>
    if t.bound then
      (flushPend (s.focus tid)).onTh fun t => { t with
        pc := t.instrPc, modLatch := none, spin := []
        status := match t.status with
          | .holding _ => .running
          | x => x }
    else s

/-- The loads of a thread that can return go to their destinations. -/
def returnLoads (s : State) (tid : Nat) : State :=
  match s.thread? tid with
  | none => s
  | some t => t.loads.foldl (fun s l => runEvent execLoadReturn { a := tid, b := l.id } s) s

/-! ### Step 3: messages land -/

/-- A message that can land does. -/
def landMessage (s : State) (e : Envelope) : State :=
  let arg : EventArg := { a := e.seq }
  match e.body with
  | .decr .. => runEvent execDecrementMessage arg s
  | .ready .. => runEvent execReadyMessage arg s
  | .reward .. => runEvent execRewardArrival arg s
  | .statistics .. => runEvent execStatisticsPartial arg s
  | .token n layer _ _ _ _ =>
    if layer < (netLayers (netLog n)).length then runEvent execBalancerToken arg s else runEvent execOutputCounter arg s
  | .pulse g _ => runEvent execEvxPulse { a := g, list := [e.seq] } s
  | .openFlit .. => runEvent execStreamOpenFlit arg s
  | .flit .. => runEvent execStreamFlitLand arg s
  | .closeFlit .. => runEvent execStreamCloseMarker arg s
  | .packet .. => runEvent execPacketArrival arg s
  | .migrate .. => runEvent execMigrationArrival arg s
  | .update .. => runEvent execReplicaUpdateApply arg s

/-- A message returns a value to a thread: its token, or its packet. -/
def returnsTo (tid : Nat) (e : Envelope) : Bool :=
  match e.body with
  | .token _ _ _ _ t _ => t = tid
  | .packet _ _ _ _ _ l _ => (l.map (·.1)) = some tid
  | _ => false

/-- The tokens and packets of a thread land, with what goes before them on their way, and its loads return: what CTXSV
freezes it with (R369). -/
def landThread (tid : Nat) : Nat → State → State
  | 0, s => s
  | n + 1, s =>
    let t := if s.msgs.any (returnsTo tid) then s.msgs.foldl landMessage s else s
    if t.msgs = s.msgs then returnLoads t tid else landThread tid n t

/-- Every message of a partition lands, until none is left that can. -/
def landAll (part : Nat) : Nat → State → State
  | 0, s => s
  | n + 1, s =>
    let t := (partMsgs part s).foldl landMessage s
    if t.msgs = s.msgs then t else landAll part n t

/-! ### Step 4: arrays -/

/-- A statistics partial that an array has sent lands. -/
def landSent (sent : Option Nat) (s : State) : State :=
  match s.msgs.find? fun e => sent == some e.seq with
  | some e => landMessage s e
  | none => s

/-- A drain that has begun goes on while its deck has room, and ends once its partial has landed. -/
def finishDrain (arr : Nat) : Nat → State → State
  | 0, s => s
  | n + 1, s =>
    match (s.array arr).aq.head? with
    | some c =>
      match c.instr with
      -- a drain that waits for a deck whose readers are frozen goes on after RESUMEP (notes/assumptions/108.md)
      | .mdrain .. =>
        if c.left = 0 && c.sent.isNone then s
        else
          let t := runEvent execMdrainExecute { a := arr } (landSent c.sent s)
          if (t.array arr).aq = (s.array arr).aq then t else finishDrain arr n t
      | _ => s
    | none => s

/-- A step, fade or sweep that runs goes on to its end: a sweep with statistics once its partial has landed. -/
def finishRun (arr : Nat) : Nat → State → State
  | 0, s => s
  | n + 1, s =>
    match (s.array arr).running with
    | none => s
    | some r =>
      let arg : EventArg := { a := arr }
      finishRun arr n (if r.kind = 0 then runEvent execStepRetire arg s
        else if r.kind = 1 then runEvent execFade arg s
        else runEvent execRewardApply arg (landSent r.sent s))

/-- What an array runs completes. -/
def finishArray (s : State) (arr : Nat) : State := finishDrain arr 258 (finishRun arr 2 s)

/-! ### Step 5: engines -/

/-- A running copy that has not reached its next granule boundary, or the end where it has no granule. -/
def copyGoesOn (c : CopyCmd) : Bool :=
  c.state == .running && ((granuleBytes c.gran).isNone || c.wr != c.mark || !c.ibuf.isEmpty || !c.obuf.isEmpty)

/-- A grove's copies run to a boundary, as far as their decks let them. -/
def stopCopies (g : Nat) : Nat → State → State
  | 0, s => s
  | n + 1, s =>
    if (s.grove g).copies.any copyGoesOn then
      let t := runEvent execCopyGranule { a := g } s
      if (t.grove g).copies = (s.grove g).copies then t else stopCopies g n t
    else s

/-- Copies whose data have all moved complete. -/
def completeCopies (s : State) (g : Nat) : State :=
  ((s.grove g).copies.filter fun c => c.state == .moved).foldl
    (fun s c => runEvent execCopyComplete { a := g, b := c.id } s) s

/-- A walker command runs to a boundary, as far as its decks let it. -/
def stopWalker (stand id : Nat) : Nat → State → State
  | 0, s => s
  | n + 1, s =>
    match (s.stand stand).walkq.find? fun c => c.id == id with
    | none => s
    | some c =>
      if c.state == .moved then runEvent execWalkerComplete { a := stand, b := id } s
      else if c.state != .running || c.atBoundary then s
      else
        let t := runEvent execWalkerGranule { a := stand, b := id } s
        if (t.stand stand).walkq = (s.stand stand).walkq then t else stopWalker stand id n t

/-- A BRE job runs to a boundary. -/
def stopJob (stand slot : Nat) : Nat → State → State
  | 0, s => s
  | n + 1, s =>
    match Table.find slot (s.stand stand).bre with
    | none => s
    | some j =>
      if j.state ≠ 1 then s
      else if j.failed.isSome || decide (j.count ≤ j.pos) then runEvent execBreJobComplete { a := stand, b := slot } s
      else if j.atBoundary then s
      else
        let t := runEvent execBreGranule { a := stand, b := slot } s
        if (t.stand stand).bre = (s.stand stand).bre then t else stopJob stand slot n t

/-- The rows that a partition's walkers have locked are unlocked (R367 step 5). -/
def unlockAll (part : Nat) (s : State) : State :=
  ((s.stands.flatMap fun p => p.2.walkq).filter fun c => c.part == part).foldl (fun s c => unlockRows c s) s

/-- The engines of a partition stop. -/
def stopEngines (part : Nat) (g : Grant) (s : State) : State :=
  let s := g.groves.foldl (fun s x => completeCopies (stopCopies x 65536 s) x) s
  (partStands g).foldl (fun s n =>
    let s := ((s.stand n).walkq.filter fun c => c.part == part).foldl
      (fun s c => stopWalker n c.id (512 * c.items + 512) s) s
    ((s.stand n).bre.filter fun p => p.2.part = part).foldl (fun s p => stopJob n p.1 (p.2.count + 2) s) s) s

/-- Steps 2 to 5 once: threads, messages, arrays, engines. -/
def settlePart (part : Nat) (g : Grant) (s : State) : State :=
  let ids := (partThreads part s).map (·.id)
  let left := (s.all.filter fun t => t.task.part == part && t.isEnded && !t.gone).map (·.id)
  let s := ids.foldl freezeThread (left.foldl (fun s t => performAt 5 t s) s)
  let s := landAll part 4096 s
  let s := ids.foldl returnLoads s
  let s := (partArrays g).foldl finishArray s
  landAll part 4096 (syncAll (unlockAll part (stopEngines part g s)))

/-- Steps 2 to 5 until nothing of the partition moves any more: a drain and the copy that empties its deck go on by turns. -/
def settleAll (part : Nat) (g : Grant) : Nat → State → State
  | 0, s => s
  | n + 1, s =>
    let t := settlePart part g s
    if t.msgs = s.msgs && t.groves = s.groves && t.arrays = s.arrays && t.stands = s.stands && t.cores = s.cores then t
    else settleAll part g n t

/-! ### Step 6: flits that cannot land -/

/-- The flits of held routes that have not landed, in order, for each deck: core, deck and bytes. -/
def strandedFlits (s : State) : List (Nat × Nat × List Byte) :=
  s.msgs.filterMap fun e => match e.body with
    | .flit core dcb r bs => if holdsRoute s core dcb r then some (core, dcb, bs) else none
    | _ => none

/-- The bytes of the stranded flits of a deck. -/
def deckFlits (flits : List (Nat × Nat × List Byte)) (d : Nat × Nat) : List (List Byte) :=
  (flits.filter fun f => f.1 = d.1 && f.2.1 = d.2).map fun f => f.2.2

/-- The stranded flits of a deck go to its overflow area, and OVFH is set (08 R206). -/
def overflowDeck (part : Nat) (flits : List (Nat × Nat × List Byte)) (s : State) (d : Nat × Nat) : State :=
  let bss := deckFlits flits d
  let k := deckAt d.1 d.2 s
  let s := hwStore part k.ovfa bss.flatten (deckStore { k with ovfh := true } s)
  let c := s.core d.1
  s.setCore d.1 { c with routes := c.routes.map fun r => if r.dcb = d.2 then { r with replay := bss.length } else r }

/-- The decks of a partition that have stranded flits, and the flits. -/
def strandedDecks (part : Nat) (s : State) : List (Nat × Nat) × List (Nat × Nat × List Byte) :=
  let fs := (strandedFlits s).filter fun f => s.granted part f.1
  ((fs.map fun f => (f.1, f.2.1)).eraseDups, fs)

/-- Every stranded flit of a partition's decks. -/
def overflowFlits (part : Nat) (s : State) : State :=
  let (ds, fs) := strandedDecks part s
  ds.foldl (overflowDeck part fs) s

/-! ### The save area (R365) -/

/-- The places of slots: the context of the thread bound there, or zeros. -/
def slotContexts (s : State) (core : Nat) : List Byte :=
  (List.range 4).flatMap fun j =>
    match s.all.find? fun t => t.bound && t.core == core && t.slot.toNat == j with
    | some t => contextBytes ((s.core core).wdog.getLsbD 1) t
    | none => zeroBytes 4096

/-- A crossbar's state: its image, counters, seen bits and credits, 1,024 bytes. -/
def evxBytes (x : Evx) : List Byte :=
  padTo 1024 (padTo 640 x.image ++ wordsBytes 2 x.value ++ wordsBytes 2 x.seen ++ wordsBytes 1 x.credit)

/-- A crossbar from its saved state; the counter-outs still to go stay. -/
def evxOf (bs : List Byte) (x : Evx) : Evx :=
  { x with image := if x.image.isEmpty then [] else bs.take 640, value := vectorAt 16 16 2 640 bs, seen := vectorAt 16 16 2 672 bs
           credit := vectorAt 8 32 1 704 bs }

/-- The held rewards of a partition's arrays with their arrays, 24 bytes each. -/
def heldBytes (s : State) (g : Grant) : List (List Byte) :=
  (partArrays g).flatMap fun a => (s.array a).held.map fun r => padTo 24 (r.saved ++ leBytes 4 a)

/-- A core's run queue, 1,040 bytes: 64 entries of 16 bytes, whose layout the manual does not give (notes/assumptions/35.md), and
the spill ring's head and tail. -/
def runQueueBytes (seed : Nat) (c : Core) : List Byte :=
  padTo 1024 (freeBytes (16 * c.runq.length) seed) ++ leBytes 8 c.spillHead ++ leBytes 8 ((c.spillHead + c.spill.length) % 4096)

/-- A copy command, 80 bytes (notes/assumptions/77.md): its operand block, tag, priority, issuer, and the granule it has
reached. -/
def copyBytes (s : State) (c : CopyCmd) : List Byte :=
  padTo 64 (if c.bytes.isEmpty then partRead c.part c.block.toNat 64 s else c.bytes) ++ leBytes 2 c.tag ++ leBytes 2 c.pri
    ++ leBytes 4 (4 * c.core + c.slot) ++ leBytes 8 c.granule

/-- A walker command, 32 bytes (notes/assumptions/77.md): its block, completion word, issuer, kind and the granule it has
reached. -/
def walkerBytes (c : NearCmd) : List Byte :=
  leBytes 8 c.block.toNat ++ leBytes 8 c.completion.toNat ++ leBytes 4 (4 * c.core + c.slot) ++ leBytes 4 c.kind ++ leBytes 8 c.granule

/-- A BRE job slot, 32 bytes (notes/assumptions/77.md): the handle, the block, the state with its flags, and the granule
reached. -/
def jobBytes (stand slot : Nat) (j : BreJob) : List Byte :=
  leBytes 8 (breHandle stand slot j.seq) ++ leBytes 8 j.block.toNat ++ leBytes 8 (j.state + 4 * j.flags.toNat) ++ leBytes 8 j.granule

/-- The BRE job slots that hold a partition's jobs, with their stands. -/
def partJobs (part : Nat) (g : Grant) (s : State) : List (Nat × Nat × BreJob) :=
  (partStands g).flatMap fun n => ((s.stand n).bre.filter fun p => p.2.part = part).map fun p => (n, p.1, p.2)

/-- The landing queues' positions and resident counts, 16 bytes each. -/
def landingBytes (part : Nat) (s : State) : List (List Byte) :=
  (List.range 16).map fun q =>
    let l := ((s.part? part).map fun p => p.landing.getD q {}).getD {}
    leBytes 8 l.tail ++ leBytes 8 l.packets.length

/-- The parts of a halt image: kind, items, and the bytes of each item. -/
def imageParts (part : Nat) (g : Grant) (planes : Bool) (s : State) : List (Nat × List (List Byte)) :=
  let cores := partCores g
  let copies := g.groves.flatMap fun x => (s.grove x).copies
  let walks := (partStands g).flatMap fun n => (s.stand n).walkq.filter fun c => c.part == part
  [ (1, cores.map (slotContexts s))
  , (2, cores.map fun c => (s.core c).ls.span 0 131072)
  , (3, cores.zipIdx.map fun c => runQueueBytes (s.free + c.2) (s.core c.1))
  , (4, (partArrays g).map (arrayBytes s))
  , (5, (partGroves g).map fun x => evxBytes (s.grove x).evx)
  , (6, copies.map (copyBytes s))
  , (7, walks.map walkerBytes)
  , (8, (partJobs part g s).map fun j => jobBytes j.1 j.2.1 j.2.2)
  , (9, g.nets.map fun n => netBytes n (s.net n))
  , (10, heldBytes s g)
  , (11, landingBytes part s) ]
  ++ (if planes then [(12, (partArrays g).map (fun a => (s.array a).slice.span 0 (2 ^ 22))
        ++ (partGroves g).map fun x => (s.grove x).scratch.span 0 (2 ^ 23))] else [])
  ++ [(13, cores.map fun c => leBytes 8 (s.core c).ctb.toNat ++ leBytes 8 (s.core c).tagErr.toNat)]

/-- Items that a directory entry counts: a thread-context part counts slots. -/
def partCount (p : Nat × List (List Byte)) : Nat := if p.1 = 1 then 4 * p.2.length else p.2.length

/-- The directory from an offset on: 16 bytes for each part. -/
def directory : Nat → List (Nat × List (List Byte)) → List Byte
  | _, [] => []
  | off, p :: ps =>
    leBytes 4 p.1 ++ leBytes 4 (partCount p) ++ leBytes 8 off ++ directory (off + (p.2.map (·.length)).sum) ps

/-- Offset of the halt image from PSAVE. -/
def imageOffset : Nat := 0x11000

/-- STATE of the save area written. -/
def writeHaltState (part n : Nat) (s : State) : State :=
  match s.part? part with
  | some p => partRelease part (s.saveArea p + hdrState) (leBytes 4 n) s
  | none => s

/-- The halt image and its header are written, STATE 2 last (R367 step 9). -/
def writeImage (part base : Nat) (g : Grant) (planes : Bool) (s : State) : State :=
  let ps := imageParts part g planes s
  let haltn := leNat (partRead part (base + hdrHaltn) 4 s)
  let s := partRelease part (base + hdrHaltn) (leBytes 4 (haltn + 1)) s
  let s := partRelease part (base + 104) (leBytes 4 (if planes then 1 else 0)) s
  let s := partRelease part (base + 256) (padTo 256 (directory imageOffset ps)) s
  let s := partRelease part (base + imageOffset) (ps.flatMap fun p => p.2.flatten) s
  writeHaltState part 2 s.draw

/-! ### Halting (R367) -/

/-- What a halted core keeps: the registers that the monitor or the launch set, and its local store. -/
def idleCore (c : Core) : Core :=
  { c with tagErr := 0, tagFault := [], tagOut := 0, tagAllot := 0, tasks := [], runq := [], spill := [], spillHead := 0, inbound := []
           parks := [], routes := [], claims := [], icache := [], l1 := [] }

/-- An array without its queues. -/
def idleArray (x : MArray) : MArray := { x with aq := [], pq := [], rq := [], held := [], running := none, frozen := false, own := 0 }

/-- The state of a partition's units, as the halt image holds it. -/
def takeImage (part : Nat) (g : Grant) (planes : Bool) (s : State) : HaltImage :=
  { grant := some g
    threads := partThreads part s
    cores := (partCores g).map fun c => (c, s.core c)
    groves := (partGroves g).map fun x => (x, if planes then s.grove x else { s.grove x with scratch := [] })
    arrays := (partArrays g).map fun a => (a, if planes then s.array a else { s.array a with slice := [] })
    walkers := (partStands g).flatMap fun n => (s.stand n).walkq.filter fun c => c.part == part
    jobs := partJobs part g s
    nets := g.nets.map fun n => (n, s.net n)
    msgs := partMsgs part s
    planes := planes }

/-- Nothing stands in the issuing slot: the record of a thread that has gone. -/
def emptyFocus (t : Thread) : Thread := { core := t.core, slot := t.slot, status := .ended 0, uncounted := true }

/-- Threads leave the machine. -/
def removeThreads (ids : List Nat) (s : State) : State :=
  { s with th := if ids.contains s.th.id then emptyFocus s.th else s.th, threads := s.threads.filter fun t => !ids.contains t.id }

/-- The units of a partition hold nothing of it any more. -/
def clearUnits (part : Nat) (g : Grant) (s : State) : State :=
  let gone := (partMsgs part s).map (·.seq)
  let s := removeThreads ((s.all.filter fun t => t.task.part == part && t.status != .saved).map (·.id)) s
  let s := (partCores g).foldl (fun s c => s.setCore c (idleCore (s.core c))) s
  let s := g.groves.foldl (fun s x => s.setGrove x { s.grove x with copies := [], evx := {} }) s
  let s := (partArrays g).foldl (fun s a => s.onArray a idleArray) s
  let s := (partStands g).foldl (fun s n =>
    let x := s.stand n
    s.setStand n { x with walkq := x.walkq.filter (fun c => c.part != part), bre := x.bre.filter fun p => p.2.part ≠ part }) s
  let s := g.nets.foldl (fun s n => s.setNet n { s.net n with entry := 2, pending := [] }) s
  { s with msgs := s.msgs.filter fun e => !gone.contains e.seq }

/-- Crews of a partition dissolve. -/
def dissolveAll (part : Nat) (s : State) : State :=
  (partThreads part s).foldl (fun s t => if t.crew then dissolveCrew t.crewId s else s) s

/-- Parked threads whose condition holds go to their run queues (R371). -/
def wakeParked (part : Nat) (s : State) : State :=
  (partThreads part s).foldl (fun s t => match t.status with
    | .parked w _ => if waitOver s t w then requeue t.id s else s
    | _ => s) s

/-- A partition is halted (R367): steps 1 to 9; the focus stays with its thread where that has not gone. -/
def haltPartition (part : Nat) (planes : Bool) (s : State) : State :=
  match s.part? part with
  | none => s
  | some p =>
    let g := p.grant
    let me := s.th.id
    let s := writeHaltState part 1 (s.setPart part { p with halt := .halting })
    let s := settleAll part g 0x100000 s
    let s := overflowFlits part s
    let s := g.nets.foldl (fun s n => s.setNet n { s.net n with pending := [] }) s
    let s := wakeParked part (dissolveAll part s)
    let s := writeImage part (s.saveArea p) g planes s
    let image := takeImage part g planes s
    let s := clearUnits part g s
    (s.onPart part fun p => { p with halt := .halted, image := image }).focus me

/-! ### Resuming (R368) -/

/-- The offset from PSAVE of a part of the halt image, from the directory. -/
def partOffset (dir : List Byte) (kind : Nat) : Nat :=
  match (List.range 16).find? fun i => leField dir (16 * i) 4 = kind with
  | some i => leField dir (16 * i + 8) 8
  | none => 0

/-- Bytes of item n of a part of the halt image. -/
def imageItem (part psave : Nat) (dir : List Byte) (kind size n : Nat) (s : State) : List Byte :=
  partRead part (psave + partOffset dir kind + size * n) size s

/-- A thread comes back: its registers from its context block, a wait begun anew, its results and queues as they were. -/
def threadBack (part psave : Nat) (dir : List Byte) (cores : List Nat) (s : State) (t : Thread) : Thread :=
  if t.bound then
    let n := 4 * cores.idxOf t.core + t.slot.toNat
    let t := loadContext (imageItem part psave dir 1 4096 n s) t
    match t.status with
    | .waiting w _ => { t with status := .waiting w s.cycle }
    | _ => t
  else t

/-- Step 2: a core comes back, its local store and copy tags from the image. -/
def coreBack (part psave : Nat) (dir : List Byte) (s : State) (x : (Nat × Core) × Nat) : State :=
  let tags := imageItem part psave dir 13 16 x.2 s
  s.setCore x.1.1 { x.1.2 with
    ls := Memory.ofBytes (imageItem part psave dir 2 131072 x.2 s), ctb := BitVec.ofNat 64 (leField tags 0 8)
    tagErr := BitVec.ofNat 64 (leField tags 8 8), icache := [], l1 := [] }

/-- Steps 1, 2 and 4: a grove comes back, its scratchpad from the image with PLANES. -/
def groveBack (part psave : Nat) (dir : List Byte) (planes : Bool) (arrays : Nat) (s : State) (x : (Nat × Grove) × Nat) : State :=
  let scratch := if planes then
      Memory.ofBytes (partRead part (psave + partOffset dir 12 + 2 ^ 22 * arrays + 2 ^ 23 * x.2) (2 ^ 23) s)
    else (s.grove x.1.1).scratch
  s.setGrove x.1.1 { x.1.2 with
    scratch := scratch, evx := evxOf (imageItem part psave dir 5 1024 x.2 s) x.1.2.evx, owner := (s.grove x.1.1).owner }

/-- Steps 1 to 3: an array comes back, its slice from the image with PLANES, and takes its held rewards. -/
def arrayBack (part psave : Nat) (dir : List Byte) (planes : Bool) (s : State) (x : (Nat × MArray) × Nat) : State :=
  let slice := if planes then Memory.ofBytes (imageItem part psave dir 12 (2 ^ 22) x.2 s) else (s.array x.1.1).slice
  let s := s.setArray x.1.1 { x.1.2 with slice := slice }
  let s := loadArray x.1.1 (imageItem part psave dir 4 arrayBlockBytes x.2 s) s
  s.onArray x.1.1 fun y => (List.range 8).foldl (fun y _ => admitHeld y) { y with frozen := x.1.2.frozen }

/-- Step 4: a walker command comes back to its stand, with the order it was registered in. -/
def walkerBack (s : State) (c : NearCmd) : State :=
  let n := standOfCore c.core
  let x := s.stand n
  s.setStand n { x with walkq := x.walkq ++ [c], regs := max x.regs (c.reg + 1) }

/-- Step 4: a BRE job comes back to its slot. -/
def jobBack (s : State) (j : Nat × Nat × BreJob) : State :=
  let x := s.stand j.1
  s.setStand j.1 { x with bre := Table.put j.2.1 j.2.2 x.bre, regs := max x.regs (j.2.2.reg + 1) }

/-- Step 5: the flits of a deck stand in the fabric, before anything new, with the bytes of its overflow area, to be replayed
into the deck as it has room. -/
def replayDeck (part : Nat) (flits : List (Nat × Nat × List Byte)) (s : State) (d : Nat × Nat) : State :=
  let base := (deckAt d.1 d.2 s).ovfa
  let sizes := (deckFlits flits d).map (·.length)
  let (ms, _, _) := s.msgs.foldl (fun (r : List Envelope × Nat × List Nat) e => match e.body with
    | .flit core dcb x _ =>
      if core = d.1 && dcb = d.2 && holdsRoute s core dcb x then
        let n := r.2.2.headD 32
        (r.1 ++ [{ e with body := .flit core dcb x (partRead part (base + r.2.1) n s) }], r.2.1 + n, r.2.2.drop 1)
      else (r.1 ++ [e], r.2)
    | _ => (r.1 ++ [e], r.2)) ([], 0, sizes)
  { s with msgs := ms }

/-- Step 5 for every deck of a partition. -/
def replayOverflow (part : Nat) (s : State) : State :=
  let (ds, fs) := strandedDecks part s
  ds.foldl (replayDeck part fs) s

/-- Step 6: a network comes back; it opens unless it stood closed. -/
def netBack (part psave : Nat) (dir : List Byte) (s : State) (x : (Nat × Net) × Nat) : State :=
  let n := netOf x.1.1 (imageItem part psave dir 9 768 x.2 s) x.1.2
  s.setNet x.1.1 { n with entry := if x.1.2.entry = 2 then 2 else 0, pending := [] }

/-- A partition resumes (R368). -/
def resumePartition (part : Nat) (s : State) : State :=
  match s.part? part with
  | none => s
  | some p =>
    let im := p.image
    let psave := s.saveArea p
    let cores := partCores p.grant
    let s := writeHaltState part 3 (s.setPart part { p with halt := .resuming })
    let dir := partRead part (psave + 256) 256 s
    let s := usePart .hardware part psave (partOffset dir 13 + 16 * im.cores.length) s
    let s := { s with threads := s.threads ++ im.threads.map (threadBack part psave dir cores s) }
    let s := im.cores.zipIdx.foldl (coreBack part psave dir) s
    let s := im.groves.zipIdx.foldl (groveBack part psave dir im.planes im.arrays.length) s
    let s := im.arrays.zipIdx.foldl (arrayBack part psave dir im.planes) s
    let s := im.jobs.foldl jobBack (im.walkers.foldl walkerBack s)
    let s := replayOverflow part { s with msgs := im.msgs ++ s.msgs }
    let s := im.nets.zipIdx.foldl (netBack part psave dir) s
    let s := im.threads.foldl (fun s t => match t.status with
      | .spinning .. => requeue t.id s
      | _ => s) s
    let s := writeHaltState part 0 (syncAll s)
    s.onPart part fun p => { p with halt := .running, image := {} }

/-! ### Faults (R370) -/

/-- The context fault. -/
def contextFault (reason : Nat) (block : Word) (fidx fval : Nat) : Trap :=
  { cause := 0x1B, fidx := fidx, fval := fval, a := block, v := BitVec.ofNat 64 reason }

/-- STATE of a partition's save area. -/
def haltStateOf (part : Nat) (s : State) : Nat :=
  match s.part? part with
  | some p => leNat (partRead part (s.saveArea p + hdrState) 4 s)
  | none => 0

/-- MAGIC of a partition's save area is right. -/
def magicOk (p : Part) (s : State) : Bool := leNat (partRead p.grant.part (s.saveArea p) 4 s) == 0x45564153

/-- The reason for which a halt is refused: MAGIC, then STATE. -/
def haltRefusal (part : Nat) (s : State) : Option Nat :=
  match s.part? part with
  | none => some 4
  | some p =>
    if !magicOk p s then some 2
    else if haltStateOf part s ≠ 0 ∨ p.halt ≠ .running then some 1 else none

/-- The reason for which a resumption is refused: MAGIC, STATE, then the grant: it is the one at the halt, and its groves
and networks are lent to nobody. -/
def resumeRefusal (part : Nat) (s : State) : Option Nat :=
  match s.part? part with
  | none => some 4
  | some p =>
    if !magicOk p s then some 2
    else if haltStateOf part s ≠ 2 ∨ p.halt ≠ .halted then some 1
    else if p.image.grant ≠ some p.grant ∨ (p.grant.groves.any fun g => (s.grove g).owner != some part) = true then some 3
    else none

/-- Privilege 2 is needed (R366). -/
def needMonitor (s : State) : Checked Unit := need (decide (s.th.priv = 2)) (denied 1 0x3E)

/-- HALTP (R366, R367). A thread of the partition itself moves past the instruction and stops behind it. -/
def execHaltp (a : BitVec 4) (s : State) : Outcome :=
  let v := s.getS a
  let bad (r : Nat) : Trap := contextFault r 0 3 a.toNat
  settle s do
    needMonitor s
    need (decide (v.toNat < 16)) (bad 4)
    match haltRefusal (v.toNat % 8) s with
    | some r => .error (bad r)
    | none =>
      let s := advance 4 s
      let s := if s.myPart = v.toNat % 8 then accountNow s else s
      .ok (haltPartition (v.toNat % 8) (v.getLsbD 3) s)

/-- RESUMEP (R366, R368): an acquire at .sys. -/
def execResumep (a : BitVec 4) (s : State) : Outcome :=
  let v := s.getS a
  let bad (r : Nat) : Trap := contextFault r 0 3 a.toNat
  settle s do
    needMonitor s
    need (decide (v.toNat < 8)) (bad 4)
    match resumeRefusal v.toNat s with
    | some r => .error (bad r)
    | none => .ok (acquireAt s.th.core (resumePartition v.toNat (advance 4 s)))

/-! ### Single contexts (R369) -/

/-- The location that a context instruction names, in TRAPLOC form: a granted core and slot, or a granted array. -/
def contextPlace (v : Word) (arr : Bool) (s : State) : Option Nat :=
  let n := v.toNat
  if 2 ^ 13 ≤ n ∨ (isCore (n / 4) = false) ∨ ((s.grove (groveOfCore (n / 4))).owner = none) ∨ (arr = true ∧ n / 4 % 16 ≠ 0) then none
  else some n

/-- The array of a location. -/
def arrayAtLoc (n : Nat) : Nat := 4 * (n / 64) + n % 4

/-- The thread in a slot. -/
def threadAt (n : Nat) (s : State) : Option Thread := s.all.find? fun t => t.bound && t.loc == n

/-- The block of a context is stored at .sys by the focus thread (R369). -/
def storeBlock (ls : List Loc) (bs : List Byte) (s : State) : State :=
  let s := coreStore s.myPart s.th.core { stand := standOfCore s.th.core, tid := s.th.id } (ls.zip bs) (s.th.entry 0) s
  writeThrough s.th.id s

/-- The thread that CTXSV saves: frozen as by step 2 of R367, its tokens and packets returned; its slot is free, its tag group
stays reserved. -/
def saveThread (t : Thread) (ls : List Loc) (s : State) : State :=
  let me := s.th.id
  let s := if t.id = me then accountNow s else s
  let s := if t.crew then dissolveCrew t.crewId s else s
  let s := landThread t.id 4096 (freezeThread s t.id)
  match s.thread? t.id with
  | none => s
  | some u =>
    let bs := contextBytes ((s.core u.core).wdog.getLsbD 1) u
    let s := s.onThread u.id fun t => { t with status := .saved, uncounted := true }
    storeBlock ls bs (s.focus me)

/-- CTXSV of a thread or an array (R369): the block is stored at .sys; an array command of the thread that must come before
holds it (12 R270). -/
def execCtxsv (d a : BitVec 4) (u : BitVec 1) (s : State) : Outcome :=
  let block := s.getS d
  let bad (r fidx : Nat) : Trap := contextFault r block fidx (if fidx = 2 then d.toNat else a.toNat)
  let size := if u = 1 then arrayBlockBytes else 4096
  settle s do
    needMonitor s
    let (ls, s) ← spanPlace .write block size 64 2 d.toNat s
    match contextPlace (s.getS a) (u = 1) s with
    | none => .error (bad 4 3)
    | some n =>
      let s := performAt 5 s.th.id s
      if readBlocked s ls then .ok (holdForWork (blockingWork ls s) s)
      else if u = 1 then
        let arr := arrayAtLoc n
        let s := finishArray (advance 4 s) arr
        .ok (storeBlock ls (arrayBytes s arr) (s.onArray arr fun x => { x with frozen := true }))
      else match threadAt n s with
        | none => .error (bad 5 3)
        | some t =>
          if t.streams.toList.any (·.opened) then .error (bad 5 3)
          else .ok (saveThread t ls (advance 4 s))

/-- A saved thread is the one that a block describes: its slot, tag group and tag (R369). -/
def describedBy (bs : List Byte) (t : Thread) : Bool :=
  let ts := BitVec.ofNat 64 (leField bs 16 8)
  t.status == .saved && decide (t.slot = ts.extractLsb' 12 2) && decide (t.ctgb = ts.extractLsb' 18 6)
    && decide (t.task.ttag = BitVec.ofNat 32 (leField bs 4 4))

/-- The thread that a block makes where CTXSV has saved none that it describes: one of the partition that the core belongs to
(notes/assumptions/79.md). -/
def blockThread (bs : List Byte) (n : Nat) (s : State) : Thread :=
  { loadContext bs { id := s.fresh } with
    core := n / 4, task := { (loadContext bs {}).task with part := (s.core (n / 4)).partn.toNat, home := n / 4 } }

/-- CTXLD of a thread or an array (R369): the block is read with an acquire at .sys. -/
def execCtxld (d a : BitVec 4) (u : BitVec 1) (s : State) : Outcome :=
  let block := s.getS d
  let bad (r fidx : Nat) : Trap := contextFault r block fidx (if fidx = 2 then d.toNat else a.toNat)
  let size := if u = 1 then arrayBlockBytes else 4096
  settle s do
    needMonitor s
    let (ls, s) ← spanPlace .read block size 64 2 d.toNat s
    match contextPlace (s.getS a) (u = 1) s with
    | none => .error (bad 4 3)
    | some n =>
      if u = 0 && (threadAt n s).isSome then .error (bad 5 3)
      else
        let s := beforeReading ls (← checkData block ls s)
        let (bs, s') := readAs s.th true ls (acquireAt s.th.core s)
        let blocked := readBlocked s ls
        let s := if blocked then holdForWork (blockingWork ls s) s else s'
        if blocked then .ok s
        else if u = 1 then
          if arrayBlockOk bs then .ok (loadArray (arrayAtLoc n) bs (advance 4 s)) else .error (bad 6 2)
        else if leField bs 0 1 % 2 = 0 then .error (bad 6 2)
        else
          let slot (t : Thread) : Thread := { t with status := .running, slot := BitVec.ofNat 2 n, uncounted := false }
          match s.all.find? fun t => describedBy bs t && decide (t.core = n / 4) with
          | some t => .ok ((advance 4 (emptySlot t.core (BitVec.ofNat 2 n) s)).onThread t.id fun t => slot (loadContext bs t))
          | none =>
            if s.all.any (describedBy bs) then .error (bad 5 3)
            else
              let s := advance 4 (emptySlot (n / 4) (BitVec.ofNat 2 n) s)
              .ok { s with threads := slot (blockThread bs n s) :: s.threads, fresh := s.fresh + 1 }

/-! ### The mailbox's commands (20 R379) -/

/-- HALT (R379): partition a, with PLANES where b is 1. -/
def execHalt (s : State) : Outcome :=
  mailbox s fun s =>
    match haltRefusal s.arg.a s with
    | some _ => respond 3 1 [] s
    | none => respond 3 0 [] (haltPartition s.arg.a (decide (s.arg.b = 1)) s)

/-- RESUME (R379): partition a. -/
def execResume (s : State) : Outcome :=
  mailbox s fun s =>
    match resumeRefusal s.arg.a s with
    | some _ => respond 4 1 [] s
    | none => respond 4 0 [] (resumePartition s.arg.a s)

end Sys2Proof.Machine
end

