-- ==== Sys2Proof/Machine/System.lean ====
section
/-!
DEFINITION. The machine room (20 R373-R387): partitions created and released, the host's memory window, the mailbox's
other commands, boot and attestation, control loops and ageing, peers and domains, snapshots.
-/
namespace Sys2Proof.Machine

open Sys2Proof

/-! ### Creating a partition (R373) -/

/-- Two ranges share a byte. -/
def rangesMeet (x y : Nat × Nat) : Bool := decide (x.1 < y.1 + y.2) && decide (y.1 < x.1 + x.2)

/-- A grove may be granted: nobody has it, or a halted partition that saved its planes lends it (18 R367). -/
def groveFree (s : State) (g : Nat) : Bool :=
  match (s.grove g).owner with
  | none => true
  | some p => match s.part? p with
    | some q => q.halt = .halted && q.image.planes
    | none => true

/-- A range of a grant: own DRAM, whole 2 MiB pages. -/
def rangeOk (s : State) (r : Nat × Nat) : Bool :=
  decide (0 < r.2) && r.1 % 2 ^ 21 = 0 && r.2 % 2 ^ 21 = 0 && paIsDram r.1 && s.ownPa r.1 && paIsDram (r.1 + r.2 - 1)
    && s.ownPa (r.1 + r.2 - 1)

/-- No element comes twice. -/
def distinct (xs : List Nat) : Bool := decide (xs.eraseDups.length = xs.length)

/-- Bytes of a save area: its header, log and the parts of a halt image that have fixed sizes (18 R365). -/
def saveBytes (g : Grant) : Nat :=
  imageOffset + g.groves.length * (16 * (16384 + 131072 + 1040 + 16) + 4 * (arrayBlockBytes + 2 ^ 22) + 1024 + 2 ^ 23)
    + 768 * g.nets.length + 256

/-- Bytes from an address of a partition lie in its ranges, by the page tables that a root has, leaf by leaf. -/
def mappedInside (g : Grant) (s : State) : Nat → Nat → Nat → Bool
  | 0, _, left => left == 0
  | n + 1, va, left =>
    left == 0 || (match walkFrom s va 4 g.ptroot with
      | .ok (e, _, level) =>
        let pa := leafPa e level va
        let k := min left (4096 * 512 ^ level - va % (4096 * 512 ^ level))
        g.ranges.any (fun r => decide (r.1 ≤ pa) && decide (pa + k ≤ r.1 + r.2)) && mappedInside g s n (va + k) (left - k)
      | .error _ => false)

/-- The memory that the monitor has written for a grant. -/
def grantMemory (g : Grant) (s : State) : State :=
  { s with dram := g.image.foldl (fun m (p : Nat × Byte) => Memory.write m p.1 p.2) [], l2 := [], wt := [], bad := [], checks := [] }

/-- The save area of a grant lies in its ranges (18 R365, R367; notes/assumptions/125.md). -/
def saveInside (g : Grant) (s : State) : Bool :=
  mappedInside g (grantMemory g s) (saveBytes g / 4096 + 2) g.psave (saveBytes g)

/-- The record area of a grant: 4 MiB of the package's own DRAM (17 R331), which no other partition has. -/
def recordAreaOk (g : Grant) (others : List Grant) (s : State) : Bool :=
  let area (h : Grant) : Nat × Nat := (h.recB, 2 ^ 22)
  g.recB % 64 = 0 && paIsDram g.recB && s.ownPa g.recB && paIsDram (g.recB + 2 ^ 22 - 1) && s.ownPa (g.recB + 2 ^ 22 - 1)
    && others.all fun o => !rangesMeet (area g) (area o) && (o.ranges.all fun r => !rangesMeet (area g) r)
      && g.ranges.all fun r => !rangesMeet r (area o)

/-- A grant keeps the limits of R373 and R376 and takes nothing that another partition has. -/
def grantOk (g : Grant) (s : State) : Bool :=
  let others := s.parts.map fun p => p.2.grant
  decide (g.part < 8) && (s.part? g.part).isNone
    && decide (1 ≤ g.groves.length) && decide (g.groves.length ≤ 80) && distinct g.groves
    && g.groves.all (fun x => isCore (16 * x) && groveFree s x)
    && distinct g.nets && g.nets.all (fun n => decide (n < 64) && others.all fun o => !o.nets.contains n)
    && distinct g.domNets && g.domNets.all (fun n => decide (n < 16) && s.placement.contains n && others.all fun o => !o.domNets.contains n)
    && g.ranges.all (fun r => rangeOk s r && others.all fun o => o.ranges.all fun q => !rangesMeet r q)
    && decide (g.ranges.zipIdx.all fun x => g.ranges.zipIdx.all fun y => x.2 = y.2 || !rangesMeet x.1 y.1)
    && decide (g.landing.length = 16) && g.landing.all (fun l => decide (16 ≤ l.2 ∧ l.2 ≤ 4096)) && decide (g.recN ≤ 65536)
    && decide (g.aperture.2 ≤ 2 ^ 36) && recordAreaOk g others s && saveInside g s

/-- A core as its partition's monitor sets it up (06 R138); n is its place among the granted cores. -/
def grantedCore (g : Grant) (n : Nat) (c : Core) : Core :=
  { idleCore c with
    partn := BitVec.ofNat 64 g.part, tvec := BitVec.ofNat 64 g.tvec &&& ~~~1, tvecSys := BitVec.ofNat 64 g.tvec &&& ~~~1, tvecBase := none
    dwb := dwbMerge 16 (BitVec.ofNat 64 g.dwb), wdog := if g.shared then 3 else if g.watchdog then 1 else 0
    rqsb := BitVec.ofNat 64 (g.rqsb.getD n 0), pkob := BitVec.ofNat 64 (g.pkob.getD n 0), fcpb := BitVec.ofNat 64 g.fcpb
    jseedm := BitVec.ofNat 64 g.jseed, psave := BitVec.ofNat 64 g.psave, mpriv := if g.mpriv then 1 else 0, cbs := [] }

/-- L2WP of a granted grove as the monitor writes it, once for the grove (06 R138), its change complete before the first bind. -/
def grantWays (g : Grant) (s : State) (x : Nat × Nat) : State :=
  completeWays x.1 (writeL2wp x.1 (BitVec.ofNat 64 (g.l2wp.getD x.2 0)) (completeWays x.1 s))

/-- The memory of a grove that no partition may see again is zeroed: local stores, slices, scratchpad (R374 step 2), and
its arrays are as at reset. -/
def zeroGrove (s : State) (g : Nat) : State :=
  let s := (coresOfGrove g).foldl (fun s c => s.setCore c { idleCore (s.core c) with ls := [], cbs := [] }) s
  let s := ((List.range 4).map fun q => 4 * g + q).foldl (fun s a => s.setArray a {}) s
  s.setGrove g { s.grove g with scratch := [], copies := [], evx := {}, fused := false }

/-- A range of DRAM is zeroed, as at every grant (09 R215): no copy of its lines is left. -/
def zeroRange (s : State) (r : Nat × Nat) : State :=
  let inside (a : Nat) : Bool := decide (r.1 ≤ a) && decide (a < r.1 + r.2)
  { s with
    dram := Memory.clear s.dram r.1 r.2, l2 := s.l2.filter fun p => !inside p.1, wt := s.wt.filter fun p => !inside p.1
    checks := s.checks.filter fun p => !inside (64 * p.1)
    stands := s.stands.map fun p => (p.1, { p.2 with
      replicas := p.2.replicas.filter fun l => !inside (64 * l), replica := Memory.clear p.2.replica r.1 r.2 }) }

/-- The BRE slots of a stand in which no other partition has a grove have not been used since its grant (15 R317); in a stand
that partitions share, the slots keep their counts (notes/assumptions/110.md). -/
def freeBre (part : Nat) (s : State) (n : Nat) : State :=
  if s.parts.any fun p => p.1 ≠ part && (partStands p.2.grant).contains n then s else s.setStand n { s.stand n with bre := [] }

/-- A job that a halted partition leaves when it is released has failed; its slot keeps its count (15 R317). -/
def leaveJob (s : State) (j : Nat × Nat × BreJob) : State :=
  jobBack s (j.1, j.2.1, if j.2.2.state < 2 then { j.2.2 with state := 3 } else j.2.2)

/-- The entry of the margin history for a grove (20 R385): the hours and the margin are measured, free values here. -/
def measuredEntry (version seed g : Nat) : MarginEntry :=
  { hours := Config.freeBits 0 seed, stand := standOfGrove g, grove := g % 32, version := version
    margin := Config.freeBits (g + 1) seed % 2 ^ 32 }

/-- Tables are appended to the margin history of 256 entries (20 R385). -/
def appendMargins (ms : List MarginEntry) (s : State) : State :=
  let all := s.margins ++ ms
  { s with margins := all.drop (all.length - 256) }

/-- The groves of the package. -/
def allGroves : List Nat := (List.range 128).filter fun g => isCore (16 * g)

/-- The current margin-table version. -/
def marginVersion (s : State) : Nat := ((s.margins.getLast?).map (·.version)).getD 0

/-- A grove's path delays are measured: a new table is in its history, and takes effect at the next step of its loop. -/
def replan (m : MarginEntry) (s : State) : State :=
  let g := 32 * m.stand + m.grove
  (appendMargins [m] s).setGrove g { s.grove g with replanned := m.version }

/-- Every grove is measured, as at each grant (20 R385). -/
def measureAll (s : State) : State :=
  let v := marginVersion s + 1
  (allGroves.foldl (fun s' g => replan (measuredEntry v s.free g) s') s).draw

/-- The partition stands (R373): its memory is zeroed, its groves hold nothing, and its cores, package networks, page tables and
save area are set up. -/
def createPartition (g : Grant) (s : State) : State :=
  let s := clearTlbs g.part (g.ranges.foldl zeroRange (measureAll s))
  let s := zeroRange s (g.recB, 2 ^ 22)
  let s := { s with dram := g.image.foldl (fun m (p : Nat × Byte) => Memory.write m p.1 p.2) s.dram }
  let s := g.groves.foldl (fun s x =>
    let s := zeroGrove s x
    s.setGrove x { s.grove x with owner := some g.part }) s
  let s := (partStands g).foldl (freeBre g.part) s
  let s := (partCores g).zipIdx.foldl (fun s x => s.setCore x.1 (grantedCore g x.2 (s.core x.1))) s
  let s := g.groves.zipIdx.foldl (grantWays g) s
  let s := g.nets.foldl (fun (s : State) n => s.setNet n {}) s
  let s := s.setPart g.part {
    grant := g, landing := g.landing.map (fun (l : Nat × Nat) => { base := BitVec.ofNat 64 l.1, cap := l.2 }), spare := g.spare }
  partRelease g.part g.psave (leBytes 4 0x45564153 ++ zeroBytes 508) s

/-- CREATE_PARTITION (R373, R379). -/
def execCreatePartition (s : State) : Outcome :=
  mailbox s fun s =>
    match s.arg.grant with
    | some g => if grantOk g s then respond 1 0 [] (createPartition g s) else respond 1 1 [] s
    | none => respond 1 1 [] s

/-! ### Releasing a partition (R374) -/

/-- A partition is quiet: no bound thread, no queued command, in the groves that it has, no token in flight. -/
def partQuiet (p : Part) (s : State) : Bool :=
  let part := p.grant.part
  let own := p.grant.groves.filter fun g => (s.grove g).owner = some part
  !(s.all.any fun t => t.task.part == part && t.bound)
    && own.all (fun g => (s.grove g).copies.isEmpty)
    && (own.flatMap fun g => (List.range 4).map fun q => 4 * g + q).all (fun a =>
      (s.array a).aq.isEmpty && (s.array a).pq.isEmpty && (s.array a).running.isNone)
    && (List.range 4).all (fun n => !((s.stand n).walkq.any fun c => c.part == part)
        && !((s.stand n).bre.any fun j => j.2.part == part && decide (j.2.state < 2)))
    && !(s.msgs.any fun e => match e.body with
        | .token .. => msgPart s e == some part
        | _ => false)

/-- The slice that holds a line for a stand lies in a grove. -/
def sliceIn (g stand a : Nat) : Bool := 32 * stand + a / 64 % 160 / 8 == g

/-- Step 1: a grove's dirty lines are written back, and every line its caches hold goes. -/
def purgeGrove (s : State) (g : Nat) : State :=
  let dirty := ((s.l2.filter fun p => s.ownPa p.1 && (paHome p.1).1 == g).map fun p => lineOf p.1).eraseDups
  let s := dirty.foldl (fun s l => writeBack l s) s
  let n := standOfGrove g
  let x := s.stand n
  let gone (l : Nat) : Bool := sliceIn g n (64 * l)
  s.setStand n { x with
    replicas := x.replicas.filter fun l => !gone l
    replica := x.replica.filter fun p => !gone (lineOf p.1) }

/-- Whoever a grove goes back to: a halted partition that had lent it. -/
def lenderOf (g part : Nat) (s : State) : Option Nat :=
  (s.parts.find? fun p => p.1 != part && p.2.grant.groves.contains g).map (·.1)

/-- A partition is released (R374): the caches of the groves it has are written back and invalidated, their memories zeroed,
TVEC restored (10 R241), its networks closed, and its tables gone. A grove that it has lent, or that is lent to it, is its
owner's again. -/
def releasePartition (p : Part) (s : State) : State :=
  let g := p.grant
  let mine := (partMsgs g.part s).map (·.seq)
  let own := g.groves.filter fun x => (s.grove x).owner = some g.part
  let s := own.foldl zeroGrove (own.foldl purgeGrove s)
  let s := (own.flatMap coresOfGrove).foldl (fun s c =>
    let x := s.core c
    let held := ((Table.find c p.image.cores).bind (·.tvecBase)).or x.tvecBase
    s.setCore c { x with tvec := held.getD x.tvec, tvecBase := none }) s
  let s := (g.nets ++ g.domNets.map (· + 64)).foldl (fun s n => s.setNet n { s.net n with entry := 2, pending := [] }) s
  let s := own.foldl (fun s x => s.setGrove x { s.grove x with owner := lenderOf x g.part s }) s
  let s := removeThreads ((s.all.filter fun t => t.task.part == g.part).map (·.id)) s
  let s := (partStands g).foldl (freeBre g.part) (p.image.jobs.foldl leaveJob { s with parts := Table.drop g.part s.parts })
  clearTlbs g.part { s with msgs := s.msgs.filter fun e => !mine.contains e.seq }

/-- RELEASE (R374, R379): partition a, if it is quiet. -/
def execRelease (s : State) : Outcome :=
  mailbox s fun s =>
    match s.part? s.arg.a with
    | some p => if partQuiet p s then respond 5 0 [] (releasePartition p s) else respond 5 1 [] s
    | none => respond 5 1 [] s

/-! ### The host's memory window (R376, R378) -/

/-- The partition address that an offset of an aperture names, where n bytes lie in it. -/
def apertureAddr (s : State) (part off n : Nat) : Option Nat :=
  match s.part? part with
  | some p => if off + n ≤ p.grant.aperture.2 then some (p.grant.aperture.1 + off) else none
  | none => none

/-- The host as a party to accesses: checked as at privilege 1. -/
def hostWho (part : Nat) : Who := { part := part, core := none, grove := none, priv := 1 }

/-- HOST_MEMORY_READ (R378): c bytes at offset b of the aperture of partition a, from DRAM. What a read that fails
returns is a free value. -/
def execHostMemoryRead (s : State) : Outcome :=
  let n := s.arg.c
  let answer (bs : List Byte) (s : State) : Outcome := .next { s with response := { bytes := bs } }
  match apertureAddr s s.arg.a s.arg.b n with
  | none => answer (freeBytes n s.free) s.draw
  | some va =>
    match resolveSpan (hostWho s.arg.a) .read (n / 2048 + 2) va n s with
    | .error _ => answer (freeBytes n s.free) s.draw
    | .ok (sp, s) =>
      let ls := spanLocs sp
      match settleBad (s.bad.length + 1) ls s with
      | .ok s => let (bs, s) := readDram ls s; answer bs s
      | .error (_, b, s) => answer (freeBytes n s.free) (retire b s).draw

/-- The lines of places in memory. -/
def linesOf (ls : List Loc) : List Nat :=
  (ls.filterMap fun l => match l with
    | .pa a _ => some (lineOf a)
    | _ => none).eraseDups

/-- A host write at an address reaches DRAM: dirty copies of its lines are written back first, and every copy goes. What goes to a failed
package is dropped and logged (R386). -/
def hostStore (part va : Nat) (ls : List Loc) (bs : List Byte) (s : State) : State :=
  let s := settleRows ls s
  let s := match ls.findIdx? (peerGone s) with
    | some i => s.logAsync part (hwError (va + i))
    | none => s
  let bytes := ((ls.zip bs).filter fun p => !peerGone s p.1).map (storable s)
  let s := (linesOf ls).foldl (fun s l => dropL1All l (dropReplicas l (writeBack l s))) s
  bytes.foldl (fun s p => match p.1 with
    | .pa a _ => noteWrite a { s with dram := Memory.write s.dram a p.2 }
    | _ => s) s

/-- HOST_MEMORY_WRITE (R378): bytes at offset b of the aperture of partition a; a write that fails translation or permission
is dropped and logged as an access fault, with its reason where it is one (notes/assumptions/109.md). -/
def execHostMemoryWrite (s : State) : Outcome :=
  let bs := s.arg.bytes
  match apertureAddr s s.arg.a s.arg.b bs.length with
  | none => .next s
  | some va =>
    match resolveSpan (hostWho s.arg.a) .write (bs.length / 2048 + 2) va bs.length s with
    | .error (f, at_) =>
      .next (s.logAsync s.arg.a { cause := 4, unit := unitCode 6 0 0 0, issuer := 0xFFFFFFFF, addr := BitVec.ofNat 64 at_
                                  value := BitVec.ofNat 64 (if f.cause = 4 then f.tv else 0) })
    | .ok (sp, s) => .next (hostStore s.arg.a va (spanLocs sp) bs s)

/-! ### The mailbox's readings (R375, R382, R385) -/

/-- An attestation report (R382). -/
def attestReport (p : Part) (nonce : List Byte) (s : State) : List Byte :=
  nonce ++ digestBytes s.measure ++ digestBytes p.imageDigest ++ p.digests.reverse.flatten ++ leBytes 4 (marginVersion s)

/-- ATTEST (R382): partition a, with a nonce of 64 bytes; the report and its signature of 4,627 bytes. -/
def execAttest (s : State) : Outcome :=
  mailbox s fun s =>
    match s.part? s.arg.a with
    | some p =>
      if s.arg.bytes.length = 64 then
        let r := attestReport p s.arg.bytes s
        respond 6 0 (r ++ padTo 4627 (Config.attestSign (digestBytes (Config.sha3 r)))) s
      else respond 6 1 [] s
    | none => respond 6 1 [] s

/-- READ_MONITOR_LOG (R375, R379): the drop count and the entries, which the reading takes out of the log. -/
def execReadMonitorLog (s : State) : Outcome :=
  mailbox s fun s =>
    respond 9 0 (leBytes 4 s.monDropped ++ s.monlog.flatMap fun e => e.1.toBytes e.2) { s with monlog := [] }

/-- A margin entry's fields as bytes. -/
def MarginEntry.toBytes (m : MarginEntry) : List Byte :=
  leBytes 8 m.hours ++ leBytes 1 m.stand ++ leBytes 1 m.grove ++ leBytes 2 0 ++ leBytes 4 m.version ++ leBytes 4 m.margin

/-- READ_MARGIN_HISTORY (R385, R379): the history, oldest first. -/
def execReadMarginHistory (s : State) : Outcome :=
  mailbox s fun s => respond 10 0 (s.margins.flatMap MarginEntry.toBytes) s

/-! ### Boot (R381) -/

/-- DRAM of the package is zeroed, and nothing stands in the caches. -/
def zeroDram (s : State) : State :=
  { s with dram := s.dram.filter fun p => !s.ownPa p.1, l2 := s.l2.filter fun p => !s.ownPa p.1
           wt := s.wt.filter fun p => !s.ownPa p.1, checks := s.checks.filter fun p => !s.ownPa (64 * p.1) }

/-- Boot stops at a step; the reason shown is a free value. -/
def bootFails (step : Nat) (s : State) : State :=
  { s with booted := if step = 5 then 6 else step, bootReason := s.freeBelow 256 }.draw

/-- The monitor runs on the 16 supervisor cores. -/
def startMonitor (s : State) : State :=
  { s with supers := (List.range 16).map fun n => (n, { (Table.find n s.supers).getD {} with running := true }) }

/-- BOOT (R381): the steps in order, once after reset. -/
def execBoot (s : State) : Outcome :=
  match s.arg.boot with
  | none => .next s
  | some b =>
    if s.booted ≠ 0 then .next s
    else if !b.readable then .next (bootFails 1 s)
    else
      let d := Config.sha3 b.firmware
      if !Config.verifies d b.fwSignature Config.fusedKey then .next (bootFails 2 s)
      else if b.version < Config.fusedRollback then .next (bootFails 3 s)
      else
        let s := measureImage d s
        if !b.trained then .next (bootFails 4 s)
        else
          let s := zeroDram s
          let m := Config.sha3 b.monitor
          if !Config.verifies m b.monSignature Config.fusedKey then .next (bootFails 4 s)
          else if !b.starts then .next (bootFails 5 (measureImage m s))
          else .next { startMonitor (measureImage m s) with booted := 5 }

/-! ### Control loops and ageing (R384, R385) -/

/-- VF_STEP (R384, R385): the clock of grove a steps up where b is 1, down where it is 0, between 1.6 and 3.2 GHz; a re-planned
margin table takes effect. -/
def execVfStep (s : State) : Outcome :=
  let x := s.grove s.arg.a
  let c := if s.arg.b = 1 then min 32 (x.clock + 1) else max 16 (x.clock - 1)
  .next (s.setGrove s.arg.a { x with clock := c, margin := x.replanned })

/-- The voltage of a grove: what the margin table in effect gives for its frequency step (R385). -/
def Grove.voltage (g : Nat) (x : Grove) : Nat := Config.voltage x.margin g x.clock

/-- REFRESH_ADJUST (R384): the refresh interval of stand a at b °C: halved above 85, restored below 80. -/
def execRefreshAdjust (s : State) : Outcome :=
  let x := s.stand s.arg.a
  .next (s.setStand s.arg.a { x with hot := if 85 < s.arg.b then true else if s.arg.b < 80 then false else x.hot })

/-- LINK_EQUALISATION (R384): the taps of lane a become b; the package has 32 ports of 8 lanes (01 R14). -/
def execLinkEqualisation (s : State) : Outcome :=
  .next (if s.arg.a < 256 then { s with taps := Table.put s.arg.a s.arg.b s.taps } else s)

/-- WALKER_PLACEMENT (R384): walker b of stand a runs c commands at once, 1 to 4. -/
def execWalkerPlacement (s : State) : Outcome :=
  let x := s.stand s.arg.a
  if s.arg.b < 64 ∧ 1 ≤ s.arg.c ∧ s.arg.c ≤ 4 then .next (s.setStand s.arg.a { x with walkers := Table.put s.arg.b s.arg.c x.walkers })
  else .next s

/-- MARGIN_MEASURE (R385): a grove is measured, and its new table appended to the history of 256 entries. -/
def execMarginMeasure (s : State) : Outcome :=
  match s.arg.margin with
  | some m => .next (if isCore (16 * (32 * m.stand + m.grove)) then replan m s else s)
  | none => .next s

/-! ### Peers and domains (R319, R380, R386) -/

/-- DOMAIN_FORMATION (R319, R373, R380): the domain has the listed packages and this one, number a, 640 at most, numbered from 0
(01 R14, 17 R348); its networks are at reset, and its placement table lets this package's partitions have the listed ones. A package with
partitions keeps its number. -/
def execDomainFormation (s : State) : Outcome :=
  if (s.arg.a ≠ s.pkg ∧ s.parts.isEmpty = false) ∨ (s.arg.a :: s.arg.list).any (640 ≤ ·) = true then .next s
  else
    let s := { s with pkg := s.arg.a, domain := s.arg.list, failed := [], placement := s.arg.nets }
    .next (((List.range 16).map (· + 64)).foldl (fun (s : State) n => s.setNet n {}) s)

/-- FLIT_RESEND (R380): the flit is delivered once and in order, as if the first transfer had not failed. -/
def execFlitResend (s : State) : Outcome := .next s

/-- A token of a domain network returns status 11 (R386). -/
def tokenLost (s : State) (e : Envelope) : State :=
  match e.body with
  | .token n _ _ _ tid l =>
    if n < 64 then s else dropMsg e.seq (s.fillLoad tid l (.data ((takeWord 3 0).setWidth 1024) false))
  | .packet _ _ pkg _ _ _ _ => if s.failed.contains pkg then dropMsg e.seq s else s
  | _ => s

/-- PEER_FAILURE (R386): package a is fenced: flits from it are dropped, tokens of domain networks return, the networks
decide status 01, and the monitor's log names it. -/
def execPeerFailure (s : State) : Outcome :=
  let p := s.arg.a
  if p = s.pkg ∨ s.domain.contains p = false ∨ s.failed.contains p = true then .next s
  else
    let s := { s with failed := p :: s.failed }
    let s := s.msgs.foldl tokenLost s
    let s := ((List.range 16).map (· + 64)).foldl (fun s n => s.setNet n { s.net n with broken := true }) s
    .next (s.logMonitor { value := BitVec.ofNat 64 p, issuer := 0xFFFFFFFF })

/-! ### Snapshots (R387) -/

/-- Bytes at their homes copied to a range of DRAM, whose lines get check values of their own (R383). -/
def copyRange (src n dst : Nat) (s : State) : State :=
  let keys := ((s.dram.map fun p => p.1) ++ s.l2.map (·.1) ++ s.wt.map (·.1)).filter fun a => src ≤ a && a < src + n
  { s with
    dram := keys.foldl (fun m a => Memory.write m (dst + (a - src)) (s.homeByte a)) (Memory.clear s.dram dst n)
    l2 := s.l2.filter fun p => !(dst ≤ p.1 && p.1 < dst + n)
    wt := s.wt.filter fun p => !(dst ≤ p.1 && p.1 < dst + n)
    checks := s.checks.filter fun p => !(dst ≤ 64 * p.1 && 64 * p.1 < dst + n) }

/-- The ranges of a grant with their offsets in a snapshot. -/
def rangeOffsets : Nat → List (Nat × Nat) → List (Nat × Nat × Nat)
  | _, [] => []
  | off, (a, n) :: r => (off, a, n) :: rangeOffsets (off + n) r

/-- The first line of a range whose read fails: its data do not leave (R383, 09 R229). -/
def rangeError (src n : Nat) (s : State) : Option BadStorage :=
  let lines := s.checks.map (·.1) ++ s.bad.filterMap fun b => match b.at_ with
    | .mem (.pa a _) => some (lineOf a)
    | _ => none
  (lines.filter fun l => decide (src ≤ 64 * l) && decide (64 * l < src + n)).findSome? fun l =>
    (badPlace s (.pa (64 * l) 0)).filter fun b => !b.passes

/-- Ranges are copied; where a line cannot be read, the storage is retired, the monitor's log has the data error, and the copy
has failed (notes/assumptions/126.md). -/
def copyRanges : List (Nat × Nat × Nat) → State → Bool × State
  | [], s => (true, s)
  | (src, n, dst) :: r, s =>
    match rangeError src n s with
    | some b =>
      let addr := match b.at_ with
        | .mem (.pa a _) => a
        | _ => src
      (false, (retire b s).logMonitor { hwError addr with value := BitVec.ofNat 64 b.tv })
    | none => copyRanges r (copyRange src n dst s)

/-- SNAPSHOT (R387): partition a is halted with PLANES, its memory is copied to the peer's range at b, and it resumes. -/
def execSnapshot (s : State) : Outcome :=
  mailbox s fun s =>
    let part := s.arg.a
    let base := s.arg.b
    match haltRefusal part s, s.part? part with
    | none, some p =>
      if s.ownPa base || !s.paOk base || s.failed.contains (paPkg base) then respond 7 1 [] s
      else
        let s := haltPartition part true s
        let (done, s) := copyRanges ((rangeOffsets 0 p.grant.ranges).map fun r => (r.2.1, r.2.2, base + r.1)) s
        let snaps := s.snaps.filter fun x => x.base ≠ base
        let s := { s with snaps := if done then ⟨base, (s.part? part).getD p⟩ :: snaps else snaps }
        respond 7 (if done then 0 else 1) [] (resumePartition part s)
    | _, _ => respond 7 1 [] s

/-- A physical address in another package's place. -/
def movePkg (pkg a : Nat) : Nat := a - paPkg a * 2 ^ 42 + pkg * 2 ^ 42

/-- The restart routine of a partition's image (R387): PA[51:42] of every entry of the page tables, from a table at a level
down, that names the old package names the new one. -/
def moveTables (old new : Nat) : Nat → Nat → State → State
  | level, table, s => (List.range 512).foldl (fun s j =>
      let at_ := table + 8 * j
      let e := s.homeNat at_ 8
      let pfn := fieldOf e 12 40 * 4096
      if !natBit e 0 || paPkg pfn ≠ old then s
      else
        let s := putPte at_ (e - pfn + movePkg new pfn) s
        if natBit e 1 then s
        else match level with
          | 0 => s
          | l + 1 => moveTables old new l (movePkg new pfn) s) s

/-- A grant is another's on a package: the same partition and groves, and the same places in that package's memory. -/
def sameGrant (pkg : Nat) (g h : Grant) : Bool :=
  g.part == h.part && g.groves == h.groves && g.ranges == (h.ranges.map fun r => (movePkg pkg r.1, r.2)) && g.ptroot == movePkg pkg h.ptroot

/-- RESTORE (R387), on a package that may be a replacement: the snapshot at b is copied back into the ranges of a new grant of
the same stands and groves, PA[51:42] is rewritten in its page tables, and the partition resumes. -/
def execRestore (s : State) : Outcome :=
  mailbox s fun s =>
    match s.arg.grant, s.snaps.find? fun x => x.base = s.arg.b with
    | some g, some x =>
      let h := x.held.grant
      if grantOk g s && sameGrant s.pkg g h then
        let old := s
        let (done, s) := copyRanges ((rangeOffsets 0 g.ranges).map fun r => (x.base + r.1, r.2.2, r.2.1)) (createPartition g s)
        let old := if done then old
          else { old with bad := s.bad, transients := s.transients, corrected := s.corrected, monlog := s.monlog, monSeq := s.monSeq
                          monDropped := s.monDropped }
        let s := moveTables (paPkg h.ptroot) s.pkg 4 g.ptroot s
        let s := s.onPart g.part fun _ => { x.held with grant := g, image := { x.held.image with grant := some g } }
        if done && (resumeRefusal g.part s).isNone then respond 8 0 [] (resumePartition g.part s) else respond 8 1 [] old
      else respond 8 1 [] s
    | _, _ => respond 8 1 [] s

end Sys2Proof.Machine
end

