-- ==== Sys2Proof/Machine/Dispatch.lean ====
section
/-!
DEFINITION. The meaning of every instruction and of every step of another agent: one arm per constructor.
-/
namespace Sys2Proof.Machine

open Sys2Proof

/-- Executes an instruction of the focus thread, or a step of another agent. -/
def exec (i : Instr) (s : State) : Host.Outcome State Fault Refusal :=
  match i with
  | .add d a b => Sys2Proof.Machine.execAdd d a b s
  | .sub d a b => Sys2Proof.Machine.execSub d a b s
  | .and d a b => Sys2Proof.Machine.execAnd d a b s
  | .or d a b => Sys2Proof.Machine.execOr d a b s
  | .xor d a b => Sys2Proof.Machine.execXor d a b s
  | .andn d a b => Sys2Proof.Machine.execAndn d a b s
  | .shl d a b => Sys2Proof.Machine.execShl d a b s
  | .shr d a b => Sys2Proof.Machine.execShr d a b s
  | .sar d a b => Sys2Proof.Machine.execSar d a b s
  | .mul d a b => Sys2Proof.Machine.execMul d a b s
  | .mulh d a b => Sys2Proof.Machine.execMulh d a b s
  | .mulhu d a b => Sys2Proof.Machine.execMulhu d a b s
  | .div d a b => Sys2Proof.Machine.execDiv d a b s
  | .divu d a b => Sys2Proof.Machine.execDivu d a b s
  | .rem d a b => Sys2Proof.Machine.execRem d a b s
  | .remu d a b => Sys2Proof.Machine.execRemu d a b s
  | .min d a b => Sys2Proof.Machine.execMin d a b s
  | .max d a b => Sys2Proof.Machine.execMax d a b s
  | .minu d a b => Sys2Proof.Machine.execMinu d a b s
  | .maxu d a b => Sys2Proof.Machine.execMaxu d a b s
  | .slt d a b => Sys2Proof.Machine.execSlt d a b s
  | .sltu d a b => Sys2Proof.Machine.execSltu d a b s
  | .seq d a b => Sys2Proof.Machine.execSeq d a b s
  | .clz d a => Sys2Proof.Machine.execClz d a s
  | .ctz d a => Sys2Proof.Machine.execCtz d a s
  | .popc d a => Sys2Proof.Machine.execPopc d a s
  | .sextB d a => Sys2Proof.Machine.execSextB d a s
  | .sextH d a => Sys2Proof.Machine.execSextH d a s
  | .sextW d a => Sys2Proof.Machine.execSextW d a s
  | .sel d a b => Sys2Proof.Machine.execSel d a b s
  | .addi d a imm => Sys2Proof.Machine.execAddi d a imm s
  | .andi d a imm => Sys2Proof.Machine.execAndi d a imm s
  | .ori d a imm => Sys2Proof.Machine.execOri d a imm s
  | .xori d a imm => Sys2Proof.Machine.execXori d a imm s
  | .shli d a imm => Sys2Proof.Machine.execShli d a imm s
  | .shri d a imm => Sys2Proof.Machine.execShri d a imm s
  | .sari d a imm => Sys2Proof.Machine.execSari d a imm s
  | .slti d a imm => Sys2Proof.Machine.execSlti d a imm s
  | .lui d imm => Sys2Proof.Machine.execLui d imm s
  | .adpc d imm => Sys2Proof.Machine.execAdpc d imm s
  | .fadd d a b m => Sys2Proof.Machine.execFadd d a b m s
  | .fsub d a b m => Sys2Proof.Machine.execFsub d a b m s
  | .fmul d a b m => Sys2Proof.Machine.execFmul d a b m s
  | .ffma d a b m => Sys2Proof.Machine.execFfma d a b m s
  | .fdiv d a b m => Sys2Proof.Machine.execFdiv d a b m s
  | .fsqrt d a m => Sys2Proof.Machine.execFsqrt d a m s
  | .fmin d a b => Sys2Proof.Machine.execFmin d a b s
  | .fmax d a b => Sys2Proof.Machine.execFmax d a b s
  | .fcmpEq d a b => Sys2Proof.Machine.execFcmpEq d a b s
  | .fcmpLt d a b => Sys2Proof.Machine.execFcmpLt d a b s
  | .fcmpLe d a b => Sys2Proof.Machine.execFcmpLe d a b s
  | .fcvtF32I32 d a m => Sys2Proof.Machine.execFcvtF32I32 d a m s
  | .fcvtI32F32 d a m => Sys2Proof.Machine.execFcvtI32F32 d a m s
  | .fcvtF32I64 d a m => Sys2Proof.Machine.execFcvtF32I64 d a m s
  | .fcvtI64F32 d a m => Sys2Proof.Machine.execFcvtI64F32 d a m s
  | .fclass d a => Sys2Proof.Machine.execFclass d a s
  | .fmov d a => Sys2Proof.Machine.execFmov d a s
  | .fsgnCp d a b => Sys2Proof.Machine.execFsgnCp d a b s
  | .fsgnNeg d a => Sys2Proof.Machine.execFsgnNeg d a s
  | .fsgnAbs d a => Sys2Proof.Machine.execFsgnAbs d a s
  | .fsgnMul d a b => Sys2Proof.Machine.execFsgnMul d a b s
  | .beq a b imm => Sys2Proof.Machine.execBeq a b imm s
  | .bne a b imm => Sys2Proof.Machine.execBne a b imm s
  | .blt a b imm => Sys2Proof.Machine.execBlt a b imm s
  | .bge a b imm => Sys2Proof.Machine.execBge a b imm s
  | .bltu a b imm => Sys2Proof.Machine.execBltu a b imm s
  | .bgeu a b imm => Sys2Proof.Machine.execBgeu a b imm s
  | .call d imm => Sys2Proof.Machine.execCall d imm s
  | .jr a => Sys2Proof.Machine.execJr a s
  | .callr d a => Sys2Proof.Machine.execCallr d a s
  | .loop a l imm => Sys2Proof.Machine.execLoop a l imm s
  | .trap x => Sys2Proof.Machine.execTrap x s
  | .csrr d x => Sys2Proof.Machine.execCsrr d x s
  | .csrw a x => Sys2Proof.Machine.execCsrw a x s
  | .csrs a x => Sys2Proof.Machine.execCsrs a x s
  | .csrc a x => Sys2Proof.Machine.execCsrc a x s
  | .brk x => Sys2Proof.Machine.execBrk x s
  | .yield y => Sys2Proof.Machine.execYield y s
  | .fcld d a o => Sys2Proof.Machine.execFcld d a o s
  | .fcst d a o => Sys2Proof.Machine.execFcst d a o s
  | .fcvld d a o => Sys2Proof.Machine.execFcvld d a o s
  | .fcvst d a o => Sys2Proof.Machine.execFcvst d a o s
  | .vadd d a b k m => Sys2Proof.Machine.execVadd d a b k m s
  | .vsub d a b k m => Sys2Proof.Machine.execVsub d a b k m s
  | .vmul d a b k m => Sys2Proof.Machine.execVmul d a b k m s
  | .vfma d a b k m => Sys2Proof.Machine.execVfma d a b k m s
  | .vfms d a b k m => Sys2Proof.Machine.execVfms d a b k m s
  | .vmin d a b k => Sys2Proof.Machine.execVmin d a b k s
  | .vmax d a b k => Sys2Proof.Machine.execVmax d a b k s
  | .viadd d a b k => Sys2Proof.Machine.execViadd d a b k s
  | .visub d a b k => Sys2Proof.Machine.execVisub d a b k s
  | .vimul d a b k => Sys2Proof.Machine.execVimul d a b k s
  | .vand d a b k => Sys2Proof.Machine.execVand d a b k s
  | .vor d a b k => Sys2Proof.Machine.execVor d a b k s
  | .vxor d a b k => Sys2Proof.Machine.execVxor d a b k s
  | .vshl d a b k => Sys2Proof.Machine.execVshl d a b k s
  | .vshr d a b k => Sys2Proof.Machine.execVshr d a b k s
  | .vsar d a b k => Sys2Proof.Machine.execVsar d a b k s
  | .vcmp d a b k r t => Sys2Proof.Machine.execVcmp d a b k r t s
  | .vsel d a b k => Sys2Proof.Machine.execVsel d a b k s
  | .vmov d a k => Sys2Proof.Machine.execVmov d a k s
  | .vbcast d a k => Sys2Proof.Machine.execVbcast d a k s
  | .vext d a b => Sys2Proof.Machine.execVext d a b s
  | .vins d a b => Sys2Proof.Machine.execVins d a b s
  | .viota d k => Sys2Proof.Machine.execViota d k s
  | .vperm d a b k => Sys2Proof.Machine.execVperm d a b k s
  | .vslide d a b k u => Sys2Proof.Machine.execVslide d a b k u s
  | .vredsum d a k m => Sys2Proof.Machine.execVredsum d a k m s
  | .vredmax d a k => Sys2Proof.Machine.execVredmax d a k s
  | .vredmin d a k => Sys2Proof.Machine.execVredmin d a k s
  | .vrcp d a k => Sys2Proof.Machine.execVrcp d a k s
  | .vrsq d a k => Sys2Proof.Machine.execVrsq d a k s
  | .vexp2 d a k => Sys2Proof.Machine.execVexp2 d a k s
  | .vlog2 d a k => Sys2Proof.Machine.execVlog2 d a k s
  | .vcvt d a e k f m => Sys2Proof.Machine.execVcvt d a e k f m s
  | .vqnt d a b k f m => Sys2Proof.Machine.execVqnt d a b k f m s
  | .vdeq d a b k f m => Sys2Proof.Machine.execVdeq d a b k f m s
  | .vsrnd d a f k m => Sys2Proof.Machine.execVsrnd d a f k m s
  | .vsacc d a b k m => Sys2Proof.Machine.execVsacc d a b k m s
  | .kand d a b => Sys2Proof.Machine.execKand d a b s
  | .kor d a b => Sys2Proof.Machine.execKor d a b s
  | .kxor d a b => Sys2Proof.Machine.execKxor d a b s
  | .knot d a => Sys2Proof.Machine.execKnot d a s
  | .kmov d a => Sys2Proof.Machine.execKmov d a s
  | .kpopc d a => Sys2Proof.Machine.execKpopc d a s
  | .kfirst d a => Sys2Proof.Machine.execKfirst d a s
  | .tspawn d a => Sys2Proof.Machine.execTspawn d a s
  | .tdec a b n => Sys2Proof.Machine.execTdec a b n s
  | .tself d => Sys2Proof.Machine.execTself d s
  | .migr a => Sys2Proof.Machine.execMigr a s
  | .gang n => Sys2Proof.Machine.execGang n s
  | .dbind h a n => Sys2Proof.Machine.execDbind h a n s
  | .dwaitc h a n => Sys2Proof.Machine.execDwaitc h a n s
  | .dwaitp h a n => Sys2Proof.Machine.execDwaitp h a n s
  | .dadvc h a n => Sys2Proof.Machine.execDadvc h a n s
  | .dadvp h a n => Sys2Proof.Machine.execDadvp h a n s
  | .cpy a b p n => Sys2Proof.Machine.execCpy a b p n s
  | .cpy2 a b p n => Sys2Proof.Machine.execCpy2 a b p n s
  | .cwaitany a => Sys2Proof.Machine.execCwaitany a s
  | .cwaitall a => Sys2Proof.Machine.execCwaitall a s
  | .cfind d => Sys2Proof.Machine.execCfind d s
  | .ctagclr a => Sys2Proof.Machine.execCtagclr a s
  | .sopen a z => Sys2Proof.Machine.execSopen a z s
  | .sclose z => Sys2Proof.Machine.execSclose z s
  | .ssend z a k c => Sys2Proof.Machine.execSsend z a k c s
  | .plnch d a b => Sys2Proof.Machine.execPlnch d a b s
  | .greplay d a => Sys2Proof.Machine.execGreplay d a s
  | .ld d a w k x imm => Sys2Proof.Machine.execLd d a w k x imm s
  | .st d a w k imm => Sys2Proof.Machine.execSt d a w k imm s
  | .ldacq d a w k x c imm => Sys2Proof.Machine.execLdacq d a w k x c imm s
  | .strel d a w k c imm => Sys2Proof.Machine.execStrel d a w k c imm s
  | .vld d a k => Sys2Proof.Machine.execVld d a k s
  | .vlds d a b k => Sys2Proof.Machine.execVlds d a b k s
  | .vldx d a b k => Sys2Proof.Machine.execVldx d a b k s
  | .vld6 d a k => Sys2Proof.Machine.execVld6 d a k s
  | .vst d a k z t => Sys2Proof.Machine.execVst d a k z t s
  | .vsts d a b k z t => Sys2Proof.Machine.execVsts d a b k z t s
  | .vstx d a b k z t => Sys2Proof.Machine.execVstx d a b k z t s
  | .vst6 d a k z t => Sys2Proof.Machine.execVst6 d a k z t s
  | .discard a => Sys2Proof.Machine.execDiscard a s
  | .pref a l => Sys2Proof.Machine.execPref a l s
  | .wback a => Sys2Proof.Machine.execWback a s
  | .fence c => Sys2Proof.Machine.execFence c s
  | .fenceh a c => Sys2Proof.Machine.execFenceh a c s
  | .amo d a b o n => Sys2Proof.Machine.execAmo d a b o n s
  | .cas d a b n => Sys2Proof.Machine.execCas d a b n s
  | .famo d a b o => Sys2Proof.Machine.execFamo d a b o s
  | .red a b o n => Sys2Proof.Machine.execRed a b o n s
  | .fred a b o => Sys2Proof.Machine.execFred a b o s
  | .vred d a b k o => Sys2Proof.Machine.execVred d a b k o s
  | .mma n m a f z c => Sys2Proof.Machine.execMma n m a f z c s
  | .mlda n a f k => Sys2Proof.Machine.execMlda n a f k s
  | .mldb a b f c => Sys2Proof.Machine.execMldb a b f c s
  | .mdrain n a z f m c t k => Sys2Proof.Machine.execMdrain n a z f m c t k s
  | .mown l => Sys2Proof.Machine.execMown l s
  | .mzero n => Sys2Proof.Machine.execMzero n s
  | .msacc d z a => Sys2Proof.Machine.execMsacc d z a s
  | .mswap n a => Sys2Proof.Machine.execMswap n a s
  | .mflag d n => Sys2Proof.Machine.execMflag d n s
  | .pcfg a => Sys2Proof.Machine.execPcfg a s
  | .pstep d a b => Sys2Proof.Machine.execPstep d a b s
  | .pfade a => Sys2Proof.Machine.execPfade a s
  | .prwd a b r => Sys2Proof.Machine.execPrwd a b r s
  | .pgate a => Sys2Proof.Machine.execPgate a s
  | .prd d a => Sys2Proof.Machine.execPrd d a s
  | .pwr a b => Sys2Proof.Machine.execPwr a b s
  | .pstat d => Sys2Proof.Machine.execPstat d s
  | .nwalk a b p n => Sys2Proof.Machine.execNwalk a b p n s
  | .nadd a b p n => Sys2Proof.Machine.execNadd a b p n s
  | .nupd a b p n => Sys2Proof.Machine.execNupd a b p n s
  | .bred d a p n => Sys2Proof.Machine.execBred d a p n s
  | .bpoll d a => Sys2Proof.Machine.execBpoll d a s
  | .take d a => Sys2Proof.Machine.execTake d a s
  | .takeb d a b => Sys2Proof.Machine.execTakeb d a b s
  | .nsave a b => Sys2Proof.Machine.execNsave a b s
  | .nrest a b => Sys2Proof.Machine.execNrest a b s
  | .nreset a b => Sys2Proof.Machine.execNreset a b s
  | .stata a b => Sys2Proof.Machine.execStata a b s
  | .statc a => Sys2Proof.Machine.execStatc a s
  | .statl n a b h c => Sys2Proof.Machine.execStatl n a b h c s
  | .statr d a b => Sys2Proof.Machine.execStatr d a b s
  | .evcfg a => Sys2Proof.Machine.execEvcfg a s
  | .evpulse l => Sys2Proof.Machine.execEvpulse l s
  | .evrd d a => Sys2Proof.Machine.execEvrd d a s
  | .actw a b => Sys2Proof.Machine.execActw a b s
  | .haltp a => Sys2Proof.Machine.execHaltp a s
  | .resumep a => Sys2Proof.Machine.execResumep a s
  | .ctxsv d a u => Sys2Proof.Machine.execCtxsv d a u s
  | .ctxld d a u => Sys2Proof.Machine.execCtxld d a u s
  | .mod u r q p z t => Sys2Proof.Machine.execMod u r q p z t s
  | .vaddF32 d z => Sys2Proof.Machine.execVaddF32 d z s
  | .vsubF32 d z => Sys2Proof.Machine.execVsubF32 d z s
  | .vmulF32 d z => Sys2Proof.Machine.execVmulF32 d z s
  | .vmaxF32 d z => Sys2Proof.Machine.execVmaxF32 d z s
  | .vminF32 d z => Sys2Proof.Machine.execVminF32 d z s
  | .viadd16 d z => Sys2Proof.Machine.execViadd16 d z s
  | .visub16 d z => Sys2Proof.Machine.execVisub16 d z s
  | .vand16 d z => Sys2Proof.Machine.execVand16 d z s
  | .vor16 d z => Sys2Proof.Machine.execVor16 d z s
  | .vxor16 d z => Sys2Proof.Machine.execVxor16 d z s
  | .vshl16 d z => Sys2Proof.Machine.execVshl16 d z s
  | .vshr16 d z => Sys2Proof.Machine.execVshr16 d z s
  | .vmov16 d z => Sys2Proof.Machine.execVmov16 d z s
  | .vnegF32 d z => Sys2Proof.Machine.execVnegF32 d z s
  | .vabsF32 d z => Sys2Proof.Machine.execVabsF32 d z s
  | .vfmac d z => Sys2Proof.Machine.execVfmac d z s
  | .mov16 x y => Sys2Proof.Machine.execMov16 x y s
  | .add16 x y => Sys2Proof.Machine.execAdd16 x y s
  | .sub16 x y => Sys2Proof.Machine.execSub16 x y s
  | .and16 x y => Sys2Proof.Machine.execAnd16 x y s
  | .or16 x y => Sys2Proof.Machine.execOr16 x y s
  | .addi4 x imm => Sys2Proof.Machine.execAddi4 x imm s
  | .shli4 x imm => Sys2Proof.Machine.execShli4 x imm s
  | .shri4 x imm => Sys2Proof.Machine.execShri4 x imm s
  | .ldd8 x imm => Sys2Proof.Machine.execLdd8 x imm s
  | .std8 x imm => Sys2Proof.Machine.execStd8 x imm s
  | .bz x imm h => Sys2Proof.Machine.execBz x imm h s
  | .bnz x imm h => Sys2Proof.Machine.execBnz x imm h s
  | .jr16 y => Sys2Proof.Machine.execJr16 y s
  | .callr16 y => Sys2Proof.Machine.execCallr16 y s
  | .eret => Sys2Proof.Machine.execEret s
  | .ifence => Sys2Proof.Machine.execIfence s
  | .endTask => Sys2Proof.Machine.execEndTask s
  | .gdis => Sys2Proof.Machine.execGdis s
  | .join => Sys2Proof.Machine.execJoin s
  | .detach => Sys2Proof.Machine.execDetach s
  | .fencel => Sys2Proof.Machine.execFencel s
  | .nfence => Sys2Proof.Machine.execNfence s
  | .yield1 => Sys2Proof.Machine.execYield1 s
  | .end16 => Sys2Proof.Machine.execEnd16 s
  | .deckWaitComplete => Sys2Proof.Machine.execDeckWaitComplete s
  | .copyTagWaitComplete => Sys2Proof.Machine.execCopyTagWaitComplete s
  | .fencehTargetDrain => Sys2Proof.Machine.execFencehTargetDrain s
  | .mownExecute => Sys2Proof.Machine.execMownExecute s
  | .mldaExecute => Sys2Proof.Machine.execMldaExecute s
  | .mldbExecute => Sys2Proof.Machine.execMldbExecute s
  | .mmaExecute => Sys2Proof.Machine.execMmaExecute s
  | .mmaBcRound => Sys2Proof.Machine.execMmaBcRound s
  | .mdrainExecute => Sys2Proof.Machine.execMdrainExecute s
  | .mzeroExecute => Sys2Proof.Machine.execMzeroExecute s
  | .msaccExecute => Sys2Proof.Machine.execMsaccExecute s
  | .mswapExecute => Sys2Proof.Machine.execMswapExecute s
  | .mflagExecute => Sys2Proof.Machine.execMflagExecute s
  | .pcfgExecute => Sys2Proof.Machine.execPcfgExecute s
  | .stepStart => Sys2Proof.Machine.execStepStart s
  | .stepRetire => Sys2Proof.Machine.execStepRetire s
  | .fade => Sys2Proof.Machine.execFade s
  | .rewardArrival => Sys2Proof.Machine.execRewardArrival s
  | .rewardApply => Sys2Proof.Machine.execRewardApply s
  | .gateApply => Sys2Proof.Machine.execGateApply s
  | .nfenceComplete => Sys2Proof.Machine.execNfenceComplete s
  | .walkerCommandStart => Sys2Proof.Machine.execWalkerCommandStart s
  | .walkerGranule => Sys2Proof.Machine.execWalkerGranule s
  | .walkerComplete => Sys2Proof.Machine.execWalkerComplete s
  | .breJobStart => Sys2Proof.Machine.execBreJobStart s
  | .breGranule => Sys2Proof.Machine.execBreGranule s
  | .breJobComplete => Sys2Proof.Machine.execBreJobComplete s
  | .balancerToken => Sys2Proof.Machine.execBalancerToken s
  | .outputCounter => Sys2Proof.Machine.execOutputCounter s
  | .networkQuiet => Sys2Proof.Machine.execNetworkQuiet s
  | .statisticsPartial => Sys2Proof.Machine.execStatisticsPartial s
  | .evxPulse => Sys2Proof.Machine.execEvxPulse s
  | .loadReturn => Sys2Proof.Machine.execLoadReturn s
  | .storeAtHome => Sys2Proof.Machine.execStoreAtHome s
  | .replicaUpdateApply => Sys2Proof.Machine.execReplicaUpdateApply s
  | .atomicAtHome => Sys2Proof.Machine.execAtomicAtHome s
  | .l2wpWrite => Sys2Proof.Machine.execL2wpWrite s
  | .waysChangeComplete => Sys2Proof.Machine.execWaysChangeComplete s
  | .decrementMessage => Sys2Proof.Machine.execDecrementMessage s
  | .readyMessage => Sys2Proof.Machine.execReadyMessage s
  | .spillRefill => Sys2Proof.Machine.execSpillRefill s
  | .farEntryObtained => Sys2Proof.Machine.execFarEntryObtained s
  | .taskBind => Sys2Proof.Machine.execTaskBind s
  | .priorityRaise => Sys2Proof.Machine.execPriorityRaise s
  | .dwbPark => Sys2Proof.Machine.execDwbPark s
  | .parkedThreadWake => Sys2Proof.Machine.execParkedThreadWake s
  | .spinParkWake => Sys2Proof.Machine.execSpinParkWake s
  | .spinParkTimeout => Sys2Proof.Machine.execSpinParkTimeout s
  | .yieldDeadline => Sys2Proof.Machine.execYieldDeadline s
  | .migrationArrival => Sys2Proof.Machine.execMigrationArrival s
  | .joinReconverge => Sys2Proof.Machine.execJoinReconverge s
  | .copyCommandStart => Sys2Proof.Machine.execCopyCommandStart s
  | .copyGranule => Sys2Proof.Machine.execCopyGranule s
  | .copyComplete => Sys2Proof.Machine.execCopyComplete s
  | .streamOpenFlit => Sys2Proof.Machine.execStreamOpenFlit s
  | .streamFlitLand => Sys2Proof.Machine.execStreamFlitLand s
  | .streamCloseMarker => Sys2Proof.Machine.execStreamCloseMarker s
  | .packetArrival => Sys2Proof.Machine.execPacketArrival s
  | .landingServer => Sys2Proof.Machine.execLandingServer s
  | .hostPacketWrite => Sys2Proof.Machine.execHostPacketWrite s
  | .hostStatusRead => Sys2Proof.Machine.execHostStatusRead s
  | .hostMemoryRead => Sys2Proof.Machine.execHostMemoryRead s
  | .hostMemoryWrite => Sys2Proof.Machine.execHostMemoryWrite s
  | .createPartition => Sys2Proof.Machine.execCreatePartition s
  | .loadImage => Sys2Proof.Machine.execLoadImage s
  | .halt => Sys2Proof.Machine.execHalt s
  | .resume => Sys2Proof.Machine.execResume s
  | .release => Sys2Proof.Machine.execRelease s
  | .attest => Sys2Proof.Machine.execAttest s
  | .snapshot => Sys2Proof.Machine.execSnapshot s
  | .restore => Sys2Proof.Machine.execRestore s
  | .readMonitorLog => Sys2Proof.Machine.execReadMonitorLog s
  | .readMarginHistory => Sys2Proof.Machine.execReadMarginHistory s
  | .boot => Sys2Proof.Machine.execBoot s
  | .peerFailure => Sys2Proof.Machine.execPeerFailure s
  | .flitResend => Sys2Proof.Machine.execFlitResend s
  | .vfStep => Sys2Proof.Machine.execVfStep s
  | .refreshAdjust => Sys2Proof.Machine.execRefreshAdjust s
  | .marginMeasure => Sys2Proof.Machine.execMarginMeasure s
  | .l2WriteBack => Sys2Proof.Machine.execL2WriteBack s
  | .linkEqualisation => Sys2Proof.Machine.execLinkEqualisation s
  | .walkerPlacement => Sys2Proof.Machine.execWalkerPlacement s
  | .domainFormation => Sys2Proof.Machine.execDomainFormation s

end Sys2Proof.Machine
end

