-- ==== Sys2Proof/Machine/Moves.lean ====
section
/-!
DEFINITION. What moves next (notes/assumptions/2.md): the thread or the other agent that the next step is about, and a
placed instruction for the next fetch (notes/assumptions/7.md).
-/
namespace Sys2Proof.Machine

open Sys2Proof

/-! ### Threads -/

/-- The first move among the cores of some threads. -/
def firstCoreMove (s : State) : List Thread → Option Move
  | [] => none
  | t :: ts => match coreMove s t.core with
    | some m => some m
    | none => firstCoreMove s ts

/-! ### Other agents -/

/-- The event that brings an envelope to where it goes. -/
def messageEvent (e : Envelope) : Instr :=
  match e.body with
  | .decr .. => .decrementMessage
  | .ready .. => .readyMessage
  | .reward .. => .rewardArrival
  | .statistics .. => .statisticsPartial
  | .token n layer .. => if layer < (netLayers (netLog n)).length then .balancerToken else .outputCounter
  | .pulse .. => .evxPulse
  | .openFlit .. => .streamOpenFlit
  | .flit .. => .streamFlitLand
  | .closeFlit .. => .streamCloseMarker
  | .packet .. => .packetArrival
  | .migrate .. => .migrationArrival
  | .update .. => .replicaUpdateApply

/-- A load-path result that may return, or be read or done first; one that traps awaits its thread's slot. -/
def loadReady (s : State) (t : Thread) (l : Load) : Bool :=
  match l.val with
  | .waiting => false
  | .reading .. => mayPerform s t l.id l.places
  | .acting a => a.ready s t l
  | .data .. => true
  | .error .. | .fault .. => t.bound || t.dying.isSome

/-- Work of a thread's own queues that may go on: a load's return, an atomic, an entry of its store queue. -/
def ownEvent (s : State) (t : Thread) : Option Move :=
  match t.loads.find? (loadReady s t) with
  | some l => some (.event .loadReturn { a := t.id, b := l.id })
  | none =>
    match (List.range t.atq.length).find? fun i => (t.atq[i]?.map (atomReady s t)).getD false with
    | some i => some (.event .atomicAtHome { a := t.id, b := i })
    | none => ((List.range t.sq.length).find? fun i => entryReady s t i).map
        fun i => .event .storeAtHome { a := t.id, b := i }

/-- The first event that some thread's queues allow. -/
def firstOwn (s : State) : List Thread → Option Move
  | [] => none
  | t :: ts => match ownEvent s t with
    | some m => some m
    | none => firstOwn s ts

/-- What an envelope's event is about. -/
def messageMove (e : Envelope) : Instr × EventArg :=
  (messageEvent e, match e.body with
    | .pulse g _ => { a := g, list := [e.seq] }
    | _ => { a := e.seq })

/-- The steps that an array may be about to do. -/
def arrayEvents : List Instr :=
  [.mownExecute, .mldaExecute, .mldbExecute, .mmaExecute, .mdrainExecute, .mzeroExecute, .msaccExecute, .mswapExecute, .mflagExecute,
    .pcfgExecute, .gateApply, .rewardApply, .stepRetire, .stepStart, .fade]

/-- The steps of a grove: a broadcast round, its crossbar, its copies, a change of WAYS. -/
def groveEvents (g : Nat) (x : Grove) : List (Instr × EventArg) :=
  [(.mmaBcRound, { a := g })] ++ (if x.evx.outs.isEmpty then [] else [(.evxPulse, { a := g })])
    ++ x.copies.flatMap (fun c => [(.copyComplete, { a := g, b := c.id }), (.copyCommandStart, { a := g, b := c.id })])
    ++ [(.copyGranule, { a := g }), (.waysChangeComplete, { a := g })]

/-- The steps of a stand's walkers and BRE. -/
def standEvents (n : Nat) (x : Stand) : List (Instr × EventArg) :=
  x.walkq.flatMap (fun c => [(.walkerComplete, { a := n, b := c.id }), (.walkerCommandStart, { a := n, b := c.id }),
    (.walkerGranule, { a := n, b := c.id })])
  ++ x.bre.flatMap fun j => [(.breJobComplete, { a := n, b := j.1 }), (.breJobStart, { a := n, b := j.1 }), (.breGranule, { a := n, b := j.1 })]

/-- The steps of a core's queues and its binder. -/
def coreEvents (c : Nat) (x : Core) : List (Instr × EventArg) :=
  [(.spillRefill, { a := c }), (.taskBind, { a := c })]
    ++ (List.range (x.runq.length + x.spill.length)).map fun i => (.priorityRaise, { a := c, b := i })

/-- The steps of the landing server and the far pool of a partition. -/
def partEvents (n : Nat) : List (Instr × EventArg) :=
  (List.range 16).map (fun q => (.landingServer, { a := n, b := q })) ++ [(.farEntryObtained, { a := n })]

/-- The steps that a thread's state may call for, beside its issue. -/
def threadEvents (t : Thread) : List (Instr × EventArg) :=
  let one (i : Instr) : List (Instr × EventArg) := [(i, { a := t.id })]
  match t.status with
  | .waiting .. => one .dwbPark
  | .parked .. => one .parkedThreadWake
  | .spinning .. => one .spinParkWake ++ one .spinParkTimeout
  | .holding (.fenceh cores) => cores.map fun c => (.fencehTargetDrain, { a := t.id, b := c })
  | _ => []

/-- Everything that another agent may be about to do: messages first, the oldest first. -/
def agentMoves (s : State) : List (Instr × EventArg) :=
  (s.msgs.filter (mayArrive s)).map messageMove
    ++ s.arrays.flatMap (fun p => arrayEvents.map fun i => (i, { a := p.1 }))
    ++ s.groves.flatMap (fun p => groveEvents p.1 p.2) ++ s.stands.flatMap (fun p => standEvents p.1 p.2)
    ++ s.nets.map (fun p => (.networkQuiet, { a := p.1 }))
    ++ s.parts.flatMap (fun p => partEvents p.1) ++ s.cores.flatMap (fun p => coreEvents p.1 p.2)
    ++ s.all.flatMap threadEvents ++ ((s.wt.map fun p => lineOf p.1).eraseDups).map (fun l => (.l2WriteBack, { a := l }))

/-- A step of another agent changes something. -/
def acts (s : State) (m : Instr × EventArg) : Bool :=
  let s := { s with arg := m.2 }
  match exec m.1 s with
  | .next t => t != s
  | _ => false

/-- What moves when the agenda names nothing: the focus thread's core, then queued accesses, then another agent that can
act, then any other core; else a cycle passes. -/
def defaultMove (s : State) : Move :=
  match coreMove s s.th.core with
  | some m => m
  | none =>
    match firstOwn s s.all with
    | some m => m
    | none =>
      match (agentMoves s).find? (acts s) with
      | some m => .event m.1 m.2
      | none => (firstCoreMove s s.threads).getD .idle

/-- What moves next: a modifier's instruction with it, else the agenda's head (a thread names its core, whose picker
chooses), else the default. The state has the agenda without its head. -/
def nextMove (s : State) : Move × State :=
  if s.th.modLatch.isSome then
    match threadMove s s.th with
    | some m => (m, s)
    | none => ((ownEvent s s.th).getD (defaultMove s), s)
  else match s.agenda with
    | .thread t :: r => (match s.thread? t with
        | some x => (coreMove s x.core).getD .idle
        | none => .idle, { s with agenda := r })
    | .event i arg :: r => (.event i arg, { s with agenda := r })
    | [] => (defaultMove s, s)

/-! ### Placing a word where the next fetch finds it (notes/assumptions/7.md) -/

/-- First address of the code that `placeWord` places. -/
def placedPc : Nat := 0x10000000

/-- The bytes that `placeWord` puts into DRAM: five levels of page tables that map one page for reading, writing and
execution, accessed and dirty already, and the word in that page. -/
def placedBytes (w : Nat) : List (Nat × Byte) :=
  let entry (a v : Nat) : List (Nat × Byte) := bytesAt a (leBytes 8 v)
  entry 0x100000 (0x101000 + 1) ++ entry 0x101000 (0x102000 + 1) ++ entry 0x102000 (0x103000 + 1)
    ++ entry (0x103000 + 8 * 0x80) (0x104000 + 1) ++ entry 0x104000 (0x105000 + 0xDF)
    ++ bytesAt 0x105000 (leBytes 8 w)

/-- The grant of the partition whose code `placeWord` places; an existing one keeps everything but its root table. -/
def placedGrant : Grant :=
  { part := 0, groves := [0], ranges := [(0, 0x200000)], nets := [], domNets := [], landing := [], recN := 0, recB := 2 ^ 40
    shared := false, watchdog := true, jseed := 0, dwb := 16, tvec := 0, psave := 0, rqsb := [], pkob := [], fcpb := 0
    ptroot := 0x100000, aperture := (0, 0), spare := [], overflow := 0, image := [], ownerKey := [] }

/-- A word stands where the focus thread fetches next: the thread runs at the start of a page that its partition maps,
nothing else is on the agenda, and no cached copy of the page's bytes stands before them. -/
def placeWord (w : Nat) (s : State) : State :=
  let part := s.th.task.part
  let s := s.setPart part (match s.part? part with
    | some p => { p with grant := { p.grant with ptroot := 0x100000 }, halt := .running }
    | none => { grant := { placedGrant with part := part } })
  let placed (a : Nat) : Bool := 0x100000 ≤ a && a < 0x106000
  let s := { s with
    dram := (placedBytes w).foldl (fun m (p : Nat × Byte) => Memory.write m p.1 p.2) s.dram
    l2 := s.l2.filter fun (p : Nat × Byte) => !placed p.1
    wt := s.wt.filter fun p => !placed p.1
    tlb := []
    checks := []
    failed := []
    stands := s.stands.map fun (p : Nat × Stand) => (p.1, { p.2 with replicas := p.2.replicas.filter fun l => !placed (64 * l) })
    bad := []
    agenda := [] }
  let s := s.onCore fun c => { c with icache := c.icache.filter fun (p : Nat × Nat) => !placed p.1 }
  s.onTh fun t => { t with
    status := .running, pc := BitVec.ofNat 64 placedPc, modLatch := none, dying := none, fwd := [], crew := false
    loads := [], uncounted := false, ready := 0, ydl := if t.ydl = 0 then 65536 else t.ydl }

end Sys2Proof.Machine
end

