-- ==== Sys2Proof/Machine/Step.lean ====
section
/-!
DEFINITION. One step of the machine: what moves next (notes/assumptions/2.md) moves once.
-/
namespace Sys2Proof.Machine

open Sys2Proof

/-- The outcome of an issue: what the instruction did, then the accounting of the issue. -/
def issued (i : Instr) (s : State) (o : Outcome) : Outcome :=
  match o with
  | .next t => .next (afterIssue i s t)
  | o => o

/-- One step. -/
def step (s : State) : Host.Outcome State Fault Refusal :=
  match nextMove s with
  | (.idle, s) => .next { s with cycle := s.cycle + 1 }
  | (.event i arg, s) => exec i { s with arg := arg }
  | (.issue tid, s) =>
    match fetchFocus (pickFocus tid s) with
    | .error t => .next (finishIssue false t)
    | .ok (i, t) => issued i t (exec i t)

/-- A state whose next step fetches the given instruction and runs it (notes/assumptions/7.md). -/
def State.withFetchWord (s : State) (nbits w : Nat) : State := placeWord (w % 2 ^ nbits) s

end Sys2Proof.Machine
end

