-- ==== Sys2Proof/Safety.lean ====
section
/-!
DEFINITION. The terms in which the statements speak: canonical memories, moving past an instruction, the results an
instruction puts on their way, and what stays as it was.
-/
namespace Sys2Proof.Machine

open Sys2Proof

/-! ### What every state of the machine keeps -/

/-- Every core, grove, array and stand, and the mailbox, holds its memories in canonical form. -/
def unitsSound (s : State) : Bool :=
  s.cores.all (fun p => Memory.wf p.2.ls) && s.groves.all (fun p => Memory.wf p.2.scratch)
    && s.arrays.all (fun p => Memory.wf p.2.slice && p.2.acc.toList.all Memory.wf && p.2.abuf.toList.all Memory.wf)
    && s.stands.all (fun p => Memory.wf p.2.replica) && Memory.wf s.mail.commands && Memory.wf s.mail.responses

/-- DRAM is in canonical form. -/
def dramSound (s : State) : Bool := Memory.wf s.dram

/-! ### Moving past an instruction -/

/-- The instruction in flight is the last of an armed hardware loop (06 R151). -/
def State.atLoopEnd (s : State) : Prop :=
  (s.th.instrPc = s.th.le[0] ∧ s.th.lc[0] ≠ 0) ∨ (s.th.instrPc = s.th.le[1] ∧ s.th.lc[1] ≠ 0)

/-- `t` is `u` moved past an instruction of `len` bytes. Nothing else of the machine differs: every register, control
block, queue and byte of memory of `t` is that of `u`. Away from the end of an armed loop the pc is the next
instruction's and the loop counts stay. -/
def MovesPast (len : Nat) (u t : State) : Prop :=
  t = { u with th := { u.th with pc := t.th.pc, lc := t.th.lc, modLatch := none } }
    ∧ (¬ u.atLoopEnd → t.th.pc = u.th.pc + BitVec.ofNat 64 len ∧ t.th.lc = u.th.lc)

/-- `u` is `s` with results of the focus thread put on their way (02 R31), and nothing else. -/
def State.withPending (s : State) (ws : List Pending) : State := { s with th := { s.th with pend := s.th.pend ++ ws } }

/-- An instruction of `len` bytes completes: it puts a result of latency `lat` for s[d] on its way, whose value has the
property `p`, and changes nothing else. -/
def WritesS (i : Instr) (len lat : Nat) (d : BitVec 4) (s : State) (p : Word → Prop) : Prop :=
  ∃ t x, exec i s = .next t ∧ p x ∧ MovesPast len (s.withPending [⟨lat, .s d x⟩]) t

/-- A result with its flags (04 R92): nothing for flags that are not raised. -/
def flagsOn (lat : Nat) (f : Flags) : List Pending := if f = 0 then [] else [⟨lat, .flags f⟩]

/-- Two states whose cores differ in nothing but performance counters (17 R352). -/
def SameCores (s t : State) : Prop := ∀ c, { t.core c with pmc := (s.core c).pmc } = s.core c

/-- The state in which an instruction of effective mode SR has taken its random bits: SRC is higher by one (03 R64), and
counters may count the event; in every other mode `u` is `s`. -/
def DrawsBits (m : Mode) (s u : State) : Prop :=
  (m ≠ .sr → u = s)
    ∧ (m = .sr → u = { s with th := { s.th with src := s.th.src + 1 }, cores := u.cores } ∧ SameCores s u)

/-- A floating-point instruction of `len` bytes completes: its result of latency `lat` for s[d], in bits 31 to 0 with
zeros above, and the flags it raises have the property `p`; nothing else changes but SRC in mode SR. -/
def WritesF (i : Instr) (len lat : Nat) (d : BitVec 4) (m : Mode) (s : State) (p : Nat → Flags → Prop) : Prop :=
  ∃ t u r f, exec i s = .next t ∧ p r f ∧ DrawsBits m (s.withPending (⟨lat, .s d (BitVec.ofNat 64 r)⟩ :: flagsOn lat f)) u
    ∧ MovesPast len u t

/-- A vector instruction of `len` bytes completes: where bit j of the mask is 1, element j of `w` bits of v[d] gets the
value of `op j` on its way with latency `lat`, and no other bit of v[d]; the flags are those of the enabled elements
together; nothing else changes but SRC in mode SR (07 R162, R163). -/
def WritesV (i : Instr) (len lat w : Nat) (d : BitVec 4) (k : KWord) (m : Mode) (s : State) (op : Nat → Nat × Flags) : Prop :=
  ∃ t u v mask f, exec i s = .next t
    ∧ (∀ j < 32, k.getLsbD j = true → VElem w v j = (op j).1 % 2 ^ w ∧ VElem w mask j = 2 ^ w - 1)
    ∧ (∀ j < 32, k.getLsbD j = false → VElem w mask j = 0) ∧ (∀ b, 32 * w ≤ b → mask.getLsbD b = false)
    ∧ (∀ b, f.getLsbD b = true ↔ ∃ j < 32, k.getLsbD j = true ∧ (op j).2.getLsbD b = true)
    ∧ DrawsBits m (s.withPending (⟨lat, .v d v mask⟩ :: flagsOn lat f)) u ∧ MovesPast len u t

/-- An instruction with a mask result completes: bit j of k[d] gets the value of `op j`, for the bits in `mask` and no
other, on its way with latency `lat`; the flags are those of these bits together. -/
def WritesK (i : Instr) (lat : Nat) (d : BitVec 3) (mask : KWord) (s : State) (op : Nat → Bool × Flags) : Prop :=
  ∃ t v f, exec i s = .next t ∧ (∀ j < 32, mask.getLsbD j = true → v.getLsbD j = (op j).1)
    ∧ (∀ b, f.getLsbD b = true ↔ ∃ j < 32, mask.getLsbD j = true ∧ (op j).2.getLsbD b = true)
    ∧ MovesPast 4 (s.withPending (⟨lat, .k d v mask⟩ :: flagsOn lat f)) t

/-- A rounded result: the exact value with its flags, scaled and clamped as the modifier says, is rounded once in the
mode (03 R57, R64-R66); the flags are those of the operation and of the rounding. -/
def roundedOnce (f : Fmt) (mode : Mode) (rb : Nat) (md : Modifier) (e : Num × Flags) : Nat × Flags :=
  let q := finishNum f mode rb md e.1
  (q.1, e.2 ||| q.2)

/-- The result and flags of a floating-point instruction are the given ones. -/
def Gives (x : Nat × Flags) (r : Nat) (f : Flags) : Prop := r = x.1 ∧ f = x.2

/-! ### Memory -/

/-- Every byte of memory of `t` is that of `s`: DRAM, what is on its way there, the dirty lines, every local store and every
scratchpad. -/
def SameMemory (s t : State) : Prop :=
  t.dram = s.dram ∧ t.wt = s.wt ∧ t.l2 = s.l2 ∧ (∀ c, (t.core c).ls = (s.core c).ls)
    ∧ ∀ g, (t.grove g).scratch = (s.grove g).scratch

/-- The value of n bytes as a register takes it: sign-extended or zero-extended. -/
def Extended (sx : Bool) (n : Nat) (bs : List Byte) (x : Word) : Prop :=
  if sx = true then x.toInt = (leNat bs : Int) - (if 2 ^ (8 * n - 1) ≤ leNat bs then 2 ^ (8 * n) else 0) else x.toNat = leNat bs

/-- The instruction of `len` bytes moves past itself from the state `u`, which is all it does. -/
def Past (i : Instr) (len : Nat) (s u : State) : Prop := ∃ t, exec i s = .next t ∧ MovesPast len u t

/-- `u` is `s` with a load-path result for a destination begun (04 R93), `acq` the scope of an acquire: it takes the next
number, the instruction's address and its word, and nothing else of the machine differs. -/
def BeginsLoad (acq : Option Nat) (dest : LoadDest) (val : LoadVal) (s u : State) : Prop :=
  u = { s with fresh := s.fresh + 1
               th := { s.th with loads := s.th.loads ++ [⟨s.fresh, dest, val, s.th.pc, s.th.ir.word, acq⟩] } }

/-- A scalar load of `len` bytes of code completes from the state its checks leave: the places are read, in the order of
11 R249, as the result for s[d] returns through the load path; nothing else changes, and no byte of memory. -/
def Loads (i : Instr) (len : Nat) (d : BitVec 4) (sx : Bool) (n : Nat) (va : Word) (ls : List Loc) (acq : Option Nat) (s s2 : State) :
    Prop :=
  ∃ t u, exec i s = .next t ∧ BeginsLoad acq (.s d) (.reading (.scalar sx n) [⟨0, va, ls⟩] []) s2 u ∧ MovesPast len u t ∧ SameMemory s2 t

/-- The bytes that an instruction of the focus thread reads at places as it issues, from the state its address checks leave:
no storage error is met, what the thread did there before is performed first, and no array command must come before
(12 R270); `t` is the state after the reading. -/
def ReadsNow (va : Word) (ls : List Loc) (s : State) (bs : List Byte) (t : State) : Prop :=
  ∃ u, checkData va ls s = .ok u ∧ readBlocked (beforeReading ls u) ls = false
    ∧ readAs (beforeReading ls u).th false ls (beforeReading ls u) = (bs, t)

/-- An instruction whose bytes come behind something that still waits (12 R270): it has its result on the way, which reads them
once that is done, and the thread goes on (notes/assumptions/97.md). `a` and `b` are the values of its registers. -/
def ReadsLate (i : Instr) (acq : Option Nat) (dest : LoadDest) (a b va : Word) (ls : List Loc) (s s1 : State) : Prop :=
  ∀ u, checkData va ls s1 = .ok u → let m := beforeReading ls u
    readBlocked m ls = true → ∃ v, BeginsLoad acq dest (.acting (.late i a b ls)) m v ∧ Past i 4 s v

/-- `m` is the state in which result l of thread x acts late: the thread in the focus, at its instruction. -/
def LateAt (s : State) (x : Thread) (l : Load) (m : State) : Prop :=
  let f := (s.fillLoad x.id l.id .waiting).focus x.id
  m = { f with th := { f.th with pc := l.pc, modLatch := none, ir := { f.th.ir with word := l.word, hasMod := false } } }

/-- The bytes at places as a result that acts late reads them, `t` the state after. -/
def LateReads (a : Word) (acq : Option Nat) (ls : List Loc) (m : State) (bs : List Byte) (t : State) : Prop :=
  ∃ u, checkData a ls m = .ok u ∧ readAs u.th (wideAcquire acq) ls u = (bs, t)

/-- What a result of thread x did late ends in the state `v`: the thread goes on where it was. -/
def LateEnds (s : State) (x : Thread) (v : State) : Prop :=
  exec .loadReturn s = .next (({ v with th := { v.th with pc := x.pc, modLatch := x.modLatch, ir := x.ir } } : State).focus s.th.id)

/-- A late act meets a fault, which comes back through the load path in place of the result. -/
def LateFaults (s : State) (x : Thread) (l : Load) (cause fidx fval : Nat) (a v : Word) : Prop :=
  ∃ tr : Trap, exec .loadReturn s = .next ((retireTrap tr s).fillLoad x.id l.id (.fault cause fidx fval a v)) ∧ tr.cause = cause

/-- The store that a thread queues: its number, its pieces, the scope of its release, and the clocks of 11 R246. -/
def QueuesStore (rel : Option Nat) (parts : List StorePart) (s t : State) : Prop :=
  ∃ q : QStore, t = { s with fresh := s.fresh + 1, th := { s.th with sq := s.th.sq ++ [.store q] } }
    ∧ q.no = s.fresh ∧ q.parts = parts ∧ q.rel = rel ∧ q.lvl = 0

/-- A scalar store of `len` bytes of code completes from the state its checks leave: the low bytes of s[d] for its places
join the store queue as one piece; where the queue has room, memory and every register stay. -/
def Stores (i : Instr) (len : Nat) (d : BitVec 4) (n : Nat) (ls : List Loc) (rel : Option Nat) (s s1 : State) : Prop :=
  ls.length = n ∧ ∃ t u, exec i s = .next t
    ∧ QueuesStore rel [⟨ls, (s1.getS d).toNat, 2 ^ (8 * n) - 1⟩] (makeRoom s1) u ∧ MovesPast len u t
    ∧ (storeCount s1.th.sq < 16 → SameMemory s1 t ∧ t.th.s = s1.th.s ∧ t.threads = s1.threads)

/-! ### Waits, holds and traps -/

/-- The focus thread waits at its instruction, which will execute again (02 R33); nothing else changes. -/
def WaitsAt (i : Instr) (w : Wait) (s : State) : Prop :=
  exec i s = .next { s with th := { s.th with status := .waiting w s.cycle, uncounted := true } }

/-- The instruction takes a trap of a cause with an operand field, TRAPA and TRAPV, from the state `u` (06 R155). -/
def Traps (i : Instr) (s u : State) (cause fidx fval : Nat) (a v : Word) : Prop :=
  ∃ tr : Trap, exec i s = .next (takeTrap tr u) ∧ tr.cause = cause ∧ tr.fidx = fidx ∧ tr.fval = fval ∧ tr.a = a ∧ tr.v = v
    ∧ tr.next = false

/-- `u` is `s` with the error mark of tag k of a core reported: the mark goes with its address (08 R199). -/
def Reported (u : State) (core k : Nat) (s : State) : Prop :=
  let c := s.core core
  u = s.setCore core { c with tagErr := c.tagErr &&& ~~~BitVec.ofNat 64 (2 ^ k), tagFault := Table.drop k c.tagFault }

/-- A waiting instruction of 4 bytes completes: its core's picker stands at its slot (02 R29), its thread, the focus of `u`,
runs on past it, and its issue is accounted. -/
def RunsOn (i : Instr) (s u : State) : Prop :=
  ∃ t, exec i s = .next (completed false false t)
    ∧ MovesPast 4 { u.setCore u.th.core { u.myCore with cur := u.th.slot } with th := { u.th with status := .running, uncounted := false } } t

end Sys2Proof.Machine
end

