-- ==== Sys2Proof/WellFormed.lean ====
section
/-!
DEFINITION. Well-formed instructions: those whose every field holds a value that the instruction's entry admits
(04 R78, R95). A field beyond its range has no place in `Instr` where the row gives the field its own width.
-/
namespace Sys2Proof

/-- No field of the instruction is at fault (04 R95). -/
def Instr.wellFormed (i : Instr) : Bool := i.fieldFault.isNone

/-- The instruction is one of the encoded rows of the table. -/
def Instr.encoded (i : Instr) : Bool := i.toRow.isSome

end Sys2Proof
end

