-- ==== Sys2Proof/Certificates/Slice0/Obligations.lean ====
section
/-!
DEFINITION. The statements for the provers.
-/

open Sys2Proof Sys2Proof.Machine

/-- Reset leaves canonical memories. -/
def Obligations.ResetSound : Prop := dramSound State.reset = true ∧ unitsSound State.reset = true

/-- The ALU forms of registers (06 R139, R140): every one completes on every state and all operands, with the latency of
the table. -/
def Obligations.AluForms : Prop :=
  ∀ (d a b : BitVec 4) (s : State), let A := s.getS a; let B := s.getS b; let n := B.toNat % 64
    WritesS (.add d a b) 4 1 d s (· = BitVec.ofInt 64 (A.toInt + B.toInt))
    ∧ WritesS (.sub d a b) 4 1 d s (· = BitVec.ofInt 64 (A.toInt - B.toInt))
    ∧ WritesS (.and d a b) 4 1 d s (fun x => ∀ i, x.getLsbD i = (A.getLsbD i && B.getLsbD i))
    ∧ WritesS (.or d a b) 4 1 d s (fun x => ∀ i, x.getLsbD i = (A.getLsbD i || B.getLsbD i))
    ∧ WritesS (.xor d a b) 4 1 d s (fun x => ∀ i, x.getLsbD i = (A.getLsbD i != B.getLsbD i))
    ∧ WritesS (.andn d a b) 4 1 d s (fun x => ∀ i, x.getLsbD i = (A.getLsbD i && !B.getLsbD i))
    ∧ WritesS (.shl d a b) 4 1 d s (· = BitVec.ofNat 64 (A.toNat * 2 ^ n))
    ∧ WritesS (.shr d a b) 4 1 d s (·.toNat = A.toNat / 2 ^ n)
    ∧ WritesS (.sar d a b) 4 1 d s (·.toInt = A.toInt / 2 ^ n)
    ∧ WritesS (.mul d a b) 4 3 d s (· = BitVec.ofInt 64 (A.toInt * B.toInt))
    ∧ WritesS (.mulh d a b) 4 3 d s (·.toInt = A.toInt * B.toInt / 2 ^ 64)
    ∧ WritesS (.mulhu d a b) 4 3 d s (·.toNat = A.toNat * B.toNat / 2 ^ 64)
    ∧ WritesS (.div d a b) 4 18 d s (fun x =>
        (B = 0 → A = 0 → x = 0) ∧ (B = 0 → 0 < A.toInt → x.toInt = 2 ^ 63 - 1) ∧ (B = 0 → A.toInt < 0 → x.toInt = -2 ^ 63)
        ∧ (A.toInt = -2 ^ 63 → B.toInt = -1 → x.toInt = 2 ^ 63 - 1)
        ∧ (B ≠ 0 → ¬ (A.toInt = -2 ^ 63 ∧ B.toInt = -1) → x.toInt = A.toInt.tdiv B.toInt))
    ∧ WritesS (.divu d a b) 4 18 d s (fun x =>
        (B = 0 → A = 0 → x = 0) ∧ (B = 0 → A ≠ 0 → x.toNat = 2 ^ 64 - 1) ∧ (B ≠ 0 → x.toNat = A.toNat / B.toNat))
    ∧ WritesS (.rem d a b) 4 18 d s (fun x =>
        (B = 0 → x = A) ∧ (A.toInt = -2 ^ 63 → B.toInt = -1 → x = 0) ∧ (B ≠ 0 → x.toInt = A.toInt.tmod B.toInt))
    ∧ WritesS (.remu d a b) 4 18 d s (fun x => (B = 0 → x = A) ∧ (B ≠ 0 → x.toNat = A.toNat % B.toNat))
    ∧ WritesS (.min d a b) 4 1 d s (·.toInt = Min.min A.toInt B.toInt)
    ∧ WritesS (.max d a b) 4 1 d s (·.toInt = Max.max A.toInt B.toInt)
    ∧ WritesS (.minu d a b) 4 1 d s (·.toNat = Min.min A.toNat B.toNat)
    ∧ WritesS (.maxu d a b) 4 1 d s (·.toNat = Max.max A.toNat B.toNat)
    ∧ WritesS (.slt d a b) 4 1 d s (· = if A.toInt < B.toInt then 1 else 0)
    ∧ WritesS (.sltu d a b) 4 1 d s (· = if A.toNat < B.toNat then 1 else 0)
    ∧ WritesS (.seq d a b) 4 1 d s (· = if A = B then 1 else 0)
    ∧ WritesS (.clz d a) 4 1 d s (fun x => x.toNat ≤ 64 ∧ A.toNat < 2 ^ (64 - x.toNat) ∧ (A ≠ 0 → 2 ^ (63 - x.toNat) ≤ A.toNat))
    ∧ WritesS (.ctz d a) 4 1 d s (fun x => x.toNat ≤ 64 ∧ (∀ i < x.toNat, A.getLsbD i = false) ∧ (A ≠ 0 → A.getLsbD x.toNat = true)
        ∧ (A = 0 → x = 64))
    ∧ WritesS (.popc d a) 4 1 d s (·.toNat = ((List.range 64).map fun i => if A.getLsbD i then 1 else 0).sum)
    ∧ WritesS (.sextB d a) 4 1 d s (·.toInt = (A.extractLsb' 0 8).toInt)
    ∧ WritesS (.sextH d a) 4 1 d s (·.toInt = (A.extractLsb' 0 16).toInt)
    ∧ WritesS (.sextW d a) 4 1 d s (·.toInt = (A.extractLsb' 0 32).toInt)
    ∧ WritesS (.sel d a b) 4 1 d s (· = if s.getS d ≠ 0 then A else B)

/-- The ALU forms of a register and an immediate (06 R141): a shift immediate outside 0 to 63 is not well-formed and names
index 6; every other form completes. LUI and ADPC (06 R142), and the 16-bit integer forms (04 R84). -/
def Obligations.AluImmediates : Prop :=
  (∀ (d a : BitVec 4) (i : BitVec 14) (s : State), let A := s.getS a
     WritesS (.addi d a i) 4 1 d s (· = BitVec.ofInt 64 (A.toInt + i.toInt))
     ∧ WritesS (.andi d a i) 4 1 d s (fun x => ∀ j < 64, x.getLsbD j = (A.getLsbD j && if j < 14 then i.getLsbD j else i.getLsbD 13))
     ∧ WritesS (.ori d a i) 4 1 d s (fun x => ∀ j < 64, x.getLsbD j = (A.getLsbD j || if j < 14 then i.getLsbD j else i.getLsbD 13))
     ∧ WritesS (.xori d a i) 4 1 d s (fun x => ∀ j < 64, x.getLsbD j = (A.getLsbD j != if j < 14 then i.getLsbD j else i.getLsbD 13))
     ∧ WritesS (.slti d a i) 4 1 d s (· = if A.toInt < i.toInt then 1 else 0)
     ∧ (0 ≤ i.toInt → i.toInt ≤ 63 →
         WritesS (.shli d a i) 4 1 d s (· = BitVec.ofNat 64 (A.toNat * 2 ^ i.toNat))
         ∧ WritesS (.shri d a i) 4 1 d s (·.toNat = A.toNat / 2 ^ i.toNat)
         ∧ WritesS (.sari d a i) 4 1 d s (·.toInt = A.toInt / 2 ^ i.toNat))
     ∧ (i.toInt < 0 ∨ 63 < i.toInt → (Instr.shli d a i).fieldFault = some 6 ∧ (Instr.shri d a i).fieldFault = some 6
         ∧ (Instr.sari d a i).fieldFault = some 6))
  ∧ ((∀ (d : BitVec 4) (i : BitVec 18) (s : State),
       WritesS (.lui d i) 4 1 d s (·.toInt = i.toInt * 2 ^ 14)
       ∧ WritesS (.adpc d i) 4 1 d s (· = s.th.pc + BitVec.ofInt 64 (i.toInt * 2 ^ 14)))
     ∧ ∀ (x y : BitVec 4) (s : State), let A := s.getS x; let B := s.getS y
       WritesS (.mov16 x y) 2 1 x s (· = B)
       ∧ WritesS (.add16 x y) 2 1 x s (· = BitVec.ofNat 64 (A.toNat + B.toNat))
       ∧ WritesS (.sub16 x y) 2 1 x s (· = BitVec.ofInt 64 (A.toInt - B.toInt))
       ∧ WritesS (.and16 x y) 2 1 x s (fun r => ∀ i, r.getLsbD i = (A.getLsbD i && B.getLsbD i))
       ∧ WritesS (.or16 x y) 2 1 x s (fun r => ∀ i, r.getLsbD i = (A.getLsbD i || B.getLsbD i))
       ∧ WritesS (.addi4 x y) 2 1 x s (· = BitVec.ofInt 64 (A.toInt + y.toInt))
       ∧ WritesS (.shli4 x y) 2 1 x s (· = BitVec.ofNat 64 (A.toNat * 2 ^ y.toNat))
       ∧ WritesS (.shri4 x y) 2 1 x s (·.toNat = A.toNat / 2 ^ y.toNat))

/-- A fixed-latency result becomes visible at its issue distance (02 R31): a scalar result of latency L put on its way by
an instruction, where no other result is on its way, is not read by an instruction at a distance below L, and is read by
one at a distance of L or more; a result for s0 is never read (06 R130), and no other register changes. Two results for one
register take effect at their own points (02 R32): after both points the register holds the result whose point is later, and
the younger one where the points coincide. Flags that reach FCSR are sticky: they join the flags that are there, and nothing
else of FCSR changes (04 R92). -/
def Obligations.ResultLatency : Prop :=
  (∀ (d r : BitVec 4) (x : Word) (lat n : Nat) (s : State), s.th.pend = [] → 1 ≤ lat →
     (tick n (s.pushW lat (.s d x))).getS r
       = if r = d ∧ d ≠ 0 ∧ lat ≤ n then x else s.getS r)
  ∧ (∀ (d : BitVec 4) (x y : Word) (l1 l2 gap n : Nat) (s : State), s.th.pend = [] → d ≠ 0 → 1 ≤ l1 → 1 ≤ l2 → l1 ≤ n + gap → l2 ≤ n →
       (tick n ((tick gap (s.pushW l1 (.s d x))).pushW l2 (.s d y))).getS d = if gap + l2 < l1 then x else y)
  ∧ (∀ (f : Flags) (lat n : Nat) (s : State), s.th.pend = [] → 1 ≤ lat →
       let t := tick n (s.raise lat f)
       ∀ i, t.th.fcsr.getLsbD i = (s.th.fcsr.getLsbD i || (decide (lat ≤ n) && decide (i < 5) && f.getLsbD i)))

/-- s0 reads 0 and k0 reads all ones, whatever is written to them (06 R130); a load-path result for s0 holds nothing. -/
def Obligations.HardwiredRegisters : Prop :=
  (∀ (t : Thread) (x : Word) (m v : KWord), t.getS 0 = 0 ∧ t.getK 0 = 0xFFFFFFFF ∧ t.setS 0 x = t ∧ t.setK 0 v m = t
    ∧ (LoadDest.s 0).reg? = none)
  ∧ (∀ (t : Thread) (d r : BitVec 4) (x : Word), d ≠ 0 → (t.setS d x).getS r = if r = d then x else t.getS r)
  ∧ (∀ (t : Thread) (d r : BitVec 3) (v m : KWord) (i : Nat), d ≠ 0 →
      ((t.setK d v m).getK r).getLsbD i = if r = d ∧ m.getLsbD i = true then v.getLsbD i else (t.getK r).getLsbD i)
  ∧ (∀ (t : Thread) (d r : BitVec 4) (v m : VWord) (i : Nat),
      ((t.setV d v m).getV r).getLsbD i = if r = d ∧ m.getLsbD i = true then v.getLsbD i else (t.getV r).getLsbD i)

/-- FADD, FSUB, FMUL, FFMA, FDIV and FSQRT (06 R143, R144): the exact result, rounded once in the effective mode. The
special results: 0 ÷ 0 and Inf ÷ Inf give a NaN with NV; a finite nonzero value by 0 gives an infinity with DZ; the root of a
negative nonzero value is a NaN with NV, of −0 it is −0, of +Inf +Inf; and 0 × Inf raises NV in FFMA even where d is a quiet
NaN. Every NaN result is 0x7FC00000. -/
def Obligations.FpArithmetic : Prop :=
  (∀ (d a b : BitVec 4) (m : BitVec 3) (s : State),
     let A := srcA s.th (s.getS a); let B := srcB s.th (s.getS b); let D := decodeNum .f32 ((s.getS d).toNat % 2 ^ 32)
     let mode := s.th.mode m; let down := decide (mode = .rdn)
     let ok (e : Machine.Num × Flags) := Gives (roundedOnce .f32 mode (s.th.drawOf.rbits 0) s.th.modifier e)
     WritesF (.fadd d a b m) 4 4 d mode s (ok (A.add down B))
     ∧ WritesF (.fsub d a b m) 4 4 d mode s (ok (A.add down B.negate))
     ∧ WritesF (.fmul d a b m) 4 4 d mode s (ok (A.mul B))
     ∧ WritesF (.ffma d a b m) 4 4 d mode s (ok (((A.mul B).1.add down D).1, (A.mul B).2 ||| ((A.mul B).1.add down D).2))
     ∧ WritesF (.fdiv d a b m) 4 14 d mode s (ok (A.div B))
     ∧ WritesF (.fsqrt d a m) 4 14 d mode s (ok A.sqrt))
  ∧ ((∀ (n n' : Bool) (e e' : Int), ((Machine.Num.fin n 0 e).div (.fin n' 0 e')).1.isNan = true ∧ ((Machine.Num.fin n 0 e).div (.fin n' 0 e')).2 = flagNV)
     ∧ (∀ n n' : Bool, ((Machine.Num.inf n).div (.inf n')).1.isNan = true ∧ ((Machine.Num.inf n).div (.inf n')).2 = flagNV)
     ∧ (∀ (n n' : Bool) (m : Nat) (e e' : Int), m ≠ 0 → (Machine.Num.fin n m e).div (.fin n' 0 e') = (.inf (n != n'), flagDZ))
     ∧ (∀ (m : Nat) (e : Int), m ≠ 0 → ((Machine.Num.fin true m e).sqrt).1.isNan = true ∧ ((Machine.Num.fin true m e).sqrt).2 = flagNV)
     ∧ (∀ (n : Bool) (e : Int), (∃ e', (Machine.Num.fin n 0 e).sqrt.1 = .fin n 0 e') ∧ (Machine.Num.fin n 0 e).sqrt.2 = 0)
     ∧ (Machine.Num.inf false).sqrt = (.inf false, 0)
     ∧ (∀ (n n' down : Bool) (e : Int) , flagNV &&& (fusedSum down (.fin n 0 e) (.inf n') (.nan false)).2 = flagNV)
     ∧ (∀ (mode : Mode) (rb : Nat) (sig : Bool), (roundNum .f32 mode rb (.nan sig)).1 = 0x7FC00000))

/-- The FPU forms without a rounding (06 R144, R145): FMIN and FMAX, for which −0 is below +0 (03 R59); the comparisons, which never hold for a NaN; FCLASS;
FMOV and the sign forms, which copy bits and raise no flag. -/
def Obligations.FpBitForms : Prop :=
  ∀ (d a b : BitVec 4) (s : State),
    let A := (s.getS a).toNat % 2 ^ 32; let B := (s.getS b).toNat % 2 ^ 32
    let x := decodeNum .f32 A; let y := decodeNum .f32 B; let nan := x.isNan || y.isNan
    let sign (c : Bool) := A % 2 ^ 31 + if c then 2 ^ 31 else 0
    let sa := (s.getS a).getLsbD 31; let sb := (s.getS b).getLsbD 31
    let zeros := A % 2 ^ 31 = 0 ∧ B % 2 ^ 31 = 0 ∧ A ≠ B
    WritesF (.fmin d a b) 4 4 d .rne s (fun r f => (x.isNan = false → y.isNan = true → r = A) ∧ (y.isNan = false → x.isNan = true → r = B)
      ∧ (nan = false → (r = A ∨ r = B) ∧ (decodeNum .f32 r).cmp x ≤ 0 ∧ (decodeNum .f32 r).cmp y ≤ 0)
      ∧ (zeros → r = 2 ^ 31)
      ∧ (x.isNan = true → y.isNan = true → r = 0x7FC00000) ∧ f = if x.isSnan || y.isSnan then flagNV else 0)
    ∧ WritesF (.fmax d a b) 4 4 d .rne s (fun r f => (x.isNan = false → y.isNan = true → r = A) ∧ (y.isNan = false → x.isNan = true → r = B)
      ∧ (nan = false → (r = A ∨ r = B) ∧ 0 ≤ (decodeNum .f32 r).cmp x ∧ 0 ≤ (decodeNum .f32 r).cmp y)
      ∧ (zeros → r = 0)
      ∧ (x.isNan = true → y.isNan = true → r = 0x7FC00000) ∧ f = if x.isSnan || y.isSnan then flagNV else 0)
    ∧ WritesF (.fcmpEq d a b) 4 2 d .rne s (Gives (if nan = false ∧ x.cmp y = 0 then 1 else 0, if x.isSnan || y.isSnan then flagNV else 0))
    ∧ WritesF (.fcmpLt d a b) 4 2 d .rne s (Gives (if nan = false ∧ x.cmp y < 0 then 1 else 0, if nan then flagNV else 0))
    ∧ WritesF (.fcmpLe d a b) 4 2 d .rne s (Gives (if nan = false ∧ x.cmp y ≤ 0 then 1 else 0, if nan then flagNV else 0))
    ∧ WritesF (.fclass d a) 4 2 d .rne s (fun r f => r / 256 = A / 2 ^ 23 % 256 ∧ r / 16 % 16 = 0 ∧ r / 8 % 2 = A / 2 ^ 31 ∧ f = 0
      ∧ r % 8 = if A / 2 ^ 23 % 256 = 0 then (if A % 2 ^ 23 = 0 then 0 else 1)
          else if A / 2 ^ 23 % 256 < 255 then 2 else if A % 2 ^ 23 = 0 then 3 else if A / 2 ^ 22 % 2 = 1 then 4 else 5)
    ∧ WritesF (.fmov d a) 4 2 d .rne s (Gives (A, 0))
    ∧ WritesF (.fsgnCp d a b) 4 2 d .rne s (Gives (sign sb, 0))
    ∧ WritesF (.fsgnNeg d a) 4 2 d .rne s (Gives (sign (!sa), 0))
    ∧ WritesF (.fsgnAbs d a) 4 2 d .rne s (Gives (sign false, 0))
    ∧ WritesF (.fsgnMul d a b) 4 2 d .rne s (Gives (sign (sa != sb), 0))

/-- FCVT (06 R146): integers to FP32, rounded once in the mode, from INT32 with no flag; FP32, scaled, to integers,
sign-extended: a NaN gives 0 with NV; a value whose rounded integer is out of range gives the least or greatest integer with
NV; any other its rounded integer, with NX where that is inexact. With SAT what lies outside the clamp gives its bound with
NX. The rounded integer of a value in each mode, and when it is exact (03 R57). -/
def Obligations.FpConversions : Prop :=
  (∀ (d a : BitVec 4) (m : BitVec 3) (s : State),
    let mode := s.th.mode m; let rb := s.th.drawOf.rbits 0; let md := s.th.modifier
    let y := (srcA s.th (s.getS a)).scale md.scale
    let toInt (n : Nat) (i : Instr) : Prop :=
      let lo : Int := -2 ^ (n - 1); let hi : Int := 2 ^ (n - 1) - 1
      let clamp : Int × Int := if md.sat = 1 then (lo, hi) else if md.sat = 2 then (0, 1) else (-1, 1)
      ∃ t u x fl, exec i s = .next t ∧ DrawsBits mode (s.withPending (⟨3, .s d x⟩ :: flagsOn 3 fl)) u ∧ MovesPast 4 u t
        ∧ (y.isNan = true → x = 0 ∧ fl = flagNV)
        ∧ (md.sat = 0 → (y = .inf false → x.toInt = hi ∧ fl = flagNV) ∧ (y = .inf true → x.toInt = lo ∧ fl = flagNV))
        ∧ (md.sat ≠ 0 → y.isNan = false → (y.cmp (.ofInt clamp.1) < 0 → x.toInt = clamp.1 ∧ fl = flagNX)
            ∧ (0 < y.cmp (.ofInt clamp.2) → x.toInt = clamp.2 ∧ fl = flagNX))
        ∧ ∀ neg k e, y = .fin neg k e → let r := roundUnits mode rb neg k e 0; let v := signedMag neg r.1
            (md.sat ≠ 0 → 0 ≤ y.cmp (.ofInt clamp.1) ∧ y.cmp (.ofInt clamp.2) ≤ 0) →
            (v < lo → x.toInt = lo ∧ fl = flagNV) ∧ (hi < v → x.toInt = hi ∧ fl = flagNV)
            ∧ (lo ≤ v → v ≤ hi → x.toInt = v ∧ fl = if r.2 = true then 0 else flagNX)
    WritesF (.fcvtF32I32 d a m) 4 3 d mode s
      (Gives ((roundNum .f32 mode rb (.ofInt ((s.getS a).extractLsb' 0 32).toInt)).1, 0))
    ∧ WritesF (.fcvtF32I64 d a m) 4 3 d mode s (Gives (roundNum .f32 mode rb (.ofInt (s.getS a).toInt)))
    ∧ toInt 32 (.fcvtI32F32 d a m) ∧ toInt 64 (.fcvtI64F32 d a m))
  ∧ ∀ (mode : Mode) (rb : Nat) (neg : Bool) (k : Nat) (e : Int), rb < 2 ^ 32 →
      let x := Machine.Num.fin neg k e; let r := roundUnits mode rb neg k e 0; let v := signedMag neg r.1
      let floor := (Machine.Num.ofInt v).cmp x ≤ 0 ∧ x.cmp (.ofInt (v + 1)) < 0
      let ceil := x.cmp (.ofInt v) ≤ 0 ∧ (Machine.Num.ofInt (v - 1)).cmp x < 0
      (r.2 = true ↔ x.cmp (.ofInt v) = 0) ∧ (floor ∨ ceil) ∧ (mode = .rdn → floor) ∧ (mode = .rup → ceil)
        ∧ (mode = .rtz → (neg = false → floor) ∧ (neg = true → ceil))
        ∧ (mode = .rne → let y := x.scale 1
            (Machine.Num.ofInt (2 * v - 1)).cmp y ≤ 0 ∧ y.cmp (.ofInt (2 * v + 1)) ≤ 0
            ∧ ((Machine.Num.ofInt (2 * v - 1)).cmp y = 0 ∨ y.cmp (.ofInt (2 * v + 1)) = 0 → v % 2 = 0))

/-- The floating lane forms (07 R166, R172, R173-R177): each enabled lane is rounded once in the effective mode, or for
the function instructions to nearest even, with the lane's own random bits. -/
def Obligations.VectorFloat : Prop :=
  ∀ (d a b : BitVec 4) (k m : BitVec 3) (s : State),
    let mode := s.th.mode m; let down := decide (mode = .rdn); let md := s.th.modifier; let K := s.getK k
    let A (j : Nat) := applySign md.absa md.nega (decodeNum .f32 (lane (s.getV a) j).toNat)
    let B (j : Nat) := applySign md.absb md.negb (decodeNum .f32 (lane (s.getV b) j).toNat)
    let D (j : Nat) := decodeNum .f32 (lane (s.getV d) j).toNat
    let X (j : Nat) := decodeNum .f32 (lane (s.getV a) j).toNat
    let once (e : Nat → Machine.Num × Flags) (j : Nat) := roundedOnce .f32 mode (s.th.drawOf.rbits j) md (e j)
    let near (e : Nat → Machine.Num × Flags) (j : Nat) := roundedOnce .f32 .rne 0 {} (e j)
    WritesV (.vadd d a b k m) 4 4 32 d K mode s (once fun j => (A j).add down (B j))
    ∧ WritesV (.vsub d a b k m) 4 4 32 d K mode s (once fun j => (A j).add down (B j).negate)
    ∧ WritesV (.vmul d a b k m) 4 4 32 d K mode s (once fun j => (A j).mul (B j))
    ∧ WritesV (.vfma d a b k m) 4 4 32 d K mode s (once fun j => fusedSum down (A j) (B j) (D j))
    ∧ WritesV (.vfms d a b k m) 4 4 32 d K mode s (once fun j => laneFms down (D j) (A j) (B j))
    ∧ WritesV (.vrcp d a k) 4 6 32 d K .rne s (near fun j => (X j).recip)
    ∧ WritesV (.vrsq d a k) 4 6 32 d K .rne s (near fun j => (X j).rsqrt)
    ∧ WritesV (.vexp2 d a k) 4 6 32 d K .rne s (near fun j => (X j).exp2)
    ∧ WritesV (.vlog2 d a k) 4 6 32 d K .rne s (near fun j => (X j).log2)
    ∧ WritesV (.vsacc d a b k m) 4 4 32 d K mode s (once fun j => (D j).add down ((A j).scale (nearExponent (s.getS b).toInt)))

/-- The integer, logical, shift, minimum and maximum lane forms (07 R166, R167), lane by lane. -/
def Obligations.VectorInteger : Prop :=
  ∀ (d a b : BitVec 4) (k : BitVec 3) (s : State), let K := s.getK k
    let A (j : Nat) := (lane (s.getV a) j).toNat; let B (j : Nat) := (lane (s.getV b) j).toNat
    let I (j : Nat) := (lane (s.getV a) j).toInt
    WritesV (.viadd d a b k) 4 2 32 d K .rne s (fun j => (A j + B j, 0))
    ∧ WritesV (.visub d a b k) 4 2 32 d K .rne s (fun j => (A j + 2 ^ 32 - B j, 0))
    ∧ WritesV (.vimul d a b k) 4 4 32 d K .rne s (fun j => (A j * B j, 0))
    ∧ WritesV (.vand d a b k) 4 2 32 d K .rne s (fun j => (A j &&& B j, 0))
    ∧ WritesV (.vor d a b k) 4 2 32 d K .rne s (fun j => (A j ||| B j, 0))
    ∧ WritesV (.vxor d a b k) 4 2 32 d K .rne s (fun j => (A j ^^^ B j, 0))
    ∧ WritesV (.vshl d a b k) 4 2 32 d K .rne s (fun j => (A j * 2 ^ (B j % 32), 0))
    ∧ WritesV (.vshr d a b k) 4 2 32 d K .rne s (fun j => (A j / 2 ^ (B j % 32), 0))
    ∧ WritesV (.vsar d a b k) 4 2 32 d K .rne s (fun j => ((I j / 2 ^ (B j % 32) % 2 ^ 32).toNat, 0))
    ∧ WritesV (.vmin d a b k) 4 2 32 d K .rne s (fun j => minMaxBits false .f32 (A j) (B j))
    ∧ WritesV (.vmax d a b k) 4 2 32 d K .rne s (fun j => minMaxBits true .f32 (A j) (B j))

/-- VCMP (07 R168): the bits of the enabled lanes only. A relation of FP32 lanes never holds for a NaN but "not equal" and
"unordered"; integer relations are signed or unsigned. -/
def Obligations.VectorCompare : Prop :=
  ∀ (d a b : BitVec 4) (k : BitVec 3) (r : BitVec 4) (t : BitVec 3) (s : State), (Instr.vcmp d a b k r t).wellFormed = true →
    let A (j : Nat) := lane (s.getV a) j; let B (j : Nat) := lane (s.getV b) j
    let x (j : Nat) := decodeNum .f32 (A j).toNat; let y (j : Nat) := decodeNum .f32 (B j).toNat
    let nan (j : Nat) := (x j).isNan || (y j).isNan
    let sig (j : Nat) := (x j).isSnan || (y j).isSnan
    let holds (lt eq gt : Bool) : Bool := [eq, !eq, lt, lt || eq, gt, gt || eq].getD r.toNat false
    WritesK (.vcmp d a b k r t) 2 (d.setWidth 3) (s.getK k) s (fun j =>
      if t = 0 then
        (if nan j then decide (r = 1 ∨ r = 7)
          else decide (r = 6) || holds (decide ((x j).cmp (y j) < 0)) (decide ((x j).cmp (y j) = 0)) (decide (0 < (x j).cmp (y j))),
          if (if 2 ≤ r.toNat ∧ r.toNat ≤ 5 then nan j else sig j) then flagNV else 0)
      else if t = 1 then (holds (decide ((A j).toInt < (B j).toInt)) (decide (A j = B j)) (decide ((B j).toInt < (A j).toInt)), 0)
      else (holds (decide ((A j).toNat < (B j).toNat)) (decide (A j = B j)) (decide ((B j).toNat < (A j).toNat)), 0))

/-- Selection and movement of lanes (07 R169, R170). -/
def Obligations.VectorMoves : Prop :=
  ∀ (d a b : BitVec 4) (k : BitVec 3) (u : BitVec 1) (s : State), let K := s.getK k
    let A (j : Nat) := (lane (s.getV a) j).toNat; let B (j : Nat) := (lane (s.getV b) j).toNat; let n := (s.getS b).toNat
    WritesV (.vsel d a b k) 4 2 32 d 0xFFFFFFFF .rne s (fun j => (if K.getLsbD j then A j else B j, 0))
    ∧ WritesV (.vmov d a k) 4 2 32 d K .rne s (fun j => (A j, 0))
    ∧ WritesV (.vbcast d a k) 4 2 32 d K .rne s (fun _ => ((s.getS a).toNat, 0))
    ∧ WritesV (.vins d a b) 4 2 32 d (BitVec.ofNat 32 (2 ^ (n % 32))) .rne s (fun _ => ((s.getS a).toNat, 0))
    ∧ WritesV (.viota d k) 4 2 32 d K .rne s (fun j => (((List.range j).map fun i => if K.getLsbD i then 1 else 0).sum, 0))
    ∧ WritesV (.vperm d a b k) 4 3 32 d K .rne s (fun j => (A (B j % 32), 0))
    ∧ WritesV (.vslide d a b k u) 4 3 32 d K .rne s (fun j =>
        (if u = 0 then (if j + n ≤ 31 then A (j + n) else 0) else if n ≤ j then A (j - n) else 0, 0))
    ∧ WritesS (.vext d a b) 4 2 d s (·.toNat = A (n % 32))

/-- The cross-lane reductions (03 R71, 07 R171): the pairwise tree over 32 values, those of masked-off lanes neutral. The
tree joins neighbours, level by level: with an operation that raises no flag its root is the join of the roots of the two
halves. -/
def Obligations.VectorReductions : Prop :=
  (∀ (d a : BitVec 4) (k m : BitVec 3) (s : State),
     let xs (neutral : Nat) := (List.range 32).map fun i => if (s.getK k).getLsbD i then (lane (s.getV a) i).toNat else neutral
     let root (f : Nat → Nat → Nat → Nat × Flags) (neutral : Nat) : Nat × Flags :=
       ((treeReduce f 5 0 (xs neutral)).1.headD 0, (treeReduce f 5 0 (xs neutral)).2)
     WritesF (.vredsum d a k m) 4 10 d (s.th.mode m) s
       (Gives (root (fun n x y => sumBits (s.th.mode m) (s.th.drawOf.rbits n) x y) 0x80000000))
     ∧ WritesF (.vredmax d a k) 4 10 d .rne s (Gives (root (fun _ x y => minMaxBits true .f32 x y) 0xFF800000))
     ∧ WritesF (.vredmin d a k) 4 10 d .rne s (Gives (root (fun _ x y => minMaxBits false .f32 x y) 0x7F800000)))
  ∧ (∀ (f : Nat → Nat → Nat) (xs ys : List Nat), xs.length = 16 → ys.length = 16 →
       let g (_ : Nat) (x y : Nat) : Nat × Flags := (f x y, 0)
       (treeReduce g 5 0 (xs ++ ys)).1 = [f ((treeReduce g 4 0 xs).1.headD 0) ((treeReduce g 4 0 ys).1.headD 0)]
         ∧ (treeReduce g 5 0 (xs ++ ys)).2 = 0)

/-- Conversions and quantisation (07 R173-R176): VCVT, VSRND and VDEQ for every pair of formats; VQNT quantises where
every enabled lane is in range or SAT is set. With SAT 0, the lowest enabled lane out of range takes the rescale trap, cause
0x10; TRAPOP names the scale register, TRAPA the lane's value, TRAPV the lane with the scale register's other fields. -/
def Obligations.VectorConversions : Prop :=
  (∀ (d a e : BitVec 4) (sc k : BitVec 3) (f : BitVec 4) (m : BitVec 3) (s : State),
     let mode := s.th.mode m; let md := s.th.modifier; let K := s.getK k
     let src := Fmt.ofCode e.toNat; let dst := Fmt.ofCode f.toNat
     let sgn := applySign md.absa md.nega; let kk := ((s.th.getSc sc).extractLsb' 0 8).toInt
     let X (j : Nat) := decodeNum .f32 (lane (s.getV a) j).toNat
     WritesV (.vcvt d a e k f m) 4 4 dst.width d K mode s (fun j =>
       roundedOnce dst mode (s.th.drawOf.rbits j) md (sgn (decodeNum src (VElem src.width (s.getV a) j)), 0))
     ∧ WritesV (.vdeq d a sc k f m) 4 4 32 d K mode s (fun j =>
       roundedOnce .f32 mode (s.th.drawOf.rbits j) md ((sgn (decodeNum dst (VElem dst.width (s.getV a) j))).scale (-kk), 0))
     ∧ WritesV (.vsrnd d a f k m) 4 4 32 d K mode s (fun j =>
       let r := roundedOnce dst mode (s.th.drawOf.rbits j) md (sgn (X j), 0)
       ((roundNum .f32 mode (s.th.drawOf.rbits j) (decodeNum dst r.1)).1, r.2))
     ∧ ((md.sat ≠ 0 ∨ ∀ j < 32, K.getLsbD j = true → outOfRange dst ((X j).scale kk) = false) →
       WritesV (.vqnt d a sc k f m) 4 5 8 d K mode s (fun j =>
         roundedOnce dst mode (s.th.drawOf.rbits j) { sat := md.sat } ((X j).scale kk, 0))))
  ∧ (∀ (d a : BitVec 4) (sc k : BitVec 3) (f : BitVec 4) (m : BitVec 3) (s : State) (j : Nat),
       let X (i : Nat) := (decodeNum .f32 (lane (s.getV a) i).toNat).scale ((s.th.getSc sc).extractLsb' 0 8).toInt
       s.th.modifier.sat = 0 → j < 32 → (s.getK k).getLsbD j = true → outOfRange (Fmt.ofCode f.toNat) (X j) = true →
       (∀ i < j, (s.getK k).getLsbD i = true → outOfRange (Fmt.ofCode f.toNat) (X i) = false) →
       ∃ tr : Trap, exec (.vqnt d a sc k f m) s = .next (takeTrap tr s) ∧ tr.cause = 0x10 ∧ tr.fidx = 4 ∧ tr.fval = sc.toNat
         ∧ tr.a = (lane (s.getV a) j).setWidth 64 ∧ tr.v.toNat % 256 = j ∧ tr.next = false
         ∧ ∀ b, 8 ≤ b → b < 56 → tr.v.getLsbD b = (s.th.getSc sc).getLsbD b)

/-- The mask instructions (07 R178). -/
def Obligations.MaskForms : Prop :=
  (∀ (d a b : BitVec 3) (s : State), let A := s.getK a; let B := s.getK b
    WritesK (.kand d a b) 1 d 0xFFFFFFFF s (fun j => (A.getLsbD j && B.getLsbD j, 0))
    ∧ WritesK (.kor d a b) 1 d 0xFFFFFFFF s (fun j => (A.getLsbD j || B.getLsbD j, 0))
    ∧ WritesK (.kxor d a b) 1 d 0xFFFFFFFF s (fun j => (A.getLsbD j != B.getLsbD j, 0))
    ∧ WritesK (.knot d a) 1 d 0xFFFFFFFF s (fun j => (!A.getLsbD j, 0))
    ∧ WritesK (.kmov d a) 1 d 0xFFFFFFFF s (fun j => (A.getLsbD j, 0)))
  ∧ ∀ (d : BitVec 4) (a : BitVec 3) (s : State), let A := s.getK a
    WritesS (.kpopc d a) 4 2 d s (·.toNat = ((List.range 32).map fun i => if A.getLsbD i then 1 else 0).sum)
    ∧ WritesS (.kfirst d a) 4 2 d s (fun x => (A = 0 → x = 32)
      ∧ (A ≠ 0 → A.getLsbD x.toNat = true ∧ x.toNat < 32 ∧ ∀ i < x.toNat, A.getLsbD i = false))

/-- The 16-bit lane forms (04 R83, 07 R179): every lane, with mode DYN where they round. -/
def Obligations.ShortLaneForms : Prop :=
  ∀ (d x : BitVec 4) (s : State),
    let mode := s.th.mode 7; let down := decide (mode = .rdn); let md := s.th.modifier; let all : KWord := 0xFFFFFFFF
    let fp (v : VWord) (j : Nat) := decodeNum .f32 (lane v j).toNat
    let D (j : Nat) := applySign md.absa md.nega (fp (s.getV d) j); let X (j : Nat) := applySign md.absb md.negb (fp (s.getV x) j)
    let A (j : Nat) := (lane (s.getV d) j).toNat; let B (j : Nat) := (lane (s.getV x) j).toNat
    let once (e : Nat → Machine.Num × Flags) (j : Nat) := roundedOnce .f32 mode (s.th.drawOf.rbits j) md (e j)
    WritesV (.vaddF32 d x) 2 4 32 d all mode s (once fun j => (D j).add down (X j))
    ∧ WritesV (.vsubF32 d x) 2 4 32 d all mode s (once fun j => (D j).add down (X j).negate)
    ∧ WritesV (.vmulF32 d x) 2 4 32 d all mode s (once fun j => (D j).mul (X j))
    ∧ WritesV (.vfmac d x) 2 4 32 d all mode s (once fun j =>
        fusedSum down (applySign md.absa md.nega (fp (s.getV x) j)) (applySign md.absb md.negb (fp (s.getV 15) j)) (fp (s.getV d) j))
    ∧ WritesV (.vmaxF32 d x) 2 2 32 d all .rne s (fun j => minMaxBits true .f32 (A j) (B j))
    ∧ WritesV (.vminF32 d x) 2 2 32 d all .rne s (fun j => minMaxBits false .f32 (A j) (B j))
    ∧ WritesV (.viadd16 d x) 2 2 32 d all .rne s (fun j => (A j + B j, 0))
    ∧ WritesV (.visub16 d x) 2 2 32 d all .rne s (fun j => (A j + 2 ^ 32 - B j, 0))
    ∧ WritesV (.vand16 d x) 2 2 32 d all .rne s (fun j => (A j &&& B j, 0))
    ∧ WritesV (.vor16 d x) 2 2 32 d all .rne s (fun j => (A j ||| B j, 0))
    ∧ WritesV (.vxor16 d x) 2 2 32 d all .rne s (fun j => (A j ^^^ B j, 0))
    ∧ WritesV (.vshl16 d x) 2 2 32 d all .rne s (fun j => (A j * 2 ^ (B j % 32), 0))
    ∧ WritesV (.vshr16 d x) 2 2 32 d all .rne s (fun j => (A j / 2 ^ (B j % 32), 0))
    ∧ WritesV (.vmov16 d x) 2 2 32 d all .rne s (fun j => (B j, 0))
    ∧ WritesV (.vnegF32 d x) 2 2 32 d all .rne s (fun j => ((B j + 2 ^ 31) % 2 ^ 32, 0))
    ∧ WritesV (.vabsF32 d x) 2 2 32 d all .rne s (fun j => (B j % 2 ^ 31, 0))

/-- Compare-and-branch (06 R147) and the 16-bit forms (04 R84): where the condition holds the pc is the branch's address
plus twice the offset and no loop-back happens; where it does not, the thread moves past. No register changes. Jumps and calls
(06 R148, 04 R76, R84): an odd target takes the misaligned-access trap with nothing written; every other target is reached,
with the link of latency 1, read before the link is written. -/
def Obligations.Jumps : Prop :=
  (∀ (a b : BitVec 4) (off : BitVec 14) (h : BitVec 1) (s : State), let A := s.getS a; let B := s.getS b
     let taken (o : Int) (t : State) := t = { s with th := { s.th with pc := s.th.pc + BitVec.ofInt 64 (2 * o), modLatch := none } }
     let branch (i : Instr) (len : Nat) (o : Int) (c : Prop) : Prop :=
       ∃ t, exec i s = .next t ∧ (c → taken o t) ∧ (¬ c → MovesPast len s t)
     branch (.beq a b off) 4 off.toInt (A = B) ∧ branch (.bne a b off) 4 off.toInt (A ≠ B)
     ∧ branch (.blt a b off) 4 off.toInt (A.toInt < B.toInt) ∧ branch (.bge a b off) 4 off.toInt (B.toInt ≤ A.toInt)
     ∧ branch (.bltu a b off) 4 off.toInt (A.toNat < B.toNat) ∧ branch (.bgeu a b off) 4 off.toInt (B.toNat ≤ A.toNat)
     ∧ branch (.bz a b h) 2 (b.toNat - 16 * h.toNat) (A = 0) ∧ branch (.bnz a b h) 2 (b.toNat - 16 * h.toNat) (A ≠ 0))
  ∧ (∀ (d a : BitVec 4) (i : BitVec 18) (s : State),
       let goes (x : Instr) (target : Word) (links : List Pending) : Prop :=
         ∃ t, exec x s = .next t ∧ t = { s.withPending links with th := { (s.withPending links).th with pc := target, modLatch := none } }
       let link (n : Nat) : Word := s.th.pc + BitVec.ofNat 64 n
       goes (.call d i) (s.th.pc + BitVec.ofInt 64 (2 * i.toInt)) [⟨1, .s d (link 4)⟩]
       ∧ ((s.getS a).getLsbD 0 = false → goes (.jr a) (s.getS a) [] ∧ goes (.callr d a) (s.getS a) [⟨1, .s d (link 4)⟩]
           ∧ goes (.jr16 a) (s.getS a) [] ∧ goes (.callr16 a) (s.getS a) [⟨1, .s 15 (link 2)⟩])
       ∧ ((s.getS a).getLsbD 0 = true → ∀ x ∈ [Instr.jr a, .callr d a, .jr16 a, .callr16 a],
           ∃ tr : Trap, exec x s = .next (takeTrap tr s) ∧ tr.cause = 2 ∧ tr.a = s.getS a ∧ tr.v = 0 ∧ tr.next = false))

/-- LOOP (06 R150): with a body and a count it arms its level and enters the body; with an empty body, or a count of 0
where the word after the body can be fetched, it disarms its level and goes on after the body; where that fetch faults, the
fault is the LOOP's, which is the model's choice (notes/assumptions/22.md). Its writes of lc, lb and le have latency 1 (04 R94). The loop-back test of an instruction that completes
without redirecting the pc (06 R151), for a 32-bit and a 16-bit instruction; a taken branch is none (R152). -/
def Obligations.Loops : Prop :=
  (∀ (a : BitVec 4) (l : BitVec 1) (i : BitVec 14) (s : State),
     let last := s.th.pc + BitVec.ofInt 64 (2 * i.toInt)
     let sets (s : State) (n : Word) : State := s.withPending [⟨1, .loop l n (s.th.pc + 4) last⟩]
     (i ≠ 1 → s.getS a ≠ 0 → Past (.loop a l i) 4 s (sets s (s.getS a)))
     ∧ (i = 1 → Past (.loop a l i) 4 s (sets s 0))
     ∧ (i ≠ 1 → s.getS a = 0 →
         (∀ p s', fetchParcel last s = .ok (p, s') → let u := s'.withPending [⟨1, .loop l 0 (s.th.pc + 4) last⟩]
           ∃ t, exec (.loop a l i) s = .next t ∧ t = { u with th := { u.th with
             pc := last + BitVec.ofNat 64 (if p % 2 = 0 then 2 else if p / 16 % 64 = 0x3F then 8 else 4), modLatch := none } })
         ∧ ∀ tr, fetchParcel last s = .error tr → exec (.loop a l i) s = .next (takeTrap tr s)))
  ∧ (∀ (l : BitVec 1) (c b e : Word) (s : State), let t := RegWrite.apply (.loop l c b e) s
       (∀ k : Nat, ∀ h : k < 2, t.th.lc[k] = (if k = l.toNat then c else s.th.lc[k]) ∧ t.th.lb[k] = (if k = l.toNat then b else s.th.lb[k])
         ∧ t.th.le[k] = (if k = l.toNat then e else s.th.le[k]))
       ∧ t = { s with th := { s.th with lc := t.th.lc, lb := t.th.lb, le := t.th.le } })
  ∧ (∀ (d a b : BitVec 4) (s : State), ∀ p ∈ [(Instr.add d a b, 4), (Instr.mov16 d a, 2)],
       ∃ t, exec p.1 s = .next t ∧
         let next := s.th.pc + BitVec.ofNat 64 p.2
         let e1 := s.th.instrPc = s.th.le[1] ∧ 0 < s.th.lc[1].toNat
         let e0 := s.th.instrPc = s.th.le[0] ∧ 0 < s.th.lc[0].toNat
         let level0 : Prop := (e0 → 1 < s.th.lc[0].toNat → t.th.lc[0] = s.th.lc[0] - 1 ∧ t.th.pc = s.th.lb[0])
           ∧ (e0 → s.th.lc[0].toNat = 1 → t.th.lc[0] = 0 ∧ t.th.pc = next) ∧ (¬ e0 → t.th.lc[0] = s.th.lc[0] ∧ t.th.pc = next)
         (e1 → 1 < s.th.lc[1].toNat → t.th.lc[1] = s.th.lc[1] - 1 ∧ t.th.pc = s.th.lb[1] ∧ t.th.lc[0] = s.th.lc[0])
         ∧ (e1 → s.th.lc[1].toNat = 1 → t.th.lc[1] = 0 ∧ level0) ∧ (¬ e1 → t.th.lc[1] = s.th.lc[1] ∧ level0)
         ∧ t.th.lb = s.th.lb ∧ t.th.le = s.th.le)

/-- A precise trap of a thread with INH 0 (06 R155): the results on their way are written, TRAPST is the status, the trap
registers are written as the cause defines with zeros for what it does not name, TRAPI holds the instruction's word, or the
one the cause names, below its modifier word, the loop registers and ERX are saved and cleared, the privilege is at least 1,
INH is 1, and the pc is TVEC. An attached follower detaches (02 R41); TRAPST keeps the crew's bits, which is the model's
choice (notes/assumptions/29.md). Storage that the cause found bad is retired (09 R229), and memory and every other register
stay. Writing the
results on their way leaves none (02 R31), and no result changes INH, PRIV, the pc, or which thread runs where. -/
def Obligations.PreciseTrap : Prop :=
  (∀ (tr : Trap) (s : State), s.th.inh = false →
     let f := flushPend (retireTrap tr s); let t := takeTrap tr s
     t.th.trapst = f.th.tstat f.shared ∧ t.th.trapc = BitVec.ofNat 64 tr.cause
     ∧ t.th.trappc = (if tr.next then f.th.pc + 4 else f.th.instrPc) ∧ t.th.trapa = tr.a ∧ t.th.trapv = tr.v
     ∧ t.th.trapop = BitVec.ofNat 64 (tr.fval % 256 * 16 + tr.fidx % 16)
     ∧ t.th.trapi.toNat % 2 ^ 32 = (tr.word.getD f.th.ir.word).toNat
     ∧ t.th.trapi.toNat / 2 ^ 32 = (if f.th.ir.hasMod = true then f.th.ir.modw.toNat else 0)
     ∧ (let follows := f.th.crew = true ∧ f.th.det = false ∧ f.th.cidx ≠ 0
        (follows → t.th.det = true ∧ t.th.fwd = []) ∧ (¬ follows → t.th.det = f.th.det ∧ t.th.fwd = f.th.fwd))
     ∧ t.th.tsl = #v[f.th.lc[0], f.th.lc[1], f.th.lb[0], f.th.lb[1], f.th.le[0], f.th.le[1], f.th.erx.setWidth 64]
     ∧ t.th.lc = #v[0, 0] ∧ t.th.lb = #v[0, 0] ∧ t.th.le = #v[0, 0] ∧ t.th.erx = 0
     ∧ t.th.priv.toNat = Max.max f.th.priv.toNat 1 ∧ t.th.inh = true ∧ t.th.pc = f.myCore.tvec
     ∧ t.th = { f.th with
         trapst := t.th.trapst, trapc := t.th.trapc, trappc := t.th.trappc, trapa := t.th.trapa, trapv := t.th.trapv
         trapop := t.th.trapop, trapi := t.th.trapi, tsl := t.th.tsl, lc := t.th.lc, lb := t.th.lb, le := t.th.le, erx := 0
         priv := t.th.priv, inh := true, pc := t.th.pc, det := t.th.det, fwd := t.th.fwd, modLatch := none, uncounted := true
         spin := [] }
     ∧ t = { f with th := t.th, cores := t.cores } ∧ SameCores f t
     ∧ f.dram = s.dram ∧ (tr.bad = none → f.l2 = s.l2) ∧ f.wt = s.wt ∧ (∀ c, (f.core c).ls = (s.core c).ls)
     ∧ ∀ g, (f.grove g).scratch = (s.grove g).scratch)
  ∧ (∀ s : State, let f := flushPend s
       f.th.inh = s.th.inh ∧ f.th.priv = s.th.priv ∧ f.th.pc = s.th.pc ∧ f.th.id = s.th.id ∧ f.th.core = s.th.core
         ∧ f.th.modLatch = s.th.modLatch ∧ ((∀ p ∈ s.th.pend, 1 ≤ p.left) → f.th.pend = []))

/-- A precise cause met with INH 1 does not enter the handler (06 R155, 18 R358): where nothing of the thread is
outstanding it ends with the nested-trap cause, its slot's decks and frame are free, and the monitor's log, where it has
room, takes the entry with the cause as its value. TRAP and BRK (06 R154) at every privilege: cause 6 with TRAPPC the next
instruction, cause 7 with TRAPPC the BRK; TRAPV is the code. -/
def Obligations.TrapsInHandlers : Prop :=
  (∀ (tr : Trap) (s : State), let f := flushPend (retireTrap tr s)
     s.th.inh = true → f.th.atq = [] → f.th.sq = [] → f.th.redlog = [] → f.th.loads = [] → f.th.tagged = false →
     f.th.task.node = none → f.monlog.length < 4095 →
     let t := takeTrap tr s
     t.th.status = .ended 0x1C ∧ t.th.fc = [] ∧ t.th.decks = .replicate 8 none ∧ t.th.id = s.th.id
       ∧ ∃ e n, (e, n) ∈ t.monlog ∧ e.cause = 0x1C ∧ e.value = BitVec.ofNat 64 tr.cause ∧ e.addr = tr.a)
  ∧ (∀ (x : BitVec 10) (s : State), s.th.inh = false →
       (∃ t, exec (.trap x) s = .next t ∧ t.th.trapc = 6 ∧ t.th.trapv = x.setWidth 64 ∧ t.th.trappc = (flushPend s).th.pc + 4
         ∧ t.th.pc = (flushPend s).myCore.tvec ∧ t.th.inh = true)
       ∧ ∃ t, exec (.brk x) s = .next t ∧ t.th.trapc = 7 ∧ t.th.trapv = x.setWidth 64 ∧ t.th.trappc = (flushPend s).th.instrPc
         ∧ t.th.pc = (flushPend s).myCore.tvec ∧ t.th.inh = true)

/-- ERET (06 R156): below privilege 1 it is an illegal instruction; an odd TRAPPC is a misaligned access; else the loop
registers, with bit 0 of lb and le 0, and ERX come back, the privilege is the lower of TRAPST.PRIV and PRIV, INH is 0 and the pc is TRAPPC. -/
def Obligations.Eret : Prop :=
  ∀ s : State,
    (s.th.priv = 0 → ∃ tr : Trap, exec .eret s = .next (takeTrap tr s) ∧ tr.cause = 1 ∧ tr.fidx = 5 ∧ tr.fval = 1 ∧ tr.v = 1 ∧ tr.a = 0)
    ∧ (s.th.priv ≠ 0 → s.th.trappc.getLsbD 0 = true →
        ∃ tr : Trap, exec .eret s = .next (takeTrap tr s) ∧ tr.cause = 2 ∧ tr.a = s.th.trappc ∧ tr.v = 0)
    ∧ (s.th.priv ≠ 0 → s.th.trappc.getLsbD 0 = false →
        ∃ t, exec .eret s = .next t ∧ t.th.lc = #v[s.th.tsl[0], s.th.tsl[1]] ∧ t.th.lb = #v[s.th.tsl[2] &&& ~~~1, s.th.tsl[3] &&& ~~~1]
          ∧ t.th.le = #v[s.th.tsl[4] &&& ~~~1, s.th.tsl[5] &&& ~~~1] ∧ t.th.erx = s.th.tsl[6].extractLsb' 0 32
          ∧ t.th.priv.toNat = Min.min (s.th.trapst.extractLsb' 0 2).toNat s.th.priv.toNat ∧ t.th.inh = false ∧ t.th.pc = s.th.trappc
          ∧ t = { s with th := { s.th with lc := t.th.lc, lb := t.th.lb, le := t.th.le, erx := t.th.erx, priv := t.th.priv
                                           inh := false, pc := s.th.trappc, modLatch := none } })

/-- CSRR (06 R132, R133): a register whose class the thread's privilege admits is read with latency 2, and at privilege 1
those of class M where MPRIV[0] is 1; every other one is an illegal instruction with TRAPV 1. A counter that counts timing
reads as a free value (notes/assumptions/5.md). -/
def Obligations.CsrRead : Prop :=
  ∀ (d : BitVec 4) (x : BitVec 10) (s : State),
    let n := x.toNat; let p := s.th.priv.toNat
    let admitted := n < 0x028 ∨ (n < 0x100 ∧ 1 ≤ p) ∨ 2 ≤ p ∨ (1 ≤ p ∧ s.myCore.mpriv.getLsbD 0 = true)
    (admitted → ¬ (0x020 ≤ n ∧ n < 0x028) → WritesS (.csrr d x) 4 2 d s (· = csrRead n s))
    ∧ (admitted → 0x020 ≤ n → n < 0x028 → ∃ t u v, exec (.csrr d x) s = .next t ∧ (u = s ∨ u = { s with free := s.free + 1 })
        ∧ (timingCounter s.myCore (n - 0x020) = false → u = s ∧ v = csrRead n s)
        ∧ MovesPast 4 (u.withPending [⟨2, .s d v⟩]) t)
    ∧ (¬ admitted → ∃ tr : Trap, exec (.csrr d x) s = .next (takeTrap tr s) ∧ tr.cause = 1 ∧ tr.fidx = 5 ∧ tr.fval = n % 256 ∧ tr.v = 1)

/-- CSRW, CSRS and CSRC (06 R132, R133, 04 R94): below the register's class an illegal instruction with TRAPV 1; for a
register that is read-only at the privilege one with TRAPV 0, whatever s[a] holds; else the new value (for CSRS and CSRC from
the value the register has there) goes on its way, to be seen at issue distance 2. A counter that counts timing, or is to
count something else, has a free value (notes/assumptions/5.md). A write that becomes visible leaves the writable fields only,
and the old value of a field whose new value would be a reserved code (06 R135-R138, 03 R60). A CSRS of FCSR, and a CSRC that names no
flag, leaves the flags raised before it lands (03 R62). What WDOG's two bits become when both change, that 0x103 to 0x105
drop their low 6 bits and that TRAPST keeps all 64 are the model's choices (notes/assumptions/116.md, 117.md, 111.md). -/
def Obligations.CsrWrite : Prop :=
  (∀ (a : BitVec 4) (x : BitVec 10) (s : State),
     let n := x.toNat; let p := s.th.priv.toNat; let A := s.getS a
     let cls := if n < 0x028 then 0 else if n < 0x100 then 1 else 2
     let ro := n = 0x000 ∨ n = 0x004 ∨ n = 0x005 ∨ n = 0x007 ∨ n = 0x044 ∨ (n = 0x006 ∧ p < 1) ∨ (n = 0x00F ∧ p < 2)
       ∨ (0x020 ≤ n ∧ n ≤ 0x027 ∧ p < 1)
     ∀ q ∈ [(Instr.csrw a x, (fun (_ : Word) => A), none), (.csrs a x, (fun old => old ||| A), some (31 : BitVec 5)),
         (.csrc a x, (fun old => old &&& ~~~A), some (~~~(A.setWidth 5)))],
       let write (old : Word) : Pending := ⟨2, match q.2.2 with
         | some keep => if n = 0x001 then .fcsr keep (q.2.1 old) else .csr n (q.2.1 old)
         | none => .csr n (q.2.1 old)⟩
       (p < cls → ∃ tr : Trap, exec q.1 s = .next (takeTrap tr s) ∧ tr.cause = 1 ∧ tr.fidx = 5 ∧ tr.fval = n % 256 ∧ tr.v = 1)
       ∧ (cls ≤ p → ro → ∃ tr : Trap, exec q.1 s = .next (takeTrap tr s) ∧ tr.cause = 1 ∧ tr.fidx = 5 ∧ tr.fval = n % 256 ∧ tr.v = 0)
       ∧ (cls ≤ p → ¬ ro → ¬ (0x020 ≤ n ∧ n < 0x030) → Past q.1 4 s (s.withPending [write (csrRead n s)]))
       ∧ (cls ≤ p → ¬ ro → 0x020 ≤ n → n < 0x028 → ∃ u v, Past q.1 4 s (u.withPending [write v]) ∧ (u = s ∨ u = s.draw)
           ∧ (timingCounter s.myCore (n - 0x020) = false → u = s ∧ v = csrRead n s))
       ∧ (cls ≤ p → ¬ ro → 0x028 ≤ n → n < 0x030 → ∃ u, Past q.1 4 s (u.withPending [write (csrRead n s)]) ∧ u.th = s.th
           ∧ u.dram = s.dram ∧ u.msgs = s.msgs ∧ SameCores s u ∧ (timingCounter s.myCore (n - 0x028) = false → u = s)))
  ∧ (∀ (x : Word) (s : State),
       let after (n : Nat) : Word := csrRead n (RegWrite.apply (.csr n x) s)
       ((x.extractLsb' 5 3).toNat ≤ 4 → after 0x001 = x &&& 0xFF)
       ∧ (4 < (x.extractLsb' 5 3).toNat → after 0x001 = (x &&& 0x1F) ||| (s.th.fcsr.setWidth 64 &&& 0xE0))
       ∧ after 0x002 = x &&& 0xFFFFFFFF ∧ after 0x003 = x ∧ after 0x008 = x ∧ after 0x009 = x
       ∧ (∀ n ∈ [0x00A, 0x00B, 0x00C, 0x00D], after n = x &&& ~~~1)
       ∧ (∀ n ∈ [0x040, 0x041, 0x042, 0x045, 0x046, 0x047, 0x048, 0x04E, 0x050, 0x051, 0x106, 0x107], after n = x)
       ∧ after 0x043 = x &&& 0xFFF ∧ after 0x006 = x &&& 0xFFFFFFFF ∧ after 0x00F = x
       ∧ after 0x102 = (if x.getLsbD 1 = true then 3 else if s.myCore.wdog.getLsbD 1 = true then 1 else x &&& 1) ∧ after 0x100 = x &&& ~~~1 ∧ after 0x108 = x &&& 7 ∧ after 0x10A = x &&& 1
       ∧ (∀ n ∈ [0x103, 0x104, 0x105], after n = x &&& ~~~63)
       ∧ (1 ≤ x.toNat % 512 → x.toNat % 512 ≤ 256 → after 0x101 = x &&& 0x1FF)
       ∧ (x.toNat % 512 = 0 ∨ 256 < x.toNat % 512 → after 0x101 = s.myCore.dwb)
       ∧ (∀ n, 0x010 ≤ n → n ≤ 0x017 → (x.toNat % 256 ≠ 0x80 → after n = x &&& 0x00FFFFFFFFFFFFFF)
           ∧ (x.toNat % 256 = 0x80 → after n = (x &&& 0x00FFFFFFFFFFFF00) ||| (csrRead n s &&& 0xFF))))
  ∧ (∀ (keep : BitVec 5) (x : Word) (s : State), let t := RegWrite.apply (.fcsr keep x) s
       (∀ i < 5, t.th.fcsr.getLsbD i = (x.getLsbD i || (s.th.fcsr.getLsbD i && keep.getLsbD i)))
       ∧ ∀ i, 5 ≤ i → t.th.fcsr.getLsbD i = (RegWrite.apply (.csr 0x001 x) s).th.fcsr.getLsbD i)

/-- YIELD and YIELD1 (06 R153, 02 R47, R48, 04 R84) where no hand-over happens, because no higher task waits, in a crew or
in a handler: YDL reloads, from the record for an operand of 0, else 1,024 times the operand. END (02 R28), 32 and 16 bits, at
every privilege and in a handler: with no deferred error, no outstanding load or copy and an empty reduction log the thread
has ended, its frame, decks and tags are free, and where it was a graph's node the counting down of LIVE is queued behind all it stored,
a release at .pkg (08 R212); with a load, returning atomic or copy outstanding it waits. -/
def Obligations.YieldAndEnd : Prop :=
  (∀ (y : BitVec 6) (s : State),
     let reload (n : Nat) : BitVec 32 :=
       if n = 0 then (if s.th.task.ydf = 0 then 65536 else BitVec.ofNat 32 (1024 * s.th.task.ydf)) else BitVec.ofNat 32 (1024 * n)
     s.th.crew = true ∨ s.th.inh = true ∨ (∀ e ∈ s.myCore.runq, e.pri ≤ s.th.task.pri) →
       (∃ t, exec (.yield y) s = .next t ∧ MovesPast 4 { s with th := { s.th with ydl := reload y.toNat } } t)
       ∧ ∃ t, exec .yield1 s = .next t ∧ MovesPast 2 { s with th := { s.th with ydl := reload 1 } } t)
  ∧ (∀ s : State, s.th.dataErr = none → let u := performAtoms s.th.id s
       (busyThread u u.th = false → u.th.redlog = [] → ∃ m, m.th.id = u.th.id ∧ m.th.status = .ended 0 ∧ m.th.sq = u.th.sq
           ∧ m.th.fc = [] ∧ m.th.decks = .replicate 8 none ∧ m.th.tagged = false ∧ m.th.pend = [] ∧ m.th.redlog = []
           ∧ ∀ i ∈ [Instr.endTask, .end16], exec i s = .next (match u.th.task.node, u.th.follower with
             | some d, false => performAt 3 m.th.id
                 { m with fresh := m.fresh + 1, th := { m.th with sq := m.th.sq ++ [.live m.fresh d] } }
             | _, _ => m))
       ∧ (busyThread u u.th = true → ∀ i ∈ [Instr.endTask, .end16], ∃ t, exec i s = .next t ∧ t.th.status = .waiting .ending u.cycle
           ∧ t.th.fc = u.th.fc ∧ t.th.loads = u.th.loads ∧ t.dram = u.dram))

/-- Frame cells (06 R159, R160): within the allocation each form does what it says and nothing else; outside it the
frame-bounds trap, cause 5, with TRAPOP naming field a, TRAPV the index register and TRAPA the index. -/
def Obligations.FrameCells : Prop :=
  ∀ (d a : BitVec 4) (o : BitVec 6) (s : State),
    let idx : Int := (s.getS a).toInt + o.toNat; let n := s.th.fc.length; let j := idx.toNat
    let trapped (i : Instr) : Prop := ∃ tr : Trap, exec i s = .next (takeTrap tr s) ∧ tr.cause = 5 ∧ tr.fidx = 3 ∧ tr.fval = a.toNat
      ∧ tr.v = s.getS a ∧ tr.a = BitVec.ofInt 64 idx ∧ tr.next = false
    (0 ≤ idx ∧ idx ≤ n - 1 →
      WritesS (.fcld d a o) 4 2 d s (fun x => ∃ c, s.th.fc[j]? = some c ∧ x = c.setWidth 64)
      ∧ ∃ t, exec (.fcst d a o) s = .next t ∧ MovesPast 4 { s with th := { s.th with fc := s.th.fc.set j ((s.getS d).setWidth 32) } } t)
    ∧ (¬ (0 ≤ idx ∧ idx ≤ n - 1) → trapped (.fcld d a o) ∧ trapped (.fcst d a o))
    ∧ (0 ≤ idx ∧ idx + 31 ≤ n - 1 →
      WritesV (.fcvld d a o) 4 3 32 d 0xFFFFFFFF .rne s (fun i => ((s.th.fc.getD (j + i) 0).toNat, 0))
      ∧ ∃ t fc', exec (.fcvst d a o) s = .next t ∧ MovesPast 4 { s with th := { s.th with fc := fc' } } t ∧ fc'.length = n
          ∧ ∀ i < n, fc'.getD i 0 = if j ≤ i ∧ i < j + 32 then lane (s.getV d) (i - j) else s.th.fc.getD i 0)
    ∧ (¬ (0 ≤ idx ∧ idx + 31 ≤ n - 1) → trapped (.fcvld d a o) ∧ trapped (.fcvst d a o))

/-- A modifier word (04 R85, R86): before a 32-bit instruction that accepts its fields it issues with that instruction,
whose word is fetched and checked with it and whose pc becomes the modifier's successor while the instruction's address stays the modifier's; its fields are those of
the word; before an instruction that takes no modifier it is an illegal instruction of index 10 and value 3. -/
def Obligations.ModifierWord : Prop :=
  ∀ (u r q p : BitVec 1) (sc : BitVec 6) (sat : BitVec 2) (s s' : State) (w : Nat) (x : Decoded),
    s.th.ir.gap = 0 → s.th.ir.sw = false → fetchWord (s.th.pc + 4) s = .ok (4, w, s') → s'.th = s.th → isModifier w = false →
    decodeWord true w = .ok x →
    (∀ av bv scv satv, acceptsModifier x.instr = some (av, bv, scv, satv) → x.instr.fieldFault = none →
      (av = false → u = 0 ∧ r = 0) → (bv = false → q = 0 ∧ p = 0) → (scv = false → sc = 0) → (satv = false → sat = 0) →
      ∃ t, exec (.mod u r q p sc sat) s = .next t ∧ t = { s' with th := { s'.th with pc := s.th.pc + 4, modLatch := t.th.modLatch, second := BitVec.ofNat 32 w } }
        ∧ t.th.instrPc = s.th.pc
        ∧ t.th.modifier = { nega := decide (u = 1), absa := decide (r = 1), negb := decide (q = 1), absb := decide (p = 1)
                            scale := sc.toInt, sat := sat.toNat })
    ∧ (acceptsModifier x.instr = none → ∃ t u' tr, exec (.mod u r q p sc sat) s = .next t ∧ t = takeTrap tr u' ∧ u'.dram = s'.dram
        ∧ u'.th.pc = s.th.pc ∧ tr.cause = 1 ∧ tr.fidx = 10 ∧ tr.fval = 3)

/-- Scalar loads (09 R231, R232, 04 R84): where the address or deck offset is admitted and no storage error is met, the load
begins, LDACQ as an acquire at its scope, with the width's places from the address; without DK that is s[a] plus the scaled
offset. Once nothing earlier of the thread must come first (11 R249), the bytes that its load path gives at the places return
to s[d], extended as the form says. -/
def Obligations.ScalarLoads : Prop :=
  (∀ (d a : BitVec 4) (w : BitVec 2) (k x : BitVec 1) (c : BitVec 3) (i : BitVec 10) (i7 : BitVec 7) (o : BitVec 4) (s : State),
    let n := 2 ^ w.toNat
    (∀ va ls s1 s2, scalarPlace .read a (k = 1) i.toInt n a.toNat s = .ok (va, ls, s1) → checkData va ls s1 = .ok s2 →
      Loads (.ld d a w k x i) 4 d (decide (x = 1)) n va ls none s s2 ∧ ls.length = n
        ∧ (k ≠ 1 → va = s.getS a + BitVec.ofInt 64 (i.toInt * n)))
    ∧ (∀ va ls s1 s2, scalarPlace .read a (k = 1) i7.toInt n a.toNat s = .ok (va, ls, s1) → checkData va ls s1 = .ok s2 →
      Loads (.ldacq d a w k x c i7) 4 d (decide (x = 1)) n va ls (some c.toNat) s s2 ∧ ls.length = n
        ∧ (k ≠ 1 → va = s.getS a + BitVec.ofInt 64 (i7.toInt * n)))
    ∧ (∀ va ls s1 s2, scalarPlace .read 14 false o.toNat 8 14 s = .ok (va, ls, s1) → checkData va ls s1 = .ok s2 →
      Loads (.ldd8 d o) 2 d false 8 va ls none s s2 ∧ ls.length = 8 ∧ va = s.getS 14 + BitVec.ofNat 64 (8 * o.toNat)))
  ∧ ∀ (s : State) (x : Thread) (l : Load) (d : BitVec 4) (sx : Bool) (n : Nat) (va : Word) (ls : List Loc),
      s.arg.c = 0 → s.thread? s.arg.a = some x → loadOf x s.arg.b = some l → l.dest = .s d →
      l.val = .reading (.scalar sx n) [⟨0, va, ls⟩] [] → n ∈ [1, 2, 4, 8] → ls.length = n → mayPerform s x l.id ls = true →
      (∀ p ∈ ls, peerGone s p = false) → let r := readAs x (wideAcquire l.acq) ls s
      r.1 = ls.map (fun p => seenByte (raisedSeen r.2 x) (r.2.coreByte x.core p) p)
        ∧ ∃ t y v, exec .loadReturn s = .next t ∧ t.thread? x.id = some y ∧ Extended sx n r.1 v ∧ y.getS d = (if d = 0 then 0 else v)
          ∧ ∀ q ∈ y.loads, q.id ≠ l.id

/-- Scalar stores (09 R230-R232, 04 R84): a store completes at issue, the low bytes of s[d] for the width's places in the
thread's store queue; STREL as a release at its scope. A load is not read while an earlier store of its thread to a byte of
it is queued (11 R243, R249), and a byte written to a local store, outside control blocks, reads as written, every other as
before. That a store which finds sixteen in the queue, none of which may be performed yet, joins them is the model's choice
(notes/assumptions/96.md). -/
def Obligations.ScalarStores : Prop :=
  (∀ (d a : BitVec 4) (w : BitVec 2) (k : BitVec 1) (c : BitVec 3) (i : BitVec 10) (i7 : BitVec 7) (o : BitVec 4) (s : State),
     let n := 2 ^ w.toNat
     (∀ va ls s1, scalarPlace .write a (k = 1) i.toInt n a.toNat s = .ok (va, ls, s1) → Stores (.st d a w k i) 4 d n ls none s s1
       ∧ (k ≠ 1 → va = s.getS a + BitVec.ofInt 64 (i.toInt * n)))
     ∧ (∀ va ls s1, scalarPlace .write a (k = 1) i7.toInt n a.toNat s = .ok (va, ls, s1) →
       Stores (.strel d a w k c i7) 4 d n ls (some c.toNat) s s1 ∧ (k ≠ 1 → va = s.getS a + BitVec.ofInt 64 (i7.toInt * n)))
     ∧ (∀ va ls s1, scalarPlace .write 14 false o.toNat 8 14 s = .ok (va, ls, s1) →
       Stores (.std8 d o) 2 d 8 ls none s s1 ∧ va = s.getS 14 + BitVec.ofNat 64 (8 * o.toNat)))
  ∧ (∀ (s : State) (x : Thread) (l : Load) (e : StoreEntry), s.arg.c = 0 → s.thread? s.arg.a = some x → loadOf x s.arg.b = some l →
       l.unread = true → e ∈ x.sq → e.no < l.id → overlaps e.places l.places = true → exec .loadReturn s = .next s)
  ∧ ∀ (c off c' o : Nat) (b : Byte) (s : State), (s.core c).ls.wf = true → (∀ cb ∈ (s.core c).cbs, off < cb ∨ cb + 32 ≤ off) →
      ((lsStoreByte c off b s).core c').ls.read o = if c' = c ∧ o = off then b else (s.core c').ls.read o

/-- A misaligned scalar access (09 R230, R231) takes the misaligned-access trap with TRAPA the address and TRAPOP the
base register; an access that is refused takes the cause of the refusal. A deck-relative access (08 R191, R192) of an unbound
handle is deck misuse with TRAPOP the handle and TRAPA 0; one of a negative offset, or beyond what the deck holds for a load
or has free for a store, is deck misuse with TRAPOP the offset's field and TRAPA the control block; TRAPV is the offset. -/
def Obligations.ScalarAccessTraps : Prop :=
  ∀ (d a : BitVec 4) (w : BitVec 2) (x : BitVec 1) (c : BitVec 3) (i : BitVec 10) (i7 : BitVec 7) (o : BitVec 4) (s : State),
    let n : Nat := 2 ^ w.toNat; let at_ (off : Int) : Word := s.getS a + BitVec.ofInt 64 (off * n)
    let short : Word := s.getS 14 + BitVec.ofNat 64 (8 * o.toNat)
    (∀ p ∈ [(Instr.ld d a w 0 x i, Access.read, at_ i.toInt, n, a.toNat), (.st d a w 0 i, .write, at_ i.toInt, n, a.toNat),
        (.ldacq d a w 0 x c i7, .read, at_ i7.toInt, n, a.toNat), (.strel d a w 0 c i7, .write, at_ i7.toInt, n, a.toNat),
        (.ldd8 d o, .read, short, 8, 14), (.std8 d o, .write, short, 8, 14)],
      let (ins, acc, va, n, base) := p
      (va.toNat % n ≠ 0 → Traps ins s s 2 3 base va 0)
      ∧ (va.toNat % n = 0 → ∀ f b, resolveSpan s.who acc 2 va.toNat n s = .error (f, b) →
          Traps ins s s f.cause (if f.cause = 0x12 then 0 else 3) (if f.cause = 0x12 then 0 else base) (BitVec.ofNat 64 b)
            (BitVec.ofNat 64 f.tv)))
    ∧ ∀ q ∈ [(Instr.ld d a w 1 x i, true, i.toInt * n), (.st d a w 1 i, false, i.toInt * n),
        (.ldacq d a w 1 x c i7, true, i7.toInt * n), (.strel d a w 1 c i7, false, i7.toInt * n)],
      let (ins, load, off) := q; let h := a.toNat % 8; let v := BitVec.ofInt 64 off
      (s.th.decks[h]? = some none → Traps ins s s 9 3 h 0 v)
      ∧ ∀ cb, s.th.decks[h]? = some (some cb) → let deck := deckView s.th.id (deckAt s.th.core cb s) s
          off < 0 ∨ ((if load = true then deck.fill else deck.room) * deck.size : Int) < off + n →
          Traps ins s s 9 6 (s.fieldOf 6) (cbAddr cb) v

/-- Vector loads (09 R233, R234, R236): with every enabled lane admitted and no storage error, one load begins, with a piece
for each enabled lane, of its four bytes from the lane's address, for these lanes of v[d] alone; with no lane enabled nothing is
loaded. VLD6 reads its 24 bytes by groups of three, for the enabled elements. What a load of lanes, or of FP6 groups, gives
its register from the values of its pieces. -/
def Obligations.VectorLoads : Prop :=
  (∀ (d a b : BitVec 4) (k : BitVec 3) (s : State), let K := s.getK k
    (∀ q ∈ [(Instr.vld d a k, unitAddr (s.getS a), (3, a.toNat)),
        (.vlds d a b k, strideAddr (s.getS a) (s.getS b), strideField s a b)],
      ∀ ps s1 s2, lanePlaces .read q.2.1 a.toNat q.2.2 (3, a.toNat) (lanesOf K) s = .ok (ps, s1) →
      checkLanes q.2.1 ps s1 = .ok s2 → ps.map (·.1) = lanesOf K ∧ (∀ p ∈ ps, p.2.length = 4)
      ∧ (K = 0 → Past q.1 4 s s2)
      ∧ (K ≠ 0 → ∃ u, Past q.1 4 s u
          ∧ BeginsLoad none (.v d (elemMask 32 K)) (.reading .lanes (ps.map fun p => ⟨p.1, q.2.1 p.1, p.2⟩) []) s2 u))
    ∧ (K = 0 → Past (.vld6 d a k) 4 s s)
    ∧ (K ≠ 0 → ∀ ls s1 s2, spanPlace .read (s.getS a) 24 8 3 a.toNat s = .ok (ls, s1) → checkData (s.getS a) ls s1 = .ok s2 →
        ∃ u, Past (.vld6 d a k) 4 s u ∧ BeginsLoad none (.v d (elemMask 8 K)) (.reading .fp6 ((List.range 8).map fun g =>
          ⟨g, s.getS a + BitVec.ofNat 64 (3 * g), (ls.drop (3 * g)).take 3⟩) []) s2 u))
  ∧ ∀ got : List (Nat × Nat), (got.map (·.1)).Nodup → ∀ p ∈ got,
      (p.1 < 32 → (lane (LoadForm.value .lanes got) p.1).toNat = p.2 % 2 ^ 32)
      ∧ (p.1 < 8 → ∀ j < 4, VElem 8 (LoadForm.value .fp6 got) (4 * p.1 + j) = p.2 / 2 ^ (6 * j) % 64)

/-- Vector stores (09 R233, R234, R236, R237): with every enabled lane admitted, one store joins the queue, a piece of four
bytes for each enabled lane, lowest first; with no lane enabled nothing is stored. VST6 stores a piece for each group of
four elements that holds an enabled one, which gives the group's places the bits of its enabled elements and no other. With
STAT 1 the store carries the partial of what it delivers. A full queue is as for the scalar stores
(notes/assumptions/96.md). -/
def Obligations.VectorStores : Prop :=
  ∀ (d a b : BitVec 4) (k n : BitVec 3) (st : BitVec 1) (s : State), let K := s.getK k
    let carries (q : QStore) (u : State) (xs : List Machine.Num) : Prop :=
      (st = 0 → q.part = none) ∧ (st = 1 → xs ≠ [] → ∃ e, q.part = some (BitVec.ofNat 64 ((u.th.getSc n).toNat / 2 ^ 8 % 2 ^ 16), Partial.ofNums xs, e))
    let queues (i : Instr) (u : State) (parts : List StorePart) (xs : List Machine.Num) : Prop :=
      ∃ t v q, exec i s = .next t ∧ v = { makeRoom u with fresh := (makeRoom u).fresh + 1
                                                          th := { (makeRoom u).th with sq := (makeRoom u).th.sq ++ [.store q] } }
        ∧ MovesPast 4 v t ∧ q.parts = parts ∧ q.rel = none ∧ q.lvl = 0 ∧ carries q u xs
        ∧ (storeCount u.th.sq < 16 → SameMemory u t ∧ t.th.s = u.th.s ∧ t.th.v = u.th.v ∧ t.threads = u.threads)
    (∀ q ∈ [(Instr.vst d a k n st, unitAddr (s.getS a), (3, a.toNat)),
        (.vsts d a b k n st, strideAddr (s.getS a) (s.getS b), strideField s a b)],
      ∀ ps s1, lanePlaces .write q.2.1 a.toNat q.2.2 (3, a.toNat) (lanesOf K) s = .ok (ps, s1) →
      ps.map (·.1) = lanesOf K ∧ (∀ p ∈ ps, p.2.length = 4)
      ∧ (K = 0 → Past q.1 4 s s1)
      ∧ (K ≠ 0 → queues q.1 s1 (ps.map fun p => ⟨p.2, (lane (s1.getV d) p.1).toNat, 2 ^ 32 - 1⟩)
          (ps.map fun p => decodeNum .f32 (lane (s1.getV d) p.1).toNat)))
    ∧ (K = 0 → Past (.vst6 d a k n st) 4 s s)
    ∧ (K ≠ 0 → (s.getS a).toNat % 8 = 0 → ∀ ps s1, groupStores6 (s.getS a) a.toNat (s.getV d) K (groups6 K) s = .ok (ps, s1) →
        queues (.vst6 d a k n st) s1 ps ((lanesOf K).map fun j => decodeNum .fp6 (VElem 8 (s.getV d) j % 64))
        ∧ ps.length = (groups6 K).length
        ∧ ∀ (j : Nat) (p : StorePart) (g : Nat), ps[j]? = some p → (groups6 K)[j]? = some g → ∃ first, first < 3
            ∧ ∀ f, first * 8 ≤ f → f < 24 →
              p.value.testBit (f - 8 * first) = (VElem 8 (s.getV d) (4 * g + f / 6)).testBit (f % 6)
              ∧ p.mask.testBit (f - 8 * first) = K.getLsbD (4 * g + f / 6))

/-- Gathers and scatters (09 R235): the lanes from ERX up, none where ERX is 32 or more; where none fails the instruction
ends with ERX 0; where one fails the lanes before it are done and the trap is taken with ERX that lane. A full queue is as
for the scalar stores (notes/assumptions/96.md). -/
def Obligations.GatherScatter : Prop :=
  ∀ (d a b : BitVec 4) (k n : BitVec 3) (st : BitVec 1) (s : State),
    let addr := indexAddr (s.getS a) (s.getV b); let K := s.getK k
    let lanes := (lanesOf K).filter fun i => decide (s.th.erx.toNat ≤ i)
    let erx (u : State) (x : Nat) : State := { u with th := { u.th with erx := BitVec.ofNat 32 x } }
    let loaded (ps : List (Nat × List Loc)) (s1 u : State) : Prop :=
      if ps = [] then u = s1
      else BeginsLoad none (.v d (elemMask 32 (lanesMask (ps.map (·.1))))) (.reading .lanes (ps.map fun p => ⟨p.1, addr p.1, p.2⟩) []) s1 u
    let stored (ps : List (Nat × List Loc)) (s1 u : State) : Prop :=
      if ps = [] then u = s1
      else ∃ q : QStore, u = { makeRoom s1 with fresh := (makeRoom s1).fresh + 1
                                                th := { (makeRoom s1).th with sq := (makeRoom s1).th.sq ++ [.store q] } }
        ∧ q.parts = (ps.map fun p => ⟨p.2, (lane (s1.getV d) p.1).toNat, 2 ^ (8 * p.2.length) - 1⟩) ∧ q.rel = none
        ∧ (st = 0 → q.part = none)
    (∀ ps stop s1, progress (gatherLane addr a b) lanes s = (ps, stop, s1) → ∃ u, loaded ps s1 u
      ∧ (stop = none → Past (.vldx d a b k) 4 s (erx u 0))
      ∧ ∀ i tr, stop = some (i, tr) → exec (.vldx d a b k) s = .next (takeTrap tr (erx u i)))
    ∧ ∀ ps stop s1, progress (fun i => lanePlace .write (addr i) a.toNat (4, b.toNat) (4, b.toNat)) lanes s = (ps, stop, s1) →
      ∃ u, stored ps s1 u
        ∧ (stop = none → Past (.vstx d a b k n st) 4 s (erx u 0))
        ∧ ∀ i tr, stop = some (i, tr) → exec (.vstx d a b k n st) s = .next (takeTrap tr (erx u i))

/-- Line operations (09 R238-R240): DISCARD and WBACK of an address in memory join the queue of the thread's stores, with the
clocks of a write issued here (11 R246); in the local store and the scratchpad they do nothing. At the home of its line DISCARD drops the dirty data of N memory, and every
copy of the line in an L1 or replica but for M memory; WBACK writes the line back, after which it is clean. PREF never faults
and changes no byte of memory and no register. -/
def Obligations.LineOperations : Prop :=
  (∀ (a : BitVec 4) (l : BitVec 1) (s : State),
    let joins (i : Instr) (discard : Bool) (k : Access) : Prop :=
      ∀ p r s1, spanPlace k (s.getS a) 1 1 3 a.toNat s = .ok (p :: r, s1) →
        (∀ x mt, p = .pa x mt → Past i 4 s
            { s1 with fresh := s1.fresh + 1, th := { s1.th with sq := s1.th.sq ++ [.line s1.fresh discard p (issueClocks false p.line s1)] } })
        ∧ ((∀ x mt, p ≠ .pa x mt) → Past i 4 s s1)
    joins (.discard a) true .write ∧ joins (.wback a) false .read
    ∧ (∀ tr, spanPlace .write (s.getS a) 1 1 3 a.toNat s = .error tr → exec (.discard a) s = .next (takeTrap tr s))
    ∧ (∀ tr, spanPlace .read (s.getS a) 1 1 3 a.toNat s = .error tr → exec (.wback a) s = .next (takeTrap tr s))
    ∧ ∃ t u, exec (.pref a l) s = .next t ∧ MovesPast 4 u t ∧ SameMemory s u ∧ u.th = s.th ∧ u.threads = s.threads)
  ∧ ∀ (t : Thread) (i x mt : Nat) (cs : List (List Nat)) (s : State),
      (let u := lineHome t i true (.pa x mt) cs s
       u.dram = s.dram ∧ u.wt = s.wt ∧ (mt = 0 → ∀ p, p ∈ u.l2 ↔ p ∈ s.l2 ∧ lineOf p.1 ≠ lineOf x) ∧ (mt ≠ 0 → u.l2 = s.l2)
        ∧ (mt ≠ 2 → (∀ c ∈ u.cores, ∀ e ∈ c.2.l1, e.1 ≠ lineOf x) ∧ ∀ n < 4, lineOf x ∉ (u.stand n).replicas))
      ∧ (let u := lineHome t i false (.pa x mt) cs s
         (∀ p ∈ u.l2, lineOf p.1 ≠ lineOf x) ∧ (∀ p ∈ u.wt, lineOf p.1 ≠ lineOf x) ∧ (∀ p ∈ s.l2, lineOf p.1 ≠ lineOf x → p ∈ u.l2))

/-- Fences (11 R253-R255): FENCE performs what the thread did before, at its scope, as far as that may be, and where nothing
of it is left invalidates what its scope names of the L1s; a deferred data error comes first, and an entry of the reduction log
is reported in its place; where something must still wait, as for an array command (12 R270), the thread is held for it.
FENCEL puts a mark behind what the thread has outstanding, in place of any mark before; where nothing is, none stays. FENCEH,
after its own fence, is held until every core of its target has drained, and an operand that names no granted target takes the
access fault. IFENCE (06 R158): the parcels that the core fetched before are gone, once the thread's atomics, reductions and
array writes are done. -/
def Obligations.Fences : Prop :=
  ∀ (a : BitVec 4) (c : BitVec 3) (s : State),
     let reports (i : Instr) (u : State) : Prop := ∀ e r, u.th.redlog = e :: r → ∃ (tr : Trap) (b : Bool),
       exec i s = .next (takeTrap tr { u with th := { u.th with redlog := r, redDropped := b } }) ∧ tr.cause = 0x14 ∧ tr.a = e.addr
         ∧ tr.v = e.operand ∧ tr.fval = (if r = [] ∧ u.th.redDropped = true then e.cause ||| 0x80 else e.cause)
     let held (i : Instr) (u : State) (work : List Nat) : Prop :=
       exec i s = .next { u with th := { u.th with status := .holding (.other work), uncounted := true } }
     (let u := performAt c.toNat s.th.id s; let work := openWork c.toNat u
      (∀ e v, s.th.dataErr = some (e, v) → Traps (.fence c) s { s with th := { s.th with dataErr := none } } 0x12 0 0 e v)
      ∧ (s.th.dataErr = none → work = [] →
          (u.th.redlog = [] → Past (.fence c) 4 s (acquireL1 c.toNat u.th.core u)) ∧ reports (.fence c) u)
      ∧ (s.th.dataErr = none → work ≠ [] → held (.fence c) u work))
     ∧ (let sq := s.th.sq.filter fun e => !e.isMark
        (openWork 3 s = [] → Past .fencel 4 s { s with th := { s.th with sq := sq } })
        ∧ (openWork 3 s ≠ [] → Past .fencel 4 s { s with fresh := s.fresh + 1, th := { s.th with sq := sq ++ [.mark s.fresh] } }))
     ∧ (let u := performAt 3 s.th.id s; let work := openWork 3 u
        ∀ gs, fencehGroves s c.toNat (s.getS a) = some gs →
          (work = [] → (u.th.redlog = [] → ∃ t, exec (.fenceh a c) s = .next t
              ∧ t.th.status = .holding (.fenceh (gs.flatMap coresOfGrove)) ∧ t.th.s = u.th.s ∧ t.th.pc = u.th.pc ∧ t.dram = u.dram
              ∧ t.l2 = u.l2) ∧ reports (.fenceh a c) u)
          ∧ (work ≠ [] → held (.fenceh a c) u work))
     ∧ (fencehGroves s c.toNat (s.getS a) = none → ∃ tr : Trap, exec (.fenceh a c) s = .next (takeTrap tr s) ∧ tr.cause = 4 ∧ tr.fidx = 3
       ∧ tr.fval = a.toNat ∧ tr.a = s.getS a)
     ∧ (let u := (s.th.atq.map (·.no)).foldl (performNo 3 s.th.id) s; let work := ifenceWork u
        (work = [] → Past .ifence 4 s { u.setCore u.th.core { u.myCore with icache := [] } with
          th := { u.th with ifence := u.fresh } })
        ∧ (work ≠ [] → held .ifence u work))

/-- Atomics and reductions as they issue (11 R260-R263): an atomic whose place is admitted joins the thread's queue, with a
load on its way to s[d]; one that is refused takes the cause of the refusal, a CAS of a readable page without write permission
the CAS write-permission fault, cause 0x15, with TRAPV the page's COW bit (R262). A reduction needs its alignment only, and
joins the queue; VRED joins one for every enabled lane from low(5, ERX) up, and ends with ERX 0; a misaligned one takes the
misaligned-access trap, a VRED with ERX that lane. -/
def Obligations.AtomicsIssue : Prop :=
  ∀ (d a b o : BitVec 4) (w : BitVec 1) (k : BitVec 3) (s : State),
    let va := s.getS a; let n := if w = 1 then 8 else 4
    let queued (u : State) (x : AtomOp) : State := { u with fresh := u.fresh + 1, th := { u.th with atq := u.th.atq ++ [x] } }
    let returning (i : Instr) (acc : Access) (kind op n : Nat) : Prop :=
      ∀ ls s1 s2, spanPlace acc va n n 3 a.toNat s = .ok (ls, s1) → checkData va ls s1 = .ok s2 →
        ∃ x u, BeginsLoad none (.s d) .waiting s2 u ∧ Past i 4 s (queued u x) ∧ x.no = s2.fresh + 1 ∧ x.kind = kind ∧ x.op = op
          ∧ x.width = n ∧ x.va = va ∧ x.locs = ls ∧ x.operand = s2.getS b ∧ x.expected = s2.getS d ∧ x.load = some s2.fresh
    let misaligned (i : Instr) (n : Nat) : Prop := va.toNat % n ≠ 0 → Traps i s s 2 3 a.toNat va 0
    let refused (i : Instr) (acc : Access) (n : Nat) : Prop := va.toNat % n = 0 → ∀ f b,
      resolveSpan s.who acc (n / 2048 + 2) va.toNat n s = .error (f, b) → f.cause ≠ 0x12 →
        Traps i s s f.cause 3 a.toNat (BitVec.ofNat 64 b) (BitVec.ofNat 64 f.tv)
    let reduces (i : Instr) (kind op n : Nat) : Prop :=
      (va.toNat % n = 0 → ∃ x, Past i 4 s (queued s x) ∧ x.no = s.fresh ∧ x.kind = kind ∧ x.op = op ∧ x.width = n ∧ x.va = va
        ∧ x.operand = s.getS b ∧ x.load = none) ∧ misaligned i n
    returning (.amo d a b o w) .readWrite 0 o.toNat n ∧ returning (.cas d a b w) .cas 1 0 n ∧ returning (.famo d a b o) .readWrite 2 o.toNat 4
    ∧ misaligned (.amo d a b o w) n ∧ misaligned (.cas d a b w) n ∧ misaligned (.famo d a b o) 4
    ∧ refused (.amo d a b o w) .readWrite n ∧ refused (.cas d a b w) .cas n ∧ refused (.famo d a b o) .readWrite 4
    ∧ (∀ p e at_ level s', va.toNat % n = 0 → va.toNat < windowBase → s.part? s.who.part = some p →
        (∀ g, s.who.grove = some g → (s.grove g).inWindow va.toNat = false) →
        findLeaf s.who va.toNat p.grant.ptroot s = (.ok (e, at_, level), s') →
        natBit e 2 = true → natBit e 3 = false → (natBit e 5 = false ∨ s.th.priv ≠ 0) →
        Traps (.cas d a b w) s s 0x15 3 a.toNat va (if natBit e 11 = true then 1 else 0))
    ∧ reduces (.red a b o w) 3 o.toNat n ∧ reduces (.fred a b o) 4 o.toNat 4
    ∧ (let addr := indexAddr va (s.getV b); let lanes := (lanesOf (s.getK k)).filter fun i => decide (s.th.erx.toNat % 32 ≤ i)
       let after (ops : List AtomOp) (x : Nat) : State := { s with
         fresh := s.fresh + ops.length, th := { s.th with atq := s.th.atq ++ ops, erx := BitVec.ofNat 32 x } }
       let given (ops : List AtomOp) (is : List Nat) : Prop := ops.length = is.length
         ∧ ∀ (j : Nat) (x : AtomOp) (i : Nat), ops[j]? = some x → is[j]? = some i → x.no = s.fresh + j ∧ x.va = addr i ∧ x.lane = i
           ∧ x.isVector = true ∧ x.width = 4 ∧ x.kind = (if o = 0 then 3 else 4) ∧ x.op = (if o.toNat < 4 then 0 else o.toNat)
           ∧ x.operand.toNat = (lane (s.getV d) i).toNat ∧ x.load = none
       ((∀ i ∈ lanes, (addr i).toNat % 4 = 0) → ∃ ops, given ops lanes ∧ Past (.vred d a b k o) 4 s (after ops 0))
       ∧ ∀ done i rest, lanes = done ++ i :: rest → (∀ j ∈ done, (addr j).toNat % 4 = 0) → (addr i).toNat % 4 ≠ 0 →
           ∃ ops, given ops done ∧ Traps (.vred d a b k o) s (after ops i) 2 4 b.toNat (addr i) 0)

/-- Tasks (08 R183, R184, R186, R211). TSELF reads tag, core and slot; TDEC sends a message that carries the amount, as a
release, and none for an amount or a handle of 0: that one message carries an amount above 65,535 too, as its effect is that of
the whole, is the model's choice (notes/assumptions/42.md). TSPAWN reads its record: a refused field takes the task-record
trap; else a result for s[d] begins, and once all before it is performed the task is made and its handle returns: 0, with the
task ready at its home, for a count of 0, else that of the counter it takes. GREPLAY, once all before it is performed, answers 1
for a busy graph, 2 for a refused one, which is logged, and else replays it; that the graph is read, checked and found idle in
that one step is the model's reading (notes/assumptions/46.md). That an instruction whose bytes come behind an array command's
reads them, and acts, when that is done, is too (notes/assumptions/97.md). -/
def Obligations.TaskForms : Prop :=
  (∀ (d a b : BitVec 4) (n : BitVec 6) (s : State),
    let va := s.getS a; let amount := (s.getS b).toNat + n.toNat
    WritesS (.tself d) 4 2 d s (· = BitVec.ofNat 64 (s.th.task.ttag.toNat + s.th.core * 2 ^ 32 + s.th.slot.toNat * 2 ^ 43))
    ∧ (amount = 0 ∨ va = 0 → Past (.tdec a b n) 4 s s)
    ∧ (amount ≠ 0 → va ≠ 0 → Past (.tdec a b n) 4 s { s with fresh := s.fresh + 1, msgs := s.msgs ++
        [⟨s.fresh, s.th.id, s.th.core + 1, some 3, .decr s.myPart va amount (s.th.entry 0)⟩] })
    ∧ ∀ ls s1, spanPlace .read va 64 64 3 a.toNat s = .ok (ls, s1) →
        (∀ bs s3, ReadsNow va ls s1 bs s3 →
          (∀ o, readRecord (s3.granted s3.myPart) s3.myPart (some s3.th.core) va bs = .error o → Traps (.tspawn d a) s s3 8 0 o va 0)
          ∧ ∀ task count, readRecord (s3.granted s3.myPart) s3.myPart (some s3.th.core) va bs = .ok (task, count) →
            ∃ u, BeginsLoad none (.s d) .waiting s3 u
              ∧ Past (.tspawn d a) 4 s (u.fillLoad u.th.id s3.fresh (.acting (.spawn task count))))
        ∧ ReadsLate (.tspawn d a) none (.s d) va 0 va ls s s1
        ∧ ∀ s2, checkData va ls s1 = .ok s2 → let w := performAt 3 s2.th.id s2
          let now : Prop := performedBefore w w.th.id w.fresh 3 = true ∧ readBlocked w ls = false
          (¬ now → ∃ u, BeginsLoad none (.s d) (.acting (.late (.greplay d a) va 0 ls)) w u ∧ Past (.greplay d a) 4 s u)
          ∧ (now → ∃ u, BeginsLoad none (.s d) .waiting w u ∧
            let plan := replayPlan u.who (some u.th.core) va u
            let answers (v : State) (x : VWord) : Prop := Past (.greplay d a) 4 s (v.fillLoad w.th.id w.fresh (.data x false))
            (plan = .error .busy → answers u 1)
            ∧ (∀ r o, plan = .error (.denied r o) → answers (u.logFault u.th.core u.myPart
                { u.th.entry 8 with addr := r, opnd := BitVec.ofNat 32 (o % 256 * 16) }) 2)
            ∧ (∀ f v, plan = .error (.fault f v) → ∃ tr : Trap, exec (.greplay d a) s = .next (takeTrap tr w) ∧ tr.cause = f.cause
                ∧ tr.a = BitVec.ofNat 64 v)
            ∧ ∀ p w2, plan = .ok (p, w2) → Past (.greplay d a) 4 s (startReplay w2.myPart va p (.load w.th.id w.fresh) w2)))
  ∧ ∀ (s : State) (x : Thread) (l : Load), s.thread? s.arg.a = some x → loadOf x s.arg.b = some l →
      let w := s.fillLoad x.id l.id .waiting
      let answers (u : State) (v : Word) : Prop := exec .loadReturn s = .next (u.fillLoad x.id l.id (.data (v.setWidth 1024) false))
      (∀ y, l.val = .acting y → y.ready s x l = false → exec .loadReturn s = .next s)
      ∧ (performedBefore s x.id l.id 3 = true → ∀ task count, l.val = .acting (.spawn task count) →
          (count = 0 → answers { w with fresh := w.fresh + 1, msgs := w.msgs ++
            [⟨w.fresh, 0, w.srcOf x.id, none, .ready task.home (taskEntry task .none w.cycle)⟩] } 0)
          ∧ (∀ h u, count ≠ 0 → placeCounter task count w = some (h, u) → answers u h)
          ∧ (count ≠ 0 → placeCounter task count w = none → ∃ t, exec .loadReturn s = .next t
              ∧ ∀ p, w.part? task.part = some p → ∃ q, t.part? task.part = some q ∧ q.waits = p.waits ++ [⟨task, count, .load x.id l.id⟩]))
      ∧ (∀ d a va b ls m, l.val = .acting (.late (.tspawn d a) va b ls) → mayPerform s x l.id ls = true → LateAt s x l m →
          ∀ bs u, LateReads va l.acq ls m bs u →
          (∀ o, readRecord (u.granted u.myPart) u.myPart (some u.th.core) va bs = .error o → LateFaults s x l 8 0 o va 0)
          ∧ ∀ task count, readRecord (u.granted u.myPart) u.myPart (some u.th.core) va bs = .ok (task, count) →
              LateEnds s x (u.fillLoad u.th.id l.id (.acting (.spawn task count))))
      ∧ ∀ d a va b ls m, l.val = .acting (.late (.greplay d a) va b ls) → mayPerform s x l.id ls = true →
          performedBefore s x.id l.id 3 = true → LateAt s x l m → let plan := replayPlan m.who (some m.th.core) va m
          (plan = .error .busy → LateEnds s x (m.fillLoad m.th.id l.id (.data 1 false)))
          ∧ (∀ r o, plan = .error (.denied r o) → LateEnds s x ((m.logFault m.th.core m.myPart
              { m.th.entry 8 with addr := r, opnd := BitVec.ofNat 32 (o % 256 * 16) }).fillLoad m.th.id l.id (.data 2 false)))
          ∧ (∀ f v, plan = .error (.fault f v) → ∃ fidx fval, LateFaults s x l f.cause fidx fval (BitVec.ofNat 64 v) (BitVec.ofNat 64 f.tv))
          ∧ ∀ p u, plan = .ok (p, u) → LateEnds s x (startReplay u.myPart va p (.load m.th.id l.id) u)

/-- Launch packets (08 R208, R209, 17 R349, 20 R376, R377). PLNCH to a refused target answers 2; to this package the packet
goes out as a release at .dom with a load for its answer; a peer's answer is free but at most 2 (notes/assumptions/5.md). A
packet that arrives is answered with the decision, and stands in its queue where that is 0. The landing server spawns the
task of a NAMED or a CARRIED packet and starts the graph of a REPLAY packet; a REPLAY of a graph that the requester may not
replay, or of a busy one, frees the packet's slot. A host's write presents a packet or is discarded with code 2, and the
status word is read back. That a PLNCH whose packet comes behind an array command's bytes reads it when that is done is the
model's reading (notes/assumptions/97.md). -/
def Obligations.LaunchPackets : Prop :=
  (∀ (d a b : BitVec 4) (s : State) ls s1 bs w, let va := s.getS a; let target := (s.getS b).toNat
    spanPlace .read va 64 64 3 a.toNat s = .ok (ls, s1) → ReadsNow va ls s1 bs w →
    (launchRefused w target = true → ∃ u, BeginsLoad none (.s d) .waiting w u
        ∧ Past (.plnch d a b) 4 s (u.fillLoad u.th.id w.fresh (.data 2 false)))
    ∧ (launchRefused w target = false → target % 1024 = w.pkg → ∃ u, BeginsLoad none (.s d) .waiting w u
        ∧ Past (.plnch d a b) 4 s { u with fresh := u.fresh + 1, msgs := u.msgs ++ [⟨u.fresh, w.th.id, w.th.core + 1, some 4,
          .packet (target / 1024 % 8) (target / 2 ^ 13 % 16) w.pkg w.myPart bs (some (w.th.id, w.fresh)) (w.th.entry 0)⟩] })
    ∧ (launchRefused w target = false → target % 1024 ≠ w.pkg → ∃ (x : VWord) (u : State), x.toNat ≤ 2
        ∧ BeginsLoad none (.s d) .waiting w u
        ∧ Past (.plnch d a b) 4 s { u.fillLoad u.th.id w.fresh (.data x false) with free := u.free + 1 }))
  ∧ (∀ (d a b : BitVec 4) (s : State) ls s1, spanPlace .read (s.getS a) 64 64 3 a.toNat s = .ok (ls, s1) →
      ReadsLate (.plnch d a b) none (.s d) (s.getS a) (s.getS b) (s.getS a) ls s s1)
  ∧ (∀ (s : State) (x : Thread) (l : Load) d a b va target ls m bs u, s.thread? s.arg.a = some x → loadOf x s.arg.b = some l →
      l.val = .acting (.late (.plnch d a b) va target ls) → mayPerform s x l.id ls = true → LateAt s x l m →
      LateReads va l.acq ls m bs u → let n := target.toNat
      (launchRefused u n = true → LateEnds s x (u.fillLoad u.th.id l.id (.data 2 false)))
      ∧ (launchRefused u n = false → n % 1024 = u.pkg → LateEnds s x { u with fresh := u.fresh + 1, msgs := u.msgs ++
          [⟨u.fresh, u.th.id, u.th.core + 1, some 4,
            .packet (n / 1024 % 8) (n / 2 ^ 13 % 16) u.pkg u.myPart bs (some (u.th.id, l.id)) (u.th.entry 0)⟩] }))
  ∧ (∀ (s : State) e part queue pkg rpart bs tid l sender, arrived s s.arg.a = some e →
      e.body = .packet part queue pkg rpart bs (some (tid, l)) sender →
      let r := landPacket part queue pkg rpart bs sender (dropMsg e.seq s)
      exec .packetArrival s = .next (r.2.fillLoad tid l (.data (BitVec.ofNat 1024 r.1) false))
      ∧ ∀ p, s.part? part = some p → s.failed.contains pkg = false → r.1 = (decide349 p queue pkg rpart bs).1)
  ∧ (∀ (s : State) p k rest, s.part? s.arg.a = some p → (p.landing.getD s.arg.b {}).packets = k :: rest → k.started = false →
      p.halt = .running →
      let u := beginPacket s.arg.a s.arg.b s; let addr := BitVec.ofNat 64 (leField k.bytes 16 8)
      let serves (t : State) : Prop := exec .landingServer s = .next t
      (leField k.bytes 0 1 = 1 → addr.toNat % 64 = 0 → ∀ bs v, replaySpan (hwWho s.arg.a) .read addr.toNat 64 u = .ok (bs, v) →
        ∀ t n, readRecord (v.granted s.arg.a) s.arg.a none addr bs = .ok (t, n) → serves (spawnTask t n (.packet s.arg.b) v))
      ∧ (leField k.bytes 0 1 = 2 → ∀ t n, readRecord (u.granted s.arg.a) s.arg.a none 0 (carriedRecord k.bytes) = .ok (t, n) →
          serves (spawnTask t n (.packet s.arg.b) u))
      ∧ (leField k.bytes 0 1 = 3 → addr.toNat % 64 = 0 →
          (graphDenied s.arg.a k.act addr u = true → ∃ e, serves (popPacket s.arg.a s.arg.b (u.logAsync s.arg.a e)) ∧ e.cause = 0x0D)
          ∧ (graphDenied s.arg.a k.act addr u = false → let plan := replayPlan (hwWho s.arg.a) none addr u
            (∀ q v, plan = .ok (q, v) → serves (startReplay s.arg.a addr q (.packet s.arg.b) v))
            ∧ (plan = .error .busy → serves (popPacket s.arg.a s.arg.b u)))))
  ∧ (∀ (s : State) p, let part := s.arg.a / 128 % 128 / 16; let queue := s.arg.a / 128 % 128 % 16
      s.part? part = some p → queue < p.landing.length →
      (s.arg.a % 128 ≠ 0 ∨ s.arg.bytes.length ≠ 64 → ∃ t q l, exec .hostPacketWrite s = .next t ∧ t.part? part = some q
        ∧ q.landing[queue]? = some l ∧ l = { p.landing.getD queue {} with code := 2 } ∧ t.dram = s.dram)
      ∧ (s.arg.a % 128 = 0 → s.arg.bytes.length = 64 → ∃ t, exec .hostPacketWrite s = .next t
        ∧ let r := landPacket part queue 0x3FF 0 s.arg.bytes outsideSender s
          ∀ q, r.2.part? part = some q → queue < q.landing.length → ∃ q' l, t.part? part = some q' ∧ q'.landing[queue]? = some l
            ∧ l.code = BitVec.ofNat 2 r.1 ∧ l.seq = BitVec.ofNat 16 (leField s.arg.bytes 2 2)
            ∧ l.nacc = (q.landing.getD queue {}).nacc + if r.1 = 0 then 1 else 0))
  ∧ ∀ s : State, (s.arg.c = 0 → exec .hostStatusRead s = .next { s with response := { bytes := leBytes 8 (statusWord s (s.arg.a % 128)) } })
      ∧ (s.arg.c ≠ 0 → s.arg.c ≤ 65536 → exec .hostStatusRead s
          = .next { s with response := { bytes := (List.range s.arg.c).map fun i => mailByte s (s.arg.b + i) } })

/-- Migration and crews (02 R40-R46, 08 R187, R188). MIGR of a thread that holds what R44 names takes the migration trap.
Else, as a FENCE at .pkg, the thread does what it has queued, is held for what must still wait, reports a reduction that failed,
goes to its own queue where its target is its own grove or outside the package, and leaves for its target with its context once
its loads have returned. GANG makes
a crew where its cores are ready, waits where they are not, and refuses a nested one. GDIS and DETACH dissolve or leave a
crew and do nothing outside one; JOIN of an undivided crew goes on, and else waits. A migrated thread's context arrives with
the registers that R45 lists, and those of R46 cleared. -/
def Obligations.CrewsAndMigration : Prop :=
  (∀ (a : BitVec 4) (s : State), let va := s.getS a
    (∀ c, migrateStop s = some c → Traps (.migr a) s s 0x0A 0 c va (BitVec.ofNat 64 c))
    ∧ (s.th.fc = [] → (∀ d ∈ s.th.decks.toList, d = none) → (∀ x ∈ s.th.streams.toList, x.opened = false) → s.th.lc[0] = 0 →
        s.th.lc[1] = 0 → s.myCore.tagOut &&& s.th.tagMask = 0 →
        ∀ ls s1, spanPlace .read va 1 1 3 a.toNat s = .ok (ls, s1) →
        let u := performAt 3 s1.th.id s1
        let target := ls.head?.bind (migrateTarget u)
        let held (work : List Nat) : Prop :=
          exec (.migr a) s = .next { u with th := { u.th with status := .holding (.other work), uncounted := true } }
        (openWork 3 u ≠ [] → held (openWork 3 u))
        ∧ (openWork 3 u = [] → (∀ e r, u.th.redlog = e :: r → ∃ (tr : Trap) (b : Bool), tr.cause = 0x14 ∧ tr.a = e.addr
          ∧ exec (.migr a) s = .next (takeTrap tr { u with th := { u.th with redlog := r, redDropped := b } }))
        ∧ (u.th.redlog = [] → ∃ v, MovesPast 4 u v ∧ let w := flushPend (accountNow v)
          (target = none → exec (.migr a) s = .next (requeueSelf w))
          ∧ ∀ core, target = some core →
            (u.th.loads ≠ [] → held (u.th.loads.map (·.id)))
            ∧ (u.th.loads = [] → ∃ t, exec (.migr a) s = .next t ∧ t.th.status = .moving ∧ t.th.tagged = false ∧ t.th.s = w.th.s
              ∧ ∃ e : Envelope, t.msgs = w.msgs ++ [e] ∧ e.seq = w.fresh ∧ e.tid = w.th.id
                ∧ e.body = .migrate core w.th.id (migrationBytes w.shared w.th))))))
  ∧ (∀ (n : BitVec 6) (s : State), let k := n.toNat
      (s.th.crew = true ∨ k < 2 ∨ 16 < k ∨ 15 < s.th.core % 16 + k - 1 →
        Traps (.gang n) s s 1 5 (fieldValue s.th.ir.word.toNat 5) 0 0)
      ∧ (s.th.crew = false → 2 ≤ k → k ≤ 16 → s.th.core % 16 + k - 1 ≤ 15 →
        (crewReady s s.th.core k s.th.task.ctags = false → WaitsAt (.gang n) (.gang k) s)
        ∧ (crewReady s s.th.core k s.th.task.ctags = true → s.th.status = .running → ∃ t, exec (.gang n) s = .next t ∧ t.th.crew = true
          ∧ t.th.cidx = 0 ∧ t.th.det = false ∧ t.th.id = s.th.id
          ∧ ∃ old fs, t.threads = old ++ fs ∧ old.map (·.id) = s.threads.map (·.id) ∧ fs.length = k - 1
              ∧ ∀ (i : Nat) (f : Thread), fs[i]? = some f →
                f.crew = true ∧ f.crewId = t.th.crewId ∧ f.cidx = BitVec.ofNat 4 (1 + i) ∧ f.core = s.th.core + 1 + i ∧ f.det = false
                ∧ f.status = .running ∧ f.loads = [] ∧ f.sq = [] ∧ f.inh = false)))
  ∧ (∀ (s : State), ∀ i ∈ [Instr.gdis, .detach], ∃ t u, exec i s = .next t ∧ MovesPast 4 s u
      ∧ (s.th.crew = false → t = u)
      ∧ (s.th.crew = true → s.th.cidx ≠ 0 → t = { u with th := { u.th with crew := false, det := false, cidx := 0, fwd := [] } })
      ∧ (s.th.crew = true → s.th.cidx = 0 → t.th.crew = false ∧ (∀ x ∈ t.threads, x.crew = true → x.crewId ≠ s.th.crewId)
          ∧ t.dram = s.dram ∧ t.th.s = s.th.s ∧ t.th.pc = u.th.pc))
  ∧ (∀ s : State,
      (s.th.crew = false ∨ s.th.attached = true → Past .join 4 s s)
      ∧ (s.th.crew = true → s.th.cidx = 0 → joinReady s s.th = true → detachedOf s = [] → Past .join 4 s s)
      ∧ (s.th.crew = true → s.th.attached = false → ¬ (s.th.cidx = 0 ∧ joinReady s s.th = true ∧ detachedOf s = []) →
          WaitsAt .join .join s)
      ∧ ∀ x since, s.thread? s.arg.a = some x → x.status = .waiting .join since → (s.focus x.id).th = x →
          (pickedWait s x .joinReconverge = false → exec .joinReconverge s = .next s)
          ∧ (pickedWait s x .joinReconverge = true → x.crew = false ∨ detachedOf (s.focus x.id) = [] →
              RunsOn .joinReconverge s (s.focus x.id)))
  ∧ ∀ (s : State) e core tid bs x, arrived s s.arg.a = some e → e.body = .migrate core tid bs → s.thread? tid = some x → x.status = .moving →
      ∃ t y, exec .migrationArrival s = .next t ∧ t.thread? tid = some y ∧ y.core = core ∧ y.status = .queued none
        ∧ (∀ sh, bs = migrationBytes sh x → (∀ r, y.getS r = x.getS r) ∧ y.pc = x.pc ∧ y.priv = x.priv ∧ y.inh = x.inh ∧ y.fcsr = x.fcsr
            ∧ y.src = x.src ∧ y.lcid = x.lcid ∧ y.ydl = x.ydl ∧ y.task.ttag = x.task.ttag)
        ∧ y.v = .replicate 16 0 ∧ y.k = .replicate 8 0 ∧ y.sc = .replicate 8 0 ∧ y.erx = 0 ∧ y.lc = .replicate 2 0
        ∧ y.lb = .replicate 2 0 ∧ y.le = .replicate 2 0 ∧ y.tagged = false ∧ y.trapc = x.trapc ∧ y.sscr = x.sscr
        ∧ ((s.core core).inbound = [] → (s.core core).runq.length < 64 →
            (t.core core).runq = (s.core core).runq ++ [resumeEntry y s.cycle])
        ∧ t.msgs = s.msgs.filter (fun m => m.seq ≠ e.seq)

/-- Decks (08 R190-R193). DBIND binds a control block in the window; an unbound handle and a count above the deck's take the
deck-misuse trap; a count of 0 completes. DWAITC and DWAITP complete where the thread's view of the deck has the slots, else
wait, and a wait that the core's picker lets go on runs on; DWAITC acquires. DADVC frees slots at HEAD, DADVP publishes slots at
TAIL: at once where nothing of the thread must come first, else behind it in the thread's queue. What a thread's view of a deck
makes of the advances that are queued. -/
def Obligations.DeckForms : Prop :=
  (∀ (h : BitVec 3) (a : BitVec 4) (n : BitVec 11) (s : State),
    let c := (s.getS a).toNat + n.toNat; let off := c - windowBase
    (windowBase ≤ c → deckValid s.th.core off s = true →
      Past (.dbind h a n) 4 s { s with th := { s.th with decks := s.th.decks.set h.toNat (some off) h.isLt } })
    ∧ (¬ (windowBase ≤ c ∧ deckValid s.th.core off s = true) →
        Traps (.dbind h a n) s s 9 2 h.toNat (BitVec.ofNat 64 c) (BitVec.ofNat 64 c))
    ∧ (s.th.decks[h.toNat]'h.isLt = none → ∀ i ∈ [Instr.dwaitc h a n, .dwaitp h a n, .dadvc h a n, .dadvp h a n],
        Traps i s s 9 2 h.toNat 0 (BitVec.ofNat 64 c))
    ∧ ∀ o, s.th.decks[h.toNat]'h.isLt = some o → let e := deckAt s.th.core o s; let d := deckView s.th.id e s
        (c = 0 → ∀ i ∈ [Instr.dwaitc h a n, .dwaitp h a n, .dadvc h a n, .dadvp h a n], Past i 4 s s)
        ∧ (∀ p ∈ [(Instr.dwaitc h a n, d.n), (.dwaitp h a n, d.n), (.dadvc h a n, d.fill), (.dadvp h a n, d.room)], c ≠ 0 → p.2 < c →
            Traps p.1 s s 9 6 (s.fieldOf 6) (cbAddr o) (BitVec.ofNat 64 c))
        ∧ (c ≠ 0 → c ≤ d.n →
            (c ≤ d.fill → Past (.dwaitc h a n) 4 s (acquireAt s.th.core s)) ∧ (d.fill < c → WaitsAt (.dwaitc h a n) (.deckC o c) s)
            ∧ (c ≤ d.room → Past (.dwaitp h a n) 4 s s) ∧ (d.room < c → WaitsAt (.dwaitp h a n) (.deckP o c) s))
        ∧ ∀ p ∈ [(Instr.dadvc h a n, false, d.fill, { e with head := (e.head + c) % e.n, fill := e.fill - c, room := e.room + c }),
              (.dadvp h a n, true, d.room, { e with tail := (e.tail + c) % e.n, fill := e.fill + c, room := e.room - c })],
            c ≠ 0 → c ≤ p.2.2.1 →
            (advanceReady s s.th s.fresh p.2.1 s.th.core o = true → Past p.1 4 s (deckStore p.2.2.2 s))
            ∧ (advanceReady s s.th s.fresh p.2.1 s.th.core o = false → Past p.1 4 s
                { s with fresh := s.fresh + 1, th := { s.th with sq := s.th.sq ++ [.advance s.fresh p.2.1 s.th.core o c] } }))
  ∧ (∀ (s : State) x o c since, s.thread? s.arg.a = some x →
      (pickedWait s x .deckWaitComplete = false → exec .deckWaitComplete s = .next s)
      ∧ (pickedWait s x .deckWaitComplete = true →
        (x.status = .waiting (.deckC o c) since → RunsOn .deckWaitComplete s (acquireAt x.core (s.focus x.id)))
        ∧ (x.status = .waiting (.deckP o c) since → RunsOn .deckWaitComplete s (s.focus x.id))))
  ∧ ∀ (tid core off : Nat) (s : State), let e := deckAt core off s; let d := deckView tid e s
      (∀ t ∈ s.all, t.core = core → ∀ n p c, StoreEntry.advance n p core off c ∉ t.sq) → 0 < e.n → e.head < e.n → e.tail < e.n →
        d.head = e.head ∧ d.tail = e.tail ∧ d.fill = e.fill ∧ d.room = e.n - e.fill

/-- Copy tags (08 R198-R200). A mask with a tag outside the thread's group takes the copy-command trap. CWAITANY and
CWAITALL wait for a set bit, or for all, and then acquire; CFIND gives the lowest set tag of the group or 64; CTAGCLR clears
bits. A set tag marked in error is reported in place of completing, and its mark goes. -/
def Obligations.TagForms : Prop :=
  (∀ (a : BitVec 4) (s : State), let m := s.getS a; let ctb := s.myCore.ctb
    let unmarked (k : Word) : Prop := ctb &&& s.myCore.tagErr &&& k = 0
    (m &&& ~~~s.th.tagMask ≠ 0 → ∀ i ∈ [Instr.cwaitany a, .cwaitall a, .ctagclr a], Traps i s s 0x0B 3 a.toNat 0 m)
    ∧ (m &&& ~~~s.th.tagMask = 0 →
        (m = 0 → Traps (.cwaitany a) s s 0x0B 3 a.toNat 0 0 ∧ Past (.cwaitall a) 4 s s)
        ∧ (m ≠ 0 → ctb &&& m = 0 → WaitsAt (.cwaitany a) (.tagAny m) s)
        ∧ (m ≠ 0 → ctb &&& m ≠ m → WaitsAt (.cwaitall a) (.tagAll m) s)
        ∧ (ctb &&& m ≠ 0 → unmarked m → Past (.cwaitany a) 4 s (acquireAt s.th.core s))
        ∧ (m ≠ 0 → ctb &&& m = m → unmarked m → Past (.cwaitall a) 4 s (acquireAt s.th.core s))
        ∧ (∀ k < 64, (ctb &&& s.myCore.tagErr &&& m).getLsbD k = true → (∀ j < k, (ctb &&& s.myCore.tagErr &&& m).getLsbD j = false) →
            ∃ u, Reported u s.th.core k s
              ∧ Traps (.cwaitany a) s u 0x0E 0 0 ((Table.find k s.myCore.tagFault).getD 0) (BitVec.ofNat 64 k)
              ∧ (ctb &&& m = m → Traps (.cwaitall a) s u 0x0E 0 0 ((Table.find k s.myCore.tagFault).getD 0) (BitVec.ofNat 64 k)))
        ∧ Past (.ctagclr a) 4 s (s.setCore s.th.core { s.myCore with ctb := ctb &&& ~~~m })))
  ∧ (∀ (d : BitVec 4) (s : State), let w := s.myCore.ctb &&& s.th.tagMask
      (w = 0 → WritesS (.cfind d) 4 2 d s (· = 64))
      ∧ ∀ k < 64, w.getLsbD k = true → (∀ j < k, w.getLsbD j = false) → 
          (s.myCore.tagErr.getLsbD k = false → Past (.cfind d) 4 s ((acquireAt s.th.core s).withPending [⟨2, .s d (BitVec.ofNat 64 k)⟩]))
          ∧ (s.myCore.tagErr.getLsbD k = true → ∃ u, Reported u s.th.core k s
              ∧ Traps (.cfind d) s u 0x0E 0 0 ((Table.find k s.myCore.tagFault).getD 0) (BitVec.ofNat 64 k)))
  ∧ ∀ (s : State) x m since, s.thread? s.arg.a = some x → let c := s.core x.core; (s.focus x.id).th = x →
      x.status = .waiting (.tagAny m) since ∨ x.status = .waiting (.tagAll m) since →
      (pickedWait s x .copyTagWaitComplete = false → exec .copyTagWaitComplete s = .next s)
      ∧ (pickedWait s x .copyTagWaitComplete = true →
        (c.ctb &&& c.tagErr &&& m = 0 → RunsOn .copyTagWaitComplete s (acquireAt x.core (s.focus x.id)))
        ∧ ∀ k < 64, (c.ctb &&& c.tagErr &&& m).getLsbD k = true → (∀ j < k, (c.ctb &&& c.tagErr &&& m).getLsbD j = false) →
            ∃ (tr : Trap) (u : State), exec .copyTagWaitComplete s = .next (finishIssue false (takeTrap tr (pickFocus x.id u)))
              ∧ tr.cause = 0x0E ∧ tr.a = (Table.find k c.tagFault).getD 0 ∧ tr.v = BitVec.ofNat 64 k ∧ Reported u x.core k (s.focus x.id))

/-- Copies (08 R195-R198, 02 R49). CPY and CPY2 claim a free tag of the thread and queue the command, whose tag is
outstanding; a misaligned block and a tag that is not free trap. The engine reads the block of a queued command once all that
its thread did before is performed, for it is a release; it starts the command that is served first, where each running one of
lower priority stands at a boundary of its granules; it moves the running one of highest priority, and completes a command
once its data have moved: its tag's bit is set, and the command is gone. The elements of a source are the format's bits in
order; one of another format than the destination's is scaled by 2^K, clamped as SAT = 1 does and rounded once, and the flags of
all join the atomic exception word. A copy between addresses that runs whole reads its source spans, writes what they become to
its destination spans, and has moved. -/
def Obligations.CopyForms : Prop :=
  (∀ (a b g : BitVec 4) (p : BitVec 2) (s : State), let va := s.getS a; let tag := s.getS b; let c := s.myCore
    ∀ q ∈ [(Instr.cpy a b p g, false), (.cpy2 a b p g, true)],
      (va.toNat % 64 ≠ 0 → Traps q.1 s s 2 3 a.toNat va 0)
      ∧ (va.toNat % 64 = 0 → ¬ (s.th.ownsTag tag.toNat = true ∧ c.tagOut.getLsbD tag.toNat = false ∧ c.tagErr.getLsbD tag.toNat = false) →
          Traps q.1 s s 0x0B 4 b.toNat 0 tag)
      ∧ (va.toNat % 64 = 0 → s.th.ownsTag tag.toNat = true → c.tagOut.getLsbD tag.toNat = false → c.tagErr.getLsbD tag.toNat = false →
          let bit : Word := BitVec.ofNat 64 (2 ^ tag.toNat)
          let u := s.setCore s.th.core { c with ctb := c.ctb &&& ~~~bit, tagOut := c.tagOut ||| bit }
          let grove := groveOfCore u.th.core; let v := registerIn (standOfGrove grove) u
          ∃ x : CopyCmd, Past q.1 4 s (v.setGrove grove { v.grove grove with copies := (v.grove grove).copies ++ [x] })
            ∧ x.id = u.fresh ∧ x.block = va ∧ x.twoD = q.2 ∧ x.tag = tag.toNat ∧ x.gran = g.toNat ∧ x.pri = p.toNat ∧ x.core = u.th.core
            ∧ x.part = u.myPart ∧ x.priv = u.th.priv.toNat ∧ x.tid = u.th.id ∧ x.state = .queued ∧ x.bytes = [] ∧ x.wr = 0))
  ∧ (∀ (s : State) c, let g := s.arg.a; let cs := (s.grove g).copies
      cs.find? (fun x => x.id == s.arg.b) = some c →
      (c.state = .queued → c.bytes = [] → exec .copyCommandStart s
        = .next (if performedBefore s c.tid c.id 3 = true then readBlock g c s else s))
      ∧ (c.state = .queued → c.bytes ≠ [] → (firstCopy (cs.filter (startable s))).map (·.id) = some c.id →
          (∀ d ∈ cs, d.state = .running → d.pri < c.pri ∧ d.gran ≠ 0 ∧ d.boundary = true) →
          exec .copyCommandStart s
            = .next (putCopy g { c with state := if c.total = 0 then .moved else .running } (syncStand (standOfGrove g) s)))
      ∧ (∀ d ∈ cs, c.state = .queued → c.bytes ≠ [] → d.state = .running → (c.pri ≤ d.pri ∨ d.gran = 0 ∨ d.boundary = false) →
          exec .copyCommandStart s = .next s)
      ∧ (firstCopy (cs.filter fun d => d.state == .running) = some c →
          (∀ d ∈ cs, startable s d = true → c.yieldsTo d.pri = false) → exec .copyGranule s = .next (movePiece g c s))
      ∧ (c.state = .moved → ∃ t, exec .copyComplete s = .next t ∧ (t.core c.core).ctb = (s.core c.core).ctb ||| BitVec.ofNat 64 (2 ^ c.tag)
          ∧ (t.core c.core).tagOut = (s.core c.core).tagOut &&& ~~~BitVec.ofNat 64 (2 ^ c.tag)
          ∧ (t.core c.core).tagErr = (s.core c.core).tagErr ∧ (t.grove g).copies = cs.filter (fun x => x.id ≠ c.id)
          ∧ t.dram = s.dram ∧ t.l2 = s.l2 ∧ t.th = s.th ∧ t.threads = s.threads))
  ∧ (∀ (f : Fmt) (bs : List Byte) (i : Nat), let bits := if f = .fp6 then 6 else f.width
      bs.length % f.groupBytes = 0 → bits * (i + 1) ≤ 8 * bs.length →
      (bytesToElems f bs)[i]? = some (leNat bs / 2 ^ (bits * i) % 2 ^ bits))
  ∧ (∀ (c : CopyCmd) (bs : List Byte), let r := convertBytes c bs; let bits := if c.dfmt = .fp6 then 6 else c.dfmt.width
      let one (x : Nat) := roundedOnce c.dfmt (Mode.ofCode (leField c.bytes 42 1 % 8)) 0
        { scale := signedOf 8 (leField c.bytes 44 1), sat := 1 } (decodeNum c.sfmt x, 0)
      (c.sfmt = c.dfmt → r = (bs, 0))
      ∧ (c.sfmt ≠ c.dfmt → bs.length % c.group.1 = 0 → r.1.length = bs.length / c.group.1 * c.group.2
          ∧ (bytesToElems c.dfmt r.1).length = (bytesToElems c.sfmt bs).length
          ∧ (∀ (i x : Nat), (bytesToElems c.sfmt bs)[i]? = some x → (bytesToElems c.dfmt r.1)[i]? = some ((one x).1 % 2 ^ bits))
          ∧ ∀ b, r.2.getLsbD b = true ↔ ∃ x ∈ bytesToElems c.sfmt bs, (one x).2.getLsbD b = true))
  ∧ ∀ (g : Nat) (c : CopyCmd) (s s1 s3 : State) (bs : List Byte) (ls : List Loc), let r := convertBytes c bs
      let w : Writer := { stand := standOfCore c.core, tid := c.tid }
      c.fromDeck = false → c.toDeck = false → c.gran = 0 → c.ibuf = [] → c.obuf = [] → c.rd = 0 → c.wr = 0 → c.total ≠ 0 →
      c.total % c.group.1 = 0 → natBit (leField c.bytes 42 1) 3 = false → bs.length = c.total →
      engineRead c.who (readGrove g) (c.srcSpans 0 c.total) s = (bs, none, s1) →
      engineSpans c.who .write (c.dstSpans 0 r.1.length) (s1.orAew w c.part r.2) = (ls, none, s3) →
      movePiece g c s = putCopy g { c with rd := c.total, wr := r.1.length, mark := r.1.length, granule := c.granule + 1
                                           boundary := true, stats := {}, state := .moved } (c.store (ls.zip r.1) s3)

/-- Streams (08 R202, R203). SOPEN reads its descriptor and opens a free stream number toward the descriptor's deck, or in
error; SSEND, a release, sends four flits a register where the outbound deck has room, else waits; SCLOSE closes; an unopened
stream takes the stream trap, whose TRAPA of 0 is the model's choice (notes/assumptions/122.md), one in error takes it and is
closed. That an SSEND of more than the outbound deck's eight slots is deck misuse, and that an SOPEN whose descriptor comes
behind an array command's bytes is held for it, are the model's choices (notes/assumptions/11.md, 97.md). An opening flit takes the deck's route or waits its turn; a
flit lands where the deck has a free slot, for the thread that sent it; the closing marker publishes a partly filled slot and
frees the route, which the first opening flit that waits for it takes. -/
def Obligations.StreamForms : Prop :=
  (∀ (a : BitVec 4) (i : BitVec 2) (k : BitVec 3) (c : BitVec 4) (s : State),
    let va := s.getS a; let x := s.stream i; let n := c.toNat + 1; let v := i.setWidth 64; let f := s.fieldOf 5
    (x.opened = true → Traps (.sopen a i) s s 0x0C 5 f va v)
    ∧ (x.opened = false →
        (∀ e, spanPlace .read va 16 1 3 a.toNat s = .error e →
          Past (.sopen a i) 4 s (setStream i { opened := true, error := true, desc := va } (retireTrap e s)))
        ∧ (∀ ls s1 e, spanPlace .read va 16 1 3 a.toNat s = .ok (ls, s1) → checkData va ls s1 = .error e →
          Past (.sopen a i) 4 s (setStream i { opened := true, error := true, desc := va } (retireTrap e s1)))
        ∧ (∀ ls s1 u, spanPlace .read va 16 1 3 a.toNat s = .ok (ls, s1) → checkData va ls s1 = .ok u →
          let m := beforeReading ls u; readBlocked m ls = true → exec (.sopen a i) s = .next { m with
            th := { m.th with status := .holding (.other (blockingWork ls m)), uncounted := true } })
        ∧ ∀ ls s1 bs s3, spanPlace .read va 16 1 3 a.toNat s = .ok (ls, s1) → ReadsNow va ls s1 bs s3 →
            let tgt := leField bs 0 2 % 2048; let dcb := leField bs 4 4
            ((s3.granted s3.myPart tgt && deckValid tgt dcb s3) = false →
              Past (.sopen a i) 4 s (setStream i { opened := true, error := true, desc := va } s3))
            ∧ ((s3.granted s3.myPart tgt && deckValid tgt dcb s3) = true → ∃ u, Past (.sopen a i) 4 s u
                ∧ u.stream i = { opened := true, error := false, tgt := tgt, dcb := dcb, desc := va, route := s3.fresh }
                ∧ (∃ src, u.msgs = s3.msgs ++ [⟨s3.fresh + 1, s3.th.id, src, none, .openFlit tgt dcb s3.fresh⟩]) ∧ u.dram = s3.dram))
    ∧ (∀ p ∈ [Instr.sclose i, .ssend i a k c],
        (x.opened = false → Traps p s s 0x0C 5 f 0 v)
        ∧ (x.opened = true → x.error = true → Traps p s (setStream i {} s) 0x0C 5 f x.desc v))
    ∧ (x.opened = true → x.error = false →
        (∃ u, Past (.sclose i) 4 s u ∧ u.stream i = {}
          ∧ (∃ src, u.msgs = s.msgs ++ [⟨s.fresh, s.th.id, src, none, .closeFlit x.tgt x.dcb x.route⟩]) ∧ u.dram = s.dram)
        ∧ (8 < n → Traps (.ssend i a k c) s s 9 5 f 0 (BitVec.ofNat 64 n))
        ∧ (n ≤ 8 → outboundFree s x < n → WaitsAt (.ssend i a k c) (.ssend i.toNat n) s)
        ∧ (n ≤ 8 → n ≤ outboundFree s x →
            ∃ t, exec (.ssend i a k c) s = .next t ∧ ∃ es, t.msgs = s.msgs ++ es ∧ es.length = 4 * n ∧ t.dram = s.dram ∧ t.th.s = s.th.s
              ∧ t.th.sq = s.th.sq ∧ ∀ (j : Nat) (e : Envelope), es[j]? = some e →
                e.seq = s.fresh + j ∧ e.tid = s.th.id ∧ e.rel = some 3 ∧ ∃ bs, e.body = .flit x.tgt x.dcb x.route bs
                ∧ leNat bs = (s.getV (a + BitVec.ofNat 4 (j / 4)) &&& elemMask 32 (s.getK k)).toNat / 2 ^ (256 * (j % 4)) % 2 ^ 256)))
  ∧ ∀ (s : State) e core dcb r, arrived s s.arg.a = some e → let x := s.core core
      (e.body = .openFlit core dcb r →
        ((∀ y ∈ x.routes, y.dcb ≠ dcb) →
          exec .streamOpenFlit s = .next (dropMsg e.seq (s.setCore core { x with routes := x.routes ++ [⟨dcb, r, [], 0⟩] })))
        ∧ ((∃ y ∈ x.routes, y.dcb = dcb) →
          exec .streamOpenFlit s = .next (dropMsg e.seq (s.setCore core { x with claims := x.claims ++ [(dcb, r)] }))))
      ∧ (∀ bs, e.body = .flit core dcb r bs →
          (holdsRoute s core dcb r = true → 0 < (unitDeck true core dcb s).room →
            exec .streamFlitLand s = .next (dropMsg e.seq (replayed core dcb (landBytes e.tid core dcb bs s))))
          ∧ (holdsRoute s core dcb r = false ∨ (unitDeck true core dcb s).room = 0 → exec .streamFlitLand s = .next s))
      ∧ (e.body = .closeFlit core dcb r → holdsRoute s core dcb r = true → ∀ y, x.routes.find? (fun y => y.dcb = dcb) = some y →
          let n := y.bytes.length; let room := 0 < (unitDeck true core dcb s).room
          (n ≠ 0 → ¬ room → exec .streamCloseMarker s = .next s)
          ∧ (n ≠ 0 → room → exec .streamCloseMarker s = .next (pulseMarker core dcb (dropMsg e.seq (freeRoute core dcb
              (landBytes e.tid core dcb (zeroBytes ((deckAt core dcb s).size - n)) s)))))
          ∧ (n = 0 → ∃ t, exec .streamCloseMarker s = .next t ∧ t.dram = s.dram ∧ t.th = s.th
            ∧ ((∀ p ∈ x.claims, p.1 ≠ dcb) → (t.core core).routes = x.routes.filter (fun y => y.dcb ≠ dcb))
            ∧ ∀ p, x.claims.find? (fun p => p.1 = dcb) = some p →
                (t.core core).routes = x.routes.filter (fun y => y.dcb ≠ dcb) ++ [⟨dcb, p.2, [], 0⟩] ∧ (t.core core).claims = x.claims.erase p))

/-- Array instructions at issue (12 R269-R279): a data error met for the thread comes first; a core that does not own the
accumulator takes the ownership trap, and a claim against another core's claim too, and an MMA of a tile that it cannot name
the plane-configuration trap; where a queue is full or frozen the thread waits; else the command enters the queue, for a BC
MLDB all four of the grove, with what it captures, and MMA counts, a drain in mode SR advances SRC by 64, and MFLAG has a load
on its way. -/
def Obligations.ArrayForms : Prop :=
  ∀ (d n m : BitVec 2) (a b f : BitVec 4) (sc md : BitVec 3) (sw bc ct st l : BitVec 1) (s : State),
    let arr := arrayOfCore s.th.core; let own := (s.array arr).ownAhead; let owner (q : BitVec 2) := ownerOf own q.toNat
    let mine (q : BitVec 2) : Prop := owner q = s.th.core % 4
    let V := s.getS a; let W := s.getS b; let fmt := Fmt.ofCode f.toNat
    let mode := if md = 7 then (s.th.fcsr.extractLsb' 5 3).toNat else md.toNat
    let entered (i : Instr) (arrs : List Nat) (u : State) (go : State → State) (p : ArrayCmd → Prop) : Prop :=
      ((∀ j ∈ arrs, arrayRoom (u.array j) = true) → ∃ c, Past i 4 s (go (arrs.foldl (pushArray c) { u with fresh := u.fresh + 1 }))
        ∧ p c ∧ c.instr = i ∧ c.id = u.fresh ∧ c.tid = u.th.id ∧ c.core = u.th.core ∧ c.draw = u.th.drawOf
        ∧ c.modw = u.th.modLatch.getD 0 ∧ c.data = none ∧ c.left = 0)
      ∧ ∀ j, arrs.find? (fun j => !arrayRoom (u.array j)) = some j →
          exec i s = .next { u with th := { u.th with status := .waiting (.arrayQueue j) u.cycle, uncounted := true } }
    (∀ e v, s.th.dataErr = some (e, v) → ∀ i ∈ [Instr.mma n m a f sw bc, .mlda n a f 0, .mldb a b f bc, .mdrain n a sc f md ct st 0,
        .mown l, .mzero n, .msacc d n a, .mswap n a, .mflag a n],
      Traps i s { s with th := { s.th with dataErr := none } } 0x12 0 0 e v)
    ∧ (s.th.dataErr = none →
      (¬ mine n → ∀ p ∈ [(Instr.mma n m a f sw bc, 2), (.mlda n a f 0, 2), (.mlda n a f 1, 2), (.mdrain n a sc f md ct st 0, 2),
          (.mdrain n a sc f md ct st 1, 2), (.mzero n, 2), (.msacc d n a, 2), (.mswap n a, 2), (.mflag a n, 4)],
        Traps p.1 s s 0x16 2 (s.fieldOf p.2) 0 (BitVec.ofNat 64 (4 * (arr % 4) + owner n)))
      ∧ (own.getLsbD 2 = true → own.toNat % 4 ≠ s.th.core % 4 →
          Traps (.mown 1) s s 0x16 2 (s.fieldOf 2) 0 (BitVec.ofNat 64 (4 * (arr % 4) + own.toNat % 4)))
      ∧ (l = 0 ∨ own.getLsbD 2 = false ∨ own.toNat % 4 = s.th.core % 4 → entered (.mown l) [arr] s (fun u => u) fun _ => True)
      ∧ (mine n → mine m → ¬ (V &&& ~~~0xCFF = 0 ∧ regionTiles (s.array arr).cfg ≤ V.toNat % 256 ∧
          V.toNat / 1024 % 4 < rowHalves fmt (decide (sw = 1))) → Traps (.mma n m a f sw bc) s s 0x17 3 a.toNat 0 V)
      ∧ (mine n → entered (.mzero n) [arr] s (fun u => u) (fun _ => True)
          ∧ entered (.mflag a n) [arr] s (fun u => u.pushLoad (.s a) .waiting) (fun c => c.load = some (s.fresh + 1)))
      ∧ (mine n → mine d → entered (.msacc d n a) [arr] s (fun u => u) fun c => c.a = V)
      ∧ (mine n → mine m → V &&& ~~~0xCFF = 0 → regionTiles (s.array arr).cfg ≤ V.toNat % 256 →
          V.toNat / 1024 % 4 < rowHalves fmt (decide (sw = 1)) →
          entered (.mma n m a f sw bc) [arr] s (fun u => u.count 0x11) fun c => c.a = V)
      ∧ (mine n → ∀ sp u, spanOf .read V (aTileBytes fmt) 64 3 a.toNat s = .ok (sp, u) →
          entered (.mlda n a f 0) [arr] u (fun u => u) fun c => c.a = V ∧ c.locs = sp ∧ c.decks = [])
      ∧ (mine n → ∀ k, deckOperand a (aTileBytes fmt) s = .ok k →
          entered (.mlda n a f 1) [arr] s (fun u => u) fun c => c.locs = [] ∧ c.decks = [(k.core, k.off)])
      ∧ (W &&& ~~~0xFF = 0 → let arrs := if bc = 1 then groveArrays s else [arr]
          (∀ j ∈ arrs, regionTiles (s.array j).cfg ≤ W.toNat % 256) →
          ∀ sp u, spanOf .read V (bTileBytes fmt) 64 3 a.toNat s = .ok (sp, u) →
          entered (.mldb a b f bc) arrs u (fun u => u) fun c => c.a = V ∧ c.b = W ∧ c.locs = sp)
      ∧ (mine n → let bump (u : State) : State := if mode = 4 then (u.count 0x0E).onTh fun t => { t with src := t.src + 64 } else u
          (∀ sp u, spanOf .write V (drainBytes fmt) 64 3 a.toNat s = .ok (sp, u) →
            entered (.mdrain n a sc f md ct st 0) [arr] u bump fun c => c.a = V ∧ c.locs = sp ∧ c.mode = mode ∧ c.sc = s.th.getSc sc)
          ∧ ∀ k, deckOperand a (drainBytes fmt) s = .ok k →
            entered (.mdrain n a sc f md ct st 1) [arr] s bump fun c => c.decks = [(k.core, k.off)] ∧ c.mode = mode ∧ c.sc = s.th.getSc sc)
      ∧ (mine n → ∀ sp u, spanOf .readWrite V 8256 64 3 a.toNat s = .ok (sp, u) →
          entered (.mswap n a) [arr] u (fun u => u) fun c => c.a = V ∧ c.locs = sp))

/-- What an array does with the command at its queue's head (12 R271-R279): the command leaves the queue with its effect on
ownership, accumulators, buffers, tiles or memory. One that reads or writes memory stays until its thread's earlier accesses to
its bytes are performed (R270), one that waits on a deck until the deck is ready; a product whose tile cannot be read ends
without effect (09 R229). A drain with statistics sends its partial, to a deck before it publishes anything there, and is done
once that has reached its record (17 R338); a deck's slots are freed once the thread's earlier loads from the deck have returned
(08 R193). -/
def Obligations.ArrayEvents : Prop :=
  ∀ (s : State) c, let arr := s.arg.a; let x := s.array arr
    headCommand s arr = some c →
    let tile (t : State) (n : BitVec 2) : Memory := (t.array arr).acc.toList.getD n.toNat []
    let flags (t : State) (n : BitVec 2) : BitVec 32 := (t.array arr).accf.toList.getD n.toNat 0
    let buffer (t : State) (n : BitVec 2) : Memory := (t.array arr).abuf.toList.getD n.toNat []
    let ls := c.places; let r := arrayRead c c.byteAddr ls s
    (∀ l, c.instr = .mown l → ∃ t, exec .mownExecute s = .next t ∧ (t.array arr).own = ownAfter (decide (l = 1)) c.core x.own
      ∧ (t.array arr).aq = x.aq.tail ∧ t.dram = s.dram)
    ∧ (∀ n, c.instr = .mzero n → ∃ t, exec .mzeroExecute s = .next t ∧ tile t n = [] ∧ flags t n = 0 ∧ (t.array arr).aq = x.aq.tail
      ∧ ∀ k, k ≠ n → tile t k = tile s k ∧ flags t k = flags s k)
    ∧ (∀ a n l, c.instr = .mflag a n → c.load = some l → ∃ t, exec .mflagExecute s = .next t ∧ flags t n = 0 ∧ (t.array arr).aq = x.aq.tail
      ∧ (s.th.id = c.tid → ∀ q ∈ t.th.loads, q.id = l → q.val = .data ((flags s n).setWidth 1024) false))
    ∧ (∀ d n a, c.instr = .msacc d n a → ∃ t, exec .msaccExecute s = .next t ∧ (t.array arr).aq = x.aq.tail
      ∧ let out := ((accWords (tile s d)).zip (accWords (tile s n))).map fun p => sumScaled (nearExponent c.a.toInt) p.1 p.2
        tile t d = accOf (out.map (·.1)) ∧ ∀ b < 5, (flags t d).getLsbD b = ((flags s d).getLsbD b || out.any fun o => o.2.getLsbD b))
    ∧ (∀ n m a f sw, c.instr = .mma n m a f sw 0 → let pos := c.a.toNat % 256
      (badSlice s arr (16384 * pos) 16384 = none → ∃ t, exec .mmaExecute s = .next t ∧ (t.array arr).aq = x.aq.tail
        ∧ let p := tileProduct (Fmt.ofCode f.toNat) (decide (sw = 1)) (c.a.toNat / 1024 % 4) ((buffer s m).span 0 8192)
              (x.slice.span (16384 * pos) 16384) (tile s n)
          tile t n = p.1 ∧ flags t n = flags s n ||| p.2.setWidth 32 ∧ t.dram = s.dram)
      ∧ ∀ b, badSlice s arr (16384 * pos) 16384 = some b → b.passes = false → ∃ t, exec .mmaExecute s = .next t
          ∧ (t.array arr).aq = x.aq.tail ∧ (t.array arr).acc = x.acc ∧ (t.array arr).accf = x.accf)
    ∧ (∀ i ∈ [Instr.mldaExecute, .mldbExecute, .mdrainExecute, .mswapExecute], c.decks = [] → c.data = none → c.sent = none → arrayMay c s = false →
        exec i s = .next s)
    ∧ (∀ n a f k, c.instr = .mlda n a f k → c.decks = [] → arrayMay c s = true → r.2.1 = false → ∃ t, exec .mldaExecute s = .next t
      ∧ (t.array arr).aq = ((r.2.2).array arr).aq.tail ∧ buffer t n = Memory.ofBytes (unpackTile (Fmt.ofCode f.toNat) r.1))
    ∧ (∀ n a f k core off rest, c.instr = .mlda n a f k → c.decks = (core, off) :: rest →
        let d := unitDeck false core off s; let len := aTileBytes (Fmt.ofCode f.toNat)
        let slots := (List.range len).map fun i => Loc.ls core (deckByte d true i)
        let q := arrayRead c (fun i => cbAddr (deckByte d true i)) slots (syncStand (standOfCore core) s)
        (d.fill * d.size < len ∨ arrayMayFree c d slots s = false → exec .mldaExecute s = .next s)
        ∧ (len ≤ d.fill * d.size → arrayMayFree c d slots s = true → ∃ t u, exec .mldaExecute s = .next t
          ∧ t = popArray arr (deckStore (deckConsume (len / d.size) (deckAt core off u)) u)
          ∧ (q.2.1 = false → buffer u n = Memory.ofBytes (unpackTile (Fmt.ofCode f.toNat) q.1))))
    ∧ (∀ a b f bc, c.instr = .mldb a b f bc → let base := 16384 * (c.b.toNat % 256)
      (∀ bs, c.data = some bs → c.failed = false → ∃ t, exec .mldbExecute s = .next t ∧ (t.array arr).aq = x.aq.tail
        ∧ (t.array arr).slice = x.slice.splice base bs ∧ c.b.toNat % 256 ∉ (t.array arr).tileRegs)
      ∧ (c.data = none → arrayMay c s = true → r.2.1 = false → let bs := unpackTile (Fmt.ofCode f.toNat) r.1
        ∃ t, exec .mldbExecute s = .next t ∧ (t.array arr).slice = ((r.2.2).array arr).slice.splice base bs
        ∧ c.b.toNat % 256 ∉ (t.array arr).tileRegs
        ∧ (bc = 1 → ∀ q ∈ t.arrays, ∀ e ∈ q.2.aq, e.id = c.id → e.data = some bs ∧ e.failed = false)))
    ∧ (∀ n a sc f m ct st k, c.instr = .mdrain n a sc f m ct st k →
        let fmt := Fmt.ofCode f.toNat; let q := drainedBytes arr c n.toNat fmt (decide (ct = 1)) s
        let there : Prop := ∀ e ∈ s.msgs, some e.seq ≠ c.sent
        let ends (u : State) : Prop := exec .mdrainExecute s = .next ((popArray arr u).pulse (arrayUnit arr) (groveOfArray arr) (arr % 4))
        let counts (u : State) : Prop := ∃ t e, exec .mdrainExecute s = .next t ∧ SameMemory u t ∧ t.th = u.th ∧ t.threads = u.threads
          ∧ t.msgs = u.msgs ++ [e] ∧ e.seq = u.fresh ∧ e.body = .statistics c.part (BitVec.ofNat 64 (c.sc.extractLsb' 8 16).toNat)
            (Partial.ofNums ((bytesToElems fmt q.1).map (decodeNum fmt))) (c.entry arr 0x1F)
          ∧ (t.array arr).aq = (u.array arr).aq.map fun e => if e.id = c.id then { e with sent := some u.fresh } else e
        (c.data = none → q.1 = elemsToBytes fmt (drainOrder (decide (ct = 1)) ((drainTile c fmt (tile s n)).map (·.1))))
        ∧ (∀ bs, c.data = some bs → q = (bs, s))
        ∧ ((∃ e ∈ s.msgs, some e.seq = c.sent) → exec .mdrainExecute s = .next s)
        ∧ (c.decks = [] →
          (c.sent ≠ none → there → ends s)
          ∧ (c.sent = none → arrayMay c s = true → let u := arrayStore c ls q.1 (c.entry arr 0) q.2
              (st = 0 → ends u) ∧ (st = 1 → counts u)))
        ∧ ∀ core off rest, c.decks = (core, off) :: rest → there → let d := unitDeck true core off s
          (performedBefore s c.tid c.id 3 = false → exec .mdrainExecute s = .next s)
          ∧ (performedBefore s c.tid c.id 3 = true → st = 1 → c.sent = none → counts q.2)
          ∧ (performedBefore s c.tid c.id 3 = true → (st = 0 ∨ c.sent ≠ none) →
            let slot := (q.1.drop (d.size * c.left)).take d.size
            let u := storeLocs { stand := standOfCore core, tid := c.tid } (slot.zipIdx.map fun p => (Loc.ls core (deckByte d false p.2), p.1)) q.2
            let v := deckStore (deckPublish 1 (deckAt core off u)) u
            (d.room = 0 → exec .mdrainExecute s = .next s)
            ∧ (0 < d.room → q.1.length ≤ d.size * (c.left + 1) → ends v)
            ∧ (0 < d.room → d.size * (c.left + 1) < q.1.length → ∃ t, exec .mdrainExecute s = .next t ∧ SameMemory v t ∧ t.th = v.th
                ∧ (t.array arr).aq = (v.array arr).aq.map fun e => if e.id = c.id then { e with left := e.left + 1 } else e)))
    ∧ (∀ n a, c.instr = .mswap n a → arrayMay c s = true → r.2.1 = false → ∃ t, exec .mswapExecute s = .next t
      ∧ tile t n = Memory.ofBytes ((r.1.take 8196).take 8192) ∧ flags t n = BitVec.ofNat 32 (leField (r.1.take 8196) 8192 4 % 64)
      ∧ SameMemory (arrayStore c (ls.take 8196) ((tile r.2.2 n).span 0 8192 ++ leBytes 4 (flags r.2.2 n).toNat) (c.entry arr 0) r.2.2.draw) t)
    ∧ (∀ g, arr = 4 * g → (∀ j < 4, (headRound s (arr + j)).isSome = true) → ∀ n m a f sw, c.instr = .mma n m a f sw 1 →
        let u := { s with arg := { s.arg with a := g } }; let pos := c.a.toNat % 256
        badSlice s arr (16384 * pos) 16384 = none →
        exec .mmaBcRound u = .next ([arr, arr + 1, arr + 2, arr + 3].foldl (runRound (x.slice.span (16384 * pos) 16384))
          (u.setArray arr { x with tileRegs := loadTileRegs pos x.tileRegs })))

/-- Planes as threads see them (12 R283-R291): a data error comes first. PCFG reads and checks its entry, PSTEP its three
decks, PFADE its count, and the command enters the plane queue where it has room, else the thread waits. PRD and PWR reach a
synapse or a plane register at once, or take the plane-configuration trap, PRD the data-error trap where the bytes cannot be
read; PSTAT reads the status; PRWD and PGATE send to the plane's group. A plane register reads as it was written, in its
bits; PSC, PGC, LAN and CFG are read-only; an address with a bit outside its fields names nothing (R284, R285). That an
error of the plane store is trapped with the byte's offset in the slice, and that a PCFG is held whose entry comes behind an
array command's bytes, are the model's choices (notes/assumptions/98.md, 97.md). -/
def Obligations.PlaneForms : Prop :=
  (∀ (d a b : BitVec 4) (k l m : BitVec 3) (r : BitVec 1) (s : State),
     let arr := arrayOfCore s.th.core; let x := s.array arr; let V := s.getS a; let W := s.getS b
     let room (u : State) : Prop := (u.array (arrayOfCore u.th.core)).pq.length < 16 ∧ (u.array (arrayOfCore u.th.core)).frozen = false
     let entered (i : Instr) (u : State) (p : ArrayCmd → Prop) : Prop :=
       ∃ c, Past i 4 s { u.setArray (arrayOfCore u.th.core) { u.array (arrayOfCore u.th.core) with
           pq := (u.array (arrayOfCore u.th.core)).pq ++ [c] } with fresh := u.fresh + 1 }
         ∧ p c ∧ c.instr = i ∧ c.id = u.fresh ∧ c.tid = u.th.id ∧ c.core = u.th.core
     (∀ e v, s.th.dataErr = some (e, v) → ∀ i ∈ [Instr.pcfg a, .pstep k l m, .pfade a, .prwd a b r, .pgate a, .prd d a, .pwr a b, .pstat d],
       Traps i s { s with th := { s.th with dataErr := none } } 0x12 0 0 e v)
     ∧ (s.th.dataErr = none →
       (∀ ls s1 u, spanPlace .read V 208 8 3 a.toNat s = .ok (ls, s1) → checkData V ls s1 = .ok u → let w := beforeReading ls u
         readBlocked w ls = true → exec (.pcfg a) s = .next { w with
           th := { w.th with status := .holding (.other (blockingWork ls w)), uncounted := true } })
       ∧ (∀ ls s1 bs s3, spanPlace .read V 208 8 3 a.toNat s = .ok (ls, s1) → ReadsNow V ls s1 bs s3 →
         (∀ o, planeEntryFault (arrayOfCore s3.th.core) bs = some o → Traps (.pcfg a) s s3 0x17 3 a.toNat V (BitVec.ofNat 64 o))
         ∧ (planeEntryFault (arrayOfCore s3.th.core) bs = none → room s3 → entered (.pcfg a) s3 fun c => c.data = some bs ∧ c.a = V)
         ∧ (planeEntryFault (arrayOfCore s3.th.core) bs = none → ¬ room s3 → exec (.pcfg a) s
             = .next { s3 with th := { s3.th with status := .waiting (.planeQueue (arrayOfCore s3.th.core)) s3.cycle, uncounted := true } }))
       ∧ (∀ o e p, boundDeck s k 2 0 = .ok o → boundDeck s l 3 0 = .ok e → boundDeck s m 4 0 = .ok p →
           (e.size ≠ 128 → Traps (.pstep k l m) s s 9 3 l.toNat (cbAddr e.off) 0)
           ∧ (e.size = 128 → p.size ≠ 128 → Traps (.pstep k l m) s s 9 4 m.toNat (cbAddr p.off) 0)
           ∧ (e.size = 128 → p.size = 128 → o.size ≠ 256 → Traps (.pstep k l m) s s 9 2 k.toNat (cbAddr o.off) 0)
           ∧ (e.size = 128 → p.size = 128 → o.size = 256 → ¬ room s → WaitsAt (.pstep k l m) (.planeQueue arr) s)
           ∧ (e.size = 128 → p.size = 128 → o.size = 256 → room s → entered (.pstep k l m) s fun c =>
               c.decks = [(o.core, o.off), (e.core, e.off), (p.core, p.off)]))
       ∧ (V.toNat < 2 ^ 16 → (room s → entered (.pfade a) s fun c => c.left = V.toNat)
           ∧ (¬ room s → WaitsAt (.pfade a) (.planeQueue arr) s))
       ∧ (2 ^ 16 ≤ V.toNat → Traps (.pfade a) s s 0x17 3 a.toNat 0 V)
       ∧ (planeLoc x V false = none → Traps (.prd d a) s s 0x17 3 a.toNat 0 V)
       ∧ (planeLoc x V true = none → Traps (.pwr a b) s s 0x17 3 a.toNat 0 V)
       ∧ (∀ o n, planeLoc x V false = some (.synapse o n) →
           (badSlice s arr o n = none →
             Past (.prd d a) 4 s (s.pushLoad (.s d) (.data ((BitVec.ofNat 64 (leNat (x.slice.readN o n))).setWidth 1024) false)))
           ∧ ∀ e, badSlice s arr o n = some e → e.passes = false → Traps (.prd d a) s s 0x12 0 0 V (BitVec.ofNat 64 e.tv))
       ∧ (∀ q y, planeLoc x V false = some (.reg q) → planeReg x q = some y →
           Past (.prd d a) 4 s (s.pushLoad (.s d) (.data ((BitVec.ofNat 64 y).setWidth 1024) false)))
       ∧ (∀ o n, planeLoc x V true = some (.synapse o n) →
           Past (.pwr a b) 4 s (s.setArray arr { x with slice := x.slice.writeN o (leBytes n W.toNat) }))
       ∧ (∀ q, planeLoc x V true = some (.reg q) → Past (.pwr a b) 4 s (s.setArray arr (setPlaneReg q W x)))
       ∧ Past (.pstat d) 4 s (s.pushLoad (.s d) (.data ((planeStatus s arr).setWidth 1024) false))
       ∧ ∀ p ∈ [(Instr.prwd a b r, ({ r := V.setWidth 32, cut := W, gate := false, sr := decide (r = 1) } : Reward)),
           (.pgate a, { r := 0, cut := V, gate := true, sr := false })],
           ∃ u src, Past p.1 4 s u
             ∧ u.msgs = s.msgs ++ ((rewardTargets s).zipIdx.map fun q => ⟨s.fresh + q.2, s.th.id, src, none, .reward q.1 p.2⟩)
             ∧ u.fresh = s.fresh + (rewardTargets s).length ∧ u.th = s.th ∧ u.arrays = s.arrays ∧ u.dram = s.dram))
  ∧ ((∀ (x : MArray) (n : Nat) (v : Word), planeRegWritable n = true → planeReg x n ≠ none →
       planeReg (setPlaneReg n v x) n = some (if n = 1 then v.toNat else if n = 7 then v.toNat % 2 ^ 6 else if n = 8 then v.toNat % 2 ^ 17
         else if 0x40 ≤ n then v.toNat % 16 else v.toNat % 2 ^ 32))
     ∧ (∀ (x : MArray) (n m : Nat) (v : Word), m ≠ n → planeReg (setPlaneReg n v x) m = planeReg x m)
     ∧ (∀ (x : MArray) (n : Nat) (v : Word), (setPlaneReg n v x).slice = x.slice ∧ (setPlaneReg n v x).acc = x.acc
         ∧ (setPlaneReg n v x).rq = x.rq ∧ (setPlaneReg n v x).pq = x.pq)
     ∧ (∀ (x : MArray) (v : Word), ∀ n ∈ [0, 4, 5, 6], v.toNat = 2 ^ 28 + n → planeLoc x v true = none ∧ planeLoc x v false = some (.reg n))
     ∧ (∀ (x : MArray) (v : Word), 2 ^ 29 ≤ v.toNat ∨ v.toNat / 2 ^ 21 % 128 ≠ 0 → planeLoc x v false = none ∧ planeLoc x v true = none))

/-- What a plane does (12 R283-R292). The head PCFG configures it once nothing runs and no reward is queued; a ready step
that the gate lets through starts, its sweep retires it; a fade starts, and ends by counting its PFADE down; a reward that
arrives is queued, or held behind eight; the due entry of least cut, the oldest of equals, is applied: a gate raises PGL, a
reward's sweep updates the weights, ends once its statistics partial, where it has one, has reached its record (17 R338), and
raises PGL; an entry that is late counts in PLATE, which for a gate is the model's choice (notes/assumptions/121.md). Where the region's bytes cannot be read, a step ends without effect (09 R229). -/
def Obligations.PlaneEvents : Prop :=
  ∀ s : State, let arr := s.arg.a; let x := s.array arr
    let region := planeRows x.cfg * rowBytes x.cfg; let readable : Prop := badSlice s arr 0 region = none
    (∀ c bs a, x.pq.head? = some c → c.instr = .pcfg a → c.data = some bs →
      (x.frozen = false → x.rq = [] → x.running = none →
        exec .pcfgExecute s = .next (s.setArray arr { configurePlane bs x with pq := x.pq.tail }))
      ∧ (x.rq ≠ [] ∨ x.running ≠ none → exec .pcfgExecute s = .next s))
    ∧ (∀ c k l m oc o ec e pc p, headReady s arr = some c → c.instr = .pstep k l m → c.decks = [(oc, o), (ec, e), (pc, p)] →
        (x.psc.toNat + 1 ≤ x.pgl.toNat → readable → exec .stepStart s = .next (startStep arr c oc o ec e pc p s))
        ∧ (x.pgl.toNat < x.psc.toNat + 1 → exec .stepStart s = .next s)
        ∧ ∀ b, x.psc.toNat + 1 ≤ x.pgl.toNat → badSlice s arr 0 region = some b → b.passes = false → ∃ t, exec .stepStart s = .next t
          ∧ t.array arr = { x with pq := x.pq.tail })
    ∧ (∀ run, x.running = some run → run.kind = 0 → readable → ∃ t, exec .stepRetire s = .next t
        ∧ t.array arr = { sweepTraces run x with running := none, pq := x.pq.tail } ∧ t.dram = s.dram ∧ t.th = s.th)
    ∧ (∀ c a, x.running = none → headReady s arr = some c → c.instr = .pfade a → x.psc.toNat + 1 ≤ x.pgl.toNat →
        ∃ t, exec .fade s = .next t ∧ (t.array arr).psc = x.psc + 1 ∧ (t.array arr).slice = x.slice
          ∧ ∃ run, (t.array arr).running = some run ∧ run.kind = 1 ∧ run.coeff = lambdaByColumn x)
    ∧ (∀ run c rest, x.running = some run → run.kind = 1 → x.pq = c :: rest → readable → ∃ t, exec .fade s = .next t
        ∧ (t.array arr).slice = (sweepTraces run x).slice ∧ (t.array arr).running = none
        ∧ (t.array arr).pq = if c.left ≤ 1 then rest else { c with left := c.left - 1 } :: rest)
    ∧ (∀ e j r, arrived s s.arg.a = some e → e.body = .reward j r → let y := s.array j
        (y.held = [] ∧ y.rq.length < 8 → ∃ t, exec .rewardArrival s = .next t ∧ t.array j = { y with rq := y.rq ++ [r] }
          ∧ t.msgs = s.msgs.filter (fun m => m.seq ≠ e.seq))
        ∧ (y.held ≠ [] ∨ 8 ≤ y.rq.length → ∃ t, exec .rewardArrival s = .next t ∧ t.array j = { y with held := y.held ++ [r] }
          ∧ t.msgs = s.msgs.filter (fun m => m.seq ≠ e.seq)))
    ∧ (∀ r, nextReward x = some r → r.cut.toNat ≤ x.psc.toNat
        ∧ (∃ older newer, x.rq = older ++ r :: newer ∧ (∀ q ∈ older, r.cut.toNat < q.cut.toNat) ∧ ∀ q ∈ newer, r.cut.toNat ≤ q.cut.toNat)
        ∧ let late := x.psc.toNat - r.cut.toNat
          let plate := if late = 0 then x.plate.toNat
            else Min.min (x.plate.toNat % 65536 + 1) 65535 + 65536 * Min.min (Max.max (x.plate.toNat / 65536) late) 65535
          (r.gate = true → ∃ t, exec .gateApply s = .next t ∧ (t.array arr).slice = x.slice ∧ (t.array arr).psc = x.psc
            ∧ (t.array arr).pgl.toNat = Min.min (2 ^ 64 - 1) (Max.max x.pgl.toNat (r.cut.toNat + x.pgw.toNat))
            ∧ (t.array arr).plate.toNat = plate ∧ t.dram = s.dram ∧ t.th = s.th)
        ∧ (r.gate = false → ∃ t run, exec .rewardApply s = .next t ∧ (t.array arr).plate.toNat = plate ∧ (t.array arr).running = some run ∧ run.kind = 2
            ∧ run.reward = some r ∧ run.coeff = (updateFactors x r).map (fun u => BitVec.ofNat 32 u.1)
            ∧ (t.array arr).rq = x.rq.erase r ∧ (t.array arr).slice = x.slice))
    ∧ (∀ run r, x.running = some run → run.kind = 2 → run.reward = some r →
        let ends (t : State) : Prop := (t.array arr).running = none ∧ t.dram = s.dram ∧ t.th = s.th
          ∧ (t.array arr).pgl.toNat = Min.min (2 ^ 64 - 1) (Max.max x.pgl.toNat (r.cut.toNat + x.pgw.toNat))
        let pgc := if r.sr = true then x.pgc + 1 else x.pgc
        (run.sent = none → readable → x.sth.getLsbD 16 = false → ∃ t, exec .rewardApply s = .next t ∧ ends t ∧ (t.array arr).pgc = pgc)
        ∧ (run.sent = none → readable → x.sth.getLsbD 16 = true → ∃ t e, exec .rewardApply s = .next t
            ∧ (t.array arr).running = some { run with sent := some s.fresh } ∧ (t.array arr).pgc = pgc ∧ (t.array arr).pgl = x.pgl
            ∧ t.msgs = s.msgs ++ [e] ∧ e.seq = s.fresh ∧ t.dram = s.dram ∧ t.th = s.th
            ∧ ∃ p q i, e.body = .statistics p ((x.sth.extractLsb' 0 16).setWidth 64) q i)
        ∧ ∀ n, run.sent = some n → ((∃ e ∈ s.msgs, e.seq = n) → exec .rewardApply s = .next s)
            ∧ ((∀ e ∈ s.msgs, e.seq ≠ n) → ∃ t, exec .rewardApply s = .next t ∧ ends t ∧ (t.array arr).slice = x.slice
                ∧ (t.array arr).pgc = x.pgc))

/-- Commands to the near-memory engines (14 R300, R301, R310-R314). A bad completion word or tag traps, then a misaligned
block; a full queue waits; else the tag is claimed, and the command is queued with the number in program order that its release
goes by, and counted. NFENCE waits for the thread's commands, reports an error or acquires. BRED refuses a bad parameter block,
gives 0 where no slot is free, and else queues the job and gives its handle; one whose parameter block comes behind an array
command's bytes does so when that is done, which is the model's reading (notes/assumptions/97.md). BPOLL reads a job's state and flags, and 0x80 for a
handle that names none. -/
def Obligations.NearForms : Prop :=
  ∀ (d a b g : BitVec 4) (p : BitVec 2) (s : State),
    let va := s.getS a; let w := s.getS b; let stand := standOfCore s.th.core; let n := (w.extractLsb' 0 6).toNat; let c := s.myCore
    let bit : Word := BitVec.ofNat 64 (2 ^ n)
    let tagFree : Prop := w.getLsbD 8 = true → s.th.ownsTag n = true ∧ c.tagOut.getLsbD n = false ∧ c.tagErr.getLsbD n = false
    (∀ q ∈ [(Instr.nwalk a b p g, 0), (.nadd a b p g, 1), (.nupd a b p g, 2)],
      (w &&& ~~~0x1D3F ≠ 0 ∨ ¬ tagFree → Traps q.1 s s 0x0B 4 b.toNat 0 w)
      ∧ (w &&& ~~~0x1D3F = 0 → tagFree →
        (va.toNat % 64 ≠ 0 → Traps q.1 s s 2 3 a.toNat va 0)
        ∧ (va.toNat % 64 = 0 → 4352 ≤ (s.stand stand).walkq.length → WaitsAt q.1 (.walkerQueue stand) s)
        ∧ (va.toNat % 64 = 0 → (s.stand stand).walkq.length < 4352 →
          let u := if w.getLsbD 8 = true then s.setCore s.th.core { c with ctb := c.ctb &&& ~~~bit, tagOut := c.tagOut ||| bit } else s
          let v := registerIn stand u
          ∃ x : NearCmd, x.id = u.fresh ∧ x.kind = q.2 ∧ x.block = va ∧ x.completion = w ∧ x.gran = g.toNat ∧ x.pri = p.toNat
            ∧ x.core = u.th.core ∧ x.part = u.myPart ∧ x.priv = u.th.priv.toNat ∧ x.tid = u.th.id
            ∧ x.state = .queued ∧ x.bytes = [] ∧ x.pos = 0
            ∧ let r := v.setStand stand { v.stand stand with walkq := (v.stand stand).walkq ++ [x] }
              Past q.1 4 s { r with th := { r.th with nearCount := r.th.nearCount + 1 } })))
    ∧ (s.th.nearCount ≠ 0 → WaitsAt .nfence .nfence s)
    ∧ (s.th.nearCount = 0 → s.th.nearErrs = [] → Past .nfence 4 s (acquireAt s.th.core s))
    ∧ (s.th.nearCount = 0 → ∀ x y r, s.th.nearErrs = (x, y) :: r →
        Traps .nfence s { s with th := { s.th with nearErrs := r } } 0x0E 0 0 x y)
    ∧ (∀ ls s1, spanPlace .read va 192 64 3 a.toNat s = .ok (ls, s1) → ReadsLate (.bred d a p g) none (.s d) va 0 va ls s s1)
    ∧ (∀ ls s1 bs s3 u s4, spanPlace .read va 192 64 3 a.toNat s = .ok (ls, s1) → ReadsNow va ls s1 bs s3 →
        BeginsLoad none (.s d) .waiting s3 u → let j := newJob va bs g p u; flagCheck j a u = .ok s4 →
        let answers (v : State) (h : Word) : Prop := Past (.bred d a p g) 4 s (v.fillLoad v.th.id s3.fresh (.data (h.setWidth 1024) false))
        (∀ o, j.badField = some o → Traps (.bred d a p g) s s3 0x0E 0 0 va (BitVec.ofNat 64 o))
        ∧ (j.badField = none → let home := standOfCore s4.th.core; let slot := chooseSlot (savedSlots home s4) (s4.stand home).bre
          (slot = none → answers s4 0)
          ∧ ∀ k, slot = some k → ∃ (v : State) (y : BreJob) (h : Word),
              v = registerIn home s4 ∧ y.no = s3.fresh ∧ y.tid = s4.th.id
              ∧ y.seq = (((Table.find k (s4.stand home).bre).map (·.seq)).getD 0 + 1) % 2 ^ 24
              ∧ h = BitVec.ofNat 64 (y.seq * 256 + 128 + k * 4 + home) ∧ y.bytes = bs ∧ y.state = 0 ∧ y.regions = j.spans ∧ y.pos = 0
              ∧ answers (v.setStand home { v.stand home with bre := Table.put k y (v.stand home).bre }) h))
    ∧ (let t := (s.stand (va.toNat % 4)).bre; let k := va.toNat / 4 % 32
      let gives (u : State) (x : Nat) : Prop := Past (.bpoll d a) 4 s (u.pushLoad (.s d) (.data ((BitVec.ofNat 64 x).setWidth 1024) false))
      let names (y : BreJob) : Prop := va.toNat < 2 ^ 32 ∧ va.getLsbD 7 = true ∧ va.toNat / 2 ^ 8 % 2 ^ 24 = y.seq
      (Table.find k t = none → gives s 0x80)
      ∧ ∀ y, Table.find k t = some y → (¬ names y → gives s 0x80)
          ∧ (names y → y.state ≤ 3 → y.state ≠ 2 → gives s (y.flags.toNat * 4 + y.state))
          ∧ (names y → y.state = 2 → gives (acquireAt s.th.core s) (y.flags.toNat * 4 + 2)))

/-- What walkers and the reduction engine do (14 R296-R314). A queued command has its block read once all that its thread did
before is performed at .sys, then starts when it is served first, with the purge of its written regions; a running one does its
next record or entry, which fails it or not; one that is done or failed completes: it leaves the queue and its signals are
given. A job likewise starts, moves by pieces and completes with its flag and status. A wait at NFENCE that is over runs on, or
reports the error. The arithmetic of a walker (R303, R305, R307), each step rounded once to nearest even: a pooled row's
elements from those of its rows in list order, an entry of NADD, and the weight, state and clip factor of NUPD. That w − lr × g ÷ d
of KIND 2 is one rounding of the exact value is in `rneLessQuot`. -/
def Obligations.NearEvents : Prop :=
  ∀ s : State, let x := s.stand s.arg.a; let t := x.bre
    (∀ c, x.walkq.find? (fun y => y.id == s.arg.b) = some c →
      (c.state = .queued → c.bytes = [] → exec .walkerCommandStart s
        = .next (if performedBefore s c.tid c.id 5 = true then readNear c s else s))
      ∧ (c.state = .queued → c.bytes ≠ [] → (firstNear (x.walkq.filter (nearStartable s))).map (·.id) = some c.id →
          runningOver x.walkq c.pri < walkersAtOnce x → let u := purge c.part c.regions s
          exec .walkerCommandStart s
            = .next (if c.kind = 2 then readParams c u else putNear { c with state := if c.items = 0 then .moved else .running } u))
      ∧ (c.state = .running → (c.atBoundary = false ∨ (x.walkq.filter fun y => y.state == .running && decide (c.pri < y.pri)).length < walkersAtOnce x) →
          (∀ u, nearItem c s = .ok u → exec .walkerGranule s = .next u) ∧ ∀ e, nearItem c s = .error e → exec .walkerGranule s = .next (failNear c e))
      ∧ (c.state = .moved → ∃ u, exec .walkerComplete s = .next u ∧ u = completeNear c s
          ∧ (standOfCore c.core = s.arg.a → ∀ y ∈ (u.stand s.arg.a).walkq, y.id ≠ c.id)))
    ∧ (∀ j, Table.find s.arg.b t = some j → let st := s.arg.a
      let running (q : Nat × BreJob) : Bool := decide (q.2.state = 1) && !partHalted s q.2.part
      (firstJob (t.filter fun q => jobStartable s st q.2) = some s.arg.b →
          (∀ q ∈ t, running q = true → q.2.pri < j.pri ∧ q.2.atBoundary = true) →
          exec .breJobStart s = .next (putJob st s.arg.b { j with state := 1 } (purge j.part j.regions s)))
      ∧ (firstJob (t.filter running) = some s.arg.b → j.failed = none → j.pos < j.count →
          (j.atBoundary = true → ∀ q ∈ t, jobStartable s st q.2 = true → q.2.pri ≤ j.pri) →
          (∀ u, jobPiece st s.arg.b j s = .ok u → exec .breGranule s = .next u)
          ∧ ∀ e, jobPiece st s.arg.b j s = .error e → exec .breGranule s = .next (failJob st s.arg.b j e))
      ∧ (j.state = 1 → partHalted s j.part = false → (j.failed ≠ none ∨ j.count ≤ j.pos) →
          let r := jobFlag st s.arg.b j (purge j.part j.regions s)
          ∃ u y, exec .breJobComplete s = .next u ∧ Table.find s.arg.b (u.stand st).bre = some y
            ∧ y.state = (if r.1 = true ∧ j.failed = none then 2 else 3) ∧ y.flags = j.flags ∧ y.seq = j.seq ∧ u.dram = r.2.dram))
    ∧ ∀ y since, s.thread? s.arg.a = some y → y.status = .waiting .nfence since → let f := s.focus y.id; f.th = y →
        (pickedWait s y .nfenceComplete = false → exec .nfenceComplete s = .next s)
        ∧ (pickedWait s y .nfenceComplete = true →
          (y.nearErrs = [] → RunsOn .nfenceComplete s (acquireAt y.core f))
          ∧ ∀ p q r, y.nearErrs = (p, q) :: r → ∃ tr : Trap, tr.cause = 0x0E ∧ tr.a = p ∧ tr.v = q
            ∧ exec .nfenceComplete s = .next (finishIssue false (takeTrap tr
                (pickFocus y.id { f with th := { f.th with nearErrs := r } }))))
    ∧ (∀ (y : Thread) (l : Load) d a p g va b ls m bs u v, s.thread? s.arg.a = some y → loadOf y s.arg.b = some l →
        l.val = .acting (.late (.bred d a p g) va b ls) → mayPerform s y l.id ls = true → LateAt s y l m → LateReads va l.acq ls m bs u →
        let j := newJob va bs g p u; flagCheck j a u = .ok v →
        (∀ o, j.badField = some o → LateFaults s y l 0x0E 0 0 va (BitVec.ofNat 64 o))
        ∧ (j.badField = none → LateEnds s y (queueJob l.id j v)))
    ∧ (let one (e : Machine.Num × Flags) : Nat × Flags := roundedOnce .f32 .rne 0 {} e; let num := decodeNum .f32
      let also (f : Flags) (r : Nat × Flags) : Nat × Flags := (r.1, f ||| r.2)
      (∀ ws, poolElem 0 ws [] = (0, 0) ∧ poolElem 1 ws [] = (0, 0) ∧ poolElem 2 ws [] = (0xFF800000, 0) ∧ poolElem 3 ws [] = (0, 0))
      ∧ (∀ ws x, poolElem 0 ws [x] = (x, 0) ∧ poolElem 2 ws [x] = (x, 0))
      ∧ (∀ ws xs x, xs ≠ [] → let s0 := poolElem 0 ws xs; let s2 := poolElem 2 ws xs
          poolElem 0 ws (xs ++ [x]) = also s0.2 (one ((num s0.1).add false (num x)))
          ∧ poolElem 2 ws (xs ++ [x]) = also s2.2 (minMaxBits true .f32 s2.1 x)
          ∧ poolElem 1 ws xs = also s0.2 (one ((num s0.1).div (num (roundNum .f32 .rne 0 (.ofInt xs.length)).1))))
      ∧ (∀ w x, poolElem 3 [w] [x] = one ((num w).mul (num x)))
      ∧ (∀ ws xs w x, xs ≠ [] → ws.length = xs.length → let s3 := poolElem 3 ws xs; let q := (num w).mul (num x)
          let r := (num s3.1).add false q.1
          poolElem 3 (ws ++ [w]) (xs ++ [x]) = also s3.2 (one (r.1, q.2 ||| r.2)))
      ∧ (∀ (bs : List Byte) e, rowElem false bs e = (leField bs (4 * e) 4, 0)
          ∧ rowElem true bs e = one (decodeNum .bf16 (leField bs (2 * e) 2), 0))
      ∧ (∀ c i u ls old v src w, c.kind = 1 → let size := 4 * c.rowLen; let va := (c.f 64 8 + i * size) % 2 ^ 64
          entryIndex c s = .ok (i, u) → mRow c va size u = .ok ((ls, old), v) →
          nearRead c.who (some c.regions) ((c.f 80 8 + c.pos * size) % 2 ^ 64) size v = .ok (src, w) →
          ∃ out fl, nearItem c s = .ok (putNear (c.did (2 * size)) ((nearStore c.writer ls out w).orAew c.writer c.part fl))
            ∧ ∀ (k x y : Nat), (bytesToElems .f32 old)[k]? = some x → (bytesToElems .f32 src)[k]? = some y →
              (bytesToElems .f32 out)[k]? = some ((one ((num x).add false (num y))).1 % 2 ^ 32))
      ∧ (∀ (c : NearCmd) (w st g : Nat), let r := updateElem c w st g
          let lr := num (c.p 4 4); let beta := num (c.p 8 4); let less (x : Machine.Num) := (num w).add false x.negate
          (c.rule = 0 → r.1.1 = (one (less (lr.mul (num g)).1)).1 ∧ r.2 = (st, 0))
          ∧ (c.rule = 1 → r.2.1 = (one ((beta.mul (num st)).1.add false (num g))).1 ∧ r.1.1 = (one (less (lr.mul (num r.2.1)).1)).1)
          ∧ (c.rule = 2 → let k := ((Machine.Num.ofInt 1).add false beta.negate).1
              r.2.1 = (one ((beta.mul (num st)).1.add false (((k.mul (num g)).1).mul (num g)).1)).1
              ∧ let root := (one (num r.2.1).sqrt).1; let d := (one ((num root).add false (num (c.p 12 4)))).1
                r.1.1 = (rneLessQuot (num w) (lr.mul (num g)).1 (num d)).1))
      ∧ (∀ (c : NearCmd) (gs : List Nat), let r := clipFactor c gs; let clip := c.p 16 4
          let q := gs.foldl (fun a g => (one ((num a).add false ((num g).mul (num g)).1)).1) 0
          let n := if c.gclip then c.norm.toNat else (one (num q).sqrt).1
          r.1 = if (num n).isNan = false ∧ (num clip).isNan = false ∧ 0 < (num n).cmp (num clip) then (one ((num clip).div (num n))).1
            else 0x3F800000)
      ∧ (∀ c bytes, c.kind = 2 → c.held = some bytes →
          nearItem c s = .ok (putNear { c.did (4 * c.rowLen * (if c.rule = 0 then 2 else 3)) with held := none } (unlockRows c s))))

/-- Counting networks (17 R320-R330). TAKE and TAKEB send a token through the layers, or give status 01 where entry is not
open; a number that names no granted network and a count outside 1 to 4,096 take the table-operand trap. Control needs
privilege 1, and waits in the network's queue with entry closed. A balancer sends a token by its toggle, which flips; an
output counter gives it the next places of its wire, or status 10 past 2^48. A quiet network has the first control applied,
where its core's picker lets the waiting thread go on (02 R29). That an NREST is held whose block comes behind an array
command's bytes is the model's choice (notes/assumptions/97.md). -/
def Obligations.Networks : Prop :=
  (∀ (d a b : BitVec 4) (s : State),
    let v := s.getS a; let k := s.getS b; let n := v.toNat; let x := s.net n
    let named : Prop := n < 128 ∧ netGranted s s.myPart n = true
    let takes (i : Instr) (m : Nat) : Prop :=
      (x.entry ≠ 0 ∨ x.broken = true →
        Past i 4 s ((s.count 0x13).pushLoad (.s d) (.data ((BitVec.ofNat 64 (2 ^ 62)).setWidth 1024) false)))
      ∧ (x.entry = 0 → x.broken = false → Past i 4 s ((s.pushLoad (.s d) .waiting).send s.th.id
          (.token n 0 (if n < 64 then (20 * standOfCore s.th.core + s.th.core / 16 % 32) % 32 else s.pkg % 64) m s.th.id s.fresh)))
    let joins (i : Instr) (u : State) (what : Nat) (op : Word) (bytes : List Byte) (sp : List (Loc × Nat)) : Prop :=
      ∃ t, exec i s = .next t ∧ t.th.status = .holding (.net what n op bytes sp) ∧ (t.net n).pending = (u.net n).pending ++ [u.th.id]
        ∧ (t.net n).entry = (if (u.net n).pending = [] then 1 else (u.net n).entry) ∧ (t.net n).toggles = (u.net n).toggles
        ∧ (t.net n).counters = (u.net n).counters ∧ t.th.pc = u.th.pc ∧ t.dram = u.dram ∧ t.l2 = u.l2
    (¬ named → ∀ i ∈ [Instr.take d a, .takeb d a b], Traps i s s 0x19 3 a.toNat 0 v)
    ∧ (named → takes (.take d a) 1 ∧ (1 ≤ k.toNat → k.toNat ≤ 4096 → takes (.takeb d a b) k.toNat)
        ∧ (k = 0 ∨ 4096 < k.toNat → Traps (.takeb d a b) s s 0x19 4 b.toNat 0 k))
    ∧ (s.th.priv = 0 → ∀ i ∈ [Instr.nsave a b, .nrest a b, .nreset a b], Traps i s s 1 5 (s.fieldOf 5) 0 1)
    ∧ (s.th.priv ≠ 0 →
      (¬ named → ∀ i ∈ [Instr.nsave a b, .nrest a b, .nreset a b], Traps i s s 0x19 3 a.toNat 0 v)
      ∧ (named →
        (∀ sp s1, spanOf .write k 768 64 4 b.toNat s = .ok (sp, s1) → joins (.nsave a b) s1 0 (s1.getS b) [] sp)
        ∧ (∀ ls s1 u, spanPlace .read k 768 64 4 b.toNat s = .ok (ls, s1) → checkData k ls s1 = .ok u → let m := beforeReading ls u
            readBlocked m ls = true → exec (.nrest a b) s = .next { m with
              th := { m.th with status := .holding (.other (blockingWork ls m)), uncounted := true } })
        ∧ (∀ ls s1 bs s3, spanPlace .read k 768 64 4 b.toNat s = .ok (ls, s1) → ReadsNow k ls s1 bs s3 →
            (∀ o, netBlockFault n bs = some o → Traps (.nrest a b) s s3 0x19 0 0 k (BitVec.ofNat 64 o))
            ∧ (netBlockFault n bs = none → joins (.nrest a b) s3 1 k bs []))
        ∧ (k.toNat < 2 ^ 56 → joins (.nreset a b) s 2 k [] [])
        ∧ (2 ^ 56 ≤ k.toNat → Traps (.nreset a b) s s 0x19 4 b.toNat 0 k))))
  ∧ (∀ (s : State) e n layer wire m tid l, arrived s s.arg.a = some e → e.body = .token n layer wire m tid l → let x := s.net n
      (∀ lay, (netLayers (netLog n))[layer]? = some lay → let b := balancerAt lay wire; let i := netWidth n / 2 * layer + b.2.2
        ∃ t, exec .balancerToken s = .next t ∧ (t.net n).toggles = x.toggles ^^^ 2 ^ i ∧ (t.net n).counters = x.counters
          ∧ t.msgs = s.msgs.filter (fun f => f.seq ≠ e.seq)
              ++ [{ e with body := .token n (layer + 1) (if x.toggles / 2 ^ i % 2 = 1 then b.2.1 else b.1) m tid l }])
      ∧ ((netLayers (netLog n)).length ≤ layer → let c := (Table.find wire x.counters).getD 0; let u := dropMsg e.seq s
          let answer (u : State) (y : Nat) : Prop := exec .outputCounter s = .next (u.fillLoad tid l (.data ((BitVec.ofNat 64 y).setWidth 1024) false))
          (2 ^ 48 < c + m → answer u (2 ^ 63))
          ∧ (c + m ≤ 2 ^ 48 → answer (u.setNet n { x with counters := Table.put wire (c + m) x.counters })
              ((x.base.toNat + wire + netWidth n * c) % 2 ^ 62))))
  ∧ ∀ (s : State) tid rest y what op bytes sp, let n := s.arg.a
      (s.net n).pending = tid :: rest → s.thread? tid = some y → y.status = .holding (.net what n op bytes sp) →
      let f := s.focus tid; let ls := spanLocs sp; f.th = y →
      (netQuiet s n = false ∨ readBlocked (beforeReading ls f) ls = true ∨ pickedEvent s y.core .networkQuiet n = false →
        exec .networkQuiet s = .next s)
      ∧ (y.id = tid → netQuiet s n = true → readBlocked (beforeReading ls f) ls = false →
        pickedEvent s y.core .networkQuiet n = true → ∃ u, RunsOn .networkQuiet s (u.setNet n { u.net n with pending := rest, entry := if rest = [] then (u.net n).entry else 1 })
          ∧ (what = 0 → let v := settleRaised (beforeReading ls f).th true false ls (beforeReading ls f)
              u = (coreStore v.myPart v.th.core { stand := standOfCore v.th.core, tid := v.th.id } (ls.zip (netBytes n (s.net n)))
                { v.th.entry 0 with addr := op } v).setNet n { s.net n with entry := 2 })
          ∧ (what = 1 → u = f.setNet n (netOf n bytes (s.net n)))
          ∧ (what = 2 → u = f.setNet n { s.net n with toggles := 0, counters := [], base := op.setWidth 56, entry := 0 }))

/-- Statistics records (17 R331-R338). A handle that names no record of the partition takes the table-operand trap with
field a, and bytes of a record that cannot be read the data-error trap. STATA and STATC clear the record, one generation on, at
once or, behind what must come first, from the thread's queue: neither holds the thread. STATL latches its exponent in the
record and in the scale register, acquires at its scope, and traps on another generation than the one awaited; STATR reads a
word of it; a partial that arrives merges, and one for no record is logged. That a record's data error is trapped with the
record's physical address, and that a STATL or STATR whose record comes behind what must come first reads it when that is done,
are the model's choices (notes/assumptions/101.md, 97.md). -/
def Obligations.Statistics : Prop :=
  let latched (ef : Int) (h : BitVec 2) (r q : List Byte) (t : VWord) (report : Bool) : Prop :=
    let k := (latchExponent ef (leField r 8 4) h.toNat % 256).toNat
    report = decide (leField r 3 1 / 2 % 2 = 1) ∧ t = BitVec.ofNat 1024 (leField r 4 4 * 2 ^ 24 + leField r 0 2 * 256 + k)
      ∧ q = patchBytes (patchBytes r 3 (leBytes 1 (if report = true then leField r 3 1 - 2 else leField r 3 1))) 63 (leBytes 1 k)
  let latches (c : BitVec 3) (part : Part) (i : Nat) (q : List Byte) (report : Bool) (u : State) : State :=
    let x := recordWrite part i q u
    acquireL1 c.toNat u.th.core (if report = true then x.count 0x14 else x)
  (∀ (d a b : BitVec 4) (n c : BitVec 3) (h : BitVec 2) (s : State) p, s.part? s.myPart = some p →
    let v := s.getS a; let w := s.getS b; let i := v.toNat; let base := p.grant.recB + 64 * i
    let addr : Word := BitVec.ofNat 64 base; let ls := (List.range 64).map fun j => Loc.pa (base + j) 0
    let stataOk : Prop := w.toNat < 2 ^ 16 ∧ w.toNat / 16 % 16 = 0 ∧ w.toNat % 16 ≤ 8
    (¬ (i < 65536 ∧ recordOk p i = true) → ∀ x ∈ [Instr.stata a b, .statc a, .statl n a b h c, .statr d a b], Traps x s s 0x19 3 a.toNat 0 v)
    ∧ (i < 65536 → recordOk p i = true →
      (¬ stataOk → Traps (.stata a b) s s 0x19 4 b.toNat 0 w) ∧ (8 ≤ w.toNat → Traps (.statr d a b) s s 0x19 4 b.toNat 0 w)
      ∧ (∀ e, checkData addr ls s = .error e → (∀ x ∈ [Instr.statc a, .statl n a b h c], exec x s = .next (takeTrap e s))
          ∧ (stataOk → exec (.stata a b) s = .next (takeTrap e s)) ∧ (w.toNat < 8 → exec (.statr d a b) s = .next (takeTrap e s)))
      ∧ (∀ s1, checkData addr ls s = .ok s1 →
        let u := settleRaised s1.th true false ls s1; let r := recordRead p i u
        let clears (x : Instr) (set : Option (Nat × Nat)) (fmt e0 : Nat) : Prop :=
          (mayPerform s1 s1.th s1.fresh ls = true → badRead u ls = none → ∃ bs : List Byte, Past x 4 s (recordWrite p i bs u)
            ∧ bs.length = 64 ∧ leField bs 0 2 = i ∧ leField bs 2 1 = fmt ∧ leField bs 3 1 = 0
            ∧ leField bs 4 4 = (leField r 4 4 + 1) % 2 ^ 32 ∧ leField bs 8 8 = 0 ∧ leField bs 16 1 = e0 ∧ leField bs 17 46 = 0
            ∧ leField bs 63 1 = 0x80)
          ∧ (mayPerform s1 s1.th s1.fresh ls = false → Past x 4 s { s1 with fresh := s1.fresh + 1, th := { s1.th with
              sq := s1.th.sq ++ [.record s1.fresh base i set (s1.th.entry 0)] } })
        (stataOk → clears (.stata a b) (some (w.toNat % 16, w.toNat / 256)) (w.toNat % 16) (w.toNat / 256))
        ∧ clears (.statc a) none (leField r 2 1) (leField r 16 1))
      ∧ ReadsLate (.statl n a b h c) (some c.toNat) (.sc n) v w addr ls s s
      ∧ (w.toNat < 8 → ReadsLate (.statr d a b) none (.s d) v w addr ls s s)
      ∧ (∀ s1, checkData addr ls s = .ok s1 → let m := beforeReading ls s1; readBlocked m ls = false →
        (∀ r u y, readAs m.th false ls m = (r, u) → BeginsLoad none (.s d) .waiting u y → w.toNat < 8 → Past (.statr d a b) 4 s
          (y.fillLoad y.th.id u.fresh (.data ((BitVec.ofNat 64 (leField r (8 * w.toNat) 8)).setWidth 1024) false)))
        ∧ ∀ r u y, readAs m.th (wideAcquire (some c.toNat)) ls m = (r, u) → BeginsLoad none (.sc n) .waiting u y →
          let gen := leField r 4 4; let want := w.toNat % 2 ^ 32
          (b ≠ 0 → gen ≠ want → Traps (.statl n a b h c) s u 0x18 4 b.toNat 0 (BitVec.ofNat 64 (want * 2 ^ 32 + gen)))
          ∧ (b = 0 ∨ gen = want →
            (scaleExponent (leField r 2 1) = none → Traps (.statl n a b h c) s u 0x19 3 a.toNat 0 v)
            ∧ ∀ ef part, scaleExponent (leField r 2 1) = some ef → y.part? y.myPart = some part → ∃ q t report, latched ef h r q t report
              ∧ Past (.statl n a b h c) 4 s ((latches c part i q report y).fillLoad y.th.id u.fresh (.data t report))))))
  ∧ (∀ (s : State) (x : Thread) (l : Load) (v w : Word) ls m r u base mt rest, s.thread? s.arg.a = some x → loadOf x s.arg.b = some l →
      mayPerform s x l.id ls = true → ls = .pa base mt :: rest → LateAt s x l m → LateReads (BitVec.ofNat 64 base) l.acq ls m r u →
      (∀ d a b, l.val = .acting (.late (.statr d a b) v w ls) →
        LateEnds s x (u.fillLoad u.th.id l.id (.data (BitVec.ofNat 1024 (leField r (8 * w.toNat) 8)) false)))
      ∧ ∀ n a b h c, l.val = .acting (.late (.statl n a b h c) v w ls) →
        (b ≠ 0 → leField r 4 4 ≠ w.toNat % 2 ^ 32 →
          LateFaults s x l 0x18 4 b.toNat 0 (BitVec.ofNat 64 (w.toNat % 2 ^ 32 * 2 ^ 32 + leField r 4 4)))
        ∧ ∀ ef part, b = 0 ∨ leField r 4 4 = w.toNat % 2 ^ 32 → scaleExponent (leField r 2 1) = some ef →
          u.part? u.myPart = some part → ∃ q t report, latched ef h r q t report
            ∧ LateEnds s x ((latches c part (v.toNat % 65536) q report u).fillLoad u.th.id l.id (.data t report)))
  ∧ ∀ (s : State) e part i x sender p, arrived s s.arg.a = some e → e.body = .statistics part i x sender → let u := dropMsg e.seq s
      u.part? part = some p →
      (recordOk p i.toNat = true → exec .statisticsPartial s = .next (recordWrite p i.toNat (mergePartial x (recordRead p i.toNat u)) u))
      ∧ (recordOk p i.toNat = false → exec .statisticsPartial s
          = .next (u.logSender part { sender with cause := 0x1F, value := BitVec.ofNat 64 i.toNat }))

/-- The event crossbar and the access-control table (17 R339-R350). EVCFG and ACTW refuse a bad block with its offset; EVCFG
replaces the crossbar's image, with its seen bits and credits 0, and ACTW an entry but its reserved count. EVPULSE sends one
pulse, a release at .pkg; EVRD reads the item that its operand names. A pulse moves the crossbar by one cycle: a counter
steps by one, and at its end reloads with its zero event. That an EVCFG or ACTW is held whose block comes behind an array
command's bytes is the model's choice (notes/assumptions/97.md). -/
def Obligations.EventCrossbar : Prop :=
  (∀ (d a b : BitVec 4) (n : BitVec 3) (s : State), let va := s.getS a; let wa := s.getS b
    (∀ p ∈ [(Instr.evcfg a, va, 640, 64, 3, a.toNat), (.actw a b, wa, 16, 16, 4, b.toNat)],
      p.1 = .evcfg a ∨ (s.th.priv ≠ 0 ∧ va.toNat < 256) →
      ∀ ls s1 u, spanPlace .read p.2.1 p.2.2.1 p.2.2.2.1 p.2.2.2.2.1 p.2.2.2.2.2 s = .ok (ls, s1) → checkData p.2.1 ls s1 = .ok u →
        let m := beforeReading ls u
        readBlocked m ls = true → exec p.1 s = .next { m with
          th := { m.th with status := .holding (.other (blockingWork ls m)), uncounted := true } })
    ∧ (∀ ls s1 bs s3, spanPlace .read va 640 64 3 a.toNat s = .ok (ls, s1) → ReadsNow va ls s1 bs s3 →
      let g := groveOfCore s3.th.core
      (∀ o, imageFault g bs = some o → Traps (.evcfg a) s s3 0x19 0 0 va (BitVec.ofNat 64 o))
      ∧ (imageFault g bs = none → Past (.evcfg a) 4 s (s3.setGrove g { s3.grove g with evx :=
          { image := bs, value := Vector.ofFn fun j => BitVec.ofNat 16 (leField bs (16 + 8 * j.val) 8 / 2 ^ 24)
            seen := .replicate 16 0, credit := .replicate 32 0, outs := (s3.grove g).evx.outs } })))
    ∧ Past (.evpulse n) 4 s (s.sendRelease 3 (.pulse (groveOfCore s.th.core) (48 + n.toNat)))
    ∧ (let v := va.toNat; let x := (s.grove (groveOfCore s.th.core)).evx
       let reads (y : Nat) : Prop := Past (.evrd d a) 4 s (s.pushLoad (.s d) (.data ((BitVec.ofNat 64 y).setWidth 1024) false))
       (v < 0x10 → reads ((x.value.toList.getD v 0).toNat + 65536 * (leField x.image (16 + 8 * v) 8 % 65536)))
       ∧ (0x10 ≤ v → v < 0x20 → reads (x.seen.toList.getD (v - 0x10) 0).toNat)
       ∧ (0x20 ≤ v → v < 0x40 → reads (x.credit.toList.getD (v - 0x20) 0).toNat)
       ∧ (0x40 ≤ v → v < 0x50 → reads (groupEntry s s.myPart (v - 0x40)))
       ∧ (0x50 ≤ v → Traps (.evrd d a) s s 0x19 3 a.toNat 0 va))
    ∧ (s.th.priv = 0 → Traps (.actw a b) s s 1 5 (s.fieldOf 5) 0 1)
    ∧ (s.th.priv ≠ 0 → 256 ≤ va.toNat → Traps (.actw a b) s s 0x19 3 a.toNat 0 va)
    ∧ (s.th.priv ≠ 0 → va.toNat < 256 → ∀ ls s1 bs s3, spanPlace .read wa 16 16 4 b.toNat s = .ok (ls, s1) →
        ReadsNow wa ls s1 bs s3 →
        (∀ o, actFault (leNat bs) = some o → Traps (.actw a b) s s3 0x19 0 0 wa (BitVec.ofNat 64 o))
        ∧ (actFault (leNat bs) = none → ∀ p, s3.part? s3.myPart = some p → ∃ e : BitVec 128,
            Past (.actw a b) 4 s (s3.setPart s3.myPart { p with act := Table.put va.toNat e p.act })
            ∧ e.extractLsb' 0 48 = BitVec.ofNat 48 (leNat bs) ∧ e.extractLsb' 61 67 = BitVec.ofNat 67 (leNat bs / 2 ^ 61)
            ∧ e.extractLsb' 48 13 = ((Table.find va.toNat p.act).getD 0).extractLsb' 48 13)))
  ∧ (∀ (s : State) e g l, let x := (s.grove s.arg.a).evx
      s.arg.list = [e.seq] → s.msgs.filter (fun f => f.seq == e.seq) = [e] → mayArrive s e = true → g = s.arg.a → e.body = .pulse g l → x.outs = [] →
      let u : State := { s with msgs := s.msgs.filter fun f => f.seq ≠ e.seq }
      (x.image = [] → exec .evxPulse s = .next u)
      ∧ (x.image ≠ [] → exec .evxPulse s = .next (releaseArmed g (u.setGrove g { u.grove g with evx := evxCycle [l] x }))))
  ∧ ∀ (f : Nat) (v : BitVec 16), let load := BitVec.ofNat 16 f
      (f / 2 ^ 22 % 2 = 0 → 1 < v.toNat → pulseCounter f v = (v - 1, false)) ∧ (f / 2 ^ 22 % 2 = 0 → v.toNat ≤ 1 → pulseCounter f v = (load, true))
      ∧ (f / 2 ^ 22 % 2 = 1 → v.toNat < 65535 → pulseCounter f v = (v + 1, false))
      ∧ (f / 2 ^ 22 % 2 = 1 → v.toNat = 65535 → pulseCounter f v = (load, true))

/-- Halting and contexts (18 R366-R370, 20 R379). Below privilege 2 the four instructions are illegal; a refused operand takes
the context fault with its reason. HALTP and the mailbox's HALT leave the partition halted, RESUMEP and RESUME bring it back;
CTXSV stores the block of a bound thread or of an array, which is then out of use, and CTXLD brings one back: the thread that
CTXSV saved on this core where the block describes one. The model's choices: the halt is whole in one step
(notes/assumptions/75.md); a thread of the halting partition has moved past its HALTP first, which the test on its partition is
for (76); a block that describes no saved thread makes one (79); behind an array command, CTXSV and CTXLD hold (97). -/
def Obligations.HaltAndContext : Prop :=
  (∀ (d a : BitVec 4) (u : BitVec 1) (s : State), let v := s.getS a; let n := v.toNat; let block := s.getS d
    (s.th.priv ≠ 2 → ∀ i ∈ [Instr.haltp a, .resumep a, .ctxsv d a u, .ctxld d a u], Traps i s s 1 1 0x3E 0 1)
    ∧ (s.th.priv = 2 →
      (16 ≤ n → Traps (.haltp a) s s 0x1B 3 a.toNat 0 4) ∧ (8 ≤ n → Traps (.resumep a) s s 0x1B 3 a.toNat 0 4)
      ∧ (n < 16 → (∀ r, haltRefusal (n % 8) s = some r → Traps (.haltp a) s s 0x1B 3 a.toNat 0 (BitVec.ofNat 64 r))
        ∧ (haltRefusal (n % 8) s = none → ∃ m t, MovesPast 4 s m ∧ exec (.haltp a) s = .next t
          ∧ t = haltPartition (n % 8) (v.getLsbD 3) (if s.myPart = n % 8 then accountNow m else m)
          ∧ ∀ q, t.part? (n % 8) = some q → q.halt = .halted))
      ∧ (n < 8 → (∀ r, resumeRefusal n s = some r → Traps (.resumep a) s s 0x1B 3 a.toNat 0 (BitVec.ofNat 64 r))
        ∧ (resumeRefusal n s = none → ∃ m, MovesPast 4 s m ∧ exec (.resumep a) s = .next (acquireAt s.th.core (resumePartition n m))))
      ∧ ∀ ls s1, spanPlace .write block (if u = 1 then arrayBlockBytes else 4096) 64 2 d.toNat s = .ok (ls, s1) →
        let fails (r : Word) : Prop := Traps (.ctxsv d a u) s s 0x1B 3 a.toNat block r
        (contextPlace (s1.getS a) (decide (u = 1)) s1 = none → fails 4)
        ∧ ∀ k, contextPlace (s1.getS a) (decide (u = 1)) s1 = some k → let r := performAt 5 s1.th.id s1
          (readBlocked r ls = true → exec (.ctxsv d a u) s = .next { r with
            th := { r.th with status := .holding (.other (blockingWork ls r)), uncounted := true } })
          ∧ (readBlocked r ls = false →
          (u = 1 → ∃ m, MovesPast 4 r m ∧ let w := finishArray m (arrayAtLoc k)
            exec (.ctxsv d a u) s = .next (storeBlock ls (arrayBytes w (arrayAtLoc k)) (w.onArray (arrayAtLoc k) fun x => { x with frozen := true })))
          ∧ (u = 0 → (threadAt k r = none → fails 5)
            ∧ ∀ t, threadAt k r = some t → ((∃ x ∈ t.streams.toList, x.opened = true) → fails 5)
              ∧ ((∀ x ∈ t.streams.toList, x.opened = false) → ∃ m, MovesPast 4 r m ∧ exec (.ctxsv d a u) s = .next (saveThread t ls m)))))
    ∧ (s.th.priv = 2 → ∀ ls s1, spanPlace .read block (if u = 1 then arrayBlockBytes else 4096) 64 2 d.toNat s = .ok (ls, s1) →
        let fails (f x : Nat) (r : Word) : Prop := Traps (.ctxld d a u) s s 0x1B f x block r
        (contextPlace (s1.getS a) (decide (u = 1)) s1 = none → fails 3 a.toNat 4)
        ∧ ∀ k, contextPlace (s1.getS a) (decide (u = 1)) s1 = some k →
          (u = 0 → (threadAt k s1).isSome = true → fails 3 a.toNat 5)
          ∧ ((u = 1 ∨ threadAt k s1 = none) →
            (∀ e, checkData block ls s1 = .error e → exec (.ctxld d a u) s = .next (takeTrap e s))
            ∧ ∀ s2, checkData block ls s1 = .ok s2 → let v := beforeReading ls s2
              (readBlocked v ls = true → exec (.ctxld d a u) s = .next { v with
                th := { v.th with status := .holding (.other (blockingWork ls v)), uncounted := true } })
              ∧ (readBlocked v ls = false →
              let q := readAs v.th true ls (acquireAt v.th.core v); let bs := q.1; let s3 := q.2; let free (core : Nat) := emptySlot core (BitVec.ofNat 2 k) s3
              let bound (t : Thread) : Thread := { t with status := .running, slot := BitVec.ofNat 2 k, uncounted := false }
              (u = 1 → (arrayBlockOk bs = false → fails 2 d.toNat 6)
                ∧ (arrayBlockOk bs = true → ∃ m, MovesPast 4 s3 m ∧ exec (.ctxld d a u) s = .next (loadArray (arrayAtLoc k) bs m)))
              ∧ (u = 0 → leField bs 0 1 % 2 = 0 → fails 2 d.toNat 6)
              ∧ (u = 0 → leField bs 0 1 % 2 = 1 →
                (∀ t, s3.all.find? (fun t => describedBy bs t && decide (t.core = k / 4)) = some t → ∃ m, MovesPast 4 (free t.core) m
                  ∧ exec (.ctxld d a u) s = .next (m.onThread t.id fun t => bound (loadContext bs t)))
                ∧ ((∀ t ∈ s3.all, describedBy bs t = true → t.core ≠ k / 4) → (∃ t ∈ s3.all, describedBy bs t = true) → fails 3 a.toNat 5)
                ∧ ((∀ t ∈ s3.all, describedBy bs t = false) → ∃ m, MovesPast 4 (free (k / 4)) m
                    ∧ exec (.ctxld d a u) s = .next { m with threads := bound (blockThread bs k m) :: m.threads, fresh := m.fresh + 1 }))))))
  ∧ ∀ s : State,
      (s.booted ≠ 5 → exec .halt s = .next s ∧ exec .resume s = .next s)
      ∧ (s.booted = 5 →
        (∀ r, haltRefusal s.arg.a s = some r → exec .halt s = .next (respond 3 1 [] s))
        ∧ (haltRefusal s.arg.a s = none → ∃ t, exec .halt s = .next t ∧ t = respond 3 0 [] (haltPartition s.arg.a (decide (s.arg.b = 1)) s)
          ∧ ∀ q, t.part? s.arg.a = some q → q.halt = .halted)
        ∧ (∀ r, resumeRefusal s.arg.a s = some r → exec .resume s = .next (respond 4 1 [] s))
        ∧ (resumeRefusal s.arg.a s = none → ∃ t, exec .resume s = .next t ∧ t = respond 4 0 [] (resumePartition s.arg.a s)
          ∧ ∀ q, t.part? s.arg.a = some q → q.halt = .running))

/-- The steps of memory (04 R93, 09 R220-R230, 11 R243-R264). A load is read, whole or by pieces, where its order lets it be; its
data are written to its register, an error traps the loading instruction once its thread has a slot; a queued store is performed
at its home, or short of it at its core or grove, whole or by pieces, and an atomic at its home, where nothing earlier must come
before; an update is applied when the stand's clock allows; a write of L2WP is taken unless refused, and the change of WAYS
completes; a line written back is clean; a core of a FENCEH's target drains once all before its marks is performed, and with the
last the hold ends. An integer atomic stores what R261 says. A result that acts late is the model's own
(notes/assumptions/97.md), and so is that an error of a thread that a fault is ending is dropped (45). -/
def Obligations.MemoryEvents : Prop :=
  (∀ (s : State) x, s.thread? s.arg.a = some x →
    (∀ l, loadOf x s.arg.b = some l → let drop (t : Thread) : Thread := { t with loads := t.loads.filter fun y => y.id ≠ l.id }
      (∀ v f, l.val = .data v f → s.arg.c = 0 → exec .loadReturn s = .next (s.onThread x.id fun t => l.dest.write v f (drop (spinValue l v t))))
      ∧ (∀ tr, l.val.trap? = some tr → s.arg.c = 0 →
          (x.dying ≠ none → exec .loadReturn s = .next (s.onThread x.id drop))
          ∧ (x.dying = none → x.bound = false → exec .loadReturn s = .next s)
          ∧ (x.dying = none → x.bound = true → ∃ w t : State, w = (s.onThread x.id drop).focus x.id
            ∧ t = takeTrap tr { w with th := { w.th with
                status := .running, pc := l.pc, modLatch := none, ir := { w.th.ir with word := l.word, hasMod := false }
                ydl := if w.myCore.wdog.getLsbD 0 = true ∧ w.th.reloaded ≤ l.id then w.th.ydl + 1 else w.th.ydl } }
            ∧ exec .loadReturn s = .next { t with th := { t.th with uncounted := false } }))
      ∧ (∀ p i, l.val = .error p i → ∃ tr : Trap, l.val.trap? = some tr ∧ tr.cause = 0x12 ∧ tr.fidx = 0 ∧ tr.a = p ∧ tr.v = BitVec.ofNat 64 i)
      ∧ (∀ form todo got, l.val = .reading form todo got →
          (s.arg.c = 0 → mayPerform s x l.id l.places = false → exec .loadReturn s = .next s)
          ∧ (s.arg.c = 0 → mayPerform s x l.id l.places = true → let u := readLoad x.id l.id s
              ∀ y m, u.thread? x.id = some y → loadOf y l.id = some m → exec .loadReturn s = .next (returnLoad x m u))
          ∧ ∀ (k : Nat) p, s.arg.c = k + 1 → todo[k]? = some p →
              exec .loadReturn s = .next (if mayPerform s x l.id p.locs = true then readPart x.id l.id p s else s))
      ∧ (∀ a, l.val = .acting a → exec .loadReturn s = .next (if a.ready s x l = true then act x l a s else s)))
    ∧ (∀ e, x.sq[s.arg.b]? = some e →
      (s.arg.c = 0 → entryReady s x s.arg.b = true → exec .storeAtHome s = .next (performEntry 3 x s.arg.b e s))
      ∧ (s.arg.c = 0 → entryReady s x s.arg.b = false → exec .storeAtHome s = .next s)
      ∧ ∀ q, e = .store q →
        (∀ lvl ∈ [1, 2], s.arg.c = lvl →
          exec .storeAtHome s = .next (if raiseReady s x lvl q = true then raiseStore x s.arg.b lvl q s else s))
        ∧ ∀ j, s.arg.c = j + 3 → exec .storeAtHome s = .next (if pieceReady s x q j = true then storePiece x s.arg.b j q s else s))
    ∧ (∀ op, x.atq[s.arg.b]? = some op → exec .atomicAtHome s = .next
        (if atomReady s x op = true then performAtom x op (s.onThread x.id fun t => { t with atq := t.atq.eraseIdx s.arg.b }) else s))
    ∧ (∀ cs, x.status = .holding (.fenceh cs) → s.arg.b ∈ cs → let u := drainMarked s.arg.b s; let rest := cs.filter (· ≠ s.arg.b)
        (markedDone s.arg.b u = false → exec .fencehTargetDrain s = .next s)
        ∧ (markedDone s.arg.b u = true → exec .fencehTargetDrain s
          = .next ((dropMarks s.arg.b u).onThread x.id fun t => { t with status := .holding (.fenceh rest) })))
    ∧ (x.status = .holding (.fenceh []) →
        (pickedWait s x .fencehTargetDrain = false → exec .fencehTargetDrain s = .next s)
        ∧ (pickedWait s x .fencehTargetDrain = true → RunsOn .fencehTargetDrain s (acquireL1 3 x.core (s.focus x.id)))))
  ∧ (∀ (s : State) e, s.msgs.find? (fun e => e.seq = s.arg.a) = some e → let u : State := { s with msgs := s.msgs.filter fun x => x.seq ≠ e.seq }
      ∀ st h t b, e.body = .update st h t b → (updateReady s st h t = false → exec .replicaUpdateApply s = .next s)
        ∧ (updateReady s st h t = true → ∃ v, exec .replicaUpdateApply s = .next v ∧ v = applyUpdate st h t b u
            ∧ v.dram = s.dram ∧ v.l2 = s.l2 ∧ v.th = s.th))
  ∧ (∀ s : State,
      (let x := s.grove s.arg.a; let v : Word := BitVec.ofNat 64 s.arg.b; let ways := v.extractLsb' 0 2; let base := v.extractLsb' 23 34
       (x.busy = true ∨ ways = 3 ∨ (ways ≠ 0 ∧ base = 0) → exec .l2wpWrite s = .next s)
       ∧ (x.busy = false → ways ≠ 3 → (ways = 0 ∨ base ≠ 0) → exec .l2wpWrite s
           = .next (s.setGrove s.arg.a { x with spbase := base, ways := ways, oldWays := x.ways, busy := decide (ways ≠ x.ways) })))
      ∧ (∃ t, exec .waysChangeComplete s = .next t ∧ let x := s.grove s.arg.a; let y := t.grove s.arg.a
        (x.busy = false → t = s)
        ∧ (x.busy = true → y.busy = false ∧ y.ways = x.ways ∧ y.spbase = x.spbase ∧ t.th = s.th
          ∧ y.scratch = (let old := scratchSize x.oldWays; let new := scratchSize x.ways
              Memory.clear x.scratch (Min.min old new) (Max.max old new - Min.min old new))))
      ∧ ∃ t, exec .l2WriteBack s = .next t ∧ t = { s with dram := t.dram, l2 := t.l2, wt := t.wt, mixed := t.mixed, free := t.free } ∧ (∀ p ∈ t.mixed, lineOf p ≠ s.arg.a) ∧ (∀ p ∈ t.l2, lineOf p.1 ≠ s.arg.a)
          ∧ (∀ p ∈ t.wt, lineOf p.1 ≠ s.arg.a) ∧ (∀ p ∈ s.l2, lineOf p.1 ≠ s.arg.a → p ∈ t.l2) ∧ ∀ p ∈ s.wt, lineOf p.1 ≠ s.arg.a → p ∈ t.wt)
  ∧ ∀ (n : Nat) (x y : BitVec n), 0 < n → let r (op : Nat) := BitVec.ofNat n (atomInt op n x.toNat y.toNat)
      r 0 = x + y ∧ r 1 = x &&& y ∧ r 2 = x ||| y ∧ r 3 = x ^^^ y ∧ (r 4).toInt = Min.min x.toInt y.toInt ∧ (r 5).toInt = Max.max x.toInt y.toInt
        ∧ (r 6).toNat = Min.min x.toNat y.toNat ∧ (r 7).toNat = Max.max x.toNat y.toNat ∧ r 8 = y

/-- The steps that bring tasks and threads to slots and take them away (02 R18-R51, 18 R359). A decrement at a valid near
counter lowers its count, and the one that ends it releases the task; a ready message queues its entry; the ring refills; a
spawn that waits obtains a far entry; the binder starts a task as R18 says, or brings a thread back; an entry that is due
rises by one level; a wait that has lasted the bound parks, and a parked thread whose condition, write or bound has come is
queued again; a thread at its yield deadline is logged and ends. The bytes of a spill-ring entry are free values
(notes/assumptions/35.md). -/
def Obligations.ScheduleEvents : Prop :=
  (∀ (s : State) e, arrived s s.arg.a = some e → let u := dropMsg e.seq s
    (∀ part h n sender, e.body = .decr part h n sender → exec .decrementMessage s = .next (decrement part h n sender u)
      ∧ ∀ p, u.part? part = some p → let w := h.toNat; let core := w / 2 % 2048; let i := w / 2 ^ 12 % 256; let k := u.core core
          let bs := k.ls.readN (16 * i) 16; let count := leField bs 8 4
          w % 2 = 0 → w < 2 ^ 36 → p.hasCore core = true → leField bs 14 1 = 1 → leField bs 12 2 = w / 2 ^ 20 % 65536 →
          (n < count → exec .decrementMessage s = .next (u.setCore core { k with ls := k.ls.writeN (16 * i + 8) (leBytes 4 (count - n)) }))
          ∧ (n = count → ∀ t, Table.find i k.tasks = some t → exec .decrementMessage s
              = .next (enqueue core (taskEntry t (.near core i) u.cycle)
                  (u.setCore core { k with ls := (k.ls.writeN (16 * i + 8) (leBytes 4 0)).writeN (16 * i + 14) [2] }))))
    ∧ ∀ core x, e.body = .ready core x → exec .readyMessage s = .next (enqueue core x u)
        ∧ ((u.core core).inbound = [] → (u.core core).runq.length < 64 →
            enqueue core x u = u.setCore core { u.core core with runq := (u.core core).runq ++ [x] }))
  ∧ (∀ s : State, let a := s.arg.a; let c := s.core a
      (exec .spillRefill s = .next (refill a 8400 s) ∧ (c.spill = [] → c.inbound = [] → refill a 8400 s = s)
        ∧ ∀ e, c.spill = [e] → c.inbound = [] → c.runq.length < 48 →
            refill a 8400 s = s.setCore a { c with runq := c.runq ++ [e], spill := [], spillHead := (c.spillHead + 1) % 4096 })
      ∧ (∀ p w r, s.part? a = some p → p.waits = w :: r →
          (placeFar w.task w.depc s = none → exec .farEntryObtained s = .next s)
          ∧ ∀ h u, placeFar w.task w.depc s = some (h, u) → exec .farEntryObtained s
              = .next (deliverHandle a w.reply h (u.onPart a fun p => { p with waits := p.waits.drop 1 })))
      ∧ (coreRuns s a = true → ∀ slot e, freeSlot s a = some slot → chooseEntry c c.runq = some e →
          let q := acquireAt a (emptySlot a slot s)
          let k : Core := { q.core a with runq := (q.core a).runq.erase e }
          (∀ t ctr, e.what = .task t ctr → let r := allotTags t.ctags k; let u := freeCounter ctr t.part t.home (q.setCore a r.1)
            (∀ x ∈ u.all, x.id ≠ u.fresh) → ∃ y, exec .taskBind s = .next y ∧ y.dram = u.dram ∧ y.msgs = u.msgs
              ∧ y.th.status = .running ∧ y.th.task = t ∧ y.th.core = a ∧ y.th.slot = slot ∧ y.th.ctgb = r.2 ∧ y.th.pc = t.entry
              ∧ (∀ j : BitVec 4, y.th.getS j = if j = 1 then t.argp else 0) ∧ y.th.v = .replicate 16 0
              ∧ y.th.fc = List.replicate t.frame 0 ∧ y.th.decks = .replicate 8 none ∧ y.th.lcid = t.lcid ∧ y.th.priv = 0 ∧ y.th.inh = false
              ∧ y.th.jseed = r.1.jseedm ∧ y.th.ydl = (if t.ydf = 0 then 65536 else BitVec.ofNat 32 (1024 * t.ydf)))
          ∧ ∀ tid x, e.what = .resume tid → q.thread? tid = some x → ∃ y z, exec .taskBind s = .next y ∧ y.thread? tid = some z
              ∧ z.status = .running ∧ z.core = a ∧ z.slot = slot ∧ z.pc = x.pc ∧ z.s = x.s ∧ y.dram = q.dram)
      ∧ (coreRuns s a = false → exec .taskBind s = .next s)
      ∧ ∃ t, exec .priorityRaise s = .next t ∧ let up (x : RunEntry) : RunEntry := { x with pri := x.pri + 1, raised := x.raised + 65536 }
          (∀ (i : Nat) (x : RunEntry), c.runq[i]? = some x →
            (t.core a).runq[i]? = some (if i = s.arg.b ∧ x.pri < 3 ∧ x.raised + 65536 ≤ s.cycle then up x else x))
          ∧ (∀ (i : Nat) (x : RunEntry), c.spill[i]? = some x →
            (t.core a).spill[i]? = some (if c.runq.length + i = s.arg.b ∧ x.pri < 3 ∧ x.raised + 65536 ≤ s.cycle then up x else x))
          ∧ (t.core a).runq.length = c.runq.length ∧ (t.core a).inbound = c.inbound ∧ t.dram = s.dram ∧ t.th = s.th)
  ∧ ∀ (s : State) x, s.thread? s.arg.a = some x →
      (∀ w since, x.status = .waiting w since → since + 256 * (s.core x.core).dwb.toNat ≤ s.cycle →
        exec .dwbPark s = .next (parkWaiting w (s.focus x.id)))
      ∧ (∀ w p, x.status = .parked w p → waitOver s x w = true → exec .parkedThreadWake s = .next (requeue x.id s))
      ∧ (∀ l since p, x.status = .spinning l since p true → exec .spinParkWake s = .next (requeue x.id s))
      ∧ (∀ l since p b, x.status = .spinning l since p b → since + spinBound s x ≤ s.cycle → exec .spinParkTimeout s = .next (requeue x.id s))
      ∧ (∀ c, s.core x.core = c → c.inbound = [] → c.runq.length < 64 → ∃ y, (requeue x.id s).thread? x.id = some y ∧ y.status = .queued x.place
          ∧ ((requeue x.id s).core x.core).runq = c.runq ++ [resumeEntry y s.cycle])
      ∧ (x.status = .running → x.modLatch = none → (s.core x.core).wdog.getLsbD 0 = true → x.ydl = 0 → let f := s.focus x.id
          ∃ t w, exec .yieldDeadline s = .next { t with th := { t.th with uncounted := false } }
            ∧ t = dieFocus 0x0F (f.logFault f.th.core f.myPart { f.th.entry 0x0F with value := BitVec.ofNat 64 f.th.task.ydf, word := w }))

/-- The machine room (20 R373-R387). The monitor serves a mailbox command only after boot, and answers a refused one; a
snapshot resumes its partition, and a restore brings it back running. The host reads and writes the aperture of a partition
through its tables; boot runs its steps in order, once; the control loops keep their limits; a failed peer is fenced and
named; a repeated flit changes nothing; a domain of packages with numbers below 640 forms with its networks at reset and its
placement table. The model's choices, no rules of the manual: the 4 and 8 bytes in the answer to a refused LOAD_IMAGE
(notes/assumptions/69.md), host accesses outside the aperture (83), margin entries of 20 bytes (84), that boot shows a stop at
step 5 as 6 (85), the peer's number as VALUE of its entry (86), how RESTORE finds and moves a snapshot (87), that reading empties
the monitor's log (88), the opaque digests and the signature of 4,627 bytes (90), that launches which have ended give back what
they were allotted (105), the bytes of the host's slots (106), the VALUE logged for a host write (109), that a save area lies in
its partition's ranges (125), and a copy that meets a data error (126). -/
def Obligations.MachineRoom : Prop :=
  (∀ s : State, s.booted ≠ 5 → ∀ i ∈ [Instr.createPartition, .loadImage, .release, .attest, .snapshot, .restore, .readMonitorLog, .readMarginHistory],
      exec i s = .next s)
  ∧ (∀ s : State, s.booted = 5 → let refuses (i : Instr) (code result : Nat) : Prop := exec i s = .next (respond code result [] s); let a := s.arg.a
      ((∀ g, s.arg.grant = some g → grantOk g s = false) → refuses .createPartition 1 1)
      ∧ (∀ g, s.arg.grant = some g → grantOk g s = true → ∃ t, exec .createPartition s = .next t ∧ t.response = { code := 1, result := 0, bytes := [] }
          ∧ t = respond 1 0 [] (createPartition g s))
      ∧ (∀ r p, s.arg.load = some r → s.part? r.part = some p →
          (p.halt ≠ .running → refuses .loadImage 2 3)
          ∧ (p.halt = .running → let d := Config.sha3 r.pof
            (Config.verifies d r.signature p.grant.ownerKey = false → refuses .loadImage 2 2)
            ∧ (Config.verifies d r.signature p.grant.ownerKey = true → let u := measureImage d s; let q := freeLaunches u p
              (∀ i o, checkImage u q r.pof = .error (i, o) → exec .loadImage s = .next (respond 2 1 (leBytes 4 i ++ leBytes 8 o) u))
              ∧ ∀ xs ds, checkImage u q r.pof = .ok (xs, ds) → exec .loadImage s
                  = .next (respond 2 0 [] (launchImage q r.seed xs ds (u.onPart r.part fun q => { q with imageDigest := d }))))))
      ∧ (∀ p, s.part? a = some p → (partQuiet p s = false → refuses .release 5 1)
          ∧ (partQuiet p s = true → exec .release s = .next (respond 5 0 [] (releasePartition p s)))
          ∧ (s.arg.bytes.length ≠ 64 → refuses .attest 6 1)
          ∧ (s.arg.bytes.length = 64 → let r := attestReport p s.arg.bytes s
              exec .attest s = .next (respond 6 0 (r ++ padTo 4627 (Config.attestSign (digestBytes (Config.sha3 r)))) s)))
      ∧ (s.part? a = none → refuses .release 5 1 ∧ refuses .attest 6 1 ∧ refuses .snapshot 7 1)
      ∧ (∀ r, haltRefusal a s = some r → refuses .snapshot 7 1)
      ∧ (∀ p, haltRefusal a s = none → s.part? a = some p → let b := s.arg.b
          (s.ownPa b = true ∨ s.paOk b = false ∨ s.failed.contains (paPkg b) = true → refuses .snapshot 7 1)
          ∧ (s.ownPa b = false → s.paOk b = true → s.failed.contains (paPkg b) = false → ∃ t, exec .snapshot s = .next t
              ∧ (let u := copyRanges ((rangeOffsets 0 p.grant.ranges).map fun r => (r.2.1, r.2.2, b + r.1)) (haltPartition a true s)
                 let kept := u.2.snaps.filter fun x => x.base ≠ b
                 (u.1 = true → ∀ q, u.2.part? a = some q → t = respond 7 0 [] (resumePartition a { u.2 with snaps := ⟨b, q⟩ :: kept }))
                 ∧ (u.1 = false → t = respond 7 1 [] (resumePartition a { u.2 with snaps := kept })))
              ∧ ∀ q, t.part? a = some q → q.halt = .running))
      ∧ (s.arg.grant = none → refuses .restore 8 1)
      ∧ (∀ g, s.arg.grant = some g → s.snaps.find? (fun x => x.base = s.arg.b) = none → refuses .restore 8 1)
      ∧ (∀ g x, s.arg.grant = some g → s.snaps.find? (fun x => x.base = s.arg.b) = some x → let h := x.held.grant
          ((grantOk g s && sameGrant s.pkg g h) = false → refuses .restore 8 1)
          ∧ (grantOk g s = true → sameGrant s.pkg g h = true →
            let u := copyRanges ((rangeOffsets 0 g.ranges).map fun r => (x.base + r.1, r.2.2, r.2.1)) (createPartition g s)
            let v := (moveTables (paPkg h.ptroot) s.pkg 4 g.ptroot u.2).onPart g.part fun _ =>
              { x.held with grant := g, image := { x.held.image with grant := some g } }
            (u.1 = false → exec .restore s = .next (respond 8 1 [] { s with
                bad := u.2.bad, transients := u.2.transients, corrected := u.2.corrected
                monlog := u.2.monlog, monSeq := u.2.monSeq, monDropped := u.2.monDropped }))
            ∧ (u.1 = true → ∀ r, resumeRefusal g.part v = some r → refuses .restore 8 1)
            ∧ (u.1 = true → resumeRefusal g.part v = none → ∃ t, exec .restore s = .next t ∧ t = respond 8 0 [] (resumePartition g.part v)
                ∧ ∀ q, t.part? g.part = some q → q.halt = .running)))
      ∧ exec .readMonitorLog s = .next (respond 9 0 (leBytes 4 s.monDropped ++ s.monlog.flatMap fun e => e.1.toBytes e.2) { s with monlog := [] })
      ∧ exec .readMarginHistory s = .next (respond 10 0 (s.margins.flatMap MarginEntry.toBytes) s))
  ∧ (∀ s : State, let n := s.arg.c
      (apertureAddr s s.arg.a s.arg.b n = none → ∃ bs, exec .hostMemoryRead s = .next { s.draw with response := { bytes := bs } } ∧ bs.length = n)
      ∧ (∀ va sp u, apertureAddr s s.arg.a s.arg.b n = some va → resolveSpan (hostWho s.arg.a) .read (n / 2048 + 2) va n s = .ok (sp, u) →
          (∀ v, settleBad (u.bad.length + 1) (spanLocs sp) u = .ok v → let r := readDram (spanLocs sp) v
            exec .hostMemoryRead s = .next { r.2 with response := { bytes := r.1 } })
          ∧ ∀ va b v, settleBad (u.bad.length + 1) (spanLocs sp) u = .error (va, b, v) →
            ∃ bs, exec .hostMemoryRead s = .next { (retire b v).draw with response := { bytes := bs } } ∧ bs.length = n)
      ∧ (∀ va e, apertureAddr s s.arg.a s.arg.b n = some va → resolveSpan (hostWho s.arg.a) .read (n / 2048 + 2) va n s = .error e →
          ∃ bs, exec .hostMemoryRead s = .next { s.draw with response := { bytes := bs } } ∧ bs.length = n)
      ∧ let bs := s.arg.bytes
        (apertureAddr s s.arg.a s.arg.b bs.length = none → exec .hostMemoryWrite s = .next s)
        ∧ (∀ va sp u, apertureAddr s s.arg.a s.arg.b bs.length = some va →
            resolveSpan (hostWho s.arg.a) .write (bs.length / 2048 + 2) va bs.length s = .ok (sp, u) →
            exec .hostMemoryWrite s = .next (hostStore s.arg.a va (spanLocs sp) bs u))
        ∧ ∀ va f p, apertureAddr s s.arg.a s.arg.b bs.length = some va →
            resolveSpan (hostWho s.arg.a) .write (bs.length / 2048 + 2) va bs.length s = .error (f, p) → exec .hostMemoryWrite s
              = .next (s.logAsync s.arg.a { cause := 4, unit := unitCode 6 0 0 0, issuer := 0xFFFFFFFF, addr := BitVec.ofNat 64 p,
                                              value := BitVec.ofNat 64 (if f.cause = 4 then f.tv else 0) }))
  ∧ (∀ (s : State) b, s.arg.boot = some b → s.booted = 0 → let d := Config.sha3 b.firmware; let m := Config.sha3 b.monitor
      let fw := Config.verifies d b.fwSignature Config.fusedKey = true; let fresh := Config.fusedRollback ≤ b.version
      let mon := Config.verifies m b.monSignature Config.fusedKey = true
      ∃ t, exec .boot s = .next t ∧ t.booted = (if b.readable = false then 1 else if ¬ fw then 2 else if ¬ fresh then 3
          else if b.trained = false ∨ ¬ mon then 4 else if b.starts = false then 6 else 5)
        ∧ (t.booted = 5 → t.measure = Config.sha3 (digestBytes (Config.sha3 (digestBytes s.measure ++ digestBytes d)) ++ digestBytes m)
            ∧ (∀ p ∈ t.dram, s.ownPa p.1 = false) ∧ (∀ p ∈ t.l2, s.ownPa p.1 = false)
            ∧ ∀ n < 16, ∃ u, Table.find n t.supers = some u ∧ u.running = true))
  ∧ (∀ (s : State) b, s.arg.boot = some b → s.booted ≠ 0 → exec .boot s = .next s)
  ∧ (∀ s : State, exec .flitResend s = .next s
      ∧ (∃ t, exec .vfStep s = .next t ∧ (t.grove s.arg.a).clock = (if s.arg.b = 1 then Min.min 32 ((s.grove s.arg.a).clock + 1)
          else Max.max 16 ((s.grove s.arg.a).clock - 1)) ∧ (t.grove s.arg.a).margin = (s.grove s.arg.a).replanned ∧ t.th = s.th ∧ t.dram = s.dram)
      ∧ (∃ t, exec .refreshAdjust s = .next t ∧ (85 < s.arg.b → (t.stand s.arg.a).hot = true) ∧ (s.arg.b < 80 → (t.stand s.arg.a).hot = false)
          ∧ t.th = s.th ∧ t.dram = s.dram)
      ∧ exec .linkEqualisation s = .next (if s.arg.a < 256 then { s with taps := Table.put s.arg.a s.arg.b s.taps } else s)
      ∧ (s.arg.b < 64 → 1 ≤ s.arg.c → s.arg.c ≤ 4 → exec .walkerPlacement s
          = .next (s.setStand s.arg.a { s.stand s.arg.a with walkers := Table.put s.arg.b s.arg.c (s.stand s.arg.a).walkers }))
      ∧ (∀ m, s.arg.margin = some m → isCore (16 * (32 * m.stand + m.grove)) = true → ∃ t, exec .marginMeasure s = .next t
          ∧ t.margins.getLast? = some m ∧ t.margins.length ≤ 256 ∧ (s.margins.length < 256 → t.margins = s.margins ++ [m])
          ∧ (t.grove (32 * m.stand + m.grove)).replanned = m.version ∧ t = { s with margins := t.margins, groves := t.groves })
      ∧ ((∃ n ∈ s.arg.a :: s.arg.list, 640 ≤ n) ∨ (s.arg.a ≠ s.pkg ∧ s.parts ≠ []) → exec .domainFormation s = .next s)
      ∧ ((s.arg.a = s.pkg ∨ s.parts = []) → (∀ n ∈ s.arg.a :: s.arg.list, n < 640) → ∃ t, exec .domainFormation s = .next t ∧ t.pkg = s.arg.a
          ∧ t.domain = s.arg.list ∧ t.failed = [] ∧ t.placement = s.arg.nets
          ∧ (∀ n, 64 ≤ n → n < 80 → t.net n = {}) ∧ (∀ n, n < 64 → t.net n = s.net n) ∧ t.dram = s.dram ∧ t.th = s.th)
      ∧ (s.arg.a ≠ s.pkg → s.domain.contains s.arg.a = true → s.failed.contains s.arg.a = false →
          ∃ t, exec .peerFailure s = .next t ∧ t.failed = s.arg.a :: s.failed ∧ (∀ n, 64 ≤ n → n < 80 → (t.net n).broken = true)
            ∧ t.dram = s.dram ∧ (s.monlog.length < 4095 → ∃ e n, (e, n) ∈ t.monlog ∧ e.value = BitVec.ofNat 64 s.arg.a)))

/-- Words that stand for an instruction, and words that stand for none (04 R75, R77, R82-R91, R95, R97): bytes in memory
order, bit by bit from the tables of the spec. A reserved opcode, an undefined selector, a nonzero field that must be 0 and
the zero parcel are illegal, each with its field. -/
def Obligations.DecodeWords : Prop :=
  decode [0x11, 0x4C, 0x08, 0x00] = .ok ⟨.add 3 1 2, 4, 0, false⟩
  ∧ decode [0x2F, 0x4C, 0xFC, 0xFF] = .ok ⟨.addi 3 1 (-1), 4, 3, true⟩
  ∧ decode [0xD1, 0x84, 0xF8, 0xFF] = .ok ⟨.beq 1 2 (-2), 4, 0, false⟩
  ∧ decode [0xF1, 0x07, 0x04, 0x00] = .ok ⟨.mod 1 0 0 0 16 0, 4, 0, false⟩
  ∧ decode [0xF3, 0x03, 0x00, 0x00] = .illegal 9 1
  ∧ decode [0x01, 0x00, 0x00, 0x00] = .illegal 1 0
  ∧ decode [0x11, 0x4C, 0x08, 0xFF] = .illegal 5 0xFC
  ∧ decode [0x00, 0x00] = .illegal 0 0
  ∧ decode [0x11, 0x4C, 0x08] = .short

/-- Decoding and encoding agree (04 R75, R77, R82, R85): every encoded instruction, with every operand at every value and, where
the format has them, every GAP and SW, has bytes in memory order that decode to it, whatever bytes follow. The modifier word
carries neither GAP nor SW, a 16-bit instruction no GAP. -/
def Obligations.DecodeEncode : Prop :=
  ∀ (i : Instr) (wide : Bool) (row : Nat) (vs : List Nat) (gap : Nat) (sw : Bool) (rest : List Byte), i.toRow = some (wide, row, vs) →
    gap < 4 → (wide = false → gap = 0) → (∀ u r q p x t, i = .mod u r q p x t → gap = 0 ∧ sw = false) →
    let d : Decoded := ⟨i, if wide = true then 4 else 2, gap, sw⟩
    ∃ bs, encode d = some bs ∧ bs.length = d.len ∧ decode (bs ++ rest) = .ok d

/-- A step does what moves next (notes/assumptions/2.md). Where a thread issues that nothing ends and that follows no leader,
the word at its pc is fetched, but for one that was fetched with its modifier word (04 R86), and where it decodes to a well-formed instruction, the step is exec of it in the state with the
instruction's word, length, GAP and SW in its register, and then the accounting of the issue. Where another agent moves, the
step is exec of its event; where nothing moves, a cycle passes. -/
def Obligations.StepRunsDecoded : Prop :=
  (∀ (s t f u : State) (tid len w : Nat) (d : Decoded), nextMove s = (.issue tid, t) → f = pickFocus tid t → f.th.dying = none →
    (f.th.attached = false ∨ f.th.fwd = []) → wordAhead f = .ok (len, w, u) → decodeWord (decide (len = 4)) w = .ok d →
    d.instr.wellFormed = true →
    let r : State := { u with th := { u.th with ir := { word := BitVec.ofNat 32 w, modw := u.th.modLatch.getD 0
                                                        hasMod := u.th.modLatch.isSome, len := d.len, gap := d.gap, sw := d.sw
                                                        priv := u.th.priv } } }
    ∀ v, exec d.instr r = .next v → step s = .next (afterIssue d.instr r v))
  ∧ (∀ (s t : State) i arg, nextMove s = (.event i arg, t) → step s = exec i { t with arg := arg })
  ∧ (∀ s t : State, nextMove s = (.idle, t) → step s = .next { t with cycle := t.cycle + 1 })
  ∧ ∀ s : State, (s.th.modLatch = none → wordAhead s = fetchWord s.th.pc s)
      ∧ (s.th.modLatch ≠ none → wordAhead s = .ok (4, s.th.second.toNat, s))

/-- No instruction and no step stops the machine: whatever the state and the operands, there is a next state. -/
def Obligations.NeverStops : Prop := (∀ (i : Instr) (s : State), ∃ t, exec i s = .next t) ∧ ∀ s : State, ∃ t, step s = .next t

/-- Every step keeps DRAM in its canonical form: addresses strictly rising, and no entry that equals what an unlisted byte
reads as (notes/assumptions/1.md). -/
def Obligations.StepKeepsDram : Prop := ∀ s t : State, dramSound s = true → step s = .next t → dramSound t = true
end

