-- ==== Sys2Proof/Laws/Ops.lean ====
section
/-!
SUPPORT. What the shared operations can do, said once for each.
-/
namespace Sys2Proof.Machine

open Sys2Proof

/-- The loop-back test changes the pc and the loop counts only. -/
theorem loopBack_frame (a next : Word) (t : Thread) :
    loopBack a next t = { t with pc := (loopBack a next t).pc, lc := (loopBack a next t).lc } := by
  unfold loopBack
  dsimp only
  split <;> split <;> (try split) <;> (try split) <;> rfl

/-- Away from the end of an armed loop the loop-back test goes to the next instruction. -/
theorem loopBack_plain (a next : Word) (t : Thread) (h0 : ¬ (a = t.le[0] ∧ t.lc[0] ≠ 0)) (h1 : ¬ (a = t.le[1] ∧ t.lc[1] ≠ 0)) :
    loopBack a next t = { t with pc := next } := by
  simp only [loopBack, Bool.and_eq_true, decide_eq_true_eq]
  rw [if_neg h1, if_neg h0]

/-- What moving past an instruction does. -/
theorem movesPast_advance (len : Nat) (s : State) : MovesPast len s (advance len s) := by
  constructor
  · simp only [advance, State.onTh]
    rw [loopBack_frame]
  · intro h
    simp only [State.atLoopEnd, not_or] at h
    simp only [advance, State.onTh]
    rw [loopBack_plain _ _ _ h.1 h.2]
    exact ⟨rfl, rfl⟩

end Sys2Proof.Machine
end

