-- ==== Sys2Proof/Laws/Lanes.lean ====
section
/-!
SUPPORT. Elements packed into a vector register, read back one by one.
-/
namespace Sys2Proof.Machine

open Sys2Proof

/-- Packed elements take no more bits than they need. -/
theorem packElems_lt (w : Nat) : ∀ xs : List Nat, packElems w xs < 2 ^ (w * xs.length)
  | [] => by simp [packElems]
  | x :: xs => by
    have h := packElems_lt w xs
    have h1 : x % 2 ^ w < 2 ^ w := Nat.mod_lt _ (Nat.two_pow_pos w)
    simp only [packElems, List.length_cons, Nat.mul_succ]
    rw [Nat.add_comm (w * xs.length) w, Nat.pow_add]
    have h2 : 2 ^ w * packElems w xs + 2 ^ w ≤ 2 ^ w * 2 ^ (w * xs.length) := by
      rw [← Nat.mul_succ]; exact Nat.mul_le_mul_left _ h
    omega

/-- Element j of packed elements is the j-th one. -/
theorem packElems_elem (w : Nat) : ∀ (xs : List Nat) (j : Nat), packElems w xs / 2 ^ (w * j) % 2 ^ w = xs.getD j 0 % 2 ^ w
  | [], j => by simp [packElems]
  | x :: xs, 0 => by simp [packElems]
  | x :: xs, j + 1 => by
    have h := packElems_elem w xs j
    have h1 : x % 2 ^ w < 2 ^ w := Nat.mod_lt _ (Nat.two_pow_pos w)
    simp only [packElems, Nat.mul_succ, List.getD_cons_succ]
    rw [Nat.add_comm (w * j) w, Nat.pow_add, ← Nat.div_div_eq_div_mul, Nat.add_mul_div_left _ _ (Nat.two_pow_pos w),
      Nat.div_eq_of_lt h1, Nat.zero_add, h]

/-- Packed elements fit into a register that is wide enough. -/
theorem toNat_pack (w n : Nat) (xs : List Nat) (hw : w * xs.length ≤ n) : (BitVec.ofNat n (packElems w xs)).toNat = packElems w xs := by
  rw [BitVec.toNat_ofNat, Nat.mod_eq_of_lt]
  exact Nat.lt_of_lt_of_le (packElems_lt w xs) (Nat.pow_le_pow_right Nat.two_pos hw)

/-- An element of a register that holds packed elements. -/
theorem velem_pack (w : Nat) (xs : List Nat) (j : Nat) (hw : w * xs.length ≤ 1024) :
    VElem w (BitVec.ofNat 1024 (packElems w xs)) j = xs.getD j 0 % 2 ^ w := by
  rw [VElem, toNat_pack _ _ _ hw, Nat.shiftRight_eq_div_pow, packElems_elem]

/-- Entry j of a list made for the 32 lanes. -/
theorem getD_lanes {α : Type} (f : Nat → α) (j : Nat) (x : α) (h : j < 32) : ((List.range 32).map f).getD j x = f j := by
  simp [List.getD, h]

/-- A bit of flags joined over a list. -/
theorem getLsbD_foldl_or {n : Nat} {α : Type} (g : α → BitVec n) (b : Nat) : ∀ (l : List α) (x : BitVec n),
    (l.foldl (fun f r => f ||| g r) x).getLsbD b = (x.getLsbD b || l.any fun r => (g r).getLsbD b)
  | [], x => by simp
  | r :: l, x => by simp [getLsbD_foldl_or g b l, Bool.or_assoc]

/-- What `packLanes` gives: the values of the enabled elements, and their flags together. -/
theorem packLanes_spec (w : Nat) (k : KWord) (f : Nat → Nat × Flags) (hw : 32 * w ≤ 1024) :
    (∀ j < 32, k.getLsbD j = true → VElem w (packLanes w k f).1 j = (f j).1 % 2 ^ w)
      ∧ ∀ b, (packLanes w k f).2.getLsbD b = true ↔ ∃ j < 32, k.getLsbD j = true ∧ (f j).2.getLsbD b = true := by
  constructor
  · intro j hj hk
    show VElem w (BitVec.ofNat 1024 (packElems w (((List.range 32).map _).map _))) j = _
    rw [List.map_map, velem_pack _ _ _ (by simp; omega), getD_lanes _ _ _ hj]
    simp [hk]
  · intro b
    have e : (packLanes w k f).2
        = ((List.range 32).map fun i => if k.getLsbD i then f i else (0, 0)).foldl (fun fl r => fl ||| r.2) 0 := rfl
    rw [e, getLsbD_foldl_or (fun r : Nat × Flags => r.2)]
    simp only [BitVec.ofNat_eq_ofNat, BitVec.getLsbD_zero, Bool.false_or, List.any_eq_true, List.mem_map, List.mem_range]
    constructor
    · rintro ⟨_, ⟨j, hj, rfl⟩, h⟩
      by_cases hk : k.getLsbD j = true
      · exact ⟨j, hj, hk, by simpa [hk] using h⟩
      · simp [hk] at h
    · rintro ⟨j, hj, hk, h⟩
      exact ⟨_, ⟨j, hj, rfl⟩, by simpa [hk] using h⟩

/-- What the mask of the enabled elements covers. -/
theorem elemMask_spec (w : Nat) (k : KWord) (hw : 32 * w ≤ 1024) :
    (∀ j < 32, k.getLsbD j = true → VElem w (elemMask w k) j = 2 ^ w - 1)
      ∧ (∀ j < 32, k.getLsbD j = false → VElem w (elemMask w k) j = 0)
      ∧ ∀ b, 32 * w ≤ b → (elemMask w k).getLsbD b = false := by
  have h1 : (2 ^ w - 1) % 2 ^ w = 2 ^ w - 1 := Nat.mod_eq_of_lt (by have := Nat.two_pow_pos w; omega)
  refine ⟨fun j hj hk => ?_, fun j hj hk => ?_, fun b hb => ?_⟩
  · rw [elemMask, velem_pack _ _ _ (by simp; omega), getD_lanes _ _ _ hj]
    simp [hk, h1]
  · rw [elemMask, velem_pack _ _ _ (by simp; omega), getD_lanes _ _ _ hj]
    simp [hk]
  · have h := packElems_lt w ((List.range 32).map fun i => if k.getLsbD i then 2 ^ w - 1 else 0)
    simp only [List.length_map, List.length_range] at h
    rw [elemMask, BitVec.getLsbD_ofNat, Nat.testBit_lt_two_pow, Bool.and_false]
    exact Nat.lt_of_lt_of_le h (Nat.pow_le_pow_right Nat.two_pos (by omega))

/-- A scalar result and its flags on their way. -/
theorem raise_pushW (lat : Nat) (w : RegWrite) (f : Flags) (s : State) :
    (s.pushW lat w).raise lat f = s.withPending (⟨lat, w⟩ :: flagsOn lat f) := by
  simp only [State.raise, flagsOn]
  split <;> simp [State.pushW, State.withPending]

end Sys2Proof.Machine
end

