-- ==== Sys2Proof/Laws/Memory.lean ====
section
/-!
SUPPORT. Memories: every operation keeps the canonical form, a read after a write gives the byte written, and a write leaves
every other byte.
-/
namespace Sys2Proof.Machine

open Sys2Proof

/-! ### The canonical form -/

/-- A memory above a bound is one above a lower bound. -/
theorem Memory.wfFrom_mono {lo hi : Nat} (h : lo ≤ hi) : ∀ m : Memory, Memory.wfFrom hi m = true → Memory.wfFrom lo m = true
  | [], _ => rfl
  | (i, b) :: t, hm => by
    simp only [Memory.wfFrom, Bool.and_eq_true, decide_eq_true_eq] at hm ⊢
    exact ⟨⟨by omega, hm.1.2⟩, hm.2⟩

/-- A byte written at or above the bound keeps the form. -/
theorem Memory.wfFrom_write (a : Nat) (b : Byte) : ∀ (lo : Nat) (m : Memory), lo ≤ a → Memory.wfFrom lo m = true →
    Memory.wfFrom lo (Memory.write m a b) = true
  | lo, [], h, _ => by
    simp only [Memory.write]
    split
    · rfl
    · simp only [Memory.wfFrom, Bool.and_eq_true, decide_eq_true_eq]; exact ⟨⟨h, ‹_›⟩, trivial⟩
  | lo, (i, x) :: t, h, hm => by
    simp only [Memory.wfFrom, Bool.and_eq_true, decide_eq_true_eq] at hm
    obtain ⟨⟨h1, h2⟩, h3⟩ := hm
    simp only [Memory.write]
    split
    · simp only [Memory.wfFrom, Bool.and_eq_true, decide_eq_true_eq]
      exact ⟨⟨h1, h2⟩, Memory.wfFrom_write a b _ t (by omega) h3⟩
    · split
      · subst a
        split
        · exact Memory.wfFrom_mono (by omega) t h3
        · simp only [Memory.wfFrom, Bool.and_eq_true, decide_eq_true_eq]; exact ⟨⟨h1, ‹_›⟩, h3⟩
      · split
        · simp only [Memory.wfFrom, Bool.and_eq_true, decide_eq_true_eq]; exact ⟨⟨h1, h2⟩, h3⟩
        · simp only [Memory.wfFrom, Bool.and_eq_true, decide_eq_true_eq]; exact ⟨⟨h, ‹_›⟩, ⟨by omega, h2⟩, h3⟩

/-- Writing a byte keeps the form. -/
theorem Memory.wf_write (m : Memory) (a : Nat) (b : Byte) (h : m.wf = true) : (m.write a b).wf = true :=
  Memory.wfFrom_write a b 0 m (Nat.zero_le a) h

/-- Writing bytes from an address on keeps the form. -/
theorem Memory.wf_writeN : ∀ (bs : List Byte) (m : Memory) (a : Nat), m.wf = true → (m.writeN a bs).wf = true
  | [], _, _, h => h
  | b :: bs, m, a, h => Memory.wf_writeN bs (m.write a b) (a + 1) (Memory.wf_write m a b h)

/-- Writing bytes at their addresses keeps the form. -/
theorem Memory.wf_foldl_write {α : Type} (f : α → Nat) (g : α → Byte) : ∀ (l : List α) (m : Memory), m.wf = true →
    (l.foldl (fun m p => Memory.write m (f p) (g p)) m).wf = true
  | [], _, h => h
  | p :: l, m, h => Memory.wf_foldl_write f g l _ (Memory.wf_write m (f p) (g p) h)

/-- Leaving out entries keeps the form. -/
theorem Memory.wfFrom_filter (p : Nat × Byte → Bool) : ∀ (lo : Nat) (m : Memory), Memory.wfFrom lo m = true →
    Memory.wfFrom lo (m.filter p) = true
  | _, [], _ => rfl
  | lo, (i, b) :: t, h => by
    simp only [Memory.wfFrom, Bool.and_eq_true, decide_eq_true_eq] at h
    have ih := Memory.wfFrom_filter p (i + 1) t h.2
    rw [List.filter_cons]
    split
    · simp only [Memory.wfFrom, Bool.and_eq_true, decide_eq_true_eq]; exact ⟨h.1, ih⟩
    · exact Memory.wfFrom_mono (by omega) _ ih

/-- Leaving out entries keeps the form. -/
theorem Memory.wf_filter (p : Nat × Byte → Bool) (m : Memory) (h : m.wf = true) : Memory.wf (m.filter p) = true :=
  Memory.wfFrom_filter p 0 m h

/-- Clearing a range keeps the form. -/
theorem Memory.wf_clear (m : Memory) (a n : Nat) (h : m.wf = true) : (m.clear a n).wf = true := Memory.wf_filter _ m h

/-- The memory of nonzero bytes from an address on has the form. -/
theorem Memory.wfFrom_zip : ∀ (bs : List Byte) (lo a : Nat), lo ≤ a →
    Memory.wfFrom lo (((List.range' a bs.length).zip bs).filter fun p => decide (p.2 ≠ 0)) = true
  | [], _, _, _ => rfl
  | b :: bs, lo, a, h => by
    simp only [List.length_cons, List.range'_succ, List.zip_cons_cons]
    rw [List.filter_cons]
    split
    · rename_i hb
      simp only [Memory.wfFrom, Bool.and_eq_true, decide_eq_true_eq]
      exact ⟨⟨h, by simpa using hb⟩, Memory.wfFrom_zip bs (a + 1) (a + 1) (Nat.le_refl _)⟩
    · exact Memory.wfFrom_zip bs lo (a + 1) (by omega)

/-- The memory of given bytes has the form. -/
theorem Memory.wf_ofBytes (bs : List Byte) : (Memory.ofBytes bs).wf = true := by
  have h := Memory.wfFrom_zip bs 0 0 (Nat.le_refl 0)
  rw [← List.range_eq_range'] at h
  exact h

/-! ### Reading after writing -/

/-- Nothing below the bound of a memory is listed. -/
theorem Memory.read_below : ∀ (m : Memory) (lo a : Nat), Memory.wfFrom lo m = true → a < lo → m.read a = 0
  | [], _, _, _, _ => rfl
  | (i, b) :: t, lo, a, h, ha => by
    simp only [Memory.wfFrom, Bool.and_eq_true, decide_eq_true_eq] at h
    simp only [Memory.read]
    rw [if_neg (by omega), if_pos (by omega)]

/-- A read after a write. -/
theorem Memory.read_write (a c : Nat) (b : Byte) : ∀ (m : Memory) (lo : Nat), Memory.wfFrom lo m = true →
    (m.write a b).read c = if c = a then b else m.read c
  | [], _, _ => by
    simp only [Memory.write]
    split
    · simp only [Memory.read]
      split
      · exact ‹b = 0›.symm
      · rfl
    · simp only [Memory.read]
      by_cases hc : c = a
      · rw [if_pos hc, if_pos hc.symm]
      · rw [if_neg hc, if_neg (fun e => hc e.symm), ite_self]
  | (i, x) :: t, lo, h => by
    simp only [Memory.wfFrom, Bool.and_eq_true, decide_eq_true_eq] at h
    have ih := Memory.read_write a c b t (i + 1) h.2
    have low := Memory.read_below t (i + 1)
    simp only [Memory.write]
    split
    · simp only [Memory.read, ih]
      split <;> split <;> (try split) <;> first | rfl | omega
    · split
      · split
        · by_cases hc : c = a
          · rw [if_pos hc, low c h.2 (by omega)]; exact ‹b = 0›.symm
          · rw [if_neg hc]
            simp only [Memory.read]
            rw [if_neg (by omega)]
            split
            · exact low c h.2 (by omega)
            · rfl
        · simp only [Memory.read]
          have hi : i = a := ‹_›
          subst hi
          by_cases hc : c = i
          · rw [if_pos hc, if_pos hc.symm]
          · have hi : ¬ i = c := fun e => hc e.symm
            simp only [hc, hi, if_false]
      · split
        · by_cases hc : c = a
          · rw [if_pos hc]
            simp only [Memory.read]
            rw [if_neg (by omega), if_pos (by omega)]; exact ‹b = 0›.symm
          · rw [if_neg hc]
        · by_cases hc : c = a
          · rw [if_pos hc]; simp only [Memory.read]; rw [if_pos hc.symm]
          · rw [if_neg hc]; simp only [Memory.read]
            rw [if_neg (fun e => hc e.symm)]
            split
            · rw [if_neg (by omega), if_pos (by omega)]
            · rfl

/-- A byte just written is read. -/
theorem Memory.read_write_self (m : Memory) (a : Nat) (b : Byte) (h : m.wf = true) : (m.write a b).read a = b := by
  rw [Memory.read_write a a b m 0 h, if_pos rfl]

/-- Writing a byte leaves the others. -/
theorem Memory.read_write_ne (m : Memory) (a c : Nat) (b : Byte) (h : m.wf = true) (hc : c ≠ a) : (m.write a b).read c = m.read c := by
  rw [Memory.read_write a c b m 0 h, if_neg hc]

/-- Writing bytes from an address on leaves the bytes outside them. -/
theorem Memory.read_writeN_ne : ∀ (bs : List Byte) (m : Memory) (a c : Nat), m.wf = true → (c < a ∨ a + bs.length ≤ c) →
    (m.writeN a bs).read c = m.read c
  | [], _, _, _, _, _ => rfl
  | b :: bs, m, a, c, h, hc => by
    simp only [List.length_cons] at hc
    simp only [Memory.writeN]
    rw [Memory.read_writeN_ne bs _ (a + 1) c (Memory.wf_write m a b h) (by omega), Memory.read_write_ne m a c b h (by omega)]

/-- The bytes just written are read. -/
theorem Memory.readN_writeN : ∀ (bs : List Byte) (m : Memory) (a : Nat), m.wf = true → (m.writeN a bs).readN a bs.length = bs
  | [], _, _, _ => rfl
  | b :: bs, m, a, h => by
    simp only [List.length_cons, Memory.readN, Memory.writeN]
    rw [Memory.read_writeN_ne bs _ (a + 1) a (Memory.wf_write m a b h) (by omega), Memory.read_write_self m a b h,
      Memory.readN_writeN bs _ (a + 1) (Memory.wf_write m a b h)]

end Sys2Proof.Machine
end

