-- ==== Sys2Proof/Laws/PerInstr.lean ====
section
/-!
SUPPORT. One lemma for each instruction about its encoding (04 R78, R91), for statements about all of them.
-/
namespace Sys2Proof.Laws.Codec

open Sys2Proof

/-- The row that an instruction names builds the instruction back from its field values, each of which its field holds; a
step of another agent names no row. -/
def Statement (i : Instr) : Prop :=
  match i.toRow with
  | none => True
  | some (wide, k, vs) => ∃ r, (if wide then rows32 else rows16)[k]? = some r ∧ r.build vs = some i
      ∧ vs.length = r.fields.length ∧ ∀ p ∈ vs.zip r.fields, p.1 < 2 ^ p.2.2

theorem add (d : BitVec 4) (a : BitVec 4) (b : BitVec 4) : Statement (.add d a b) :=
  ⟨_, rfl, by simp only [BitVec.ofNat_toNat, BitVec.setWidth_eq], rfl, by simp; omega⟩
theorem sub (d : BitVec 4) (a : BitVec 4) (b : BitVec 4) : Statement (.sub d a b) :=
  ⟨_, rfl, by simp only [BitVec.ofNat_toNat, BitVec.setWidth_eq], rfl, by simp; omega⟩
theorem and (d : BitVec 4) (a : BitVec 4) (b : BitVec 4) : Statement (.and d a b) :=
  ⟨_, rfl, by simp only [BitVec.ofNat_toNat, BitVec.setWidth_eq], rfl, by simp; omega⟩
theorem or (d : BitVec 4) (a : BitVec 4) (b : BitVec 4) : Statement (.or d a b) :=
  ⟨_, rfl, by simp only [BitVec.ofNat_toNat, BitVec.setWidth_eq], rfl, by simp; omega⟩
theorem xor (d : BitVec 4) (a : BitVec 4) (b : BitVec 4) : Statement (.xor d a b) :=
  ⟨_, rfl, by simp only [BitVec.ofNat_toNat, BitVec.setWidth_eq], rfl, by simp; omega⟩
theorem andn (d : BitVec 4) (a : BitVec 4) (b : BitVec 4) : Statement (.andn d a b) :=
  ⟨_, rfl, by simp only [BitVec.ofNat_toNat, BitVec.setWidth_eq], rfl, by simp; omega⟩
theorem shl (d : BitVec 4) (a : BitVec 4) (b : BitVec 4) : Statement (.shl d a b) :=
  ⟨_, rfl, by simp only [BitVec.ofNat_toNat, BitVec.setWidth_eq], rfl, by simp; omega⟩
theorem shr (d : BitVec 4) (a : BitVec 4) (b : BitVec 4) : Statement (.shr d a b) :=
  ⟨_, rfl, by simp only [BitVec.ofNat_toNat, BitVec.setWidth_eq], rfl, by simp; omega⟩
theorem sar (d : BitVec 4) (a : BitVec 4) (b : BitVec 4) : Statement (.sar d a b) :=
  ⟨_, rfl, by simp only [BitVec.ofNat_toNat, BitVec.setWidth_eq], rfl, by simp; omega⟩
theorem mul (d : BitVec 4) (a : BitVec 4) (b : BitVec 4) : Statement (.mul d a b) :=
  ⟨_, rfl, by simp only [BitVec.ofNat_toNat, BitVec.setWidth_eq], rfl, by simp; omega⟩
theorem mulh (d : BitVec 4) (a : BitVec 4) (b : BitVec 4) : Statement (.mulh d a b) :=
  ⟨_, rfl, by simp only [BitVec.ofNat_toNat, BitVec.setWidth_eq], rfl, by simp; omega⟩
theorem mulhu (d : BitVec 4) (a : BitVec 4) (b : BitVec 4) : Statement (.mulhu d a b) :=
  ⟨_, rfl, by simp only [BitVec.ofNat_toNat, BitVec.setWidth_eq], rfl, by simp; omega⟩
theorem div (d : BitVec 4) (a : BitVec 4) (b : BitVec 4) : Statement (.div d a b) :=
  ⟨_, rfl, by simp only [BitVec.ofNat_toNat, BitVec.setWidth_eq], rfl, by simp; omega⟩
theorem divu (d : BitVec 4) (a : BitVec 4) (b : BitVec 4) : Statement (.divu d a b) :=
  ⟨_, rfl, by simp only [BitVec.ofNat_toNat, BitVec.setWidth_eq], rfl, by simp; omega⟩
theorem rem (d : BitVec 4) (a : BitVec 4) (b : BitVec 4) : Statement (.rem d a b) :=
  ⟨_, rfl, by simp only [BitVec.ofNat_toNat, BitVec.setWidth_eq], rfl, by simp; omega⟩
theorem remu (d : BitVec 4) (a : BitVec 4) (b : BitVec 4) : Statement (.remu d a b) :=
  ⟨_, rfl, by simp only [BitVec.ofNat_toNat, BitVec.setWidth_eq], rfl, by simp; omega⟩
theorem min (d : BitVec 4) (a : BitVec 4) (b : BitVec 4) : Statement (.min d a b) :=
  ⟨_, rfl, by simp only [BitVec.ofNat_toNat, BitVec.setWidth_eq], rfl, by simp; omega⟩
theorem max (d : BitVec 4) (a : BitVec 4) (b : BitVec 4) : Statement (.max d a b) :=
  ⟨_, rfl, by simp only [BitVec.ofNat_toNat, BitVec.setWidth_eq], rfl, by simp; omega⟩
theorem minu (d : BitVec 4) (a : BitVec 4) (b : BitVec 4) : Statement (.minu d a b) :=
  ⟨_, rfl, by simp only [BitVec.ofNat_toNat, BitVec.setWidth_eq], rfl, by simp; omega⟩
theorem maxu (d : BitVec 4) (a : BitVec 4) (b : BitVec 4) : Statement (.maxu d a b) :=
  ⟨_, rfl, by simp only [BitVec.ofNat_toNat, BitVec.setWidth_eq], rfl, by simp; omega⟩
theorem slt (d : BitVec 4) (a : BitVec 4) (b : BitVec 4) : Statement (.slt d a b) :=
  ⟨_, rfl, by simp only [BitVec.ofNat_toNat, BitVec.setWidth_eq], rfl, by simp; omega⟩
theorem sltu (d : BitVec 4) (a : BitVec 4) (b : BitVec 4) : Statement (.sltu d a b) :=
  ⟨_, rfl, by simp only [BitVec.ofNat_toNat, BitVec.setWidth_eq], rfl, by simp; omega⟩
theorem seq (d : BitVec 4) (a : BitVec 4) (b : BitVec 4) : Statement (.seq d a b) :=
  ⟨_, rfl, by simp only [BitVec.ofNat_toNat, BitVec.setWidth_eq], rfl, by simp; omega⟩
theorem clz (d : BitVec 4) (a : BitVec 4) : Statement (.clz d a) :=
  ⟨_, rfl, by simp only [BitVec.ofNat_toNat, BitVec.setWidth_eq], rfl, by simp; omega⟩
theorem ctz (d : BitVec 4) (a : BitVec 4) : Statement (.ctz d a) :=
  ⟨_, rfl, by simp only [BitVec.ofNat_toNat, BitVec.setWidth_eq], rfl, by simp; omega⟩
theorem popc (d : BitVec 4) (a : BitVec 4) : Statement (.popc d a) :=
  ⟨_, rfl, by simp only [BitVec.ofNat_toNat, BitVec.setWidth_eq], rfl, by simp; omega⟩
theorem sextB (d : BitVec 4) (a : BitVec 4) : Statement (.sextB d a) :=
  ⟨_, rfl, by simp only [BitVec.ofNat_toNat, BitVec.setWidth_eq], rfl, by simp; omega⟩
theorem sextH (d : BitVec 4) (a : BitVec 4) : Statement (.sextH d a) :=
  ⟨_, rfl, by simp only [BitVec.ofNat_toNat, BitVec.setWidth_eq], rfl, by simp; omega⟩
theorem sextW (d : BitVec 4) (a : BitVec 4) : Statement (.sextW d a) :=
  ⟨_, rfl, by simp only [BitVec.ofNat_toNat, BitVec.setWidth_eq], rfl, by simp; omega⟩
theorem sel (d : BitVec 4) (a : BitVec 4) (b : BitVec 4) : Statement (.sel d a b) :=
  ⟨_, rfl, by simp only [BitVec.ofNat_toNat, BitVec.setWidth_eq], rfl, by simp; omega⟩
theorem addi (d : BitVec 4) (a : BitVec 4) (i : BitVec 14) : Statement (.addi d a i) :=
  ⟨_, rfl, by simp only [BitVec.ofNat_toNat, BitVec.setWidth_eq], rfl, by simp; omega⟩
theorem andi (d : BitVec 4) (a : BitVec 4) (i : BitVec 14) : Statement (.andi d a i) :=
  ⟨_, rfl, by simp only [BitVec.ofNat_toNat, BitVec.setWidth_eq], rfl, by simp; omega⟩
theorem ori (d : BitVec 4) (a : BitVec 4) (i : BitVec 14) : Statement (.ori d a i) :=
  ⟨_, rfl, by simp only [BitVec.ofNat_toNat, BitVec.setWidth_eq], rfl, by simp; omega⟩
theorem xori (d : BitVec 4) (a : BitVec 4) (i : BitVec 14) : Statement (.xori d a i) :=
  ⟨_, rfl, by simp only [BitVec.ofNat_toNat, BitVec.setWidth_eq], rfl, by simp; omega⟩
theorem shli (d : BitVec 4) (a : BitVec 4) (i : BitVec 14) : Statement (.shli d a i) :=
  ⟨_, rfl, by simp only [BitVec.ofNat_toNat, BitVec.setWidth_eq], rfl, by simp; omega⟩
theorem shri (d : BitVec 4) (a : BitVec 4) (i : BitVec 14) : Statement (.shri d a i) :=
  ⟨_, rfl, by simp only [BitVec.ofNat_toNat, BitVec.setWidth_eq], rfl, by simp; omega⟩
theorem sari (d : BitVec 4) (a : BitVec 4) (i : BitVec 14) : Statement (.sari d a i) :=
  ⟨_, rfl, by simp only [BitVec.ofNat_toNat, BitVec.setWidth_eq], rfl, by simp; omega⟩
theorem slti (d : BitVec 4) (a : BitVec 4) (i : BitVec 14) : Statement (.slti d a i) :=
  ⟨_, rfl, by simp only [BitVec.ofNat_toNat, BitVec.setWidth_eq], rfl, by simp; omega⟩
theorem lui (d : BitVec 4) (i : BitVec 18) : Statement (.lui d i) :=
  ⟨_, rfl, by simp only [BitVec.ofNat_toNat, BitVec.setWidth_eq], rfl, by simp; omega⟩
theorem adpc (d : BitVec 4) (i : BitVec 18) : Statement (.adpc d i) :=
  ⟨_, rfl, by simp only [BitVec.ofNat_toNat, BitVec.setWidth_eq], rfl, by simp; omega⟩
theorem fadd (d : BitVec 4) (a : BitVec 4) (b : BitVec 4) (m : BitVec 3) : Statement (.fadd d a b m) :=
  ⟨_, rfl, by simp only [BitVec.ofNat_toNat, BitVec.setWidth_eq], rfl, by simp; omega⟩
theorem fsub (d : BitVec 4) (a : BitVec 4) (b : BitVec 4) (m : BitVec 3) : Statement (.fsub d a b m) :=
  ⟨_, rfl, by simp only [BitVec.ofNat_toNat, BitVec.setWidth_eq], rfl, by simp; omega⟩
theorem fmul (d : BitVec 4) (a : BitVec 4) (b : BitVec 4) (m : BitVec 3) : Statement (.fmul d a b m) :=
  ⟨_, rfl, by simp only [BitVec.ofNat_toNat, BitVec.setWidth_eq], rfl, by simp; omega⟩
theorem ffma (d : BitVec 4) (a : BitVec 4) (b : BitVec 4) (m : BitVec 3) : Statement (.ffma d a b m) :=
  ⟨_, rfl, by simp only [BitVec.ofNat_toNat, BitVec.setWidth_eq], rfl, by simp; omega⟩
theorem fdiv (d : BitVec 4) (a : BitVec 4) (b : BitVec 4) (m : BitVec 3) : Statement (.fdiv d a b m) :=
  ⟨_, rfl, by simp only [BitVec.ofNat_toNat, BitVec.setWidth_eq], rfl, by simp; omega⟩
theorem fsqrt (d : BitVec 4) (a : BitVec 4) (m : BitVec 3) : Statement (.fsqrt d a m) :=
  ⟨_, rfl, by simp only [BitVec.ofNat_toNat, BitVec.setWidth_eq], rfl, by simp; omega⟩
theorem fmin (d : BitVec 4) (a : BitVec 4) (b : BitVec 4) : Statement (.fmin d a b) :=
  ⟨_, rfl, by simp only [BitVec.ofNat_toNat, BitVec.setWidth_eq], rfl, by simp; omega⟩
theorem fmax (d : BitVec 4) (a : BitVec 4) (b : BitVec 4) : Statement (.fmax d a b) :=
  ⟨_, rfl, by simp only [BitVec.ofNat_toNat, BitVec.setWidth_eq], rfl, by simp; omega⟩
theorem fcmpEq (d : BitVec 4) (a : BitVec 4) (b : BitVec 4) : Statement (.fcmpEq d a b) :=
  ⟨_, rfl, by simp only [BitVec.ofNat_toNat, BitVec.setWidth_eq], rfl, by simp; omega⟩
theorem fcmpLt (d : BitVec 4) (a : BitVec 4) (b : BitVec 4) : Statement (.fcmpLt d a b) :=
  ⟨_, rfl, by simp only [BitVec.ofNat_toNat, BitVec.setWidth_eq], rfl, by simp; omega⟩
theorem fcmpLe (d : BitVec 4) (a : BitVec 4) (b : BitVec 4) : Statement (.fcmpLe d a b) :=
  ⟨_, rfl, by simp only [BitVec.ofNat_toNat, BitVec.setWidth_eq], rfl, by simp; omega⟩
theorem fcvtF32I32 (d : BitVec 4) (a : BitVec 4) (m : BitVec 3) : Statement (.fcvtF32I32 d a m) :=
  ⟨_, rfl, by simp only [BitVec.ofNat_toNat, BitVec.setWidth_eq], rfl, by simp; omega⟩
theorem fcvtI32F32 (d : BitVec 4) (a : BitVec 4) (m : BitVec 3) : Statement (.fcvtI32F32 d a m) :=
  ⟨_, rfl, by simp only [BitVec.ofNat_toNat, BitVec.setWidth_eq], rfl, by simp; omega⟩
theorem fcvtF32I64 (d : BitVec 4) (a : BitVec 4) (m : BitVec 3) : Statement (.fcvtF32I64 d a m) :=
  ⟨_, rfl, by simp only [BitVec.ofNat_toNat, BitVec.setWidth_eq], rfl, by simp; omega⟩
theorem fcvtI64F32 (d : BitVec 4) (a : BitVec 4) (m : BitVec 3) : Statement (.fcvtI64F32 d a m) :=
  ⟨_, rfl, by simp only [BitVec.ofNat_toNat, BitVec.setWidth_eq], rfl, by simp; omega⟩
theorem fclass (d : BitVec 4) (a : BitVec 4) : Statement (.fclass d a) :=
  ⟨_, rfl, by simp only [BitVec.ofNat_toNat, BitVec.setWidth_eq], rfl, by simp; omega⟩
theorem fmov (d : BitVec 4) (a : BitVec 4) : Statement (.fmov d a) :=
  ⟨_, rfl, by simp only [BitVec.ofNat_toNat, BitVec.setWidth_eq], rfl, by simp; omega⟩
theorem fsgnCp (d : BitVec 4) (a : BitVec 4) (b : BitVec 4) : Statement (.fsgnCp d a b) :=
  ⟨_, rfl, by simp only [BitVec.ofNat_toNat, BitVec.setWidth_eq], rfl, by simp; omega⟩
theorem fsgnNeg (d : BitVec 4) (a : BitVec 4) : Statement (.fsgnNeg d a) :=
  ⟨_, rfl, by simp only [BitVec.ofNat_toNat, BitVec.setWidth_eq], rfl, by simp; omega⟩
theorem fsgnAbs (d : BitVec 4) (a : BitVec 4) : Statement (.fsgnAbs d a) :=
  ⟨_, rfl, by simp only [BitVec.ofNat_toNat, BitVec.setWidth_eq], rfl, by simp; omega⟩
theorem fsgnMul (d : BitVec 4) (a : BitVec 4) (b : BitVec 4) : Statement (.fsgnMul d a b) :=
  ⟨_, rfl, by simp only [BitVec.ofNat_toNat, BitVec.setWidth_eq], rfl, by simp; omega⟩
theorem beq (a : BitVec 4) (b : BitVec 4) (i : BitVec 14) : Statement (.beq a b i) :=
  ⟨_, rfl, by simp only [BitVec.ofNat_toNat, BitVec.setWidth_eq], rfl, by simp; omega⟩
theorem bne (a : BitVec 4) (b : BitVec 4) (i : BitVec 14) : Statement (.bne a b i) :=
  ⟨_, rfl, by simp only [BitVec.ofNat_toNat, BitVec.setWidth_eq], rfl, by simp; omega⟩
theorem blt (a : BitVec 4) (b : BitVec 4) (i : BitVec 14) : Statement (.blt a b i) :=
  ⟨_, rfl, by simp only [BitVec.ofNat_toNat, BitVec.setWidth_eq], rfl, by simp; omega⟩
theorem bge (a : BitVec 4) (b : BitVec 4) (i : BitVec 14) : Statement (.bge a b i) :=
  ⟨_, rfl, by simp only [BitVec.ofNat_toNat, BitVec.setWidth_eq], rfl, by simp; omega⟩
theorem bltu (a : BitVec 4) (b : BitVec 4) (i : BitVec 14) : Statement (.bltu a b i) :=
  ⟨_, rfl, by simp only [BitVec.ofNat_toNat, BitVec.setWidth_eq], rfl, by simp; omega⟩
theorem bgeu (a : BitVec 4) (b : BitVec 4) (i : BitVec 14) : Statement (.bgeu a b i) :=
  ⟨_, rfl, by simp only [BitVec.ofNat_toNat, BitVec.setWidth_eq], rfl, by simp; omega⟩
theorem call (d : BitVec 4) (i : BitVec 18) : Statement (.call d i) :=
  ⟨_, rfl, by simp only [BitVec.ofNat_toNat, BitVec.setWidth_eq], rfl, by simp; omega⟩
theorem jr (a : BitVec 4) : Statement (.jr a) :=
  ⟨_, rfl, by simp only [BitVec.ofNat_toNat, BitVec.setWidth_eq], rfl, by simp; omega⟩
theorem callr (d : BitVec 4) (a : BitVec 4) : Statement (.callr d a) :=
  ⟨_, rfl, by simp only [BitVec.ofNat_toNat, BitVec.setWidth_eq], rfl, by simp; omega⟩
theorem loop (a : BitVec 4) (l : BitVec 1) (i : BitVec 14) : Statement (.loop a l i) :=
  ⟨_, rfl, by simp only [BitVec.ofNat_toNat, BitVec.setWidth_eq], rfl, by simp; omega⟩
theorem trap (x : BitVec 10) : Statement (.trap x) :=
  ⟨_, rfl, by simp only [BitVec.ofNat_toNat, BitVec.setWidth_eq], rfl, by simp; omega⟩
theorem csrr (d : BitVec 4) (x : BitVec 10) : Statement (.csrr d x) :=
  ⟨_, rfl, by simp only [BitVec.ofNat_toNat, BitVec.setWidth_eq], rfl, by simp; omega⟩
theorem csrw (a : BitVec 4) (x : BitVec 10) : Statement (.csrw a x) :=
  ⟨_, rfl, by simp only [BitVec.ofNat_toNat, BitVec.setWidth_eq], rfl, by simp; omega⟩
theorem csrs (a : BitVec 4) (x : BitVec 10) : Statement (.csrs a x) :=
  ⟨_, rfl, by simp only [BitVec.ofNat_toNat, BitVec.setWidth_eq], rfl, by simp; omega⟩
theorem csrc (a : BitVec 4) (x : BitVec 10) : Statement (.csrc a x) :=
  ⟨_, rfl, by simp only [BitVec.ofNat_toNat, BitVec.setWidth_eq], rfl, by simp; omega⟩
theorem brk (x : BitVec 10) : Statement (.brk x) :=
  ⟨_, rfl, by simp only [BitVec.ofNat_toNat, BitVec.setWidth_eq], rfl, by simp; omega⟩
theorem yield (y : BitVec 6) : Statement (.yield y) :=
  ⟨_, rfl, by simp only [BitVec.ofNat_toNat, BitVec.setWidth_eq], rfl, by simp; omega⟩
theorem fcld (d : BitVec 4) (a : BitVec 4) (o : BitVec 6) : Statement (.fcld d a o) :=
  ⟨_, rfl, by simp only [BitVec.ofNat_toNat, BitVec.setWidth_eq], rfl, by simp; omega⟩
theorem fcst (d : BitVec 4) (a : BitVec 4) (o : BitVec 6) : Statement (.fcst d a o) :=
  ⟨_, rfl, by simp only [BitVec.ofNat_toNat, BitVec.setWidth_eq], rfl, by simp; omega⟩
theorem fcvld (d : BitVec 4) (a : BitVec 4) (o : BitVec 6) : Statement (.fcvld d a o) :=
  ⟨_, rfl, by simp only [BitVec.ofNat_toNat, BitVec.setWidth_eq], rfl, by simp; omega⟩
theorem fcvst (d : BitVec 4) (a : BitVec 4) (o : BitVec 6) : Statement (.fcvst d a o) :=
  ⟨_, rfl, by simp only [BitVec.ofNat_toNat, BitVec.setWidth_eq], rfl, by simp; omega⟩
theorem vadd (d : BitVec 4) (a : BitVec 4) (b : BitVec 4) (k : BitVec 3) (m : BitVec 3) : Statement (.vadd d a b k m) :=
  ⟨_, rfl, by simp only [BitVec.ofNat_toNat, BitVec.setWidth_eq], rfl, by simp; omega⟩
theorem vsub (d : BitVec 4) (a : BitVec 4) (b : BitVec 4) (k : BitVec 3) (m : BitVec 3) : Statement (.vsub d a b k m) :=
  ⟨_, rfl, by simp only [BitVec.ofNat_toNat, BitVec.setWidth_eq], rfl, by simp; omega⟩
theorem vmul (d : BitVec 4) (a : BitVec 4) (b : BitVec 4) (k : BitVec 3) (m : BitVec 3) : Statement (.vmul d a b k m) :=
  ⟨_, rfl, by simp only [BitVec.ofNat_toNat, BitVec.setWidth_eq], rfl, by simp; omega⟩
theorem vfma (d : BitVec 4) (a : BitVec 4) (b : BitVec 4) (k : BitVec 3) (m : BitVec 3) : Statement (.vfma d a b k m) :=
  ⟨_, rfl, by simp only [BitVec.ofNat_toNat, BitVec.setWidth_eq], rfl, by simp; omega⟩
theorem vfms (d : BitVec 4) (a : BitVec 4) (b : BitVec 4) (k : BitVec 3) (m : BitVec 3) : Statement (.vfms d a b k m) :=
  ⟨_, rfl, by simp only [BitVec.ofNat_toNat, BitVec.setWidth_eq], rfl, by simp; omega⟩
theorem vmin (d : BitVec 4) (a : BitVec 4) (b : BitVec 4) (k : BitVec 3) : Statement (.vmin d a b k) :=
  ⟨_, rfl, by simp only [BitVec.ofNat_toNat, BitVec.setWidth_eq], rfl, by simp; omega⟩
theorem vmax (d : BitVec 4) (a : BitVec 4) (b : BitVec 4) (k : BitVec 3) : Statement (.vmax d a b k) :=
  ⟨_, rfl, by simp only [BitVec.ofNat_toNat, BitVec.setWidth_eq], rfl, by simp; omega⟩
theorem viadd (d : BitVec 4) (a : BitVec 4) (b : BitVec 4) (k : BitVec 3) : Statement (.viadd d a b k) :=
  ⟨_, rfl, by simp only [BitVec.ofNat_toNat, BitVec.setWidth_eq], rfl, by simp; omega⟩
theorem visub (d : BitVec 4) (a : BitVec 4) (b : BitVec 4) (k : BitVec 3) : Statement (.visub d a b k) :=
  ⟨_, rfl, by simp only [BitVec.ofNat_toNat, BitVec.setWidth_eq], rfl, by simp; omega⟩
theorem vimul (d : BitVec 4) (a : BitVec 4) (b : BitVec 4) (k : BitVec 3) : Statement (.vimul d a b k) :=
  ⟨_, rfl, by simp only [BitVec.ofNat_toNat, BitVec.setWidth_eq], rfl, by simp; omega⟩
theorem vand (d : BitVec 4) (a : BitVec 4) (b : BitVec 4) (k : BitVec 3) : Statement (.vand d a b k) :=
  ⟨_, rfl, by simp only [BitVec.ofNat_toNat, BitVec.setWidth_eq], rfl, by simp; omega⟩
theorem vor (d : BitVec 4) (a : BitVec 4) (b : BitVec 4) (k : BitVec 3) : Statement (.vor d a b k) :=
  ⟨_, rfl, by simp only [BitVec.ofNat_toNat, BitVec.setWidth_eq], rfl, by simp; omega⟩
theorem vxor (d : BitVec 4) (a : BitVec 4) (b : BitVec 4) (k : BitVec 3) : Statement (.vxor d a b k) :=
  ⟨_, rfl, by simp only [BitVec.ofNat_toNat, BitVec.setWidth_eq], rfl, by simp; omega⟩
theorem vshl (d : BitVec 4) (a : BitVec 4) (b : BitVec 4) (k : BitVec 3) : Statement (.vshl d a b k) :=
  ⟨_, rfl, by simp only [BitVec.ofNat_toNat, BitVec.setWidth_eq], rfl, by simp; omega⟩
theorem vshr (d : BitVec 4) (a : BitVec 4) (b : BitVec 4) (k : BitVec 3) : Statement (.vshr d a b k) :=
  ⟨_, rfl, by simp only [BitVec.ofNat_toNat, BitVec.setWidth_eq], rfl, by simp; omega⟩
theorem vsar (d : BitVec 4) (a : BitVec 4) (b : BitVec 4) (k : BitVec 3) : Statement (.vsar d a b k) :=
  ⟨_, rfl, by simp only [BitVec.ofNat_toNat, BitVec.setWidth_eq], rfl, by simp; omega⟩
theorem vcmp (d : BitVec 4) (a : BitVec 4) (b : BitVec 4) (k : BitVec 3) (r : BitVec 4) (t : BitVec 3) : Statement (.vcmp d a b k r t) :=
  ⟨_, rfl, by simp only [BitVec.ofNat_toNat, BitVec.setWidth_eq], rfl, by simp; omega⟩
theorem vsel (d : BitVec 4) (a : BitVec 4) (b : BitVec 4) (k : BitVec 3) : Statement (.vsel d a b k) :=
  ⟨_, rfl, by simp only [BitVec.ofNat_toNat, BitVec.setWidth_eq], rfl, by simp; omega⟩
theorem vmov (d : BitVec 4) (a : BitVec 4) (k : BitVec 3) : Statement (.vmov d a k) :=
  ⟨_, rfl, by simp only [BitVec.ofNat_toNat, BitVec.setWidth_eq], rfl, by simp; omega⟩
theorem vbcast (d : BitVec 4) (a : BitVec 4) (k : BitVec 3) : Statement (.vbcast d a k) :=
  ⟨_, rfl, by simp only [BitVec.ofNat_toNat, BitVec.setWidth_eq], rfl, by simp; omega⟩
theorem vext (d : BitVec 4) (a : BitVec 4) (b : BitVec 4) : Statement (.vext d a b) :=
  ⟨_, rfl, by simp only [BitVec.ofNat_toNat, BitVec.setWidth_eq], rfl, by simp; omega⟩
theorem vins (d : BitVec 4) (a : BitVec 4) (b : BitVec 4) : Statement (.vins d a b) :=
  ⟨_, rfl, by simp only [BitVec.ofNat_toNat, BitVec.setWidth_eq], rfl, by simp; omega⟩
theorem viota (d : BitVec 4) (k : BitVec 3) : Statement (.viota d k) :=
  ⟨_, rfl, by simp only [BitVec.ofNat_toNat, BitVec.setWidth_eq], rfl, by simp; omega⟩
theorem vperm (d : BitVec 4) (a : BitVec 4) (b : BitVec 4) (k : BitVec 3) : Statement (.vperm d a b k) :=
  ⟨_, rfl, by simp only [BitVec.ofNat_toNat, BitVec.setWidth_eq], rfl, by simp; omega⟩
theorem vslide (d : BitVec 4) (a : BitVec 4) (b : BitVec 4) (k : BitVec 3) (u : BitVec 1) : Statement (.vslide d a b k u) :=
  ⟨_, rfl, by simp only [BitVec.ofNat_toNat, BitVec.setWidth_eq], rfl, by simp; omega⟩
theorem vredsum (d : BitVec 4) (a : BitVec 4) (k : BitVec 3) (m : BitVec 3) : Statement (.vredsum d a k m) :=
  ⟨_, rfl, by simp only [BitVec.ofNat_toNat, BitVec.setWidth_eq], rfl, by simp; omega⟩
theorem vredmax (d : BitVec 4) (a : BitVec 4) (k : BitVec 3) : Statement (.vredmax d a k) :=
  ⟨_, rfl, by simp only [BitVec.ofNat_toNat, BitVec.setWidth_eq], rfl, by simp; omega⟩
theorem vredmin (d : BitVec 4) (a : BitVec 4) (k : BitVec 3) : Statement (.vredmin d a k) :=
  ⟨_, rfl, by simp only [BitVec.ofNat_toNat, BitVec.setWidth_eq], rfl, by simp; omega⟩
theorem vrcp (d : BitVec 4) (a : BitVec 4) (k : BitVec 3) : Statement (.vrcp d a k) :=
  ⟨_, rfl, by simp only [BitVec.ofNat_toNat, BitVec.setWidth_eq], rfl, by simp; omega⟩
theorem vrsq (d : BitVec 4) (a : BitVec 4) (k : BitVec 3) : Statement (.vrsq d a k) :=
  ⟨_, rfl, by simp only [BitVec.ofNat_toNat, BitVec.setWidth_eq], rfl, by simp; omega⟩
theorem vexp2 (d : BitVec 4) (a : BitVec 4) (k : BitVec 3) : Statement (.vexp2 d a k) :=
  ⟨_, rfl, by simp only [BitVec.ofNat_toNat, BitVec.setWidth_eq], rfl, by simp; omega⟩
theorem vlog2 (d : BitVec 4) (a : BitVec 4) (k : BitVec 3) : Statement (.vlog2 d a k) :=
  ⟨_, rfl, by simp only [BitVec.ofNat_toNat, BitVec.setWidth_eq], rfl, by simp; omega⟩
theorem vcvt (d : BitVec 4) (a : BitVec 4) (e : BitVec 4) (k : BitVec 3) (f : BitVec 4) (m : BitVec 3) : Statement (.vcvt d a e k f m) :=
  ⟨_, rfl, by simp only [BitVec.ofNat_toNat, BitVec.setWidth_eq], rfl, by simp; omega⟩
theorem vqnt (d : BitVec 4) (a : BitVec 4) (b : BitVec 3) (k : BitVec 3) (f : BitVec 4) (m : BitVec 3) : Statement (.vqnt d a b k f m) :=
  ⟨_, rfl, by simp only [BitVec.ofNat_toNat, BitVec.setWidth_eq], rfl, by simp; omega⟩
theorem vdeq (d : BitVec 4) (a : BitVec 4) (b : BitVec 3) (k : BitVec 3) (f : BitVec 4) (m : BitVec 3) : Statement (.vdeq d a b k f m) :=
  ⟨_, rfl, by simp only [BitVec.ofNat_toNat, BitVec.setWidth_eq], rfl, by simp; omega⟩
theorem vsrnd (d : BitVec 4) (a : BitVec 4) (f : BitVec 4) (k : BitVec 3) (m : BitVec 3) : Statement (.vsrnd d a f k m) :=
  ⟨_, rfl, by simp only [BitVec.ofNat_toNat, BitVec.setWidth_eq], rfl, by simp; omega⟩
theorem vsacc (d : BitVec 4) (a : BitVec 4) (b : BitVec 4) (k : BitVec 3) (m : BitVec 3) : Statement (.vsacc d a b k m) :=
  ⟨_, rfl, by simp only [BitVec.ofNat_toNat, BitVec.setWidth_eq], rfl, by simp; omega⟩
theorem kand (d : BitVec 3) (a : BitVec 3) (b : BitVec 3) : Statement (.kand d a b) :=
  ⟨_, rfl, by simp only [BitVec.ofNat_toNat, BitVec.setWidth_eq], rfl, by simp; omega⟩
theorem kor (d : BitVec 3) (a : BitVec 3) (b : BitVec 3) : Statement (.kor d a b) :=
  ⟨_, rfl, by simp only [BitVec.ofNat_toNat, BitVec.setWidth_eq], rfl, by simp; omega⟩
theorem kxor (d : BitVec 3) (a : BitVec 3) (b : BitVec 3) : Statement (.kxor d a b) :=
  ⟨_, rfl, by simp only [BitVec.ofNat_toNat, BitVec.setWidth_eq], rfl, by simp; omega⟩
theorem knot (d : BitVec 3) (a : BitVec 3) : Statement (.knot d a) :=
  ⟨_, rfl, by simp only [BitVec.ofNat_toNat, BitVec.setWidth_eq], rfl, by simp; omega⟩
theorem kmov (d : BitVec 3) (a : BitVec 3) : Statement (.kmov d a) :=
  ⟨_, rfl, by simp only [BitVec.ofNat_toNat, BitVec.setWidth_eq], rfl, by simp; omega⟩
theorem kpopc (d : BitVec 4) (a : BitVec 3) : Statement (.kpopc d a) :=
  ⟨_, rfl, by simp only [BitVec.ofNat_toNat, BitVec.setWidth_eq], rfl, by simp; omega⟩
theorem kfirst (d : BitVec 4) (a : BitVec 3) : Statement (.kfirst d a) :=
  ⟨_, rfl, by simp only [BitVec.ofNat_toNat, BitVec.setWidth_eq], rfl, by simp; omega⟩
theorem tspawn (d : BitVec 4) (a : BitVec 4) : Statement (.tspawn d a) :=
  ⟨_, rfl, by simp only [BitVec.ofNat_toNat, BitVec.setWidth_eq], rfl, by simp; omega⟩
theorem tdec (a : BitVec 4) (b : BitVec 4) (n : BitVec 6) : Statement (.tdec a b n) :=
  ⟨_, rfl, by simp only [BitVec.ofNat_toNat, BitVec.setWidth_eq], rfl, by simp; omega⟩
theorem tself (d : BitVec 4) : Statement (.tself d) :=
  ⟨_, rfl, by simp only [BitVec.ofNat_toNat, BitVec.setWidth_eq], rfl, by simp; omega⟩
theorem migr (a : BitVec 4) : Statement (.migr a) :=
  ⟨_, rfl, by simp only [BitVec.ofNat_toNat, BitVec.setWidth_eq], rfl, by simp; omega⟩
theorem gang (n : BitVec 6) : Statement (.gang n) :=
  ⟨_, rfl, by simp only [BitVec.ofNat_toNat, BitVec.setWidth_eq], rfl, by simp; omega⟩
theorem dbind (h : BitVec 3) (a : BitVec 4) (n : BitVec 11) : Statement (.dbind h a n) :=
  ⟨_, rfl, by simp only [BitVec.ofNat_toNat, BitVec.setWidth_eq], rfl, by simp; omega⟩
theorem dwaitc (h : BitVec 3) (a : BitVec 4) (n : BitVec 11) : Statement (.dwaitc h a n) :=
  ⟨_, rfl, by simp only [BitVec.ofNat_toNat, BitVec.setWidth_eq], rfl, by simp; omega⟩
theorem dwaitp (h : BitVec 3) (a : BitVec 4) (n : BitVec 11) : Statement (.dwaitp h a n) :=
  ⟨_, rfl, by simp only [BitVec.ofNat_toNat, BitVec.setWidth_eq], rfl, by simp; omega⟩
theorem dadvc (h : BitVec 3) (a : BitVec 4) (n : BitVec 11) : Statement (.dadvc h a n) :=
  ⟨_, rfl, by simp only [BitVec.ofNat_toNat, BitVec.setWidth_eq], rfl, by simp; omega⟩
theorem dadvp (h : BitVec 3) (a : BitVec 4) (n : BitVec 11) : Statement (.dadvp h a n) :=
  ⟨_, rfl, by simp only [BitVec.ofNat_toNat, BitVec.setWidth_eq], rfl, by simp; omega⟩
theorem cpy (a : BitVec 4) (b : BitVec 4) (p : BitVec 2) (n : BitVec 4) : Statement (.cpy a b p n) :=
  ⟨_, rfl, by simp only [BitVec.ofNat_toNat, BitVec.setWidth_eq], rfl, by simp; omega⟩
theorem cpy2 (a : BitVec 4) (b : BitVec 4) (p : BitVec 2) (n : BitVec 4) : Statement (.cpy2 a b p n) :=
  ⟨_, rfl, by simp only [BitVec.ofNat_toNat, BitVec.setWidth_eq], rfl, by simp; omega⟩
theorem cwaitany (a : BitVec 4) : Statement (.cwaitany a) :=
  ⟨_, rfl, by simp only [BitVec.ofNat_toNat, BitVec.setWidth_eq], rfl, by simp; omega⟩
theorem cwaitall (a : BitVec 4) : Statement (.cwaitall a) :=
  ⟨_, rfl, by simp only [BitVec.ofNat_toNat, BitVec.setWidth_eq], rfl, by simp; omega⟩
theorem cfind (d : BitVec 4) : Statement (.cfind d) :=
  ⟨_, rfl, by simp only [BitVec.ofNat_toNat, BitVec.setWidth_eq], rfl, by simp; omega⟩
theorem ctagclr (a : BitVec 4) : Statement (.ctagclr a) :=
  ⟨_, rfl, by simp only [BitVec.ofNat_toNat, BitVec.setWidth_eq], rfl, by simp; omega⟩
theorem sopen (a : BitVec 4) (s : BitVec 2) : Statement (.sopen a s) :=
  ⟨_, rfl, by simp only [BitVec.ofNat_toNat, BitVec.setWidth_eq], rfl, by simp; omega⟩
theorem sclose (s : BitVec 2) : Statement (.sclose s) :=
  ⟨_, rfl, by simp only [BitVec.ofNat_toNat, BitVec.setWidth_eq], rfl, by simp; omega⟩
theorem ssend (s : BitVec 2) (a : BitVec 4) (k : BitVec 3) (c : BitVec 4) : Statement (.ssend s a k c) :=
  ⟨_, rfl, by simp only [BitVec.ofNat_toNat, BitVec.setWidth_eq], rfl, by simp; omega⟩
theorem plnch (d : BitVec 4) (a : BitVec 4) (b : BitVec 4) : Statement (.plnch d a b) :=
  ⟨_, rfl, by simp only [BitVec.ofNat_toNat, BitVec.setWidth_eq], rfl, by simp; omega⟩
theorem greplay (d : BitVec 4) (a : BitVec 4) : Statement (.greplay d a) :=
  ⟨_, rfl, by simp only [BitVec.ofNat_toNat, BitVec.setWidth_eq], rfl, by simp; omega⟩
theorem ld (d : BitVec 4) (a : BitVec 4) (w : BitVec 2) (k : BitVec 1) (x : BitVec 1) (i : BitVec 10) : Statement (.ld d a w k x i) :=
  ⟨_, rfl, by simp only [BitVec.ofNat_toNat, BitVec.setWidth_eq], rfl, by simp; omega⟩
theorem st (d : BitVec 4) (a : BitVec 4) (w : BitVec 2) (k : BitVec 1) (i : BitVec 10) : Statement (.st d a w k i) :=
  ⟨_, rfl, by simp only [BitVec.ofNat_toNat, BitVec.setWidth_eq], rfl, by simp; omega⟩
theorem ldacq (d : BitVec 4) (a : BitVec 4) (w : BitVec 2) (k : BitVec 1) (x : BitVec 1) (c : BitVec 3) (i : BitVec 7) : Statement (.ldacq d a w k x c i) :=
  ⟨_, rfl, by simp only [BitVec.ofNat_toNat, BitVec.setWidth_eq], rfl, by simp; omega⟩
theorem strel (d : BitVec 4) (a : BitVec 4) (w : BitVec 2) (k : BitVec 1) (c : BitVec 3) (i : BitVec 7) : Statement (.strel d a w k c i) :=
  ⟨_, rfl, by simp only [BitVec.ofNat_toNat, BitVec.setWidth_eq], rfl, by simp; omega⟩
theorem vld (d : BitVec 4) (a : BitVec 4) (k : BitVec 3) : Statement (.vld d a k) :=
  ⟨_, rfl, by simp only [BitVec.ofNat_toNat, BitVec.setWidth_eq], rfl, by simp; omega⟩
theorem vlds (d : BitVec 4) (a : BitVec 4) (b : BitVec 4) (k : BitVec 3) : Statement (.vlds d a b k) :=
  ⟨_, rfl, by simp only [BitVec.ofNat_toNat, BitVec.setWidth_eq], rfl, by simp; omega⟩
theorem vldx (d : BitVec 4) (a : BitVec 4) (b : BitVec 4) (k : BitVec 3) : Statement (.vldx d a b k) :=
  ⟨_, rfl, by simp only [BitVec.ofNat_toNat, BitVec.setWidth_eq], rfl, by simp; omega⟩
theorem vld6 (d : BitVec 4) (a : BitVec 4) (k : BitVec 3) : Statement (.vld6 d a k) :=
  ⟨_, rfl, by simp only [BitVec.ofNat_toNat, BitVec.setWidth_eq], rfl, by simp; omega⟩
theorem vst (d : BitVec 4) (a : BitVec 4) (k : BitVec 3) (s : BitVec 3) (t : BitVec 1) : Statement (.vst d a k s t) :=
  ⟨_, rfl, by simp only [BitVec.ofNat_toNat, BitVec.setWidth_eq], rfl, by simp; omega⟩
theorem vsts (d : BitVec 4) (a : BitVec 4) (b : BitVec 4) (k : BitVec 3) (s : BitVec 3) (t : BitVec 1) : Statement (.vsts d a b k s t) :=
  ⟨_, rfl, by simp only [BitVec.ofNat_toNat, BitVec.setWidth_eq], rfl, by simp; omega⟩
theorem vstx (d : BitVec 4) (a : BitVec 4) (b : BitVec 4) (k : BitVec 3) (s : BitVec 3) (t : BitVec 1) : Statement (.vstx d a b k s t) :=
  ⟨_, rfl, by simp only [BitVec.ofNat_toNat, BitVec.setWidth_eq], rfl, by simp; omega⟩
theorem vst6 (d : BitVec 4) (a : BitVec 4) (k : BitVec 3) (s : BitVec 3) (t : BitVec 1) : Statement (.vst6 d a k s t) :=
  ⟨_, rfl, by simp only [BitVec.ofNat_toNat, BitVec.setWidth_eq], rfl, by simp; omega⟩
theorem discard (a : BitVec 4) : Statement (.discard a) :=
  ⟨_, rfl, by simp only [BitVec.ofNat_toNat, BitVec.setWidth_eq], rfl, by simp; omega⟩
theorem pref (a : BitVec 4) (l : BitVec 1) : Statement (.pref a l) :=
  ⟨_, rfl, by simp only [BitVec.ofNat_toNat, BitVec.setWidth_eq], rfl, by simp; omega⟩
theorem wback (a : BitVec 4) : Statement (.wback a) :=
  ⟨_, rfl, by simp only [BitVec.ofNat_toNat, BitVec.setWidth_eq], rfl, by simp; omega⟩
theorem fence (c : BitVec 3) : Statement (.fence c) :=
  ⟨_, rfl, by simp only [BitVec.ofNat_toNat, BitVec.setWidth_eq], rfl, by simp; omega⟩
theorem fenceh (a : BitVec 4) (c : BitVec 3) : Statement (.fenceh a c) :=
  ⟨_, rfl, by simp only [BitVec.ofNat_toNat, BitVec.setWidth_eq], rfl, by simp; omega⟩
theorem amo (d : BitVec 4) (a : BitVec 4) (b : BitVec 4) (o : BitVec 4) (n : BitVec 1) : Statement (.amo d a b o n) :=
  ⟨_, rfl, by simp only [BitVec.ofNat_toNat, BitVec.setWidth_eq], rfl, by simp; omega⟩
theorem cas (d : BitVec 4) (a : BitVec 4) (b : BitVec 4) (n : BitVec 1) : Statement (.cas d a b n) :=
  ⟨_, rfl, by simp only [BitVec.ofNat_toNat, BitVec.setWidth_eq], rfl, by simp; omega⟩
theorem famo (d : BitVec 4) (a : BitVec 4) (b : BitVec 4) (o : BitVec 4) : Statement (.famo d a b o) :=
  ⟨_, rfl, by simp only [BitVec.ofNat_toNat, BitVec.setWidth_eq], rfl, by simp; omega⟩
theorem red (a : BitVec 4) (b : BitVec 4) (o : BitVec 4) (n : BitVec 1) : Statement (.red a b o n) :=
  ⟨_, rfl, by simp only [BitVec.ofNat_toNat, BitVec.setWidth_eq], rfl, by simp; omega⟩
theorem fred (a : BitVec 4) (b : BitVec 4) (o : BitVec 4) : Statement (.fred a b o) :=
  ⟨_, rfl, by simp only [BitVec.ofNat_toNat, BitVec.setWidth_eq], rfl, by simp; omega⟩
theorem vred (d : BitVec 4) (a : BitVec 4) (b : BitVec 4) (k : BitVec 3) (o : BitVec 4) : Statement (.vred d a b k o) :=
  ⟨_, rfl, by simp only [BitVec.ofNat_toNat, BitVec.setWidth_eq], rfl, by simp; omega⟩
theorem mma (n : BitVec 2) (m : BitVec 2) (a : BitVec 4) (f : BitVec 4) (s : BitVec 1) (c : BitVec 1) : Statement (.mma n m a f s c) :=
  ⟨_, rfl, by simp only [BitVec.ofNat_toNat, BitVec.setWidth_eq], rfl, by simp; omega⟩
theorem mlda (n : BitVec 2) (a : BitVec 4) (f : BitVec 4) (k : BitVec 1) : Statement (.mlda n a f k) :=
  ⟨_, rfl, by simp only [BitVec.ofNat_toNat, BitVec.setWidth_eq], rfl, by simp; omega⟩
theorem mldb (a : BitVec 4) (b : BitVec 4) (f : BitVec 4) (c : BitVec 1) : Statement (.mldb a b f c) :=
  ⟨_, rfl, by simp only [BitVec.ofNat_toNat, BitVec.setWidth_eq], rfl, by simp; omega⟩
theorem mdrain (n : BitVec 2) (a : BitVec 4) (s : BitVec 3) (f : BitVec 4) (m : BitVec 3) (c : BitVec 1) (t : BitVec 1) (k : BitVec 1) : Statement (.mdrain n a s f m c t k) :=
  ⟨_, rfl, by simp only [BitVec.ofNat_toNat, BitVec.setWidth_eq], rfl, by simp; omega⟩
theorem mown (l : BitVec 1) : Statement (.mown l) :=
  ⟨_, rfl, by simp only [BitVec.ofNat_toNat, BitVec.setWidth_eq], rfl, by simp; omega⟩
theorem mzero (n : BitVec 2) : Statement (.mzero n) :=
  ⟨_, rfl, by simp only [BitVec.ofNat_toNat, BitVec.setWidth_eq], rfl, by simp; omega⟩
theorem msacc (d : BitVec 2) (s : BitVec 2) (a : BitVec 4) : Statement (.msacc d s a) :=
  ⟨_, rfl, by simp only [BitVec.ofNat_toNat, BitVec.setWidth_eq], rfl, by simp; omega⟩
theorem mswap (n : BitVec 2) (a : BitVec 4) : Statement (.mswap n a) :=
  ⟨_, rfl, by simp only [BitVec.ofNat_toNat, BitVec.setWidth_eq], rfl, by simp; omega⟩
theorem mflag (d : BitVec 4) (n : BitVec 2) : Statement (.mflag d n) :=
  ⟨_, rfl, by simp only [BitVec.ofNat_toNat, BitVec.setWidth_eq], rfl, by simp; omega⟩
theorem pcfg (a : BitVec 4) : Statement (.pcfg a) :=
  ⟨_, rfl, by simp only [BitVec.ofNat_toNat, BitVec.setWidth_eq], rfl, by simp; omega⟩
theorem pstep (d : BitVec 3) (a : BitVec 3) (b : BitVec 3) : Statement (.pstep d a b) :=
  ⟨_, rfl, by simp only [BitVec.ofNat_toNat, BitVec.setWidth_eq], rfl, by simp; omega⟩
theorem pfade (a : BitVec 4) : Statement (.pfade a) :=
  ⟨_, rfl, by simp only [BitVec.ofNat_toNat, BitVec.setWidth_eq], rfl, by simp; omega⟩
theorem prwd (a : BitVec 4) (b : BitVec 4) (r : BitVec 1) : Statement (.prwd a b r) :=
  ⟨_, rfl, by simp only [BitVec.ofNat_toNat, BitVec.setWidth_eq], rfl, by simp; omega⟩
theorem pgate (a : BitVec 4) : Statement (.pgate a) :=
  ⟨_, rfl, by simp only [BitVec.ofNat_toNat, BitVec.setWidth_eq], rfl, by simp; omega⟩
theorem prd (d : BitVec 4) (a : BitVec 4) : Statement (.prd d a) :=
  ⟨_, rfl, by simp only [BitVec.ofNat_toNat, BitVec.setWidth_eq], rfl, by simp; omega⟩
theorem pwr (a : BitVec 4) (b : BitVec 4) : Statement (.pwr a b) :=
  ⟨_, rfl, by simp only [BitVec.ofNat_toNat, BitVec.setWidth_eq], rfl, by simp; omega⟩
theorem pstat (d : BitVec 4) : Statement (.pstat d) :=
  ⟨_, rfl, by simp only [BitVec.ofNat_toNat, BitVec.setWidth_eq], rfl, by simp; omega⟩
theorem nwalk (a : BitVec 4) (b : BitVec 4) (p : BitVec 2) (n : BitVec 4) : Statement (.nwalk a b p n) :=
  ⟨_, rfl, by simp only [BitVec.ofNat_toNat, BitVec.setWidth_eq], rfl, by simp; omega⟩
theorem nadd (a : BitVec 4) (b : BitVec 4) (p : BitVec 2) (n : BitVec 4) : Statement (.nadd a b p n) :=
  ⟨_, rfl, by simp only [BitVec.ofNat_toNat, BitVec.setWidth_eq], rfl, by simp; omega⟩
theorem nupd (a : BitVec 4) (b : BitVec 4) (p : BitVec 2) (n : BitVec 4) : Statement (.nupd a b p n) :=
  ⟨_, rfl, by simp only [BitVec.ofNat_toNat, BitVec.setWidth_eq], rfl, by simp; omega⟩
theorem bred (d : BitVec 4) (a : BitVec 4) (p : BitVec 2) (n : BitVec 4) : Statement (.bred d a p n) :=
  ⟨_, rfl, by simp only [BitVec.ofNat_toNat, BitVec.setWidth_eq], rfl, by simp; omega⟩
theorem bpoll (d : BitVec 4) (a : BitVec 4) : Statement (.bpoll d a) :=
  ⟨_, rfl, by simp only [BitVec.ofNat_toNat, BitVec.setWidth_eq], rfl, by simp; omega⟩
theorem take (d : BitVec 4) (a : BitVec 4) : Statement (.take d a) :=
  ⟨_, rfl, by simp only [BitVec.ofNat_toNat, BitVec.setWidth_eq], rfl, by simp; omega⟩
theorem takeb (d : BitVec 4) (a : BitVec 4) (b : BitVec 4) : Statement (.takeb d a b) :=
  ⟨_, rfl, by simp only [BitVec.ofNat_toNat, BitVec.setWidth_eq], rfl, by simp; omega⟩
theorem nsave (a : BitVec 4) (b : BitVec 4) : Statement (.nsave a b) :=
  ⟨_, rfl, by simp only [BitVec.ofNat_toNat, BitVec.setWidth_eq], rfl, by simp; omega⟩
theorem nrest (a : BitVec 4) (b : BitVec 4) : Statement (.nrest a b) :=
  ⟨_, rfl, by simp only [BitVec.ofNat_toNat, BitVec.setWidth_eq], rfl, by simp; omega⟩
theorem nreset (a : BitVec 4) (b : BitVec 4) : Statement (.nreset a b) :=
  ⟨_, rfl, by simp only [BitVec.ofNat_toNat, BitVec.setWidth_eq], rfl, by simp; omega⟩
theorem stata (a : BitVec 4) (b : BitVec 4) : Statement (.stata a b) :=
  ⟨_, rfl, by simp only [BitVec.ofNat_toNat, BitVec.setWidth_eq], rfl, by simp; omega⟩
theorem statc (a : BitVec 4) : Statement (.statc a) :=
  ⟨_, rfl, by simp only [BitVec.ofNat_toNat, BitVec.setWidth_eq], rfl, by simp; omega⟩
theorem statl (n : BitVec 3) (a : BitVec 4) (b : BitVec 4) (h : BitVec 2) (c : BitVec 3) : Statement (.statl n a b h c) :=
  ⟨_, rfl, by simp only [BitVec.ofNat_toNat, BitVec.setWidth_eq], rfl, by simp; omega⟩
theorem statr (d : BitVec 4) (a : BitVec 4) (b : BitVec 4) : Statement (.statr d a b) :=
  ⟨_, rfl, by simp only [BitVec.ofNat_toNat, BitVec.setWidth_eq], rfl, by simp; omega⟩
theorem evcfg (a : BitVec 4) : Statement (.evcfg a) :=
  ⟨_, rfl, by simp only [BitVec.ofNat_toNat, BitVec.setWidth_eq], rfl, by simp; omega⟩
theorem evpulse (l : BitVec 3) : Statement (.evpulse l) :=
  ⟨_, rfl, by simp only [BitVec.ofNat_toNat, BitVec.setWidth_eq], rfl, by simp; omega⟩
theorem evrd (d : BitVec 4) (a : BitVec 4) : Statement (.evrd d a) :=
  ⟨_, rfl, by simp only [BitVec.ofNat_toNat, BitVec.setWidth_eq], rfl, by simp; omega⟩
theorem actw (a : BitVec 4) (b : BitVec 4) : Statement (.actw a b) :=
  ⟨_, rfl, by simp only [BitVec.ofNat_toNat, BitVec.setWidth_eq], rfl, by simp; omega⟩
theorem haltp (a : BitVec 4) : Statement (.haltp a) :=
  ⟨_, rfl, by simp only [BitVec.ofNat_toNat, BitVec.setWidth_eq], rfl, by simp; omega⟩
theorem resumep (a : BitVec 4) : Statement (.resumep a) :=
  ⟨_, rfl, by simp only [BitVec.ofNat_toNat, BitVec.setWidth_eq], rfl, by simp; omega⟩
theorem ctxsv (d : BitVec 4) (a : BitVec 4) (u : BitVec 1) : Statement (.ctxsv d a u) :=
  ⟨_, rfl, by simp only [BitVec.ofNat_toNat, BitVec.setWidth_eq], rfl, by simp; omega⟩
theorem ctxld (d : BitVec 4) (a : BitVec 4) (u : BitVec 1) : Statement (.ctxld d a u) :=
  ⟨_, rfl, by simp only [BitVec.ofNat_toNat, BitVec.setWidth_eq], rfl, by simp; omega⟩
theorem mod (u : BitVec 1) (r : BitVec 1) (q : BitVec 1) (p : BitVec 1) (s : BitVec 6) (t : BitVec 2) : Statement (.mod u r q p s t) :=
  ⟨_, rfl, by simp only [BitVec.ofNat_toNat, BitVec.setWidth_eq], rfl, by simp; omega⟩
theorem vaddF32 (d : BitVec 4) (s : BitVec 4) : Statement (.vaddF32 d s) :=
  ⟨_, rfl, by simp only [BitVec.ofNat_toNat, BitVec.setWidth_eq], rfl, by simp; omega⟩
theorem vsubF32 (d : BitVec 4) (s : BitVec 4) : Statement (.vsubF32 d s) :=
  ⟨_, rfl, by simp only [BitVec.ofNat_toNat, BitVec.setWidth_eq], rfl, by simp; omega⟩
theorem vmulF32 (d : BitVec 4) (s : BitVec 4) : Statement (.vmulF32 d s) :=
  ⟨_, rfl, by simp only [BitVec.ofNat_toNat, BitVec.setWidth_eq], rfl, by simp; omega⟩
theorem vmaxF32 (d : BitVec 4) (s : BitVec 4) : Statement (.vmaxF32 d s) :=
  ⟨_, rfl, by simp only [BitVec.ofNat_toNat, BitVec.setWidth_eq], rfl, by simp; omega⟩
theorem vminF32 (d : BitVec 4) (s : BitVec 4) : Statement (.vminF32 d s) :=
  ⟨_, rfl, by simp only [BitVec.ofNat_toNat, BitVec.setWidth_eq], rfl, by simp; omega⟩
theorem viadd16 (d : BitVec 4) (s : BitVec 4) : Statement (.viadd16 d s) :=
  ⟨_, rfl, by simp only [BitVec.ofNat_toNat, BitVec.setWidth_eq], rfl, by simp; omega⟩
theorem visub16 (d : BitVec 4) (s : BitVec 4) : Statement (.visub16 d s) :=
  ⟨_, rfl, by simp only [BitVec.ofNat_toNat, BitVec.setWidth_eq], rfl, by simp; omega⟩
theorem vand16 (d : BitVec 4) (s : BitVec 4) : Statement (.vand16 d s) :=
  ⟨_, rfl, by simp only [BitVec.ofNat_toNat, BitVec.setWidth_eq], rfl, by simp; omega⟩
theorem vor16 (d : BitVec 4) (s : BitVec 4) : Statement (.vor16 d s) :=
  ⟨_, rfl, by simp only [BitVec.ofNat_toNat, BitVec.setWidth_eq], rfl, by simp; omega⟩
theorem vxor16 (d : BitVec 4) (s : BitVec 4) : Statement (.vxor16 d s) :=
  ⟨_, rfl, by simp only [BitVec.ofNat_toNat, BitVec.setWidth_eq], rfl, by simp; omega⟩
theorem vshl16 (d : BitVec 4) (s : BitVec 4) : Statement (.vshl16 d s) :=
  ⟨_, rfl, by simp only [BitVec.ofNat_toNat, BitVec.setWidth_eq], rfl, by simp; omega⟩
theorem vshr16 (d : BitVec 4) (s : BitVec 4) : Statement (.vshr16 d s) :=
  ⟨_, rfl, by simp only [BitVec.ofNat_toNat, BitVec.setWidth_eq], rfl, by simp; omega⟩
theorem vmov16 (d : BitVec 4) (s : BitVec 4) : Statement (.vmov16 d s) :=
  ⟨_, rfl, by simp only [BitVec.ofNat_toNat, BitVec.setWidth_eq], rfl, by simp; omega⟩
theorem vnegF32 (d : BitVec 4) (s : BitVec 4) : Statement (.vnegF32 d s) :=
  ⟨_, rfl, by simp only [BitVec.ofNat_toNat, BitVec.setWidth_eq], rfl, by simp; omega⟩
theorem vabsF32 (d : BitVec 4) (s : BitVec 4) : Statement (.vabsF32 d s) :=
  ⟨_, rfl, by simp only [BitVec.ofNat_toNat, BitVec.setWidth_eq], rfl, by simp; omega⟩
theorem vfmac (d : BitVec 4) (s : BitVec 4) : Statement (.vfmac d s) :=
  ⟨_, rfl, by simp only [BitVec.ofNat_toNat, BitVec.setWidth_eq], rfl, by simp; omega⟩
theorem mov16 (x : BitVec 4) (y : BitVec 4) : Statement (.mov16 x y) :=
  ⟨_, rfl, by simp only [BitVec.ofNat_toNat, BitVec.setWidth_eq], rfl, by simp; omega⟩
theorem add16 (x : BitVec 4) (y : BitVec 4) : Statement (.add16 x y) :=
  ⟨_, rfl, by simp only [BitVec.ofNat_toNat, BitVec.setWidth_eq], rfl, by simp; omega⟩
theorem sub16 (x : BitVec 4) (y : BitVec 4) : Statement (.sub16 x y) :=
  ⟨_, rfl, by simp only [BitVec.ofNat_toNat, BitVec.setWidth_eq], rfl, by simp; omega⟩
theorem and16 (x : BitVec 4) (y : BitVec 4) : Statement (.and16 x y) :=
  ⟨_, rfl, by simp only [BitVec.ofNat_toNat, BitVec.setWidth_eq], rfl, by simp; omega⟩
theorem or16 (x : BitVec 4) (y : BitVec 4) : Statement (.or16 x y) :=
  ⟨_, rfl, by simp only [BitVec.ofNat_toNat, BitVec.setWidth_eq], rfl, by simp; omega⟩
theorem addi4 (x : BitVec 4) (i : BitVec 4) : Statement (.addi4 x i) :=
  ⟨_, rfl, by simp only [BitVec.ofNat_toNat, BitVec.setWidth_eq], rfl, by simp; omega⟩
theorem shli4 (x : BitVec 4) (i : BitVec 4) : Statement (.shli4 x i) :=
  ⟨_, rfl, by simp only [BitVec.ofNat_toNat, BitVec.setWidth_eq], rfl, by simp; omega⟩
theorem shri4 (x : BitVec 4) (i : BitVec 4) : Statement (.shri4 x i) :=
  ⟨_, rfl, by simp only [BitVec.ofNat_toNat, BitVec.setWidth_eq], rfl, by simp; omega⟩
theorem ldd8 (x : BitVec 4) (i : BitVec 4) : Statement (.ldd8 x i) :=
  ⟨_, rfl, by simp only [BitVec.ofNat_toNat, BitVec.setWidth_eq], rfl, by simp; omega⟩
theorem std8 (x : BitVec 4) (i : BitVec 4) : Statement (.std8 x i) :=
  ⟨_, rfl, by simp only [BitVec.ofNat_toNat, BitVec.setWidth_eq], rfl, by simp; omega⟩
theorem bz (x : BitVec 4) (i : BitVec 4) (h : BitVec 1) : Statement (.bz x i h) :=
  ⟨_, rfl, by simp only [BitVec.ofNat_toNat, BitVec.setWidth_eq], rfl, by simp; omega⟩
theorem bnz (x : BitVec 4) (i : BitVec 4) (h : BitVec 1) : Statement (.bnz x i h) :=
  ⟨_, rfl, by simp only [BitVec.ofNat_toNat, BitVec.setWidth_eq], rfl, by simp; omega⟩
theorem jr16 (y : BitVec 4) : Statement (.jr16 y) :=
  ⟨_, rfl, by simp only [BitVec.ofNat_toNat, BitVec.setWidth_eq], rfl, by simp; omega⟩
theorem callr16 (y : BitVec 4) : Statement (.callr16 y) :=
  ⟨_, rfl, by simp only [BitVec.ofNat_toNat, BitVec.setWidth_eq], rfl, by simp; omega⟩
theorem eret : Statement .eret := ⟨_, rfl, rfl, rfl, by simp⟩
theorem ifence : Statement .ifence := ⟨_, rfl, rfl, rfl, by simp⟩
theorem endTask : Statement .endTask := ⟨_, rfl, rfl, rfl, by simp⟩
theorem gdis : Statement .gdis := ⟨_, rfl, rfl, rfl, by simp⟩
theorem join : Statement .join := ⟨_, rfl, rfl, rfl, by simp⟩
theorem detach : Statement .detach := ⟨_, rfl, rfl, rfl, by simp⟩
theorem fencel : Statement .fencel := ⟨_, rfl, rfl, rfl, by simp⟩
theorem nfence : Statement .nfence := ⟨_, rfl, rfl, rfl, by simp⟩
theorem yield1 : Statement .yield1 := ⟨_, rfl, rfl, rfl, by simp⟩
theorem end16 : Statement .end16 := ⟨_, rfl, rfl, rfl, by simp⟩
theorem deckWaitComplete : Statement .deckWaitComplete := trivial
theorem copyTagWaitComplete : Statement .copyTagWaitComplete := trivial
theorem fencehTargetDrain : Statement .fencehTargetDrain := trivial
theorem mownExecute : Statement .mownExecute := trivial
theorem mldaExecute : Statement .mldaExecute := trivial
theorem mldbExecute : Statement .mldbExecute := trivial
theorem mmaExecute : Statement .mmaExecute := trivial
theorem mmaBcRound : Statement .mmaBcRound := trivial
theorem mdrainExecute : Statement .mdrainExecute := trivial
theorem mzeroExecute : Statement .mzeroExecute := trivial
theorem msaccExecute : Statement .msaccExecute := trivial
theorem mswapExecute : Statement .mswapExecute := trivial
theorem mflagExecute : Statement .mflagExecute := trivial
theorem pcfgExecute : Statement .pcfgExecute := trivial
theorem stepStart : Statement .stepStart := trivial
theorem stepRetire : Statement .stepRetire := trivial
theorem fade : Statement .fade := trivial
theorem rewardArrival : Statement .rewardArrival := trivial
theorem rewardApply : Statement .rewardApply := trivial
theorem gateApply : Statement .gateApply := trivial
theorem nfenceComplete : Statement .nfenceComplete := trivial
theorem walkerCommandStart : Statement .walkerCommandStart := trivial
theorem walkerGranule : Statement .walkerGranule := trivial
theorem walkerComplete : Statement .walkerComplete := trivial
theorem breJobStart : Statement .breJobStart := trivial
theorem breGranule : Statement .breGranule := trivial
theorem breJobComplete : Statement .breJobComplete := trivial
theorem balancerToken : Statement .balancerToken := trivial
theorem outputCounter : Statement .outputCounter := trivial
theorem networkQuiet : Statement .networkQuiet := trivial
theorem statisticsPartial : Statement .statisticsPartial := trivial
theorem evxPulse : Statement .evxPulse := trivial
theorem loadReturn : Statement .loadReturn := trivial
theorem storeAtHome : Statement .storeAtHome := trivial
theorem replicaUpdateApply : Statement .replicaUpdateApply := trivial
theorem atomicAtHome : Statement .atomicAtHome := trivial
theorem l2wpWrite : Statement .l2wpWrite := trivial
theorem waysChangeComplete : Statement .waysChangeComplete := trivial
theorem decrementMessage : Statement .decrementMessage := trivial
theorem readyMessage : Statement .readyMessage := trivial
theorem spillRefill : Statement .spillRefill := trivial
theorem farEntryObtained : Statement .farEntryObtained := trivial
theorem taskBind : Statement .taskBind := trivial
theorem priorityRaise : Statement .priorityRaise := trivial
theorem dwbPark : Statement .dwbPark := trivial
theorem parkedThreadWake : Statement .parkedThreadWake := trivial
theorem spinParkWake : Statement .spinParkWake := trivial
theorem spinParkTimeout : Statement .spinParkTimeout := trivial
theorem yieldDeadline : Statement .yieldDeadline := trivial
theorem migrationArrival : Statement .migrationArrival := trivial
theorem joinReconverge : Statement .joinReconverge := trivial
theorem copyCommandStart : Statement .copyCommandStart := trivial
theorem copyGranule : Statement .copyGranule := trivial
theorem copyComplete : Statement .copyComplete := trivial
theorem streamOpenFlit : Statement .streamOpenFlit := trivial
theorem streamFlitLand : Statement .streamFlitLand := trivial
theorem streamCloseMarker : Statement .streamCloseMarker := trivial
theorem packetArrival : Statement .packetArrival := trivial
theorem landingServer : Statement .landingServer := trivial
theorem hostPacketWrite : Statement .hostPacketWrite := trivial
theorem hostStatusRead : Statement .hostStatusRead := trivial
theorem hostMemoryRead : Statement .hostMemoryRead := trivial
theorem hostMemoryWrite : Statement .hostMemoryWrite := trivial
theorem createPartition : Statement .createPartition := trivial
theorem loadImage : Statement .loadImage := trivial
theorem halt : Statement .halt := trivial
theorem resume : Statement .resume := trivial
theorem release : Statement .release := trivial
theorem attest : Statement .attest := trivial
theorem snapshot : Statement .snapshot := trivial
theorem restore : Statement .restore := trivial
theorem readMonitorLog : Statement .readMonitorLog := trivial
theorem readMarginHistory : Statement .readMarginHistory := trivial
theorem boot : Statement .boot := trivial
theorem peerFailure : Statement .peerFailure := trivial
theorem flitResend : Statement .flitResend := trivial
theorem vfStep : Statement .vfStep := trivial
theorem refreshAdjust : Statement .refreshAdjust := trivial
theorem marginMeasure : Statement .marginMeasure := trivial
theorem l2WriteBack : Statement .l2WriteBack := trivial
theorem linkEqualisation : Statement .linkEqualisation := trivial
theorem walkerPlacement : Statement .walkerPlacement := trivial
theorem domainFormation : Statement .domainFormation := trivial

end Sys2Proof.Laws.Codec
end

