-- ==== Sys2Proof/Laws/Results.lean ====
section
/-!
SUPPORT. What counting an event, drawing random bits, and writing the results on their way can do.
-/
namespace Sys2Proof.Machine

open Sys2Proof

/-! ### Tables -/

/-- An entry just put is found. -/
theorem Table.find_put_self {α : Type} (k : Nat) (v : α) : ∀ t : Table α, Table.find k (Table.put k v t) = some v
  | [] => by simp [Table.put, Table.find]
  | (i, x) :: t => by
    simp only [Table.put]
    split
    · rw [Table.find, if_neg (by omega), Table.find_put_self k v t]
    · split <;> simp [Table.find]

/-- Putting an entry leaves the others. -/
theorem Table.find_put_ne {α : Type} (k j : Nat) (v : α) (h : j ≠ k) : ∀ t : Table α, Table.find j (Table.put k v t) = Table.find j t
  | [] => by simp [Table.put, Table.find, Ne.symm h]
  | (i, x) :: t => by
    simp only [Table.put]
    split
    · simp only [Table.find, Table.find_put_ne k j v h t]
    · split
      · rename_i h1; subst h1; simp [Table.find, Ne.symm h]
      · simp [Table.find, Ne.symm h]

/-- A core record just set. -/
@[simp] theorem State.core_setCore_self (s : State) (c : Nat) (x : Core) : (s.setCore c x).core c = x := by
  simp [State.core, State.setCore, Table.find_put_self]

/-- Setting a core's record leaves the other cores. -/
theorem State.core_setCore_ne (s : State) (c d : Nat) (x : Core) (h : d ≠ c) : (s.setCore c x).core d = s.core d := by
  simp [State.core, State.setCore, Table.find_put_ne _ _ _ h]

/-! ### Counting an event (17 R352) -/

/-- A change of the focus thread leaves the cores. -/
@[simp] theorem core_onTh (f : Thread → Thread) (s : State) (c : Nat) : (s.onTh f).core c = s.core c := rfl

/-- Counting an event does nothing, or gives one core other performance counters. -/
theorem count_cases (e : Nat) (s : State) :
    s.count e = s ∨ ∃ q, s.count e = s.setCore s.th.core { s.core s.th.core with pmc := q } := by
  simp only [State.count, countEvent]
  split
  · exact .inr ⟨_, rfl⟩
  · exact .inl rfl

/-- Counting an event changes performance counters of one core only. -/
theorem count_frame (e : Nat) (s : State) : s.count e = { s with cores := (s.count e).cores } ∧ SameCores s (s.count e) := by
  obtain h | ⟨p, h⟩ := count_cases e s
  · rw [h]; exact ⟨rfl, fun c => rfl⟩
  · rw [h]
    refine ⟨rfl, fun c => ?_⟩
    by_cases hc : c = s.th.core
    · subst hc; simp
    · rw [State.core_setCore_ne _ _ _ _ hc]

/-- Counting an event does not see a change of the focus thread that keeps its core and privilege. -/
theorem count_onTh (e : Nat) (s : State) (f : Thread → Thread) (h1 : (f s.th).core = s.th.core) (h2 : (f s.th).priv = s.th.priv) :
    (s.onTh f).count e = (s.count e).onTh f := by
  have h : ∀ c p, countEvent c p e (s.onTh f) = (countEvent c p e s).onTh f := by
    intro c p
    simp only [countEvent, core_onTh]
    by_cases hc : (s.core c).counts p e = true
    · simp only [hc, if_true]; rfl
    · simp only [hc]; rfl
  simp only [State.count]
  rw [← h]
  simp only [State.onTh, h1, h2]

/-- Counting an event leaves the focus thread. -/
@[simp] theorem count_th (e : Nat) (s : State) : (s.count e).th = s.th := by rw [(count_frame e s).1]

/-- What an instruction of mode SR does besides its result (03 R64). -/
theorem drawsBits_bumpSrc (m : Mode) (s : State) : DrawsBits m s (bumpSrc m s) := by
  constructor
  · intro h; simp [bumpSrc, h]
  · intro h
    subst h
    have hc := count_frame 0x0E s
    refine ⟨?_, fun c => ?_⟩
    · simp only [bumpSrc, if_true]
      rw [hc.1]; rfl
    · have := hc.2 c
      simpa [bumpSrc] using this

/-- Moving past an instruction and drawing its random bits commute. -/
theorem movesPast_bumpSrc (m : Mode) (len : Nat) (s : State) : MovesPast len (bumpSrc m s) (bumpSrc m (advance len s)) := by
  by_cases hm : m = .sr
  · subst hm
    have h := movesPast_advance len (bumpSrc .sr s)
    have e : bumpSrc .sr (advance len s) = advance len (bumpSrc .sr s) := by
      have h1 := loopBack_frame s.th.instrPc (s.th.pc + BitVec.ofNat 64 len) s.th
      simp only [bumpSrc, if_true, advance]
      rw [count_onTh _ _ _ (by rw [h1]) (by rw [h1])]
      simp only [State.onTh, count_th]
      have h2 : loopBack s.th.instrPc (s.th.pc + BitVec.ofNat 64 len) { s.th with src := s.th.src + 1 }
          = { loopBack s.th.instrPc (s.th.pc + BitVec.ofNat 64 len) s.th with src := s.th.src + 1 } := by
        simp only [loopBack]
        split <;> split <;> (try split) <;> (try split) <;> rfl
      have h3 : ({ s.th with src := s.th.src + 1 } : Thread).instrPc = s.th.instrPc := rfl
      rw [h3, h2]
      rw [h1]
    rw [e]; exact h
  · simpa [bumpSrc, hm] using movesPast_advance len s

/-! ### Results reaching their registers (02 R31, R32) -/

/-- Thread `b` is `a` but for the registers that a result can reach, and for what is still on its way. -/
def ResultsOnly (a b : Thread) : Prop :=
  b = { a with
    s := b.s, v := b.v, k := b.k, sc := b.sc, lc := b.lc, lb := b.lb, le := b.le, fcsr := b.fcsr, erx := b.erx,
    src := b.src, ydl := b.ydl, reloaded := b.reloaded, trapc := b.trapc, trappc := b.trappc, trapi := b.trapi, trapop := b.trapop,
    trapa := b.trapa, trapv := b.trapv, trapst := b.trapst, tsl := b.tsl, sscr := b.sscr, pend := b.pend }

theorem ResultsOnly.refl (a : Thread) : ResultsOnly a a := rfl

theorem ResultsOnly.trans {a b c : Thread} (h1 : ResultsOnly a b) (h2 : ResultsOnly b c) : ResultsOnly a c := by
  unfold ResultsOnly at *
  rw [h2, h1]

/-- State `t` is `s` but for the focus thread's results, its core, and its grove's L2WP. -/
def ResultsOf (s t : State) : Prop := ResultsOnly s.th t.th ∧ t = { s with th := t.th, cores := t.cores, groves := t.groves }

theorem ResultsOf.refl (s : State) : ResultsOf s s := ⟨rfl, rfl⟩

theorem ResultsOf.trans {r s t : State} (h1 : ResultsOf r s) (h2 : ResultsOf s t) : ResultsOf r t :=
  ⟨h1.1.trans h2.1, by rw [h2.2, h1.2]⟩

theorem ResultsOf.ite {s a b : State} {c : Prop} [Decidable c] (h1 : ResultsOf s a) (h2 : ResultsOf s b) :
    ResultsOf s (if c then a else b) := by split <;> assumption

theorem ResultsOf.dite {s : State} {c : Prop} [Decidable c] {a : c → State} {b : ¬c → State} (h1 : ∀ h, ResultsOf s (a h))
    (h2 : ∀ h, ResultsOf s (b h)) : ResultsOf s (if h : c then a h else b h) := by
  split
  · exact h1 _
  · exact h2 _

/-- A write of L2WP changes a grove's record only. -/
theorem writeL2wp_results (g : Nat) (v : Word) (s : State) : ResultsOf s (writeL2wp g v s) :=
  ResultsOf.ite (ResultsOf.refl s) ⟨rfl, rfl⟩

/-- A control register stored changes registers only. -/
theorem csrStore_results (n : Nat) (x : Word) (s : State) : ResultsOf s (csrStore n x s) := by
  unfold csrStore
  repeat' first
    | refine ResultsOf.ite ⟨rfl, rfl⟩ ?_
    | refine ResultsOf.ite (writeL2wp_results _ _ _) ?_
    | refine ResultsOf.dite (fun _ => ⟨rfl, rfl⟩) (fun _ => ?_)
  exact ResultsOf.refl s

/-- A result that reaches its register changes registers only. -/
theorem apply_results (w : RegWrite) (s : State) : ResultsOf s (w.apply s) := by
  cases w with
  | s d x => simp only [RegWrite.apply, State.onTh, Thread.setS]; split <;> exact ⟨rfl, rfl⟩
  | v d x m => exact ⟨rfl, rfl⟩
  | k d x m => simp only [RegWrite.apply, State.onTh, Thread.setK]; split <;> exact ⟨rfl, rfl⟩
  | flags f => exact ⟨rfl, rfl⟩
  | csr n x => exact csrStore_results _ _ _
  | fcsr _ x => exact ResultsOf.trans (csrStore_results 1 x s) ⟨rfl, rfl⟩
  | loop l c b e => exact ⟨rfl, rfl⟩

/-- Results that reach their registers in turn. -/
theorem applyDue_results : ∀ (ps : List Pending) (s : State), ResultsOf s (applyDue ps s)
  | [], s => ResultsOf.refl s
  | p :: ps, s => by
    rw [applyDue]
    refine ResultsOf.trans ?_ (applyDue_results ps _)
    split
    · exact apply_results _ _
    · exact ResultsOf.refl s

/-- Issue distance that passes changes registers only. -/
theorem tick_results : ∀ (n : Nat) (s : State), ResultsOf s (tick n s)
  | 0, s => ResultsOf.refl s
  | n + 1, s => by
    rw [tick]
    refine ResultsOf.trans ?_ (tick_results n _)
    exact ResultsOf.trans ⟨rfl, rfl⟩ (applyDue_results _ _)

/-- Writing every result on its way changes registers only. -/
theorem flushPend_results (s : State) : ResultsOf s (flushPend s) := tick_results _ _

end Sys2Proof.Machine
end

