-- ==== Sys2Proof/Laws/Rows.lean ====
section
/-!
SUPPORT. The rows of the opcode map (04 R78, R91): no word has the fixed parts of two rows, and within a row the fixed bits,
the fields and the issue bits do not share a bit.
-/
namespace Sys2Proof

/-- The bits of a row's fields. -/
def fieldBits (r : Row) : Nat := r.fields.foldl (fun m f => m ||| ((2 ^ f.2 - 1) <<< f.1)) 0

/-- The fields of a row share no bit. -/
def fieldsApart (r : Row) : Bool :=
  r.fields.zipIdx.all fun p => r.fields.zipIdx.all fun q =>
    p.2 == q.2 || ((2 ^ p.1.2 - 1) <<< p.1.1) &&& ((2 ^ q.1.2 - 1) <<< q.1.1) == 0

/-- Two 32-bit rows differ in a bit that both fix. -/
theorem rows32_distinct : rows32.Pairwise (fun r q => (r.mask &&& q.mask) &&& (r.fixed ^^^ q.fixed) ≠ 0) := by decide +kernel

/-- Two 16-bit rows differ in a bit that both fix. -/
theorem rows16_distinct : rows16.Pairwise (fun r q => (r.mask &&& q.mask) &&& (r.fixed ^^^ q.fixed) ≠ 0) := by decide +kernel

/-- The fixed bits of a row lie in its mask, its fields outside it and apart from each other. -/
theorem rows_apart : (rows32 ++ rows16).all (fun r =>
    r.fixed &&& r.mask == r.fixed && r.mask &&& fieldBits r == 0 && fieldsApart r) = true := by decide +kernel

/-- A 32-bit row fixes bit 0 at 1 and lies in 32 bits; GAP and SW lie in no field, nor in the mask but of the last row. -/
theorem rows32_issue : rows32.all (fun r =>
    r.fixed % 2 == 1 && decide (r.fixed < 2 ^ 32) && decide (fieldBits r < 2 ^ 32) && fieldBits r &&& 0xE == 0
      && (r.mask &&& 0xE == 0 || r.fixed &&& 0x3F0 == 0x3F0)) = true := by decide +kernel

/-- A 16-bit row fixes bit 0 at 0 and lies in 16 bits; SW lies in no field. -/
theorem rows16_issue : rows16.all (fun r =>
    r.fixed % 2 == 0 && r.mask % 2 == 1 && decide (r.fixed < 2 ^ 16) && decide (fieldBits r < 2 ^ 16) && fieldBits r &&& 0x4000 == 0
      && r.mask &&& 0x4000 == 0) = true := by decide +kernel

end Sys2Proof
end

