-- ==== Sys2Proof/Laws/State.lean ====
section
/-!
SUPPORT. What each small update of the state leaves in each of its fields, so that no proof unfolds an update.
-/
namespace Sys2Proof.Machine

open Sys2Proof

/-! ### A change of the focus thread -/

@[simp] theorem State.onTh_th (s : State) (f : Thread → Thread) : (s.onTh f).th = f s.th := rfl
@[simp] theorem State.onTh_threads (s : State) (f : Thread → Thread) : (s.onTh f).threads = s.threads := rfl
@[simp] theorem State.onTh_cores (s : State) (f : Thread → Thread) : (s.onTh f).cores = s.cores := rfl
@[simp] theorem State.onTh_groves (s : State) (f : Thread → Thread) : (s.onTh f).groves = s.groves := rfl
@[simp] theorem State.onTh_arrays (s : State) (f : Thread → Thread) : (s.onTh f).arrays = s.arrays := rfl
@[simp] theorem State.onTh_stands (s : State) (f : Thread → Thread) : (s.onTh f).stands = s.stands := rfl
@[simp] theorem State.onTh_supers (s : State) (f : Thread → Thread) : (s.onTh f).supers = s.supers := rfl
@[simp] theorem State.onTh_parts (s : State) (f : Thread → Thread) : (s.onTh f).parts = s.parts := rfl
@[simp] theorem State.onTh_nets (s : State) (f : Thread → Thread) : (s.onTh f).nets = s.nets := rfl
@[simp] theorem State.onTh_dram (s : State) (f : Thread → Thread) : (s.onTh f).dram = s.dram := rfl
@[simp] theorem State.onTh_l2 (s : State) (f : Thread → Thread) : (s.onTh f).l2 = s.l2 := rfl
@[simp] theorem State.onTh_wt (s : State) (f : Thread → Thread) : (s.onTh f).wt = s.wt := rfl
@[simp] theorem State.onTh_tlb (s : State) (f : Thread → Thread) : (s.onTh f).tlb = s.tlb := rfl
@[simp] theorem State.onTh_checks (s : State) (f : Thread → Thread) : (s.onTh f).checks = s.checks := rfl
@[simp] theorem State.onTh_msgs (s : State) (f : Thread → Thread) : (s.onTh f).msgs = s.msgs := rfl
@[simp] theorem State.onTh_monlog (s : State) (f : Thread → Thread) : (s.onTh f).monlog = s.monlog := rfl
@[simp] theorem State.onTh_monDropped (s : State) (f : Thread → Thread) : (s.onTh f).monDropped = s.monDropped := rfl
@[simp] theorem State.onTh_monSeq (s : State) (f : Thread → Thread) : (s.onTh f).monSeq = s.monSeq := rfl
@[simp] theorem State.onTh_booted (s : State) (f : Thread → Thread) : (s.onTh f).booted = s.booted := rfl
@[simp] theorem State.onTh_bootReason (s : State) (f : Thread → Thread) : (s.onTh f).bootReason = s.bootReason := rfl
@[simp] theorem State.onTh_measure (s : State) (f : Thread → Thread) : (s.onTh f).measure = s.measure := rfl
@[simp] theorem State.onTh_mail (s : State) (f : Thread → Thread) : (s.onTh f).mail = s.mail := rfl
@[simp] theorem State.onTh_response (s : State) (f : Thread → Thread) : (s.onTh f).response = s.response := rfl
@[simp] theorem State.onTh_pkg (s : State) (f : Thread → Thread) : (s.onTh f).pkg = s.pkg := rfl
@[simp] theorem State.onTh_domain (s : State) (f : Thread → Thread) : (s.onTh f).domain = s.domain := rfl
@[simp] theorem State.onTh_failed (s : State) (f : Thread → Thread) : (s.onTh f).failed = s.failed := rfl
@[simp] theorem State.onTh_placement (s : State) (f : Thread → Thread) : (s.onTh f).placement = s.placement := rfl
@[simp] theorem State.onTh_margins (s : State) (f : Thread → Thread) : (s.onTh f).margins = s.margins := rfl
@[simp] theorem State.onTh_taps (s : State) (f : Thread → Thread) : (s.onTh f).taps = s.taps := rfl
@[simp] theorem State.onTh_bad (s : State) (f : Thread → Thread) : (s.onTh f).bad = s.bad := rfl
@[simp] theorem State.onTh_transients (s : State) (f : Thread → Thread) : (s.onTh f).transients = s.transients := rfl
@[simp] theorem State.onTh_corrected (s : State) (f : Thread → Thread) : (s.onTh f).corrected = s.corrected := rfl
@[simp] theorem State.onTh_mixed (s : State) (f : Thread → Thread) : (s.onTh f).mixed = s.mixed := rfl
@[simp] theorem State.onTh_snaps (s : State) (f : Thread → Thread) : (s.onTh f).snaps = s.snaps := rfl
@[simp] theorem State.onTh_arg (s : State) (f : Thread → Thread) : (s.onTh f).arg = s.arg := rfl
@[simp] theorem State.onTh_agenda (s : State) (f : Thread → Thread) : (s.onTh f).agenda = s.agenda := rfl
@[simp] theorem State.onTh_cycle (s : State) (f : Thread → Thread) : (s.onTh f).cycle = s.cycle := rfl
@[simp] theorem State.onTh_free (s : State) (f : Thread → Thread) : (s.onTh f).free = s.free := rfl
@[simp] theorem State.onTh_fresh (s : State) (f : Thread → Thread) : (s.onTh f).fresh = s.fresh := rfl
@[simp] theorem State.onTh_get_grove (s : State) (f : Thread → Thread) (i : Nat) : (s.onTh f).grove i = s.grove i := rfl
@[simp] theorem State.onTh_get_array (s : State) (f : Thread → Thread) (i : Nat) : (s.onTh f).array i = s.array i := rfl
@[simp] theorem State.onTh_get_stand (s : State) (f : Thread → Thread) (i : Nat) : (s.onTh f).stand i = s.stand i := rfl
@[simp] theorem State.onTh_get_net (s : State) (f : Thread → Thread) (i : Nat) : (s.onTh f).net i = s.net i := rfl
@[simp] theorem State.onTh_get_part (s : State) (f : Thread → Thread) (i : Nat) : (s.onTh f).part? i = s.part? i := rfl

/-! ### Setting a core's record -/

@[simp] theorem State.setCore_th (s : State) (c : Nat) (x : Core) : (s.setCore c x).th = s.th := rfl
@[simp] theorem State.setCore_threads (s : State) (c : Nat) (x : Core) : (s.setCore c x).threads = s.threads := rfl
@[simp] theorem State.setCore_groves (s : State) (c : Nat) (x : Core) : (s.setCore c x).groves = s.groves := rfl
@[simp] theorem State.setCore_arrays (s : State) (c : Nat) (x : Core) : (s.setCore c x).arrays = s.arrays := rfl
@[simp] theorem State.setCore_stands (s : State) (c : Nat) (x : Core) : (s.setCore c x).stands = s.stands := rfl
@[simp] theorem State.setCore_supers (s : State) (c : Nat) (x : Core) : (s.setCore c x).supers = s.supers := rfl
@[simp] theorem State.setCore_parts (s : State) (c : Nat) (x : Core) : (s.setCore c x).parts = s.parts := rfl
@[simp] theorem State.setCore_nets (s : State) (c : Nat) (x : Core) : (s.setCore c x).nets = s.nets := rfl
@[simp] theorem State.setCore_dram (s : State) (c : Nat) (x : Core) : (s.setCore c x).dram = s.dram := rfl
@[simp] theorem State.setCore_l2 (s : State) (c : Nat) (x : Core) : (s.setCore c x).l2 = s.l2 := rfl
@[simp] theorem State.setCore_wt (s : State) (c : Nat) (x : Core) : (s.setCore c x).wt = s.wt := rfl
@[simp] theorem State.setCore_tlb (s : State) (c : Nat) (x : Core) : (s.setCore c x).tlb = s.tlb := rfl
@[simp] theorem State.setCore_checks (s : State) (c : Nat) (x : Core) : (s.setCore c x).checks = s.checks := rfl
@[simp] theorem State.setCore_msgs (s : State) (c : Nat) (x : Core) : (s.setCore c x).msgs = s.msgs := rfl
@[simp] theorem State.setCore_monlog (s : State) (c : Nat) (x : Core) : (s.setCore c x).monlog = s.monlog := rfl
@[simp] theorem State.setCore_monDropped (s : State) (c : Nat) (x : Core) : (s.setCore c x).monDropped = s.monDropped := rfl
@[simp] theorem State.setCore_monSeq (s : State) (c : Nat) (x : Core) : (s.setCore c x).monSeq = s.monSeq := rfl
@[simp] theorem State.setCore_booted (s : State) (c : Nat) (x : Core) : (s.setCore c x).booted = s.booted := rfl
@[simp] theorem State.setCore_bootReason (s : State) (c : Nat) (x : Core) : (s.setCore c x).bootReason = s.bootReason := rfl
@[simp] theorem State.setCore_measure (s : State) (c : Nat) (x : Core) : (s.setCore c x).measure = s.measure := rfl
@[simp] theorem State.setCore_mail (s : State) (c : Nat) (x : Core) : (s.setCore c x).mail = s.mail := rfl
@[simp] theorem State.setCore_response (s : State) (c : Nat) (x : Core) : (s.setCore c x).response = s.response := rfl
@[simp] theorem State.setCore_pkg (s : State) (c : Nat) (x : Core) : (s.setCore c x).pkg = s.pkg := rfl
@[simp] theorem State.setCore_domain (s : State) (c : Nat) (x : Core) : (s.setCore c x).domain = s.domain := rfl
@[simp] theorem State.setCore_failed (s : State) (c : Nat) (x : Core) : (s.setCore c x).failed = s.failed := rfl
@[simp] theorem State.setCore_placement (s : State) (c : Nat) (x : Core) : (s.setCore c x).placement = s.placement := rfl
@[simp] theorem State.setCore_margins (s : State) (c : Nat) (x : Core) : (s.setCore c x).margins = s.margins := rfl
@[simp] theorem State.setCore_taps (s : State) (c : Nat) (x : Core) : (s.setCore c x).taps = s.taps := rfl
@[simp] theorem State.setCore_bad (s : State) (c : Nat) (x : Core) : (s.setCore c x).bad = s.bad := rfl
@[simp] theorem State.setCore_transients (s : State) (c : Nat) (x : Core) : (s.setCore c x).transients = s.transients := rfl
@[simp] theorem State.setCore_corrected (s : State) (c : Nat) (x : Core) : (s.setCore c x).corrected = s.corrected := rfl
@[simp] theorem State.setCore_mixed (s : State) (c : Nat) (x : Core) : (s.setCore c x).mixed = s.mixed := rfl
@[simp] theorem State.setCore_snaps (s : State) (c : Nat) (x : Core) : (s.setCore c x).snaps = s.snaps := rfl
@[simp] theorem State.setCore_arg (s : State) (c : Nat) (x : Core) : (s.setCore c x).arg = s.arg := rfl
@[simp] theorem State.setCore_agenda (s : State) (c : Nat) (x : Core) : (s.setCore c x).agenda = s.agenda := rfl
@[simp] theorem State.setCore_cycle (s : State) (c : Nat) (x : Core) : (s.setCore c x).cycle = s.cycle := rfl
@[simp] theorem State.setCore_free (s : State) (c : Nat) (x : Core) : (s.setCore c x).free = s.free := rfl
@[simp] theorem State.setCore_fresh (s : State) (c : Nat) (x : Core) : (s.setCore c x).fresh = s.fresh := rfl
@[simp] theorem State.setCore_get_grove (s : State) (c : Nat) (x : Core) (i : Nat) : (s.setCore c x).grove i = s.grove i := rfl
@[simp] theorem State.setCore_get_array (s : State) (c : Nat) (x : Core) (i : Nat) : (s.setCore c x).array i = s.array i := rfl
@[simp] theorem State.setCore_get_stand (s : State) (c : Nat) (x : Core) (i : Nat) : (s.setCore c x).stand i = s.stand i := rfl
@[simp] theorem State.setCore_get_net (s : State) (c : Nat) (x : Core) (i : Nat) : (s.setCore c x).net i = s.net i := rfl
@[simp] theorem State.setCore_get_part (s : State) (c : Nat) (x : Core) (i : Nat) : (s.setCore c x).part? i = s.part? i := rfl

/-! ### Setting a grove's record -/

@[simp] theorem State.setGrove_th (s : State) (g : Nat) (x : Grove) : (s.setGrove g x).th = s.th := rfl
@[simp] theorem State.setGrove_threads (s : State) (g : Nat) (x : Grove) : (s.setGrove g x).threads = s.threads := rfl
@[simp] theorem State.setGrove_cores (s : State) (g : Nat) (x : Grove) : (s.setGrove g x).cores = s.cores := rfl
@[simp] theorem State.setGrove_arrays (s : State) (g : Nat) (x : Grove) : (s.setGrove g x).arrays = s.arrays := rfl
@[simp] theorem State.setGrove_stands (s : State) (g : Nat) (x : Grove) : (s.setGrove g x).stands = s.stands := rfl
@[simp] theorem State.setGrove_supers (s : State) (g : Nat) (x : Grove) : (s.setGrove g x).supers = s.supers := rfl
@[simp] theorem State.setGrove_parts (s : State) (g : Nat) (x : Grove) : (s.setGrove g x).parts = s.parts := rfl
@[simp] theorem State.setGrove_nets (s : State) (g : Nat) (x : Grove) : (s.setGrove g x).nets = s.nets := rfl
@[simp] theorem State.setGrove_dram (s : State) (g : Nat) (x : Grove) : (s.setGrove g x).dram = s.dram := rfl
@[simp] theorem State.setGrove_l2 (s : State) (g : Nat) (x : Grove) : (s.setGrove g x).l2 = s.l2 := rfl
@[simp] theorem State.setGrove_wt (s : State) (g : Nat) (x : Grove) : (s.setGrove g x).wt = s.wt := rfl
@[simp] theorem State.setGrove_tlb (s : State) (g : Nat) (x : Grove) : (s.setGrove g x).tlb = s.tlb := rfl
@[simp] theorem State.setGrove_checks (s : State) (g : Nat) (x : Grove) : (s.setGrove g x).checks = s.checks := rfl
@[simp] theorem State.setGrove_msgs (s : State) (g : Nat) (x : Grove) : (s.setGrove g x).msgs = s.msgs := rfl
@[simp] theorem State.setGrove_monlog (s : State) (g : Nat) (x : Grove) : (s.setGrove g x).monlog = s.monlog := rfl
@[simp] theorem State.setGrove_monDropped (s : State) (g : Nat) (x : Grove) : (s.setGrove g x).monDropped = s.monDropped := rfl
@[simp] theorem State.setGrove_monSeq (s : State) (g : Nat) (x : Grove) : (s.setGrove g x).monSeq = s.monSeq := rfl
@[simp] theorem State.setGrove_booted (s : State) (g : Nat) (x : Grove) : (s.setGrove g x).booted = s.booted := rfl
@[simp] theorem State.setGrove_bootReason (s : State) (g : Nat) (x : Grove) : (s.setGrove g x).bootReason = s.bootReason := rfl
@[simp] theorem State.setGrove_measure (s : State) (g : Nat) (x : Grove) : (s.setGrove g x).measure = s.measure := rfl
@[simp] theorem State.setGrove_mail (s : State) (g : Nat) (x : Grove) : (s.setGrove g x).mail = s.mail := rfl
@[simp] theorem State.setGrove_response (s : State) (g : Nat) (x : Grove) : (s.setGrove g x).response = s.response := rfl
@[simp] theorem State.setGrove_pkg (s : State) (g : Nat) (x : Grove) : (s.setGrove g x).pkg = s.pkg := rfl
@[simp] theorem State.setGrove_domain (s : State) (g : Nat) (x : Grove) : (s.setGrove g x).domain = s.domain := rfl
@[simp] theorem State.setGrove_failed (s : State) (g : Nat) (x : Grove) : (s.setGrove g x).failed = s.failed := rfl
@[simp] theorem State.setGrove_placement (s : State) (g : Nat) (x : Grove) : (s.setGrove g x).placement = s.placement := rfl
@[simp] theorem State.setGrove_margins (s : State) (g : Nat) (x : Grove) : (s.setGrove g x).margins = s.margins := rfl
@[simp] theorem State.setGrove_taps (s : State) (g : Nat) (x : Grove) : (s.setGrove g x).taps = s.taps := rfl
@[simp] theorem State.setGrove_bad (s : State) (g : Nat) (x : Grove) : (s.setGrove g x).bad = s.bad := rfl
@[simp] theorem State.setGrove_transients (s : State) (g : Nat) (x : Grove) : (s.setGrove g x).transients = s.transients := rfl
@[simp] theorem State.setGrove_corrected (s : State) (g : Nat) (x : Grove) : (s.setGrove g x).corrected = s.corrected := rfl
@[simp] theorem State.setGrove_mixed (s : State) (g : Nat) (x : Grove) : (s.setGrove g x).mixed = s.mixed := rfl
@[simp] theorem State.setGrove_snaps (s : State) (g : Nat) (x : Grove) : (s.setGrove g x).snaps = s.snaps := rfl
@[simp] theorem State.setGrove_arg (s : State) (g : Nat) (x : Grove) : (s.setGrove g x).arg = s.arg := rfl
@[simp] theorem State.setGrove_agenda (s : State) (g : Nat) (x : Grove) : (s.setGrove g x).agenda = s.agenda := rfl
@[simp] theorem State.setGrove_cycle (s : State) (g : Nat) (x : Grove) : (s.setGrove g x).cycle = s.cycle := rfl
@[simp] theorem State.setGrove_free (s : State) (g : Nat) (x : Grove) : (s.setGrove g x).free = s.free := rfl
@[simp] theorem State.setGrove_fresh (s : State) (g : Nat) (x : Grove) : (s.setGrove g x).fresh = s.fresh := rfl
@[simp] theorem State.setGrove_get_core (s : State) (g : Nat) (x : Grove) (i : Nat) : (s.setGrove g x).core i = s.core i := rfl
@[simp] theorem State.setGrove_get_array (s : State) (g : Nat) (x : Grove) (i : Nat) : (s.setGrove g x).array i = s.array i := rfl
@[simp] theorem State.setGrove_get_stand (s : State) (g : Nat) (x : Grove) (i : Nat) : (s.setGrove g x).stand i = s.stand i := rfl
@[simp] theorem State.setGrove_get_net (s : State) (g : Nat) (x : Grove) (i : Nat) : (s.setGrove g x).net i = s.net i := rfl
@[simp] theorem State.setGrove_get_part (s : State) (g : Nat) (x : Grove) (i : Nat) : (s.setGrove g x).part? i = s.part? i := rfl

/-! ### Setting an array's record -/

@[simp] theorem State.setArray_th (s : State) (a : Nat) (x : MArray) : (s.setArray a x).th = s.th := rfl
@[simp] theorem State.setArray_threads (s : State) (a : Nat) (x : MArray) : (s.setArray a x).threads = s.threads := rfl
@[simp] theorem State.setArray_cores (s : State) (a : Nat) (x : MArray) : (s.setArray a x).cores = s.cores := rfl
@[simp] theorem State.setArray_groves (s : State) (a : Nat) (x : MArray) : (s.setArray a x).groves = s.groves := rfl
@[simp] theorem State.setArray_stands (s : State) (a : Nat) (x : MArray) : (s.setArray a x).stands = s.stands := rfl
@[simp] theorem State.setArray_supers (s : State) (a : Nat) (x : MArray) : (s.setArray a x).supers = s.supers := rfl
@[simp] theorem State.setArray_parts (s : State) (a : Nat) (x : MArray) : (s.setArray a x).parts = s.parts := rfl
@[simp] theorem State.setArray_nets (s : State) (a : Nat) (x : MArray) : (s.setArray a x).nets = s.nets := rfl
@[simp] theorem State.setArray_dram (s : State) (a : Nat) (x : MArray) : (s.setArray a x).dram = s.dram := rfl
@[simp] theorem State.setArray_l2 (s : State) (a : Nat) (x : MArray) : (s.setArray a x).l2 = s.l2 := rfl
@[simp] theorem State.setArray_wt (s : State) (a : Nat) (x : MArray) : (s.setArray a x).wt = s.wt := rfl
@[simp] theorem State.setArray_tlb (s : State) (a : Nat) (x : MArray) : (s.setArray a x).tlb = s.tlb := rfl
@[simp] theorem State.setArray_checks (s : State) (a : Nat) (x : MArray) : (s.setArray a x).checks = s.checks := rfl
@[simp] theorem State.setArray_msgs (s : State) (a : Nat) (x : MArray) : (s.setArray a x).msgs = s.msgs := rfl
@[simp] theorem State.setArray_monlog (s : State) (a : Nat) (x : MArray) : (s.setArray a x).monlog = s.monlog := rfl
@[simp] theorem State.setArray_monDropped (s : State) (a : Nat) (x : MArray) : (s.setArray a x).monDropped = s.monDropped := rfl
@[simp] theorem State.setArray_monSeq (s : State) (a : Nat) (x : MArray) : (s.setArray a x).monSeq = s.monSeq := rfl
@[simp] theorem State.setArray_booted (s : State) (a : Nat) (x : MArray) : (s.setArray a x).booted = s.booted := rfl
@[simp] theorem State.setArray_bootReason (s : State) (a : Nat) (x : MArray) : (s.setArray a x).bootReason = s.bootReason := rfl
@[simp] theorem State.setArray_measure (s : State) (a : Nat) (x : MArray) : (s.setArray a x).measure = s.measure := rfl
@[simp] theorem State.setArray_mail (s : State) (a : Nat) (x : MArray) : (s.setArray a x).mail = s.mail := rfl
@[simp] theorem State.setArray_response (s : State) (a : Nat) (x : MArray) : (s.setArray a x).response = s.response := rfl
@[simp] theorem State.setArray_pkg (s : State) (a : Nat) (x : MArray) : (s.setArray a x).pkg = s.pkg := rfl
@[simp] theorem State.setArray_domain (s : State) (a : Nat) (x : MArray) : (s.setArray a x).domain = s.domain := rfl
@[simp] theorem State.setArray_failed (s : State) (a : Nat) (x : MArray) : (s.setArray a x).failed = s.failed := rfl
@[simp] theorem State.setArray_placement (s : State) (a : Nat) (x : MArray) : (s.setArray a x).placement = s.placement := rfl
@[simp] theorem State.setArray_margins (s : State) (a : Nat) (x : MArray) : (s.setArray a x).margins = s.margins := rfl
@[simp] theorem State.setArray_taps (s : State) (a : Nat) (x : MArray) : (s.setArray a x).taps = s.taps := rfl
@[simp] theorem State.setArray_bad (s : State) (a : Nat) (x : MArray) : (s.setArray a x).bad = s.bad := rfl
@[simp] theorem State.setArray_transients (s : State) (a : Nat) (x : MArray) : (s.setArray a x).transients = s.transients := rfl
@[simp] theorem State.setArray_corrected (s : State) (a : Nat) (x : MArray) : (s.setArray a x).corrected = s.corrected := rfl
@[simp] theorem State.setArray_mixed (s : State) (a : Nat) (x : MArray) : (s.setArray a x).mixed = s.mixed := rfl
@[simp] theorem State.setArray_snaps (s : State) (a : Nat) (x : MArray) : (s.setArray a x).snaps = s.snaps := rfl
@[simp] theorem State.setArray_arg (s : State) (a : Nat) (x : MArray) : (s.setArray a x).arg = s.arg := rfl
@[simp] theorem State.setArray_agenda (s : State) (a : Nat) (x : MArray) : (s.setArray a x).agenda = s.agenda := rfl
@[simp] theorem State.setArray_cycle (s : State) (a : Nat) (x : MArray) : (s.setArray a x).cycle = s.cycle := rfl
@[simp] theorem State.setArray_free (s : State) (a : Nat) (x : MArray) : (s.setArray a x).free = s.free := rfl
@[simp] theorem State.setArray_fresh (s : State) (a : Nat) (x : MArray) : (s.setArray a x).fresh = s.fresh := rfl
@[simp] theorem State.setArray_get_core (s : State) (a : Nat) (x : MArray) (i : Nat) : (s.setArray a x).core i = s.core i := rfl
@[simp] theorem State.setArray_get_grove (s : State) (a : Nat) (x : MArray) (i : Nat) : (s.setArray a x).grove i = s.grove i := rfl
@[simp] theorem State.setArray_get_stand (s : State) (a : Nat) (x : MArray) (i : Nat) : (s.setArray a x).stand i = s.stand i := rfl
@[simp] theorem State.setArray_get_net (s : State) (a : Nat) (x : MArray) (i : Nat) : (s.setArray a x).net i = s.net i := rfl
@[simp] theorem State.setArray_get_part (s : State) (a : Nat) (x : MArray) (i : Nat) : (s.setArray a x).part? i = s.part? i := rfl

/-! ### Setting a stand's record -/

@[simp] theorem State.setStand_th (s : State) (n : Nat) (x : Stand) : (s.setStand n x).th = s.th := rfl
@[simp] theorem State.setStand_threads (s : State) (n : Nat) (x : Stand) : (s.setStand n x).threads = s.threads := rfl
@[simp] theorem State.setStand_cores (s : State) (n : Nat) (x : Stand) : (s.setStand n x).cores = s.cores := rfl
@[simp] theorem State.setStand_groves (s : State) (n : Nat) (x : Stand) : (s.setStand n x).groves = s.groves := rfl
@[simp] theorem State.setStand_arrays (s : State) (n : Nat) (x : Stand) : (s.setStand n x).arrays = s.arrays := rfl
@[simp] theorem State.setStand_supers (s : State) (n : Nat) (x : Stand) : (s.setStand n x).supers = s.supers := rfl
@[simp] theorem State.setStand_parts (s : State) (n : Nat) (x : Stand) : (s.setStand n x).parts = s.parts := rfl
@[simp] theorem State.setStand_nets (s : State) (n : Nat) (x : Stand) : (s.setStand n x).nets = s.nets := rfl
@[simp] theorem State.setStand_dram (s : State) (n : Nat) (x : Stand) : (s.setStand n x).dram = s.dram := rfl
@[simp] theorem State.setStand_l2 (s : State) (n : Nat) (x : Stand) : (s.setStand n x).l2 = s.l2 := rfl
@[simp] theorem State.setStand_wt (s : State) (n : Nat) (x : Stand) : (s.setStand n x).wt = s.wt := rfl
@[simp] theorem State.setStand_tlb (s : State) (n : Nat) (x : Stand) : (s.setStand n x).tlb = s.tlb := rfl
@[simp] theorem State.setStand_checks (s : State) (n : Nat) (x : Stand) : (s.setStand n x).checks = s.checks := rfl
@[simp] theorem State.setStand_msgs (s : State) (n : Nat) (x : Stand) : (s.setStand n x).msgs = s.msgs := rfl
@[simp] theorem State.setStand_monlog (s : State) (n : Nat) (x : Stand) : (s.setStand n x).monlog = s.monlog := rfl
@[simp] theorem State.setStand_monDropped (s : State) (n : Nat) (x : Stand) : (s.setStand n x).monDropped = s.monDropped := rfl
@[simp] theorem State.setStand_monSeq (s : State) (n : Nat) (x : Stand) : (s.setStand n x).monSeq = s.monSeq := rfl
@[simp] theorem State.setStand_booted (s : State) (n : Nat) (x : Stand) : (s.setStand n x).booted = s.booted := rfl
@[simp] theorem State.setStand_bootReason (s : State) (n : Nat) (x : Stand) : (s.setStand n x).bootReason = s.bootReason := rfl
@[simp] theorem State.setStand_measure (s : State) (n : Nat) (x : Stand) : (s.setStand n x).measure = s.measure := rfl
@[simp] theorem State.setStand_mail (s : State) (n : Nat) (x : Stand) : (s.setStand n x).mail = s.mail := rfl
@[simp] theorem State.setStand_response (s : State) (n : Nat) (x : Stand) : (s.setStand n x).response = s.response := rfl
@[simp] theorem State.setStand_pkg (s : State) (n : Nat) (x : Stand) : (s.setStand n x).pkg = s.pkg := rfl
@[simp] theorem State.setStand_domain (s : State) (n : Nat) (x : Stand) : (s.setStand n x).domain = s.domain := rfl
@[simp] theorem State.setStand_failed (s : State) (n : Nat) (x : Stand) : (s.setStand n x).failed = s.failed := rfl
@[simp] theorem State.setStand_placement (s : State) (n : Nat) (x : Stand) : (s.setStand n x).placement = s.placement := rfl
@[simp] theorem State.setStand_margins (s : State) (n : Nat) (x : Stand) : (s.setStand n x).margins = s.margins := rfl
@[simp] theorem State.setStand_taps (s : State) (n : Nat) (x : Stand) : (s.setStand n x).taps = s.taps := rfl
@[simp] theorem State.setStand_bad (s : State) (n : Nat) (x : Stand) : (s.setStand n x).bad = s.bad := rfl
@[simp] theorem State.setStand_transients (s : State) (n : Nat) (x : Stand) : (s.setStand n x).transients = s.transients := rfl
@[simp] theorem State.setStand_corrected (s : State) (n : Nat) (x : Stand) : (s.setStand n x).corrected = s.corrected := rfl
@[simp] theorem State.setStand_mixed (s : State) (n : Nat) (x : Stand) : (s.setStand n x).mixed = s.mixed := rfl
@[simp] theorem State.setStand_snaps (s : State) (n : Nat) (x : Stand) : (s.setStand n x).snaps = s.snaps := rfl
@[simp] theorem State.setStand_arg (s : State) (n : Nat) (x : Stand) : (s.setStand n x).arg = s.arg := rfl
@[simp] theorem State.setStand_agenda (s : State) (n : Nat) (x : Stand) : (s.setStand n x).agenda = s.agenda := rfl
@[simp] theorem State.setStand_cycle (s : State) (n : Nat) (x : Stand) : (s.setStand n x).cycle = s.cycle := rfl
@[simp] theorem State.setStand_free (s : State) (n : Nat) (x : Stand) : (s.setStand n x).free = s.free := rfl
@[simp] theorem State.setStand_fresh (s : State) (n : Nat) (x : Stand) : (s.setStand n x).fresh = s.fresh := rfl
@[simp] theorem State.setStand_get_core (s : State) (n : Nat) (x : Stand) (i : Nat) : (s.setStand n x).core i = s.core i := rfl
@[simp] theorem State.setStand_get_grove (s : State) (n : Nat) (x : Stand) (i : Nat) : (s.setStand n x).grove i = s.grove i := rfl
@[simp] theorem State.setStand_get_array (s : State) (n : Nat) (x : Stand) (i : Nat) : (s.setStand n x).array i = s.array i := rfl
@[simp] theorem State.setStand_get_net (s : State) (n : Nat) (x : Stand) (i : Nat) : (s.setStand n x).net i = s.net i := rfl
@[simp] theorem State.setStand_get_part (s : State) (n : Nat) (x : Stand) (i : Nat) : (s.setStand n x).part? i = s.part? i := rfl

/-! ### Setting a network's record -/

@[simp] theorem State.setNet_th (s : State) (n : Nat) (x : Net) : (s.setNet n x).th = s.th := rfl
@[simp] theorem State.setNet_threads (s : State) (n : Nat) (x : Net) : (s.setNet n x).threads = s.threads := rfl
@[simp] theorem State.setNet_cores (s : State) (n : Nat) (x : Net) : (s.setNet n x).cores = s.cores := rfl
@[simp] theorem State.setNet_groves (s : State) (n : Nat) (x : Net) : (s.setNet n x).groves = s.groves := rfl
@[simp] theorem State.setNet_arrays (s : State) (n : Nat) (x : Net) : (s.setNet n x).arrays = s.arrays := rfl
@[simp] theorem State.setNet_stands (s : State) (n : Nat) (x : Net) : (s.setNet n x).stands = s.stands := rfl
@[simp] theorem State.setNet_supers (s : State) (n : Nat) (x : Net) : (s.setNet n x).supers = s.supers := rfl
@[simp] theorem State.setNet_parts (s : State) (n : Nat) (x : Net) : (s.setNet n x).parts = s.parts := rfl
@[simp] theorem State.setNet_dram (s : State) (n : Nat) (x : Net) : (s.setNet n x).dram = s.dram := rfl
@[simp] theorem State.setNet_l2 (s : State) (n : Nat) (x : Net) : (s.setNet n x).l2 = s.l2 := rfl
@[simp] theorem State.setNet_wt (s : State) (n : Nat) (x : Net) : (s.setNet n x).wt = s.wt := rfl
@[simp] theorem State.setNet_tlb (s : State) (n : Nat) (x : Net) : (s.setNet n x).tlb = s.tlb := rfl
@[simp] theorem State.setNet_checks (s : State) (n : Nat) (x : Net) : (s.setNet n x).checks = s.checks := rfl
@[simp] theorem State.setNet_msgs (s : State) (n : Nat) (x : Net) : (s.setNet n x).msgs = s.msgs := rfl
@[simp] theorem State.setNet_monlog (s : State) (n : Nat) (x : Net) : (s.setNet n x).monlog = s.monlog := rfl
@[simp] theorem State.setNet_monDropped (s : State) (n : Nat) (x : Net) : (s.setNet n x).monDropped = s.monDropped := rfl
@[simp] theorem State.setNet_monSeq (s : State) (n : Nat) (x : Net) : (s.setNet n x).monSeq = s.monSeq := rfl
@[simp] theorem State.setNet_booted (s : State) (n : Nat) (x : Net) : (s.setNet n x).booted = s.booted := rfl
@[simp] theorem State.setNet_bootReason (s : State) (n : Nat) (x : Net) : (s.setNet n x).bootReason = s.bootReason := rfl
@[simp] theorem State.setNet_measure (s : State) (n : Nat) (x : Net) : (s.setNet n x).measure = s.measure := rfl
@[simp] theorem State.setNet_mail (s : State) (n : Nat) (x : Net) : (s.setNet n x).mail = s.mail := rfl
@[simp] theorem State.setNet_response (s : State) (n : Nat) (x : Net) : (s.setNet n x).response = s.response := rfl
@[simp] theorem State.setNet_pkg (s : State) (n : Nat) (x : Net) : (s.setNet n x).pkg = s.pkg := rfl
@[simp] theorem State.setNet_domain (s : State) (n : Nat) (x : Net) : (s.setNet n x).domain = s.domain := rfl
@[simp] theorem State.setNet_failed (s : State) (n : Nat) (x : Net) : (s.setNet n x).failed = s.failed := rfl
@[simp] theorem State.setNet_placement (s : State) (n : Nat) (x : Net) : (s.setNet n x).placement = s.placement := rfl
@[simp] theorem State.setNet_margins (s : State) (n : Nat) (x : Net) : (s.setNet n x).margins = s.margins := rfl
@[simp] theorem State.setNet_taps (s : State) (n : Nat) (x : Net) : (s.setNet n x).taps = s.taps := rfl
@[simp] theorem State.setNet_bad (s : State) (n : Nat) (x : Net) : (s.setNet n x).bad = s.bad := rfl
@[simp] theorem State.setNet_transients (s : State) (n : Nat) (x : Net) : (s.setNet n x).transients = s.transients := rfl
@[simp] theorem State.setNet_corrected (s : State) (n : Nat) (x : Net) : (s.setNet n x).corrected = s.corrected := rfl
@[simp] theorem State.setNet_mixed (s : State) (n : Nat) (x : Net) : (s.setNet n x).mixed = s.mixed := rfl
@[simp] theorem State.setNet_snaps (s : State) (n : Nat) (x : Net) : (s.setNet n x).snaps = s.snaps := rfl
@[simp] theorem State.setNet_arg (s : State) (n : Nat) (x : Net) : (s.setNet n x).arg = s.arg := rfl
@[simp] theorem State.setNet_agenda (s : State) (n : Nat) (x : Net) : (s.setNet n x).agenda = s.agenda := rfl
@[simp] theorem State.setNet_cycle (s : State) (n : Nat) (x : Net) : (s.setNet n x).cycle = s.cycle := rfl
@[simp] theorem State.setNet_free (s : State) (n : Nat) (x : Net) : (s.setNet n x).free = s.free := rfl
@[simp] theorem State.setNet_fresh (s : State) (n : Nat) (x : Net) : (s.setNet n x).fresh = s.fresh := rfl
@[simp] theorem State.setNet_get_core (s : State) (n : Nat) (x : Net) (i : Nat) : (s.setNet n x).core i = s.core i := rfl
@[simp] theorem State.setNet_get_grove (s : State) (n : Nat) (x : Net) (i : Nat) : (s.setNet n x).grove i = s.grove i := rfl
@[simp] theorem State.setNet_get_array (s : State) (n : Nat) (x : Net) (i : Nat) : (s.setNet n x).array i = s.array i := rfl
@[simp] theorem State.setNet_get_stand (s : State) (n : Nat) (x : Net) (i : Nat) : (s.setNet n x).stand i = s.stand i := rfl
@[simp] theorem State.setNet_get_part (s : State) (n : Nat) (x : Net) (i : Nat) : (s.setNet n x).part? i = s.part? i := rfl

/-! ### Setting a partition -/

@[simp] theorem State.setPart_th (s : State) (p : Nat) (x : Part) : (s.setPart p x).th = s.th := rfl
@[simp] theorem State.setPart_threads (s : State) (p : Nat) (x : Part) : (s.setPart p x).threads = s.threads := rfl
@[simp] theorem State.setPart_cores (s : State) (p : Nat) (x : Part) : (s.setPart p x).cores = s.cores := rfl
@[simp] theorem State.setPart_groves (s : State) (p : Nat) (x : Part) : (s.setPart p x).groves = s.groves := rfl
@[simp] theorem State.setPart_arrays (s : State) (p : Nat) (x : Part) : (s.setPart p x).arrays = s.arrays := rfl
@[simp] theorem State.setPart_stands (s : State) (p : Nat) (x : Part) : (s.setPart p x).stands = s.stands := rfl
@[simp] theorem State.setPart_supers (s : State) (p : Nat) (x : Part) : (s.setPart p x).supers = s.supers := rfl
@[simp] theorem State.setPart_nets (s : State) (p : Nat) (x : Part) : (s.setPart p x).nets = s.nets := rfl
@[simp] theorem State.setPart_dram (s : State) (p : Nat) (x : Part) : (s.setPart p x).dram = s.dram := rfl
@[simp] theorem State.setPart_l2 (s : State) (p : Nat) (x : Part) : (s.setPart p x).l2 = s.l2 := rfl
@[simp] theorem State.setPart_wt (s : State) (p : Nat) (x : Part) : (s.setPart p x).wt = s.wt := rfl
@[simp] theorem State.setPart_tlb (s : State) (p : Nat) (x : Part) : (s.setPart p x).tlb = s.tlb := rfl
@[simp] theorem State.setPart_checks (s : State) (p : Nat) (x : Part) : (s.setPart p x).checks = s.checks := rfl
@[simp] theorem State.setPart_msgs (s : State) (p : Nat) (x : Part) : (s.setPart p x).msgs = s.msgs := rfl
@[simp] theorem State.setPart_monlog (s : State) (p : Nat) (x : Part) : (s.setPart p x).monlog = s.monlog := rfl
@[simp] theorem State.setPart_monDropped (s : State) (p : Nat) (x : Part) : (s.setPart p x).monDropped = s.monDropped := rfl
@[simp] theorem State.setPart_monSeq (s : State) (p : Nat) (x : Part) : (s.setPart p x).monSeq = s.monSeq := rfl
@[simp] theorem State.setPart_booted (s : State) (p : Nat) (x : Part) : (s.setPart p x).booted = s.booted := rfl
@[simp] theorem State.setPart_bootReason (s : State) (p : Nat) (x : Part) : (s.setPart p x).bootReason = s.bootReason := rfl
@[simp] theorem State.setPart_measure (s : State) (p : Nat) (x : Part) : (s.setPart p x).measure = s.measure := rfl
@[simp] theorem State.setPart_mail (s : State) (p : Nat) (x : Part) : (s.setPart p x).mail = s.mail := rfl
@[simp] theorem State.setPart_response (s : State) (p : Nat) (x : Part) : (s.setPart p x).response = s.response := rfl
@[simp] theorem State.setPart_pkg (s : State) (p : Nat) (x : Part) : (s.setPart p x).pkg = s.pkg := rfl
@[simp] theorem State.setPart_domain (s : State) (p : Nat) (x : Part) : (s.setPart p x).domain = s.domain := rfl
@[simp] theorem State.setPart_failed (s : State) (p : Nat) (x : Part) : (s.setPart p x).failed = s.failed := rfl
@[simp] theorem State.setPart_placement (s : State) (p : Nat) (x : Part) : (s.setPart p x).placement = s.placement := rfl
@[simp] theorem State.setPart_margins (s : State) (p : Nat) (x : Part) : (s.setPart p x).margins = s.margins := rfl
@[simp] theorem State.setPart_taps (s : State) (p : Nat) (x : Part) : (s.setPart p x).taps = s.taps := rfl
@[simp] theorem State.setPart_bad (s : State) (p : Nat) (x : Part) : (s.setPart p x).bad = s.bad := rfl
@[simp] theorem State.setPart_transients (s : State) (p : Nat) (x : Part) : (s.setPart p x).transients = s.transients := rfl
@[simp] theorem State.setPart_corrected (s : State) (p : Nat) (x : Part) : (s.setPart p x).corrected = s.corrected := rfl
@[simp] theorem State.setPart_mixed (s : State) (p : Nat) (x : Part) : (s.setPart p x).mixed = s.mixed := rfl
@[simp] theorem State.setPart_snaps (s : State) (p : Nat) (x : Part) : (s.setPart p x).snaps = s.snaps := rfl
@[simp] theorem State.setPart_arg (s : State) (p : Nat) (x : Part) : (s.setPart p x).arg = s.arg := rfl
@[simp] theorem State.setPart_agenda (s : State) (p : Nat) (x : Part) : (s.setPart p x).agenda = s.agenda := rfl
@[simp] theorem State.setPart_cycle (s : State) (p : Nat) (x : Part) : (s.setPart p x).cycle = s.cycle := rfl
@[simp] theorem State.setPart_free (s : State) (p : Nat) (x : Part) : (s.setPart p x).free = s.free := rfl
@[simp] theorem State.setPart_fresh (s : State) (p : Nat) (x : Part) : (s.setPart p x).fresh = s.fresh := rfl
@[simp] theorem State.setPart_get_core (s : State) (p : Nat) (x : Part) (i : Nat) : (s.setPart p x).core i = s.core i := rfl
@[simp] theorem State.setPart_get_grove (s : State) (p : Nat) (x : Part) (i : Nat) : (s.setPart p x).grove i = s.grove i := rfl
@[simp] theorem State.setPart_get_array (s : State) (p : Nat) (x : Part) (i : Nat) : (s.setPart p x).array i = s.array i := rfl
@[simp] theorem State.setPart_get_stand (s : State) (p : Nat) (x : Part) (i : Nat) : (s.setPart p x).stand i = s.stand i := rfl
@[simp] theorem State.setPart_get_net (s : State) (p : Nat) (x : Part) (i : Nat) : (s.setPart p x).net i = s.net i := rfl

/-! ### Putting a message into the fabric -/

@[simp] theorem State.send_th (s : State) (t : Nat) (m : Msg) : (s.send t m).th = s.th := rfl
@[simp] theorem State.send_threads (s : State) (t : Nat) (m : Msg) : (s.send t m).threads = s.threads := rfl
@[simp] theorem State.send_cores (s : State) (t : Nat) (m : Msg) : (s.send t m).cores = s.cores := rfl
@[simp] theorem State.send_groves (s : State) (t : Nat) (m : Msg) : (s.send t m).groves = s.groves := rfl
@[simp] theorem State.send_arrays (s : State) (t : Nat) (m : Msg) : (s.send t m).arrays = s.arrays := rfl
@[simp] theorem State.send_stands (s : State) (t : Nat) (m : Msg) : (s.send t m).stands = s.stands := rfl
@[simp] theorem State.send_supers (s : State) (t : Nat) (m : Msg) : (s.send t m).supers = s.supers := rfl
@[simp] theorem State.send_parts (s : State) (t : Nat) (m : Msg) : (s.send t m).parts = s.parts := rfl
@[simp] theorem State.send_nets (s : State) (t : Nat) (m : Msg) : (s.send t m).nets = s.nets := rfl
@[simp] theorem State.send_dram (s : State) (t : Nat) (m : Msg) : (s.send t m).dram = s.dram := rfl
@[simp] theorem State.send_l2 (s : State) (t : Nat) (m : Msg) : (s.send t m).l2 = s.l2 := rfl
@[simp] theorem State.send_wt (s : State) (t : Nat) (m : Msg) : (s.send t m).wt = s.wt := rfl
@[simp] theorem State.send_tlb (s : State) (t : Nat) (m : Msg) : (s.send t m).tlb = s.tlb := rfl
@[simp] theorem State.send_checks (s : State) (t : Nat) (m : Msg) : (s.send t m).checks = s.checks := rfl
@[simp] theorem State.send_msgs (s : State) (t : Nat) (m : Msg) : (s.send t m).msgs = s.msgs ++ [⟨s.fresh, t, if t = 0 then 0 else s.srcOf t, none, m⟩] := rfl
@[simp] theorem State.send_monlog (s : State) (t : Nat) (m : Msg) : (s.send t m).monlog = s.monlog := rfl
@[simp] theorem State.send_monDropped (s : State) (t : Nat) (m : Msg) : (s.send t m).monDropped = s.monDropped := rfl
@[simp] theorem State.send_monSeq (s : State) (t : Nat) (m : Msg) : (s.send t m).monSeq = s.monSeq := rfl
@[simp] theorem State.send_booted (s : State) (t : Nat) (m : Msg) : (s.send t m).booted = s.booted := rfl
@[simp] theorem State.send_bootReason (s : State) (t : Nat) (m : Msg) : (s.send t m).bootReason = s.bootReason := rfl
@[simp] theorem State.send_measure (s : State) (t : Nat) (m : Msg) : (s.send t m).measure = s.measure := rfl
@[simp] theorem State.send_mail (s : State) (t : Nat) (m : Msg) : (s.send t m).mail = s.mail := rfl
@[simp] theorem State.send_response (s : State) (t : Nat) (m : Msg) : (s.send t m).response = s.response := rfl
@[simp] theorem State.send_pkg (s : State) (t : Nat) (m : Msg) : (s.send t m).pkg = s.pkg := rfl
@[simp] theorem State.send_domain (s : State) (t : Nat) (m : Msg) : (s.send t m).domain = s.domain := rfl
@[simp] theorem State.send_failed (s : State) (t : Nat) (m : Msg) : (s.send t m).failed = s.failed := rfl
@[simp] theorem State.send_placement (s : State) (t : Nat) (m : Msg) : (s.send t m).placement = s.placement := rfl
@[simp] theorem State.send_margins (s : State) (t : Nat) (m : Msg) : (s.send t m).margins = s.margins := rfl
@[simp] theorem State.send_taps (s : State) (t : Nat) (m : Msg) : (s.send t m).taps = s.taps := rfl
@[simp] theorem State.send_bad (s : State) (t : Nat) (m : Msg) : (s.send t m).bad = s.bad := rfl
@[simp] theorem State.send_transients (s : State) (t : Nat) (m : Msg) : (s.send t m).transients = s.transients := rfl
@[simp] theorem State.send_corrected (s : State) (t : Nat) (m : Msg) : (s.send t m).corrected = s.corrected := rfl
@[simp] theorem State.send_mixed (s : State) (t : Nat) (m : Msg) : (s.send t m).mixed = s.mixed := rfl
@[simp] theorem State.send_snaps (s : State) (t : Nat) (m : Msg) : (s.send t m).snaps = s.snaps := rfl
@[simp] theorem State.send_arg (s : State) (t : Nat) (m : Msg) : (s.send t m).arg = s.arg := rfl
@[simp] theorem State.send_agenda (s : State) (t : Nat) (m : Msg) : (s.send t m).agenda = s.agenda := rfl
@[simp] theorem State.send_cycle (s : State) (t : Nat) (m : Msg) : (s.send t m).cycle = s.cycle := rfl
@[simp] theorem State.send_free (s : State) (t : Nat) (m : Msg) : (s.send t m).free = s.free := rfl
@[simp] theorem State.send_fresh (s : State) (t : Nat) (m : Msg) : (s.send t m).fresh = s.fresh + 1 := rfl
@[simp] theorem State.send_get_core (s : State) (t : Nat) (m : Msg) (i : Nat) : (s.send t m).core i = s.core i := rfl
@[simp] theorem State.send_get_grove (s : State) (t : Nat) (m : Msg) (i : Nat) : (s.send t m).grove i = s.grove i := rfl
@[simp] theorem State.send_get_array (s : State) (t : Nat) (m : Msg) (i : Nat) : (s.send t m).array i = s.array i := rfl
@[simp] theorem State.send_get_stand (s : State) (t : Nat) (m : Msg) (i : Nat) : (s.send t m).stand i = s.stand i := rfl
@[simp] theorem State.send_get_net (s : State) (t : Nat) (m : Msg) (i : Nat) : (s.send t m).net i = s.net i := rfl
@[simp] theorem State.send_get_part (s : State) (t : Nat) (m : Msg) (i : Nat) : (s.send t m).part? i = s.part? i := rfl

/-! ### A message that is a release -/

@[simp] theorem State.sendRelease_th (s : State) (c : Nat) (m : Msg) : (s.sendRelease c m).th = s.th := rfl
@[simp] theorem State.sendRelease_threads (s : State) (c : Nat) (m : Msg) : (s.sendRelease c m).threads = s.threads := rfl
@[simp] theorem State.sendRelease_cores (s : State) (c : Nat) (m : Msg) : (s.sendRelease c m).cores = s.cores := rfl
@[simp] theorem State.sendRelease_groves (s : State) (c : Nat) (m : Msg) : (s.sendRelease c m).groves = s.groves := rfl
@[simp] theorem State.sendRelease_arrays (s : State) (c : Nat) (m : Msg) : (s.sendRelease c m).arrays = s.arrays := rfl
@[simp] theorem State.sendRelease_stands (s : State) (c : Nat) (m : Msg) : (s.sendRelease c m).stands = s.stands := rfl
@[simp] theorem State.sendRelease_supers (s : State) (c : Nat) (m : Msg) : (s.sendRelease c m).supers = s.supers := rfl
@[simp] theorem State.sendRelease_parts (s : State) (c : Nat) (m : Msg) : (s.sendRelease c m).parts = s.parts := rfl
@[simp] theorem State.sendRelease_nets (s : State) (c : Nat) (m : Msg) : (s.sendRelease c m).nets = s.nets := rfl
@[simp] theorem State.sendRelease_dram (s : State) (c : Nat) (m : Msg) : (s.sendRelease c m).dram = s.dram := rfl
@[simp] theorem State.sendRelease_l2 (s : State) (c : Nat) (m : Msg) : (s.sendRelease c m).l2 = s.l2 := rfl
@[simp] theorem State.sendRelease_wt (s : State) (c : Nat) (m : Msg) : (s.sendRelease c m).wt = s.wt := rfl
@[simp] theorem State.sendRelease_tlb (s : State) (c : Nat) (m : Msg) : (s.sendRelease c m).tlb = s.tlb := rfl
@[simp] theorem State.sendRelease_checks (s : State) (c : Nat) (m : Msg) : (s.sendRelease c m).checks = s.checks := rfl
@[simp] theorem State.sendRelease_msgs (s : State) (c : Nat) (m : Msg) : (s.sendRelease c m).msgs = s.msgs ++ [⟨s.fresh, s.th.id, s.th.core + 1, some c, m⟩] := rfl
@[simp] theorem State.sendRelease_monlog (s : State) (c : Nat) (m : Msg) : (s.sendRelease c m).monlog = s.monlog := rfl
@[simp] theorem State.sendRelease_monDropped (s : State) (c : Nat) (m : Msg) : (s.sendRelease c m).monDropped = s.monDropped := rfl
@[simp] theorem State.sendRelease_monSeq (s : State) (c : Nat) (m : Msg) : (s.sendRelease c m).monSeq = s.monSeq := rfl
@[simp] theorem State.sendRelease_booted (s : State) (c : Nat) (m : Msg) : (s.sendRelease c m).booted = s.booted := rfl
@[simp] theorem State.sendRelease_bootReason (s : State) (c : Nat) (m : Msg) : (s.sendRelease c m).bootReason = s.bootReason := rfl
@[simp] theorem State.sendRelease_measure (s : State) (c : Nat) (m : Msg) : (s.sendRelease c m).measure = s.measure := rfl
@[simp] theorem State.sendRelease_mail (s : State) (c : Nat) (m : Msg) : (s.sendRelease c m).mail = s.mail := rfl
@[simp] theorem State.sendRelease_response (s : State) (c : Nat) (m : Msg) : (s.sendRelease c m).response = s.response := rfl
@[simp] theorem State.sendRelease_pkg (s : State) (c : Nat) (m : Msg) : (s.sendRelease c m).pkg = s.pkg := rfl
@[simp] theorem State.sendRelease_domain (s : State) (c : Nat) (m : Msg) : (s.sendRelease c m).domain = s.domain := rfl
@[simp] theorem State.sendRelease_failed (s : State) (c : Nat) (m : Msg) : (s.sendRelease c m).failed = s.failed := rfl
@[simp] theorem State.sendRelease_placement (s : State) (c : Nat) (m : Msg) : (s.sendRelease c m).placement = s.placement := rfl
@[simp] theorem State.sendRelease_margins (s : State) (c : Nat) (m : Msg) : (s.sendRelease c m).margins = s.margins := rfl
@[simp] theorem State.sendRelease_taps (s : State) (c : Nat) (m : Msg) : (s.sendRelease c m).taps = s.taps := rfl
@[simp] theorem State.sendRelease_bad (s : State) (c : Nat) (m : Msg) : (s.sendRelease c m).bad = s.bad := rfl
@[simp] theorem State.sendRelease_transients (s : State) (c : Nat) (m : Msg) : (s.sendRelease c m).transients = s.transients := rfl
@[simp] theorem State.sendRelease_corrected (s : State) (c : Nat) (m : Msg) : (s.sendRelease c m).corrected = s.corrected := rfl
@[simp] theorem State.sendRelease_mixed (s : State) (c : Nat) (m : Msg) : (s.sendRelease c m).mixed = s.mixed := rfl
@[simp] theorem State.sendRelease_snaps (s : State) (c : Nat) (m : Msg) : (s.sendRelease c m).snaps = s.snaps := rfl
@[simp] theorem State.sendRelease_arg (s : State) (c : Nat) (m : Msg) : (s.sendRelease c m).arg = s.arg := rfl
@[simp] theorem State.sendRelease_agenda (s : State) (c : Nat) (m : Msg) : (s.sendRelease c m).agenda = s.agenda := rfl
@[simp] theorem State.sendRelease_cycle (s : State) (c : Nat) (m : Msg) : (s.sendRelease c m).cycle = s.cycle := rfl
@[simp] theorem State.sendRelease_free (s : State) (c : Nat) (m : Msg) : (s.sendRelease c m).free = s.free := rfl
@[simp] theorem State.sendRelease_fresh (s : State) (c : Nat) (m : Msg) : (s.sendRelease c m).fresh = s.fresh + 1 := rfl
@[simp] theorem State.sendRelease_get_core (s : State) (c : Nat) (m : Msg) (i : Nat) : (s.sendRelease c m).core i = s.core i := rfl
@[simp] theorem State.sendRelease_get_grove (s : State) (c : Nat) (m : Msg) (i : Nat) : (s.sendRelease c m).grove i = s.grove i := rfl
@[simp] theorem State.sendRelease_get_array (s : State) (c : Nat) (m : Msg) (i : Nat) : (s.sendRelease c m).array i = s.array i := rfl
@[simp] theorem State.sendRelease_get_stand (s : State) (c : Nat) (m : Msg) (i : Nat) : (s.sendRelease c m).stand i = s.stand i := rfl
@[simp] theorem State.sendRelease_get_net (s : State) (c : Nat) (m : Msg) (i : Nat) : (s.sendRelease c m).net i = s.net i := rfl
@[simp] theorem State.sendRelease_get_part (s : State) (c : Nat) (m : Msg) (i : Nat) : (s.sendRelease c m).part? i = s.part? i := rfl

/-! ### Putting a result on its way -/

@[simp] theorem State.pushW_threads (s : State) (l : Nat) (w : RegWrite) : (s.pushW l w).threads = s.threads := rfl
@[simp] theorem State.pushW_cores (s : State) (l : Nat) (w : RegWrite) : (s.pushW l w).cores = s.cores := rfl
@[simp] theorem State.pushW_groves (s : State) (l : Nat) (w : RegWrite) : (s.pushW l w).groves = s.groves := rfl
@[simp] theorem State.pushW_arrays (s : State) (l : Nat) (w : RegWrite) : (s.pushW l w).arrays = s.arrays := rfl
@[simp] theorem State.pushW_stands (s : State) (l : Nat) (w : RegWrite) : (s.pushW l w).stands = s.stands := rfl
@[simp] theorem State.pushW_supers (s : State) (l : Nat) (w : RegWrite) : (s.pushW l w).supers = s.supers := rfl
@[simp] theorem State.pushW_parts (s : State) (l : Nat) (w : RegWrite) : (s.pushW l w).parts = s.parts := rfl
@[simp] theorem State.pushW_nets (s : State) (l : Nat) (w : RegWrite) : (s.pushW l w).nets = s.nets := rfl
@[simp] theorem State.pushW_dram (s : State) (l : Nat) (w : RegWrite) : (s.pushW l w).dram = s.dram := rfl
@[simp] theorem State.pushW_l2 (s : State) (l : Nat) (w : RegWrite) : (s.pushW l w).l2 = s.l2 := rfl
@[simp] theorem State.pushW_wt (s : State) (l : Nat) (w : RegWrite) : (s.pushW l w).wt = s.wt := rfl
@[simp] theorem State.pushW_tlb (s : State) (l : Nat) (w : RegWrite) : (s.pushW l w).tlb = s.tlb := rfl
@[simp] theorem State.pushW_checks (s : State) (l : Nat) (w : RegWrite) : (s.pushW l w).checks = s.checks := rfl
@[simp] theorem State.pushW_msgs (s : State) (l : Nat) (w : RegWrite) : (s.pushW l w).msgs = s.msgs := rfl
@[simp] theorem State.pushW_monlog (s : State) (l : Nat) (w : RegWrite) : (s.pushW l w).monlog = s.monlog := rfl
@[simp] theorem State.pushW_monDropped (s : State) (l : Nat) (w : RegWrite) : (s.pushW l w).monDropped = s.monDropped := rfl
@[simp] theorem State.pushW_monSeq (s : State) (l : Nat) (w : RegWrite) : (s.pushW l w).monSeq = s.monSeq := rfl
@[simp] theorem State.pushW_booted (s : State) (l : Nat) (w : RegWrite) : (s.pushW l w).booted = s.booted := rfl
@[simp] theorem State.pushW_bootReason (s : State) (l : Nat) (w : RegWrite) : (s.pushW l w).bootReason = s.bootReason := rfl
@[simp] theorem State.pushW_measure (s : State) (l : Nat) (w : RegWrite) : (s.pushW l w).measure = s.measure := rfl
@[simp] theorem State.pushW_mail (s : State) (l : Nat) (w : RegWrite) : (s.pushW l w).mail = s.mail := rfl
@[simp] theorem State.pushW_response (s : State) (l : Nat) (w : RegWrite) : (s.pushW l w).response = s.response := rfl
@[simp] theorem State.pushW_pkg (s : State) (l : Nat) (w : RegWrite) : (s.pushW l w).pkg = s.pkg := rfl
@[simp] theorem State.pushW_domain (s : State) (l : Nat) (w : RegWrite) : (s.pushW l w).domain = s.domain := rfl
@[simp] theorem State.pushW_failed (s : State) (l : Nat) (w : RegWrite) : (s.pushW l w).failed = s.failed := rfl
@[simp] theorem State.pushW_placement (s : State) (l : Nat) (w : RegWrite) : (s.pushW l w).placement = s.placement := rfl
@[simp] theorem State.pushW_margins (s : State) (l : Nat) (w : RegWrite) : (s.pushW l w).margins = s.margins := rfl
@[simp] theorem State.pushW_taps (s : State) (l : Nat) (w : RegWrite) : (s.pushW l w).taps = s.taps := rfl
@[simp] theorem State.pushW_bad (s : State) (l : Nat) (w : RegWrite) : (s.pushW l w).bad = s.bad := rfl
@[simp] theorem State.pushW_transients (s : State) (l : Nat) (w : RegWrite) : (s.pushW l w).transients = s.transients := rfl
@[simp] theorem State.pushW_corrected (s : State) (l : Nat) (w : RegWrite) : (s.pushW l w).corrected = s.corrected := rfl
@[simp] theorem State.pushW_mixed (s : State) (l : Nat) (w : RegWrite) : (s.pushW l w).mixed = s.mixed := rfl
@[simp] theorem State.pushW_snaps (s : State) (l : Nat) (w : RegWrite) : (s.pushW l w).snaps = s.snaps := rfl
@[simp] theorem State.pushW_arg (s : State) (l : Nat) (w : RegWrite) : (s.pushW l w).arg = s.arg := rfl
@[simp] theorem State.pushW_agenda (s : State) (l : Nat) (w : RegWrite) : (s.pushW l w).agenda = s.agenda := rfl
@[simp] theorem State.pushW_cycle (s : State) (l : Nat) (w : RegWrite) : (s.pushW l w).cycle = s.cycle := rfl
@[simp] theorem State.pushW_free (s : State) (l : Nat) (w : RegWrite) : (s.pushW l w).free = s.free := rfl
@[simp] theorem State.pushW_fresh (s : State) (l : Nat) (w : RegWrite) : (s.pushW l w).fresh = s.fresh := rfl
@[simp] theorem State.pushW_get_core (s : State) (l : Nat) (w : RegWrite) (i : Nat) : (s.pushW l w).core i = s.core i := rfl
@[simp] theorem State.pushW_get_grove (s : State) (l : Nat) (w : RegWrite) (i : Nat) : (s.pushW l w).grove i = s.grove i := rfl
@[simp] theorem State.pushW_get_array (s : State) (l : Nat) (w : RegWrite) (i : Nat) : (s.pushW l w).array i = s.array i := rfl
@[simp] theorem State.pushW_get_stand (s : State) (l : Nat) (w : RegWrite) (i : Nat) : (s.pushW l w).stand i = s.stand i := rfl
@[simp] theorem State.pushW_get_net (s : State) (l : Nat) (w : RegWrite) (i : Nat) : (s.pushW l w).net i = s.net i := rfl
@[simp] theorem State.pushW_get_part (s : State) (l : Nat) (w : RegWrite) (i : Nat) : (s.pushW l w).part? i = s.part? i := rfl

/-! ### Putting a load on its way -/

@[simp] theorem State.pushLoad_threads (s : State) (d : LoadDest) (v : LoadVal) : (s.pushLoad d v).threads = s.threads := rfl
@[simp] theorem State.pushLoad_cores (s : State) (d : LoadDest) (v : LoadVal) : (s.pushLoad d v).cores = s.cores := rfl
@[simp] theorem State.pushLoad_groves (s : State) (d : LoadDest) (v : LoadVal) : (s.pushLoad d v).groves = s.groves := rfl
@[simp] theorem State.pushLoad_arrays (s : State) (d : LoadDest) (v : LoadVal) : (s.pushLoad d v).arrays = s.arrays := rfl
@[simp] theorem State.pushLoad_stands (s : State) (d : LoadDest) (v : LoadVal) : (s.pushLoad d v).stands = s.stands := rfl
@[simp] theorem State.pushLoad_supers (s : State) (d : LoadDest) (v : LoadVal) : (s.pushLoad d v).supers = s.supers := rfl
@[simp] theorem State.pushLoad_parts (s : State) (d : LoadDest) (v : LoadVal) : (s.pushLoad d v).parts = s.parts := rfl
@[simp] theorem State.pushLoad_nets (s : State) (d : LoadDest) (v : LoadVal) : (s.pushLoad d v).nets = s.nets := rfl
@[simp] theorem State.pushLoad_dram (s : State) (d : LoadDest) (v : LoadVal) : (s.pushLoad d v).dram = s.dram := rfl
@[simp] theorem State.pushLoad_l2 (s : State) (d : LoadDest) (v : LoadVal) : (s.pushLoad d v).l2 = s.l2 := rfl
@[simp] theorem State.pushLoad_wt (s : State) (d : LoadDest) (v : LoadVal) : (s.pushLoad d v).wt = s.wt := rfl
@[simp] theorem State.pushLoad_tlb (s : State) (d : LoadDest) (v : LoadVal) : (s.pushLoad d v).tlb = s.tlb := rfl
@[simp] theorem State.pushLoad_checks (s : State) (d : LoadDest) (v : LoadVal) : (s.pushLoad d v).checks = s.checks := rfl
@[simp] theorem State.pushLoad_msgs (s : State) (d : LoadDest) (v : LoadVal) : (s.pushLoad d v).msgs = s.msgs := rfl
@[simp] theorem State.pushLoad_monlog (s : State) (d : LoadDest) (v : LoadVal) : (s.pushLoad d v).monlog = s.monlog := rfl
@[simp] theorem State.pushLoad_monDropped (s : State) (d : LoadDest) (v : LoadVal) : (s.pushLoad d v).monDropped = s.monDropped := rfl
@[simp] theorem State.pushLoad_monSeq (s : State) (d : LoadDest) (v : LoadVal) : (s.pushLoad d v).monSeq = s.monSeq := rfl
@[simp] theorem State.pushLoad_booted (s : State) (d : LoadDest) (v : LoadVal) : (s.pushLoad d v).booted = s.booted := rfl
@[simp] theorem State.pushLoad_bootReason (s : State) (d : LoadDest) (v : LoadVal) : (s.pushLoad d v).bootReason = s.bootReason := rfl
@[simp] theorem State.pushLoad_measure (s : State) (d : LoadDest) (v : LoadVal) : (s.pushLoad d v).measure = s.measure := rfl
@[simp] theorem State.pushLoad_mail (s : State) (d : LoadDest) (v : LoadVal) : (s.pushLoad d v).mail = s.mail := rfl
@[simp] theorem State.pushLoad_response (s : State) (d : LoadDest) (v : LoadVal) : (s.pushLoad d v).response = s.response := rfl
@[simp] theorem State.pushLoad_pkg (s : State) (d : LoadDest) (v : LoadVal) : (s.pushLoad d v).pkg = s.pkg := rfl
@[simp] theorem State.pushLoad_domain (s : State) (d : LoadDest) (v : LoadVal) : (s.pushLoad d v).domain = s.domain := rfl
@[simp] theorem State.pushLoad_failed (s : State) (d : LoadDest) (v : LoadVal) : (s.pushLoad d v).failed = s.failed := rfl
@[simp] theorem State.pushLoad_placement (s : State) (d : LoadDest) (v : LoadVal) : (s.pushLoad d v).placement = s.placement := rfl
@[simp] theorem State.pushLoad_margins (s : State) (d : LoadDest) (v : LoadVal) : (s.pushLoad d v).margins = s.margins := rfl
@[simp] theorem State.pushLoad_taps (s : State) (d : LoadDest) (v : LoadVal) : (s.pushLoad d v).taps = s.taps := rfl
@[simp] theorem State.pushLoad_bad (s : State) (d : LoadDest) (v : LoadVal) : (s.pushLoad d v).bad = s.bad := rfl
@[simp] theorem State.pushLoad_transients (s : State) (d : LoadDest) (v : LoadVal) : (s.pushLoad d v).transients = s.transients := rfl
@[simp] theorem State.pushLoad_corrected (s : State) (d : LoadDest) (v : LoadVal) : (s.pushLoad d v).corrected = s.corrected := rfl
@[simp] theorem State.pushLoad_mixed (s : State) (d : LoadDest) (v : LoadVal) : (s.pushLoad d v).mixed = s.mixed := rfl
@[simp] theorem State.pushLoad_snaps (s : State) (d : LoadDest) (v : LoadVal) : (s.pushLoad d v).snaps = s.snaps := rfl
@[simp] theorem State.pushLoad_arg (s : State) (d : LoadDest) (v : LoadVal) : (s.pushLoad d v).arg = s.arg := rfl
@[simp] theorem State.pushLoad_agenda (s : State) (d : LoadDest) (v : LoadVal) : (s.pushLoad d v).agenda = s.agenda := rfl
@[simp] theorem State.pushLoad_cycle (s : State) (d : LoadDest) (v : LoadVal) : (s.pushLoad d v).cycle = s.cycle := rfl
@[simp] theorem State.pushLoad_free (s : State) (d : LoadDest) (v : LoadVal) : (s.pushLoad d v).free = s.free := rfl
@[simp] theorem State.pushLoad_fresh (s : State) (d : LoadDest) (v : LoadVal) : (s.pushLoad d v).fresh = s.fresh + 1 := rfl
@[simp] theorem State.pushLoad_get_core (s : State) (d : LoadDest) (v : LoadVal) (i : Nat) : (s.pushLoad d v).core i = s.core i := rfl
@[simp] theorem State.pushLoad_get_grove (s : State) (d : LoadDest) (v : LoadVal) (i : Nat) : (s.pushLoad d v).grove i = s.grove i := rfl
@[simp] theorem State.pushLoad_get_array (s : State) (d : LoadDest) (v : LoadVal) (i : Nat) : (s.pushLoad d v).array i = s.array i := rfl
@[simp] theorem State.pushLoad_get_stand (s : State) (d : LoadDest) (v : LoadVal) (i : Nat) : (s.pushLoad d v).stand i = s.stand i := rfl
@[simp] theorem State.pushLoad_get_net (s : State) (d : LoadDest) (v : LoadVal) (i : Nat) : (s.pushLoad d v).net i = s.net i := rfl
@[simp] theorem State.pushLoad_get_part (s : State) (d : LoadDest) (v : LoadVal) (i : Nat) : (s.pushLoad d v).part? i = s.part? i := rfl

/-! ### Drawing a free value -/

@[simp] theorem State.draw_th (s : State) : (s.draw).th = s.th := rfl
@[simp] theorem State.draw_threads (s : State) : (s.draw).threads = s.threads := rfl
@[simp] theorem State.draw_cores (s : State) : (s.draw).cores = s.cores := rfl
@[simp] theorem State.draw_groves (s : State) : (s.draw).groves = s.groves := rfl
@[simp] theorem State.draw_arrays (s : State) : (s.draw).arrays = s.arrays := rfl
@[simp] theorem State.draw_stands (s : State) : (s.draw).stands = s.stands := rfl
@[simp] theorem State.draw_supers (s : State) : (s.draw).supers = s.supers := rfl
@[simp] theorem State.draw_parts (s : State) : (s.draw).parts = s.parts := rfl
@[simp] theorem State.draw_nets (s : State) : (s.draw).nets = s.nets := rfl
@[simp] theorem State.draw_dram (s : State) : (s.draw).dram = s.dram := rfl
@[simp] theorem State.draw_l2 (s : State) : (s.draw).l2 = s.l2 := rfl
@[simp] theorem State.draw_wt (s : State) : (s.draw).wt = s.wt := rfl
@[simp] theorem State.draw_tlb (s : State) : (s.draw).tlb = s.tlb := rfl
@[simp] theorem State.draw_checks (s : State) : (s.draw).checks = s.checks := rfl
@[simp] theorem State.draw_msgs (s : State) : (s.draw).msgs = s.msgs := rfl
@[simp] theorem State.draw_monlog (s : State) : (s.draw).monlog = s.monlog := rfl
@[simp] theorem State.draw_monDropped (s : State) : (s.draw).monDropped = s.monDropped := rfl
@[simp] theorem State.draw_monSeq (s : State) : (s.draw).monSeq = s.monSeq := rfl
@[simp] theorem State.draw_booted (s : State) : (s.draw).booted = s.booted := rfl
@[simp] theorem State.draw_bootReason (s : State) : (s.draw).bootReason = s.bootReason := rfl
@[simp] theorem State.draw_measure (s : State) : (s.draw).measure = s.measure := rfl
@[simp] theorem State.draw_mail (s : State) : (s.draw).mail = s.mail := rfl
@[simp] theorem State.draw_response (s : State) : (s.draw).response = s.response := rfl
@[simp] theorem State.draw_pkg (s : State) : (s.draw).pkg = s.pkg := rfl
@[simp] theorem State.draw_domain (s : State) : (s.draw).domain = s.domain := rfl
@[simp] theorem State.draw_failed (s : State) : (s.draw).failed = s.failed := rfl
@[simp] theorem State.draw_placement (s : State) : (s.draw).placement = s.placement := rfl
@[simp] theorem State.draw_margins (s : State) : (s.draw).margins = s.margins := rfl
@[simp] theorem State.draw_taps (s : State) : (s.draw).taps = s.taps := rfl
@[simp] theorem State.draw_bad (s : State) : (s.draw).bad = s.bad := rfl
@[simp] theorem State.draw_transients (s : State) : (s.draw).transients = s.transients := rfl
@[simp] theorem State.draw_corrected (s : State) : (s.draw).corrected = s.corrected := rfl
@[simp] theorem State.draw_mixed (s : State) : (s.draw).mixed = s.mixed := rfl
@[simp] theorem State.draw_snaps (s : State) : (s.draw).snaps = s.snaps := rfl
@[simp] theorem State.draw_arg (s : State) : (s.draw).arg = s.arg := rfl
@[simp] theorem State.draw_agenda (s : State) : (s.draw).agenda = s.agenda := rfl
@[simp] theorem State.draw_cycle (s : State) : (s.draw).cycle = s.cycle := rfl
@[simp] theorem State.draw_free (s : State) : (s.draw).free = s.free + 1 := rfl
@[simp] theorem State.draw_fresh (s : State) : (s.draw).fresh = s.fresh := rfl
@[simp] theorem State.draw_get_core (s : State) (i : Nat) : (s.draw).core i = s.core i := rfl
@[simp] theorem State.draw_get_grove (s : State) (i : Nat) : (s.draw).grove i = s.grove i := rfl
@[simp] theorem State.draw_get_array (s : State) (i : Nat) : (s.draw).array i = s.array i := rfl
@[simp] theorem State.draw_get_stand (s : State) (i : Nat) : (s.draw).stand i = s.stand i := rfl
@[simp] theorem State.draw_get_net (s : State) (i : Nat) : (s.draw).net i = s.net i := rfl
@[simp] theorem State.draw_get_part (s : State) (i : Nat) : (s.draw).part? i = s.part? i := rfl

/-! ### Taking a message out of the fabric -/

@[simp] theorem dropMsg_th (s : State) (q : Nat) : (dropMsg q s).th = s.th := rfl
@[simp] theorem dropMsg_threads (s : State) (q : Nat) : (dropMsg q s).threads = s.threads := rfl
@[simp] theorem dropMsg_cores (s : State) (q : Nat) : (dropMsg q s).cores = s.cores := rfl
@[simp] theorem dropMsg_groves (s : State) (q : Nat) : (dropMsg q s).groves = s.groves := rfl
@[simp] theorem dropMsg_arrays (s : State) (q : Nat) : (dropMsg q s).arrays = s.arrays := rfl
@[simp] theorem dropMsg_stands (s : State) (q : Nat) : (dropMsg q s).stands = s.stands := rfl
@[simp] theorem dropMsg_supers (s : State) (q : Nat) : (dropMsg q s).supers = s.supers := rfl
@[simp] theorem dropMsg_parts (s : State) (q : Nat) : (dropMsg q s).parts = s.parts := rfl
@[simp] theorem dropMsg_nets (s : State) (q : Nat) : (dropMsg q s).nets = s.nets := rfl
@[simp] theorem dropMsg_dram (s : State) (q : Nat) : (dropMsg q s).dram = s.dram := rfl
@[simp] theorem dropMsg_l2 (s : State) (q : Nat) : (dropMsg q s).l2 = s.l2 := rfl
@[simp] theorem dropMsg_wt (s : State) (q : Nat) : (dropMsg q s).wt = s.wt := rfl
@[simp] theorem dropMsg_tlb (s : State) (q : Nat) : (dropMsg q s).tlb = s.tlb := rfl
@[simp] theorem dropMsg_checks (s : State) (q : Nat) : (dropMsg q s).checks = s.checks := rfl
@[simp] theorem dropMsg_monlog (s : State) (q : Nat) : (dropMsg q s).monlog = s.monlog := rfl
@[simp] theorem dropMsg_monDropped (s : State) (q : Nat) : (dropMsg q s).monDropped = s.monDropped := rfl
@[simp] theorem dropMsg_monSeq (s : State) (q : Nat) : (dropMsg q s).monSeq = s.monSeq := rfl
@[simp] theorem dropMsg_booted (s : State) (q : Nat) : (dropMsg q s).booted = s.booted := rfl
@[simp] theorem dropMsg_bootReason (s : State) (q : Nat) : (dropMsg q s).bootReason = s.bootReason := rfl
@[simp] theorem dropMsg_measure (s : State) (q : Nat) : (dropMsg q s).measure = s.measure := rfl
@[simp] theorem dropMsg_mail (s : State) (q : Nat) : (dropMsg q s).mail = s.mail := rfl
@[simp] theorem dropMsg_response (s : State) (q : Nat) : (dropMsg q s).response = s.response := rfl
@[simp] theorem dropMsg_pkg (s : State) (q : Nat) : (dropMsg q s).pkg = s.pkg := rfl
@[simp] theorem dropMsg_domain (s : State) (q : Nat) : (dropMsg q s).domain = s.domain := rfl
@[simp] theorem dropMsg_failed (s : State) (q : Nat) : (dropMsg q s).failed = s.failed := rfl
@[simp] theorem dropMsg_placement (s : State) (q : Nat) : (dropMsg q s).placement = s.placement := rfl
@[simp] theorem dropMsg_margins (s : State) (q : Nat) : (dropMsg q s).margins = s.margins := rfl
@[simp] theorem dropMsg_taps (s : State) (q : Nat) : (dropMsg q s).taps = s.taps := rfl
@[simp] theorem dropMsg_bad (s : State) (q : Nat) : (dropMsg q s).bad = s.bad := rfl
@[simp] theorem dropMsg_transients (s : State) (q : Nat) : (dropMsg q s).transients = s.transients := rfl
@[simp] theorem dropMsg_corrected (s : State) (q : Nat) : (dropMsg q s).corrected = s.corrected := rfl
@[simp] theorem dropMsg_mixed (s : State) (q : Nat) : (dropMsg q s).mixed = s.mixed := rfl
@[simp] theorem dropMsg_snaps (s : State) (q : Nat) : (dropMsg q s).snaps = s.snaps := rfl
@[simp] theorem dropMsg_arg (s : State) (q : Nat) : (dropMsg q s).arg = s.arg := rfl
@[simp] theorem dropMsg_agenda (s : State) (q : Nat) : (dropMsg q s).agenda = s.agenda := rfl
@[simp] theorem dropMsg_cycle (s : State) (q : Nat) : (dropMsg q s).cycle = s.cycle := rfl
@[simp] theorem dropMsg_free (s : State) (q : Nat) : (dropMsg q s).free = s.free := rfl
@[simp] theorem dropMsg_fresh (s : State) (q : Nat) : (dropMsg q s).fresh = s.fresh := rfl
@[simp] theorem dropMsg_get_core (s : State) (q : Nat) (i : Nat) : (dropMsg q s).core i = s.core i := rfl
@[simp] theorem dropMsg_get_grove (s : State) (q : Nat) (i : Nat) : (dropMsg q s).grove i = s.grove i := rfl
@[simp] theorem dropMsg_get_array (s : State) (q : Nat) (i : Nat) : (dropMsg q s).array i = s.array i := rfl
@[simp] theorem dropMsg_get_stand (s : State) (q : Nat) (i : Nat) : (dropMsg q s).stand i = s.stand i := rfl
@[simp] theorem dropMsg_get_net (s : State) (q : Nat) (i : Nat) : (dropMsg q s).net i = s.net i := rfl
@[simp] theorem dropMsg_get_part (s : State) (q : Nat) (i : Nat) : (dropMsg q s).part? i = s.part? i := rfl

/-! ### Records just set -/

@[simp] theorem State.setGrove_self (s : State) (i : Nat) (x : Grove) : (s.setGrove i x).grove i = x := by
  simp [State.grove, State.setGrove, Table.find_put_self]
theorem State.setGrove_ne (s : State) (i j : Nat) (x : Grove) (h : j ≠ i) : (s.setGrove i x).grove j = s.grove j := by
  simp [State.grove, State.setGrove, Table.find_put_ne _ _ _ h]

@[simp] theorem State.setArray_self (s : State) (i : Nat) (x : MArray) : (s.setArray i x).array i = x := by
  simp [State.array, State.setArray, Table.find_put_self]
theorem State.setArray_ne (s : State) (i j : Nat) (x : MArray) (h : j ≠ i) : (s.setArray i x).array j = s.array j := by
  simp [State.array, State.setArray, Table.find_put_ne _ _ _ h]

@[simp] theorem State.setStand_self (s : State) (i : Nat) (x : Stand) : (s.setStand i x).stand i = x := by
  simp [State.stand, State.setStand, Table.find_put_self]
theorem State.setStand_ne (s : State) (i j : Nat) (x : Stand) (h : j ≠ i) : (s.setStand i x).stand j = s.stand j := by
  simp [State.stand, State.setStand, Table.find_put_ne _ _ _ h]

@[simp] theorem State.setNet_self (s : State) (i : Nat) (x : Net) : (s.setNet i x).net i = x := by
  simp [State.net, State.setNet, Table.find_put_self]
theorem State.setNet_ne (s : State) (i j : Nat) (x : Net) (h : j ≠ i) : (s.setNet i x).net j = s.net j := by
  simp [State.net, State.setNet, Table.find_put_ne _ _ _ h]

@[simp] theorem State.setPart_self (s : State) (i : Nat) (x : Part) : (s.setPart i x).part? i = some x := by
  simp [State.part?, State.setPart, Table.find_put_self]
theorem State.setPart_ne (s : State) (i j : Nat) (x : Part) (h : j ≠ i) : (s.setPart i x).part? j = s.part? j := by
  simp [State.part?, State.setPart, Table.find_put_ne _ _ _ h]

end Sys2Proof.Machine
end

