-- ==== Sys2Proof/Tests/Slice0.lean ====
section
/-!
SUPPORT. Tests: words of every encoded instruction, written out from the encoding tables (04 R79-R91, 12 R278, 09 R238,
18 R366); an ill-formed term for each check; and states that meet the hypotheses of the statements.
-/
namespace Sys2Proof.Tests

set_option Elab.async false

open Sys2Proof Sys2Proof.Machine

/-! ### Decoding -/

/-- Each word decodes to its instruction. -/
def decodesTo (nbits : Nat) (l : List (Nat × Instr)) : Bool := l.all fun p => decodeTableWord nbits p.1 == some p.2

theorem test_decode_alu : decodesTo 32 [
    (0x00084C11, .add 3 1 2), (0x00659011, .sub 4 6 9), (0x0082D411, .and 5 11 0), (0x00DC1811, .or 6 0 7),
    (0x01395C11, .xor 7 5 14), (0x0156A011, .andn 8 10 5), (0x01B3E411, .shl 9 15 12), (0x01CD2811, .shr 10 4 3),
    (0x022A6C11, .sar 11 9 10), (0x0247B011, .mul 12 14 1), (0x02A0F411, .mulh 13 3 8), (0x02FE3811, .mulhu 14 8 15),
    (0x031B7C11, .div 15 13 6), (0x03748011, .divu 0 2 13), (0x0391C411, .rem 1 7 4), (0x03EF0811, .remu 2 12 11),
    (0x04084C11, .min 3 1 2), (0x04659011, .max 4 6 9), (0x0482D411, .minu 5 11 0), (0x04DC1811, .maxu 6 0 7),
    (0x05395C11, .slt 7 5 14), (0x0556A011, .sltu 8 10 5), (0x05B3E411, .seq 9 15 12), (0x05C15C11, .clz 7 5),
    (0x06022011, .ctz 8 8), (0x0642E411, .popc 9 11), (0x0683A811, .sextB 10 14), (0x06C06C11, .sextH 11 1),
    (0x07013011, .sextW 12 4), (0x077A5011, .sel 4 9 14)] = true := by decide +kernel

theorem test_decode_alu_imm : decodesTo 32 [
    (0xFFFF4821, .addi 2 13 16383), (0x7FFF0C31, .andi 3 12 8191), (0x8002D041, .ori 4 11 8192),
    (0x00169451, .xori 5 10 5), (0x00FE5861, .shli 6 9 63), (0x00061C71, .shri 7 8 1), (0x0081E081, .sari 8 7 32),
    (0xFECDA491, .slti 9 6 16307), (0x80001CA1, .lui 7 131072), (0x7FFFE0B1, .adpc 8 131071)] = true := by decide +kernel

theorem test_decode_fpu : decodesTo 32 [
    (0x00258CC1, .fadd 3 6 9 0), (0x22258CC1, .fsub 3 6 9 1), (0x44258CC1, .fmul 3 6 9 2), (0x66258CC1, .ffma 3 6 9 3),
    (0xE8258CC1, .fdiv 3 6 9 7), (0x8A018CC1, .fsqrt 3 6 4), (0x0C258CC1, .fmin 3 6 9), (0x0E258CC1, .fmax 3 6 9),
    (0x101950C1, .fcmpEq 4 5 6), (0x105950C1, .fcmpLt 4 5 6), (0x109950C1, .fcmpLe 4 5 6),
    (0x120150C1, .fcvtF32I32 4 5 0), (0x324150C1, .fcvtI32F32 4 5 1), (0x528150C1, .fcvtF32I64 4 5 2),
    (0x72C150C1, .fcvtI64F32 4 5 3), (0x140150C1, .fclass 4 5), (0x160150C1, .fmov 4 5), (0x181950C1, .fsgnCp 4 5 6),
    (0x184150C1, .fsgnNeg 4 5), (0x188150C1, .fsgnAbs 4 5), (0x18D950C1, .fsgnMul 4 5 6)] = true := by decide +kernel

theorem test_decode_control : decodesTo 32 [
    (0x800050D1, .beq 4 1 8192), (0x7FFC94E1, .bne 5 2 8191), (0xFFFCD8F1, .blt 6 3 16383), (0x00051D01, .bge 7 4 1),
    (0x00096111, .bltu 8 5 2), (0xFFF9A521, .bgeu 9 6 16382), (0xFFFF7D31, .call 15 262141), (0x0002C141, .jr 11),
    (0x0042F941, .callr 14 11), (0x00245551, .loop 5 1 9)] = true := by decide +kernel

theorem test_decode_sys : decodesTo 32 [
    (0xA9400161, .trap 677), (0x00040161, .eret), (0x41C81961, .csrr 6 263), (0x10CD8161, .csrw 6 67),
    (0x10D18161, .csrs 6 67), (0x10D58161, .csrc 6 67), (0x00180161, .ifence), (0x555C0161, .brk 341),
    (0x0A600161, .yield 41), (0x00240161, .endTask)] = true := by decide +kernel

theorem test_decode_frame : decodesTo 32 [
    (0x0096A571, .fcld 9 10 37), (0x0196A571, .fcst 9 10 37), (0x0296A571, .fcvld 9 10 37), (0x0396A571, .fcvst 9 10 37)] = true := by decide +kernel

theorem test_decode_vfp : decodesTo 32 [
    (0x01661D81, .vadd 7 8 9 5 0), (0x23661D81, .vsub 7 8 9 5 1), (0x45661D81, .vmul 7 8 9 5 2),
    (0x67661D81, .vfma 7 8 9 5 3), (0x89661D81, .vfms 7 8 9 5 4), (0x0B661D81, .vmin 7 8 9 5),
    (0x0D661D81, .vmax 7 8 9 5)] = true := by decide +kernel

theorem test_decode_vint : decodesTo 32 [
    (0x01661D91, .viadd 7 8 9 5), (0x03661D91, .visub 7 8 9 5), (0x05661D91, .vimul 7 8 9 5),
    (0x07661D91, .vand 7 8 9 5), (0x09661D91, .vor 7 8 9 5), (0x0B661D91, .vxor 7 8 9 5), (0x0D661D91, .vshl 7 8 9 5),
    (0x0F661D91, .vshr 7 8 9 5), (0x11661D91, .vsar 7 8 9 5), (0x0EA615A1, .vcmp 5 8 9 2 7 0)] = true := by decide +kernel

theorem test_decode_vmove : decodesTo 32 [
    (0x01661DB1, .vsel 7 8 9 5), (0x03421DB1, .vmov 7 8 5), (0x05421DB1, .vbcast 7 8 5), (0x06261DB1, .vext 7 8 9),
    (0x08261DB1, .vins 7 8 9), (0x0B401DB1, .viota 7 5), (0x0D661DB1, .vperm 7 8 9 5), (0x2F661DB1, .vslide 7 8 9 5 1)] = true := by decide +kernel

theorem test_decode_vfn : decodesTo 32 [
    (0x41421DC1, .vredsum 7 8 5 2), (0x03421DC1, .vredmax 7 8 5), (0x05421DC1, .vredmin 7 8 5),
    (0x01821DD1, .vrcp 7 8 6), (0x03821DD1, .vrsq 7 8 6), (0x05821DD1, .vexp2 7 8 6), (0x07821DD1, .vlog2 7 8 6)] = true := by decide +kernel

theorem test_decode_vcvt : decodesTo 32 [
    (0x274A1DE1, .vcvt 7 8 2 5 3 1), (0x295A1DF1, .vqnt 7 8 6 5 4 1), (0x2F5A1E01, .vdeq 7 8 6 5 7 1),
    (0x815A1E11, .vsrnd 7 8 6 5 4), (0x63661E11, .vsacc 7 8 9 5 3)] = true := by decide +kernel

theorem test_decode_kop : decodesTo 32 [
    (0x00108621, .kand 1 2 4), (0x00508621, .kor 1 2 4), (0x00908621, .kxor 1 2 4), (0x00C15A21, .knot 6 5),
    (0x01015A21, .kmov 6 5), (0x01417621, .kpopc 13 5), (0x01817621, .kfirst 13 5)] = true := by decide +kernel

theorem test_decode_task : decodesTo 32 [
    (0x0000CA31, .tspawn 2 3), (0xB450C231, .tdec 3 4 45), (0x00802631, .tself 9), (0x00C24231, .migr 9),
    (0x40000241, .gang 16), (0x00400241, .gdis), (0x00800241, .join), (0x00C00241, .detach), (0x0010CAA1, .plnch 2 3 4),
    (0x0040CAA1, .greplay 2 3)] = true := by decide +kernel

theorem test_decode_queue : decodesTo 32 [
    (0x9A625651, .dbind 5 9 1235), (0x9A665651, .dwaitc 5 9 1235), (0x9A6A5651, .dwaitp 5 9 1235),
    (0x9A6E5651, .dadvc 5 9 1235), (0x9A725651, .dadvp 5 9 1235), (0x9821C261, .cpy 7 8 2 9),
    (0x1C61C261, .cpy2 7 8 3 1), (0x0001C271, .cwaitany 7), (0x0041C271, .cwaitall 7), (0x00801E71, .cfind 7),
    (0x00C1C271, .ctagclr 7), (0x0801C281, .sopen 7 2), (0x0C400281, .sclose 3), (0x13418691, .ssend 1 6 5 9)] = true := by decide +kernel

theorem test_decode_mem : decodesTo 32 [
    (0x802B0EB1, .ld 3 12 2 0 1 512), (0x7FDD4EC1, .st 3 5 3 1 511), (0x81270ED1, .ldacq 3 12 1 0 1 4 64),
    (0x7E914EE1, .strel 3 5 0 1 2 63)] = true := by decide +kernel

theorem test_decode_vmem : decodesTo 32 [
    (0x01421EF1, .vld 7 8 5), (0x03661EF1, .vlds 7 8 9 5), (0x05661EF1, .vldx 7 8 9 5), (0x07421EF1, .vld6 7 8 5),
    (0xE1421F01, .vst 7 8 5 6 1), (0xE3661F01, .vsts 7 8 9 5 6 1), (0xE5661F01, .vstx 7 8 9 5 6 1),
    (0xE7421F01, .vst6 7 8 5 6 1)] = true := by decide +kernel

theorem test_decode_order : decodesTo 32 [
    (0x0001C311, .discard 7), (0x0241C311, .pref 7 1), (0x0081C311, .wback 7), (0x0AC00311, .fence 5),
    (0x01000311, .fencel), (0x0541C311, .fenceh 7 2), (0x3010CB21, .amo 2 3 4 8 1), (0x2050CB21, .cas 2 3 4 1),
    (0x0A90CB21, .famo 2 3 4 5), (0x2CD0C321, .red 3 4 6 1), (0x0910C321, .fred 3 4 4), (0x09661F31, .vred 7 8 9 5 4)] = true := by decide +kernel

theorem test_decode_array : decodesTo 32 [
    (0x0D826741, .mma 1 2 9 6 1 1), (0x05C24F51, .mlda 3 9 7 1), (0x04EA4361, .mldb 9 10 3 1),
    (0x71964B71, .mdrain 2 9 5 6 4 1 1 0), (0x04000381, .mown 1), (0x00400B81, .mzero 2), (0x00826781, .msacc 1 2 9),
    (0x00C24F81, .mswap 3 9), (0x010C2781, .mflag 9 3)] = true := by decide +kernel

theorem test_decode_plane : decodesTo 32 [
    (0x00024391, .pcfg 9), (0x00508791, .pstep 1 2 4), (0x00824391, .pfade 9), (0x04EA4391, .prwd 9 10 1),
    (0x01024391, .pgate 9), (0x01426391, .prd 8 9), (0x01AA4391, .pwr 9 10), (0x01C02391, .pstat 8)] = true := by decide +kernel

theorem test_decode_near : decodesTo 32 [
    (0x742A43A1, .nwalk 9 10 1 7), (0x746A43A1, .nadd 9 10 1 7), (0x74AA43A1, .nupd 9 10 1 7), (0x00C003A1, .nfence),
    (0x590263A1, .bred 8 9 2 5), (0x014263A1, .bpoll 8 9)] = true := by decide +kernel

theorem test_decode_cnt : decodesTo 32 [
    (0x000263B1, .take 8 9), (0x006A63B1, .takeb 8 9 10), (0x00AA43B1, .nsave 9 10), (0x00EA43B1, .nrest 9 10),
    (0x012A43B1, .nreset 9 10), (0x002A43C1, .stata 9 10), (0x004243C1, .statc 9), (0x38AA57C1, .statl 5 9 10 2 3),
    (0x00EA63C1, .statr 8 9 10), (0x000243D1, .evcfg 9), (0x184003D1, .evpulse 6), (0x008263D1, .evrd 8 9),
    (0x00EA43D1, .actw 9 10)] = true := by decide +kernel

theorem test_decode_priv : decodesTo 32 [
    (0x000243E1, .haltp 9), (0x000643E1, .resumep 9), (0x004A63E1, .ctxsv 8 9 1), (0x004E63E1, .ctxld 8 9 1),
    (0x002B57F1, .mod 1 0 1 0 45 2), (0x0037EBF1, .mod 0 1 0 1 31 3)] = true := by decide +kernel

theorem test_decode_short : decodesTo 16 [
    (0x2940, .vaddF32 5 10), (0x2944, .vsubF32 5 10), (0x2948, .vmulF32 5 10), (0x294C, .vmaxF32 5 10),
    (0x2950, .vminF32 5 10), (0x2954, .viadd16 5 10), (0x2958, .visub16 5 10), (0x295C, .vand16 5 10),
    (0x2960, .vor16 5 10), (0x2964, .vxor16 5 10), (0x2968, .vshl16 5 10), (0x296C, .vshr16 5 10),
    (0x2970, .vmov16 5 10), (0x2974, .vnegF32 5 10), (0x2978, .vabsF32 5 10), (0x297C, .vfmac 5 10),
    (0x2D42, .mov16 5 11), (0x2D46, .add16 5 11), (0x2D4A, .sub16 5 11), (0x2D4E, .and16 5 11), (0x2D52, .or16 5 11),
    (0x2D56, .addi4 5 11), (0x2D5A, .shli4 5 11), (0x2D5E, .shri4 5 11), (0x2D62, .ldd8 5 11), (0x2D66, .std8 5 11),
    (0xAD6A, .bz 5 11 1), (0x0D6E, .bnz 5 3 0), (0x2C32, .jr16 11), (0x2C36, .callr16 11), (0x003A, .yield1),
    (0x003E, .end16)] = true := by decide +kernel

/-- The worked example "from text to bits" (04 R81), with its GAP and SW. -/
theorem test_decode_worked_example :
    decodeWord true 0x00084C11 = .ok ⟨.add 3 1 2, 4, 0, false⟩ ∧ decodeWord true 0xFFFD5425 = .ok ⟨.addi 5 5 (-1), 4, 1, false⟩
      ∧ decodeWord true 0x06C85183 = .ok ⟨.vfma 4 1 2 3 0, 4, 0, true⟩ ∧ decodeWord true 0x001F53F1 = .ok ⟨.mod 0 0 1 0 (-3) 1, 4, 0, false⟩
      ∧ decodeWord true 0x001D90C1 = .ok ⟨.fadd 4 6 7 0, 4, 0, false⟩ ∧ decodeWord false 0x1DBC = .ok ⟨.vfmac 6 7, 2, 0, false⟩
      ∧ decodeWord false 0x003E = .ok ⟨.end16, 2, 0, false⟩ := by decide +kernel

/-- What decodes to no instruction (04 R82, R84, R86, R90): opcode 0; the zero parcel; a lane-class parcel with bit 15;
bit 15 of MOV; a nonzero x of JR; a nonzero y of END; FN beyond SEL; a nonzero b of CLZ; SW of a modifier word. -/
theorem test_decode_refused : [decodeWord true 0x00000001, decodeWord false 0x0000, decodeWord false 0x8004, decodeWord false 0x8002,
    decodeWord false 0x0072, decodeWord false 0x043E, decodeWord true 0x07800011, decodeWord true 0x05C40011, decodeWord true 0x000003F3].all
      (fun r => match r with | .ok _ => false | _ => true) = true := by decide +kernel

/-- An operation of DECK that is none (08 R190, 04 R97): the immediate is at fault, by its low 8 bits. -/
theorem test_decode_deck : decodeWord true 0x00140251 = .illegal 6 5 ∧ decodeWord true 0xFFFC0251 = .illegal 6 0xFF := by decide +kernel

/-! ### Ill-formed terms -/

/-- One ill-formed term for each check, refused with the index of its field (04 R95, R97): reserved modes; shift amounts;
loop offsets; absent control registers; comparisons; formats; crew sizes; granules; register runs; handles and widths;
records; scopes; operations. -/
theorem test_ill_formed : ([(.fadd 1 2 3 5, 5), (.vredsum 1 2 3 6, 5), (.shli 1 2 64, 6), (.sari 1 2 (-1), 6), (.loop 1 0 0, 6),
    (.csrr 1 0x00E, 5), (.csrw 1 0x3FF, 5), (.vcmp 1 2 3 0 0 3, 5), (.vcmp 1 2 3 0 8 0, 5), (.vcmp 1 2 3 0 6 1, 5), (.vcmp 8 2 3 0 0 0, 2),
    (.vcvt 1 2 0 0 1 5, 5), (.vcvt 1 2 0 0 9 0, 5), (.vcvt 1 2 9 0 1 0, 4), (.vcvt 1 2 1 0 1 0, 4), (.vqnt 1 2 3 0 3 5, 5), (.vqnt 1 2 3 0 0 0, 5),
    (.vdeq 1 2 3 0 8 0, 5), (.vsrnd 1 2 3 0 6, 5), (.vsrnd 1 2 0 0 0, 4), (.vsrnd 1 2 9 0 0, 4)] : List (Instr × Nat)).all
      (fun p => !p.1.wellFormed && p.1.fieldFault == some p.2) = true := by decide +kernel

theorem test_ill_formed_commands : ([(.gang 1, 5), (.gang 17, 5), (.cpy 1 2 0 10, 5), (.bred 1 2 0 15, 5), (.ssend 0 15 0 1, 5),
    (.ld 1 8 0 1 0 0, 3), (.ld 1 2 3 0 1 0, 8), (.st 1 8 0 1 0, 3), (.ldacq 1 8 0 1 0 0 0, 3), (.ldacq 1 2 3 0 1 0 0, 8), (.ldacq 1 2 0 0 0 6 0, 8),
    (.strel 1 8 0 1 0 0, 3), (.strel 1 2 0 0 6 0, 8), (.vst 1 2 0 1 0, 5), (.vst6 1 2 0 7 0, 5), (.fence 6, 5), (.fenceh 1 0, 5), (.fenceh 1 3, 5),
    (.amo 1 2 3 9 0, 5), (.famo 1 2 3 1, 5), (.red 1 2 8 0, 5), (.vred 1 2 3 0 2, 5), (.mma 0 0 1 0 0 0, 5), (.mldb 1 2 8 0, 5), (.mlda 0 1 0 0, 5),
    (.mlda 0 8 1 1, 3), (.mdrain 0 1 0 0 5 0 0 0, 5), (.mdrain 0 1 0 9 0 0 0 0, 5), (.mdrain 0 8 0 0 0 0 0 1, 3), (.statl 0 1 2 0 6, 5)]
      : List (Instr × Nat)).all (fun p => !p.1.wellFormed && p.1.fieldFault == some p.2) = true := by decide +kernel

theorem test_well_formed : ([.fadd 1 2 3 7, .shli 1 2 63, .loop 1 0 1, .csrr 1 0x051, .vcmp 7 2 3 0 7 0, .vcmp 1 2 3 0 5 2, .vcvt 1 2 0 0 8 4,
    .vqnt 1 2 3 0 7 0, .vsrnd 1 2 8 0 0, .gang 2, .gang 16, .cpy 1 2 0 9, .ssend 0 15 0 0, .ld 1 7 0 1 1 0, .ldacq 1 2 3 0 0 5 0, .vst 1 2 0 7 1,
    .fence 5, .fenceh 1 2, .amo 1 2 3 8 0, .famo 1 2 3 5, .red 1 2 7 0, .vred 1 2 3 0 5, .mma 0 0 1 7 0 0, .mdrain 0 7 0 8 4 0 0 1, .statl 0 1 2 0 5]
      : List Instr).all Instr.wellFormed = true := by decide +kernel


/-! ### Small states -/

/-- A thread of partition 0 runs ADD at the start of a page mapped for reading, writing and execution (0x10000000). -/
@[irreducible] def run : State := State.reset.withFetchWord 32 0x00084C11

/-- The state with scalar registers set. -/
def regs (l : List (Nat × Word)) (s : State) : State :=
  { s with th := { s.th with s := l.foldl (fun v p => v.setIfInBounds p.1 p.2) s.th.s } }

/-- The state with lanes of vector registers set: register, lane, value. -/
def lanes (l : List (Nat × Nat × Nat)) (s : State) : State :=
  { s with th := { s.th with v := l.foldl (fun v p => v.setIfInBounds p.1 (v.toList.getD p.1 0 ||| BitVec.ofNat 1024 (p.2.2 * 2 ^ (32 * p.2.1)))) s.th.v } }

/-- The state with a mask register set. -/
def mask (n : Nat) (x : KWord) (s : State) : State := { s with th := { s.th with k := s.th.k.setIfInBounds n x } }

/-- An address of the mapped page. -/
def page (n : Nat) : Word := BitVec.ofNat 64 (0x10000000 + n)

/-- The state an instruction leaves, its own where it does not answer one. -/
def after (i : Instr) (s : State) : State := match exec i s with | .next t => t | _ => s

/-- The scalar result of an instruction, once visible. -/
def resultS (i : Instr) (d : BitVec 4) (s : State) : Word := (tick 64 (after i s)).getS d

/-- A lane of a vector result, once visible. -/
def resultV (i : Instr) (d : BitVec 4) (j : Nat) (s : State) : Nat := (lane ((tick 64 (after i s)).getV d) j).toNat

/-- A check answers a state. -/
def answers {ε α : Type} : Except ε α → Bool
  | .ok _ => true
  | .error _ => false

/-- Bytes of the mapped page. -/
def mem (n : Nat) (bs : List Byte) (s : State) : State := { s with dram := Memory.writeN s.dram (0x105000 + n) bs }

/-- A deck of the thread's core bound to a handle: its control block, base, size code, slots, HEAD, TAIL and FILL (08 R189). -/
def deck (h : Fin 8) (off base lg n head tail fill : Nat) (s : State) : State :=
  let x := s.core s.th.core
  let bs := leBytes 3 base ++ leBytes 1 lg ++ leBytes 1 (n - 1) ++ leBytes 1 head ++ leBytes 1 tail ++ [0] ++ leBytes 2 fill
  let t := s.setCore s.th.core { x with ls := x.ls.writeN off bs }
  { t with th := { t.th with decks := t.th.decks.set h (some off) } }

/-- The bytes that an instruction reads, as it issues, at the places that its address checks admit; none where they do not,
where a storage error is met, or where an array command comes first. -/
def readsNow (va : Word) (r : Checked (List Loc × State)) : Option (List Byte) :=
  match r with
  | .error _ => none
  | .ok (ls, s) =>
    match checkData va ls s with
    | .error _ => none
    | .ok u => if readBlocked (beforeReading ls u) ls then none else some (readAs (beforeReading ls u).th false ls (beforeReading ls u)).1

/-- The places are admitted, and can be read at once. -/
def readable (va : Word) (r : Checked (List Loc × State)) : Bool := (readsNow va r).isSome

/-- The places are admitted. -/
def writable (r : Checked (List Loc × State)) : Bool := answers r

/-- The places of a scalar access with the state. -/
def placesOf (r : Checked (Word × List Loc × State)) : Checked (List Loc × State) := r.map (·.2)

/-- The bytes that an admitted span gives the thread. -/
def bytesOf (r : Checked (List Loc × State)) : List Byte := (readsNow 0 r).getD []

/-- The state in which a message has arrived, and is what the next event is about. -/
def arrives (m : Msg) (s : State) : State := { s with msgs := [⟨7, s.th.id, 0, none, m⟩], arg := { s.arg with a := 7 } }

/-- The state with partition 0 changed. -/
def part0 (f : Part → Part) (s : State) : State := s.onPart 0 f

/-- A task record: entry, home code and frame (02 R16). -/
def taskRecord (entry home frame : Nat) : List Byte := leBytes 8 entry ++ zeroBytes 12 ++ leBytes 2 home ++ leBytes 2 frame ++ zeroBytes 40

/-- 2 MiB mapped in one page, at 0x10200000, over the partition's range. -/
def wide (s : State) : State := { s with dram := Memory.writeN s.dram (0x103000 + 8 * 0x81) (leBytes 8 0xDF) }

/-- An address of the wide page. -/
def big (n : Nat) : Word := BitVec.ofNat 64 (0x10200000 + n)

/-- A copy command of core 0, and an array command of thread 0. -/
def copyCmd : CopyCmd :=
  { id := 7, block := page 0, twoD := false, tag := 0, gran := 0, pri := 1, core := 0, slot := 0, ttag := 0, pc := 0, word := 0, part := 0, priv := 0
    tid := 0, reg := 0 }

def arrayCmd (i : Instr) : ArrayCmd :=
  { id := 9, instr := i, word := 0, modw := 0, a := 0, b := 0, core := 0, slot := 0, tid := 0, ttag := 0, pc := 0, part := 0, draw := run.th.drawOf
    mode := 0, sc := 0, locs := [(.pa 0x105000 0, 4)], decks := [], data := none, load := none, left := 0 }

/-- The state with array 0 changed, and events about it. -/
def array0 (f : MArray → MArray) (s : State) : State := s.setArray 0 (f (s.array 0))

/-- The state in which an array command of thread 0 that stores to the first bytes of the page is still to run. -/
def swapping (s : State) : State := array0 (fun x => { x with aq := [{ arrayCmd (.mswap 0 1) with id := 0 }] }) s

/-- The places are admitted, and come behind an array command. -/
def blocked (va : Word) (r : Checked (List Loc × State)) : Bool :=
  match r with
  | .error _ => false
  | .ok (ls, s) => match checkData va ls s with
    | .error _ => false
    | .ok u => readBlocked (beforeReading ls u) ls

/-- A result of thread 0 that acts late, in the state that the next event is about. -/
def late (i : Instr) (a b : Word) (ls : List Loc) (s : State) : State :=
  let l : Load := { id := 8, dest := .s 3, val := .acting (.late i a b ls), pc := page 0x300, word := 0 }
  { s with th := { s.th with loads := [l] }, arg := { a := 0, b := 8 } }

/-- The bytes that a result that acts late reads, where it may act and meets no storage error. -/
def lateBytes (va : Word) (ls : List Loc) (s : State) : Option (List Byte) :=
  match s.th.loads with
  | [l] =>
    let f := (s.fillLoad 0 l.id .waiting).focus 0
    let m := { f with th := { f.th with pc := l.pc, modLatch := none, ir := { f.th.ir with word := l.word, hasMod := false } } }
    if mayPerform s s.th l.id ls && (loadOf s.th s.arg.b == some l) then match checkData va ls m with
      | .ok u => some (readAs u.th (wideAcquire l.acq) ls u).1
      | .error _ => none
    else none
  | _ => none

/-- Places of n bytes from an offset of the mapped page on. -/
def locs (off n : Nat) : List Loc := (List.range n).map fun i => .pa (0x105000 + off + i) 0

/-- A walker command of core 0 with two regions of the mapped page, and a block of a reduction of two inputs of one element. -/
def walkCmd : NearCmd :=
  { id := 7, kind := 0, block := page 0, completion := 0, gran := 0, pri := 1, core := 0, slot := 0, tid := 0, ttag := 0, pc := 0, word := 0, part := 0
    priv := 0, reg := 0, regions := [⟨none, (page 0x200).toNat, 4, false⟩, ⟨none, (page 0x800).toNat, 4, true⟩] }

def breBlock : List Byte := [0, 2] ++ zeroBytes 6 ++ leBytes 8 1 ++ leBytes 8 (page 0x800).toNat ++ leBytes 8 (page 0x900).toNat ++ zeroBytes 16
  ++ leBytes 8 (page 0x400).toNat ++ leBytes 8 (page 0x440).toNat ++ zeroBytes 128

/-- A walker queue that is full. -/
def s4352 : State := run.setStand 0 { run.stand 0 with walkq := List.replicate 4352 walkCmd }

/-- Partition 0 with a save area in the mapped page, its MAGIC and STATE written. -/
def saved (state : Nat) (s : State) : State :=
  mem 0x400 (leBytes 4 0x45564153 ++ leBytes 4 state) (s.setCore 0 { s.core 0 with psave := 0x10000400 })

/-- A grant that the monitor may make right after reset: grove 0, one range of 32 MiB that holds the save area by page tables of
three levels, the record area in DRAM, landing queues of 16 packets. -/
def grant0 : Grant :=
  let pte (a v : Nat) : List (Nat × Byte) := (leBytes 8 v).zipIdx.map fun p => (a + p.2, p.1)
  { placedGrant with
    ranges := [(0x40000000, 0x2000000)], recB := 0x200000000, psave := 0, ptroot := 0x1000, landing := List.replicate 16 (0, 16)
    image := pte 0x1000 0x2001 ++ pte 0x2000 0x3001 ++ pte 0x3000 0x400000DF }

/-- An image of three sections: the null section, the names, and a launch descriptor (05 R118-R125). -/
def smallImage : List Byte :=
  leBytes 4 0x00464F50 ++ leBytes 2 0x0100 ++ [1, 0] ++ leBytes 4 3 ++ zeroBytes 4 ++ leBytes 8 64 ++ zeroBytes 40
    ++ zeroBytes 48
    ++ zeroBytes 4 ++ leBytes 2 1 ++ zeroBytes 42
    ++ zeroBytes 4 ++ leBytes 2 13 ++ zeroBytes 10 ++ leBytes 8 208 ++ leBytes 8 64 ++ zeroBytes 16
    ++ leBytes 4 0x48434E4C ++ leBytes 2 0x0100 ++ [1, 0] ++ zeroBytes 8 ++ leBytes 2 1 ++ zeroBytes 46

/-- An address of the local store's window, and bytes there. -/
def win (n : Nat) : Word := BitVec.ofNat 64 (windowBase + n)

def local0 (n : Nat) (bs : List Byte) (s : State) : State := s.setCore 0 { s.core 0 with ls := (s.core 0).ls.writeN n bs }


/-- The focus thread waits for something, with its number in the event's argument. -/
def waits (w : Wait) (s : State) : State := { s with th := { s.th with status := .waiting w 0 }, arg := { a := s.th.id } }

/-! ### Results of single instructions: 06 R139-R142, with the corners of R140 -/

theorem test_alu_results : ([(.add 3 1 2, 0xFFFFFFFFFFFFFFFF, 2, 1), (.sub 3 1 2, 1, 2, 0xFFFFFFFFFFFFFFFF), (.andn 3 1 2, 0xFF, 0x0F, 0xF0),
    (.shl 3 1 2, 1, 127, 0x8000000000000000), (.shr 3 1 2, 0x8000000000000000, 63, 1), (.sar 3 1 2, 0x8000000000000000, 63, 0xFFFFFFFFFFFFFFFF),
    (.mulh 3 1 2, 0xFFFFFFFFFFFFFFFF, 2, 0xFFFFFFFFFFFFFFFF), (.mulhu 3 1 2, 0xFFFFFFFFFFFFFFFF, 2, 1),
    (.div 3 1 2, 0xFFFFFFFFFFFFFFF9, 2, 0xFFFFFFFFFFFFFFFD), (.div 3 1 2, 0, 0, 0), (.div 3 1 2, 5, 0, 0x7FFFFFFFFFFFFFFF),
    (.div 3 1 2, 0xFFFFFFFFFFFFFFFB, 0, 0x8000000000000000), (.div 3 1 2, 0x8000000000000000, 0xFFFFFFFFFFFFFFFF, 0x7FFFFFFFFFFFFFFF),
    (.divu 3 1 2, 5, 0, 0xFFFFFFFFFFFFFFFF), (.divu 3 1 2, 0, 0, 0), (.rem 3 1 2, 0xFFFFFFFFFFFFFFF9, 2, 0xFFFFFFFFFFFFFFFF),
    (.rem 3 1 2, 7, 0, 7), (.rem 3 1 2, 0x8000000000000000, 0xFFFFFFFFFFFFFFFF, 0), (.remu 3 1 2, 7, 0, 7),
    (.min 3 1 2, 0xFFFFFFFFFFFFFFFF, 1, 0xFFFFFFFFFFFFFFFF), (.minu 3 1 2, 0xFFFFFFFFFFFFFFFF, 1, 1), (.maxu 3 1 2, 0xFFFFFFFFFFFFFFFF, 1, 0xFFFFFFFFFFFFFFFF),
    (.slt 3 1 2, 0xFFFFFFFFFFFFFFFF, 1, 1), (.sltu 3 1 2, 0xFFFFFFFFFFFFFFFF, 1, 0), (.seq 3 1 2, 4, 4, 1), (.clz 3 1, 0, 0, 64), (.clz 3 1, 1, 0, 63),
    (.ctz 3 1, 0, 0, 64), (.ctz 3 1, 0x8000000000000000, 0, 63), (.popc 3 1, 0xFF00, 0, 8), (.sextB 3 1, 0x180, 0, 0xFFFFFFFFFFFFFF80),
    (.sextW 3 1, 0x80000000, 0, 0xFFFFFFFF80000000), (.sel 3 1 2, 7, 9, 9), (.addi 3 1 0x3FFF, 0, 0, 0xFFFFFFFFFFFFFFFF),
    (.andi 3 1 0x3FFE, 0xFF, 0, 0xFE), (.shli 3 1 63, 1, 0, 0x8000000000000000), (.slti 3 1 0, 0xFFFFFFFFFFFFFFFF, 0, 1),
    (.lui 3 0x20000, 0, 0, 0xFFFFFFFF80000000), (.adpc 3 1, 0, 0, 0x10004000)] : List (Instr × Word × Word × Word)).all
      (fun p => resultS p.1 3 (regs [(1, p.2.1), (2, p.2.2.1)] run) == p.2.2.2) = true := by decide +kernel

/-- 06 R143, R146: 1 + 2, 1 − 2, 2 × 2, 1 ÷ 0, the root of 4, 0 ÷ 0; FCVT of −3 both ways. -/
theorem test_fp_results : ([(.fadd 3 1 2 0, 0x3F800000, 0x40000000, 0x40400000), (.fsub 3 1 2 0, 0x3F800000, 0x40000000, 0xBF800000),
    (.fmul 3 1 2 0, 0x40000000, 0x40000000, 0x40800000), (.fdiv 3 1 2 0, 0x3F800000, 0, 0x7F800000), (.fsqrt 3 1 0, 0x40800000, 0, 0x40000000),
    (.fdiv 3 1 2 0, 0, 0, 0x7FC00000), (.fcvtF32I32 3 1 0, 0xFFFFFFFD, 0, 0xC0400000), (.fcvtI32F32 3 1 1, 0xC0400000, 0, 0xFFFFFFFFFFFFFFFD),
    (.fcmpLt 3 1 2, 0xBF800000, 0, 1), (.fclass 3 1, 0xFF800000, 0, 0xFF0B), (.fsgnNeg 3 1, 0x3F800000, 0, 0xBF800000)]
      : List (Instr × Word × Word × Word)).all
      (fun p => resultS p.1 3 (regs [(1, p.2.1), (2, p.2.2.1)] run) == p.2.2.2) = true := by decide +kernel

/-- 07 R166-R170: lane 31 of some lane forms, with lane 31 of v1 1.0 and of v2 2.0. -/
theorem test_lane_results : ([(.vadd 3 1 2 0 0, 0x40400000), (.vsub 3 1 2 0 0, 0xBF800000), (.vmul 3 1 2 0 0, 0x40000000), (.vfma 3 1 2 0 0, 0x40000000),
    (.viadd 3 1 2 0, 0x7F800000), (.vand 3 1 2 0, 0), (.vmax 3 1 2 0, 0x40000000), (.vrcp 3 2 0, 0x3F000000), (.viota 3 0, 31), (.vmov 3 2 0, 0x40000000),
    (.vslide 3 1 0 0 0, 0x3F800000)] : List (Instr × Nat)).all
      (fun p => resultV p.1 3 31 (lanes [(1, 31, 0x3F800000), (2, 31, 0x40000000)] run) == p.2) = true := by decide +kernel


/-! ### States and operands that meet the hypotheses of the statements -/

/-- `AluForms`, `AluImmediates`: the values its cases name; both ends of the shift amounts, and those just outside. -/
theorem witness_alu : ((0 : Word) = 0 ∧ (5 : Word).toInt > 0 ∧ (-5 : Word).toInt < 0 ∧ (BitVec.intMin 64).toInt = -2 ^ 63 ∧ (-1 : Word).toInt = -1)
    ∧ (0 : BitVec 14).toInt ≤ 63 ∧ 0 ≤ (0 : BitVec 14).toInt ∧ (63 : BitVec 14).toInt ≤ 63 ∧ 63 < (64 : BitVec 14).toInt ∧ (-1 : BitVec 14).toInt < 0 := by
  decide

/-- `ResultLatency`: nothing on its way; latencies and distances at which the results are visible. -/
theorem witness_resultLatency : run.th.pend = [] ∧ (3 : BitVec 4) ≠ 0 ∧ 1 ≤ (1 : Nat) ∧ (4 : Nat) ≤ 1 + 3 ∧ (1 : Nat) ≤ 1 := by decide +kernel

/-- `HardwiredRegisters`: a destination that is none of them. -/
theorem witness_hardwired : (15 : BitVec 4) ≠ 0 ∧ (7 : BitVec 3) ≠ 0 := by decide

/-- `FpArithmetic`, `FpConversions`: a nonzero significand; no modifier; a NaN and both infinities. -/
theorem witness_fp : (1 : Nat) ≠ 0 ∧ run.th.modifier = {} ∧ run.th.modifier.sat = 0
    ∧ (srcA run.th ((regs [(1, 0x7FC00000)] run).getS 1)).isNan = true ∧ srcA run.th ((regs [(1, 0x7F800000)] run).getS 1) = .inf false
    ∧ srcA run.th ((regs [(1, 0xFF800000)] run).getS 1) = .inf true := by decide +kernel

/-- `VectorCompare`: each type of comparison, at the last relation it has. -/
theorem witness_vectorCompare : ([.vcmp 7 2 3 0 7 0, .vcmp 7 2 3 0 5 1, .vcmp 7 2 3 0 5 2] : List Instr).all Instr.wellFormed = true := by decide

/-- `VectorReductions`: lists of 16. -/
theorem witness_vectorReductions : (List.range 16).length = 16 := by decide

/-- `VectorConversions`: every enabled lane in range; and lane 0 the first that is not, with SAT 0 (VQNT to INT8 of 2^20). -/
theorem witness_vectorConversions :
    (∀ j < 32, (run.getK 0).getLsbD j = true → outOfRange .i8 ((decodeNum .f32 (lane (run.getV 1) j).toNat).scale 0) = false)
    ∧ let s := lanes [(1, 0, 0x49800000)] run
      s.th.modifier.sat = 0 ∧ 0 < 32 ∧ (s.getK 0).getLsbD 0 = true ∧ outOfRange .i8 ((decodeNum .f32 (lane (s.getV 1) 0).toNat).scale 0) = true := by
  decide +kernel

/-- `MaskForms`, `Jumps`: an empty and a nonempty mask; conditions that hold and do not; even and odd targets. -/
theorem witness_jumps : (mask 3 0 run).getK 3 = 0 ∧ run.getK 3 = 0 ∧ (mask 3 0x80000000 run).getK 3 ≠ 0 ∧ run.getS 1 = run.getS 2
    ∧ (regs [(1, 1)] run).getS 1 ≠ run.getS 2 ∧ ((regs [(1, 0x10000002)] run).getS 1).getLsbD 0 = false
    ∧ ((regs [(1, 0x10000001)] run).getS 1).getLsbD 0 = true := by decide +kernel

/-- `Loops`: a body and a count; an empty body; a count of 0 with the last word of the body at hand; the end of a loop of each level,
with one iteration left and with more. -/
theorem witness_loops :
    ((regs [(1, 3)] run).getS 1 != 0 && run.getS 1 == 0 && answers (fetchParcel (run.th.pc + 4) run)
      && ([0, 1] : List (Fin 2)).all fun l => ([1, 2] : List Word).all fun n =>
        let t : Thread := { run.th with lc := run.th.lc.set l n, le := run.th.le.set l run.th.pc }
        t.instrPc == t.le.toList.getD l 0 && decide (0 < (t.lc.toList.getD l 0).toNat)) = true := by
  decide +kernel

/-- `PreciseTrap`, `TrapsInHandlers`, `Eret`: outside a handler; in one with nothing outstanding; every privilege; even and odd return
addresses. -/
theorem witness_traps :
    run.th.inh = false ∧ (∀ p ∈ run.th.pend, 1 ≤ p.left) ∧ run.th.priv = 0
    ∧ (let s : State := { run with th := { run.th with inh := true, priv := 1, trappc := 0x10000002 } }
       let f := flushPend s
       s.th.inh = true ∧ f.th.atq = [] ∧ f.th.sq = [] ∧ f.th.redlog = [] ∧ f.th.loads = [] ∧ f.th.tagged = false ∧ f.th.task.node = none
         ∧ f.monlog.length < 4095 ∧ s.th.priv ≠ 0 ∧ s.th.trappc.getLsbD 0 = false)
    ∧ ({ run with th := { run.th with priv := 2, trappc := 1 } } : State).th.trappc.getLsbD 0 = true := by decide +kernel

/-- `CsrRead`, `CsrWrite`: registers of each class at both ends of their ranges, admitted and not, writable and not; a counter that counts
no timing; reserved and defined codes. -/
theorem witness_csr :
    ((0x027 : BitVec 10).toNat < 0x028 ∧ (0x028 : BitVec 10).toNat < 0x100 ∧ run.th.priv.toNat < 1 ∧ run.myCore.mpriv.getLsbD 0 = false)
    ∧ timingCounter run.myCore 0 = false ∧ timingCounter { run.myCore with pmsel := run.myCore.pmsel.set 7 1 } 7 = true
    ∧ ((0xA0 : Word).extractLsb' 5 3).toNat = 5 ∧ ((0x80 : Word).extractLsb' 5 3).toNat ≤ 4 ∧ (256 : Word).toNat % 512 ≤ 256 ∧ 1 ≤ (1 : Word).toNat % 512
    ∧ (512 : Word).toNat % 512 = 0 ∧ 256 < (257 : Word).toNat % 512 ∧ (0x180 : Word).toNat % 256 = 0x80 ∧ (0x7F : Word).toNat % 256 ≠ 0x80 := by
  decide +kernel

/-- `YieldAndEnd`: no higher task waits; a thread with nothing outstanding, and one with a load. -/
theorem witness_yieldAndEnd :
    (∀ e ∈ run.myCore.runq, e.pri ≤ run.th.task.pri) ∧ run.th.dataErr = none
    ∧ (let u := performAtoms run.th.id run; busyThread u u.th = false ∧ u.th.redlog = [])
    ∧ (let s := run.pushLoad (.s 3) .waiting; s.th.dataErr = none ∧ busyThread (performAtoms s.th.id s) (performAtoms s.th.id s).th = true) := by decide +kernel

/-- `FrameCells`: the first and the last cell, the last place of a vector, and the places just outside. -/
theorem witness_frameCells : let s : State := { run with th := { run.th with fc := .replicate 64 0 } }
    (0 ≤ (s.getS 1).toInt ∧ (s.getS 1).toInt + 63 ≤ (s.th.fc.length : Int) - 1) ∧ ¬ ((1 : Int) + 63 ≤ (s.th.fc.length : Int) - 1)
    ∧ (32 : Int) + 31 ≤ (s.th.fc.length : Int) - 1 ∧ ¬ ((33 : Int) + 31 ≤ (s.th.fc.length : Int) - 1) ∧ ((regs [(1, -1)] s).getS 1).toInt < 0 := by
  decide +kernel

/-- `ModifierWord`: MOD.NEGA before FADD, whose word decodes, is no modifier and accepts the field; MOD before ADD, which takes none. -/
theorem witness_modifierWord : ([(0x001D90C1, true), (0x00084C11, false)].all fun p =>
    let s := State.reset.withFetchWord 64 (0x7F1 + 2 ^ 32 * p.1)
    s.th.ir.gap == 0 && !s.th.ir.sw && match fetchWord (s.th.pc + 4) s with
      | .ok (4, w, s') => s'.th == s.th && !isModifier w && (match decodeWord true w with
        | .ok x => x.instr.fieldFault == none && acceptsModifier x.instr == if p.2 then some (true, true, true, true) else none
        | _ => false)
      | _ => false) = true := by decide +kernel

/-- `ScalarLoads`, `ScalarStores`: each width at the end of the page and at its start; a deck's last slot and the first place past it; the
16-bit forms at the largest offset; a load of each width that is to be read, one behind a store to its byte, and one that an earlier store
does not touch; a byte of a local store outside its control blocks. -/
theorem witness_scalarAccess :
    (([0, 1, 2, 3] : List Nat).all fun w => let n := 2 ^ w; let s := regs [(1, page (4096 - n)), (2, page 0)] run
      readable (page (4096 - n)) (placesOf (scalarPlace .read 1 false 0 n 1 s)) && writable (placesOf (scalarPlace .write 2 false 0 n 2 s))
        && writable (placesOf (scalarPlace .write 2 false 63 n 2 s)))
    && (let s := deck 1 0x80 0x1000 0 4 0 2 2 run
        readable 0 (placesOf (scalarPlace .read 1 true 7 8 1 s)) && writable (placesOf (scalarPlace .write 1 true 7 8 1 s))
          && !readable 0 (placesOf (scalarPlace .read 1 true 8 8 1 s)))
    && (let s := regs [(14, page 0x100)] run
        readable (page 0x178) (placesOf (scalarPlace .read 14 false 15 8 14 s)) && writable (placesOf (scalarPlace .write 14 false 15 8 14 s)))
    && (([1, 2, 4, 8] : List Nat).all fun n =>
        let ls : List Loc := (List.range n).map fun i => .pa (0x105000 + i) 0
        let l : Load := { id := 8, dest := .s 3, val := .reading (.scalar true n) [⟨0, page 0, ls⟩] [], pc := 0, word := 0 }
        let e (a : Nat) : StoreEntry := .store { no := 3, parts := [⟨[.pa a 0], 0, 255⟩], rel := none, lvl := 0, clocks := [], part := none, issuer := {} }
        let s (q : List StoreEntry) : State := { run with th := { run.th with loads := [l], sq := q }, arg := { a := 0, b := 8 } }
        (s []).thread? 0 == some (s []).th && loadOf (s []).th 8 == some l && l.unread && mayPerform (s []) (s []).th 8 ls && ls.all (fun p => !peerGone run p)
          && mayPerform (s [e 0x105008]) (s [e 0x105008]).th 8 ls && (e 0x105000).no == 3 && overlaps (e 0x105000).places l.places)
    && decide (storeCount run.th.sq < 16) && Memory.wf (run.core 0).ls && (run.core 0).cbs.isEmpty = true := by
  decide +kernel

/-- `ScalarAccessTraps`: a misaligned address, and an aligned one that no table maps. -/
theorem witness_scalarAccessTraps : ((regs [(1, page 1)] run).getS 1).toNat % 2 ^ (1 : BitVec 2).toNat ≠ 0
    ∧ (regs [(1, 0x20000000)] run).getS 1 = 0x20000000 ∧ (0x20000000 : Word).toNat % 2 ^ (3 : BitVec 2).toNat = 0
    ∧ (([.read, .write] : List Access).all fun k => !answers (resolveSpan run.who k 2 0x20000000 8 run)) = true := by decide +kernel

/-- `VectorLoads`, `VectorStores`: every lane, one lane and no lane; 24 bytes; the groups of FP6; values of different lanes. -/
theorem witness_vectorAccess : (([0xFFFFFFFF, 0x80000000, 0] : List KWord).all fun k =>
      let s := regs [(1, page 0), (2, 8)] (mask 3 k run)
      let places (acc : Access) (addr : Nat → Word) := lanePlaces acc addr 1 (3, 1) (3, 1) (lanesOf (s.getK 3)) s
      (s.getK 3 == k) && ([unitAddr (s.getS 1), strideAddr (s.getS 1) (s.getS 2)].all fun addr =>
        (match places .read addr with
          | .ok (ps, u) => answers (checkLanes addr ps u)
          | .error _ => false)
        && answers (places .write addr))
      && readable (page 0) (spanPlace .read (s.getS 1) 24 8 3 1 s)
      && answers (groupStores6 (s.getS 1) 1 (s.getV 4) k (groups6 k) s))
    && decide (([(0, 5), (31, 6)] : List (Nat × Nat)).map (·.1)).Nodup = true := by decide +kernel

/-- `GatherScatter`: a gather and a scatter that end, and ones whose lane 1 is not mapped. -/
theorem witness_gatherScatter : (([0, 0x8000000] : List Nat).all fun x =>
      let s := lanes [(2, 1, x)] (regs [(1, page 0)] (mask 3 0x3 run)); let addr := indexAddr (s.getS 1) (s.getV 2)
      let ls := (lanesOf (s.getK 3)).filter fun i => decide (s.th.erx.toNat ≤ i)
      ([progress (gatherLane addr 1 2) ls s, progress (fun i => lanePlace .write (addr i) 1 (4, 2) (4, 2)) ls s].all fun r =>
        !r.1.isEmpty && if x = 0 then r.2.1.isNone else match r.2.1 with
          | some (i, tr) => i == 1 && tr.cause != 0x12
          | none => false)) = true := by decide +kernel

/-- `LineOperations`: a line of N memory that may be written and read. -/
theorem witness_lineOperations : let s := regs [(1, page 0x40)] run
    writable (spanPlace .write (s.getS 1) 1 1 3 1 s) && readable (page 0x40) (spanPlace .read (s.getS 1) 1 1 3 1 s)
      && ([.read, .write] : List Access).all (fun k => match spanPlace k (s.getS 1) 1 1 3 1 s with
        | .ok (.pa x m :: _, _) => x == 0x105040 && m == 0
        | _ => false) = true := by decide +kernel

/-- `Fences`: nothing deferred, and a data error; nothing outstanding, and an array command; the reduction log empty and not; a target
that is granted (the grove, its stand) and operands that name none. -/
theorem witness_fences : let u := performAt 3 run.th.id run; let busy := swapping run
    (run.th.dataErr.isNone && (openWork 3 u).isEmpty && (openWork 3 run).isEmpty && !(openWork 3 (performAt 3 0 busy)).isEmpty
      && (ifenceWork run).isEmpty && !(ifenceWork busy).isEmpty && u.th.redlog.isEmpty && (fencehGroves run 1 0).isSome && (fencehGroves run 2 0).isSome
      && (fencehGroves run 1 16).isNone && (fencehGroves run 1 1).isNone && (fencehGroves run 2 2048).isNone
      && (let s : State := { run with th := { run.th with redlog := [⟨8, 1, 0, 4, 0⟩] } }; !(performAt 3 s.th.id s).th.redlog.isEmpty)) = true := by decide +kernel

/-- `AtomicsIssue`: aligned words of both widths, a misaligned address, and lanes at the ends of a page, of which the second is misaligned. -/
theorem witness_atomics :
    (([4, 8] : List Nat).all fun n => let s := regs [(1, page (4096 - n)), (2, 5)] run
      ([.readWrite, .cas] : List Access).all (fun k => match spanPlace k (s.getS 1) n n 3 1 s with
        | .ok (ls, u) => answers (checkData (s.getS 1) ls u)
        | .error _ => false)
      && decide ((s.getS 1).toNat % n = 0))
    && decide ((page 2).toNat % 4 ≠ 0)
    && (([4092, 4093] : List Nat).all fun x => let s := lanes [(2, 31, x)] (regs [(1, page 0)] run); let addr := indexAddr (s.getS 1) (s.getV 2)
        let ls := (lanesOf (s.getK 0)).filter fun i => decide (s.th.erx.toNat % 32 ≤ i)
        ls.length == 32 && ls.dropLast.all (fun i => decide ((addr i).toNat % 4 = 0)) && (decide ((addr 31).toNat % 4 = 0) == (x == 4092))) = true := by decide +kernel

/-- A state in which the page at `big 8` may be read and not written. -/
def readOnly : State := { run with dram := Memory.writeN run.dram (0x103000 + 8 * 0x81) (leBytes 8 0xD7) }

/-- `AtomicsIssue`: a page that may be read and not written, and one that is not mapped. -/
theorem witness_atomicsRefused :
    ((readOnly.part? readOnly.who.part).any fun p => (match (findLeaf readOnly.who (big 8).toNat p.grant.ptroot readOnly).1 with
      | .ok (e, _, _) => natBit e 2 && !natBit e 3 && !natBit e 5
      | .error _ => false)
      && decide ((big 8).toNat % 8 = 0 ∧ (big 8).toNat < windowBase)
      && readOnly.who.grove.all fun g => !(readOnly.grove g).inWindow (big 8).toNat)
    && (([.readWrite, .cas] : List Access).all fun k => match resolveSpan run.who k 2 0x20000000 8 run with
        | .error (f, _) => f.cause != 0x12
        | .ok _ => false) = true := by decide +kernel

/-- `TaskForms`: amounts 0 and 1, handles 0 and not; records that R17 admits (the last frame size) and refuses (an odd entry, a home not
granted, a frame too large); a graph of one node, a busy graph, one with a wrong header, and one not mapped; results that wait for what
is before them, and ones that need not; a near counter that is at hand, and a pool that others wait for. -/
theorem witness_taskForms :
    (let recOf (bs : List Byte) : Except Nat (TaskDesc × Nat) :=
        let s := regs [(1, page 0x40)] (mem 0x40 bs run)
        match readsNow (page 0x40) (spanPlace .read (s.getS 1) 64 64 3 1 s) with
        | some b => readRecord (s.granted s.myPart) s.myPart (some s.th.core) (s.getS 1) b
        | none => .error 99;
      answers (recOf (taskRecord 0x10000000 0x7FF 256)) && (match recOf (taskRecord 1 0x7FF 0) with | .error o => o == 0 | _ => false)
        && (match recOf (taskRecord 0 16 0) with | .error o => o == 20 | _ => false)
        && (match recOf (taskRecord 0 0 257) with | .error o => o == 22 | _ => false))
    && (let graph (magic busy : Nat) : State := mem 0x80 (taskRecord 0x10000000 0 0) (mem 0x40 (leBytes 8 (page 0x80).toNat ++ zeroBytes 24) (mem 0
          (leBytes 4 magic ++ leBytes 2 1 ++ zeroBytes 10 ++ leBytes 4 busy ++ zeroBytes 4 ++ leBytes 8 (page 0x40).toNat ++ leBytes 8 (page 0x60).toNat
            ++ leBytes 8 (page 0xC0).toNat ++ zeroBytes 16) run));
        let plan (a : Word) (s : State) := let w := performAt 3 s.th.id s; replayPlan w.who (some w.th.core) a w;
        answers (plan (page 0) (graph 0x48505247 0)) && (match plan (page 0) (graph 0x48505247 1) with | .error .busy => true | _ => false)
          && (match plan (page 0) (graph 0 0) with | .error (.denied r o) => r == page 0 && o == 0 | _ => false)
          && (match plan 0x20000000 run with | .error (.fault _ _) => true | _ => false)
          && liveOf 0 (page 0) (graph 0x48505247 1) != 0 && liveOf 0 (page 0) run == 0 && !gathering 0 (page 0) run)
    && (let l : Load := { id := 8, dest := .s 3, val := .acting (.spawn {} 1), pc := 0, word := 0 };
        let e : StoreEntry := .line 3 false (.pa 0x105000 0) [];
        let s (q : List StoreEntry) : State := { run with th := { run.th with loads := [l], sq := q }, arg := { a := 0, b := 8 } };
        (s []).thread? 0 == some (s []).th && loadOf (s []).th 8 == some l && performedBefore (s []) 0 8 3 && !performedBefore (s [e]) 0 8 3
          && (placeCounter {} 1 run).isSome
          && (placeCounter { far := true } 1 (part0 (fun p => { p with waits := [⟨{}, 1, .none⟩] }) run)).isNone) = true := by decide +kernel

/-- `TaskForms`: a record behind an array command, and results that act late: a spawn whose record is admitted, one whose record is not,
one that must still wait, and a replay. -/
theorem witness_taskFormsLate :
    (blocked (page 0) (spanPlace .read (page 0) 64 64 3 1 (swapping run)) && !readable (page 0) (spanPlace .read (page 0) 64 64 3 1 (swapping run))
      && (let s (e : Nat) := late (.tspawn 3 1) (page 0x40) 0 (locs 0x40 64) (mem 0x40 (taskRecord e 0x7FF 256) run);
          ([0x10000000, 1] : List Nat).all fun e => match lateBytes (page 0x40) (locs 0x40 64) (s e) with
            | some bs => answers (readRecord (run.granted 0) 0 (some 0) (page 0x40) bs) == (e != 1)
            | none => false)
      && (let s := swapping (late (.tspawn 3 1) (page 0) 0 (locs 0 64) run);
          !(Acting.late (.tspawn 3 1) (page 0) 0 (locs 0 64)).ready s s.th { id := 8, dest := .s 3, val := .waiting, pc := 0, word := 0 })
      && (let s := late (.greplay 3 1) (page 0) 0 (locs 0 64) run; (lateBytes (page 0) (locs 0 64) s).isSome && performedBefore s 0 8 3)) = true := by
  decide +kernel

/-- `LaunchPackets`: targets that are refused, here and elsewhere; a packet that arrives at a partition; packets of each kind at the head of a
queue, and graphs whose id the requester may and may not replay, or that is busy; a host's write at the first place of a page and elsewhere; a
read of a status word and of the window, at the ends of its length. -/
theorem witness_launchPackets :
    (launchRefused run 0x20000 && !launchRefused run 0 && launchRefused run 1 && !launchRefused { run with domain := [1] } 1 && launchRefused run 0x400
      && readable (page 0) (spanPlace .read (page 0) 64 64 3 1 run) && (1 : Nat) % 1024 != run.pkg && 0 % 1024 == run.pkg
      && blocked (page 0) (spanPlace .read (page 0) 64 64 3 1 (swapping run))
      && (lateBytes (page 0) (locs 0 64) (late (.plnch 3 1 2) (page 0) 0x20000 (locs 0 64) run)).isSome)
    && (let s := arrives (.packet 0 0 0 0 (zeroBytes 64) (some (0, 1)) {}) run
        (arrived s s.arg.a).isSome && (s.part? 0).isSome && !s.failed.contains 0)
    && (([(1, 0, 0), (2, 0, 0), (3, 0, 0), (3, 4, 0), (3, 0, 1)] : List (Nat × Nat × Nat)).all fun q =>
        let kind := q.1
        let k : Packet := { bytes := leBytes 1 kind ++ zeroBytes 15 ++ leBytes 8 0x10000000 ++ zeroBytes 40, act := 5, slot := 0, sender := {}, started := false }
        let s := mem 0x40 (leBytes 8 (page 0x80).toNat ++ zeroBytes 24) (mem 0 (if kind = 3 then leBytes 4 0x48505247 ++ leBytes 2 1 ++ zeroBytes 2
            ++ leBytes 4 q.2.1 ++ zeroBytes 4 ++ leBytes 4 q.2.2 ++ zeroBytes 4
            ++ leBytes 8 (page 0x40).toNat ++ leBytes 8 (page 0x60).toNat ++ leBytes 8 (page 0xC0).toNat ++ zeroBytes 16 else taskRecord 0x10000000 0 0)
          (part0 (fun p => { p with landing := [{ cap := 16, packets := [k] }], act := [(5, 0)] }) run))
        let u := beginPacket 0 0 s
        (match s.part? 0 with | some p => (p.landing.getD 0 {}).packets == [k] && p.halt == .running | none => false)
          && (if kind = 1 then (match replaySpan (hwWho 0) .read 0x10000000 64 u with
              | .ok (bs, v) => answers (readRecord (v.granted 0) 0 none 0x10000000 bs)
              | .error _ => false)
            else if kind = 2 then answers (readRecord (u.granted 0) 0 none 0 (carriedRecord k.bytes))
            else graphDenied 0 5 0x10000000 u == (q.2.1 == 4)
              && (match replayPlan (hwWho 0) none 0x10000000 u with | .ok _ => q.2.2 == 0 | .error .busy => q.2.2 == 1 | .error _ => false)))
    && (let s := part0 (fun p => { p with landing := [{ cap := 16 }] }) run
        ([(0, 64), (8, 64), (0, 8)] : List (Nat × Nat)).all fun p => let t : State := { s with arg := { a := p.1, bytes := zeroBytes p.2 } }
          (match t.part? 0 with | some q => decide (t.arg.a / 128 % 128 % 16 < q.landing.length) | none => false)
            && (t.arg.a % 128 == 0 && t.arg.bytes.length == 64) == (p == (0, 64)))
    && decide ((1 : Nat) ≠ 0 ∧ 65536 ≤ 65536) = true := by decide +kernel

/-- `CrewsAndMigration`: nothing held, and a frame held; a target in this grove, and one in another; work outstanding and none; crew sizes at
their ends, in a crew and outside; leader and follower; a waiting JOIN that the picker lets go on, and one that it does not; a thread that
moves. -/
theorem witness_crewsAndMigration :
    (let s := regs [(1, page 0)] run; let u := performAt 3 s.th.id s
      (migrateStop s).isNone && migrateStop { s with th := { s.th with fc := [0] } } == some 1 && s.th.fc.isEmpty && s.th.decks.toList.all Option.isNone
        && s.th.streams.toList.all (fun x => !x.opened) && s.th.lc[0] == 0 && s.th.lc[1] == 0 && (s.myCore.tagOut &&& s.th.tagMask == 0)
        && writable (spanPlace .read (s.getS 1) 1 1 3 1 s) && u.th.redlog.isEmpty && (openWork 3 u).isEmpty && u.th.loads.isEmpty
        && (let v := run.pushLoad (.s 3) .waiting; !v.th.loads.isEmpty) && !(openWork 3 (performAt 3 0 (swapping run))).isEmpty)
    && (let s := part0 (fun p => { p with grant := { p.grant with groves := [0, 1] } }) run
        (migrateTarget s (.pa 0 0)).isNone && migrateTarget s (.pa 512 0) == some 16)
    && (([2, 16] : List Nat).all fun k => decide (run.th.core % 16 + k - 1 ≤ 15) && crewReady run run.th.core k run.th.task.ctags && !run.th.crew)
    && run.th.status == .running
    && !crewReady { run with cores := Table.put 1 { run.core 1 with tagAllot := -1 } run.cores } run.th.core 2 1
    && (let s (cidx : BitVec 4) : State := { run with th := { run.th with crew := true, cidx := cidx } }
        (s 0).th.crew && (s 1).th.cidx != 0 && joinReady (s 0) (s 0).th && (detachedOf (s 0)).isEmpty && (s 1).th.attached
          && !({ (s 1).th with det := true }).attached)
    && (([false, true] : List Bool).all fun crew => let s := waits .join { run with th := { run.th with crew := crew } }
        s.thread? s.arg.a == some s.th && (s.focus s.th.id).th == s.th && pickedWait s s.th .joinReconverge && (detachedOf (s.focus s.th.id)).isEmpty
          && !pickedWait { s with cores := Table.put 0 { s.core 0 with dwb := 1 } s.cores } { s.th with core := 1 } .joinReconverge)
    && (let s := arrives (.migrate 3 0 (zeroBytes 160)) { run with th := { run.th with status := .moving } }
        (arrived s s.arg.a).isSome && s.thread? 0 == some s.th && (s.core 3).inbound.isEmpty && decide ((s.core 3).runq.length < 64)) = true := by decide +kernel

/-- `DeckForms`: a control block in the window, at its end and outside; counts at and beyond the deck's; enough slots and too few; an advance
that may act at once, and one that a store is before; waits that the picker lets go on, and one that it does not; a view with no queued advance. -/
theorem witness_deckForms :
    (let d (fill : Nat) := deck 1 0x80 0x1000 0 4 0 fill fill run; let s := d 2; let x := deckView s.th.id (deckAt s.th.core 0x80 s) s
      deckValid s.th.core 0x80 s && deckValid 0 0x1FFE0 s && !deckValid 0 0x20000 s && !deckValid 0 0x81 s && s.th.decks.toList.getD 0 none == none
        && s.th.decks.toList.getD 1 none == some 0x80
        && x.n == 4 && x.fill == 2 && x.room == 2 && (deckView 0 (deckAt 0 0x80 (d 0)) (d 0)).fill == 0
        && ([false, true] : List Bool).all (fun p => advanceReady s s.th s.fresh p 0 0x80)
        && (let e : StoreEntry := .line 0 false (.pa 0x105000 0) []; let t : State := { s with th := { s.th with sq := [e] } }; !advanceReady t t.th t.fresh true 0 0x80)
        && s.all.all (fun t => t.sq.isEmpty) && (let e := deckAt 0 0x80 s; decide (0 < e.n ∧ e.head < e.n ∧ e.tail < e.n))
        && (regs [(1, BitVec.ofNat 64 (windowBase + 0x80))] s).getS 1 == cbAddr 0x80)
    && (let s := deck 1 0x80 0x1000 0 4 0 2 2 run
        ([(.deckC 0x80 2, true), (.deckP 0x80 2, true), (.deckC 0x80 3, false)] : List (Wait × Bool)).all fun p => let t := waits p.1 s
          t.thread? t.arg.a == some t.th && pickedWait t t.th .deckWaitComplete == p.2) = true := by decide +kernel

/-- `TagForms`: masks inside and outside the group; tags unset, set, marked; waits that the picker lets go on, with a mark and without, and
one that it does not. -/
theorem witness_tagForms :
    let s (ctb err : Word) : State := { (run.setCore 0 { run.core 0 with ctb := ctb, tagErr := err }) with th := { run.th with tagged := true, task := { run.th.task with ctags := 1 } } }
    let m := (s 0 0).th.tagMask
    ((m &&& 1 == 1) && (~~~m != 0) && ((s 0 0).myCore.ctb &&& 1 == 0) && ((s 1 0).myCore.ctb &&& 1 == 1) && ((s 1 0).myCore.tagErr &&& 1 == 0)
      && ((s 1 1).myCore.ctb &&& (s 1 1).myCore.tagErr &&& 1).getLsbD 0
      && ([(s 1 0, true), (s 1 1, true), (s 0 0, false)] : List (State × Bool)).all (fun p => ([.tagAny 1, .tagAll 1] : List Wait).all fun w =>
        let t := waits w p.1
        t.thread? t.arg.a == some t.th && (t.focus t.th.id).th == t.th && pickedWait t t.th .copyTagWaitComplete == p.2)) = true := by decide +kernel

/-- `CopyForms`: an aligned and a misaligned block; a tag that is free and one that is not; a command not read, with and without something that
must come first; one read that is first, alone and over one at a boundary; one that a running one keeps from starting; one running that nothing
interrupts; one whose data have moved. -/
theorem witness_copyForms :
    (let s : State := { run with th := { run.th with tagged := true, task := { run.th.task with ctags := 1 } } };
      s.th.ownsTag 3 && !s.th.ownsTag 4 && !s.myCore.tagOut.getLsbD 3 && !s.myCore.tagErr.getLsbD 3 && decide ((page 0).toNat % 64 = 0)
        && decide ((page 32).toNat % 64 ≠ 0))
    && (let at_ (cs : List CopyCmd) : State := { (run.setGrove 0 { run.grove 0 with copies := cs }) with arg := { a := 0, b := 7 } };
        let read := { copyCmd with bytes := zeroBytes 64 }; let low : CopyCmd := { read with id := 5, pri := 0, gran := 1, state := .running };
        let starts (cs : List CopyCmd) : Bool := let s := at_ cs; (firstCopy (cs.filter (startable s))).map (·.id) == some 7
          && cs.all fun d => d.state != .running || (decide (d.pri < read.pri) && d.gran != 0 && d.boundary);
        ([copyCmd, read, { read with state := .moved }] : List CopyCmd).all (fun c => ((at_ [c]).grove 0).copies.find? (fun x => x.id == 7) == some c)
          && performedBefore (at_ [copyCmd]) 0 7 3
          && (let s := at_ [copyCmd]; !performedBefore { s with th := { s.th with sq := [.line 3 false (.pa 0 0) []] } } 0 7 3)
          && starts [read] && starts [low, read] && !starts [{ low with gran := 0 }, read] && !starts [{ low with boundary := false }, read]
          && !starts [{ low with pri := 1 }, read]
          && (let c := { read with state := .running }; let s := at_ [c]; firstCopy ([c].filter fun d => d.state == .running) == some c
              && [c].all fun d => !startable s d)) = true := by decide +kernel

/-- `StreamForms`: streams unopened, open, in error; a descriptor that names a deck, one that names none, one not mapped, one that cannot be
read; room for the flits and none; flits that arrive at a free deck, a taken one, and at their own route, with room and without; a closing
marker with bytes of a slot and without, and an opening flit that waits. -/
theorem witness_streamForms :
    (let s := deck 1 0x80 0x1000 0 4 0 0 0 run;
      let x : Stream := { opened := true, dcb := 0x80, route := 5 };
      let t : State := { s with th := { s.th with streams := s.th.streams.set 0 x } };
      !(s.stream 0).opened && (t.stream 0).opened && !(t.stream 0).error && readable (page 0) (spanPlace .read (page 0) 16 1 3 1 s)
        && !answers (spanPlace .read 0x20000000 16 1 3 1 s) && (s.granted s.myPart 0 && deckValid 0 0x80 s) && !s.granted s.myPart 999
        && (let b : BadStorage := ⟨.mem (.pa 0x105000 0), 1, false, false, false⟩; match spanPlace .read (page 0) 16 1 3 1 { s with bad := [b] } with
            | .ok (ls, u) => !answers (checkData (page 0) ls u)
            | .error _ => false)
        && outboundFree t x == 8 && (let f : State := { t with msgs := (List.range 32).map fun i => ⟨i, 0, 0, none, .flit 0 0x80 5 []⟩ }; outboundFree f x == 0))
    && (let s (fill : Nat) := deck 1 0x80 0x1000 0 4 0 0 fill run;
        let held (bs : List Byte) (fill : Nat) : State := (s fill).setCore 0 { (s fill).core 0 with routes := [⟨0x80, 5, bs, 0⟩], claims := [(0x80, 6)] };
        let comes (m : Msg) (s : State) : Bool := (arrived (arrives m s) 7).isSome;
        comes (.openFlit 0 0x80 5) (s 0) && ((s 0).core 0).routes.all (fun y => y.dcb != 0x80) && comes (.openFlit 0 0x80 6) (held [] 0)
          && ((held [] 0).core 0).routes.any (fun y => y.dcb == 0x80) && comes (.flit 0 0x80 5 (zeroBytes 32)) (held [] 0) && holdsRoute (held [] 0) 0 0x80 5
          && !holdsRoute (held [] 0) 0 0x80 6
          && decide (0 < (unitDeck true 0 0x80 (held [] 0)).room) && decide ((unitDeck true 0 0x80 (held [1] 4)).room = 0) && comes (.closeFlit 0 0x80 5) (held [1] 0)
          && (((held [1] 0).core 0).routes.find? fun y => y.dcb = 0x80).map (·.bytes.length) == some 1
          && (((held [] 0).core 0).claims.find? fun p => p.1 = 0x80) == some (0x80, 6)) = true := by decide +kernel

/-- `ArrayForms`: a data error and none; tiles owned and not; a claim of another core; room and none; tile positions at both ends; spans of the
largest formats; deck operands. -/
theorem witness_arrayForms :
    (let s := wide run; let x := s.array 0;
      let claimed := array0 (fun x => { x with own := 5 }) s; let full := array0 (fun x => { x with aq := List.replicate 16 (arrayCmd (.mzero 0)) }) s;
      s.th.dataErr.isNone && ownerOf x.ownAhead 0 == s.th.core % 4 && ownerOf x.ownAhead 3 != s.th.core % 4
        && (claimed.array 0).ownAhead.getLsbD 2 && (claimed.array 0).ownAhead.toNat % 4 != s.th.core % 4 && arrayRoom x && !arrayRoom (full.array 0)
        && ((0 : Word) &&& ~~~0xCFF == 0) && decide (regionTiles x.cfg ≤ (0 : Word).toNat % 256) && decide (regionTiles x.cfg ≤ (0xFF : Word).toNat % 256)
        && decide (3 < rowHalves .e4m3 true) && decide (1 < rowHalves .bf16 true) && decide (0 < rowHalves .bf16 false)
        && (groveArrays s).all (fun j => decide (regionTiles (s.array j).cfg ≤ 0))
        && answers (spanOf .read (big 0) (aTileBytes .bf16) 64 3 1 s) && answers (spanOf .read (big 0) (bTileBytes .bf16) 64 3 1 s)
        && answers (spanOf .write (big 0) (drainBytes .f32) 64 3 1 s) && answers (spanOf .readWrite (big 0) 8256 64 3 1 s))
    && (let s := deck 1 0x80 0x1000 3 32 0 0 0 run;
        answers (deckOperand 1 (aTileBytes .bf16) s) && answers (deckOperand 1 (drainBytes .f32) s)) = true := by decide +kernel

/-- `ArrayEvents`: each command at the head of the queue, its places readable; places that an earlier access touches; a tile that can be read and
one that cannot; a tile handed to the array; a tile at hand in a deck and not; a drain to a deck with a free slot and none, its last slot and one
before; what must come first outstanding; a round of all four arrays. -/
theorem witness_arrayEvents :
    (([.mown 1, .mzero 0, .mflag 3 0, .msacc 1 0 2, .mma 0 1 2 3 0 0, .mlda 0 1 3 0, .mldb 1 2 3 0, .mdrain 0 1 0 0 0 0 0 0, .mswap 0 1] : List Instr).all fun i =>
        let c := { arrayCmd i with load := some 3 }; let s := array0 (fun x => { x with aq := [c] }) { run with arg := { a := 0 } };
        let t : State := { s with th := { s.th with sq := [.line 3 false (.pa 0x105000 0) []] } };
        headCommand s 0 == some c && c.decks.isEmpty && c.data.isNone && !c.failed && arrayMay c s && !arrayMay c t && !(arrayRead c c.byteAddr (spanLocs c.locs) s).2.1)
    && (let b : BadStorage := ⟨.plane 0 0, 1, false, false, false⟩; (badSlice run 0 0 16384).isNone && badSlice { run with bad := [b] } 0 0 16384 == some b && !b.transient)
    && (let s (fill : Nat) := deck 1 0x80 0x1000 3 32 0 0 fill run; let d (fill : Nat) := unitDeck false 0 0x80 (s fill);
        decide (aTileBytes .e4m3 ≤ (d 32).fill * (d 32).size) && decide ((d 0).fill * (d 0).size < aTileBytes .e4m3)
        && (let c := { arrayCmd (.mlda 0 1 3 1) with decks := [(0, 0x80)] }; headCommand (array0 (fun x => { x with aq := [c] }) (s 32)) 0 == some c
            && (arrayRead c (fun i => cbAddr (deckByte (d 32) true i)) [.ls 0 0x1000] (s 32)).2.1 == false)
        && (unitDeck true 0 0x80 (s 32)).room == 0 && decide (0 < (unitDeck true 0 0x80 (s 0)).room) && performedBefore (s 0) 0 9 3
        && !performedBefore { s 0 with th := { (s 0).th with sq := [.line 3 false (.pa 0 0) []] } } 0 9 3
        && decide (drainBytes .e4m3 ≤ (d 0).size * (drainBytes .e4m3 / (d 0).size - 1 + 1)) && decide ((d 0).size * (0 + 1) < drainBytes .e4m3))
    && (let c := arrayCmd (.mma 0 1 2 3 0 1); let s := ([0, 1, 2, 3] : List Nat).foldl (fun s j => s.setArray j { s.array j with aq := [c] }) run;
        ([0, 1, 2, 3] : List Nat).all fun j => (headRound s j).isSome) = true := by decide +kernel

/-- `PlaneForms`: an entry that is admitted and one that is not; decks of the three sizes, and one of another; room and none; counts at the end
of their range; plane addresses of synapses and registers, and of neither; a synapse that can be read and one that cannot. -/
theorem witness_planeForms :
    (let s := run; let x := s.array 0;
      s.th.dataErr.isNone && readable (page 0) (spanPlace .read (page 0x200) 208 8 3 1 s) && planeEntryFault 0 (zeroBytes 208) == none
        && planeEntryFault 0 (2 :: zeroBytes 207) == some 0 && decide (x.pq.length < 16) && !x.frozen
        && decide ((0xFFFF : Word).toNat < 2 ^ 16) && decide (2 ^ 16 ≤ (0x10000 : Word).toNat) && (planeLoc x 0 false).isNone
        && (let y : MArray := { x with cfg := 1 }; match planeLoc y 0 true with
          | some (.synapse o n) => (badSlice s 0 o n).isNone && (badSlice { s with bad := [⟨.plane 0 o, 1, false, false, false⟩] } 0 o n).isSome
          | _ => false))
    && (let x : MArray := {};
        planeLoc x 0x10000001 true == some (.reg 1) && planeLoc x 0x10000000 false == some (.reg 0) && (planeLoc x 0x10000000 true).isNone
          && planeRegWritable 1 && (planeReg x 1).isSome && planeRegWritable 0x7F && decide (2 ^ 29 ≤ (0x20000000 : Word).toNat))
    && (let s := deck 2 0xC0 0x2000 2 4 0 0 1 (deck 3 0xE0 0x3000 2 4 0 0 1 (deck 1 0x80 0x1000 3 4 0 0 0 run));
        let size (h : BitVec 3) : Nat := match boundDeck s h 2 0 with | .ok d => d.size | .error _ => 0;
        size 1 == 256 && size 2 == 128 && size 3 == 128) = true := by decide +kernel

/-- `PlaneEvents`: PCFG at the head, with nothing running and a reward queued; a step that its decks let start, with the gate open and shut, its
region readable and not; fades; sweeps of each kind that run; rewards that arrive, with room, behind eight, and behind a held one; due entries of
each kind. -/
theorem witness_planeEvents :
    (let s := array0 (fun x => { x with pq := [{ arrayCmd (.pcfg 1) with data := some (zeroBytes 208) }] }) run; let x := s.array 0;
      (x.pq.head?.bind (·.data)).isSome && !x.frozen && x.rq.isEmpty && x.running.isNone && !({ x with rq := [⟨0, 0, true, false⟩] } : MArray).rq.isEmpty)
    && (let c := { arrayCmd (.pstep 1 2 3) with decks := [(0, 0x80), (0, 0xC0), (0, 0xE0)] }
        let s := array0 (fun x => { x with pq := [c], cfg := 1 }) (deck 2 0xC0 0x2000 2 4 0 0 1 (deck 3 0xE0 0x3000 2 4 0 0 1 (deck 1 0x80 0x1000 3 4 0 0 0 run)));
        let region := planeRows (s.array 0).cfg * rowBytes (s.array 0).cfg; let b : BadStorage := ⟨.plane 0 0, 1, false, false, false⟩
        headReady s 0 == some c && decide ((s.array 0).psc.toNat + 1 ≤ (s.array 0).pgl.toNat) && (badSlice s 0 0 region).isNone
          && badSlice { s with bad := [b] } 0 0 region == some b
          && (let t := array0 (fun x => { x with pgl := 0 }) s; headReady t 0 == some c && decide ((t.array 0).pgl.toNat < (t.array 0).psc.toNat + 1)))
    && (let c := { arrayCmd (.pfade 1) with left := 1 }; let s := array0 (fun x => { x with pq := [c] }) run;
        headReady s 0 == some c && (s.array 0).running.isNone)
    && (([0, 1, 2] : List Nat).all fun k =>
        let r : RunningStep := { kind := k, events := [], post := [], coeff := [], reward := some ⟨0, 0, false, false⟩ };
        ((array0 (fun x => { x with running := some r }) run).array 0).running == some r)
    && (let r (cut : Word) (g : Bool) : Reward := ⟨0, cut, g, false⟩
        ([true, false] : List Bool).all fun g =>
          let s := arrives (.reward 0 (r 0 g)) run; let full := array0 (fun x => { x with rq := List.replicate 8 (r 9 g) }) s;
          let due := array0 (fun x => { x with rq := [r 0 g, r 1 g] }) run;
          ([s, full, array0 (fun x => { x with held := [r 1 g] }) s] : List State).all (fun s => (arrived s s.arg.a).isSome)
            && (s.array 0).held.isEmpty && decide ((s.array 0).rq.length < 8) && decide (8 ≤ (full.array 0).rq.length)
            && nextReward (due.array 0) == some (r 0 g)) = true := by decide +kernel

/-- `NearForms`: completion words that are admitted (with a free tag) and refused; room and none; an NFENCE with commands, with none and with an
error; a block that is admitted and one that is not; slots free and full; handles that name a job in each state, and none. -/
theorem witness_nearForms :
    (let s := (wide run); let t : State := { s with th := { s.th with tagged := true, task := { s.th.task with ctags := 1 } } };
      ((0x100 : Word) &&& ~~~0x1D3F == 0) && ((0x2000 : Word) &&& ~~~0x1D3F != 0) && t.th.ownsTag 0 && !t.myCore.tagOut.getLsbD 0 && !t.myCore.tagErr.getLsbD 0
        && !s.th.ownsTag 0 && decide ((page 0).toNat % 64 = 0) && decide ((page 1).toNat % 64 ≠ 0) && decide ((s.stand 0).walkq.length < 4352)
        && s.th.nearCount == 0 && s.th.nearErrs.isEmpty)
    && (let q := s4352; decide (4352 ≤ (q.stand 0).walkq.length))
    && (([(breBlock, true), (zeroBytes 192, false)] : List (List Byte × Bool)).all fun p =>
        let s := mem 0x100 p.1 run; let sp := spanPlace .read (page 0x100) 192 64 3 1 s;
        readable (page 0x100) sp && bytesOf sp == p.1 && (let j := newJob (page 0x100) p.1 0 0 s; j.badField.isNone == p.2 && (!p.2 || answers (flagCheck j 1 s))))
    && (chooseSlot [] []).isSome && (chooseSlot [] ((List.range 32).map fun i => (i, ({} : BreJob)))).isNone && (chooseSlot (List.range 32) []).isNone
    && (([0, 1, 2, 3] : List Nat).all fun st => let j : BreJob := { seq := 5, state := st }; let va : Word := BitVec.ofNat 64 (5 * 256 + 128);
        decide (va.toNat < 2 ^ 32) && va.getLsbD 7 && va.toNat / 2 ^ 8 % 2 ^ 24 == j.seq && Table.find (va.toNat / 4 % 32) [(0, j)] == some j) = true := by
  decide +kernel

/-- `NearEvents`: a command not read, with and without something that must come first; one to start; one running, at a boundary and not, whose
record is done or fails; one done; a job to start, alone and over one at a boundary; one with a piece to do that is done and one that fails; one
to complete, done and failed; an NFENCE that the picker lets go on, with and without an error, and one that it does not. -/
theorem witness_nearEvents :
    (let at_ (cs : List NearCmd) : State := { (run.setStand 0 { run.stand 0 with walkq := cs }) with arg := { a := 0, b := 7 } };
        let read := { walkCmd with bytes := zeroBytes 128 };
        ([walkCmd, read, { read with state := .running }, { read with state := .running, gran := 1 }, { read with state := .moved }] : List NearCmd).all fun c =>
        let s := at_ [c]; let x := s.stand s.arg.a;
        x.walkq.find? (fun y => y.id == s.arg.b) == some c && performedBefore s c.tid c.id 5
          && !performedBefore { s with th := { s.th with sq := [.line 3 false (.pa 0 0) []] } } c.tid c.id 5
          && (c.state != .queued || c.bytes.isEmpty || ((firstNear (x.walkq.filter (nearStartable s))).map (·.id) == some c.id
            && decide (runningOver x.walkq c.pri < walkersAtOnce x)))
          && (c.atBoundary == (c.gran == 1)) && standOfCore c.core == s.arg.a
          && decide ((x.walkq.filter fun y => y.state == .running && decide (c.pri < y.pri)).length < walkersAtOnce x))
    && (let c := { walkCmd with bytes := zeroBytes 128 ++ leBytes 8 (page 0x200).toNat ++ zeroBytes 8 ++ leBytes 8 (page 0x800).toNat ++ [0, 0, 1, 0] ++ zeroBytes 4
                                state := .running };
        answers (nearItem c run) && !answers (nearItem { c with regions := [] } run))
    && (let j0 := newJob (page 0) breBlock 0 0 run; let j := { j0 with regions := j0.spans };
        let s (js : Table BreJob) : State := { (run.setStand 0 { run.stand 0 with bre := js }) with arg := { a := 0, b := 3 } };
        let first (s : State) := firstJob ((s.stand 0).bre.filter fun q => jobStartable s 0 q.2);
        let low : BreJob := { j with pri := 0, gran := 1, state := 1 };
        first (s [(3, j)]) == some 3 && first (s [(2, low), (3, { j with pri := 1 })]) == some 3 && low.atBoundary
          && (let k := { j with state := 1 }; let t := s [(3, k)];
              firstJob ((t.stand 0).bre.filter fun q => decide (q.2.state = 1) && !partHalted t q.2.part) == some 3 && k.failed.isNone && decide (k.pos < k.count)
                && !k.atBoundary && answers (jobPiece 0 3 k t) && !answers (jobPiece 0 3 { k with regions := [] } t) && !partHalted t k.part)
          && (let k := { j with state := 1, pos := 1 }; decide (k.count ≤ k.pos) && ({ k with failed := some (1, 2) } : BreJob).failed.isSome))
    && (([([], 0), ([(1, 2)], 0), ([], 1)] : List (List (Word × Word) × Nat)).all fun p =>
        let s := waits .nfence { run with th := { run.th with nearErrs := p.1, nearCount := p.2 } };
        s.thread? s.arg.a == some s.th && (s.focus s.th.id).th == s.th && pickedWait s s.th .nfenceComplete == (p.2 == 0)) = true := by decide +kernel

/-- `Networks`: a network that is granted, one that is not; entry open and closed; counts at both ends and beyond; privileges; a block admitted
and one refused; a base at the end of its range and beyond; tokens at the first layer and past the last, with room in the counter and without; a
network that is quiet, one with a token in flight, and a store of a save block that an array command is before. -/
theorem witness_networks :
    (let s := part0 (fun p => { p with grant := { p.grant with nets := [5] } }) run;
      netGranted s s.myPart 5 && !netGranted s s.myPart 6 && decide (run.th.priv = 0) && (s.net 5).entry == 0 && !(s.net 5).broken
        && ((s.setNet 5 { s.net 5 with entry := 1 }).net 5).entry != 0 && decide ((4096 : Word).toNat ≤ 4096) && decide (4096 < (4097 : Word).toNat)
        && writable ((spanOf .write (page 0) 768 64 4 2 s).map fun r => (spanLocs r.1, r.2))
        && readable (page 0x400) (spanPlace .read (page 0x400) 768 64 4 2 s) && netBlockFault 5 (zeroBytes 768) == none
        && netBlockFault 5 (zeroBytes 136 ++ [1] ++ zeroBytes 631) == some 136 && decide ((0x00FFFFFFFFFFFFFF : Word).toNat < 2 ^ 56)
        && decide (2 ^ 56 ≤ (0x0100000000000000 : Word).toNat))
    && (([0, (netLayers (netLog 5)).length] : List Nat).all fun layer => let s := arrives (.token 5 layer 0 1 0 3) run;
        (arrived s s.arg.a).isSome && ((netLayers (netLog 5))[layer]?).isSome == decide (layer < (netLayers (netLog 5)).length))
    && (let x : Net := { counters := [(0, 2 ^ 48)] }; decide (2 ^ 48 < (Table.find 0 x.counters).getD 0 + 1) && decide ((Table.find 1 x.counters).getD 0 + 1 ≤ 2 ^ 48))
    && (([0, 1, 2] : List Nat).all fun what =>
        let y : Thread := { run.th with status := .holding (.net what 5 0 (zeroBytes 768) (if what = 0 then [(.pa 0x105000 0, 768)] else [])) };
        let s : State := { (run.setNet 5 { run.net 5 with pending := [0] }) with th := y, arg := { a := 5 } };
        let ls := spanLocs (if what = 0 then [(.pa 0x105000 0, 768)] else []);
        (s.net 5).pending == [0] && netQuiet s 5 && s.thread? 0 == some y && (s.focus 0).th == y && !arrayBefore s 0 s.fresh ls
          && !netQuiet { s with msgs := [⟨9, 0, 0, none, .token 5 0 0 1 0 3⟩] } 5)
    && (let s := array0 (fun x => { x with aq := [{ arrayCmd (.mswap 0 1) with id := 0 }] }) run; arrayBefore s 0 s.fresh [.pa 0x105000 0]) = true := by decide +kernel

/-- `Statistics`: the last record granted and the first not; words admitted and refused, at the ends of their ranges; a record that can be
read and one that cannot; generations awaited and not; formats with an exponent and without; a partial that arrives for each. -/
theorem witness_statistics :
    (let s := part0 (fun p => { p with grant := { p.grant with recN := 4, recB := 0x110000 } }) run;
      let ls := (List.range 64).map fun j => Loc.pa (0x110000 + 64 * 3 + j) 0;
      match s.part? s.myPart with
      | some p => recordOk p 3 && !recordOk p 4 && decide ((0xFF08 : Word).toNat / 16 % 16 = 0) && decide ((0xFF08 : Word).toNat % 16 ≤ 8)
          && !decide ((9 : Word).toNat % 16 ≤ 8) && decide (¬ (0x10000 : Word).toNat < 2 ^ 16) && decide ((7 : Word).toNat < 8) && decide (8 ≤ (8 : Word).toNat)
          && answers (checkData 0 ls s) && !answers (checkData 0 ls { s with bad := [⟨.mem (.pa 0x1100C0 0), 1, false, false, false⟩] })
          && !readBlocked (beforeReading ls s) ls
          && (let u := sawHome 0 ls (settleRaised s.th true false ls s); leField (recordRead p 3 u) 4 4 == 0 && (u.getS 2).toNat % 2 ^ 32 == 0
              && (u.getS 1).toNat % 2 ^ 32 == 0 && ((regs [(1, 1)] u).getS 1).toNat % 2 ^ 32 == 1)
          && (scaleExponent 3).isSome && (scaleExponent 0).isNone
          && ((List.range 5).all fun i => (arrived (arrives (.statistics 0 (BitVec.ofNat 64 i) {} {}) s) 7).isSome)
      | none => false) = true := by decide +kernel

/-- `EventCrossbar`: an image that is admitted and one that is not; operands at the ends of each range of EVRD; privileges; entries of the
table at the last index and beyond, admitted and refused; one pulse in the fabric, for a crossbar that is disabled and one that is not; counters
at their ends. -/
theorem witness_eventCrossbar :
    (let img := leBytes 4 0x43585645 ++ leBytes 2 0x0100 ++ zeroBytes 634; let sp (bs : List Byte) := spanPlace .read (win 0x9000) 640 64 3 1 (local0 0x9000 bs run);
      readable (win 0x9000) (sp img) && imageFault 0 (bytesOf (sp img)) == none && imageFault 0 (bytesOf (sp [])) == some 0)
    && (([0x0F, 0x10, 0x1F, 0x20, 0x3F, 0x40, 0x4F, 0x50] : List Nat).map fun v => (decide (v < 0x10), decide (0x50 ≤ v)))
        == [(true, false), (false, false), (false, false), (false, false), (false, false), (false, false), (false, false), (false, true)]
    && decide (run.th.priv = 0) && decide ((255 : Word).toNat < 256) && decide (256 ≤ (256 : Word).toNat)
    && readable (page 0) (spanPlace .read (page 0) 16 16 4 2 run) && actFault 0 == none && actFault 640 == some 0 && (run.part? run.myPart).isSome
    && (([[], [1]] : List (List Byte)).all fun img =>
        let s0 := run.setGrove 0 { run.grove 0 with evx := { image := img } };
        let e : Envelope := ⟨7, 0, 0, none, .pulse 0 48⟩;
        let s : State := { s0 with msgs := [e], arg := { a := 0, list := [7] } };
        (s.msgs.filter fun f => f.seq == 7) == [e] && mayArrive s e && (s.grove 0).evx.outs.isEmpty)
    && decide (0 / 2 ^ 22 % 2 = 0) && decide (2 ^ 22 / 2 ^ 22 % 2 = 1) && decide ((65535 : BitVec 16).toNat = 65535) && decide (1 < (2 : BitVec 16).toNat) = true := by
  decide +kernel

/-- `HaltAndContext`: each privilege; partitions that may be halted, resumed and not; locations in range and not; slots with a thread and
without, and one with an open stream; blocks with and without a context, of a thread that CTXSV saved, of one at another core, and of none; a
block that cannot be read. -/
theorem witness_haltAndContext :
    (let s := wide (saved 0 run); let g := s.setGrove 0 { s.grove 0 with owner := some 0 };
      let m : State := regs [(1, win 0x9000)] { g with booted := 5, th := { g.th with priv := 2 } };
      let places (k : Access) := spanPlace k (win 0x9000) 4096 64 2 1 m;
      run.th.priv != 2 && m.th.priv == 2 && haltRefusal 0 m == none && haltRefusal 1 m == some 4 && haltRefusal 0 run == some 2 && resumeRefusal 0 m == some 1
        && (let h := m.onPart 0 fun p => { p with halt := .halted, image := { grant := some p.grant } }; resumeRefusal 0 (mem 0x404 [2] h) == none)
        && contextPlace 0 false m == some 0 && contextPlace 0 true m == some 0 && contextPlace 0x2000 false m == none
        && (threadAt 0 m).isSome && (threadAt 1 m).isNone && m.th.streams.toList.all (fun x => !x.opened)
        && ({ m.th with streams := m.th.streams.set 3 { opened := true } } : Thread).streams.toList.any (fun x => x.opened)
        && (match places .write with
            | .ok (ls, _) => let r := performAt 5 m.th.id m; ls.length == 4096 && !readBlocked r (ls.take 64)
            | .error _ => false)
        && (match places .read with
            | .ok (ls, u) => let v := beforeReading ls u; answers (checkData (win 0x9000) (ls.take 64) u) && !readBlocked v (ls.take 64)
                && !answers (checkData (win 0x9000) (ls.take 64) { u with bad := [⟨.mem (.ls 0 0x9000), 1, false, false, false⟩] })
            | .error _ => false)
        && (([0, 1] : List Byte).all fun b => (readAs m.th true [.ls 0 0x9000] (local0 0x9000 [b] m)).1 == [b])
        && readBlocked (performAt 5 0 (swapping run)) (locs 0 64) && readBlocked (beforeReading (locs 0 64) (swapping run)) (locs 0 64)
        && (let u : Thread := { m.th with id := 3, status := .saved, slot := 0 }; let t : State := { m with threads := [u], th := { m.th with slot := 2 } };
            t.all.find? (fun t => describedBy (zeroBytes 64) t && decide (t.core = 0 / 4)) == some u && (threadAt 0 t).isNone
              && (t.all.all fun t => !describedBy (zeroBytes 64) t || t.core != 4 / 4) && t.all.any (describedBy (zeroBytes 64))
              && m.all.all fun t => !describedBy (zeroBytes 64) t)) = true := by decide +kernel

/-- `MemoryEvents`: a load with data, one with an error, ones still to be read with and without something that must come first, one that is to
act, errors of a thread that has a slot, has none, and that a fault is ending; a store that none precedes and one that none may perform; a piece of
it; a store at each level short of its home; an atomic, ready and not; a FENCEH whose core drains, one with an array command before its mark, and
one whose cores have drained; updates that are ready and not; writes of L2WP that are taken and refused; a change in progress. -/
theorem witness_memoryEvents :
    (let p : LoadPart := ⟨0, page 0, [.pa 0x105000 0]⟩;
      ([.data 5 false, .error 1 2, .fault 8 0 1 2 3, .reading (.scalar false 1) [p] [], .acting (.spawn {} 0)] : List LoadVal).all fun v =>
        let l : Load := { id := 3, dest := .s 4, val := v, pc := 0, word := 0 };
        let s : State := { run with th := { run.th with loads := [l] }, arg := { a := 0, b := 3 } };
        let t : State := { s with th := { s.th with sq := [.line 2 false (.pa 0x105000 0) []] } };
        s.thread? 0 == some s.th && loadOf s.th 3 == some l && s.th.bound && s.th.dying.isNone && mayPerform s s.th 3 l.places
          && (v.trap?.isSome == (v == .error 1 2 || v == .fault 8 0 1 2 3)) && (Acting.spawn {} 0).ready s s.th l && !(Acting.spawn {} 0).ready t t.th l
          && !({ s.th with status := .parked .join 0 } : Thread).bound && !({ s.th with dying := some 1 } : Thread).dying.isNone && mayPerform s s.th 3 p.locs
          && mayPerform t t.th 3 p.locs == false && (v != .reading (.scalar false 1) [p] [] || (readLoad 0 3 s).th.loads.length == 1))
    && (let q : QStore := { no := 3, parts := [⟨[.pa 0x105000 0], 7, 255⟩], rel := none, lvl := 0, clocks := [], part := none, issuer := {} };
        let a : AtomOp := { no := 4, kind := 0, op := 0, width := 4, va := page 0, locs := [.pa 0x105000 0], operand := 1, expected := 0, load := none
                            word := 0, lane := 0, isVector := false, priv := 0, clocks := [] };
        let s (sq : List StoreEntry) (atq : List AtomOp) : State := { run with th := { run.th with sq := sq, atq := atq }, arg := { a := 0 } };
        let one := s [.store q] []; let behind := s [.line 2 false (.pa 0x105000 0) [], .store q] [];
        one.th.sq[0]? == some (.store q) && entryReady one one.th 0 && mayPerform one one.th 3 q.places && !raisedOn one one.th q.places
          && !entryReady behind behind.th 1 && pieceReady one one.th q 0 && !pieceReady behind behind.th q 0
          && raiseReady one one.th 1 q && raiseReady one one.th 2 q && !raiseReady behind behind.th 1 q
          && atomReady (s [] [a]) (s [] [a]).th a && !atomReady (s [.store q] [a]) (s [.store q] [a]).th a)
    && (([[5], [5, 6]] : List (List Nat)).all fun cs => let x : Thread := { run.th with status := .holding (.fenceh cs) };
        let s : State := { run with th := x, arg := { a := 0, b := 5 } }; s.thread? 0 == some x && cs.contains 5 && markedDone 5 (drainMarked 5 s))
    && (let s := swapping { run with th := { run.th with sq := [.mark 3], status := .holding (.fenceh [0]) } }; !markedDone 0 (drainMarked 0 s))
    && (let s : State := { run with th := { run.th with status := .holding (.fenceh []) } };
        pickedWait s s.th .fencehTargetDrain && !pickedWait s { s.th with core := 1 } .fencehTargetDrain)
    && (let s : State := { run with msgs := [⟨7, 0, 0, none, .update 1 0 [1, 0, 0, 0] [(0, 1)]⟩], arg := { a := 7 } };
        (s.msgs.find? fun e => e.seq = s.arg.a).isSome && updateReady s 1 0 [1, 0, 0, 0] && !updateReady s 1 0 [2, 0, 0, 0])
    && (let l (v : Word) : Bool := decide (v.extractLsb' 0 2 ≠ 3 ∧ (v.extractLsb' 0 2 = 0 ∨ v.extractLsb' 23 34 ≠ 0));
        l 0 && l (1 + 2 ^ 23) && !l 1 && !l 3) && !(run.grove 0).busy && (({ run.grove 0 with busy := true } : Grove)).busy = true := by
  decide +kernel

/-- `ScheduleEvents`: a decrement above and at the count of a valid counter; a ready message; one entry in the ring; a spawn that waits; a free slot
and an entry of each kind that the binder chooses; a wait at its bound, a park whose wait is over, a monitor that a write reached, one at its bound,
a thread at its deadline; a partition that is halted. -/
theorem witness_scheduleEvents :
    (let k : Core := { run.core 0 with ls := (run.core 0).ls.writeN 16 (zeroBytes 8 ++ leBytes 4 2 ++ leBytes 2 0 ++ [1]), tasks := [(1, {})] };
      let h : Word := BitVec.ofNat 64 (2 ^ 12); let s := arrives (.decr 0 h 2 {}) (run.setCore 0 k); let bs := (s.core 0).ls.readN 16 16;
      (arrived s 7).isSome && h.toNat % 2 == 0 && decide (h.toNat < 2 ^ 36) && leField bs 14 1 == 1 && leField bs 12 2 == h.toNat / 2 ^ 20 % 65536 && leField bs 8 4 == 2
        && decide (1 < leField bs 8 4) && (Table.find 1 (s.core 0).tasks).isSome && (match s.part? 0 with | some p => p.hasCore 0 | none => false))
    && (let e : RunEntry := ⟨.task {} .none, 0, 0, 0, 0, false⟩; let f : RunEntry := { e with what := .resume 0, hasTags := true };
        let s := run; let c := s.core 1;
        (arrived (arrives (.ready 1 e) s) 7).isSome && c.inbound.isEmpty && decide (c.runq.length < 48) && coreRuns s 1 && (freeSlot s 1).isSome
          && ({ c with spill := [e] } : Core).spill == [e] && ((part0 (fun p => { p with waits := [⟨{}, 1, .none⟩] }) s).part? 0).isSome
          && chooseEntry c [e] == some e && chooseEntry c [f] == some f && s.all.all (fun x => x.id != s.fresh) && (s.thread? 0).isSome
          && (let h := s.onPart 0 fun p => { p with halt := .halted }; let t := h.setGrove 0 { h.grove 0 with owner := some 0 }; !coreRuns t 0))
    && (let w : Wait := .tagAny 1;
        let s (st : Status) : State := { (run.setCore 0 { run.core 0 with ctb := 1, dwb := 1 }) with
          th := { run.th with status := st }, arg := { a := 0 }, cycle := 65536 };
        (s (.waiting w 0)).thread? 0 == some (s (.waiting w 0)).th
          && decide (0 + 256 * ((s (.waiting w 0)).core 0).dwb.toNat ≤ (s (.waiting w 0)).cycle) && waitOver (s (.parked w 0)) (s (.parked w 0)).th w
          && decide (0 + spinBound (s (.spinning (.pa 0 0) 0 0 true)) (s (.spinning (.pa 0 0) 0 0 true)).th ≤ 65536)
          && (let t : State := { run with th := { run.th with ydl := 0 } }; t.th.status == .running && t.th.modLatch.isNone && (t.core 0).wdog.getLsbD 0)) = true := by
  decide +kernel

/-- `MachineRoom`: before boot and after; a grant that may be made and one that may not; an image that the loader admits and one it refuses; a
partition that runs, one halted; a quiet one and one with a thread; challenges of 64 bytes and not; a peer's range and one of this package; a
snapshot to bring back, to the same stands and to others; the aperture's last place and beyond, mapped and not; a wrong and a right package; the
last lane of the ports and the first beyond; a grove that a stand has; 640 packages and more. -/
theorem witness_machineRoom :
    (let b : State := { State.reset with booted := 5, domain := [1] };
      let q0 := saved 0 { run with booted := 5, domain := [1] }; let q := part0 (fun p => { p with grant := { p.grant with aperture := (0x10000000, 64) } }) q0;
      State.reset.booted != 5 && State.reset.booted == 0 && grantOk grant0 b && !grantOk { grant0 with part := 8 } b
        && !grantOk { grant0 with recB := 2 ^ 40 } b && !grantOk { grant0 with ranges := [(0x40000000, 0x1000000)] } b
        && (match q.part? 0 with
          | some p => answers (checkImage q (freeLaunches q p) smallImage) && !answers (checkImage q p []) && p.halt == .running && !partQuiet p q
              && ({ p with halt := .halted } : Part).halt != .running && partQuiet p { q with th := State.reset.th }
              && (let x : Snapshot := ⟨2 ^ 42, { p with grant := grant0 }⟩; let r : State := { b with snaps := [x] };
                  (r.snaps.find? fun y => y.base = 2 ^ 42) == some x && grantOk grant0 r && sameGrant 0 grant0 grant0 && !sameGrant 0 { grant0 with groves := [1] } grant0)
          | none => false)
        && haltRefusal 0 q == none && (q.part? 1).isNone && haltRefusal 1 q == some 4 && !q.ownPa (2 ^ 42) && q.paOk (2 ^ 42) && !q.failed.contains (paPkg (2 ^ 42))
        && q.ownPa 0 && (apertureAddr q 0 57 8).isNone && apertureAddr q 0 56 8 == some 0x10000038
        && (match resolveSpan (hostWho 0) .read 2 0x10000038 8 q with | .ok (sp, u) => answers (settleBad 1 (spanLocs sp) u) | .error _ => false)
        && answers (resolveSpan (hostWho 0) .write 2 0x10000038 8 q)
        && (let o := q.onPart 0 fun p => { p with grant := { p.grant with aperture := (0x20000000, 64) } }; !answers (resolveSpan (hostWho 0) .write 2 0x20000000 8 o))
        && q.pkg == 0 && q.domain.contains 1 && !q.failed.contains 1 && isCore (16 * (32 * 3 + 19)) && q.margins.isEmpty
        && decide (∀ n ∈ ([0, 639] : List Nat), n < 640) && decide (∃ n ∈ ([0, 640] : List Nat), 640 ≤ n) && State.reset.parts.isEmpty
        && (copyRanges [] q).1 && !(copyRanges [(0x105000, 64, 0x300000)] { q with bad := [⟨.mem (.pa 0x105000 0), 1, false, false, false⟩] }).1
        && decide ((63 : Nat) < 64 ∧ (1 : Nat) ≤ 4)) = true := by decide +kernel

/-- `StreamForms`, `PlaneForms`, `NearForms`, `Networks`, `Statistics`, `EventCrossbar`: what each instruction reads comes behind an
array command, and the results that then act late read it. -/
theorem witness_behindArrays :
    (let s := swapping run; ([(16, 1, 3), (208, 8, 3), (192, 64, 3), (640, 64, 3), (16, 16, 4)] : List (Nat × Nat × Nat)).all fun p =>
        blocked (page 0) (spanPlace .read (page 0) p.1 p.2.1 p.2.2 1 s))
    && (let s := swapping (part0 (fun p => { p with grant := { p.grant with nets := [5] } }) run); blocked (page 0) (spanPlace .read (page 0) 768 64 4 2 s))
    && (let s := swapping run; readBlocked (beforeReading (locs 0 64) s) (locs 0 64) && !mayPerform s s.th s.fresh (locs 0 64))
    && (([(breBlock, true), (zeroBytes 192, false)] : List (List Byte × Bool)).all fun p =>
        let s := mem 0x100 p.1 (late (.bred 3 1 0 0) (page 0x100) 0 (locs 0x100 192) run)
        match lateBytes (page 0x100) (locs 0x100 192) s with
        | some bs => let j := newJob (page 0x100) bs 0 0 s; j.badField.isNone == p.2 && (!p.2 || answers (flagCheck j 1 s))
        | none => false)
    && (([.statr 3 1 2, .statl 3 1 2 0 3] : List Instr).all fun i => (lateBytes 0x105000 (locs 0 64) (late i 0 0 (locs 0 64) run)).isSome) = true := by
  decide +kernel

/-- `ArrayEvents`, `PlaneEvents`: a drain whose partial is on its way and one whose partial has arrived; a tile of a deck that may be freed, and
one that a load still reads; a sweep with statistics and without, and one whose partial is on its way or has arrived. -/
theorem witness_partials :
    (([true, false] : List Bool).all fun there =>
        let c := { arrayCmd (.mdrain 0 1 0 0 0 0 1 0) with sent := some 7 }
        let s := array0 (fun x => { x with aq := [c] }) { run with msgs := if there then [⟨7, 0, 0, none, .statistics 0 0 {} {}⟩] else [] }
        headCommand s 0 == some c && (s.msgs.any fun e => some e.seq == c.sent) == there)
    && (let s := deck 1 0x80 0x1000 3 32 0 0 32 run; let d := unitDeck false 0 0x80 s
        let c := { arrayCmd (.mlda 0 1 3 1) with decks := [(0, 0x80)] }; let slots := (List.range 64).map fun i => Loc.ls 0 (deckByte d true i)
        let l : Load := { id := 3, dest := .s 4, val := .reading (.scalar false 1) [⟨0, 0, [.ls 0 0x1000]⟩] [], pc := 0, word := 0 }
        arrayMayFree c d slots s && !arrayMayFree c d slots { s with th := { s.th with loads := [l] } })
    && (([0, 0x10000] : List (BitVec 17)).all fun sth => ([none, some 7] : List (Option Nat)).all fun sent =>
        let r : RunningStep := { kind := 2, events := [], post := [], coeff := [], reward := some ⟨0, 0, false, true⟩, sent := sent }
        let x := (array0 (fun x => { x with running := some r, sth := sth.setWidth _ }) run).array 0
        x.running == some r && x.sth.getLsbD 16 == (sth != 0)) = true := by decide +kernel

/-- `CopyForms`, `NearEvents`: a copy of two elements between addresses, to another format and to the same; an entry of NADD, and one of
NUPD whose rows are locked. -/
theorem witness_engines :
    (([0, 1] : List Nat).all fun df =>
        let c : CopyCmd := { copyCmd with state := .running, bytes := leBytes 8 (page 0).toNat ++ leBytes 8 (page 0x100).toNat ++ leBytes 8 8 ++ zeroBytes 16
                                                           ++ leBytes 1 0 ++ leBytes 1 df ++ zeroBytes 22 }
        let r := convertBytes c (zeroBytes c.total)
        !c.fromDeck && !c.toDeck && c.total != 0 && decide (c.total % c.group.1 = 0) && !natBit (leField c.bytes 42 1) 3 && (c.sfmt == c.dfmt) == (df == 0)
          && (let q := engineRead c.who (readGrove 0) (c.srcSpans 0 c.total) run; q.2.1.isNone
              && (engineSpans c.who .write (c.dstSpans 0 r.1.length) q.2.2).2.1.isNone))
    && (let s : State := { run with dram := Memory.writeN run.dram (0x103000 + 8 * 0x81) (leBytes 8 0x2DF) }
        let c : NearCmd := { walkCmd with
          kind := 1, state := .running, regions := [⟨none, (page 0).toNat, 4096, false⟩, ⟨none, (big 0).toNat, 4096, true⟩]
          bytes := zeroBytes 64 ++ leBytes 8 (big 0).toNat ++ leBytes 8 (page 0x180).toNat ++ leBytes 8 (page 0x40).toNat ++ leBytes 2 1 ++ leBytes 2 2 ++ zeroBytes 36 }
        (match entryIndex c s with
          | .ok (i, u) => match mRow c ((c.f 64 8 + i * 8) % 2 ^ 64) 8 u with
            | .ok (_, v) => answers (nearRead c.who (some c.regions) ((c.f 80 8 + c.pos * 8) % 2 ^ 64) 8 v)
            | .error _ => false
          | .error _ => false)
        && ({ c with kind := 2, held := some [] } : NearCmd).held.isSome) = true := by decide +kernel

/-- `PreciseTrap`, `ScalarAccessTraps`, `YieldAndEnd`: an attached follower and a thread that is none; handles unbound and bound, with a
negative offset, one at the deck's last places and one beyond; a graph's node. -/
theorem witness_trapForms :
    (let f : Thread := { run.th with crew := true, cidx := 1 }; f.crew && !f.det && f.cidx != 0 && !run.th.crew)
    && (let s := deck 1 0x80 0x1000 0 4 0 2 2 run; let d := deckView 0 (deckAt 0 0x80 s) s
        s.th.decks[(0 : Nat)]? == some none && s.th.decks[(1 : Nat)]? == some (some 0x80) && decide ((-1 : BitVec 10).toInt * 8 < 0)
          && decide (((d.fill * d.size : Nat) : Int) < 8 * 8 + 8) && decide (((d.room * d.size : Nat) : Int) < 8 * 8 + 8)
          && !decide (((d.fill * d.size : Nat) : Int) < 7 * 8 + 8))
    && (let t : Thread := { run.th with task := { run.th.task with node := some (page 0) } }; t.task.node.isSome && !t.follower) = true := by decide +kernel

/-- The firmware's and the images' signatures are checked by functions without a stated value (notes/assumptions/5.md); so is the place of a
far counter. One of their answers holds, whichever it is. -/
theorem witness_openAnswers (d : BitVec 512) (sig key : List Byte) (t : TaskDesc) (n : Nat) (s : State) :
    (Config.verifies d sig key = false ∨ Config.verifies d sig key = true) ∧ (placeFar t n s = none ∨ ∃ h u, placeFar t n s = some (h, u)) := by
  refine ⟨by cases Config.verifies d sig key <;> simp, ?_⟩
  cases h : placeFar t n s with
  | none => exact .inl rfl
  | some p => exact .inr ⟨p.1, p.2, rfl⟩

/-- `DecodeEncode`, `StepRunsDecoded`, `StepKeepsDram`: an instruction with GAP and SW; a thread that issues, an event on the agenda, nothing that
moves; canonical memory. -/
theorem witness_steps :
    ((Instr.add 1 2 3).toRow.isSome && (Instr.mov16 1 2).toRow.isSome && (Instr.mod 0 0 0 0 0 0).toRow.isSome
      && (match nextMove run with
        | (.issue tid, t) => let f := pickFocus tid t; f.th.dying.isNone && !f.th.attached && (match wordAhead f with
          | .ok (len, w, _) => (match decodeWord (decide (len = 4)) w with | .ok d => d.instr.wellFormed && d.instr == .add 3 1 2 | _ => false)
          | .error _ => false)
        | _ => false)
      && (match nextMove { run with agenda := [.event .vfStep {}] } with | (.event i _, _) => i == .vfStep | _ => false)
      && (match nextMove State.reset with | (.idle, _) => true | _ => false) && dramSound run && dramSound State.reset) = true := by decide +kernel

/-- The step after a placed word runs it (s3 := s1 + s2). -/
theorem test_step : (match step (regs [(1, 5), (2, 7)] run) with
    | .next t => (tick 1 t).getS 3 == 12 && t.th.pc == 0x10000004
    | _ => false) = true := by decide +kernel

/-- `HaltAndContext`: a block whose ownership field no array can have, and one that is admitted. -/
theorem witness_arrayBlock : arrayBlockOk [] = true ∧ ∀ bs : List Byte, bs.length = 65792 → arrayBlockOk (bs ++ [1]) = false := by
  refine ⟨by decide, fun bs hb => ?_⟩
  have h : leField (bs ++ [1]) 65792 1 = 1 := by
    unfold leField
    rw [List.drop_left' hb]
    rfl
  unfold arrayBlockOk
  rw [h]
  rfl

end Sys2Proof.Tests
end

/-! ## Threads by number, the focus, and what a change of one leaves -/
section
namespace Sys2Proof.Machine

open Sys2Proof

/-- A thread found by its number has it. -/
theorem State.id_of_thread? {s : State} {tid : Nat} {x : Thread} (h : s.thread? tid = some x) : x.id = tid := by
  simpa using List.find?_some h

/-- The focus thread is found by its number. -/
theorem State.thread?_th (s : State) : s.thread? s.th.id = some s.th := by simp [State.thread?, State.all]

/-- A thread other than the focus is found among the others. -/
theorem State.thread?_of_ne {s : State} {tid : Nat} (h : s.th.id ≠ tid) : s.thread? tid = s.threads.find? (fun x => x.id == tid) := by
  simp [State.thread?, State.all, h]

@[simp] theorem State.setCore_thread? (s : State) (c : Nat) (x : Core) (tid : Nat) : (s.setCore c x).thread? tid = s.thread? tid := rfl

/-- A change of the thread with a number is what a search for the number then finds. -/
theorem State.thread?_onThread {s : State} {tid : Nat} {x : Thread} (h : s.thread? tid = some x) (f : Thread → Thread)
    (hf : ∀ t, (f t).id = t.id) : (s.onThread tid f).thread? tid = some (f x) := by
  by_cases hth : s.th.id = tid
  · subst hth
    obtain rfl : s.th = x := by simpa [State.thread?_th] using h
    rw [State.onThread, if_pos rfl]
    conv_lhs => rw [← hf s.th]
    exact State.thread?_th _
  · have hth' : (s.onThread tid f).th.id ≠ tid := by simp [State.onThread, hth]
    have hthreads : (s.onThread tid f).threads = s.threads.map fun x => if x.id = tid then f x else x := by simp [State.onThread, hth]
    have hkeep : ((fun x => x.id == tid) ∘ fun x : Thread => if x.id = tid then f x else x) = fun x => x.id == tid := by
      funext t
      simp only [Function.comp]
      split <;> simp [*]
    rw [State.thread?_of_ne hth', hthreads, List.find?_map, hkeep, ← State.thread?_of_ne hth, h, Option.map_some,
      if_pos (State.id_of_thread? h)]

/-- A change of a thread leaves everything but the threads. -/
theorem State.onThread_frame (s : State) (tid : Nat) (f : Thread → Thread) :
    s.onThread tid f = { s with th := (s.onThread tid f).th, threads := (s.onThread tid f).threads } := by
  simp only [State.onThread]
  split <;> rfl

@[simp] theorem State.onThread_dram (s : State) (tid : Nat) (f : Thread → Thread) : (s.onThread tid f).dram = s.dram := by
  rw [State.onThread_frame]
@[simp] theorem State.onThread_msgs (s : State) (tid : Nat) (f : Thread → Thread) : (s.onThread tid f).msgs = s.msgs := by
  rw [State.onThread_frame]
@[simp] theorem State.onThread_cores (s : State) (tid : Nat) (f : Thread → Thread) : (s.onThread tid f).cores = s.cores := by
  rw [State.onThread_frame]
@[simp] theorem State.onThread_cycle (s : State) (tid : Nat) (f : Thread → Thread) : (s.onThread tid f).cycle = s.cycle := by
  rw [State.onThread_frame]
@[simp] theorem State.onThread_core (s : State) (tid : Nat) (f : Thread → Thread) (c : Nat) : (s.onThread tid f).core c = s.core c := by
  simp [State.core]

/-- Choosing the focus leaves everything but the threads. -/
theorem State.focus_frame (s : State) (tid : Nat) : s.focus tid = { s with th := (s.focus tid).th, threads := (s.focus tid).threads } := by
  simp only [State.focus]
  split
  · rfl
  · split <;> rfl

@[simp] theorem State.focus_dram (s : State) (tid : Nat) : (s.focus tid).dram = s.dram := by rw [State.focus_frame]
@[simp] theorem State.focus_msgs (s : State) (tid : Nat) : (s.focus tid).msgs = s.msgs := by rw [State.focus_frame]
@[simp] theorem State.focus_cores (s : State) (tid : Nat) : (s.focus tid).cores = s.cores := by rw [State.focus_frame]
@[simp] theorem State.focus_cycle (s : State) (tid : Nat) : (s.focus tid).cycle = s.cycle := by rw [State.focus_frame]
@[simp] theorem State.focus_core (s : State) (tid c : Nat) : (s.focus tid).core c = s.core c := by simp [State.core]

/-- The thread with a number is the focus once it is chosen. -/
theorem State.focus_th {s : State} {tid : Nat} {x : Thread} (h : s.thread? tid = some x) : (s.focus tid).th = x := by
  by_cases hth : s.th.id = tid
  · subst hth
    simpa [State.focus, State.thread?_th] using h
  · rw [State.thread?_of_ne hth] at h
    simp only [State.focus, if_neg hth, h]

/-- The thread that is chosen is found by its number as before. -/
theorem State.thread?_focus {s : State} {tid : Nat} {x : Thread} (h : s.thread? tid = some x) : (s.focus tid).thread? tid = some x := by
  have hth := State.focus_th h
  rw [← State.id_of_thread? h] at hth ⊢
  simpa [hth] using State.thread?_th (s.focus x.id)

/-- Counting an event of a core changes performance counters of that core only. -/
theorem countEvent_frame (c : Nat) (p : BitVec 2) (e : Nat) (s : State) :
    countEvent c p e s = { s with cores := (countEvent c p e s).cores } := by
  simp only [countEvent]
  split <;> rfl

@[simp] theorem countEvent_th (c : Nat) (p : BitVec 2) (e : Nat) (s : State) : (countEvent c p e s).th = s.th := by rw [countEvent_frame]
@[simp] theorem countEvent_dram (c : Nat) (p : BitVec 2) (e : Nat) (s : State) : (countEvent c p e s).dram = s.dram := by
  rw [countEvent_frame]
@[simp] theorem countEvent_msgs (c : Nat) (p : BitVec 2) (e : Nat) (s : State) : (countEvent c p e s).msgs = s.msgs := by
  rw [countEvent_frame]

end Sys2Proof.Machine
end

/-! ## Run queues, dependence counters and binding (02 R18-R27, R36) -/
section
namespace Sys2Proof.Machine

open Sys2Proof

/-! ### Run queues (02 R24, R25) -/

/-- An entry joins a run queue that has room, where none waits before it. -/
theorem enqueue_of_room {core : Nat} {u : State} (e : RunEntry) (hin : (u.core core).inbound = []) (hroom : (u.core core).runq.length < 64) :
    enqueue core e u = u.setCore core { u.core core with runq := (u.core core).runq ++ [e] } := by
  simp [enqueue, hin, hroom]

/-- A queue whose spill ring is empty and that holds no message back does not refill. -/
theorem refill_of_empty {core : Nat} {s : State} (hs : (s.core core).spill = []) (hin : (s.core core).inbound = []) (n : Nat) :
    refill core n s = s := by
  cases n with
  | zero => rfl
  | succ n => simp [refill, refillOne, admitInbound, hs, hin]

/-- A queue with room takes the only entry of its spill ring, and the ring's head moves on. -/
theorem refill_of_single {core : Nat} {s : State} {e : RunEntry} (hs : (s.core core).spill = [e]) (hin : (s.core core).inbound = [])
    (hroom : (s.core core).runq.length < 48) (n : Nat) :
    refill core (n + 1) s = s.setCore core { s.core core with
      runq := (s.core core).runq ++ [e], spill := [], spillHead := ((s.core core).spillHead + 1) % 4096 } := by
  rw [refill]
  simp only [refillOne, hs, hroom, if_true]
  exact refill_of_empty (by simp) (by simpa using hin) n

/-- A thread out of its slot stands at the tail of a run queue that has room, at its record priority (02 R36). -/
theorem requeue_of_room {s : State} {tid : Nat} {x : Thread} (hx : s.thread? tid = some x) (hin : (s.core x.core).inbound = [])
    (hroom : (s.core x.core).runq.length < 64) :
    (requeue tid s).thread? tid = some { x with status := .queued x.place }
      ∧ ((requeue tid s).core x.core).runq = (s.core x.core).runq ++ [resumeEntry { x with status := .queued x.place } s.cycle] := by
  have hreq : requeue tid s = enqueue x.core (resumeEntry x s.cycle) (s.onThread tid fun t => { t with status := .queued t.place }) := by
    simp only [requeue, hx, State.onThread_cycle]
  rw [hreq, enqueue_of_room _ (by simpa using hin) (by simpa using hroom)]
  exact ⟨by rw [State.setCore_thread?, State.thread?_onThread hx (fun t => { t with status := .queued t.place }) fun _ => rfl], by simp [resumeEntry]⟩

/-! ### Dependence counters (02 R22) -/

/-- What a decrement of a valid near counter that is no excess does: the count falls, and where it ends the counter is done and
its task, if the table has it, is queued at its home core. -/
theorem decrement_near {u : State} {p : Part} {part n : Nat} {h : Word} (sender : LogEntry) (hp : u.part? part = some p) :
    let w := h.toNat; let core := w / 2 % 2048; let i := w / 2 ^ 12 % 256; let k := u.core core
    let bs := k.ls.readN (16 * i) 16; let count := leField bs 8 4
    w % 2 = 0 → w < 2 ^ 36 → p.hasCore core = true → leField bs 14 1 = 1 → leField bs 12 2 = w / 2 ^ 20 % 65536 →
    (n < count → decrement part h n sender u = u.setCore core { k with ls := k.ls.writeN (16 * i + 8) (leBytes 4 (count - n)) })
    ∧ (n = count → ∀ t, Table.find i k.tasks = some t → decrement part h n sender u = enqueue core (taskEntry t (.near core i) u.cycle)
        (u.setCore core { k with ls := (k.ls.writeN (16 * i + 8) (leBytes 4 0)).writeN (16 * i + 14) [2] })) := by
  intro w core i k bs count heven hsmall hcore hvalid hseq
  have hgood : ¬ ((!p.hasCore core || decide (2 ^ 36 ≤ w) || decide (leField bs 14 1 ≠ 1)
      || decide (leField bs 12 2 ≠ w / 2 ^ 20 % 65536)) = true) := by
    simpa [hcore, hvalid, hseq] using hsmall
  constructor
  · intro hn
    have happly : applyCount count n = (count - n, false, 0) := if_pos hn
    simp only [decrement, hp]
    rw [if_pos heven, if_neg hgood, happly]
    simp only [if_true]
    rfl
  · intro hn t ht
    have happly : applyCount count n = (0, true, 0) := by simp [applyCount, hn]
    simp only [decrement, hp]
    rw [if_pos heven, if_neg hgood, happly]
    simp only [if_true]
    rw [ht]
    rfl

/-! ### Binding (02 R18, R26, R27) -/

/-- A thread whose number nothing else has is the focus once it is there and chosen. -/
theorem focus_appended_th {u : State} {n : Thread} (hnew : ∀ x ∈ u.all, x.id ≠ n.id) (k : Nat) :
    (({ u with threads := u.threads ++ [n], fresh := k } : State).focus n.id).th = n := by
  refine State.focus_th ?_
  have hth : ¬ u.th.id = n.id := hnew u.th (by simp [State.all])
  have hnone : u.threads.find? (fun x => x.id == n.id) = none := by
    simpa using fun x hx => hnew x (by simp [State.all, hx])
  simp [State.thread?, State.all, List.find?_append, hth, hnone]

/-- The scalar registers that a task starts with (02 R18): s1 holds its argument. -/
theorem newThread_getS (id core : Nat) (slot : BitVec 2) (ctgb : BitVec 6) (jseed : Word) (t : TaskDesc) (j : BitVec 4) :
    (newThread id core slot ctgb jseed t).getS j = if j = 1 then t.argp else 0 := by
  by_cases h0 : j = 0
  · subst h0; rfl
  · by_cases h1 : j = 1
    · subst h1; rfl
    · have hne : 1 ≠ j.toNat := fun h => h1 (BitVec.eq_of_toNat_eq h.symm)
      simp only [newThread, Thread.getS, Vector.getElem_set_ne _ _ hne, Vector.getElem_replicate, h0, h1, if_false]

/-- A thread that takes a slot of a core again (02 R26). -/
def Thread.inSlot (core : Nat) (slot : BitVec 2) (ctgb : BitVec 6) (now : Nat) (t : Thread) : Thread :=
  { t with
    status := .running, core := core, slot := slot, ctgb := ctgb, tagged := groupSize t.task.ctags ≠ 0, uncounted := false
    ready := now + 16 }

section Binding

variable {s : State} {a : Nat} {slot : BitVec 2} {e : RunEntry}
  (hslot : freeSlot s a = some slot) (hentry : chooseEntry (s.core a) (s.core a).runq = some e)

include hslot hentry

/-- The binder starts the chosen task (02 R18). -/
theorem bindCore_task {t : TaskDesc} {ctr : CounterRef} (he : e.what = .task t ctr) :
    let q := acquireAt a (emptySlot a slot s)
    let r := allotTags t.ctags { q.core a with runq := (q.core a).runq.erase e }
    let u := freeCounter ctr t.part t.home (q.setCore a r.1)
    let n := { newThread u.fresh a slot r.2 r.1.jseedm t with ready := u.cycle + 16 }
    bindCore a s = countEvent a 0 0x0F (({ u with threads := u.threads ++ [n], fresh := u.fresh + 1 } : State).focus n.id) := by
  simp only [bindCore, hslot, hentry, he]

/-- The thread that the binder starts is the focus, and neither memory nor the fabric changes with it. -/
theorem bindCore_task_th {t : TaskDesc} {ctr : CounterRef} (he : e.what = .task t ctr) :
    let q := acquireAt a (emptySlot a slot s)
    let r := allotTags t.ctags { q.core a with runq := (q.core a).runq.erase e }
    let u := freeCounter ctr t.part t.home (q.setCore a r.1)
    (∀ x ∈ u.all, x.id ≠ u.fresh) →
    (bindCore a s).th = { newThread u.fresh a slot r.2 r.1.jseedm t with ready := u.cycle + 16 }
      ∧ (bindCore a s).dram = u.dram ∧ (bindCore a s).msgs = u.msgs := by
  intro q r u hnew
  rw [bindCore_task hslot hentry he]
  simp only [countEvent_th, countEvent_dram, countEvent_msgs, State.focus_dram, State.focus_msgs]
  exact ⟨focus_appended_th (n := { newThread u.fresh a slot r.2 r.1.jseedm t with ready := u.cycle + 16 }) hnew _, rfl, rfl⟩

/-- The binder brings the chosen thread back (02 R26): its place and its tag group are the core's matter. -/
theorem bindCore_resume {tid : Nat} {x : Thread} (he : e.what = .resume tid)
    (hx : (acquireAt a (emptySlot a slot s)).thread? tid = some x) :
    let q := acquireAt a (emptySlot a slot s)
    ∃ (c : Core) (b : BitVec 6), bindCore a s = ((q.setCore a c).onThread tid (Thread.inSlot a slot b q.cycle)).focus tid := by
  simp only [bindCore, hslot, hentry, he, hx]
  exact ⟨_, _, rfl⟩

/-- The thread that the binder brings back has its slot, and its registers as they were. -/
theorem bindCore_resume_thread {tid : Nat} {x : Thread} (he : e.what = .resume tid)
    (hx : (acquireAt a (emptySlot a slot s)).thread? tid = some x) :
    ∃ (b : BitVec 6) (now : Nat), (bindCore a s).thread? tid = some (Thread.inSlot a slot b now x)
      ∧ (bindCore a s).dram = (acquireAt a (emptySlot a slot s)).dram := by
  obtain ⟨c, b, hbind⟩ := bindCore_resume hslot hentry he hx
  have hthread := State.thread?_onThread (s := (acquireAt a (emptySlot a slot s)).setCore a c) hx
    (Thread.inSlot a slot b (acquireAt a (emptySlot a slot s)).cycle) fun _ => rfl
  refine ⟨b, (acquireAt a (emptySlot a slot s)).cycle, ?_, ?_⟩
  · rw [hbind, State.thread?_focus hthread]
  · rw [hbind, State.focus_dram, State.onThread_dram, State.setCore_dram]

end Binding

end Sys2Proof.Machine
end

/-! ## A step of a thread (04, 02 R29) -/
section
namespace Sys2Proof.Machine

open Sys2Proof

/-- A word that decodes to a well-formed instruction passes the check of its encoding (04 R95). -/
theorem checkedWord_of_wellFormed {len w : Nat} {d : Decoded} (hd : decodeWord (decide (len = 4)) w = .ok d)
    (hw : d.instr.wellFormed = true) : checkedWord len w = .ok d := by
  have hf : d.instr.fieldFault = none := by simpa [Instr.wellFormed] using hw
  simp only [checkedWord, hd, hf]

/-- A thread that nothing ends and that follows no leader fetches the word ahead, and has it in its register. -/
theorem fetchFocus_of_wordAhead {f u : State} {len w : Nat} {d : Decoded} (hy : f.th.dying = none)
    (ha : f.th.attached = false ∨ f.th.fwd = []) (hu : wordAhead f = .ok (len, w, u)) (hc : checkedWord len w = .ok d) :
    fetchFocus f = .ok (d.instr, u.onTh (loadIr d w)) := by
  unfold fetchFocus
  rw [hy]
  dsimp only
  split
  · rename_i hatt hfwd
    rcases ha with ha | ha
    · simp [ha] at hatt
    · simp [ha] at hfwd
  · simp only [hu, hc]

/-- An issue that is next runs what the fetch gives, and is accounted. -/
theorem step_of_issue {s t u v : State} {tid : Nat} {i : Instr} (hm : nextMove s = (.issue tid, t))
    (hf : fetchFocus (pickFocus tid t) = .ok (i, u)) (hv : exec i u = .next v) : step s = .next (afterIssue i u v) := by
  simp only [step, hm, hf, hv, issued]

/-- Where the thread has no modifier latched, the word ahead is fetched at its pc. -/
theorem wordAhead_of_noLatch {s : State} (h : s.th.modLatch = none) : wordAhead s = fetchWord s.th.pc s := by
  simp [wordAhead, h]

/-- The instruction of a latched modifier was fetched with it (04 R86). -/
theorem wordAhead_of_latch {s : State} (h : s.th.modLatch ≠ none) : wordAhead s = .ok (4, s.th.second.toNat, s) := by
  simp [wordAhead, Option.isSome_iff_ne_none.mpr h]

/-- Settles O58: the fetch of a thread that issues gives the decoded instruction, and each kind of move is one case of `step`. -/
theorem stepRunsDecoded : Obligations.StepRunsDecoded := by
  refine ⟨?_, ?_, ?_, fun s => ⟨wordAhead_of_noLatch, wordAhead_of_latch⟩⟩
  · intro s t f u tid len w d hm hf hy ha hu hd hw r v hv
    subst hf
    exact step_of_issue hm (fetchFocus_of_wordAhead hy ha hu (checkedWord_of_wellFormed hd hw)) hv
  · intro s t i arg hm
    simp only [step, hm]
  · intro s t hm
    simp only [step, hm]

end Sys2Proof.Machine
end

/-! ## Results on their way (02 R31, R32, 04 R92) -/
section
namespace Sys2Proof.Machine

open Sys2Proof

/-- Issue distance in two parts. -/
theorem tick_add (m n : Nat) (s : State) : tick (m + n) s = tick n (tick m s) := by
  induction m generalizing s with
  | zero => rw [Nat.zero_add, tick]
  | succ m ih => rw [Nat.succ_add, tick, tick, ih]

/-- Where nothing is on its way, issue distance changes nothing. -/
theorem tick_of_noPend {s : State} (h : s.th.pend = []) (n : Nat) : tick n s = s := by
  have h1 : tickOne s = s := by
    simp only [tickOne, h, List.map_nil, List.filter_nil, applyDue]
    rw [← h]
  induction n with
  | zero => rfl
  | succ n ih => rw [tick, h1, ih]

/-- One unit of distance brings a result nearer by one, or to its register. -/
theorem tickOne_pushW {s : State} (h : s.th.pend = []) (k : Nat) (w : RegWrite) :
    tickOne (s.pushW (k + 1) w) = if k = 0 then w.apply s else s.pushW k w := by
  by_cases hk : k = 0 <;> simp [tickOne, State.pushW, h, applyDue, hk]
  rw [← h]

/-- Before its point a result is on its way only (02 R31). -/
theorem tick_pushW_before {s : State} (h : s.th.pend = []) (w : RegWrite) {lat n : Nat} (hn : n < lat) :
    tick n (s.pushW lat w) = s.pushW (lat - n) w := by
  induction n generalizing lat with
  | zero => rfl
  | succ n ih =>
    obtain ⟨k, rfl⟩ : ∃ k, lat = k + 1 := ⟨lat - 1, by omega⟩
    rw [tick, tickOne_pushW h, if_neg (by omega), ih (by omega), Nat.add_sub_add_right]

/-- From its point on a result is in its register, and nothing is on its way. -/
theorem tick_pushW_after {s : State} (h : s.th.pend = []) {w : RegWrite} (hw : (w.apply s).th.pend = []) {lat n : Nat}
    (h1 : 1 ≤ lat) (hn : lat ≤ n) : tick n (s.pushW lat w) = w.apply s := by
  obtain ⟨m, rfl⟩ : ∃ m, n = lat - 1 + (m + 1) := ⟨n - lat, by omega⟩
  rw [tick_add, tick_pushW_before h w (by omega), show lat - (lat - 1) = 0 + 1 by omega, tick, tickOne_pushW h, if_pos rfl,
    tick_of_noPend hw]

/-- One unit of distance for two results: each comes nearer by one or reaches its register, the older first. -/
theorem tickOne_pushW_pushW {s : State} (h : s.th.pend = []) (j k : Nat) (w z : RegWrite) :
    tickOne ((s.pushW (j + 1) w).pushW (k + 1) z)
      = if j = 0 then (if k = 0 then z.apply (w.apply s) else w.apply (s.pushW k z))
        else if k = 0 then z.apply (s.pushW j w) else (s.pushW j w).pushW k z := by
  by_cases hj : j = 0 <;> by_cases hk : k = 0 <;> simp [tickOne, State.pushW, h, applyDue, hj, hk]
  rw [← h]

/-- Before both their points two results are on their way only. -/
theorem tick_pushW_pushW_before {s : State} (h : s.th.pend = []) (w z : RegWrite) {j k n : Nat} (hj : n < j) (hk : n < k) :
    tick n ((s.pushW j w).pushW k z) = (s.pushW (j - n) w).pushW (k - n) z := by
  induction n generalizing j k with
  | zero => rfl
  | succ n ih =>
    obtain ⟨j, rfl⟩ : ∃ i, j = i + 1 := ⟨j - 1, by omega⟩
    obtain ⟨k, rfl⟩ : ∃ i, k = i + 1 := ⟨k - 1, by omega⟩
    rw [tick, tickOne_pushW_pushW h, if_neg (by omega), if_neg (by omega), ih (by omega) (by omega), Nat.add_sub_add_right,
      Nat.add_sub_add_right]

/-! ### Scalar results -/

/-- A scalar result that reaches its register leaves what is on its way. -/
@[simp] theorem apply_s_pend (d : BitVec 4) (x : Word) (s : State) : ((RegWrite.s d x).apply s).th.pend = s.th.pend := by
  simp only [RegWrite.apply, State.onTh, Thread.setS]
  split <;> rfl

/-- A scalar result reaches its register whatever else is put on its way. -/
theorem apply_s_pushW (d : BitVec 4) (x : Word) (k : Nat) (z : RegWrite) (s : State) :
    (RegWrite.s d x).apply (s.pushW k z) = ((RegWrite.s d x).apply s).pushW k z := by
  simp only [RegWrite.apply, State.onTh, State.pushW, Thread.setS]
  split <;> rfl

/-- A scalar register just written holds the value, unless it is s0 (06 R130); the others stay. -/
theorem Thread.getS_setS (t : Thread) (d r : BitVec 4) (x : Word) :
    (t.setS d x).getS r = if r = d ∧ d ≠ 0 then x else t.getS r := by
  by_cases hd : d = 0
  · simp [Thread.setS, hd]
  · rw [Thread.setS, if_neg hd]
    by_cases hr : r = d
    · subst hr
      rw [if_pos ⟨rfl, hd⟩, Thread.getS, if_neg hd]
      exact Vector.getElem_set_self _
    · have hne : d.toNat ≠ r.toNat := fun h => hr (BitVec.eq_of_toNat_eq h.symm)
      simp only [Thread.getS, Vector.getElem_set_ne _ _ hne, hr, false_and, if_false]

/-- A scalar result is read from its register. -/
theorem getS_apply_s (d r : BitVec 4) (x : Word) (s : State) :
    ((RegWrite.s d x).apply s).getS r = if r = d ∧ d ≠ 0 then x else s.getS r := s.th.getS_setS d r x

/-- A result on its way is not read. -/
@[simp] theorem getS_pushW (s : State) (k : Nat) (w : RegWrite) (r : BitVec 4) : (s.pushW k w).getS r = s.getS r := rfl

/-- Two scalar results, each at its own point (02 R32): the later point is the last, the younger result's where they coincide. -/
theorem tick_two_scalars {s : State} (h : s.th.pend = []) (d e : BitVec 4) (x y : Word) {j k n : Nat} (hj : 1 ≤ j) (hk : 1 ≤ k)
    (hjn : j ≤ n) (hkn : k ≤ n) :
    tick n ((s.pushW j (.s d x)).pushW k (.s e y))
      = if k < j then (RegWrite.s d x).apply ((RegWrite.s e y).apply s) else (RegWrite.s e y).apply ((RegWrite.s d x).apply s) := by
  have hpend : ∀ (d e : BitVec 4) (x y : Word), ((RegWrite.s d x).apply ((RegWrite.s e y).apply s)).th.pend = [] := by simp [h]
  obtain ⟨m, hm⟩ : ∃ m, m = min j k - 1 := ⟨_, rfl⟩
  obtain ⟨i, hi⟩ : ∃ i, j - m = i + 1 := ⟨j - m - 1, by omega⟩
  obtain ⟨l, hl⟩ : ∃ l, k - m = l + 1 := ⟨k - m - 1, by omega⟩
  obtain ⟨q, rfl⟩ : ∃ q, n = m + (q + 1) := ⟨n - m - 1, by omega⟩
  rw [tick_add, tick_pushW_pushW_before h _ _ (by omega) (by omega), hi, hl, tick, tickOne_pushW_pushW h]
  rcases Nat.lt_trichotomy j k with hlt | heq | hgt
  · rw [if_pos (by omega), if_neg (by omega), if_neg (by omega), apply_s_pushW,
      tick_pushW_after (by simp [h]) (hpend ..) (by omega) (by omega)]
  · rw [if_pos (by omega), if_pos (by omega), if_neg (by omega), tick_of_noPend (hpend ..)]
  · rw [if_neg (by omega), if_pos (by omega), if_pos (by omega), apply_s_pushW,
      tick_pushW_after (by simp [h]) (hpend ..) (by omega) (by omega)]

/-- An instruction's scalar result and a later one's for the same register: the later point is the last (02 R32). -/
theorem getS_two_results {s : State} (h : s.th.pend = []) {d : BitVec 4} (hd : d ≠ 0) (x y : Word) {l1 l2 gap n : Nat} (h1 : 1 ≤ l1)
    (h2 : 1 ≤ l2) (hn1 : l1 ≤ n + gap) (hn2 : l2 ≤ n) :
    (tick n ((tick gap (s.pushW l1 (.s d x))).pushW l2 (.s d y))).getS d = if gap + l2 < l1 then x else y := by
  by_cases hg : gap < l1
  · rw [tick_pushW_before h _ hg, tick_two_scalars h d d x y (by omega) h2 (by omega) hn2]
    by_cases hlt : gap + l2 < l1
    · rw [if_pos (by omega), if_pos hlt, getS_apply_s, if_pos ⟨rfl, hd⟩]
    · rw [if_neg (by omega), if_neg hlt, getS_apply_s, if_pos ⟨rfl, hd⟩]
  · rw [tick_pushW_after h (by simp [h]) h1 (by omega), tick_pushW_after (by simp [h]) (by simp [h]) h2 hn2, getS_apply_s,
      if_pos ⟨rfl, hd⟩, if_neg (by omega)]

/-- A scalar result is read from its point on (02 R31), and nothing else changes. -/
theorem getS_tick_pushW {s : State} (h : s.th.pend = []) (d r : BitVec 4) (x : Word) {lat : Nat} (n : Nat) (h1 : 1 ≤ lat) :
    (tick n (s.pushW lat (.s d x))).getS r = if r = d ∧ d ≠ 0 ∧ lat ≤ n then x else s.getS r := by
  by_cases hn : lat ≤ n
  · rw [tick_pushW_after h (by simp [h]) h1 hn, getS_apply_s]
    simp only [hn, and_true]
  · rw [tick_pushW_before h _ (by omega), getS_pushW, if_neg (fun hc => hn hc.2.2)]

/-! ### Flags -/

/-- Flags that reach FCSR join those that are there (04 R92). -/
theorem fcsr_tick_raise {s : State} (h : s.th.pend = []) (f : Flags) {lat : Nat} (n : Nat) (h1 : 1 ≤ lat) :
    (tick n (s.raise lat f)).th.fcsr = if lat ≤ n then s.th.fcsr ||| f.setWidth 32 else s.th.fcsr := by
  by_cases hf : f = 0
  · simp [State.raise, hf, tick_of_noPend h]
  · rw [State.raise, if_neg hf]
    split
    · rw [tick_pushW_after h (show ((RegWrite.flags f).apply s).th.pend = [] from h) h1 ‹_›]
      rfl
    · rw [tick_pushW_before h _ (by omega)]
      rfl

/-- Settles O4: a result alone, two results for one register, and flags. -/
theorem resultLatency : Obligations.ResultLatency := by
  refine ⟨fun d r x lat n s h h1 => getS_tick_pushW h d r x n h1,
    fun d x y l1 l2 gap n s h hd h1 h2 hn1 hn2 => getS_two_results h hd x y h1 h2 hn1 hn2, ?_⟩
  intro f lat n s h h1 t i
  show (tick n (s.raise lat f)).th.fcsr.getLsbD i = _
  rw [fcsr_tick_raise h f n h1]
  by_cases hn : lat ≤ n
  · by_cases hi : i < 5
    · simp [hn, hi, show i < 32 by omega]
    · simp [hn, hi, BitVec.getLsbD_of_ge f i (by omega)]
  · simp [hn]

end Sys2Proof.Machine
end

/-! ## The steps of the scheduler (02 R18-R51, 18 R359) -/
section
namespace Sys2Proof.Machine

open Sys2Proof

/-! ### Messages -/

/-- A decrement that arrives is applied. -/
theorem exec_decrementMessage {s : State} {e : Envelope} {part : Nat} {h : Word} {n : Nat} {sender : LogEntry}
    (ha : arrived s s.arg.a = some e) (hb : e.body = .decr part h n sender) :
    exec .decrementMessage s = .next (decrement part h n sender (dropMsg e.seq s)) := by
  change execDecrementMessage s = _
  simp only [execDecrementMessage, ha, hb]

/-- A ready message that arrives queues its entry. -/
theorem exec_readyMessage {s : State} {e : Envelope} {core : Nat} {x : RunEntry} (ha : arrived s s.arg.a = some e)
    (hb : e.body = .ready core x) : exec .readyMessage s = .next (enqueue core x (dropMsg e.seq s)) := by
  change execReadyMessage s = _
  simp only [execReadyMessage, ha, hb]

/-! ### Queues -/

/-- The spawn that has waited longest obtains a far entry, if one is free (02 R19). -/
theorem exec_farEntryObtained {s : State} {p : Part} {w : WaitSpawn} {r : List WaitSpawn} (hp : s.part? s.arg.a = some p)
    (hw : p.waits = w :: r) :
    (placeFar w.task w.depc s = none → exec .farEntryObtained s = .next s)
    ∧ ∀ h u, placeFar w.task w.depc s = some (h, u) → exec .farEntryObtained s
        = .next (deliverHandle s.arg.a w.reply h (u.onPart s.arg.a fun p => { p with waits := p.waits.drop 1 })) := by
  have hexec : exec .farEntryObtained s = .next ((obtainFar s.arg.a w s).getD s) := by
    change execFarEntryObtained s = _
    simp only [execFarEntryObtained, hp, hw]
  rw [hexec]
  constructor
  · intro hnone
    simp only [obtainFar, hnone, Option.getD_none]
  · intro h u hsome
    simp only [obtainFar, hsome, Option.getD_some]

/-- The binder acts where the partition of its core runs. -/
theorem exec_taskBind (s : State) : exec .taskBind s = .next (if coreRuns s s.arg.a then bindCore s.arg.a s else s) := rfl

/-- An entry of a run queue after a raise of the entry at a place, counted with an offset (02 R51). -/
def raisedAt (s : State) (off i : Nat) (x : RunEntry) : RunEntry :=
  if off + i = s.arg.b ∧ x.pri < 3 ∧ x.raised + 65536 ≤ s.cycle then raiseEntry x else x

/-- The step that raises priorities changes the two lists of one core. -/
theorem exec_priorityRaise (s : State) :
    exec .priorityRaise s = .next (s.setCore s.arg.a { s.core s.arg.a with
      runq := (s.core s.arg.a).runq.mapIdx (raisedAt s 0)
      spill := (s.core s.arg.a).spill.mapIdx (raisedAt s (s.core s.arg.a).runq.length) }) := by
  have hup : ∀ off, (fun i e => if off + i = s.arg.b && raiseDue s e then raiseEntry e else e) = raisedAt s off := by
    intro off
    funext i e
    simp [raisedAt, raiseDue]
  change execPriorityRaise s = _
  simp only [execPriorityRaise, hup]

/-! ### Parked threads -/

section Threads

variable {s : State} {x : Thread} (hx : s.thread? s.arg.a = some x)

include hx

/-- A wait that has lasted the deck-wait bound parks (02 R34). -/
theorem exec_dwbPark {w : Wait} {since : Nat} (hst : x.status = .waiting w since)
    (hdue : since + 256 * (s.core x.core).dwb.toNat ≤ s.cycle) : exec .dwbPark s = .next (parkWaiting w (s.focus x.id)) := by
  change execDwbPark s = _
  simp only [execDwbPark, hx, hst, parkDue, hdue, decide_true, if_true]

/-- A parked thread whose condition holds is queued (02 R36). -/
theorem exec_parkedThreadWake {w : Wait} {p : Nat} (hst : x.status = .parked w p) (hover : waitOver s x w = true) :
    exec .parkedThreadWake s = .next (requeue x.id s) := by
  change execParkedThreadWake s = _
  simp only [execParkedThreadWake, hx, hst, hover, if_true]

/-- A thread on whose line a write has come is queued (02 R38). -/
theorem exec_spinParkWake {l : Loc} {since p : Nat} (hst : x.status = .spinning l since p true) :
    exec .spinParkWake s = .next (requeue x.id s) := by
  change execSpinParkWake s = _
  simp only [execSpinParkWake, hx, hst]

/-- A thread whose spin park has lasted its bound is queued (02 R38). -/
theorem exec_spinParkTimeout {l : Loc} {since p : Nat} {b : Bool} (hst : x.status = .spinning l since p b)
    (hdue : since + spinBound s x ≤ s.cycle) : exec .spinParkTimeout s = .next (requeue x.id s) := by
  change execSpinParkTimeout s = _
  simp only [execSpinParkTimeout, hx, hst, hdue, if_true]

/-- A thread at its yield deadline is logged and ends (18 R359). -/
theorem exec_yieldDeadline (hst : x.status = .running) (hmod : x.modLatch = none) (hwdog : (s.core x.core).wdog.getLsbD 0 = true)
    (hydl : x.ydl = 0) :
    exec .yieldDeadline s = .next ((missDeadline (s.focus x.id)).onTh fun t => { t with uncounted := false }) := by
  change execYieldDeadline s = _
  simp [execYieldDeadline, hx, hst, hmod, deadline, hwdog, hydl]

end Threads

/-! ### The obligation -/

/-- Settles O54, step by step: messages, a core's queues and its binder, and threads out of their slots. -/
theorem scheduleEvents : Obligations.ScheduleEvents := by
  refine ⟨fun s e ha => ⟨fun part h n sender hb => ?_, fun core x hb => ⟨exec_readyMessage ha hb, enqueue_of_room x⟩⟩,
    fun s => ⟨⟨rfl, fun hs hin => refill_of_empty hs hin _, fun e hs hin hroom => refill_of_single hs hin hroom _⟩,
      fun p w r hp hw => exec_farEntryObtained hp hw, ?_, ?_, ?_⟩,
    fun s x hx => ⟨fun w since hst hdue => exec_dwbPark hx hst hdue, fun w p hst hover => exec_parkedThreadWake hx hst hover,
      fun l since p hst => exec_spinParkWake hx hst, fun l since p b hst hdue => exec_spinParkTimeout hx hst hdue, ?_, ?_⟩⟩
  case refine_1 =>
    have hexec := exec_decrementMessage ha hb
    refine ⟨hexec, fun p hp => ?_⟩
    intro w core i k bs count heven hsmall hcore hvalid hseq
    obtain ⟨hlower, hrelease⟩ := decrement_near (n := n) sender hp heven hsmall hcore hvalid hseq
    rw [hexec]
    exact ⟨fun hn => congrArg _ (hlower hn), fun hn t ht => congrArg _ (hrelease hn t ht)⟩
  case refine_2 =>
    intro hrun slot e hslot hentry q k
    have hexec : exec .taskBind s = .next (bindCore s.arg.a s) := by rw [exec_taskBind, if_pos hrun]
    constructor
    · intro t ctr he r u hnew
      obtain ⟨hth, hdram, hmsgs⟩ := bindCore_task_th hslot hentry he hnew
      refine ⟨_, hexec, hdram, hmsgs, ?_⟩
      rw [hth]
      exact ⟨rfl, rfl, rfl, rfl, rfl, rfl, newThread_getS u.fresh s.arg.a slot r.2 r.1.jseedm t, rfl, rfl, rfl, rfl, rfl, rfl, rfl, rfl⟩
    · intro tid x he hx
      obtain ⟨b, now, hthread, hdram⟩ := bindCore_resume_thread hslot hentry he hx
      exact ⟨_, _, hexec, hthread, rfl, rfl, rfl, rfl, rfl, hdram⟩
  case refine_3 =>
    intro hrun
    rw [exec_taskBind, hrun, if_neg Bool.false_ne_true]
  case refine_4 =>
    refine ⟨_, exec_priorityRaise s, ?_⟩
    rw [State.core_setCore_self]
    exact ⟨fun i x hi => by simp [hi, raisedAt, raiseEntry], fun i x hi => by simp [hi, raisedAt, raiseEntry],
      List.length_mapIdx, rfl, rfl, rfl⟩
  case refine_5 =>
    intro c hc hin hroom
    subst hc
    have hid : s.thread? x.id = some x := by rw [State.id_of_thread? hx, hx]
    obtain ⟨hthread, hrunq⟩ := requeue_of_room hid hin hroom
    exact ⟨_, hthread, rfl, hrunq⟩
  case refine_6 =>
    intro hst hmod hwdog hydl
    exact ⟨_, _, exec_yieldDeadline hx hst hmod hwdog hydl, rfl⟩

end Sys2Proof.Machine
end

/-! ## A migrated thread that finds its run queue full (02 R25, R46, 11 R246) -/
section
namespace Sys2Proof.Machine

open Sys2Proof

/-- The message that brings thread 0 to core 0. -/
def arrivalEnvelope : Envelope := ⟨7, 0, 0, none, .migrate 0 0 []⟩

/-- An entry of a run queue. -/
def waitingEntry : RunEntry := { what := .resume 1, pri := 0, since := 0, raised := 0, ctags := 0, hasTags := false }

/-- Thread 0 arrives at core 0, whose run queue holds its 64 entries. The spill ring of the core stands in a page that its
partition maps, and stand 1 holds the replica of a line. -/
def fullQueueArrival : State :=
  let s := State.reset.withFetchWord 32 0
  { s with
    th := { s.th with status := .moving }
    cores := [(0, { runq := List.replicate 64 waitingEntry, rqsb := BitVec.ofNat 64 placedPc })]
    stands := [(1, { replicas := [1] })]
    msgs := [arrivalEnvelope]
    arg := { a := 7 } }

/-- The entry of the thread that arrives goes to the spill ring, and the write of its bytes sends an update to stand 1: the
fabric is not empty after the arrival. -/
theorem fullQueueArrival_sends {t : State} (h : exec .migrationArrival fullQueueArrival = .next t) : t.msgs ≠ [] := by
  have hrun : (match exec .migrationArrival fullQueueArrival with
      | .next t => t.msgs.isEmpty
      | _ => true) = false := by decide +kernel
  rw [h] at hrun
  intro hempty
  simp [hempty] at hrun

/-- Refutes O38: in its last part the fabric after a migrated thread's arrival is said to be the one before without the
migration's message. Where the run queue is full the entry joins the spill ring (02 R25), whose bytes are written in partition
memory, and a stand with a replica is sent the update of that write (11 R246). -/
theorem not_crewsAndMigration : ¬ Obligations.CrewsAndMigration := by
  intro h
  obtain ⟨-, -, -, -, harrival⟩ := h
  have harr : arrived fullQueueArrival fullQueueArrival.arg.a = some arrivalEnvelope := by decide +kernel
  have hth : fullQueueArrival.thread? 0 = some fullQueueArrival.th := by decide +kernel
  obtain ⟨t, y, hexec, -, -, -, -, -, -, -, -, -, -, -, -, -, -, -, hmsgs⟩ :=
    harrival fullQueueArrival arrivalEnvelope 0 0 [] fullQueueArrival.th harr rfl hth rfl
  exact fullQueueArrival_sends hexec (by rw [hmsgs]; rfl)

end Sys2Proof.Machine
end

/-! ## The cross-lane reductions (03 R71, 07 R171) -/
section
namespace Sys2Proof.Machine

open Sys2Proof

/-! ### A reduction as it issues -/

/-- What a reduction of the lanes gives: the root of its pairwise tree, with the flags of all its nodes. -/
def laneReduction (f : Nat → Nat → Nat → Nat × Flags) (neutral : Nat) (a : BitVec 4) (k : BitVec 3) (s : State) : Nat × Flags :=
  let r := treeReduce f 5 0 ((List.range 32).map fun i => if (s.getK k).getLsbD i then (lane (s.getV a) i).toNat else neutral)
  (r.1.headD 0, r.2)

/-- A reduction puts its result and its flags on their way and moves past itself. -/
theorem vreduce_eq (f : Nat → Nat → Nat → Nat × Flags) (neutral : Nat) (d a : BitVec 4) (k : BitVec 3) (s : State) :
    vreduce f neutral d a k s = advance 4 (s.withPending (⟨10, .s d (BitVec.ofNat 64 (laneReduction f neutral a k s).1)⟩
      :: flagsOn 10 (laneReduction f neutral a k s).2)) :=
  congrArg (advance 4) (raise_pushW ..)

/-- An instruction that is a reduction in a mode writes the root of the tree. -/
theorem writesF_of_vreduce {i : Instr} {f : Nat → Nat → Nat → Nat × Flags} {neutral : Nat} {d a : BitVec 4} {k : BitVec 3} {m : Mode}
    {s : State} (h : exec i s = .next (bumpSrc m (vreduce f neutral d a k s))) :
    WritesF i 4 10 d m s (Gives (laneReduction f neutral a k s)) := by
  rw [vreduce_eq] at h
  exact ⟨_, _, _, _, h, ⟨rfl, rfl⟩, drawsBits_bumpSrc m _, movesPast_bumpSrc m 4 _⟩

/-! ### The tree of an operation that raises no flag -/

/-- An operation as a node function that raises no flag, whatever the node's number. -/
def flagless (f : Nat → Nat → Nat) (_ x y : Nat) : Nat × Flags := (f x y, 0)

/-- Neighbours joined by an operation. -/
def joinPairs (f : Nat → Nat → Nat) : List Nat → List Nat
  | x :: y :: r => f x y :: joinPairs f r
  | xs => xs

/-- A level of the tree joins neighbours. -/
theorem treeLevel_flagless (f : Nat → Nat → Nat) : ∀ (n : Nat) (xs : List Nat), treeLevel (flagless f) n xs = (joinPairs f xs, 0)
  | _, [] => rfl
  | _, [_] => rfl
  | n, x :: y :: r => by simp [treeLevel, joinPairs, flagless, treeLevel_flagless f (n + 1) r]

/-- The tree joins neighbours, level by level. -/
theorem treeReduce_flagless (f : Nat → Nat → Nat) (fuel n : Nat) (xs : List Nat) :
    treeReduce (flagless f) fuel n xs = ((joinPairs f)^[fuel] xs, 0) := by
  induction fuel generalizing n xs with
  | zero => rfl
  | succ fuel ih => simp [treeReduce, treeLevel_flagless, ih]

/-- Joining neighbours halves the number of values. -/
theorem length_joinPairs (f : Nat → Nat → Nat) : ∀ xs : List Nat, (joinPairs f xs).length = (xs.length + 1) / 2
  | [] => rfl
  | [_] => by simp [joinPairs]
  | x :: y :: r => by
    simp only [joinPairs, List.length_cons, length_joinPairs f r]
    omega

/-- No pair lies across the end of an even number of values. -/
theorem joinPairs_append (f : Nat → Nat → Nat) (ys : List Nat) : ∀ xs : List Nat, xs.length % 2 = 0 →
    joinPairs f (xs ++ ys) = joinPairs f xs ++ joinPairs f ys
  | [], _ => rfl
  | [_], h => by simp at h
  | x :: y :: r, h => by
    simp only [List.length_cons] at h
    simp only [List.cons_append, joinPairs, joinPairs_append f ys r (by omega)]

/-- After as many levels as there are doublings in the number of values, one value is left. -/
theorem length_iterate_joinPairs (f : Nat → Nat → Nat) (k : Nat) (xs : List Nat) (h : xs.length = 2 ^ k) :
    ((joinPairs f)^[k] xs).length = 1 := by
  induction k generalizing xs with
  | zero => exact h
  | succ k ih => exact ih _ (by rw [length_joinPairs, h, Nat.pow_succ]; omega)

/-- Values that follow 2^k others stay apart from them for k levels. -/
theorem iterate_joinPairs_append (f : Nat → Nat → Nat) (k : Nat) (xs ys : List Nat) (h : xs.length = 2 ^ k) :
    (joinPairs f)^[k] (xs ++ ys) = (joinPairs f)^[k] xs ++ (joinPairs f)^[k] ys := by
  induction k generalizing xs ys with
  | zero => rfl
  | succ k ih =>
    rw [Nat.pow_succ] at h
    simp only [Function.iterate_succ_apply]
    rw [joinPairs_append f ys xs (by omega), ih _ _ (by rw [length_joinPairs]; omega)]

/-- The root of the tree over two halves of 2^k values is the join of the roots of the halves. -/
theorem treeReduce_halves (f : Nat → Nat → Nat) (k n : Nat) (xs ys : List Nat) (hx : xs.length = 2 ^ k) (hy : ys.length = 2 ^ k) :
    treeReduce (flagless f) (k + 1) n (xs ++ ys)
      = ([f ((treeReduce (flagless f) k n xs).1.headD 0) ((treeReduce (flagless f) k n ys).1.headD 0)], 0) := by
  simp only [treeReduce_flagless, Function.iterate_succ_apply', iterate_joinPairs_append f k xs ys hx]
  obtain ⟨x, hrootx⟩ := List.length_eq_one_iff.mp (length_iterate_joinPairs f k xs hx)
  obtain ⟨y, hrooty⟩ := List.length_eq_one_iff.mp (length_iterate_joinPairs f k ys hy)
  rw [hrootx, hrooty]
  rfl

/-! ### The obligation -/

/-- Settles O13: each reduction writes the root of its tree, and the tree over two halves joins their roots. -/
theorem vectorReductions : Obligations.VectorReductions := by
  refine ⟨fun d a k m s => ⟨writesF_of_vreduce rfl, writesF_of_vreduce rfl, writesF_of_vreduce rfl⟩, fun f xs ys hx hy => ?_⟩
  have hroot : treeReduce (flagless f) 5 0 (xs ++ ys) = _ := treeReduce_halves f 4 0 xs ys hx hy
  exact ⟨congrArg Prod.fst hroot, congrArg Prod.snd hroot⟩

end Sys2Proof.Machine
end

/-! ## Words of the encoding tables (04 R75-R97) -/
section
namespace Sys2Proof

/-- Settles O56: each word is written out, and the decoder's run on it gives the answer. -/
theorem decodeWords : Obligations.DecodeWords := by
  unfold Obligations.DecodeWords
  decide +kernel

end Sys2Proof
end

/-! ## The modifier word (04 R85-R87) -/
section
namespace Sys2Proof.Machine

open Sys2Proof

/-- The bits of a modifier word that carries neither GAP nor SW (04 R85). -/
theorem toNat_modWord (u r q p : BitVec 1) (sc : BitVec 6) (t : BitVec 2) :
    (modWord u r q p sc t 0 false).toNat = 1009 + u.toNat * 2 ^ 10 + r.toNat * 2 ^ 11 + q.toNat * 2 ^ 12 + p.toNat * 2 ^ 13
      + sc.toNat * 2 ^ 14 + t.toNat * 2 ^ 20 := by
  simp only [modWord, BitVec.toNat_ofNat, Bool.false_eq_true, if_false]
  omega

/-- A field of one bit is set where its number is 1. -/
theorem decide_bit_eq_one (u : BitVec 1) : decide (u = 1) = decide (u.toNat = 1) :=
  decide_eq_decide.mpr BitVec.toNat_inj.symm

/-- The fields of a modifier word are read back from it (04 R85). -/
theorem ofWord_modWord (u r q p : BitVec 1) (sc : BitVec 6) (t : BitVec 2) :
    Modifier.ofWord (modWord u r q p sc t 0 false)
      = { nega := decide (u = 1), absa := decide (r = 1), negb := decide (q = 1), absb := decide (p = 1)
          scale := sc.toInt, sat := t.toNat } := by
  have hbits := toNat_modWord u r q p sc t
  have hscale : (modWord u r q p sc t 0 false).extractLsb' 14 6 = sc :=
    BitVec.eq_of_toNat_eq (by rw [BitVec.extractLsb'_toNat, hbits, Nat.shiftRight_eq_div_pow]; omega)
  have hsat : (modWord u r q p sc t 0 false).extractLsb' 20 2 = t :=
    BitVec.eq_of_toNat_eq (by rw [BitVec.extractLsb'_toNat, hbits, Nat.shiftRight_eq_div_pow]; omega)
  simp only [Modifier.ofWord, hscale, hsat, decide_bit_eq_one, BitVec.getLsbD, Nat.testBit_eq_decide_div_mod_eq, hbits,
    Modifier.mk.injEq, decide_eq_decide, and_true]
  omega

/-- A modifier whose fields the instruction accepts is not misused (04 R86, R87). -/
theorem modifierMisuse_of_accepted {u r q p : BitVec 1} {sc : BitVec 6} {t : BitVec 2} {i : Instr} {a b c d : Bool}
    (hacc : acceptsModifier i = some (a, b, c, d)) (ha : a = false → u = 0 ∧ r = 0) (hb : b = false → q = 0 ∧ p = 0)
    (hc : c = false → sc = 0) (hd : d = false → t = 0) : modifierMisuse u r q p sc t i = none := by
  have hno : ¬ ((!a && (u = 1 || r = 1)) || (!b && (q = 1 || p = 1)) || (!c && sc ≠ 0) || (!d && t ≠ 0)) = true := by
    simp only [Bool.or_eq_true, Bool.and_eq_true, Bool.not_eq_true', decide_eq_true_eq]
    rintro (((⟨h, hu⟩ | ⟨h, hq⟩) | ⟨h, hsc⟩) | ⟨h, ht⟩)
    · simp [ha h] at hu
    · simp [hb h] at hq
    · exact hsc (hc h)
    · exact ht (hd h)
  simp only [modifierMisuse, hacc, if_neg hno]

section Modified

variable {u r q p : BitVec 1} {sc : BitVec 6} {t : BitVec 2} {s s' : State} {w : Nat} {x : Decoded}
  (hgap : s.th.ir.gap = 0) (hsw : s.th.ir.sw = false) (hfetch : fetchWord (s.th.pc + 4) s = .ok (4, w, s'))
  (hplain : isModifier w = false) (hdecode : decodeWord true w = .ok x)

include hgap hsw hfetch hplain hdecode

/-- A modifier that the next instruction, a good one, accepts is latched with that instruction's word (04 R86). -/
theorem exec_mod_accepted (haccepts : modifierMisuse u r q p sc t x.instr = none) (hgood : x.instr.fieldFault = none) :
    exec (.mod u r q p sc t) s = .next (s'.onTh fun th => { th with
      modLatch := some (modWord u r q p sc t 0 false), second := BitVec.ofNat 32 w, pc := th.pc + 4 }) := by
  change execMod u r q p sc t s = _
  simp only [execMod, hfetch, hgap, hsw, hplain, hdecode, haccepts, hgood]
  rfl

/-- A misused modifier is an illegal instruction of index 10 (04 R86); the register shows both words. -/
theorem exec_mod_misused {v : Nat} (hmisused : modifierMisuse u r q p sc t x.instr = some v) :
    exec (.mod u r q p sc t) s = .next (takeTrap (illegal 10 v) (s'.onTh fun th => { th with
      ir := { th.ir with word := BitVec.ofNat 32 w, modw := modWord u r q p sc t 0 false, hasMod := true } })) := by
  change execMod u r q p sc t s = _
  simp only [execMod, hfetch, hgap, hsw, hplain, hdecode, hmisused]
  rfl

end Modified

/-- Settles O26: an accepted modifier is latched with the word after it, and its fields are read back; one before an instruction
that takes none is misused. -/
theorem modifierWord : Obligations.ModifierWord := by
  intro u r q p sc sat s s' w x hgap hsw hfetch hth hplain hdecode
  constructor
  · intro av bv scv satv hacc hgood ha hb hc hd
    refine ⟨_, exec_mod_accepted hgap hsw hfetch hplain hdecode (modifierMisuse_of_accepted hacc ha hb hc hd) hgood, ?_, ?_, ?_⟩
    · simp only [State.onTh, hth]
    · simp [Thread.instrPc, hth]
    · exact ofWord_modWord u r q p sc sat
  · intro hacc
    have hmisused : modifierMisuse u r q p sc sat x.instr = some 3 := by simp only [modifierMisuse, hacc]
    exact ⟨_, _, _, exec_mod_misused hgap hsw hfetch hplain hdecode hmisused, rfl, rfl,
      by simp only [State.onTh_th, hth], rfl, rfl, rfl⟩

end Sys2Proof.Machine
end

/-! ## The 16-bit lane forms (04 R83, 07 R179) -/
section
namespace Sys2Proof.Machine

open Sys2Proof

/-- A vector result puts its elements and their flags on their way and moves past the instruction. -/
theorem vectorResult_eq (len lat w : Nat) (d : BitVec 4) (k : KWord) (f : Nat → Nat × Flags) (s : State) :
    vectorResult len lat w d k f s
      = advance len (s.withPending (⟨lat, .v d (packLanes w k f).1 (elemMask w k)⟩ :: flagsOn lat (packLanes w k f).2)) :=
  congrArg (advance len) (raise_pushW ..)

/-- An instruction whose elements are a vector result in a mode writes every operation that agrees with them in the elements' bits. -/
theorem writesV_of_vectorResult {i : Instr} {len lat w : Nat} {d : BitVec 4} {k : KWord} {m : Mode} {s : State} {f op : Nat → Nat × Flags}
    (hw : 32 * w ≤ 1024) (hexec : exec i s = .next (bumpSrc m (vectorResult len lat w d k f s)))
    (hop : ∀ j, (f j).1 % 2 ^ w = (op j).1 % 2 ^ w ∧ (f j).2 = (op j).2) : WritesV i len lat w d k m s op := by
  obtain ⟨hvalue, hflags⟩ := packLanes_spec w k f hw
  obtain ⟨hon, hoff, habove⟩ := elemMask_spec w k hw
  rw [vectorResult_eq] at hexec
  refine ⟨_, _, _, _, _, hexec, fun j hj hk => ⟨?_, hon j hj hk⟩, hoff, habove, fun b => ?_, drawsBits_bumpSrc m _, movesPast_bumpSrc m len _⟩
  · rw [hvalue j hj hk, (hop j).1]
  · simp only [hflags, (hop _).2]

/-- An instruction that is a vector result of 32-bit lanes in a mode writes those lanes. -/
theorem writesV_of_lanes {i : Instr} {len lat : Nat} {d : BitVec 4} {k : KWord} {m : Mode} {s : State} {op : Nat → Nat × Flags}
    (hexec : exec i s = .next (bumpSrc m (vectorResult len lat 32 d k op s))) : WritesV i len lat 32 d k m s op :=
  writesV_of_vectorResult (by omega) hexec fun _ => ⟨rfl, rfl⟩

/-- A lane form that raises no flag. -/
theorem writesV_of_values {i : Instr} {len lat : Nat} {d : BitVec 4} {k : KWord} {s : State} {f : Nat → BitVec 32} {op : Nat → Nat}
    (hexec : exec i s = .next (vectorResult len lat 32 d k (fun j => ((f j).toNat, 0)) s)) (hop : ∀ j, (f j).toNat = op j % 2 ^ 32) :
    WritesV i len lat 32 d k .rne s (fun j => (op j, 0)) :=
  writesV_of_vectorResult (by omega) hexec fun j => ⟨by simp [hop j], rfl⟩

/-- Inverting the sign bit of a lane adds its weight, modulo the lane's range. -/
theorem toNat_xor_sign (x : BitVec 32) : (x ^^^ 0x80000000).toNat = (x.toNat + 2 ^ 31) % 2 ^ 32 := by
  have hlow : (x.toNat ^^^ 2 ^ 31) % 2 ^ 31 = x.toNat % 2 ^ 31 := by
    rw [Nat.xor_mod_two_pow, Nat.mod_self, Nat.xor_zero]
  have hhigh : (x.toNat ^^^ 2 ^ 31) / 2 ^ 31 = x.toNat / 2 ^ 31 ^^^ 1 := by
    rw [Nat.xor_div_two_pow, Nat.div_self (Nat.two_pow_pos 31)]
  change x.toNat ^^^ 2 ^ 31 = _
  obtain h | h : x.toNat / 2 ^ 31 = 0 ∨ x.toNat / 2 ^ 31 = 1 := by omega
  · rw [h, Nat.zero_xor] at hhigh
    omega
  · rw [h, Nat.xor_self] at hhigh
    omega

/-- Clearing the sign bit of a lane leaves the bits below. -/
theorem toNat_and_magnitude (x : BitVec 32) : (x &&& 0x7FFFFFFF).toNat = x.toNat % 2 ^ 31 :=
  Nat.and_two_pow_sub_one_eq_mod x.toNat 31

/-- Settles O16: every form is a vector result of all lanes, whose values are those of its operation on the lanes. -/
theorem shortLaneForms : Obligations.ShortLaneForms := by
  intro d x s mode down md all fp D X A B once
  have hA (j : Nat) : A j < 2 ^ 32 := BitVec.isLt _
  have hB (j : Nat) : B j < 2 ^ 32 := BitVec.isLt _
  refine ⟨writesV_of_lanes rfl, writesV_of_lanes rfl, writesV_of_lanes rfl, writesV_of_lanes rfl, writesV_of_lanes rfl,
    writesV_of_lanes rfl, writesV_of_values rfl fun j => ?add, writesV_of_values rfl fun j => ?sub, writesV_of_lanes rfl,
    writesV_of_lanes rfl, writesV_of_lanes rfl, writesV_of_values rfl fun j => ?shl, writesV_of_values rfl fun j => ?shr,
    writesV_of_lanes rfl, writesV_of_values rfl fun j => ?neg, writesV_of_values rfl fun j => ?abs⟩
  case add => exact BitVec.toNat_add ..
  case sub => rw [BitVec.toNat_sub, Nat.add_comm, ← Nat.add_sub_assoc (Nat.le_of_lt (hB j))]
  case shl => rw [BitVec.toNat_shiftLeft, Nat.shiftLeft_eq, laneShift]
  case shr =>
    rw [BitVec.toNat_ushiftRight, Nat.shiftRight_eq_div_pow, laneShift,
      Nat.mod_eq_of_lt (Nat.lt_of_le_of_lt (Nat.div_le_self ..) (hA j))]
  case neg => rw [toNat_xor_sign, Nat.mod_mod]
  case abs => rw [toNat_and_magnitude, Nat.mod_eq_of_lt (Nat.lt_of_le_of_lt (Nat.mod_le ..) (hB j))]

end Sys2Proof.Machine
end

/-! ## The steps of memory (04 R93, 09 R220-R230, 11 R243-R264) -/
section
namespace Sys2Proof.Machine

open Sys2Proof

/-! ### A load-path result returns (04 R93) -/

/-- A load found by its number has it. -/
theorem id_of_loadOf {x : Thread} {n : Nat} {l : Load} (h : loadOf x n = some l) : l.id = n := by
  simpa using List.find?_some h

/-- A thread without the load with a number. -/
def Thread.withoutLoad (n : Nat) (t : Thread) : Thread := { t with loads := t.loads.filter fun y => y.id ≠ n }

section Trapping

variable {v : LoadVal} {tr : Trap} (h : v.trap? = some tr)

include h

/-- A result that brings a trap has nothing to do before. -/
theorem LoadVal.ne_acting_of_trap (a : Acting) : v ≠ .acting a := by
  rintro rfl
  cases h

/-- A result that brings a trap has nothing to read. -/
theorem LoadVal.ne_reading_of_trap (form : LoadForm) (todo : List LoadPart) (got : List (LoadPart × Nat)) :
    v ≠ .reading form todo got := by
  rintro rfl
  cases h

end Trapping

/-- Only a load that is reading is read. -/
theorem performLoad_of_not_reading {l : Load} (h : ∀ form todo got, l.val ≠ .reading form todo got) (x : Thread) (k : Nat) (s : State) :
    performLoad x l k s = s := by
  unfold performLoad
  split
  · exact absurd ‹_› (h _ _ _)
  · rfl

section Reading

variable {l : Load} {form : LoadForm} {todo : List LoadPart} {got : List (LoadPart × Nat)} (hval : l.val = .reading form todo got)

include hval

/-- All that is left of a load is read where its order lets it be (11 R249). -/
theorem performLoad_whole (x : Thread) (s : State) :
    performLoad x l 0 s = if mayPerform s x l.id l.places = true then readLoad x.id l.id s else s := by
  simp only [performLoad, hval]

/-- One piece of a load is read where the order of its own places lets it be (09 R230). -/
theorem performLoad_piece {k : Nat} {p : LoadPart} (hp : todo[k]? = some p) (x : Thread) (s : State) :
    performLoad x l (k + 1) s = if mayPerform s x l.id p.locs = true then readPart x.id l.id p s else s := by
  simp only [performLoad, hval, hp]

/-- A load that is still reading does not return. -/
theorem returnLoad_reading (x : Thread) (s : State) : returnLoad x l s = s := by
  simp only [returnLoad, hval, LoadVal.trap?]

end Reading

/-- Data are written to the load's destination, and the load is gone. -/
theorem returnLoad_data {l : Load} {v : VWord} {f : Bool} (hval : l.val = .data v f) (x : Thread) (s : State) :
    returnLoad x l s = s.onThread x.id fun t => l.dest.write v f ((spinValue l v t).withoutLoad l.id) := by
  simp only [returnLoad, hval]
  rfl

/-- A result that brings a trap: dropped for a thread that a fault is ending, taken once its thread has a slot. -/
theorem returnLoad_trap {l : Load} {tr : Trap} (htrap : l.val.trap? = some tr) (x : Thread) (s : State) :
    let gone := s.onThread x.id (Thread.withoutLoad l.id)
    returnLoad x l s = if x.dying.isSome = true then gone else if x.bound = true then loadTrap l tr (gone.focus x.id) else s := by
  intro gone
  cases hval : l.val with
  | error | fault =>
    simp only [returnLoad, hval, hval ▸ htrap]
    rfl
  | waiting | data | reading | acting =>
    rw [hval] at htrap
    cases htrap

/-- The instruction whose load brings a trap takes it, and does not count as issued. -/
theorem loadTrap_eq (l : Load) (tr : Trap) (w : State) :
    let t := takeTrap tr { w with th := { w.th with
      status := .running, pc := l.pc, modLatch := none, ir := { w.th.ir with word := l.word, hasMod := false }
      ydl := if w.myCore.wdog.getLsbD 0 = true ∧ w.th.reloaded ≤ l.id then w.th.ydl + 1 else w.th.ydl } }
    loadTrap l tr w = { t with th := { t.th with uncounted := false } } := by
  simp only [loadTrap, State.onTh, Bool.and_eq_true, decide_eq_true_eq]

section LoadReturn

variable {s : State} {x : Thread} (hx : s.thread? s.arg.a = some x)

include hx

/-- A thread that an event names is found by its own number. -/
theorem thread?_arg_id : s.thread? x.id = some x := by
  rw [State.id_of_thread? hx, hx]

variable {l : Load} (hl : loadOf x s.arg.b = some l)

include hl

/-- A load-path result that waits to act does so once it is ready. -/
theorem exec_loadReturn_acting {a : Acting} (hval : l.val = .acting a) :
    exec .loadReturn s = .next (if a.ready s x l = true then act x l a s else s) := by
  change execLoadReturn s = _
  simp only [execLoadReturn, hx, hl, hval]

/-- A load-path result that has no instruction to act returns as it stands after its reading. -/
theorem exec_loadReturn_whole (hval : ∀ a, l.val ≠ .acting a) (hc : s.arg.c = 0) {y : Thread} {m : Load}
    (hy : (performLoad x l 0 s).thread? x.id = some y) (hm : loadOf y l.id = some m) :
    exec .loadReturn s = .next (returnLoad x m (performLoad x l 0 s)) := by
  change execLoadReturn s = _
  cases hv : l.val with
  | acting a => exact absurd hv (hval a)
  | waiting | data | error | fault | reading => simp only [execLoadReturn, hx, hl, hv, hc, hy, Option.bind_some, hm]

/-- A load-path result that reads nothing in this step returns as it is. -/
theorem exec_loadReturn_same (hval : ∀ a, l.val ≠ .acting a) (hc : s.arg.c = 0) (hsame : performLoad x l 0 s = s) :
    exec .loadReturn s = .next (returnLoad x l s) := by
  have hm : loadOf x l.id = some l := by rw [id_of_loadOf hl, hl]
  have h := exec_loadReturn_whole hx hl hval hc (y := x) (m := l) (by rw [hsame]; exact thread?_arg_id hx) hm
  rwa [hsame] at h

/-- Data return to their register. -/
theorem exec_loadReturn_data {v : VWord} {f : Bool} (hval : l.val = .data v f) (hc : s.arg.c = 0) :
    exec .loadReturn s = .next (s.onThread x.id fun t => l.dest.write v f ((spinValue l v t).withoutLoad l.id)) := by
  rw [exec_loadReturn_same hx hl (by simp [hval]) hc (performLoad_of_not_reading (by simp [hval]) x 0 s), returnLoad_data hval]

/-- An error or a fault returns: it is dropped, taken as a trap, or waits for a slot. -/
theorem exec_loadReturn_trap {tr : Trap} (htrap : l.val.trap? = some tr) (hc : s.arg.c = 0) :
    let gone := s.onThread x.id (Thread.withoutLoad l.id)
    exec .loadReturn s
      = .next (if x.dying.isSome = true then gone else if x.bound = true then loadTrap l tr (gone.focus x.id) else s) := by
  intro gone
  rw [exec_loadReturn_same hx hl (LoadVal.ne_acting_of_trap htrap) hc
    (performLoad_of_not_reading (LoadVal.ne_reading_of_trap htrap) x 0 s), returnLoad_trap htrap]

section Reading

variable {form : LoadForm} {todo : List LoadPart} {got : List (LoadPart × Nat)} (hval : l.val = .reading form todo got)

include hval

/-- Where something earlier must come first, a load is not read and does not return. -/
theorem exec_loadReturn_blocked (hc : s.arg.c = 0) (hmay : mayPerform s x l.id l.places = false) : exec .loadReturn s = .next s := by
  have hsame : performLoad x l 0 s = s := by rw [performLoad_whole hval, hmay, if_neg Bool.false_ne_true]
  rw [exec_loadReturn_same hx hl (by simp [hval]) hc hsame, returnLoad_reading hval]

/-- A load that is read whole returns as its reading leaves it. -/
theorem exec_loadReturn_read (hc : s.arg.c = 0) (hmay : mayPerform s x l.id l.places = true) {y : Thread} {m : Load}
    (hy : (readLoad x.id l.id s).thread? x.id = some y) (hm : loadOf y l.id = some m) :
    exec .loadReturn s = .next (returnLoad x m (readLoad x.id l.id s)) := by
  have hread : performLoad x l 0 s = readLoad x.id l.id s := by rw [performLoad_whole hval, if_pos hmay]
  rw [exec_loadReturn_whole hx hl (by simp [hval]) hc (by rw [hread, hy]) hm, hread]

/-- One piece of a load is read, and nothing returns. -/
theorem exec_loadReturn_piece {k : Nat} {p : LoadPart} (hc : s.arg.c = k + 1) (hp : todo[k]? = some p) :
    exec .loadReturn s = .next (if mayPerform s x l.id p.locs = true then readPart x.id l.id p s else s) := by
  rw [← performLoad_piece hval hp]
  change execLoadReturn s = _
  simp only [execLoadReturn, hx, hl, hval, hc]

end Reading

end LoadReturn

section Queues

variable {s : State} {x : Thread} (hx : s.thread? s.arg.a = some x)

include hx

/-! ### Stores and atomics at home (11 R243, R244, R264) -/

/-- An entry of a store queue is performed at its home where it is ready. -/
theorem exec_storeAtHome {e : StoreEntry} (he : x.sq[s.arg.b]? = some e) (hc : s.arg.c = 0) :
    exec .storeAtHome s = .next (if entryReady s x s.arg.b = true then performEntry 3 x s.arg.b e s else s) := by
  change execStoreAtHome s = _
  simp only [execStoreAtHome, hx, he, hc]

/-- A store is performed short of its home, at its core or its grove, where it is ready for that. -/
theorem exec_storeAtHome_short {q : QStore} (hq : x.sq[s.arg.b]? = some (.store q)) {lvl : Nat} (hlvl : lvl ∈ [1, 2])
    (hc : s.arg.c = lvl) :
    exec .storeAtHome s = .next (if raiseReady s x lvl q = true then raiseStore x s.arg.b lvl q s else s) := by
  change execStoreAtHome s = _
  obtain rfl | rfl : lvl = 1 ∨ lvl = 2 := by simpa using hlvl
  · simp only [execStoreAtHome, hx, hq, hc]
  · simp only [execStoreAtHome, hx, hq, hc]

/-- One piece of a store is performed at its home where it is ready. -/
theorem exec_storeAtHome_piece {q : QStore} (hq : x.sq[s.arg.b]? = some (.store q)) {j : Nat} (hc : s.arg.c = j + 3) :
    exec .storeAtHome s = .next (if pieceReady s x q j = true then storePiece x s.arg.b j q s else s) := by
  change execStoreAtHome s = _
  simp only [execStoreAtHome, hx, hq, hc]

/-- An atomic or reduction leaves its queue and acts where nothing earlier must come before. -/
theorem exec_atomicAtHome {op : AtomOp} (hop : x.atq[s.arg.b]? = some op) :
    exec .atomicAtHome s = .next (if atomReady s x op = true then
      performAtom x op (s.onThread x.id fun t => { t with atq := t.atq.eraseIdx s.arg.b }) else s) := by
  change execAtomicAtHome s = _
  simp only [execAtomicAtHome, hx, hop]

/-! ### The drain of a FENCEH (11 R255) -/

/-- A core of a FENCEH's target is done once all before its marks is performed. -/
theorem exec_fencehTargetDrain {cs : List Nat} (hst : x.status = .holding (.fenceh cs)) (hb : s.arg.b ∈ cs) :
    exec .fencehTargetDrain s = .next (if markedDone s.arg.b (drainMarked s.arg.b s) = true then
      (dropMarks s.arg.b (drainMarked s.arg.b s)).onThread x.id fun t =>
        { t with status := .holding (.fenceh (cs.filter (· ≠ s.arg.b))) } else s) := by
  obtain ⟨c, r, rfl⟩ := List.exists_cons_of_ne_nil (List.ne_nil_of_mem hb)
  change execFencehTargetDrain s = _
  simp only [execFencehTargetDrain, hx, hst, List.contains_iff_mem.mpr hb, Bool.true_and]
  split <;> rfl

/-- With the last core the hold ends, where the core's picker lets the thread go on. -/
theorem exec_fencehTargetDrain_last (hst : x.status = .holding (.fenceh [])) :
    exec .fencehTargetDrain s = .next (if pickedWait s x .fencehTargetDrain = true then
      finishWait (acquireL1 3 x.core (s.focus x.id)) else s) := by
  change execFencehTargetDrain s = _
  simp only [execFencehTargetDrain, hx, hst]

end Queues

/-! ### A wait that ends (02 R29) -/

/-- The focus thread, chosen again, stays. -/
theorem State.focus_self (s : State) : s.focus s.th.id = s := if_pos rfl

/-- A wait that ends lets the focus thread run on past its instruction. -/
theorem runsOn_of_finishWait {i : Instr} {s u : State} (h : exec i s = .next (finishWait u)) : RunsOn i s u := by
  refine ⟨_, h, ?_⟩
  rw [pickFocus, State.focus_self]
  exact movesPast_advance 4 _

/-! ### Replicas (11 R246) -/

/-- The update of a message is applied once the stand's clock allows, and the message is gone. -/
theorem exec_replicaUpdateApply {s : State} {e : Envelope} {st h : Nat} {t : List Nat} {b : List (Nat × Byte)}
    (he : s.msgs.find? (fun e => e.seq = s.arg.a) = some e) (hb : e.body = .update st h t b) :
    exec .replicaUpdateApply s = .next (if updateReady s st h t = true then
      applyUpdate st h t b { s with msgs := s.msgs.filter fun x => x.seq ≠ e.seq } else s) := by
  have harrived : execReplicaUpdateApply.arrivedUpdate s = some (e.seq, st, h, t, b) := by
    simp only [execReplicaUpdateApply.arrivedUpdate, he, hb]
  change execReplicaUpdateApply s = _
  simp only [execReplicaUpdateApply, harrived]
  split <;> rfl

/-! ### Ways and write-backs (09 R220, R222, R240) -/

/-- A grove's record just set. -/
@[simp] theorem State.grove_setGrove_self (s : State) (g : Nat) (x : Grove) : (s.setGrove g x).grove g = x := by
  simp [State.grove, State.setGrove, Table.find_put_self]

section L2wp

variable {s : State} {g : Nat} {v : Word}

/-- A write of L2WP during a change, or of a value that it cannot take, does nothing. -/
theorem writeL2wp_refused (h : (s.grove g).busy = true ∨ v.extractLsb' 0 2 = 3 ∨ (v.extractLsb' 0 2 ≠ 0 ∧ v.extractLsb' 23 34 = 0)) :
    writeL2wp g v s = s := by
  simp only [writeL2wp]
  exact if_pos (by simpa [or_assoc] using h)

/-- Every other write of L2WP begins a change of WAYS where it changes them. -/
theorem writeL2wp_taken (hbusy : (s.grove g).busy = false) (hways : v.extractLsb' 0 2 ≠ 3)
    (hbase : v.extractLsb' 0 2 = 0 ∨ v.extractLsb' 23 34 ≠ 0) :
    writeL2wp g v s = s.setGrove g { s.grove g with
      spbase := v.extractLsb' 23 34, ways := v.extractLsb' 0 2, oldWays := (s.grove g).ways
      busy := decide (v.extractLsb' 0 2 ≠ (s.grove g).ways) } := by
  simp only [writeL2wp]
  refine if_neg ?_
  simp only [Bool.or_eq_true, Bool.and_eq_true, decide_eq_true_eq, hbusy, Bool.false_eq_true, false_or]
  tauto

/-- The monitor's write of L2WP. -/
theorem exec_l2wpWrite (s : State) : exec .l2wpWrite s = .next (writeL2wp s.arg.a (BitVec.ofNat 64 s.arg.b) s) := rfl

end L2wp

/-- A write-back changes what holds the bytes of lines, and may draw a free value. -/
theorem writeBack_frame (line : Nat) (s : State) :
    writeBack line s = { s with dram := (writeBack line s).dram, l2 := s.l2.filter fun p => lineOf p.1 ≠ line
                                wt := s.wt.filter fun p => lineOf p.1 ≠ line, mixed := s.mixed.filter fun e => lineOf e ≠ line
                                free := (writeBack line s).free } := by
  simp only [writeBack]
  split <;> rfl

/-- Write-backs leave the focus thread. -/
theorem foldl_writeBack_th (lines : List Nat) (s : State) : (lines.foldl (fun s l => writeBack l s) s).th = s.th :=
  List.foldlRecOn lines _ (motive := fun t : State => t.th = s.th) rfl fun t ht l _ => by rw [writeBack_frame, ht]

/-- Where no change of WAYS is in progress, none completes. -/
theorem completeWays_of_idle {g : Nat} {s : State} (h : (s.grove g).busy = false) : completeWays g s = s := by
  simp only [completeWays, h, Bool.false_eq_true, if_false]

/-- A change of WAYS that completes leaves the focus thread, and clears the scratchpad that is added or dropped. -/
theorem completeWays_of_busy {g : Nat} {s : State} (h : (s.grove g).busy = true) :
    let x := s.grove g; let old := scratchSize x.oldWays; let new := scratchSize x.ways
    (completeWays g s).th = s.th ∧ (completeWays g s).grove g
      = { x with busy := false, scratch := Memory.clear x.scratch (min old new) (max old new - min old new) } := by
  simp only [completeWays, h, if_true, State.setGrove_th, State.grove_setGrove_self, and_true]
  split
  · exact foldl_writeBack_th _ _
  · rfl

/-! ### Integer atomics (11 R261) -/

section Atomics

variable {n : Nat} (x y : BitVec n)

/-- The signed value of a word's bits is the word's. -/
theorem signedOf_toNat (hn : 0 < n) : signedOf n x.toNat = x.toInt := by
  obtain ⟨m, rfl⟩ : ∃ m, n = m + 1 := ⟨n - 1, by omega⟩
  have hx := x.isLt
  rw [signedOf, BitVec.toInt_eq_toNat_cond, Nat.mod_eq_of_lt hx, Nat.add_sub_cancel]
  have hpow : 2 ^ (m + 1) = 2 * 2 ^ m := Nat.pow_succ'
  by_cases h : x.toNat < 2 ^ m
  · rw [if_pos h, if_pos (by omega)]
  · rw [if_neg h, if_neg (by omega)]
    push_cast
    rfl

/-- A number that is a word's gives the word. -/
theorem ofNat_of_toNat {x : BitVec n} {k : Nat} (h : k = x.toNat) : BitVec.ofNat n k = x := by
  rw [h, BitVec.ofNat_toNat, BitVec.setWidth_eq]

/-- What a signed minimum stores. -/
theorem toInt_atomInt_smin (hn : 0 < n) : (BitVec.ofNat n (atomInt 4 n x.toNat y.toNat)).toInt = min x.toInt y.toInt := by
  simp only [atomInt, signedOf_toNat _ hn]
  split
  · rw [ofNat_of_toNat rfl]
    omega
  · rw [ofNat_of_toNat rfl]
    omega

/-- What a signed maximum stores. -/
theorem toInt_atomInt_smax (hn : 0 < n) : (BitVec.ofNat n (atomInt 5 n x.toNat y.toNat)).toInt = max x.toInt y.toInt := by
  simp only [atomInt, signedOf_toNat _ hn]
  split
  · rw [ofNat_of_toNat rfl]
    omega
  · rw [ofNat_of_toNat rfl]
    omega

/-- What an unsigned minimum stores. -/
theorem toNat_atomInt_umin : (BitVec.ofNat n (atomInt 6 n x.toNat y.toNat)).toNat = min x.toNat y.toNat := by
  rw [BitVec.toNat_ofNat]
  exact Nat.mod_eq_of_lt (min_lt_of_left_lt x.isLt)

/-- What an unsigned maximum stores. -/
theorem toNat_atomInt_umax : (BitVec.ofNat n (atomInt 7 n x.toNat y.toNat)).toNat = max x.toNat y.toNat := by
  rw [BitVec.toNat_ofNat]
  exact Nat.mod_eq_of_lt (max_lt x.isLt y.isLt)

end Atomics

/-! ### The obligation -/

/-- Settles O53, step by step: the results of loads, the queues of stores and atomics, the drain of a FENCEH, the updates of
replicas, the ways, the write-backs, and the integer operations of atomics. -/
theorem memoryEvents : Obligations.MemoryEvents := by
  refine ⟨fun s x hx => ⟨fun l hl => ?loads, fun e he => ?stores, fun op hop => exec_atomicAtHome hx hop, fun cs hst hb => ?drain,
    fun hst => ?drained⟩, ?replicas, fun s => ⟨⟨?refused, ?taken⟩, ?ways, ?writeBack⟩, fun n x y hn => ?atomics⟩
  case loads =>
    refine ⟨fun v f hval hc => exec_loadReturn_data hx hl hval hc, fun tr htrap hc => ?trap,
      fun p i hval => ⟨_, by rw [hval]; rfl, rfl, rfl, rfl, rfl⟩, fun form todo got hval => ⟨exec_loadReturn_blocked hx hl hval,
        fun hc hmay y m hy hm => exec_loadReturn_read hx hl hval hc hmay hy hm,
        fun k p hc hp => exec_loadReturn_piece hx hl hval hc hp⟩, fun a hval => exec_loadReturn_acting hx hl hval⟩
    rw [exec_loadReturn_trap hx hl htrap hc]
    refine ⟨fun hdying => ?_, fun hdying hbound => ?_, fun hdying hbound => ⟨_, _, rfl, rfl, ?_⟩⟩
    · rw [if_pos (Option.isSome_iff_ne_none.mpr hdying)]
      rfl
    · rw [hdying, hbound]
      rfl
    · rw [hdying, hbound, ← loadTrap_eq]
      rfl
  case stores =>
    refine ⟨fun hc hready => ?_, fun hc hready => ?_, ?_⟩
    · rw [exec_storeAtHome hx he hc, if_pos hready]
    · rw [exec_storeAtHome hx he hc, hready, if_neg Bool.false_ne_true]
    · rintro q rfl
      exact ⟨fun lvl hlvl => exec_storeAtHome_short hx he hlvl, fun j => exec_storeAtHome_piece hx he⟩
  case drain =>
    rw [exec_fencehTargetDrain hx hst hb]
    exact ⟨fun hdone => by rw [hdone, if_neg Bool.false_ne_true], fun hdone => by rw [if_pos hdone]⟩
  case drained =>
    have hexec := exec_fencehTargetDrain_last hx hst
    refine ⟨fun hpick => ?_, fun hpick => runsOn_of_finishWait ?_⟩
    · rw [hexec, hpick, if_neg Bool.false_ne_true]
    · rw [hexec, if_pos hpick]
  case replicas =>
    intro s e he u st h t b hb
    have hexec := exec_replicaUpdateApply he hb
    refine ⟨fun hready => ?_, fun hready => ⟨_, ?_, rfl, rfl, rfl, rfl⟩⟩
    · rw [hexec, hready, if_neg Bool.false_ne_true]
    · rw [hexec, if_pos hready]
  case refused =>
    intro hno
    rw [exec_l2wpWrite, writeL2wp_refused hno]
  case taken =>
    intro hbusy hways hbase
    rw [exec_l2wpWrite, writeL2wp_taken hbusy hways hbase]
  case ways =>
    refine ⟨_, rfl, completeWays_of_idle, fun hbusy => ?_⟩
    obtain ⟨hth, hgrove⟩ := completeWays_of_busy hbusy
    rw [hgrove]
    exact ⟨rfl, rfl, rfl, hth, rfl⟩
  case writeBack =>
    have hframe := writeBack_frame s.arg.a s
    refine ⟨writeBack s.arg.a s, rfl, ?_⟩
    rw [hframe]
    simp only [List.mem_filter, decide_eq_true_eq]
    exact ⟨trivial, fun _ h => h.2, fun _ h => h.2, fun _ h => h.2, fun _ hp h => ⟨hp, h⟩, fun _ hp h => ⟨hp, h⟩⟩
  case atomics =>
    exact ⟨ofNat_of_toNat rfl, ofNat_of_toNat rfl, ofNat_of_toNat rfl, ofNat_of_toNat rfl, toInt_atomInt_smin x y hn,
      toInt_atomInt_smax x y hn, toNat_atomInt_umin x y, toNat_atomInt_umax x y, ofNat_of_toNat rfl⟩

end Sys2Proof.Machine
end

/-! ## The lane forms of vectors (07 R166, R167, R172, R177) -/
section
namespace Sys2Proof.Machine

open Sys2Proof

/-! ### One rounding -/

/-- Without a modifier a value is rounded as it is (03 R66). -/
theorem finishNum_plain (f : Fmt) (mode : Mode) (rb : Nat) (x : Num) : finishNum f mode rb {} x = roundNum f mode rb x := by
  have hscale : x.scale 0 = x := by cases x <;> simp [Num.scale]
  simp [finishNum, satClamp, hscale]

/-- The rounding of a value that comes with no flag. -/
theorem roundedOnce_noFlag (f : Fmt) (mode : Mode) (rb : Nat) (md : Modifier) (x : Num) :
    roundedOnce f mode rb md (x, 0) = finishNum f mode rb md x := by
  simp [roundedOnce]

/-- A function instruction writes its function of every enabled lane, rounded to nearest even (07 R172). -/
theorem writesV_of_vapx {i : Instr} {f : Num → Num × Flags} {d a : BitVec 4} {k : BitVec 3} {s : State} (hexec : exec i s = vapx f d a k s) :
    WritesV i 4 6 32 d (s.getK k) .rne s (fun j => roundedOnce .f32 .rne 0 {} (f (laneNum (s.getV a) j))) := by
  simp only [roundedOnce, finishNum_plain]
  exact writesV_of_lanes (hexec.trans rfl)

/-- Settles O9: every form is a vector result whose lanes are rounded once; the function instructions round without a modifier. -/
theorem vectorFloat : Obligations.VectorFloat := by
  intro d a b k m s
  exact ⟨writesV_of_lanes rfl, writesV_of_lanes rfl, writesV_of_lanes rfl, writesV_of_lanes rfl, writesV_of_lanes rfl,
    writesV_of_vapx rfl, writesV_of_vapx rfl, writesV_of_vapx rfl, writesV_of_vapx rfl, writesV_of_lanes rfl⟩

/-! ### Integer lanes -/

/-- An arithmetic shift to the right divides the signed value, rounding down. -/
theorem toNat_sshiftRight_eq_div (x : BitVec 32) (n : Nat) : (x.sshiftRight n).toNat = (x.toInt / 2 ^ n % 2 ^ 32).toNat := by
  have hint : (x.sshiftRight n).toInt = x.toInt / 2 ^ n := by
    rw [BitVec.toInt_sshiftRight, Int.shiftRight_eq_div_pow, Nat.cast_pow, Nat.cast_ofNat]
  have hnat := BitVec.toNat_ofInt (n := 32) (x.sshiftRight n).toInt
  rw [BitVec.ofInt_toInt, hint, Nat.cast_pow, Nat.cast_ofNat] at hnat
  exact hnat

/-- A difference of lanes wraps round. -/
theorem toNat_sub_lanes (x y : BitVec 32) : (x - y).toNat = (x.toNat + 2 ^ 32 - y.toNat) % 2 ^ 32 := by
  rw [BitVec.toNat_sub, Nat.add_comm, ← Nat.add_sub_assoc (Nat.le_of_lt y.isLt)]

/-- A shift to the left multiplies, by a power of two of the low 5 bits of the other lane. -/
theorem toNat_shiftLeft_laneShift (x y : BitVec 32) : (x <<< laneShift y).toNat = x.toNat * 2 ^ (y.toNat % 32) % 2 ^ 32 := by
  rw [BitVec.toNat_shiftLeft, Nat.shiftLeft_eq, laneShift]

/-- A logical shift to the right divides. -/
theorem toNat_ushiftRight_laneShift (x y : BitVec 32) : (x >>> laneShift y).toNat = x.toNat / 2 ^ (y.toNat % 32) := by
  rw [BitVec.toNat_ushiftRight, Nat.shiftRight_eq_div_pow, laneShift]

/-- Settles O10: every form is a vector result whose lanes are those of its operation on the numbers in them. -/
theorem vectorInteger : Obligations.VectorInteger := by
  intro d a b k s K A B I
  refine ⟨writesV_of_values rfl fun _ => BitVec.toNat_add .., writesV_of_values rfl fun _ => toNat_sub_lanes ..,
    writesV_of_values rfl fun _ => BitVec.toNat_mul .., writesV_of_lanes rfl, writesV_of_lanes rfl, writesV_of_lanes rfl,
    writesV_of_values rfl fun _ => toNat_shiftLeft_laneShift .., writesV_of_values rfl fun j => ?shr,
    writesV_of_values rfl fun j => ?sar, writesV_of_lanes rfl, writesV_of_lanes rfl⟩
  case shr =>
    have hshr : _ = A j / 2 ^ (B j % 32) := toNat_ushiftRight_laneShift ..
    rw [← hshr, Nat.mod_eq_of_lt (BitVec.isLt _)]
  case sar =>
    have hsar : _ = (I j / 2 ^ (B j % 32) % 2 ^ 32).toNat := toNat_sshiftRight_eq_div ..
    rw [← hsar, Nat.mod_eq_of_lt (BitVec.isLt _)]
    rfl

end Sys2Proof.Machine
end

/-! ## Selection and movement of lanes (07 R169, R170) -/
section
namespace Sys2Proof.Machine

open Sys2Proof

/-- The number of entries that have a property, as a sum. -/
theorem length_filter_eq_sum (p : Nat → Bool) (l : List Nat) : (l.filter p).length = (l.map fun i => if p i then 1 else 0).sum := by
  simp [List.sum_map_ite]

/-- The enabled lanes below a lane are the bits set below it. -/
theorem length_lanesOf_below (k : KWord) (j : Nat) :
    ((lanesOf k).filter (· < j)).length = ((List.range j).filter fun i => k.getLsbD i).length := by
  refine List.Perm.length_eq ((List.perm_ext_iff_of_nodup ?_ ?_).mpr fun i => ?_)
  · exact (List.nodup_range.filter _).filter _
  · exact List.nodup_range.filter _
  · have hlane : k.getLsbD i = true → i < 32 := BitVec.lt_of_getLsbD
    simp only [lanesOf, List.mem_filter, List.mem_range, decide_eq_true_eq]
    tauto

/-- Settles O12: every form but VEXT is a movement, whose lanes are those of its sources that it names. -/
theorem vectorMoves : Obligations.VectorMoves := by
  intro d a b k u s K A B n
  have hA (j : Nat) : A j < 2 ^ 32 := BitVec.isLt _
  refine ⟨writesV_of_values rfl fun j => ?sel, writesV_of_lanes rfl, writesV_of_values rfl fun j => ?bcast,
    writesV_of_values rfl fun j => ?ins, writesV_of_values rfl fun j => ?iota, writesV_of_lanes rfl,
    writesV_of_values rfl fun j => ?slide, ⟨_, _, rfl, ?ext, movesPast_advance 4 _⟩⟩
  case sel =>
    split
    · exact (Nat.mod_eq_of_lt (hA j)).symm
    · exact (Nat.mod_eq_of_lt (BitVec.isLt _)).symm
  case bcast => exact BitVec.toNat_setWidth ..
  case ins => exact BitVec.toNat_setWidth ..
  case iota => rw [BitVec.toNat_ofNat, length_lanesOf_below, length_filter_eq_sum]
  case slide =>
    split
    · split
      · exact (Nat.mod_eq_of_lt (hA _)).symm
      · rfl
    · split
      · exact (Nat.mod_eq_of_lt (hA _)).symm
      · rfl
  case ext => exact BitVec.toNat_setWidth_of_le (by decide)

end Sys2Proof.Machine
end

/-! ## Comparison of lanes (07 R168) -/
section
namespace Sys2Proof.Machine

open Sys2Proof

/-! ### A relation of two lanes -/

/-- The relations of an order by their numbers: 0 equal, 1 not equal, 2 less, 3 at most, 4 greater, 5 at least. -/
def orderRelation (r : Nat) (lt eq gt : Bool) : Bool := [eq, !eq, lt, lt || eq, gt, gt || eq].getD r false

/-- The flag of a signalling NaN among two operands. -/
theorem snanFlag_pair (x y : Num) : snanFlag [x, y] = flagIf (x.isSnan || y.isSnan) flagNV := by
  simp [snanFlag]

/-- A relation of two values in order: ordered holds, unordered does not, and the others are those of the order. -/
theorem relation_fst_of_ordered {r : Nat} (hr : r ≤ 7) {x y : Num} (hnan : (x.isNan || y.isNan) = false) :
    (relation r x y).1
      = (decide (r = 6) || orderRelation r (decide (x.cmp y < 0)) (decide (x.cmp y = 0)) (decide (0 < x.cmp y))) := by
  simp only [relation, hnan]
  interval_cases r <;> simp [orderRelation, Int.le_iff_lt_or_eq, eq_comm]

/-- Of a NaN only "not equal" and "unordered" hold. -/
theorem relation_fst_of_nan {r : Nat} (hr : r ≤ 7) {x y : Num} (hnan : (x.isNan || y.isNan) = true) :
    (relation r x y).1 = decide (r = 1 ∨ r = 7) := by
  simp only [relation, hnan]
  interval_cases r <;> rfl

/-- The order relations raise NV for any NaN, the others for a signalling one. -/
theorem relation_snd {r : Nat} (hr : r ≤ 7) (x y : Num) :
    (relation r x y).2
      = if (if 2 ≤ r ∧ r ≤ 5 then x.isNan || y.isNan else x.isSnan || y.isSnan) = true then flagNV else 0 := by
  simp only [relation, snanFlag_pair]
  interval_cases r <;> rfl

/-- A relation of lanes whose comparisons are those of two numbers is that of the numbers' order. -/
theorem laneRelation_of_order {r t : Nat} (hr : r ≤ 5) (ht : t ≠ 0) {a b : BitVec 32} {x y : Int}
    (hlt : (if t = 1 then a.slt b else a.ult b) = decide (x < y)) (hgt : (if t = 1 then b.slt a else b.ult a) = decide (y < x))
    (heq : a = b ↔ x = y) :
    laneRelation r t a b = (orderRelation r (decide (x < y)) (decide (a = b)) (decide (y < x)), 0) := by
  have hle : (!decide (y < x)) = (decide (x < y) || decide (a = b)) := by
    simp only [heq, ← decide_not, ← Bool.decide_or, not_lt, le_iff_lt_or_eq]
  have hge : (!decide (x < y)) = (decide (y < x) || decide (a = b)) := by
    simp only [heq, ← decide_not, ← Bool.decide_or, not_lt, le_iff_lt_or_eq, eq_comm]
  simp only [laneRelation, if_neg ht, hlt, hgt, hle, hge]
  interval_cases r <;> rfl

/-- A relation of integer lanes is that of the order of their values, signed for type 1. -/
theorem laneRelation_signed {r : Nat} (hr : r ≤ 5) (a b : BitVec 32) :
    laneRelation r 1 a b = (orderRelation r (decide (a.toInt < b.toInt)) (decide (a = b)) (decide (b.toInt < a.toInt)), 0) :=
  laneRelation_of_order hr one_ne_zero rfl rfl BitVec.toInt_inj.symm

/-- A relation of integer lanes is that of the order of their values, unsigned for type 2. -/
theorem laneRelation_unsigned {r t : Nat} (hr : r ≤ 5) (h0 : t ≠ 0) (h1 : t ≠ 1) (a b : BitVec 32) :
    laneRelation r t a b = (orderRelation r (decide (a.toNat < b.toNat)) (decide (a = b)) (decide (b.toNat < a.toNat)), 0) := by
  rw [laneRelation_of_order (x := a.toNat) (y := b.toNat) hr h0 (by simp [h1, BitVec.ult]) (by simp [h1, BitVec.ult])
    (by rw [Nat.cast_inj, BitVec.toNat_inj])]
  simp only [Nat.cast_lt]

/-! ### VCMP -/

/-- An element of one bit is a bit of the register. -/
theorem getLsbD_of_velem_one {v : VWord} {j : Nat} {c : Bool} (h : VElem 1 v j = c.toNat) : v.getLsbD j = c := by
  rw [VElem, Nat.one_mul, Nat.pow_one, Nat.shiftRight_eq_div_pow] at h
  rw [BitVec.getLsbD, Nat.testBit_eq_decide_div_mod_eq, h]
  cases c <;> rfl

/-- VCMP packs the relations of the enabled lanes as elements of one bit. -/
theorem execVcmp_eq (d a b : BitVec 4) (k : BitVec 3) (r : BitVec 4) (t : BitVec 3) (s : State) :
    let rel (i : Nat) := laneRelation r.toNat t.toNat (lane (s.getV a) i) (lane (s.getV b) i)
    let p := packLanes 1 (s.getK k) fun i => ((rel i).1.toNat, (rel i).2)
    exec (.vcmp d a b k r t) s
      = .next (advance 4 (s.withPending (⟨2, .k (d.setWidth 3) (p.1.setWidth 32) (s.getK k)⟩ :: flagsOn 2 p.2))) := by
  intro rel p
  change execVcmp d a b k r t s = _
  simp only [execVcmp, raise_pushW, p, rel, packLanes, List.map_map, List.foldl_map, Function.comp_def,
    BitVec.setWidth_ofNat_of_le (show 32 ≤ 1024 by decide), apply_ite Prod.fst, apply_ite Prod.snd, apply_ite Bool.toNat, Bool.toNat_false]

/-- Bits packed from the lanes that a mask enables write those bits of a mask register. -/
theorem writesK_of_packLanes {i : Instr} {lat : Nat} {d : BitVec 3} {k : KWord} {s : State} {f op : Nat → Bool × Flags}
    (hexec : let p := packLanes 1 k fun j => ((f j).1.toNat, (f j).2)
      exec i s = .next (advance 4 (s.withPending (⟨lat, .k d (p.1.setWidth 32) k⟩ :: flagsOn lat p.2))))
    (hop : ∀ j, f j = op j) : WritesK i lat d k s op := by
  obtain rfl : f = op := funext hop
  obtain ⟨hvalue, hflags⟩ := packLanes_spec 1 k (fun j => ((f j).1.toNat, (f j).2)) (by decide)
  refine ⟨_, _, _, hexec, fun j hj hk => ?_, hflags, movesPast_advance 4 _⟩
  rw [BitVec.getLsbD_setWidth, decide_eq_true hj, Bool.true_and]
  exact getLsbD_of_velem_one ((hvalue j hj hk).trans (Nat.mod_eq_of_lt (Bool.toNat_lt _)))

/-- A condition of a field that the check lets through does not hold, nor does any after it. -/
theorem firstFault_cons_eq_none {c : Bool} {n : Nat} {cs : List (Bool × Nat)} :
    firstFault ((c, n) :: cs) = none ↔ c = false ∧ firstFault cs = none := by
  cases c <;> simp [firstFault]

/-- What the check of a VCMP's fields lets through (04 R95): a relation of its type. -/
theorem vcmp_fields {d a b : BitVec 4} {k : BitVec 3} {r : BitVec 4} {t : BitVec 3} (h : (Instr.vcmp d a b k r t).wellFormed = true) :
    r.toNat ≤ 7 ∧ (t ≠ 0 → r.toNat ≤ 5) := by
  simp only [Instr.wellFormed, Instr.fieldFault, Option.isNone_iff_eq_none, firstFault_cons_eq_none] at h
  obtain ⟨-, hr, hint, -⟩ := h
  simp only [decide_eq_false_iff_not, not_lt, Bool.and_eq_false_iff] at hr hint
  exact ⟨hr, fun ht => hint.resolve_right (by simpa using ht)⟩

/-- Settles O11: VCMP packs the relations of its lanes, and each is a relation of two values in order, of a NaN, or of integers. -/
theorem vectorCompare : Obligations.VectorCompare := by
  intro d a b k r t s hwf A B x y nan sig holds
  obtain ⟨hr, hint⟩ := vcmp_fields hwf
  refine writesK_of_packLanes (execVcmp_eq d a b k r t s) fun j => ?_
  split
  case isTrue hfloat =>
    subst hfloat
    refine Prod.ext ?_ (relation_snd hr _ _)
    split
    case isTrue hnan =>
      exact (relation_fst_of_nan hr hnan).trans (decide_eq_decide.mpr (or_congr (BitVec.toNat_inj (y := 1)) (BitVec.toNat_inj (y := 7))))
    case isFalse hnan =>
      exact (relation_fst_of_ordered hr (Bool.eq_false_iff.mpr hnan)).trans
        (congrArg (· || _) (decide_eq_decide.mpr (BitVec.toNat_inj (y := 6))))
  case isFalse h0 =>
    split
    case isTrue h1 =>
      subst h1
      exact laneRelation_signed (hint h0) _ _
    case isFalse h1 =>
      exact laneRelation_unsigned (hint h0) (fun h => h0 (BitVec.eq_of_toNat_eq h)) (fun h => h1 (BitVec.eq_of_toNat_eq h)) _ _

end Sys2Proof.Machine
end

/-! ## The mask instructions (07 R178) -/
section
namespace Sys2Proof.Machine

open Sys2Proof

/-- A mask result writes every bit of its register and raises no flag. -/
theorem writesK_of_maskResult {i : Instr} {d : BitVec 3} {x : KWord} {s : State} {op : Nat → Bool} (hexec : exec i s = maskResult d x s)
    (hop : ∀ j < 32, x.getLsbD j = op j) : WritesK i 1 d 0xFFFFFFFF s (fun j => (op j, 0)) :=
  ⟨_, x, 0, hexec, fun j hj _ => hop j hj, fun b => by simp, movesPast_advance 4 _⟩

/-- The count of a mask's bits, read as a word, is the sum of them. -/
theorem toNat_onesIn_mask (x : KWord) :
    (onesIn 32 (x.setWidth 64)).toNat = ((List.range 32).map fun i => if x.getLsbD i then 1 else 0).sum := by
  have hbits : ((List.range 32).filter fun i => (x.setWidth 64).getLsbD i) = (List.range 32).filter fun i => x.getLsbD i :=
    List.filter_congr fun i hi => by
      rw [BitVec.getLsbD_setWidth, decide_eq_true (Nat.lt_trans (List.mem_range.mp hi) (by decide)), Bool.true_and]
  have hle : ((List.range 32).filter fun i => x.getLsbD i).length ≤ 32 := List.length_filter_le ..
  rw [onesIn, hbits, BitVec.toNat_ofNat, Nat.mod_eq_of_lt (by omega), length_filter_eq_sum]

/-- The lowest lane of a mask that has one. -/
theorem headD_lanesOf {k : KWord} (hk : k ≠ 0) :
    let j := (lanesOf k).headD 32
    j < 32 ∧ k.getLsbD j = true ∧ ∀ i < j, k.getLsbD i = false := by
  have hhead : (lanesOf k).headD 32 = ((List.range 32).find? fun i => k.getLsbD i).getD 32 := by
    rw [lanesOf, List.headD_eq_head?_getD, List.head?_filter]
  cases hfind : (List.range 32).find? fun i => k.getLsbD i with
  | none =>
    have hno := List.find?_range_eq_none.mp hfind
    exact absurd (BitVec.eq_of_getLsbD_eq fun i hi => by simpa using hno i hi) hk
  | some j =>
    obtain ⟨hbit, hj, hbelow⟩ := List.find?_range_eq_some.mp hfind
    rw [hhead, hfind]
    exact ⟨List.mem_range.mp hj, hbit, fun i hi => by simpa using hbelow i hi⟩

/-- Settles O15: the logical forms are mask results bit by bit; KPOPC counts the lanes of its mask and KFIRST names the lowest. -/
theorem maskForms : Obligations.MaskForms := by
  refine ⟨fun d a b s => ⟨writesK_of_maskResult rfl fun j _ => BitVec.getLsbD_and, writesK_of_maskResult rfl fun j _ => BitVec.getLsbD_or,
    writesK_of_maskResult rfl fun j _ => BitVec.getLsbD_xor, writesK_of_maskResult rfl fun j hj => ?not,
    writesK_of_maskResult rfl fun _ _ => rfl⟩,
    fun d a s => ⟨⟨_, _, rfl, toNat_onesIn_mask _, movesPast_advance 4 _⟩,
      ⟨_, _, rfl, ⟨fun hzero => ?none, fun hmask => ?first⟩, movesPast_advance 4 _⟩⟩⟩
  case not => rw [BitVec.getLsbD_not, decide_eq_true hj, Bool.true_and]
  case none =>
    rw [hzero]
    rfl
  case first =>
    obtain ⟨hlt, hbit, hbelow⟩ := headD_lanesOf hmask
    rw [BitVec.toNat_ofNat, Nat.mod_eq_of_lt (by omega)]
    exact ⟨hbit, hlt, hbelow⟩

end Sys2Proof.Machine
end

/-! ## Conversions and quantisation (07 R173-R176) -/
section
namespace Sys2Proof.Machine

open Sys2Proof

/-- The elements of a format fit into a vector register. -/
theorem Fmt.width_fits (f : Fmt) : 32 * f.width ≤ 1024 := by
  cases f <;> decide

/-- A vector result whose elements are values rounded to a format writes them. -/
theorem writesV_of_finishNum {i : Instr} {len lat w : Nat} {d : BitVec 4} {k : KWord} {m : Mode} {f : Fmt} {md : Modifier} {rb : Nat → Nat}
    {x : Nat → Num} {s : State} (hw : 32 * w ≤ 1024)
    (hexec : exec i s = .next (bumpSrc m (vectorResult len lat w d k (fun j => finishNum f m (rb j) md (x j)) s))) :
    WritesV i len lat w d k m s (fun j => roundedOnce f m (rb j) md (x j, 0)) :=
  writesV_of_vectorResult hw hexec fun j => by rw [roundedOnce_noFlag]; exact ⟨rfl, rfl⟩

/-- The exponent of a scale register is its low byte, signed (07 R175). -/
theorem scaleK_eq (x : Word) : scaleK x = (x.extractLsb' 0 8).toInt := by
  rw [scaleK, BitVec.setWidth_eq_extractLsb' (by decide)]

/-! ### VQNT -/

/-- The value of a lane that VQNT quantises. -/
def scaledLane (a : BitVec 4) (sc : BitVec 3) (s : State) (j : Nat) : Num := (laneNum (s.getV a) j).scale (scaleK (s.th.getSc sc))

/-- The trap of a lane that is out of range of a quantised format (07 R176). -/
def rescaleTrap (a : BitVec 4) (sc : BitVec 3) (s : State) (j : Nat) : Trap :=
  { cause := 0x10, fidx := 4, fval := sc.toNat, a := (lane (s.getV a) j).setWidth 64
    v := (s.th.getSc sc &&& 0x00FFFFFFFFFFFF00) ||| BitVec.ofNat 64 j }

/-- The lane whose trap VQNT takes: with SAT 0, the lowest enabled one out of range. -/
def rescaleLane (a : BitVec 4) (sc k : BitVec 3) (f : BitVec 4) (s : State) : Option Nat :=
  if s.th.modifier.sat = 0 then (lanesOf (s.getK k)).find? fun j => outOfRange (Fmt.ofCode f.toNat) (scaledLane a sc s j) else none

section

variable {d a : BitVec 4} {sc k : BitVec 3} {f : BitVec 4} {m : BitVec 3} {s : State}

/-- VQNT traps for the lane that it finds out of range. -/
theorem exec_vqnt_trap {j : Nat} (h : rescaleLane a sc k f s = some j) :
    exec (.vqnt d a sc k f m) s = .next (takeTrap (rescaleTrap a sc s j) s) := by
  change execVqnt d a sc k f m s = _
  unfold rescaleLane scaledLane at h
  simp only [execVqnt, h]
  rfl

/-- VQNT quantises every enabled lane where it finds none out of range. -/
theorem exec_vqnt_quantises (h : rescaleLane a sc k f s = none) :
    exec (.vqnt d a sc k f m) s = .next (bumpSrc (s.th.mode m) (vectorResult 4 5 8 d (s.getK k) (fun j =>
      finishNum (Fmt.ofCode f.toNat) (s.th.mode m) (s.th.drawOf.rbits j) { sat := s.th.modifier.sat } (scaledLane a sc s j)) s)) := by
  change execVqnt d a sc k f m s = _
  unfold rescaleLane scaledLane at h
  simp only [execVqnt, h]
  rfl

/-- No lane is found where SAT is set or every enabled lane is in range. -/
theorem rescaleLane_eq_none (h : s.th.modifier.sat ≠ 0
      ∨ ∀ j < 32, (s.getK k).getLsbD j = true → outOfRange (Fmt.ofCode f.toNat) (scaledLane a sc s j) = false) :
    rescaleLane a sc k f s = none := by
  obtain hsat | hin := h
  · exact if_neg hsat
  · have hnone : (lanesOf (s.getK k)).find? (fun j => outOfRange (Fmt.ofCode f.toNat) (scaledLane a sc s j)) = none := by
      rw [lanesOf, List.find?_filter, List.find?_range_eq_none]
      intro j hj
      simpa [imp_iff_not_or] using hin j hj
    rw [rescaleLane, hnone, ite_self]

/-- With SAT 0 the lane found is the lowest enabled one that is out of range. -/
theorem rescaleLane_eq_some {j : Nat} (hsat : s.th.modifier.sat = 0) (hj : j < 32) (hk : (s.getK k).getLsbD j = true)
    (hout : outOfRange (Fmt.ofCode f.toNat) (scaledLane a sc s j) = true)
    (hbelow : ∀ i < j, (s.getK k).getLsbD i = true → outOfRange (Fmt.ofCode f.toNat) (scaledLane a sc s i) = false) :
    rescaleLane a sc k f s = some j := by
  rw [rescaleLane, if_pos hsat, lanesOf, List.find?_filter, List.find?_range_eq_some]
  refine ⟨by simp [hk, hout], List.mem_range.mpr hj, fun i hi => ?_⟩
  simpa [imp_iff_not_or] using hbelow i hi

end

/-! ### What the rescale trap tells -/

/-- The bits of a scale register that the rescale trap tells. -/
theorem getLsbD_scaleFields : ∀ b < 64, (0x00FFFFFFFFFFFF00 : Word).getLsbD b = decide (8 ≤ b ∧ b < 56) := by
  decide

/-- A bit of the trap's value. -/
theorem getLsbD_rescaleTrap (a : BitVec 4) (sc : BitVec 3) (s : State) (j : Nat) {b : Nat} (hb : b < 64) :
    (rescaleTrap a sc s j).v.getLsbD b = ((s.th.getSc sc).getLsbD b && decide (8 ≤ b ∧ b < 56) || j.testBit b) := by
  rw [rescaleTrap, BitVec.getLsbD_or, BitVec.getLsbD_and, getLsbD_scaleFields b hb, BitVec.getLsbD_ofNat, decide_eq_true hb, Bool.true_and]

/-- A lane's number has no bit outside the low byte. -/
theorem testBit_lane {j b : Nat} (hj : j < 32) (hb : 8 ≤ b) : j.testBit b = false :=
  Nat.testBit_lt_two_pow (Nat.lt_of_lt_of_le (Nat.lt_trans hj (by decide)) (Nat.pow_le_pow_right Nat.two_pos hb))

/-- The low byte of the trap's value is the lane. -/
theorem rescaleTrap_lane (a : BitVec 4) (sc : BitVec 3) (s : State) {j : Nat} (hj : j < 32) : (rescaleTrap a sc s j).v.toNat % 256 = j := by
  refine Nat.eq_of_testBit_eq fun b => ?_
  change ((rescaleTrap a sc s j).v.toNat % 2 ^ 8).testBit b = _
  rw [Nat.testBit_mod_two_pow]
  by_cases hb : b < 8
  · have hbit := getLsbD_rescaleTrap a sc s j (b := b) (by omega)
    rw [BitVec.getLsbD] at hbit
    simp [hb, hbit]
  · simp [hb, testBit_lane hj (Nat.le_of_not_lt hb)]

/-- Bits 55 to 8 of the trap's value are the scale register's. -/
theorem rescaleTrap_fields (a : BitVec 4) (sc : BitVec 3) (s : State) {j b : Nat} (hj : j < 32) (hlo : 8 ≤ b) (hhi : b < 56) :
    (rescaleTrap a sc s j).v.getLsbD b = (s.th.getSc sc).getLsbD b := by
  rw [getLsbD_rescaleTrap a sc s j (by omega), testBit_lane hj hlo]
  simp [hlo, hhi]

/-- Settles O14: each conversion is a vector result of values rounded once, and VQNT is one where it finds no lane out of range. -/
theorem vectorConversions : Obligations.VectorConversions := by
  refine ⟨fun d a e sc k f m s => ⟨writesV_of_finishNum (Fmt.width_fits _) rfl, ?deq, ?srnd, fun hin => ?qnt⟩,
    fun d a sc k f m s j => ?trap⟩
  case deq =>
    rw [← scaleK_eq]
    exact writesV_of_finishNum (by decide) rfl
  case srnd =>
    simp only [roundedOnce_noFlag]
    exact writesV_of_lanes rfl
  case qnt =>
    simp only [← scaleK_eq] at hin ⊢
    exact writesV_of_finishNum (by decide) (exec_vqnt_quantises (rescaleLane_eq_none hin))
  case trap =>
    intro X hsat hj hk hout hbelow
    simp only [X, ← scaleK_eq] at hout hbelow
    exact ⟨_, exec_vqnt_trap (rescaleLane_eq_some hsat hj hk hout hbelow), rfl, rfl, rfl, rfl, rescaleTrap_lane a sc s hj, rfl,
      fun b hlo hhi => rescaleTrap_fields a sc s hj hlo hhi⟩

end Sys2Proof.Machine
end

/-! ## How an instruction of the queues completes (06 R151, R155, 04 R93, 12 R270) -/
section
namespace Sys2Proof.Machine

open Sys2Proof

/-- An instruction that moves past itself from a state is past it. -/
theorem past_of_advance {i : Instr} {len : Nat} {s u : State} (h : exec i s = .next (advance len u)) : Past i len s u :=
  ⟨_, h, movesPast_advance len u⟩

/-- An instruction that takes a trap, with what the trap records. -/
theorem traps_of_takeTrap {i : Instr} {s u : State} {tr : Trap} (h : exec i s = .next (takeTrap tr u)) (hnext : tr.next = false) :
    Traps i s u tr.cause tr.fidx tr.fval tr.a tr.v :=
  ⟨tr, h, rfl, rfl, rfl, rfl, rfl, hnext⟩

/-- A scalar result of an instruction of 4 bytes. -/
theorem writesS_of_writeS {i : Instr} {lat : Nat} {d : BitVec 4} {x : Word} {s : State} {p : Word → Prop}
    (h : exec i s = .next (writeS lat d x s)) (hx : p x) : WritesS i 4 lat d s p :=
  ⟨_, x, h, hx, movesPast_advance 4 _⟩

/-- A load-path result that begins. -/
theorem beginsLoad_pushAcquire (acq : Option Nat) (dest : LoadDest) (val : LoadVal) (s : State) :
    BeginsLoad acq dest val s (s.pushAcquire acq dest val) := rfl

/-- A check that is met lets what follows go on. -/
theorem need_true {c : Bool} (hc : c = true) (t : Trap) : need c t = .ok () := if_pos hc

/-- A check that is not met is its trap. -/
theorem need_false {c : Bool} (hc : c = false) (t : Trap) : need c t = .error t := if_neg (by simp [hc])

end Sys2Proof.Machine
end

/-! ## Decks (08 R190-R193) -/
section
namespace Sys2Proof.Machine

open Sys2Proof

/-! ### Binding -/

section Binding

variable {h : BitVec 3} {a : BitVec 4} {n : BitVec 11} {s : State}

/-- DBIND of a control block in the window. -/
theorem exec_dbind_bound (hwin : windowBase ≤ deckCount s a n) (hvalid : deckValid s.th.core (deckCount s a n - windowBase) s = true) :
    exec (.dbind h a n) s
      = .next (advance 4 (s.onTh fun t => { t with decks := t.decks.set h.toNat (some (deckCount s a n - windowBase)) h.isLt })) := by
  change execDbind h a n s = _
  simp only [execDbind, need_true (show (decide (windowBase ≤ deckCount s a n) && deckValid s.th.core (deckCount s a n - windowBase) s) = true
    by simp [hwin, hvalid])]
  rfl

/-- DBIND of anything else. -/
theorem exec_dbind_refused (hbad : ¬ (windowBase ≤ deckCount s a n ∧ deckValid s.th.core (deckCount s a n - windowBase) s = true)) :
    exec (.dbind h a n) s = .next (takeTrap { cause := 9, fidx := 2, fval := h.toNat, a := BitVec.ofNat 64 (deckCount s a n)
                                              v := BitVec.ofNat 64 (deckCount s a n) } s) := by
  change execDbind h a n s = _
  simp only [execDbind, need_false (show (decide (windowBase ≤ deckCount s a n) && deckValid s.th.core (deckCount s a n - windowBase) s) = false
    by simpa using hbad)]
  rfl

end Binding

/-! ### A bound handle and a count -/

section Operation

variable {h : BitVec 3} {a : BitVec 4} {n : BitVec 11} {limit : Deck → Nat} {s : State} {go : Deck → Nat → Outcome}

/-- A deck operation on a handle that is not bound. -/
theorem deckOp_unbound (hd : s.th.decks[h.toNat]'h.isLt = none) :
    deckOp h a n limit s go
      = .next (takeTrap { cause := 9, fidx := 2, fval := h.toNat, v := BitVec.ofNat 64 (deckCount s a n) } s) := by
  simp only [deckOp, boundDeck, hd]

variable {o : Nat} (hd : s.th.decks[h.toNat]'h.isLt = some o)

include hd

/-- A deck operation on a bound handle with a count of 0. -/
theorem deckOp_zero (hc : deckCount s a n = 0) : deckOp h a n limit s go = .next (advance 4 s) := by
  simp only [deckOp, boundDeck, hd, if_pos hc]

/-- A deck operation on a bound handle with a count beyond its limit. -/
theorem deckOp_beyond (hc : deckCount s a n ≠ 0) (hlim : limit (deckView s.th.id (deckAt s.th.core o s) s) < deckCount s a n) :
    deckOp h a n limit s go = .next (takeTrap (badCount (deckView s.th.id (deckAt s.th.core o s) s) (deckCount s a n) s) s) := by
  simp only [deckOp, boundDeck, hd, if_neg hc, if_pos hlim]

/-- A deck operation on a bound handle with a count within its limit. -/
theorem deckOp_within (hc : deckCount s a n ≠ 0) (hlim : deckCount s a n ≤ limit (deckView s.th.id (deckAt s.th.core o s) s)) :
    deckOp h a n limit s go = go (deckView s.th.id (deckAt s.th.core o s) s) (deckCount s a n) := by
  simp only [deckOp, boundDeck, hd, if_neg hc, if_neg (Nat.not_lt.mpr hlim)]

end Operation

section Instructions

variable (h : BitVec 3) (a : BitVec 4) (n : BitVec 11) (s : State)

/-- DWAITC is a deck operation that waits for slots to read. -/
theorem exec_dwaitc : exec (.dwaitc h a n) s = deckOp h a n (·.n) s fun d c =>
    if c ≤ d.fill then .next (advance 4 (acquireAt s.th.core s)) else .next (waitFor (.deckC d.off c) s) := rfl

/-- DWAITP is a deck operation that waits for slots to fill. -/
theorem exec_dwaitp : exec (.dwaitp h a n) s = deckOp h a n (·.n) s fun d c =>
    if c ≤ d.room then .next (advance 4 s) else .next (waitFor (.deckP d.off c) s) := rfl

/-- DADVC is a deck operation that frees slots. -/
theorem exec_dadvc : exec (.dadvc h a n) s = deckOp h a n (·.fill) s fun d c => .next (advance 4 (queueAdvance false d c s)) := rfl

/-- DADVP is a deck operation that publishes slots. -/
theorem exec_dadvp : exec (.dadvp h a n) s = deckOp h a n (·.room) s fun d c => .next (advance 4 (queueAdvance true d c s)) := rfl

/-- The four instructions of a bound handle are deck operations, each with a limit of its count (08 R190). -/
theorem exec_deckOp (d : Deck) : ∀ p ∈ [(Instr.dwaitc h a n, d.n), (.dwaitp h a n, d.n), (.dadvc h a n, d.fill), (.dadvp h a n, d.room)],
    ∃ limit go, exec p.1 s = deckOp h a n limit s go ∧ limit d = p.2 := by
  simp only [List.forall_mem_cons, List.not_mem_nil, false_implies, implies_true, and_true]
  exact ⟨⟨_, _, exec_dwaitc h a n s, rfl⟩, ⟨_, _, exec_dwaitp h a n s, rfl⟩, ⟨_, _, exec_dadvc h a n s, rfl⟩, ⟨_, _, exec_dadvp h a n s, rfl⟩⟩

/-- The same, of the instructions alone. -/
theorem exec_deckOp_of_mem : ∀ i ∈ [Instr.dwaitc h a n, .dwaitp h a n, .dadvc h a n, .dadvp h a n],
    ∃ limit go, exec i s = deckOp h a n limit s go := fun i hi => by
  obtain ⟨p, hp, rfl⟩ : ∃ p ∈ [(Instr.dwaitc h a n, (deckAt 0 0 s).n), (.dwaitp h a n, (deckAt 0 0 s).n), (.dadvc h a n, (deckAt 0 0 s).fill),
      (.dadvp h a n, (deckAt 0 0 s).room)], p.1 = i := List.mem_map.mp hi
  obtain ⟨limit, go, hexec, -⟩ := exec_deckOp h a n s _ p hp
  exact ⟨limit, go, hexec⟩

end Instructions

/-! ### Advances -/

/-- An advance that nothing of its thread must come before acts on the control block at once. -/
theorem queueAdvance_ready {s : State} {publish : Bool} {d : Deck} (c : Nat) (h : advanceReady s s.th s.fresh publish d.core d.off = true) :
    queueAdvance publish d c s
      = deckStore (if publish then deckPublish c (deckAt d.core d.off s) else deckConsume c (deckAt d.core d.off s)) s := if_pos h

/-- Any other advance joins its thread's queue. -/
theorem queueAdvance_waiting {s : State} {publish : Bool} {d : Deck} (c : Nat) (h : advanceReady s s.th s.fresh publish d.core d.off = false) :
    queueAdvance publish d c s = queueEntry (fun no => .advance no publish d.core d.off c) s := if_neg (by simp [h])

/-- A queued advance is one more access of its thread. -/
theorem queueEntry_advance (publish : Bool) (core off c : Nat) (s : State) : queueEntry (fun no => .advance no publish core off c) s
    = { s with fresh := s.fresh + 1, th := { s.th with sq := s.th.sq ++ [.advance s.fresh publish core off c] } } := rfl

/-- An instruction that advances a deck acts at once or queues its advance. -/
theorem past_queueAdvance {i : Instr} {s : State} {publish : Bool} {core off : Nat} {d : Deck} {c : Nat} (hcore : d.core = core)
    (hoff : d.off = off) (hexec : exec i s = .next (advance 4 (queueAdvance publish d c s))) :
    (advanceReady s s.th s.fresh publish core off = true →
      Past i 4 s (deckStore (if publish then deckPublish c (deckAt core off s) else deckConsume c (deckAt core off s)) s))
    ∧ (advanceReady s s.th s.fresh publish core off = false → Past i 4 s
      { s with fresh := s.fresh + 1, th := { s.th with sq := s.th.sq ++ [.advance s.fresh publish core off c] } }) := by
  subst hcore hoff
  refine ⟨fun hready => ?_, fun hwait => ?_⟩
  · rw [queueAdvance_ready c hready] at hexec
    exact past_of_advance hexec
  · rw [queueAdvance_waiting c hwait, queueEntry_advance] at hexec
    exact past_of_advance hexec

/-! ### The view of a thread -/

/-- No slots are held where no queue of the deck's core holds an advance of it. -/
theorem heldSlots_eq_zero {d : Deck} {s : State}
    (h : ∀ t ∈ s.all, t.core = d.core → ∀ n p c, StoreEntry.advance n p d.core d.off c ∉ t.sq) (publish : Bool) (tid : Option Nat) :
    heldSlots d publish tid s = 0 := by
  refine List.sum_eq_zero fun k hk => ?_
  simp only [List.mem_flatMap, List.mem_filter, List.mem_map, Bool.and_eq_true, decide_eq_true_eq] at hk
  obtain ⟨t, ⟨ht, hcore, -⟩, e, he, rfl⟩ := hk
  cases e with
  | advance no p core off c =>
    refine if_neg fun hsame => ?_
    obtain ⟨⟨-, rfl⟩, rfl⟩ := hsame
    exact h t ht hcore no p c he
  | store | line | record | live | mark => rfl

/-- Where no advance of a deck is queued, every thread finds the deck as its control block says. -/
theorem deckView_of_noAdvance {d : Deck} {s : State}
    (h : ∀ t ∈ s.all, t.core = d.core → ∀ n p c, StoreEntry.advance n p d.core d.off c ∉ t.sq) (tid : Nat) :
    deckView tid d s = { d with head := d.head % d.n, tail := d.tail % d.n, room := d.n - d.fill } := by
  simp [deckView, heldSlots_eq_zero h]

/-! ### The end of a wait -/

section Waiting

variable {s : State} {x : Thread} (hx : s.thread? s.arg.a = some x)

include hx

/-- A deck wait that its core's picker does not let go on stays. -/
theorem exec_deckWaitComplete_held (hpick : pickedWait s x .deckWaitComplete = false) : exec .deckWaitComplete s = .next s := by
  change execDeckWaitComplete s = _
  simp only [execDeckWaitComplete, hx]
  split <;> simp [hpick]

variable (hpick : pickedWait s x .deckWaitComplete = true)

include hpick

/-- A wait for slots to read ends as an acquire (08 R193). -/
theorem exec_deckWaitComplete_consumer {o c since : Nat} (hst : x.status = .waiting (.deckC o c) since) :
    exec .deckWaitComplete s = .next (finishWait (acquireAt x.core (s.focus x.id))) := by
  change execDeckWaitComplete s = _
  simp only [execDeckWaitComplete, hx, hst, hpick, if_true]

/-- A wait for slots to fill ends. -/
theorem exec_deckWaitComplete_producer {o c since : Nat} (hst : x.status = .waiting (.deckP o c) since) :
    exec .deckWaitComplete s = .next (finishWait (s.focus x.id)) := by
  change execDeckWaitComplete s = _
  simp only [execDeckWaitComplete, hx, hst, hpick, if_true]

end Waiting

/-! ### The obligation -/

/-- Settles O39: binding, the four operations of a bound handle by their count, the end of a wait, and a deck of which no advance
is queued. -/
theorem deckForms : Obligations.DeckForms := by
  refine ⟨fun h a n s => ⟨fun hwin hvalid => past_of_advance (exec_dbind_bound hwin hvalid),
      fun hbad => traps_of_takeTrap (exec_dbind_refused hbad) rfl, ?unbound, fun o hd => ⟨?zero, ?beyond, fun hc hn => ?waits, ?advances⟩⟩,
    fun s x o c since hx => ⟨exec_deckWaitComplete_held hx, fun hpick => ⟨fun hst => runsOn_of_finishWait (exec_deckWaitComplete_consumer hx hpick hst),
      fun hst => runsOn_of_finishWait (exec_deckWaitComplete_producer hx hpick hst)⟩⟩, fun tid core off s => ?view⟩
  case unbound =>
    intro hd i hi
    obtain ⟨limit, go, hexec⟩ := exec_deckOp_of_mem h a n s i hi
    rw [deckOp_unbound hd] at hexec
    exact traps_of_takeTrap hexec rfl
  case zero =>
    intro hc i hi
    obtain ⟨limit, go, hexec⟩ := exec_deckOp_of_mem h a n s i hi
    rw [deckOp_zero hd hc] at hexec
    exact past_of_advance hexec
  case beyond =>
    intro p hp hc hlt
    obtain ⟨limit, go, hexec, hlim⟩ := exec_deckOp h a n s _ p hp
    rw [deckOp_beyond hd hc (by rw [hlim]; exact hlt)] at hexec
    exact traps_of_takeTrap hexec rfl
  case waits => 
    have hread := (exec_dwaitc h a n s).trans (deckOp_within hd hc hn)
    have hfill := (exec_dwaitp h a n s).trans (deckOp_within hd hc hn)
    exact ⟨fun hle => past_of_advance (hread.trans (if_pos hle)), fun hlt => hread.trans (if_neg (Nat.not_le.mpr hlt)),
      fun hle => past_of_advance (hfill.trans (if_pos hle)), fun hlt => hfill.trans (if_neg (Nat.not_le.mpr hlt))⟩
  case advances =>
    simp only [List.forall_mem_cons, List.not_mem_nil, false_implies, implies_true, and_true]
    refine ⟨fun hc hle => ?_, fun hc hle => ?_⟩
    · exact past_queueAdvance rfl rfl ((exec_dadvc h a n s).trans (deckOp_within hd hc hle))
    · exact past_queueAdvance rfl rfl ((exec_dadvp h a n s).trans (deckOp_within hd hc hle))
  case view =>
    intro e d hnone hn hhead htail
    have hview : d = { e with head := e.head % e.n, tail := e.tail % e.n, room := e.n - e.fill } := deckView_of_noAdvance hnone tid
    rw [hview]
    exact ⟨Nat.mod_eq_of_lt hhead, Nat.mod_eq_of_lt htail, rfl, rfl⟩

end Sys2Proof.Machine
end

/-! ## Copy tags (08 R198-R200) -/
section
namespace Sys2Proof.Machine

open Sys2Proof

/-! ### Bits of a word -/

/-- The word with one bit, as a power of two; one beyond the word is 0. -/
theorem bitAt_true (n : Nat) : bitAt true n = BitVec.ofNat 64 (2 ^ n) := by
  refine BitVec.eq_of_toNat_eq ?_
  simp [bitAt, Nat.shiftLeft_eq]

/-- A word has no lowest bit where it is 0. -/
theorem lowestBit_zero : lowestBit 0 = none := by decide

/-- The lowest bit of a word is the one below which it has none. -/
theorem lowestBit_eq_some {w : Word} {k : Nat} (hk : k < 64) (hbit : w.getLsbD k = true) (hbelow : ∀ j < k, w.getLsbD j = false) :
    lowestBit w = some k :=
  List.find?_range_eq_some.mpr ⟨hbit, List.mem_range.mpr hk, fun j hj => by simp [hbelow j hj]⟩

/-- A bit of the word with one bit. -/
theorem getLsbD_bitAt_true {n : Nat} (hn : n < 64) (j : Nat) : (bitAt true n).getLsbD j = decide (j = n) := by
  rw [bitAt_true, BitVec.getLsbD_ofNat, Nat.testBit_two_pow]
  by_cases hj : j = n
  · simp [hj, hn]
  · simp [hj, Ne.symm hj]

/-! ### The report of a mark -/

/-- The trap that reports the mark of a tag (08 R199). -/
def markTrap (c : Core) (k : Nat) : Trap := { cause := 0x0E, a := (Table.find k c.tagFault).getD 0, v := BitVec.ofNat 64 k }

/-- The focus thread's core without the mark of a tag. -/
def withoutMark (k : Nat) (s : State) : State :=
  s.setCore s.th.core { s.myCore with
    tagErr := s.myCore.tagErr &&& ~~~BitVec.ofNat 64 (2 ^ k), tagFault := Table.drop k s.myCore.tagFault }

/-- A mark that goes is reported. -/
theorem reported_withoutMark (k : Nat) (s : State) : Reported (withoutMark k s) s.th.core k s := rfl

section Report

variable {mask : Word} {s : State}

/-- Where no set tag of a mask is marked there is nothing to report. -/
theorem tagReport_unmarked (h : s.myCore.ctb &&& s.myCore.tagErr &&& mask = 0) : tagReport mask s = none := by
  simp only [tagReport, h, lowestBit_zero]

/-- The lowest marked one among the set tags of a mask is reported. -/
theorem tagReport_marked {k : Nat} (hk : k < 64) (hbit : (s.myCore.ctb &&& s.myCore.tagErr &&& mask).getLsbD k = true)
    (hbelow : ∀ j < k, (s.myCore.ctb &&& s.myCore.tagErr &&& mask).getLsbD j = false) :
    tagReport mask s = some (markTrap s.myCore k, withoutMark k s) := by
  simp only [tagReport, lowestBit_eq_some hk hbit hbelow, bitAt_true]
  rfl

/-- A tag wait that ends with nothing to report acquires. -/
theorem endTagWait_unmarked (go : State → State) (h : s.myCore.ctb &&& s.myCore.tagErr &&& mask = 0) :
    endTagWait mask s go = go (acquireAt s.th.core s) := by
  simp only [endTagWait, tagReport_unmarked h]

/-- A tag wait that ends with a mark takes the trap of its report. -/
theorem endTagWait_marked (go : State → State) {k : Nat} (hk : k < 64)
    (hbit : (s.myCore.ctb &&& s.myCore.tagErr &&& mask).getLsbD k = true)
    (hbelow : ∀ j < k, (s.myCore.ctb &&& s.myCore.tagErr &&& mask).getLsbD j = false) :
    endTagWait mask s go = takeTrap (markTrap s.myCore k) (withoutMark k s) := by
  simp only [endTagWait, tagReport_marked hk hbit hbelow]

end Report

/-! ### The instructions -/

section Masks

variable {a : BitVec 4} {s : State}

/-- A mask with a tag outside the thread's group is refused (08 R200). -/
theorem exec_badMask (hout : s.getS a &&& ~~~s.th.tagMask ≠ 0) : ∀ i ∈ [Instr.cwaitany a, .cwaitall a, .ctagclr a],
    exec i s = .next (takeTrap (badMask a (s.getS a)) s) := by
  simp only [List.forall_mem_cons, List.not_mem_nil, false_implies, implies_true, and_true]
  exact ⟨if_pos (.inl hout), if_pos hout, if_pos hout⟩

/-- CWAITANY of no tag is refused. -/
theorem exec_cwaitany_none (hm : s.getS a = 0) : exec (.cwaitany a) s = .next (takeTrap (badMask a 0) s) := by
  rw [← hm]
  exact if_pos (.inr hm)

/-- CWAITALL of no tag completes. -/
theorem exec_cwaitall_none (hm : s.getS a = 0) : exec (.cwaitall a) s = .next (advance 4 s) := by
  have hin : ¬ (0 &&& ~~~s.th.tagMask) ≠ 0 := not_not.mpr BitVec.zero_and
  change execCwaitall a s = _
  simp only [execCwaitall, hm, if_neg hin, if_true]

variable (hin : s.getS a &&& ~~~s.th.tagMask = 0)

include hin

/-- CWAITANY of some tags waits where none is set. -/
theorem exec_cwaitany_waits (hm : s.getS a ≠ 0) (hset : s.myCore.ctb &&& s.getS a = 0) :
    exec (.cwaitany a) s = .next (waitFor (.tagAny (s.getS a)) s) := by
  change execCwaitany a s = _
  simp only [execCwaitany, hin, hm, hset, ne_eq, not_true, or_self, if_false, if_true]

/-- CWAITANY ends where a tag is set. -/
theorem exec_cwaitany_ends (hset : s.myCore.ctb &&& s.getS a ≠ 0) :
    exec (.cwaitany a) s = .next (endTagWait (s.getS a) s (advance 4)) := by
  have hm : s.getS a ≠ 0 := fun h => hset (by rw [h]; exact BitVec.and_zero)
  change execCwaitany a s = _
  simp only [execCwaitany, hin, hm, hset, ne_eq, not_true, or_self, if_false]

/-- CWAITALL waits where a tag is not set. -/
theorem exec_cwaitall_waits (hm : s.getS a ≠ 0) (hset : s.myCore.ctb &&& s.getS a ≠ s.getS a) :
    exec (.cwaitall a) s = .next (waitFor (.tagAll (s.getS a)) s) := by
  change execCwaitall a s = _
  simp only [execCwaitall, hin, hm, hset, ne_eq, not_true, not_false_eq_true, if_false, if_true]

/-- CWAITALL of some tags ends where all are set. -/
theorem exec_cwaitall_ends (hm : s.getS a ≠ 0) (hset : s.myCore.ctb &&& s.getS a = s.getS a) :
    exec (.cwaitall a) s = .next (endTagWait (s.getS a) s (advance 4)) := by
  change execCwaitall a s = _
  simp only [execCwaitall, hin, hm, hset, ne_eq, not_true, if_false]

/-- CTAGCLR clears the bits of its mask. -/
theorem exec_ctagclr : exec (.ctagclr a) s
    = .next (advance 4 (s.setCore s.th.core { s.myCore with ctb := s.myCore.ctb &&& ~~~s.getS a })) := by
  change execCtagclr a s = _
  simp only [execCtagclr, hin, ne_eq, not_true, if_false]
  rfl

end Masks

section Find

variable {d : BitVec 4} {s : State}

/-- CFIND gives 64 where no tag of the group is set. -/
theorem exec_cfind_none (h : s.myCore.ctb &&& s.th.tagMask = 0) : exec (.cfind d) s = .next (writeS 2 d 64 s) := by
  change execCfind d s = _
  simp only [execCfind, h, lowestBit_zero]

/-- CFIND of a set tag ends as a wait for it would. -/
theorem exec_cfind_some {k : Nat} (h : lowestBit (s.myCore.ctb &&& s.th.tagMask) = some k) :
    exec (.cfind d) s = .next (endTagWait (bitAt true k) s (writeS 2 d (BitVec.ofNat 64 k))) := by
  change execCfind d s = _
  simp only [execCfind, h]

end Find

/-! ### The end of a wait -/

section Waiting

variable {s : State} {x : Thread} {m : Word} {since : Nat} (hx : s.thread? s.arg.a = some x)
  (hst : x.status = .waiting (.tagAny m) since ∨ x.status = .waiting (.tagAll m) since)

include hx hst

/-- A tag wait ends where its core's picker lets it go on. -/
theorem exec_copyTagWaitComplete : exec .copyTagWaitComplete s
    = .next (if pickedWait s x .copyTagWaitComplete = true then tagWaitDone m (s.focus x.id) else s) := by
  change execCopyTagWaitComplete s = _
  obtain hst | hst := hst <;> simp only [execCopyTagWaitComplete, hx, hst] <;> split <;> rfl

end Waiting

/-- The end of a tag wait with nothing to report. -/
theorem tagWaitDone_unmarked {m : Word} {s : State} (h : s.myCore.ctb &&& s.myCore.tagErr &&& m = 0) :
    tagWaitDone m s = finishWait (acquireAt s.th.core s) := by
  simp only [tagWaitDone, tagReport_unmarked h]

/-- The end of a tag wait with a mark to report. -/
theorem tagWaitDone_marked {m : Word} {s : State} {k : Nat} (hk : k < 64)
    (hbit : (s.myCore.ctb &&& s.myCore.tagErr &&& m).getLsbD k = true)
    (hbelow : ∀ j < k, (s.myCore.ctb &&& s.myCore.tagErr &&& m).getLsbD j = false) :
    tagWaitDone m s = finishIssue false (takeTrap (markTrap s.myCore k) (pickFocus s.th.id (withoutMark k s))) := by
  simp only [tagWaitDone, tagReport_marked hk hbit hbelow]
  rfl

/-! ### The obligation -/

/-- A tag that is marked and set, below which none of a mask is both, shows that a tag of the mask is set. -/
theorem ctb_and_ne_zero {c e m : Word} {k : Nat} (hbit : (c &&& e &&& m).getLsbD k = true) : c &&& m ≠ 0 := by
  intro h
  have hk : (c &&& m).getLsbD k = true := by
    simp only [BitVec.getLsbD_and, Bool.and_eq_true] at hbit ⊢
    exact ⟨hbit.1.1, hbit.2⟩
  simp [h] at hk

/-- A bit of the set and marked tags among one. -/
theorem getLsbD_and_and_bitAt (c e : Word) {k : Nat} (hk : k < 64) (j : Nat) :
    (c &&& e &&& bitAt true k).getLsbD j = (c.getLsbD j && e.getLsbD j && decide (j = k)) := by
  rw [BitVec.getLsbD_and, BitVec.getLsbD_and, getLsbD_bitAt_true hk]

/-- One tag that is not marked gives nothing to report. -/
theorem and_and_bitAt_eq_zero (c : Word) {e : Word} {k : Nat} (hk : k < 64) (he : e.getLsbD k = false) : c &&& e &&& bitAt true k = 0 := by
  refine BitVec.eq_of_getLsbD_eq fun j _ => ?_
  rw [getLsbD_and_and_bitAt c e hk j]
  by_cases hj : j = k
  · simp [hj, he]
  · simp [hj]

/-- Settles O40: the masks of the waiting instructions, CFIND, and the end of a wait, each with nothing to report or with the lowest
mark. -/
theorem tagForms : Obligations.TagForms := by
  refine ⟨fun a s => ⟨fun hout i hi => traps_of_takeTrap (exec_badMask hout i hi) rfl,
      fun hin => ⟨fun hm => ⟨traps_of_takeTrap (exec_cwaitany_none hm) rfl, past_of_advance (exec_cwaitall_none hm)⟩,
        exec_cwaitany_waits hin, exec_cwaitall_waits hin, fun hset hun => past_of_advance ?any, fun hm hset hun => past_of_advance ?all,
        fun k hk hbit hbelow => ⟨_, reported_withoutMark k s, traps_of_takeTrap (tr := markTrap s.myCore k) ?anyMarked rfl, fun hset => traps_of_takeTrap (tr := markTrap s.myCore k) ?allMarked rfl⟩,
        past_of_advance (exec_ctagclr hin)⟩⟩,
    fun d s => ⟨fun hzero => writesS_of_writeS (exec_cfind_none hzero) rfl,
      fun k hk hbit hbelow => ⟨fun herr => ⟨_, ?found, movesPast_advance 4 _⟩,
        fun herr => ⟨_, reported_withoutMark k s, traps_of_takeTrap (tr := markTrap s.myCore k) ?foundMarked rfl⟩⟩⟩,
    fun s x m since hx => ?wait⟩
  case any => rw [exec_cwaitany_ends hin hset, endTagWait_unmarked _ hun]
  case all => rw [exec_cwaitall_ends hin hm hset, endTagWait_unmarked _ hun]
  case anyMarked => rw [exec_cwaitany_ends hin (ctb_and_ne_zero hbit), endTagWait_marked _ hk hbit hbelow]
  case allMarked =>
    have hm : s.getS a ≠ 0 := hset ▸ ctb_and_ne_zero hbit
    rw [exec_cwaitall_ends hin hm hset, endTagWait_marked _ hk hbit hbelow]
  case found =>
    rw [exec_cfind_some (lowestBit_eq_some hk hbit hbelow), endTagWait_unmarked _ (and_and_bitAt_eq_zero _ hk herr)]
    rfl
  case foundMarked =>
    rw [exec_cfind_some (lowestBit_eq_some hk hbit hbelow), endTagWait_marked (k := k) _ hk]
    · rw [getLsbD_and_and_bitAt _ _ hk]
      rw [BitVec.getLsbD_and, Bool.and_eq_true] at hbit
      simp [hbit.1, herr]
    · intro j hj
      simp [getLsbD_and_and_bitAt _ _ hk, Nat.ne_of_lt hj]
  case wait =>
    intro c hfocus hst
    have hexec := exec_copyTagWaitComplete hx hst
    have hcore : (s.focus x.id).myCore = c := by rw [State.myCore, hfocus, State.focus_core]
    refine ⟨fun hpick => by rw [hexec, hpick, if_neg Bool.false_ne_true], fun hpick => ?_⟩
    rw [hpick, if_pos rfl] at hexec
    refine ⟨fun hun => runsOn_of_finishWait ?_, fun k hk hbit hbelow => ?_⟩
    · rw [hexec, tagWaitDone_unmarked (by rwa [hcore]), hfocus]
    · rw [tagWaitDone_marked hk (by rwa [hcore]) (by rwa [hcore]), hfocus, hcore] at hexec
      refine ⟨_, _, hexec, rfl, rfl, rfl, ?_⟩
      have hrep := reported_withoutMark k (s.focus x.id)
      rwa [hfocus] at hrep

end Sys2Proof.Machine
end

/-! ## Instructions that read bytes as they issue, or late (12 R270) -/
section
namespace Sys2Proof.Machine

open Sys2Proof

/-! ### As they issue -/

/-- An instruction whose checks are met moves past itself. -/
theorem past_of_settle {i : Instr} {len : Nat} {s t u : State} {r : Checked State}
    (hexec : exec i s = settle t (r.map (advance len))) (hr : r = .ok u) : Past i len s u := by
  rw [hr] at hexec
  exact past_of_advance hexec

/-- An instruction whose checks trap takes the trap. -/
theorem exec_of_settle_error {i : Instr} {len : Nat} {s t : State} {r : Checked State} {tr : Trap}
    (hexec : exec i s = settle t (r.map (advance len))) (hr : r = .error tr) : exec i s = .next (takeTrap tr t) := by
  rw [hexec, hr]
  rfl

section Issue

variable {dest : LoadDest} {acq : Option Nat} {i : Instr} {a b va : Word} {ls : List Loc} {s : State}
  {go : Nat → List Byte → State → Checked State}

/-- An instruction that may read its bytes as it issues has its result on the way, and does with the bytes what it does. -/
theorem readOrLate_now {bs : List Byte} {t : State} (h : ReadsNow va ls s bs t) :
    readOrLate dest none i a b va ls s go = settle t ((go t.fresh bs (t.pushLoad dest .waiting)).map (advance 4)) := by
  obtain ⟨u, hdata, hfree, hread⟩ := h
  simp only [readOrLate, dataChecked, hdata, hfree, wideAcquire, hread, if_neg Bool.false_ne_true]

/-- An instruction whose bytes come behind something else has a result on the way that acts late. -/
theorem readOrLate_blocked {u : State} (hdata : checkData va ls s = .ok u) (hblocked : readBlocked (beforeReading ls u) ls = true) :
    readOrLate dest acq i a b va ls s go
      = .next (advance 4 ((beforeReading ls u).pushAcquire acq dest (.acting (.late i a b ls)))) := by
  simp only [readOrLate, dataChecked, hdata, hblocked, if_true]

/-- An instruction that reads its bytes as it issues, or late, acts late behind what must come first. -/
theorem readsLate_of_readOrLate {s₀ : State} (hexec : exec i s₀ = readOrLate dest acq i a b va ls s go) :
    ReadsLate i acq dest a b va ls s₀ s := by
  intro u hdata m hblocked
  exact ⟨_, beginsLoad_pushAcquire .., past_of_advance (hexec.trans (readOrLate_blocked hdata hblocked))⟩

end Issue

/-! ### Late -/

/-- What an instruction does late with the bytes that it reads then, in the state in which it acts. -/
def lateOutcome (i : Instr) (a b : Word) (l : Load) (ls : List Loc) (m : State) : Checked State := do
  let (bs, s) ← lateRead i a (wideAcquire l.acq) ls m
  lateBody i a b l.id bs s

/-- What an instruction does late with the bytes at its address, where it reads them as a load does. -/
theorem lateOutcome_of_reads {i : Instr} {a b : Word} {l : Load} {ls : List Loc} {m u : State} {bs : List Byte}
    (hreads : lateRead i a (wideAcquire l.acq) ls m
      = (checkData a ls m).bind fun s => .ok (readAs s.th (wideAcquire l.acq) ls s))
    (h : LateReads a l.acq ls m bs u) : lateOutcome i a b l ls m = lateBody i a b l.id bs u := by
  obtain ⟨w, hdata, hread⟩ := h
  rw [lateOutcome, hreads, hdata]
  simp only [Except.bind, bind, hread]

section Late

variable {s m : State} {x : Thread} {l : Load} {i : Instr} {a b : Word} {ls : List Loc} (hx : s.thread? s.arg.a = some x)
  (hl : loadOf x s.arg.b = some l) (hval : l.val = .acting (.late i a b ls)) (hready : (Acting.late i a b ls).ready s x l = true)
  (hm : LateAt s x l m)

include hx hl hval hready hm

/-- A result that is ready to act late does what its instruction does late, or brings the fault of that. -/
theorem exec_loadReturn_late : exec .loadReturn s = .next (match lateOutcome i a b l ls m with
    | .ok v => (v.onTh fun t => { t with pc := x.pc, modLatch := x.modLatch, ir := x.ir }).focus s.th.id
    | .error tr => (retireTrap tr s).fillLoad x.id l.id (.fault tr.cause tr.fidx tr.fval tr.a tr.v)) := by
  rw [exec_loadReturn_acting hx hl hval, if_pos hready, show m = _ from hm]
  rfl

/-- What a result does late without a fault ends there. -/
theorem lateEnds_of_outcome {v : State} (h : lateOutcome i a b l ls m = .ok v) : LateEnds s x v := by
  have hexec := exec_loadReturn_late hx hl hval hready hm
  simp only [h] at hexec
  exact hexec

/-- A fault of what a result does late comes back in its place. -/
theorem lateFaults_of_outcome {tr : Trap} (h : lateOutcome i a b l ls m = .error tr) : LateFaults s x l tr.cause tr.fidx tr.fval tr.a tr.v := by
  have hexec := exec_loadReturn_late hx hl hval hready hm
  simp only [h] at hexec
  exact ⟨tr, hexec, rfl⟩

end Late

end Sys2Proof.Machine
end

/-! ## Tasks (08 R183, R184, R186, R211) -/
section
namespace Sys2Proof.Machine

open Sys2Proof

/-! ### TSELF and TDEC -/

/-- TSELF gives tag, core and slot. -/
theorem exec_tself (d : BitVec 4) (s : State) : exec (.tself d) s
    = .next (writeS 2 d (BitVec.ofNat 64 (s.th.task.ttag.toNat + s.th.core * 2 ^ 32 + s.th.slot.toNat * 2 ^ 43)) s) := rfl

section Decrement

variable {a b : BitVec 4} {n : BitVec 6} {s : State}

/-- TDEC of nothing, or of the handle 0. -/
theorem exec_tdec_nothing (h : (s.getS b).toNat + n.toNat = 0 ∨ s.getS a = 0) : exec (.tdec a b n) s = .next (advance 4 s) := if_pos h

/-- TDEC sends one message for the whole amount. -/
theorem exec_tdec_sends (hamount : (s.getS b).toNat + n.toNat ≠ 0) (hhandle : s.getS a ≠ 0) : exec (.tdec a b n) s
    = .next (advance 4 (s.sendRelease 3 (.decr s.myPart (s.getS a) ((s.getS b).toNat + n.toNat) (s.th.entry 0)))) :=
  if_neg (not_or.mpr ⟨hamount, hhandle⟩)

end Decrement

/-! ### TSPAWN -/

/-- What TSPAWN does with a record that is refused. -/
theorem spawnRead_refused {va : Word} {bs : List Byte} {s : State} {o : Nat}
    (h : readRecord (s.granted s.myPart) s.myPart (some s.th.core) va bs = .error o) (id : Nat) :
    spawnRead va id bs s = .error { cause := 8, fval := o, a := va } := by
  simp only [spawnRead, h]

/-- What TSPAWN does with a good record: its result will spawn the task. -/
theorem spawnRead_ok {va : Word} {bs : List Byte} {s : State} {task : TaskDesc} {count : Nat}
    (h : readRecord (s.granted s.myPart) s.myPart (some s.th.core) va bs = .ok (task, count)) (id : Nat) :
    spawnRead va id bs s = .ok (s.fillLoad s.th.id id (.acting (.spawn task count))) := by
  simp only [spawnRead, h]

/-- TSPAWN reads its record as it issues, or late. -/
theorem exec_tspawn {d a : BitVec 4} {s s1 : State} {ls : List Loc}
    (hplace : spanPlace .read (s.getS a) 64 64 3 a.toNat s = .ok (ls, s1)) :
    exec (.tspawn d a) s = readOrLate (.s d) none (.tspawn d a) (s.getS a) 0 (s.getS a) ls s1 (spawnRead (s.getS a)) := by
  change execTspawn d a s = _
  simp only [execTspawn, hplace]

/-- TSPAWN that acts late reads its record then. -/
theorem lateOutcome_tspawn {d a : BitVec 4} {va b : Word} {l : Load} {ls : List Loc} {m u : State} {bs : List Byte}
    (h : LateReads va l.acq ls m bs u) : lateOutcome (.tspawn d a) va b l ls m = spawnRead va l.id bs u :=
  lateOutcome_of_reads rfl h

section Spawn

variable {s : State} {x : Thread} {l : Load} {task : TaskDesc} {count : Nat} (hx : s.thread? s.arg.a = some x)
  (hl : loadOf x s.arg.b = some l) (hval : l.val = .acting (.spawn task count)) (hbefore : performedBefore s x.id l.id 3 = true)

include hx hl hval hbefore

/-- A spawn acts once all before it is performed (08 R183). -/
theorem exec_loadReturn_spawn :
    exec .loadReturn s = .next (spawnTask task count (.load x.id l.id) (s.fillLoad x.id l.id .waiting)) := by
  rw [exec_loadReturn_acting hx hl hval, if_pos (show (Acting.spawn task count).ready s x l = true from hbefore)]
  rfl

end Spawn

section Placing

variable {task : TaskDesc} {count tid load : Nat} {s : State}

/-- A task that counts nothing is ready at its home, and its handle is 0 (02 R19). -/
theorem spawnTask_ready : spawnTask task 0 (.load tid load) s = State.fillLoad { s with fresh := s.fresh + 1, msgs := s.msgs ++
      [⟨s.fresh, 0, s.srcOf tid, none, .ready task.home (taskEntry task .none s.cycle)⟩] } tid load (.data ((0 : Word).setWidth 1024) false) :=
  rfl

/-- A task that counts takes a counter, whose handle comes back. -/
theorem spawnTask_placed (hcount : count ≠ 0) {h : Word} {u : State} (hplace : placeCounter task count s = some (h, u)) :
    spawnTask task count (.load tid load) s = u.fillLoad tid load (.data (h.setWidth 1024) false) := by
  simp only [spawnTask, if_neg hcount, hplace, deliverHandle]

/-- An entry of the monitor's log leaves the partitions. -/
theorem logMonitor_part? (e : LogEntry) (s : State) (p : Nat) : (s.logMonitor e).part? p = s.part? p := by
  simp only [State.logMonitor]
  split <;> rfl

/-- A partition changed. -/
theorem part?_onPart {s : State} {n : Nat} {p : Part} (hp : s.part? n = some p) (f : Part → Part) : (s.onPart n f).part? n = some (f p) := by
  simp only [State.onPart, hp, State.setPart_self]

/-- A task that finds no counter waits for one in its partition. -/
theorem spawnTask_waits (hcount : count ≠ 0) (hplace : placeCounter task count s = none) {p : Part} (hp : s.part? task.part = some p) :
    (spawnTask task count (.load tid load) s).part? task.part
      = some { p with waits := p.waits ++ [⟨task, count, .load tid load⟩] } := by
  simp only [spawnTask, if_neg hcount, hplace]
  exact part?_onPart (by rw [logMonitor_part?, hp]) _

end Placing

/-! ### GREPLAY -/

section Replay

variable {a : BitVec 4} {desc : Word} {id : Nat} {s : State}

/-- A replay of a busy graph answers 1. -/
theorem runReplay_busy (h : replayPlan s.who (some s.th.core) desc s = .error .busy) :
    runReplay a desc id s = .ok (s.fillLoad s.th.id id (.data 1 false)) := by
  simp only [runReplay, h]

/-- A replay of a refused graph is logged and answers 2. -/
theorem runReplay_denied {r : Word} {o : Nat} (h : replayPlan s.who (some s.th.core) desc s = .error (.denied r o)) :
    runReplay a desc id s = .ok ((s.logFault s.th.core s.myPart { s.th.entry 8 with
      addr := r, opnd := BitVec.ofNat 32 (o % 256 * 16) }).fillLoad s.th.id id (.data 2 false)) := by
  simp only [runReplay, h]

/-- A replay that meets a refused access is its thread's fault. -/
theorem runReplay_fault {f : Flt} {v : Nat} (h : replayPlan s.who (some s.th.core) desc s = .error (.fault f v)) :
    runReplay a desc id s = .error (f.trap 3 a.toNat a.toNat v) := by
  simp only [runReplay, h]

/-- A good graph is replayed. -/
theorem runReplay_ok {p : ReplayPlan} {u : State} (h : replayPlan s.who (some s.th.core) desc s = .ok (p, u)) :
    runReplay a desc id s = .ok (startReplay u.myPart desc p (.load s.th.id id) u) := by
  simp only [runReplay, h]

end Replay

section Issue

variable {d a : BitVec 4} {s s1 s2 w : State} {ls : List Loc} (hplace : spanPlace .read (s.getS a) 64 64 3 a.toNat s = .ok (ls, s1))
  (hdata : checkData (s.getS a) ls s1 = .ok s2) (hw : performAt 3 s2.th.id s2 = w)

include hplace hdata hw

/-- GREPLAY replays as it issues where all before it is performed. -/
theorem exec_greplay_now (hbefore : performedBefore w w.th.id w.fresh 3 = true) (hfree : readBlocked w ls = false) :
    exec (.greplay d a) s = settle w ((runReplay a (s.getS a) w.fresh (w.pushLoad (.s d) .waiting)).map (advance 4)) := by
  change execGreplay d a s = _
  simp only [execGreplay, hplace, dataChecked, hdata, hw]
  exact if_pos (by simp [hbefore, hfree])

/-- GREPLAY has else a result on the way that replays late. -/
theorem exec_greplay_later (hnot : ¬ (performedBefore w w.th.id w.fresh 3 = true ∧ readBlocked w ls = false)) :
    exec (.greplay d a) s = .next (advance 4 (w.pushLoad (.s d) (.acting (.late (.greplay d a) (s.getS a) 0 ls)))) := by
  change execGreplay d a s = _
  simp only [execGreplay, hplace, dataChecked, hdata, hw]
  exact if_neg (by simpa using hnot)

end Issue

/-- GREPLAY that acts late replays then. -/
theorem lateOutcome_greplay (d a : BitVec 4) (va b : Word) (l : Load) (ls : List Loc) (m : State) :
    lateOutcome (.greplay d a) va b l ls m = runReplay a va l.id m := rfl

/-! ### The obligation -/

/-- Settles O36: the instructions as they issue, and a spawn, a TSPAWN and a GREPLAY that act on the load path. -/
theorem taskForms : Obligations.TaskForms := by
  refine ⟨fun d a b n s => ⟨writesS_of_writeS (exec_tself d s) rfl, fun h => past_of_advance (exec_tdec_nothing h),
      fun hamount hhandle => past_of_advance (exec_tdec_sends hamount hhandle),
      fun ls s1 hplace => ⟨fun bs s3 hreads => ?record, readsLate_of_readOrLate (exec_tspawn hplace), fun s2 hdata => ?replay⟩⟩,
    fun s x l hx hl => ⟨fun y hval hready => ?notReady, fun hbefore task count hval => ?spawn,
      fun d a va b ls m hval hmay hm bs u hlate => ?lateRecord, fun d a va b ls m hval hmay hbefore hm => ?lateReplay⟩⟩
  case record =>
    have hexec := (exec_tspawn (d := d) hplace).trans (readOrLate_now hreads)
    refine ⟨fun o hrec => ?_, fun task count hrec => ⟨_, beginsLoad_pushAcquire .., ?_⟩⟩
    · have hrefused := spawnRead_refused (s := s3.pushLoad (.s d) .waiting) hrec s3.fresh
      exact traps_of_takeTrap (exec_of_settle_error hexec hrefused) rfl
    · exact past_of_settle hexec (spawnRead_ok (s := s3.pushLoad (.s d) .waiting) hrec s3.fresh)
  case replay =>
    intro w now
    refine ⟨fun hnot => ⟨_, beginsLoad_pushAcquire .., past_of_advance (exec_greplay_later hplace hdata rfl hnot)⟩, fun hnow => ?_⟩
    obtain ⟨hbefore, hfree⟩ := hnow
    have hexec := exec_greplay_now (d := d) hplace hdata rfl hbefore hfree
    exact ⟨_, beginsLoad_pushAcquire .., fun hplan => past_of_settle hexec (runReplay_busy hplan),
      fun r o hplan => past_of_settle hexec (runReplay_denied hplan),
      fun f v hplan => ⟨_, exec_of_settle_error hexec (runReplay_fault hplan), rfl, rfl⟩,
      fun p w2 hplan => past_of_settle hexec (runReplay_ok hplan)⟩
  case notReady => rw [exec_loadReturn_acting hx hl hval, hready, if_neg Bool.false_ne_true]
  case spawn =>
    have hexec := exec_loadReturn_spawn hx hl hval hbefore
    refine ⟨fun hcount => ?_, fun h u hcount hplace => ?_, fun hcount hplace => ⟨_, hexec, fun p hp => ⟨_, spawnTask_waits hcount hplace hp, rfl⟩⟩⟩
    · rw [hexec, hcount, spawnTask_ready]
    · rw [hexec, spawnTask_placed hcount hplace]
  case lateRecord =>
    have hout := lateOutcome_tspawn (d := d) (a := a) (b := b) hlate
    refine ⟨fun o hrec => ?_, fun task count hrec => ?_⟩
    · rw [spawnRead_refused hrec] at hout
      exact lateFaults_of_outcome hx hl hval hmay hm hout
    · rw [spawnRead_ok hrec] at hout
      exact lateEnds_of_outcome hx hl hval hmay hm hout
  case lateReplay =>
    have hready : (Acting.late (.greplay d a) va b ls).ready s x l = true := Bool.and_eq_true_iff.mpr ⟨hbefore, hmay⟩
    have hout := lateOutcome_greplay d a va b l ls m
    intro plan
    refine ⟨fun hplan => ?_, fun r o hplan => ?_, fun f v hplan => ?_, fun p u hplan => ?_⟩
    · exact lateEnds_of_outcome hx hl hval hready hm (hout.trans (runReplay_busy hplan))
    · exact lateEnds_of_outcome hx hl hval hready hm (hout.trans (runReplay_denied hplan))
    · exact ⟨_, _, lateFaults_of_outcome hx hl hval hready hm (hout.trans (runReplay_fault hplan))⟩
    · exact lateEnds_of_outcome hx hl hval hready hm (hout.trans (runReplay_ok hplan))

end Sys2Proof.Machine
end

/-! ## Launch packets (08 R208, R209, 17 R349, 20 R376, R377) -/
section
namespace Sys2Proof.Machine

open Sys2Proof

/-! ### PLNCH -/

/-- PLNCH reads its packet as it issues, or late. -/
theorem exec_plnch {d a b : BitVec 4} {s s1 : State} {ls : List Loc}
    (hplace : spanPlace .read (s.getS a) 64 64 3 a.toNat s = .ok (ls, s1)) :
    exec (.plnch d a b) s
      = readOrLate (.s d) none (.plnch d a b) (s.getS a) (s.getS b) (s.getS a) ls s1 (launchRead (s.getS b).toNat) := by
  change execPlnch d a b s = _
  simp only [execPlnch, hplace]

/-- PLNCH that acts late reads its packet then. -/
theorem lateOutcome_plnch {d a b : BitVec 4} {va target : Word} {l : Load} {ls : List Loc} {m u : State} {bs : List Byte}
    (h : LateReads va l.acq ls m bs u) : lateOutcome (.plnch d a b) va target l ls m = launchRead target.toNat l.id bs u :=
  lateOutcome_of_reads rfl h

/-- A load that receives its value draws nothing. -/
@[simp] theorem fillLoad_free (s : State) (tid load : Nat) (val : LoadVal) : (s.fillLoad tid load val).free = s.free := by
  rw [State.fillLoad, State.onThread_frame]

section Target

variable {target id : Nat} {bs : List Byte} {s : State}

/-- A launch to a refused target answers 2. -/
theorem launchRead_refused (h : launchRefused s target = true) : launchRead target id bs s = .ok (s.fillLoad s.th.id id (.data 2 false)) :=
  if_pos h

variable (h : launchRefused s target = false)

include h

/-- A launch to this package sends its packet. -/
theorem launchRead_own (hpkg : target % 1024 = s.pkg) : launchRead target id bs s = .ok { s with fresh := s.fresh + 1, msgs := s.msgs ++
    [⟨s.fresh, s.th.id, s.th.core + 1, some 4, .packet (target / 1024 % 8) (target / 2 ^ 13 % 16) s.pkg s.myPart bs (some (s.th.id, id))
      (s.th.entry 0)⟩] } := by
  simp only [launchRead, h, Bool.false_eq_true, if_false]
  exact if_neg (not_not.mpr hpkg)

/-- A launch to a peer has a free answer, which is drawn. -/
theorem launchRead_peer (hpkg : target % 1024 ≠ s.pkg) : launchRead target id bs s
    = .ok { s.fillLoad s.th.id id (.data (BitVec.ofNat 1024 (s.freeBelow 3)) false) with free := s.free + 1 } := by
  simp only [launchRead, h, Bool.false_eq_true, if_false, State.draw, fillLoad_free]
  exact if_pos hpkg

end Target

/-- A free value below a bound is below it. -/
theorem freeBelow_lt (s : State) {n : Nat} (hn : 1 < n) : s.freeBelow n < n := by
  rw [State.freeBelow, if_neg (by omega)]
  exact Nat.mod_lt _ (by omega)

/-! ### The landing logic -/

/-- A packet that arrives is decided, and the code returns to its load. -/
theorem exec_packetArrival {s : State} {e : Envelope} {part queue pkg rpart tid l : Nat} {bs : List Byte} {sender : LogEntry}
    (ha : arrived s s.arg.a = some e) (hb : e.body = .packet part queue pkg rpart bs (some (tid, l)) sender) :
    let r := landPacket part queue pkg rpart bs sender (dropMsg e.seq s)
    exec .packetArrival s = .next (r.2.fillLoad tid l (.data (BitVec.ofNat 1024 r.1) false)) := by
  change execPacketArrival s = _
  simp only [execPacketArrival, ha, hb]

/-- The code of a packet from a package that has not failed is the decision. -/
theorem landPacket_fst {part queue pkg rpart : Nat} {bs : List Byte} {sender : LogEntry} {s : State} {p : Part}
    (hp : s.part? part = some p) (hlive : s.failed.contains pkg = false) :
    (landPacket part queue pkg rpart bs sender s).1 = (decide349 p queue pkg rpart bs).1 := by
  simp only [landPacket, hp, hlive, Bool.false_eq_true, if_false]
  split <;> simp [*]

/-! ### The landing server -/

/-- The server acts on the packet at the head of a queue of a running partition. -/
theorem exec_landingServer {s : State} {p : Part} {k : Packet} {rest : List Packet} (hp : s.part? s.arg.a = some p)
    (hhead : (p.landing.getD s.arg.b {}).packets = k :: rest) (hstarted : k.started = false) (hhalt : p.halt = .running) :
    exec .landingServer s = .next (servePacket s.arg.a s.arg.b k (beginPacket s.arg.a s.arg.b s)) := by
  change execLandingServer s = _
  simp only [execLandingServer, hp, hhead]
  exact if_neg (by simp [hstarted, hhalt])

section Serve

variable {part queue : Nat} {k : Packet} {u : State}

/-- A NAMED packet's task is spawned. -/
theorem servePacket_named (hkind : leField k.bytes 0 1 = 1) {addr : Word} (haddr : BitVec.ofNat 64 (leField k.bytes 16 8) = addr)
    (halign : addr.toNat % 64 = 0) {bs : List Byte} {v : State} (hread : replaySpan (hwWho part) .read addr.toNat 64 u = .ok (bs, v))
    {t : TaskDesc} {n : Nat} (hrec : readRecord (v.granted part) part none addr bs = .ok (t, n)) :
    servePacket part queue k u = spawnTask t n (.packet queue) v := by
  simp only [servePacket, hkind, haddr, halign, hread, hrec, if_true]
  rfl

/-- A CARRIED packet's task is spawned. -/
theorem servePacket_carried (hkind : leField k.bytes 0 1 = 2) {t : TaskDesc} {n : Nat}
    (hrec : readRecord (u.granted part) part none 0 (carriedRecord k.bytes) = .ok (t, n)) :
    servePacket part queue k u = spawnTask t n (.packet queue) u := by
  simp only [servePacket, hkind, hrec]
  rfl

variable (hkind : leField k.bytes 0 1 = 3) {addr : Word} (haddr : BitVec.ofNat 64 (leField k.bytes 16 8) = addr)
  (halign : addr.toNat % 64 = 0)

include hkind haddr halign

/-- A REPLAY packet of a graph that its requester may not replay is logged, and its slot is free. -/
theorem servePacket_denied (hdenied : graphDenied part k.act addr u = true) :
    ∃ e : LogEntry, servePacket part queue k u = popPacket part queue (u.logAsync part e) ∧ e.cause = 0x0D := by
  simp only [servePacket, hkind, haddr, halign, hdenied]
  exact ⟨_, rfl, rfl⟩

variable (hallowed : graphDenied part k.act addr u = false)

include hallowed

/-- A REPLAY packet's graph is replayed. -/
theorem servePacket_replays {q : ReplayPlan} {v : State} (hplan : replayPlan (hwWho part) none addr u = .ok (q, v)) :
    servePacket part queue k u = startReplay part addr q (.packet queue) v := by
  simp [servePacket, hkind, haddr, halign, hallowed, hplan]

/-- A REPLAY packet of a busy graph frees its slot. -/
theorem servePacket_busy (hplan : replayPlan (hwWho part) none addr u = .error .busy) :
    servePacket part queue k u = popPacket part queue u := by
  simp [servePacket, hkind, haddr, halign, hallowed, hplan]

end Serve

/-! ### The host's window -/

/-- A landing queue after the host's write of some bytes was answered with a code. -/
def Landing.answered (l : Landing) (bs : List Byte) (code : Nat) : Landing :=
  { l with
    code := BitVec.ofNat 2 code, seq := if bs.length = 64 then BitVec.ofNat 16 (leField bs 2 2) else l.seq
    nacc := l.nacc + if code = 0 then 1 else 0 }

section Host

variable {s : State} {part queue : Nat} (hpart : s.arg.a / 128 % 128 / 16 = part) (hqueue : s.arg.a / 128 % 128 % 16 = queue)
  {p : Part} (hp : s.part? part = some p)

include hpart hqueue hp

/-- A host's write that presents no packet leaves the code 2. -/
theorem exec_hostPacketWrite_discarded (h : s.arg.a % 128 ≠ 0 ∨ s.arg.bytes.length ≠ 64) : exec .hostPacketWrite s
    = .next (s.setPart part { p with landing := p.landing.set queue { p.landing.getD queue {} with code := 2 } }) := by
  change execHostPacketWrite s = _
  simp only [execHostPacketWrite, hpart, hqueue, hp]
  exact if_neg (by simpa [imp_iff_not_or] using h)

/-- A host's write of one packet is decided, and its queue shows the answer. -/
theorem exec_hostPacketWrite_presented (haddr : s.arg.a % 128 = 0) (hlen : s.arg.bytes.length = 64) :
    let r := landPacket part queue 0x3FF 0 s.arg.bytes outsideSender s
    exec .hostPacketWrite s = .next (r.2.onPart part fun p =>
      { p with landing := p.landing.set queue ((p.landing.getD queue {}).answered s.arg.bytes r.1) }) := by
  change execHostPacketWrite s = _
  simp [execHostPacketWrite, hpart, hqueue, hp, haddr, hlen, Landing.answered, add_ite]

end Host

/-- The host reads the status word of a page. -/
theorem exec_hostStatusRead_page {s : State} (h : s.arg.c = 0) :
    exec .hostStatusRead s = .next { s with response := { bytes := leBytes 8 (statusWord s (s.arg.a % 128)) } } := by
  change execHostStatusRead s = _
  simp only [execHostStatusRead, h, if_true]

/-- The host reads bytes of the management window. -/
theorem exec_hostStatusRead_window {s : State} (h : s.arg.c ≠ 0) (hle : s.arg.c ≤ 65536) : exec .hostStatusRead s
    = .next { s with response := { bytes := (List.range s.arg.c).map fun i => mailByte s (s.arg.b + i) } } := by
  change execHostStatusRead s = _
  simp only [execHostStatusRead, if_neg h, Nat.mod_eq_of_lt (Nat.lt_succ_of_le hle)]

/-! ### The obligation -/

/-- Settles O37: PLNCH as it issues and late, the arrival of a packet, the landing server, and the host's window. -/
theorem launchPackets : Obligations.LaunchPackets := by
  refine ⟨fun d a b s ls s1 bs w => ?issue, fun d a b s ls s1 hplace => readsLate_of_readOrLate (exec_plnch hplace),
    fun s x l d a b va target ls m bs u hx hl hval hmay hm hlate => ?late,
    fun s e part queue pkg rpart bs tid l sender ha hb => ⟨exec_packetArrival ha hb, fun p hp hlive => landPacket_fst hp hlive⟩,
    fun s p k rest hp hhead hstarted hhalt => ?server, fun s p => ?host,
    fun s => ⟨exec_hostStatusRead_page, exec_hostStatusRead_window⟩⟩
  case issue =>
    intro va target hplace hreads
    have hexec := (exec_plnch (d := d) (b := b) hplace).trans (readOrLate_now hreads)
    refine ⟨fun href => ⟨_, beginsLoad_pushAcquire .., past_of_settle hexec (launchRead_refused href)⟩,
      fun hgood hpkg => ⟨_, beginsLoad_pushAcquire .., past_of_settle hexec (launchRead_own hgood hpkg)⟩,
      fun hgood hpkg => ⟨BitVec.ofNat 1024 (w.freeBelow 3), _, ?_, beginsLoad_pushAcquire .., past_of_settle hexec
        (launchRead_peer (s := w.pushLoad (.s d) .waiting) hgood hpkg)⟩⟩
    have hlt := freeBelow_lt w (n := 3) (by decide)
    exact (BitVec.toNat_ofNat ..).trans_le ((Nat.mod_le ..).trans (Nat.le_of_lt_succ hlt))
  case late =>
    have hout := lateOutcome_plnch (d := d) (a := a) (b := b) (target := target) hlate
    exact ⟨fun href => lateEnds_of_outcome hx hl hval hmay hm (hout.trans (launchRead_refused href)),
      fun hgood hpkg => lateEnds_of_outcome hx hl hval hmay hm (hout.trans (launchRead_own hgood hpkg))⟩
  case server =>
    intro u addr serves
    have hexec := exec_landingServer hp hhead hstarted hhalt
    refine ⟨fun hkind halign bs v hread t n hrec => ?_, fun hkind t n hrec => ?_, fun hkind halign => ⟨fun hdenied => ?_, fun hallowed =>
      ⟨fun q v hplan => ?_, fun hplan => ?_⟩⟩⟩
    · exact hexec.trans (congrArg _ (servePacket_named hkind rfl halign hread hrec))
    · exact hexec.trans (congrArg _ (servePacket_carried hkind hrec))
    · obtain ⟨e, hserve, hcause⟩ := servePacket_denied (queue := s.arg.b) hkind rfl halign hdenied
      exact ⟨e, hexec.trans (congrArg _ hserve), hcause⟩
    · exact hexec.trans (congrArg _ (servePacket_replays hkind rfl halign hallowed hplan))
    · exact hexec.trans (congrArg _ (servePacket_busy hkind rfl halign hallowed hplan))
  case host =>
    intro part queue hp hqueue
    refine ⟨fun hbad => ⟨_, _, _, exec_hostPacketWrite_discarded rfl rfl hp hbad, State.setPart_self .., ?_, rfl, rfl⟩, fun haddr hlen => ?_⟩
    · exact List.getElem?_set_self hqueue
    · exact ⟨_, exec_hostPacketWrite_presented rfl rfl hp haddr hlen, fun q hq hroom => ⟨_, _, part?_onPart hq _, List.getElem?_set_self hroom, rfl,
        if_pos hlen, rfl⟩⟩

end Sys2Proof.Machine
end

/-! ## Numbers as bytes (00 R1) -/
section
namespace Sys2Proof.Machine

open Sys2Proof

/-- The first bytes of a list hold the low part of its number. -/
theorem leNat_take (n : Nat) (bs : List Byte) : leNat (bs.take n) = leNat bs % 256 ^ n := by
  induction n generalizing bs with
  | zero => simp [leNat, Nat.mod_one]
  | succ n ih =>
    cases bs with
    | nil => simp [leNat]
    | cons b bs =>
      have hb : b.toNat < 256 := b.isLt
      rw [List.take_succ_cons, leNat, leNat, ih, Nat.pow_succ', Nat.mod_mul, Nat.add_mul_mod_self_left,
        Nat.mod_eq_of_lt hb, Nat.add_mul_div_left _ _ (by decide), Nat.div_eq_of_lt hb, Nat.zero_add]

/-- The bytes after the first ones hold the high part of the number. -/
theorem leNat_drop (n : Nat) (bs : List Byte) : leNat (bs.drop n) = leNat bs / 256 ^ n := by
  induction n generalizing bs with
  | zero => simp
  | succ n ih =>
    cases bs with
    | nil => simp [leNat]
    | cons b bs =>
      have hb : b.toNat < 256 := b.isLt
      rw [List.drop_succ_cons, ih, leNat, Nat.pow_succ', ← Nat.div_div_eq_div_mul, Nat.add_mul_div_left _ _ (by decide),
        Nat.div_eq_of_lt hb, Nat.zero_add]

/-- The weight of a byte in bits. -/
theorem pow_256 (n : Nat) : 256 ^ n = 2 ^ (8 * n) := (Nat.pow_mul 2 8 n).symm

/-- The bytes that a word of bits takes hold it. -/
theorem toNat_lt_pow_256 {n m : Nat} (x : BitVec n) (h : n = 8 * m) : x.toNat < 256 ^ m := by
  subst h
  rw [pow_256]
  exact x.isLt

/-- A field of bytes is a part of their number. -/
theorem leField_eq (bs : List Byte) (lo n : Nat) : leField bs lo n = leNat bs / 256 ^ lo % 256 ^ n := by
  rw [leField, leNat_take, leNat_drop]

/-- The bytes of a number hold its low part. -/
theorem leNat_leBytes (n v : Nat) : leNat (leBytes n v) = v % 256 ^ n := by
  induction n generalizing v with
  | zero => simp [leNat, leBytes, Nat.mod_one]
  | succ n ih =>
    rw [leBytes, leNat, ih, BitVec.toNat_ofNat, show 256 ^ (n + 1) = 2 ^ 8 * 256 ^ n from Nat.pow_succ', Nat.mod_mul]
    rfl

/-- As many bytes as are asked for. -/
@[simp] theorem length_leBytes (n v : Nat) : (leBytes n v).length = n := by
  induction n generalizing v with
  | zero => rfl
  | succ n ih => rw [leBytes, List.length_cons, ih]

/-- Rows of one length, one after the other, by the place in them all. -/
theorem flatMap_range_map {α : Type} (w : Nat) (h : Nat → Nat → α) (n : Nat) :
    ((List.range n).flatMap fun j => (List.range w).map (h j)) = (List.range (w * n)).map fun m => h (m / w) (m % w) := by
  induction n with
  | zero => rfl
  | succ n ih =>
    rw [List.range_succ, List.flatMap_append, ih, Nat.mul_succ, List.range_add, List.map_append, List.flatMap_singleton, List.map_map]
    refine congrArg _ (List.map_congr_left fun q hq => ?_)
    have hq := List.mem_range.mp hq
    rw [Function.comp_apply, Nat.mul_add_div (by omega), Nat.div_eq_of_lt hq, Nat.add_zero, Nat.mul_add_mod, Nat.mod_eq_of_lt hq]

end Sys2Proof.Machine
end

/-! ## Streams (08 R202, R203) -/
section
namespace Sys2Proof.Machine

open Sys2Proof

/-! ### SOPEN -/

section Open

variable {a : BitVec 4} {i : BitVec 2} {s : State}

/-- SOPEN of a stream number that is open. -/
theorem exec_sopen_opened (h : (s.stream i).opened = true) : exec (.sopen a i) s = .next (takeTrap (streamTrap s i (s.getS a)) s) :=
  if_pos h

variable (h : (s.stream i).opened = false)

include h

/-- SOPEN whose descriptor's address is refused opens the stream in error. -/
theorem exec_sopen_badAddress {e : Trap} (hplace : spanPlace .read (s.getS a) 16 1 3 a.toNat s = .error e) : exec (.sopen a i) s
    = .next (advance 4 (setStream i { opened := true, error := true, desc := s.getS a } (retireTrap e s))) := by
  change execSopen a i s = _
  simp only [execSopen, h, hplace, Bool.false_eq_true, if_false]

variable {ls : List Loc} {s1 : State} (hplace : spanPlace .read (s.getS a) 16 1 3 a.toNat s = .ok (ls, s1))

include hplace

/-- SOPEN whose descriptor meets a data error opens the stream in error. -/
theorem exec_sopen_badData {e : Trap} (hdata : checkData (s.getS a) ls s1 = .error e) : exec (.sopen a i) s
    = .next (advance 4 (setStream i { opened := true, error := true, desc := s.getS a } (retireTrap e s1))) := by
  change execSopen a i s = _
  simp only [execSopen, h, hplace, hdata, Bool.false_eq_true, if_false]

/-- SOPEN whose descriptor comes behind something else holds its thread. -/
theorem exec_sopen_held {u : State} (hdata : checkData (s.getS a) ls s1 = .ok u) (hblocked : readBlocked (beforeReading ls u) ls = true) :
    exec (.sopen a i) s = .next (holdForWork (blockingWork ls (beforeReading ls u)) (beforeReading ls u)) := by
  change execSopen a i s = _
  simp only [execSopen, h, hplace, hdata, hblocked, Bool.false_eq_true, if_false, if_true]

/-- SOPEN that reads its descriptor opens the stream to the target that it names, or in error. -/
theorem exec_sopen_reads {bs : List Byte} {s3 : State} (hreads : ReadsNow (s.getS a) ls s1 bs s3) : exec (.sopen a i) s
    = .next (advance 4 (match streamTarget s3 bs with
      | none => setStream i { opened := true, error := true, desc := s.getS a } s3
      | some (tgt, dcb) => (setStream i { opened := true, tgt := tgt, dcb := dcb, desc := s.getS a, route := s3.fresh }
          { s3 with fresh := s3.fresh + 1 }).send s3.th.id (.openFlit tgt dcb s3.fresh))) := by
  obtain ⟨u, hdata, hfree, hread⟩ := hreads
  change execSopen a i s = _
  simp only [execSopen, h, hplace, hdata, hfree, hread, Bool.false_eq_true, if_false]
  cases streamTarget s3 bs with
  | none => rfl
  | some t => rfl

end Open

/-- A stream just set. -/
@[simp] theorem stream_setStream (i : BitVec 2) (x : Stream) (s : State) : (setStream i x s).stream i = x :=
  Vector.getElem_set_self ..

/-! ### The use of a stream -/

section Use

variable {i : BitVec 2} {s : State} {go : Stream → Outcome}

/-- The use of a stream that is not open. -/
theorem usedStream_unopened (h : (s.stream i).opened = false) : usedStream i s go = .next (takeTrap (streamTrap s i 0) s) := by
  simp only [usedStream, h, Bool.not_false, if_true]

variable (h : (s.stream i).opened = true)

include h

/-- The use of a stream in error closes it. -/
theorem usedStream_error (herr : (s.stream i).error = true) :
    usedStream i s go = .next (takeTrap (streamTrap s i (s.stream i).desc) (setStream i {} s)) := by
  simp only [usedStream, h, herr, Bool.not_true, Bool.false_eq_true, if_false, if_true]

/-- The use of a stream that is open. -/
theorem usedStream_open (herr : (s.stream i).error = false) : usedStream i s go = go (s.stream i) := by
  simp only [usedStream, h, herr, Bool.not_true, Bool.false_eq_true, if_false]

end Use

section Instructions

variable (i : BitVec 2) (a : BitVec 4) (k : BitVec 3) (c : BitVec 4) (s : State)

/-- SCLOSE uses a stream, which closes. -/
theorem exec_sclose : exec (.sclose i) s = usedStream i s fun _ => .next (advance 4 (closeStream i.toNat s)) := rfl

/-- The flits of an SSEND, four for each of its registers (08 R203). -/
def sentFlits : List (List Byte) := (List.range (c.toNat + 1)).flatMap fun j => slotFlits (s.getV (a + BitVec.ofNat 4 j)) (s.getK k)

/-- SSEND uses a stream, to which it sends its flits where the outbound deck has room. -/
theorem exec_ssend : exec (.ssend i a k c) s = usedStream i s fun x =>
    if 8 < c.toNat + 1 then .next (takeTrap { cause := 9, fidx := 5, fval := s.fieldOf 5, v := BitVec.ofNat 64 (c.toNat + 1) } s)
    else if outboundFree s x < c.toNat + 1 then .next (waitFor (.ssend i.toNat (c.toNat + 1)) s)
    else .next (advance 4 ((sentFlits a k c s).foldl (fun s f => s.sendRelease 3 (.flit x.tgt x.dcb x.route f)) s)) := rfl

/-- Both use a stream. -/
theorem exec_usedStream : ∀ p ∈ [Instr.sclose i, .ssend i a k c], ∃ go, exec p s = usedStream i s go := by
  simp only [List.forall_mem_cons, List.not_mem_nil, false_implies, implies_true, and_true]
  exact ⟨⟨_, exec_sclose i s⟩, ⟨_, exec_ssend i a k c s⟩⟩

end Instructions

/-- A stream that is open and not in error closes with its marker, and its number is free. -/
theorem closeStream_open {i : BitVec 2} {s : State} (h : (s.stream i).opened = true) (herr : (s.stream i).error = false) :
    closeStream i.toNat s = setStream i {} (s.send s.th.id (.closeFlit (s.stream i).tgt (s.stream i).dcb (s.stream i).route)) := by
  have hfind : s.th.streams.toList[i.toNat]? = some (s.stream i) := by
    simp [State.stream, i.isLt]
  have hset : ∀ v : Vector Stream 4, v.setIfInBounds i.toNat {} = v.set i.toNat {} i.isLt := fun v => 
    Vector.ext fun j hj => by simp [Vector.getElem_set, Vector.getElem_setIfInBounds]
  simp only [closeStream, hfind, h, herr, Bool.not_false, Bool.and_self, if_true, setStream, hset]

/-! ### Flits -/

/-- Messages of the focus thread that are releases, one after the other. -/
theorem foldl_sendRelease {α : Type} (scope : Nat) (body : α → Msg) (xs : List α) (s : State) :
    xs.foldl (fun s x => s.sendRelease scope (body x)) s = { s with
      fresh := s.fresh + xs.length
      msgs := s.msgs ++ xs.mapIdx fun j x => ⟨s.fresh + j, s.th.id, s.th.core + 1, some scope, body x⟩ } := by
  induction xs generalizing s with
  | nil => simp
  | cons x xs ih =>
    rw [List.foldl_cons, ih, List.mapIdx_cons]
    simp [State.sendRelease, Nat.add_assoc, Nat.add_comm 1]

/-- Flit q of the slot that a register fills (08 R203). -/
def slotFlit (v : VWord) (k : KWord) (q : Nat) : List Byte := ((leBytes 128 (v &&& elemMask 32 k).toNat).drop (32 * q)).take 32

/-- A flit holds a quarter of the enabled lanes. -/
theorem leNat_slotFlit (v : VWord) (k : KWord) (q : Nat) :
    leNat (slotFlit v k q) = (v &&& elemMask 32 k).toNat / 2 ^ (256 * q) % 2 ^ 256 := by
  rw [slotFlit, leNat_take, leNat_drop, leNat_leBytes, Nat.mod_eq_of_lt (toNat_lt_pow_256 (m := 128) _ rfl),
    pow_256, pow_256, ← Nat.mul_assoc]

/-- The flits of an SSEND by their places. -/
theorem sentFlits_eq (a : BitVec 4) (k : BitVec 3) (c : BitVec 4) (s : State) : sentFlits a k c s
    = (List.range (4 * (c.toNat + 1))).map fun j => slotFlit (s.getV (a + BitVec.ofNat 4 (j / 4))) (s.getK k) (j % 4) :=
  flatMap_range_map 4 (fun j q => slotFlit (s.getV (a + BitVec.ofNat 4 j)) (s.getK k) q) (c.toNat + 1)

/-- The messages of an SSEND, in the order of its flits. -/
def flitMessages (x : Stream) (a : BitVec 4) (k : BitVec 3) (c : BitVec 4) (s : State) : List Envelope :=
  (sentFlits a k c s).mapIdx fun j f => ⟨s.fresh + j, s.th.id, s.th.core + 1, some 3, .flit x.tgt x.dcb x.route f⟩

/-- Four messages for each register. -/
theorem length_flitMessages (x : Stream) (a : BitVec 4) (k : BitVec 3) (c : BitVec 4) (s : State) :
    (flitMessages x a k c s).length = 4 * (c.toNat + 1) := by
  rw [flitMessages, List.length_mapIdx, sentFlits_eq, List.length_map, List.length_range]

/-- What a message of an SSEND is. -/
theorem flitMessages_get {x : Stream} {a : BitVec 4} {k : BitVec 3} {c : BitVec 4} {s : State} {j : Nat} {e : Envelope}
    (h : (flitMessages x a k c s)[j]? = some e) : e = ⟨s.fresh + j, s.th.id, s.th.core + 1, some 3,
      .flit x.tgt x.dcb x.route (slotFlit (s.getV (a + BitVec.ofNat 4 (j / 4))) (s.getK k) (j % 4))⟩ := by
  rw [flitMessages, sentFlits_eq, List.getElem?_mapIdx, List.getElem?_map, Option.map_map, Option.map_eq_some_iff] at h
  obtain ⟨m, hm, rfl⟩ := h
  obtain ⟨hj, hget⟩ := List.getElem?_eq_some_iff.mp hm
  rw [← hget, List.getElem_range]
  rfl

/-! ### Routes -/

section Arrival

variable {s : State} {e : Envelope} {core dcb r : Nat} (ha : arrived s s.arg.a = some e)

include ha

/-- An opening flit takes the route of a deck that none holds (08 R202). -/
theorem exec_streamOpenFlit_takes (hb : e.body = .openFlit core dcb r) (hfree : ∀ y ∈ (s.core core).routes, y.dcb ≠ dcb) :
    exec .streamOpenFlit s = .next (dropMsg e.seq (s.setCore core { s.core core with routes := (s.core core).routes ++ [⟨dcb, r, [], 0⟩] })) := by
  have hnone : ((s.core core).routes.any fun x => decide (x.dcb = dcb)) = false := by simpa using hfree
  change execStreamOpenFlit s = _
  simp only [execStreamOpenFlit, ha, hb, hnone, Bool.false_eq_true, if_false]

/-- An opening flit waits for the route of a deck that another holds. -/
theorem exec_streamOpenFlit_waits (hb : e.body = .openFlit core dcb r) (hheld : ∃ y ∈ (s.core core).routes, y.dcb = dcb) :
    exec .streamOpenFlit s = .next (dropMsg e.seq (s.setCore core { s.core core with claims := (s.core core).claims ++ [(dcb, r)] })) := by
  have hsome : ((s.core core).routes.any fun x => decide (x.dcb = dcb)) = true := by simpa using hheld
  change execStreamOpenFlit s = _
  simp only [execStreamOpenFlit, ha, hb, hsome, if_true]

/-- A flit lands where its route holds the deck and a slot is free. -/
theorem exec_streamFlitLand {bs : List Byte} (hb : e.body = .flit core dcb r bs) : exec .streamFlitLand s
    = .next (if holdsRoute s core dcb r = true ∧ 0 < (unitDeck true core dcb s).room
        then dropMsg e.seq (replayed core dcb (landBytes e.tid core dcb bs s)) else s) := by
  change execStreamFlitLand s = _
  simp only [execStreamFlitLand, ha, hb, Bool.and_eq_true, decide_eq_true_eq]
  split <;> rfl

variable {y : Route} (hb : e.body = .closeFlit core dcb r) (hroute : holdsRoute s core dcb r = true)
  (hy : (s.core core).routes.find? (fun y => y.dcb = dcb) = some y)

include hb hroute hy

/-- A closing marker behind a partly filled slot waits for a free slot, which it publishes. -/
theorem exec_streamCloseMarker_partial (hn : y.bytes.length ≠ 0) : exec .streamCloseMarker s
    = .next (if 0 < (unitDeck true core dcb s).room then pulseMarker core dcb (dropMsg e.seq (freeRoute core dcb
        (landBytes e.tid core dcb (zeroBytes ((deckAt core dcb s).size - y.bytes.length)) s))) else s) := by
  change execStreamCloseMarker s = _
  simp only [execStreamCloseMarker, ha, hb, hroute, hy, Option.map_some, Option.getD_some, Bool.true_and, if_neg hn, decide_eq_false hn, Bool.false_or, decide_eq_true_eq]
  split <;> rfl

/-- A closing marker behind whole slots frees the route. -/
theorem exec_streamCloseMarker_whole (hn : y.bytes.length = 0) : exec .streamCloseMarker s
    = .next (pulseMarker core dcb (dropMsg e.seq (freeRoute core dcb s))) := by
  change execStreamCloseMarker s = _
  simp only [execStreamCloseMarker, ha, hb, hroute, hy, Option.map_some, Option.getD_some, hn, decide_true, Bool.true_and, Bool.true_or, if_true]

end Arrival

/-- A pulse is a message, if it is anything. -/
theorem pulse_frame (unit g line : Nat) (s : State) :
    s.pulse unit g line = { s with msgs := (s.pulse unit g line).msgs, fresh := (s.pulse unit g line).fresh } := by
  simp only [State.pulse]
  split <;> rfl

/-- The pulses of a closing marker leave the focus thread, the cores and memory. -/
theorem pulseMarker_frame (core dcb : Nat) (s : State) : (pulseMarker core dcb s).th = s.th ∧ (pulseMarker core dcb s).cores = s.cores
    ∧ (pulseMarker core dcb s).dram = s.dram := by
  unfold pulseMarker
  refine List.foldlRecOn (motive := fun t : State => t.th = s.th ∧ t.cores = s.cores ∧ t.dram = s.dram) _ _ ⟨rfl, rfl, rfl⟩ fun t ht j _ => ?_
  dsimp only
  split
  · rw [pulse_frame]
    exact ht
  · exact ht

/-- Freeing a route changes one core's record. -/
theorem freeRoute_eq (core dcb : Nat) (s : State) : ∃ c : Core, freeRoute core dcb s = s.setCore core c := by
  simp only [freeRoute]
  split <;> exact ⟨_, rfl⟩

/-- The route of a deck is free where no opening flit waits for it. -/
theorem freeRoute_unclaimed {core dcb : Nat} {s : State} (h : ∀ p ∈ (s.core core).claims, p.1 ≠ dcb) :
    ((freeRoute core dcb s).core core).routes = (s.core core).routes.filter fun y => y.dcb ≠ dcb := by
  have hnone : (s.core core).claims.find? (fun p => p.1 = dcb) = none := by simpa using h
  simp only [freeRoute, hnone, State.core_setCore_self]

/-- The first opening flit that waits for the route of a deck takes it. -/
theorem freeRoute_claimed {core dcb : Nat} {s : State} {p : Nat × Nat} (h : (s.core core).claims.find? (fun p => p.1 = dcb) = some p) :
    ((freeRoute core dcb s).core core).routes = (s.core core).routes.filter (fun y => y.dcb ≠ dcb) ++ [⟨dcb, p.2, [], 0⟩]
      ∧ ((freeRoute core dcb s).core core).claims = (s.core core).claims.erase p := by
  simp only [freeRoute, h, State.core_setCore_self, and_self]

/-! ### The obligation -/

/-- Settles O42: SOPEN by what it meets, the uses of a stream, and the flits as they land. -/
theorem streamForms : Obligations.StreamForms := by
  refine ⟨fun a i k c s => ⟨fun hopen => traps_of_takeTrap (exec_sopen_opened hopen) rfl,
      fun hclosed => ⟨fun e hplace => past_of_advance (exec_sopen_badAddress hclosed hplace),
        fun ls s1 e hplace hdata => past_of_advance (exec_sopen_badData hclosed hplace hdata),
        fun ls s1 u hplace hdata => exec_sopen_held hclosed hplace hdata, fun ls s1 bs s3 hplace hreads => ?reads⟩,
      fun p hp => ?use, fun hopen herr => ⟨?close, ?beyond, ?wait, ?sends⟩⟩,
    fun s e core dcb r ha => ⟨fun hb => ⟨exec_streamOpenFlit_takes ha hb, exec_streamOpenFlit_waits ha hb⟩, fun bs hb => ?land,
      fun hb hroute y hy => ?marker⟩⟩
  case reads =>
    intro tgt dcb
    have hexec := exec_sopen_reads hclosed hplace hreads
    refine ⟨fun hbad => ?_, fun hgood => ?_⟩
    · have htarget : streamTarget s3 bs = none := if_neg (by rw [hbad]; exact Bool.false_ne_true)
      rw [htarget] at hexec
      exact past_of_advance hexec
    · have htarget : streamTarget s3 bs = some (tgt, dcb) := if_pos hgood
      rw [htarget] at hexec
      exact ⟨_, past_of_advance hexec, stream_setStream .., ⟨_, rfl⟩, rfl⟩
  case use =>
    obtain ⟨go, hexec⟩ := exec_usedStream i a k c s p hp
    refine ⟨fun hclosed => ?_, fun hopen herr => ?_⟩
    · exact traps_of_takeTrap (hexec.trans (usedStream_unopened hclosed)) rfl
    · exact traps_of_takeTrap (hexec.trans (usedStream_error hopen herr)) rfl
  case close =>
    have hexec := (exec_sclose i s).trans (usedStream_open hopen herr)
    rw [closeStream_open hopen herr] at hexec
    exact ⟨_, past_of_advance hexec, stream_setStream .., ⟨_, rfl⟩, rfl⟩
  case beyond =>
    intro hn
    exact traps_of_takeTrap ((exec_ssend i a k c s).trans ((usedStream_open hopen herr).trans (if_pos hn))) rfl
  case wait =>
    intro hn hroom
    have hexec := (exec_ssend i a k c s).trans (usedStream_open hopen herr)
    rwa [if_neg (Nat.not_lt.mpr hn), if_pos hroom] at hexec
  case sends =>
    intro hn hroom
    have hexec := (exec_ssend i a k c s).trans (usedStream_open hopen herr)
    rw [if_neg (Nat.not_lt.mpr hn), if_neg (Nat.not_lt.mpr hroom), foldl_sendRelease] at hexec
    refine ⟨_, hexec, flitMessages (s.stream i) a k c s, rfl, length_flitMessages .., rfl, ?_, ?_, fun j m hm => ?_⟩
    · rw [(movesPast_advance 4 _).1]
    · rw [(movesPast_advance 4 _).1]
    · rw [flitMessages_get hm]
      exact ⟨rfl, rfl, rfl, _, rfl, leNat_slotFlit ..⟩
  case land =>
    have hexec := exec_streamFlitLand ha hb
    refine ⟨fun hroute hroom => hexec.trans ?_, fun hnot => hexec.trans ?_⟩
    · rw [if_pos ⟨hroute, hroom⟩]
    · rw [if_neg]
      rintro ⟨hroute, hroom⟩
      obtain hno | hfull := hnot
      · simp [hroute] at hno
      · omega
  case marker =>
    intro n room
    refine ⟨fun hn hfull => ?_, fun hn hroom => ?_, fun hn => ⟨_, exec_streamCloseMarker_whole ha hb hroute hy hn, ?_⟩⟩
    · rw [exec_streamCloseMarker_partial ha hb hroute hy hn, if_neg hfull]
    · rw [exec_streamCloseMarker_partial ha hb hroute hy hn, if_pos hroom]
    · obtain ⟨hth, hcores, hdram⟩ := pulseMarker_frame core dcb (dropMsg e.seq (freeRoute core dcb s))
      obtain ⟨c, hc⟩ := freeRoute_eq core dcb s
      have hcore : (pulseMarker core dcb (dropMsg e.seq (freeRoute core dcb s))).core core = (freeRoute core dcb s).core core := by
        simp only [State.core, hcores, dropMsg_cores]
      rw [hth, hdram, hcore]
      exact ⟨by simp [hc], by simp [hc], freeRoute_unclaimed, fun p hp => freeRoute_claimed hp⟩

end Sys2Proof.Machine
end

/-! ## Elements as bytes (03 R53, 08 R197) -/
section
namespace Sys2Proof.Machine

open Sys2Proof

/-! ### Formats -/

/-- Bits of an element of a format in memory, where FP6 is packed (03 R53). -/
def Fmt.memBits (f : Fmt) : Nat := if f = .fp6 then 6 else f.width

/-- Elements of the smallest whole group of a format in memory. -/
def Fmt.groupElems (f : Fmt) : Nat := if f = .fp6 then 4 else 1

/-- A group has the bits of its elements. -/
theorem Fmt.groupBits (f : Fmt) : 8 * f.groupBytes = f.memBits * f.groupElems := by cases f <;> rfl

/-- A group has bytes. -/
theorem Fmt.groupBytes_pos (f : Fmt) : 0 < f.groupBytes := by cases f <;> decide

/-- A group has elements. -/
theorem Fmt.groupElems_pos (f : Fmt) : 0 < f.groupElems := by cases f <;> decide

/-- An element has bits. -/
theorem Fmt.memBits_pos (f : Fmt) : 0 < f.memBits := by cases f <;> decide

section Plain

variable {f : Fmt} (h : f ≠ .fp6)

include h

/-- An element of a format other than FP6 has whole bytes. -/
theorem Fmt.memBits_plain : f.memBits = 8 * f.groupBytes := by
  cases f with
  | fp6 => exact absurd rfl h
  | f32 | f16 | bf16 | e4m3 | e5m2 | sap8 | i8 | i32 => rfl

/-- An element of a format other than FP6 is a group. -/
theorem Fmt.groupElems_plain : f.groupElems = 1 := if_neg h

/-- Elements of a format other than FP6. -/
theorem bytesToElems_plain (bs : List Byte) :
    bytesToElems f bs = (List.range (bs.length / f.groupBytes)).map fun i => leField bs (f.groupBytes * i) f.groupBytes := by
  cases f with
  | fp6 => exact absurd rfl h
  | f32 | f16 | bf16 | e4m3 | e5m2 | sap8 | i8 | i32 => rfl

/-- Bytes of elements of a format other than FP6. -/
theorem elemsToBytes_plain (es : List Nat) : elemsToBytes f es = es.flatMap fun e => leBytes f.groupBytes e := by
  cases f with
  | fp6 => exact absurd rfl h
  | f32 | f16 | bf16 | e4m3 | e5m2 | sap8 | i8 | i32 => rfl

/-- Bytes of elements that are a group each. -/
theorem Fmt.bytesFor_plain (n : Nat) : f.bytesFor n = n * f.groupBytes := by
  cases f with
  | fp6 => exact absurd rfl h
  | f32 | f16 | bf16 | e4m3 | e5m2 | sap8 | i8 | i32 => rfl

end Plain

/-! ### Bytes to elements -/

/-- The elements of n bits of a number, lowest first. -/
def bitElems (w n x : Nat) : List Nat := (List.range n).map fun i => x / 2 ^ (w * i) % 2 ^ w

/-- The elements of a number whose low bits are given apart. -/
theorem bitElems_add (w m n x : Nat) : bitElems w (m + n) x = bitElems w m x ++ bitElems w n (x / 2 ^ (w * m)) := by
  simp only [bitElems, List.range_add, List.map_append, List.map_map]
  refine congrArg _ (List.map_congr_left fun i _ => ?_)
  rw [Function.comp_apply, Nat.mul_add, Nat.pow_add, Nat.div_div_eq_div_mul]

/-- Packed FP6 elements are the 6-bit elements of the bytes. -/
theorem unpackFp6_eq (bs : List Byte) : unpackFp6 bs = bitElems 6 (bs.length / 3 * 4) (leNat bs) := by
  induction bs using unpackFp6.induct with
  | case1 b0 b1 b2 rest ih =>
    have hcount : (b0 :: b1 :: b2 :: rest).length / 3 * 4 = 4 + rest.length / 3 * 4 := by
      simp only [List.length_cons]
      omega
    have h0 : b0.toNat < 256 := b0.isLt
    have h1 : b1.toNat < 256 := b1.isLt
    have h2 : b2.toNat < 256 := b2.isLt
    have hhigh : leNat (b0 :: b1 :: b2 :: rest) / 2 ^ (6 * 4) = leNat rest := by
      simp only [leNat]
      omega
    rw [hcount, bitElems_add, hhigh, unpackFp6, ih]
    simp only [bitElems, List.range, List.range.loop, List.map_cons, List.map_nil, leNat, List.cons_append, List.nil_append, List.cons.injEq, and_true]
    omega
  | case2 bs h =>
    match bs with
    | [] | [_] | [_, _] => simp [unpackFp6, bitElems]
    | b0 :: b1 :: b2 :: rest => exact absurd rfl (h b0 b1 b2 rest)

/-- The elements of bytes are those of their bits, a group at a time. -/
theorem bytesToElems_eq (f : Fmt) (bs : List Byte) :
    bytesToElems f bs = bitElems f.memBits (bs.length / f.groupBytes * f.groupElems) (leNat bs) := by
  by_cases hf : f = .fp6
  · subst hf
    exact unpackFp6_eq bs
  · rw [bytesToElems_plain hf, Fmt.groupElems_plain hf, Nat.mul_one, bitElems, Fmt.memBits_plain hf]
    refine List.map_congr_left fun i _ => ?_
    rw [leField_eq, pow_256, pow_256, Nat.mul_assoc]

/-- As many elements as whole groups have. -/
theorem length_bytesToElems (f : Fmt) (bs : List Byte) : (bytesToElems f bs).length = bs.length / f.groupBytes * f.groupElems := by
  rw [bytesToElems_eq, bitElems, List.length_map, List.length_range]

/-- An element of whole groups of bytes is a part of their number (08 R197). -/
theorem getElem?_bytesToElems {f : Fmt} {bs : List Byte} {i : Nat} (hwhole : bs.length % f.groupBytes = 0)
    (hi : f.memBits * (i + 1) ≤ 8 * bs.length) :
    (bytesToElems f bs)[i]? = some (leNat bs / 2 ^ (f.memBits * i) % 2 ^ f.memBits) := by
  have hbits : 8 * bs.length = f.memBits * (bs.length / f.groupBytes * f.groupElems) := by
    calc 8 * bs.length = 8 * (f.groupBytes * (bs.length / f.groupBytes)) := by rw [Nat.mul_div_cancel' (Nat.dvd_of_mod_eq_zero hwhole)]
      _ = _ := by rw [← Nat.mul_assoc, Fmt.groupBits, Nat.mul_assoc, Nat.mul_comm f.groupElems]
  have hlt : i < bs.length / f.groupBytes * f.groupElems := Nat.le_of_mul_le_mul_left (hbits ▸ hi) f.memBits_pos
  rw [bytesToElems_eq, bitElems, List.getElem?_map, List.getElem?_range hlt, Option.map_some]

/-! ### Elements to bytes -/

/-- Bytes one after the other hold the first ones in the low part. -/
theorem leNat_append (as bs : List Byte) : leNat (as ++ bs) = leNat as + 256 ^ as.length * leNat bs := by
  induction as with
  | nil => simp [leNat]
  | cons a as ih =>
    rw [List.cons_append, leNat, leNat, ih, List.length_cons, Nat.pow_succ']
    ring

/-- Whole groups of FP6 elements are packed into three bytes each, in the order of their bits. -/
theorem packFp6_eq (es : List Nat) (h : es.length % 4 = 0) :
    (packFp6 es).length = es.length / 4 * 3 ∧ leNat (packFp6 es) = packElems 6 es := by
  induction es using packFp6.induct with
  | case1 e0 e1 e2 e3 rest ih =>
    obtain ⟨hlen, hnum⟩ := ih (by simp only [List.length_cons] at h; omega)
    rw [packFp6, leNat_append, leNat_leBytes, List.length_append, length_leBytes, hlen, hnum]
    simp only [packElems, List.length_cons]
    omega
  | case2 es hno =>
    match es with
    | [] => exact ⟨rfl, rfl⟩
    | [_] | [_, _] | [_, _, _] => simp at h
    | e0 :: e1 :: e2 :: e3 :: rest => exact absurd rfl (hno e0 e1 e2 e3 rest)

/-- Elements of whole bytes are written in the order of their bits. -/
theorem flatMap_leBytes_eq (n : Nat) (es : List Nat) :
    (es.flatMap fun e => leBytes n e).length = es.length * n ∧ leNat (es.flatMap fun e => leBytes n e) = packElems (8 * n) es := by
  induction es with
  | nil => exact ⟨(Nat.zero_mul n).symm, rfl⟩
  | cons e es ih =>
    obtain ⟨hlen, hnum⟩ := ih
    rw [List.flatMap_cons, leNat_append, leNat_leBytes, List.length_append, length_leBytes, hlen, hnum, pow_256]
    exact ⟨by rw [List.length_cons, Nat.succ_mul, Nat.add_comm], rfl⟩

/-- Whole groups of elements are written in the order of their bits. -/
theorem elemsToBytes_eq {f : Fmt} {es : List Nat} (h : es.length % f.groupElems = 0) :
    (elemsToBytes f es).length = es.length / f.groupElems * f.groupBytes ∧ leNat (elemsToBytes f es) = packElems f.memBits es := by
  by_cases hf : f = .fp6
  · subst hf
    exact packFp6_eq es h
  · rw [elemsToBytes_plain hf, Fmt.groupElems_plain hf, Nat.div_one, Fmt.memBits_plain hf]
    exact flatMap_leBytes_eq f.groupBytes es

/-- Whole groups of elements are read back as they were written, each in its bits. -/
theorem bytesToElems_elemsToBytes {f : Fmt} {es : List Nat} (h : es.length % f.groupElems = 0) :
    bytesToElems f (elemsToBytes f es) = es.map (· % 2 ^ f.memBits) := by
  obtain ⟨hlen, hnum⟩ := elemsToBytes_eq h
  rw [bytesToElems_eq, hlen, hnum, Nat.mul_div_cancel _ f.groupBytes_pos, Nat.div_mul_cancel (Nat.dvd_of_mod_eq_zero h), bitElems]
  refine List.ext_getElem (by simp) fun i hi _ => ?_
  have hi : i < es.length := by simpa using hi
  rw [List.getElem_map, List.getElem_map, List.getElem_range, packElems_elem, List.getD_eq_getElem _ _ hi]

end Sys2Proof.Machine
end

/-! ## The conversion of a copy (08 R197) -/
section
namespace Sys2Proof.Machine

open Sys2Proof

section Conversion

variable {c : CopyCmd}

/-- A copy to the same format changes nothing. -/
theorem convertBytes_same (h : c.sfmt = c.dfmt) (bs : List Byte) : convertBytes c bs = (bs, 0) := if_pos h

/-- The smallest group of a copy to the same format. -/
theorem CopyCmd.group_same (h : c.sfmt = c.dfmt) : c.group = (c.sfmt.groupBytes, c.sfmt.groupBytes) := if_pos h

/-- An element as a copy to another format leaves it: scaled by 2^K, clamped and rounded once. -/
def convertedElem (c : CopyCmd) (x : Nat) : Nat × Flags :=
  finishNum c.dfmt (Mode.ofCode (c.f 42 1 % 8)) 0 { scale := signedOf 8 (c.f 44 1), sat := 1 } (decodeNum c.sfmt x)

section Other

variable (h : c.sfmt ≠ c.dfmt)

include h

/-- A copy to another format converts element by element. -/
theorem convertBytes_other (bs : List Byte) : convertBytes c bs
    = (elemsToBytes c.dfmt (((bytesToElems c.sfmt bs).map (convertedElem c)).map (·.1)),
        ((bytesToElems c.sfmt bs).map (convertedElem c)).foldl (fun f o => f ||| o.2) 0) := if_neg h

/-- The smallest group of a copy to another format is whole groups of both formats, with the same elements. -/
theorem CopyCmd.group_other : ∃ m n, 0 < m ∧ 0 < n ∧ c.group = (m * c.sfmt.groupBytes, n * c.dfmt.groupBytes)
    ∧ m * c.sfmt.groupElems = n * c.dfmt.groupElems := by
  by_cases hs : c.sfmt = .fp6
  · have hd : c.dfmt ≠ .fp6 := fun hd => h (hs.trans hd.symm)
    refine ⟨1, 4, by decide, by decide, ?_, by rw [Fmt.groupElems_plain hd, hs]; rfl⟩
    rw [CopyCmd.group, if_neg h, if_pos (by simp [hs]), Fmt.bytesFor_plain hd, hs]
    rfl
  · by_cases hd : c.dfmt = .fp6
    · refine ⟨4, 1, by decide, by decide, ?_, by rw [Fmt.groupElems_plain hs, hd]; rfl⟩
      rw [CopyCmd.group, if_neg h, if_pos (by simp [hd]), Fmt.bytesFor_plain hs, hd]
      rfl
    · refine ⟨1, 1, by decide, by decide, ?_, by rw [Fmt.groupElems_plain hs, Fmt.groupElems_plain hd]⟩
      rw [CopyCmd.group, if_neg h, if_neg (by simp [hs, hd]), Nat.one_mul, Nat.one_mul]

variable {bs : List Byte} (hwhole : bs.length % c.group.1 = 0)

include hwhole

/-- Whole groups of source bytes hold whole groups of the destination's elements, which take the converted bytes. -/
theorem length_elems_of_wholeGroups : (bytesToElems c.sfmt bs).length % c.dfmt.groupElems = 0
    ∧ (bytesToElems c.sfmt bs).length / c.dfmt.groupElems * c.dfmt.groupBytes = bs.length / c.group.1 * c.group.2 := by
  obtain ⟨m, n, hm, -, hgroup, helems⟩ := CopyCmd.group_other h
  obtain ⟨q, hq⟩ := Nat.dvd_of_mod_eq_zero hwhole
  rw [hgroup] at hq ⊢
  have hcount : (bytesToElems c.sfmt bs).length = q * n * c.dfmt.groupElems := by
    calc (bytesToElems c.sfmt bs).length = m * q * c.sfmt.groupBytes / c.sfmt.groupBytes * c.sfmt.groupElems := by
          rw [length_bytesToElems, hq, Nat.mul_right_comm m]
      _ = q * (m * c.sfmt.groupElems) := by rw [Nat.mul_div_cancel _ c.sfmt.groupBytes_pos]; ring
      _ = q * n * c.dfmt.groupElems := by rw [helems, Nat.mul_assoc]
  rw [hcount, hq, Nat.mul_div_cancel_left _ (Nat.mul_pos hm c.sfmt.groupBytes_pos), Nat.mul_div_cancel _ c.dfmt.groupElems_pos]
  exact ⟨Nat.mul_mod_left _ _, Nat.mul_assoc _ _ _⟩

/-- As many bytes as the source's groups become. -/
theorem length_convertBytes : (convertBytes c bs).1.length = bs.length / c.group.1 * c.group.2 := by
  obtain ⟨hdvd, hlen⟩ := length_elems_of_wholeGroups h hwhole
  rw [convertBytes_other h, (elemsToBytes_eq (by simpa using hdvd)).1, List.length_map, List.length_map, hlen]

/-- The destination's elements are the source's, each converted. -/
theorem bytesToElems_convertBytes : bytesToElems c.dfmt (convertBytes c bs).1
    = (bytesToElems c.sfmt bs).map fun x => (convertedElem c x).1 % 2 ^ c.dfmt.memBits := by
  obtain ⟨hdvd, -⟩ := length_elems_of_wholeGroups h hwhole
  rw [convertBytes_other h, bytesToElems_elemsToBytes (by simpa using hdvd), List.map_map, List.map_map]
  rfl

end Other

/-- The flags of a conversion are those of all its elements. -/
theorem getLsbD_convertBytes (h : c.sfmt ≠ c.dfmt) (bs : List Byte) (b : Nat) :
    (convertBytes c bs).2.getLsbD b = true ↔ ∃ x ∈ bytesToElems c.sfmt bs, (convertedElem c x).2.getLsbD b = true := by
  rw [convertBytes_other h, getLsbD_foldl_or fun o : Nat × Flags => o.2]
  simp

/-- The bytes of a source that are read whole become as many as the copy counts. -/
theorem length_convertBytes_converted {bs : List Byte} (hwhole : bs.length % c.group.1 = 0) :
    (convertBytes c bs).1.length = c.converted bs.length := by
  by_cases h : c.sfmt = c.dfmt
  · rw [CopyCmd.group_same h] at hwhole
    rw [convertBytes_same h, CopyCmd.converted, CopyCmd.group_same h, Nat.div_mul_cancel (Nat.dvd_of_mod_eq_zero hwhole)]
  · exact length_convertBytes h hwhole

/-- A group has bytes of the source and of the destination. -/
theorem CopyCmd.group_pos (c : CopyCmd) : 0 < c.group.1 ∧ 0 < c.group.2 := by
  by_cases h : c.sfmt = c.dfmt
  · rw [CopyCmd.group_same h]
    exact ⟨c.sfmt.groupBytes_pos, c.sfmt.groupBytes_pos⟩
  · obtain ⟨m, n, hm, hn, hgroup, -⟩ := CopyCmd.group_other h
    rw [hgroup]
    exact ⟨Nat.mul_pos hm c.sfmt.groupBytes_pos, Nat.mul_pos hn c.dfmt.groupBytes_pos⟩

end Conversion

end Sys2Proof.Machine
end

/-! ## The issue of a copy (08 R196) -/
section
namespace Sys2Proof.Machine

open Sys2Proof

/-! ### The claim of a tag -/

section Claim

variable {tag : Word} {fval : Nat} {s : State}

/-- A tag that is the thread's, not outstanding and not marked is claimed: its bit falls, and it is outstanding. -/
theorem claimTag_free (hown : s.th.ownsTag tag.toNat = true) (hout : s.myCore.tagOut.getLsbD tag.toNat = false)
    (herr : s.myCore.tagErr.getLsbD tag.toNat = false) : claimTag tag fval s = .ok (s.setCore s.th.core { s.myCore with
      ctb := s.myCore.ctb &&& ~~~BitVec.ofNat 64 (2 ^ tag.toNat)
      tagOut := s.myCore.tagOut ||| BitVec.ofNat 64 (2 ^ tag.toNat) }) := by
  simp only [claimTag, hown, hout, herr, Bool.not_false, need_true rfl, bitAt_true]
  rfl

/-- Any other tag takes the copy-command trap. -/
theorem claimTag_refused (h : ¬ (s.th.ownsTag tag.toNat = true ∧ s.myCore.tagOut.getLsbD tag.toNat = false
    ∧ s.myCore.tagErr.getLsbD tag.toNat = false)) :
    claimTag tag fval s = .error { cause := 0x0B, fidx := 4, fval := fval, v := tag } := by
  cases hown : s.th.ownsTag tag.toNat with
  | false =>
    simp only [claimTag, hown, need_false rfl]
    rfl
  | true =>
    cases hout : s.myCore.tagOut.getLsbD tag.toNat with
    | true =>
      simp only [claimTag, hown, hout, Bool.not_true, need_true rfl, need_false rfl]
      rfl
    | false =>
      cases herr : s.myCore.tagErr.getLsbD tag.toNat with
      | true =>
        simp only [claimTag, hown, hout, herr, Bool.not_true, Bool.not_false, need_true rfl, need_false rfl]
        rfl
      | false => exact absurd ⟨hown, hout, herr⟩ h

end Claim

/-! ### The command -/

/-- The command that a copy queues once its tag is claimed. -/
def copyCommand (twoD : Bool) (va tag : Word) (gran : BitVec 4) (pri : BitVec 2) (u : State) : CopyCmd where
  id := u.fresh
  block := va
  twoD := twoD
  tag := tag.toNat
  gran := gran.toNat
  pri := pri.toNat
  core := u.th.core
  slot := u.th.slot.toNat
  ttag := u.th.task.ttag
  pc := u.th.instrPc
  word := u.th.ir.word
  part := u.myPart
  priv := u.th.priv.toNat
  tid := u.th.id
  reg := (u.stand (standOfGrove (groveOfCore u.th.core))).regs

/-- A command behind those of its core's grove, in the order of its stand. -/
def withCopy (c : CopyCmd) (u : State) : State :=
  let grove := groveOfCore u.th.core
  let v := registerIn (standOfGrove grove) u
  v.setGrove grove { v.grove grove with copies := (v.grove grove).copies ++ [c] }

section Issue

variable {twoD : Bool} {a b gran : BitVec 4} {pri : BitVec 2} {s : State}

/-- A copy whose block is misaligned. -/
theorem queueCopy_misaligned (h : (s.getS a).toNat % 64 ≠ 0) : queueCopy twoD a b gran pri s
    = .next (takeTrap { cause := 2, fidx := 3, fval := a.toNat, a := s.getS a } s) := by
  simp only [queueCopy, need_false (decide_eq_false h)]
  rfl

variable (halign : (s.getS a).toNat % 64 = 0)

include halign

/-- A copy whose tag cannot be claimed. -/
theorem queueCopy_refused {tr : Trap} (hclaim : claimTag (s.getS b) b.toNat s = .error tr) :
    queueCopy twoD a b gran pri s = .next (takeTrap tr s) := by
  simp only [queueCopy, need_true (decide_eq_true halign), hclaim]
  rfl

/-- A copy whose tag is claimed is queued. -/
theorem queueCopy_claimed {u : State} (hclaim : claimTag (s.getS b) b.toNat s = .ok u) : queueCopy twoD a b gran pri s
    = .next (advance 4 (withCopy (copyCommand twoD (s.getS a) (s.getS b) gran pri u) u)) := by
  simp only [queueCopy, need_true (decide_eq_true halign), hclaim]
  rfl

end Issue

/-- CPY and CPY2 are queued alike. -/
theorem exec_copy (a b g : BitVec 4) (p : BitVec 2) (s : State) :
    ∀ q ∈ [(Instr.cpy a b p g, false), (.cpy2 a b p g, true)], exec q.1 s = queueCopy q.2 a b g p s := by
  simp only [List.forall_mem_cons, List.not_mem_nil, false_implies, implies_true, and_true]
  exact ⟨rfl, rfl⟩

end Sys2Proof.Machine
end

/-! ## The copy engine (08 R197, R198, 02 R49) -/
section
namespace Sys2Proof.Machine

open Sys2Proof

/-! ### The start of a command -/

section Start

variable {s : State} {c : CopyCmd} (hfind : (s.grove s.arg.a).copies.find? (fun x => x.id == s.arg.b) = some c)
  (hqueued : c.state = .queued)

include hfind hqueued

/-- A queued command whose block is not read reads it once what came before is performed. -/
theorem exec_copyCommandStart_unread (hbytes : c.bytes = []) : exec .copyCommandStart s
    = .next (if performedBefore s c.tid c.id 3 = true then readBlock s.arg.a c s else s) := by
  change execCopyCommandStart s = _
  simp only [execCopyCommandStart, hfind, hqueued, hbytes, bne_self_eq_false, Bool.false_eq_true, if_false, List.isEmpty_nil, if_true]
  split <;> rfl

variable (hbytes : c.bytes ≠ [])

include hbytes

/-- A command whose block is read starts where it is served first and outranks the running ones. -/
theorem exec_copyCommandStart_read : exec .copyCommandStart s
    = if ((firstCopy ((s.grove s.arg.a).copies.filter (startable s))).map (·.id) == some c.id
        && ((s.grove s.arg.a).copies.filter fun d => d.state == .running).all fun d => d.yieldsTo c.pri) = true
      then .next (putCopy s.arg.a { c with state := if c.total = 0 then .moved else .running } (syncStand (standOfGrove s.arg.a) s))
      else .next s := by
  change execCopyCommandStart s = _
  simp only [execCopyCommandStart, hfind, hqueued, bne_self_eq_false, Bool.false_eq_true, if_false, List.isEmpty_eq_false_iff.mpr hbytes]

/-- A command that is served first starts where every running one yields to it. -/
theorem exec_copyCommandStart_starts
    (hfirst : (firstCopy ((s.grove s.arg.a).copies.filter (startable s))).map (·.id) = some c.id)
    (hyield : ∀ d ∈ (s.grove s.arg.a).copies, d.state = .running → d.pri < c.pri ∧ d.gran ≠ 0 ∧ d.boundary = true) :
    exec .copyCommandStart s
      = .next (putCopy s.arg.a { c with state := if c.total = 0 then .moved else .running } (syncStand (standOfGrove s.arg.a) s)) := by
  have hall : (((s.grove s.arg.a).copies.filter fun d => d.state == .running).all fun d => d.yieldsTo c.pri) = true := by
    refine List.all_eq_true.mpr fun d hd => ?_
    obtain ⟨hmem, hrun⟩ := List.mem_filter.mp hd
    obtain ⟨hpri, hgran, hboundary⟩ := hyield d hmem (eq_of_beq hrun)
    simp [CopyCmd.yieldsTo, hpri, hgran, hboundary]
  rw [exec_copyCommandStart_read hfind hqueued hbytes, if_pos (by rw [hfirst, hall, beq_self_eq_true]; rfl)]

/-- A running command that does not yield keeps every other from starting. -/
theorem exec_copyCommandStart_held {d : CopyCmd} (hd : d ∈ (s.grove s.arg.a).copies) (hrun : d.state = .running)
    (hno : c.pri ≤ d.pri ∨ d.gran = 0 ∨ d.boundary = false) : exec .copyCommandStart s = .next s := by
  have hkeeps : d.yieldsTo c.pri = false := by
    rcases hno with hpri | hgran | hboundary
    · simp [CopyCmd.yieldsTo, Nat.not_lt.mpr hpri]
    · simp [CopyCmd.yieldsTo, hgran]
    · simp [CopyCmd.yieldsTo, hboundary]
  have hall : (((s.grove s.arg.a).copies.filter fun d => d.state == .running).all fun d => d.yieldsTo c.pri) = false :=
    List.all_eq_false.mpr ⟨d, List.mem_filter.mpr ⟨hd, beq_iff_eq.mpr hrun⟩, by simp [hkeeps]⟩
  rw [exec_copyCommandStart_read hfind hqueued hbytes, if_neg (by rw [hall, Bool.and_false]; exact Bool.false_ne_true)]

end Start

/-! ### The move and the completion -/

/-- The running command that is served first moves, where no startable one interrupts it. -/
theorem exec_copyGranule {s : State} {c : CopyCmd}
    (hfirst : firstCopy ((s.grove s.arg.a).copies.filter fun d => d.state == .running) = some c)
    (hno : ∀ d ∈ (s.grove s.arg.a).copies, startable s d = true → c.yieldsTo d.pri = false) :
    exec .copyGranule s = .next (movePiece s.arg.a c s) := by
  have hany : (((s.grove s.arg.a).copies.filter (startable s)).any fun d => c.yieldsTo d.pri) = false := by
    refine List.any_eq_false.mpr fun d hd => ?_
    obtain ⟨hmem, hstart⟩ := List.mem_filter.mp hd
    simp [hno d hmem hstart]
  change execCopyGranule s = _
  simp only [execCopyGranule, hfirst, hany, Bool.false_eq_true, if_false]

/-- A command whose data have moved leaves, and its tag completes. -/
theorem exec_copyComplete {s : State} {c : CopyCmd}
    (hfind : (s.grove s.arg.a).copies.find? (fun x => x.id == s.arg.b) = some c) (hmoved : c.state = .moved) :
    exec .copyComplete s = .next (leaveCopy s.arg.a c none s) := by
  change execCopyComplete s = _
  simp only [execCopyComplete, hfind, hmoved, beq_self_eq_true, if_true]

/-- What the completion of a tag leaves: the tag's bit is set, it is outstanding no more, and a pulse may be on its way. -/
theorem completeTag_frame (core tag : Nat) (s : State) :
    ∃ m n, completeTag core tag none s = { s.setCore core { s.core core with
        ctb := (s.core core).ctb ||| BitVec.ofNat 64 (2 ^ tag)
        tagOut := (s.core core).tagOut &&& ~~~BitVec.ofNat 64 (2 ^ tag) } with msgs := m, fresh := n } := by
  rw [completeTag, pulse_frame, bitAt_true]
  exact ⟨_, _, rfl⟩

/-- A command that leaves sets its tag's bit and is gone; memory and the threads stay. -/
theorem leaveCopy_frame (g : Nat) (c : CopyCmd) (s : State) : let t := leaveCopy g c none s
    (t.core c.core).ctb = (s.core c.core).ctb ||| BitVec.ofNat 64 (2 ^ c.tag)
      ∧ (t.core c.core).tagOut = (s.core c.core).tagOut &&& ~~~BitVec.ofNat 64 (2 ^ c.tag)
      ∧ (t.core c.core).tagErr = (s.core c.core).tagErr ∧ (t.grove g).copies = (s.grove g).copies.filter (fun x => x.id ≠ c.id)
      ∧ t.dram = s.dram ∧ t.l2 = s.l2 ∧ t.th = s.th ∧ t.threads = s.threads := by
  intro t
  obtain ⟨m, n, hframe⟩ := completeTag_frame c.core c.tag (onCopies g (fun cs => cs.filter fun x => x.id ≠ c.id) s)
  have ht : t = _ := hframe
  have hcore : t.core c.core = { s.core c.core with
      ctb := (s.core c.core).ctb ||| BitVec.ofNat 64 (2 ^ c.tag)
      tagOut := (s.core c.core).tagOut &&& ~~~BitVec.ofNat 64 (2 ^ c.tag) } := by
    rw [ht]
    exact State.core_setCore_self ..
  have hgrove : t.grove g = { s.grove g with copies := (s.grove g).copies.filter fun x => x.id ≠ c.id } := by
    rw [ht]
    exact State.setGrove_self ..
  rw [hcore, hgrove, ht]
  exact ⟨rfl, rfl, rfl, rfl, rfl, rfl, rfl, rfl⟩

end Sys2Proof.Machine
end

/-! ## A copy between addresses that runs whole (08 R197) -/
section
namespace Sys2Proof.Machine

open Sys2Proof

/-- A piece that takes the copy to its end, with no statistics asked for, leaves it moved. -/
theorem wrote_done {c : CopyCmd} {n : Nat} (s : State) (hstats : natBit (leField c.bytes 42 1) 3 = false)
    (hdone : c.converted c.total ≤ c.wr + n) : wrote c n s = ({ c with
      wr := c.wr + n, obuf := c.obuf.drop n, mark := c.wr + n, granule := c.granule + 1, boundary := true, stats := {}
      state := .moved }, s) := by
  unfold wrote
  extract_lets c' done whole t
  have hd : done = true := decide_eq_true hdone
  have hf : natBit (c'.f 42 1) 3 = false := hstats
  have ht : t = s := if_neg (by rw [hf]; exact Bool.false_ne_true)
  rw [hd, ht, Bool.true_or, if_pos rfl]
  rfl

section Whole

variable {g : Nat} {c : CopyCmd} {s : State}

/-- Source bytes that are all of a command's input are converted into its output. -/
theorem takeInput_all {bs : List Byte} (hin : c.ibuf = bs) (hout : c.obuf = []) (hstats : natBit (leField c.bytes 42 1) 3 = false) :
    takeInput c bs.length s = ({ c with ibuf := [], obuf := (convertBytes c bs).1 },
      s.orAew { stand := standOfCore c.core, tid := c.tid } c.part (convertBytes c bs).2) := by
  have hf : natBit (c.f 42 1) 3 = false := hstats
  simp only [takeInput, hin, hout, hf, List.take_length, List.drop_length, List.nil_append, Bool.false_eq_true, if_false]

/-- Output that is all that the copy still has to write, to memory that takes it, is written, and the data have moved. -/
theorem writePiece_all {ls : List Loc} {t : State} (hstats : natBit (leField c.bytes 42 1) 3 = false)
    (hdone : c.converted c.total ≤ c.wr + c.obuf.length)
    (hspans : engineSpans c.who .write (c.dstSpans c.wr c.obuf.length) s = (ls, none, t)) :
    writePiece g c none s = putCopy g { c with
      wr := c.wr + c.obuf.length, obuf := [], mark := c.wr + c.obuf.length, granule := c.granule + 1, boundary := true
      stats := {}, state := .moved } (c.store (ls.zip c.obuf) t) := by
  simp only [writePiece, hspans, wrote_done _ hstats hdone, List.drop_length]

/-- A copy that runs whole and has moved nothing needs all its source bytes. -/
theorem pieceNeed_whole (hgran : c.gran = 0) (hwr : c.wr = 0) (hwhole : c.total % c.group.1 = 0) :
    min ((pieceSize c none + c.group.2 - 1) / c.group.2) (c.total / c.group.1) * c.group.1 = c.total := by
  have hsize : pieceSize c none = c.total / c.group.1 * c.group.2 := by
    simp only [pieceSize, granuleBytes, hgran, hwr, if_true]
    rfl
  have hgroups : (c.total / c.group.1 * c.group.2 + c.group.2 - 1) / c.group.2 = c.total / c.group.1 := by
    have hpos := c.group_pos.2
    rw [Nat.add_sub_assoc hpos, Nat.mul_comm, Nat.mul_add_div hpos, Nat.div_eq_of_lt (Nat.sub_lt hpos Nat.one_pos), Nat.add_zero]
  rw [hsize, hgroups, Nat.min_self, Nat.div_mul_cancel (Nat.dvd_of_mod_eq_zero hwhole)]

/-- A copy between addresses that needs source bytes reads them, converts them and writes what they become. -/
theorem movePiece_addresses {n : Nat} {bs : List Byte} {t : State} (hfrom : c.fromDeck = false) (hto : c.toDeck = false)
    (hin : c.ibuf = []) (hout : c.obuf = []) (hn : n ≠ 0)
    (hneed : min ((pieceSize c none + c.group.2 - 1) / c.group.2) ((c.total - c.rd) / c.group.1) * c.group.1 = n)
    (hread : engineRead c.who (readGrove g) (c.srcSpans c.rd n) s = (bs, none, t)) :
    movePiece g c s = let r := takeInput { c with ibuf := bs, rd := c.rd + n, boundary := false } n t
      writePiece g r.1 none r.2 := by
  simp only [movePiece, hfrom, hto, hin, hout, List.length_nil, Bool.false_eq_true, if_false, Nat.sub_zero, Nat.add_zero, hneed,
    Nat.pos_of_ne_zero hn, if_true, hread, List.nil_append]

/-- A copy that runs whole reads its source, writes what that becomes to its destination, and has moved (08 R197). -/
theorem movePiece_whole {t v : State} {bs : List Byte} {ls : List Loc} (hfrom : c.fromDeck = false) (hto : c.toDeck = false)
    (hgran : c.gran = 0) (hin : c.ibuf = []) (hout : c.obuf = []) (hrd : c.rd = 0) (hwr : c.wr = 0) (htotal : c.total ≠ 0)
    (hwhole : c.total % c.group.1 = 0) (hstats : natBit (leField c.bytes 42 1) 3 = false) (hlen : bs.length = c.total)
    (hread : engineRead c.who (readGrove g) (c.srcSpans 0 c.total) s = (bs, none, t))
    (hspans : engineSpans c.who .write (c.dstSpans 0 (convertBytes c bs).1.length)
      (t.orAew { stand := standOfCore c.core, tid := c.tid } c.part (convertBytes c bs).2) = (ls, none, v)) :
    movePiece g c s = putCopy g { c with
        rd := c.total, wr := (convertBytes c bs).1.length, mark := (convertBytes c bs).1.length, granule := c.granule + 1
        boundary := true, stats := {}, state := .moved } (c.store (ls.zip (convertBytes c bs).1) v) := by
  have hneed : min ((pieceSize c none + c.group.2 - 1) / c.group.2) ((c.total - c.rd) / c.group.1) * c.group.1 = bs.length := by
    rw [hrd, Nat.sub_zero, pieceNeed_whole hgran hwr hwhole, hlen]
  have hconverted : (convertBytes c bs).1.length = c.converted c.total := by
    rw [length_convertBytes_converted (hlen ▸ hwhole), hlen]
  have htake := takeInput_all (c := { c with ibuf := bs, rd := c.rd + bs.length, boundary := false }) (s := t) rfl hout hstats
  have hwrite := writePiece_all (g := g) (t := v) (ls := ls)
    (c := { c with ibuf := [], obuf := (convertBytes c bs).1, rd := c.rd + bs.length, boundary := false })
    (s := t.orAew { stand := standOfCore c.core, tid := c.tid } c.part (convertBytes c bs).2) hstats
    (by rw [hconverted]; exact Nat.le_add_left _ _) (by rw [hwr]; exact hspans)
  rw [movePiece_addresses hfrom hto hin hout (hlen ▸ htotal) hneed (by rw [hrd, hlen]; exact hread), htake]
  refine hwrite.trans ?_
  simp only [hin, hout, hrd, hwr, hlen, Nat.zero_add]
  rfl

end Whole

end Sys2Proof.Machine
end

/-! ## O41: copies (08 R195-R198) -/
section
namespace Sys2Proof.Machine

open Sys2Proof

/-- Settles O41: at issue, the alignment and the claim of the tag decide; the engine's steps are followed branch by branch; the elements
of bytes are those of their bits, so that what a conversion writes is read back element by element. -/
theorem copyForms : Obligations.CopyForms := by
  refine ⟨?issue, ?engine, ?elements, ?conversion, ?whole⟩
  case issue =>
    intro a b g p s va tag c q hq
    have hexec := exec_copy a b g p s q hq
    refine ⟨fun h => traps_of_takeTrap (hexec.trans (queueCopy_misaligned h)) rfl,
      fun h hbad => traps_of_takeTrap (hexec.trans (queueCopy_refused h (claimTag_refused hbad))) rfl, ?_⟩
    intro h hown hout herr bit u grove v
    exact ⟨copyCommand q.2 va tag g p u, past_of_advance (hexec.trans (queueCopy_claimed h (claimTag_free hown hout herr))),
      rfl, rfl, rfl, rfl, rfl, rfl, rfl, rfl, rfl, rfl, rfl, rfl, rfl⟩
  case engine =>
    intro s c g cs hfind
    exact ⟨exec_copyCommandStart_unread hfind, exec_copyCommandStart_starts hfind,
      fun d hd hqueued hbytes hrun => exec_copyCommandStart_held hfind hqueued hbytes hd hrun, exec_copyGranule,
      fun hmoved => ⟨_, exec_copyComplete hfind hmoved, leaveCopy_frame g c s⟩⟩
  case elements =>
    intro f bs i bits
    exact getElem?_bytesToElems
  case conversion =>
    intro c bs r bits one
    refine ⟨fun h => convertBytes_same h bs, fun h hwhole => ?_⟩
    have hone (x : Nat) : one x = convertedElem c x := roundedOnce_noFlag ..
    have helems := bytesToElems_convertBytes h hwhole
    refine ⟨length_convertBytes h hwhole, by rw [helems, List.length_map], fun i x hx => ?_, fun b => ?_⟩
    · rw [helems, List.getElem?_map, hx, hone]
      rfl
    · simp only [hone]
      exact getLsbD_convertBytes h bs b
  case whole =>
    intro g c s s1 s3 bs ls r w hfrom hto hgran hin hout hrd hwr htotal hwhole hstats hlen hread hspans
    exact movePiece_whole hfrom hto hgran hin hout hrd hwr htotal hwhole hstats hlen hread hspans

end Sys2Proof.Machine
end

/-! ## The places of accesses and their checks (09 R230, R231, R234) -/
section
namespace Sys2Proof.Machine

open Sys2Proof

/-- Checks that follow one another are met where the first gives something with which the others are. -/
theorem checked_bind_eq_ok {α β : Type} {x : Checked α} {f : α → Checked β} {r : β} :
    x >>= f = .ok r ↔ ∃ a, x = .ok a ∧ f a = .ok r := by
  cases x with
  | error t =>
    refine ⟨fun h => (nomatch h), fun h => ?_⟩
    obtain ⟨_, ha, -⟩ := h
    cases ha
  | ok a =>
    refine ⟨fun h => ⟨a, rfl, h⟩, fun h => ?_⟩
    obtain ⟨_, ha, h⟩ := h
    cases ha
    exact h

/-- A span that resolves has a place for every byte, where the fuel reaches its end. -/
theorem length_spanLocs_resolveSpan {w : Who} {k : Access} {fuel va len : Nat} {s t : State} {sp : List (Loc × Nat)}
    (hfuel : 0 < len → va % 2048 + len ≤ 2048 * fuel) (h : resolveSpan w k fuel va len s = .ok (sp, t)) :
    (spanLocs sp).length = len := by
  induction fuel generalizing va len s sp with
  | zero =>
    obtain rfl : len = 0 := by omega
    cases h
    rfl
  | succ fuel ih =>
    rw [resolveSpan] at h
    split at h
    · cases h
      exact Eq.symm ‹len = 0›
    · dsimp only at h
      split at h
      · cases h
      · split at h
        · cases h
        next ls u hrest =>
          cases h
          have hlen := ih (fun _ => by omega) hrest
          simp only [spanLocs, List.flatMap_cons, List.length_append, List.length_map, List.length_range] at hlen ⊢
          omega

section Span

variable {k : Access} {va : Word} {len align fidx fval : Nat} {s : State}

/-- The places of a span are those of its bytes. -/
theorem length_spanPlace {ls : List Loc} {s1 : State} (h : spanPlace k va len align fidx fval s = .ok (ls, s1)) : ls.length = len := by
  rw [spanPlace] at h
  split at h
  · cases h
  · split at h
    next sp u hspan =>
      cases h
      exact length_spanLocs_resolveSpan (fun _ => by omega) hspan
    · cases h

/-- A misaligned span. -/
theorem spanPlace_misaligned (h : va.toNat % align ≠ 0) :
    spanPlace k va len align fidx fval s = .error { cause := 2, fidx := fidx, fval := fval, a := va } := if_pos h

/-- An aligned span of which a byte is refused. -/
theorem spanPlace_refused {f : Flt} {b : Nat} (h : va.toNat % align = 0)
    (hspan : resolveSpan s.who k (len / 2048 + 2) va.toNat len s = .error (f, b)) :
    spanPlace k va len align fidx fval s = .error (f.trap fidx fval fval b) := by
  rw [spanPlace, if_neg (not_not.mpr h), hspan]

end Span

/-! ### Scalar accesses (09 R231, 08 R192) -/

section Deck

variable {h : BitVec 3} {o : Int} {width fimm : Nat} {load : Bool} {s : State}

/-- A deck-relative access of a handle that is not bound. -/
theorem deckPlace_unbound (hd : s.th.decks[h.toNat]'h.isLt = none) :
    deckPlace s h o width load fimm = .error { cause := 9, fidx := 3, fval := h.toNat, v := BitVec.ofInt 64 o } := by
  simp only [deckPlace, boundDeck, hd]
  rfl

/-- A deck-relative access of a bound handle before the slots that it may reach, or beyond them. -/
theorem deckPlace_outside {cb : Nat} (hd : s.th.decks[h.toNat]'h.isLt = some cb)
    (hout : let d := deckView s.th.id (deckAt s.th.core cb s) s
      o < 0 ∨ ((if load = true then d.fill else d.room) * d.size : Int) < o + width) :
    deckPlace s h o width load fimm = .error { cause := 9, fidx := 6, fval := fimm, a := cbAddr cb, v := BitVec.ofInt 64 o } := by
  by_cases hneg : o < 0
  · simp only [deckPlace, boundDeck, hd, need_false (show decide (0 ≤ o) = false by simpa using hneg)]
    rfl
  · have hbeyond := hout.resolve_left hneg
    simp only [deckPlace, boundDeck, hd, need_true (show decide (0 ≤ o) = true by simpa using hneg)]
    dsimp only [bind, Except.bind]
    rw [need_false (decide_eq_false (by omega))]
    rfl

/-- A deck-relative access has a place for every byte. -/
theorem length_deckPlace {ls : List Loc} (hplace : deckPlace s h o width load fimm = .ok ls) : ls.length = width := by
  obtain ⟨d, -, hplace⟩ := checked_bind_eq_ok.mp hplace
  obtain ⟨-, -, hplace⟩ := checked_bind_eq_ok.mp hplace
  obtain ⟨-, -, hplace⟩ := checked_bind_eq_ok.mp hplace
  cases hplace
  simp

end Deck

section Scalar

variable {k : Access} {a : BitVec 4} {off : Int} {width fval : Nat} {s : State}

/-- Without DK a scalar access is at its address. -/
theorem scalarPlace_address : scalarPlace k a false off width fval s = (do
    let (ls, s1) ← spanPlace k (scalarAddr s a off width) width width 3 fval s
    .ok (scalarAddr s a off width, ls, s1)) := rfl

/-- A trap of the address is the access's. -/
theorem scalarPlace_of_spanPlace_error {tr : Trap} (h : spanPlace k (scalarAddr s a off width) width width 3 fval s = .error tr) :
    scalarPlace k a false off width fval s = .error tr := by
  rw [scalarPlace_address, h]
  rfl

/-- A trap of the deck is the access's. -/
theorem scalarPlace_of_deckPlace_error {tr : Trap}
    (h : deckPlace s (a.setWidth 3) (off * width) width (decide (k = .read)) (s.fieldOf 6) = .error tr) :
    scalarPlace k a true off width fval s = .error tr := by
  simp only [scalarPlace, if_true, h]
  rfl

variable {dk : Bool} {va : Word} {ls : List Loc} {s1 : State} (h : scalarPlace k a dk off width fval s = .ok (va, ls, s1))

include h

/-- A scalar access has a place for every byte of its width. -/
theorem length_scalarPlace : ls.length = width := by
  cases dk with
  | true =>
    obtain ⟨ls', hdeck, h⟩ := checked_bind_eq_ok.mp h
    cases h
    exact length_deckPlace hdeck
  | false =>
    obtain ⟨⟨ls', u⟩, hspan, h⟩ := checked_bind_eq_ok.mp h
    cases h
    exact length_spanPlace hspan

/-- Without DK the address is the base and the scaled offset. -/
theorem scalarPlace_va (hdk : dk = false) : va = scalarAddr s a off width := by
  subst hdk
  obtain ⟨⟨ls', u⟩, -, h⟩ := checked_bind_eq_ok.mp h
  cases h
  rfl

end Scalar

/-! ### Lanes (09 R234) -/

section Lanes

variable {k : Access} {base : Nat} {alignField transField : Nat × Nat}

/-- A lane has a place for each of its four bytes. -/
theorem length_lanePlace {va : Word} {s s1 : State} {ls : List Loc} (h : lanePlace k va base alignField transField s = .ok (ls, s1)) :
    ls.length = 4 := by
  rw [lanePlace] at h
  split at h
  · cases h
  · split at h
    · cases h
    · cases h
      exact length_spanPlace ‹_›

/-- Lanes that are all admitted have their four places each, in their order. -/
theorem lanePlaces_spec {addr : Nat → Word} {is : List Nat} {s s1 : State} {ps : List (Nat × List Loc)}
    (h : lanePlaces k addr base alignField transField is s = .ok (ps, s1)) : ps.map (·.1) = is ∧ ∀ p ∈ ps, p.2.length = 4 := by
  induction is generalizing s ps with
  | nil =>
    cases h
    exact ⟨rfl, fun p hp => absurd hp List.not_mem_nil⟩
  | cons i is ih =>
    obtain ⟨⟨ls, u⟩, hlane, h⟩ := checked_bind_eq_ok.mp h
    obtain ⟨⟨rest, v⟩, hrest, h⟩ := checked_bind_eq_ok.mp h
    cases h
    obtain ⟨hmap, hlen⟩ := ih hrest
    exact ⟨congrArg (i :: ·) hmap, List.forall_mem_cons.mpr ⟨length_lanePlace hlane, hlen⟩⟩

end Lanes

end Sys2Proof.Machine
end

/-! ## Scalar loads and stores as they issue (09 R230-R232, 04 R84) -/
section
namespace Sys2Proof.Machine

open Sys2Proof

/-- Moving past an instruction leaves every byte of memory. -/
theorem MovesPast.sameMemory {len : Nat} {u t : State} (h : MovesPast len u t) : SameMemory u t := by
  obtain ⟨ht, -⟩ := h
  rw [ht]
  exact ⟨rfl, rfl, rfl, fun _ => rfl, fun _ => rfl⟩

/-- Moving past an instruction leaves the registers, and the other threads. -/
theorem MovesPast.registers {len : Nat} {u t : State} (h : MovesPast len u t) :
    t.th.s = u.th.s ∧ t.th.v = u.th.v ∧ t.threads = u.threads := by
  obtain ⟨ht, -⟩ := h
  rw [ht]
  exact ⟨rfl, rfl, rfl⟩

/-- A check of data that is met lets the load go on. -/
theorem dataChecked_ok {va : Word} {ls : List Loc} {s t : State} (h : checkData va ls s = .ok t) (go : State → Outcome) :
    dataChecked va ls s go = go t := by
  simp only [dataChecked, h]

/-! ### A store joins its queue (11 R242) -/

/-- A queue with room needs none made. -/
theorem makeRoom_of_room {s : State} (h : storeCount s.th.sq < 16) : makeRoom s = s := if_pos h

/-- A store with pieces joins the queue. -/
theorem queueStore_pieces {rel : Option Nat} {parts : List StorePart} {part : Option (Word × Partial × LogEntry)} {issuer : LogEntry}
    {s : State} (h : parts ≠ []) : ∃ q : QStore, queueStore rel parts part issuer s
      = { makeRoom s with fresh := (makeRoom s).fresh + 1, th := { (makeRoom s).th with sq := (makeRoom s).th.sq ++ [.store q] } }
      ∧ q.no = (makeRoom s).fresh ∧ q.parts = parts ∧ q.rel = rel ∧ q.lvl = 0 ∧ q.part = part := by
  rw [queueStore, if_neg (by simpa using h)]
  exact ⟨_, rfl, rfl, rfl, rfl, rfl, rfl⟩

/-- A store that joins a queue with room leaves memory, the registers and the other threads. -/
theorem frame_of_joined {len : Nat} {s t : State} {q : List StoreEntry} {n : Nat} (hroom : storeCount s.th.sq < 16)
    (h : MovesPast len { makeRoom s with fresh := n, th := { (makeRoom s).th with sq := q } } t) :
    SameMemory s t ∧ t.th.s = s.th.s ∧ t.th.v = s.th.v ∧ t.threads = s.threads := by
  rw [makeRoom_of_room hroom] at h
  obtain ⟨hs, hv, hthreads⟩ := h.registers
  exact ⟨h.sameMemory, hs, hv, hthreads⟩

/-! ### Scalar loads and stores (09 R231, R232) -/

section Scalar

variable {i : Instr} {len : Nat} {d a : BitVec 4} {dk sx : Bool} {off : Int} {width fval : Nat} {acq rel : Option Nat} {s s1 : State}

/-- A scalar load whose checks are met begins. -/
theorem loads_of_scalarLoad {va : Word} {ls : List Loc} {s2 : State} (hexec : exec i s = scalarLoad len d a dk sx off width fval acq s)
    (hplace : scalarPlace .read a dk off width fval s = .ok (va, ls, s1)) (hdata : checkData va ls s1 = .ok s2) :
    Loads i len d sx width va ls acq s s2 := by
  simp only [scalarLoad, hplace, dataChecked_ok hdata] at hexec
  have hmoves := movesPast_advance len (s2.pushAcquire acq (.s d) (.reading (.scalar sx width) [⟨0, va, ls⟩] []))
  exact ⟨_, _, hexec, beginsLoad_pushAcquire .., hmoves, hmoves.sameMemory⟩

/-- A scalar load that is refused takes the trap. -/
theorem trap_of_scalarLoad (hexec : exec i s = scalarLoad len d a dk sx off width fval acq s) (tr : Trap)
    (hplace : scalarPlace .read a dk off width fval s = .error tr) : exec i s = .next (takeTrap tr s) := by
  simp only [hexec, scalarLoad, hplace]

/-- A scalar store that is admitted joins the queue. -/
theorem stores_of_scalarStore {va : Word} {ls : List Loc} (hexec : exec i s = scalarStore len d a dk off width fval rel s)
    (hplace : scalarPlace .write a dk off width fval s = .ok (va, ls, s1)) : Stores i len d width ls rel s s1 := by
  have hlen := length_scalarPlace hplace
  simp only [scalarStore, hplace] at hexec
  obtain ⟨q, hjoined, hno, hparts, hrel, hlvl, -⟩ := queueStore_pieces (s := s1) (rel := rel) (part := none)
    (issuer := storeIssuer s1 va) (List.cons_ne_nil (wholePart ls (s1.getS d).toNat) [])
  rw [hjoined] at hexec
  refine ⟨hlen, _, _, hexec, ⟨q, rfl, hno, ?_, hrel, hlvl⟩, movesPast_advance len _, fun hroom => ?_⟩
  · rw [hparts, wholePart, hlen]
  · obtain ⟨hmem, hs, -, hthreads⟩ := frame_of_joined hroom (movesPast_advance len _)
    exact ⟨hmem, hs, hthreads⟩

/-- A scalar store that is refused takes the trap. -/
theorem trap_of_scalarStore (hexec : exec i s = scalarStore len d a dk off width fval rel s) (tr : Trap)
    (hplace : scalarPlace .write a dk off width fval s = .error tr) : exec i s = .next (takeTrap tr s) := by
  simp only [hexec, scalarStore, hplace]

/-- The traps of an instruction whose access is at an address (09 R230): alignment first, then the refusal. -/
theorem traps_of_address {k : Access} {va : Word} (hw : width < 2048) (hva : va = scalarAddr s a off width) (hdk : dk = false)
    (htrap : ∀ tr, scalarPlace k a dk off width fval s = .error tr → exec i s = .next (takeTrap tr s)) :
    (va.toNat % width ≠ 0 → Traps i s s 2 3 fval va 0)
    ∧ (va.toNat % width = 0 → ∀ f b, resolveSpan s.who k 2 va.toNat width s = .error (f, b) →
        Traps i s s f.cause (if f.cause = 0x12 then 0 else 3) (if f.cause = 0x12 then 0 else fval) (BitVec.ofNat 64 b)
          (BitVec.ofNat 64 f.tv)) := by
  subst hva hdk
  constructor
  · intro hmis
    exact traps_of_takeTrap (htrap _ (scalarPlace_of_spanPlace_error (spanPlace_misaligned hmis))) rfl
  · intro hal f b hspan
    rw [← show width / 2048 + 2 = 2 by omega] at hspan
    have htraps := traps_of_takeTrap (htrap _ (scalarPlace_of_spanPlace_error (spanPlace_refused hal hspan))) rfl
    have hfields : (f.trap 3 fval fval b).fidx = (if f.cause = 0x12 then 0 else 3)
        ∧ (f.trap 3 fval fval b).fval = (if f.cause = 0x12 then 0 else fval) := by
      by_cases h12 : f.cause = 0x12
      · simp [Flt.trap, h12]
      · by_cases h13 : f.cause = 0x13
        · simp [Flt.trap, h13]
        · simp [Flt.trap, h12, h13]
    rw [hfields.1, hfields.2] at htraps
    exact htraps

/-- The traps of an instruction whose access is relative to a deck (08 R191, R192). -/
theorem traps_of_deck {k : Access} {load : Bool} (hload : load = decide (k = .read)) (hdk : dk = true)
    (htrap : ∀ tr, scalarPlace k a dk off width fval s = .error tr → exec i s = .next (takeTrap tr s)) :
    (s.th.decks[a.toNat % 8]? = some none → Traps i s s 9 3 (a.toNat % 8) 0 (BitVec.ofInt 64 (off * width)))
    ∧ ∀ cb, s.th.decks[a.toNat % 8]? = some (some cb) → let d := deckView s.th.id (deckAt s.th.core cb s) s
        off * width < 0 ∨ ((if load = true then d.fill else d.room) * d.size : Int) < off * width + width →
        Traps i s s 9 6 (s.fieldOf 6) (cbAddr cb) (BitVec.ofInt 64 (off * width)) := by
  subst hload hdk
  have hnum : (a.setWidth 3).toNat = a.toNat % 8 := BitVec.toNat_setWidth ..
  have hget : s.th.decks[a.toNat % 8]? = some (s.th.decks[(a.setWidth 3).toNat]'(a.setWidth 3).isLt) := by
    rw [← hnum]
    exact Vector.getElem?_eq_getElem _
  rw [hget]
  constructor
  · intro hnone
    have htraps := traps_of_takeTrap (htrap _ (scalarPlace_of_deckPlace_error (deckPlace_unbound (Option.some.inj hnone)))) rfl
    rw [hnum] at htraps
    exact htraps
  · intro cb hcb d hout
    exact traps_of_takeTrap (htrap _ (scalarPlace_of_deckPlace_error (deckPlace_outside (Option.some.inj hcb) hout))) rfl

end Scalar

/-! ### The six scalar instructions (09 R231, R232, 04 R84) -/

section Instructions

variable (d a : BitVec 4) (w : BitVec 2) (k x : BitVec 1) (c : BitVec 3) (i : BitVec 10) (i7 : BitVec 7) (o : BitVec 4) (s : State)

/-- LD is a scalar load. -/
theorem exec_ld : exec (.ld d a w k x i) s = scalarLoad 4 d a (k = 1) (x = 1) i.toInt (2 ^ w.toNat) a.toNat none s := rfl

/-- LDACQ is a scalar load with the scope of its acquire. -/
theorem exec_ldacq : exec (.ldacq d a w k x c i7) s = scalarLoad 4 d a (k = 1) (x = 1) i7.toInt (2 ^ w.toNat) a.toNat (some c.toNat) s :=
  rfl

/-- LDD8 is the load of a doubleword from s14. -/
theorem exec_ldd8 : exec (.ldd8 d o) s = scalarLoad 2 d 14 false false o.toNat 8 14 none s := rfl

/-- ST is a scalar store. -/
theorem exec_st : exec (.st d a w k i) s = scalarStore 4 d a (k = 1) i.toInt (2 ^ w.toNat) a.toNat none s := rfl

/-- STREL is a scalar store with the scope of its release. -/
theorem exec_strel : exec (.strel d a w k c i7) s = scalarStore 4 d a (k = 1) i7.toInt (2 ^ w.toNat) a.toNat (some c.toNat) s := rfl

/-- STD8 is the store of a doubleword from s14. -/
theorem exec_std8 : exec (.std8 d o) s = scalarStore 2 d 14 false o.toNat 8 14 none s := rfl

/-- The address of the 16-bit forms. -/
theorem scalarAddr_short : scalarAddr s 14 o.toNat 8 = s.getS 14 + BitVec.ofNat 64 (8 * o.toNat) := by
  rw [scalarAddr, ← BitVec.ofInt_natCast, Nat.cast_mul, Int.mul_comm]

end Instructions

/-- Settles O29: a trap of the access's places is the instruction's; an address is checked for alignment, then resolved; a deck
for its binding, then for its slots. -/
theorem scalarAccessTraps : Obligations.ScalarAccessTraps := by
  intro d a w x c i i7 o s n at_ short
  have hn : n < 2048 := Nat.lt_of_le_of_lt (Nat.pow_le_pow_right Nat.two_pos (show w.toNat ≤ 3 by omega)) (by decide)
  have hshort : short = scalarAddr s 14 o.toNat 8 := (scalarAddr_short o s).symm
  constructor
  · refine List.forall_mem_cons.mpr ⟨?ld, List.forall_mem_cons.mpr ⟨?st, List.forall_mem_cons.mpr ⟨?ldacq, List.forall_mem_cons.mpr ⟨?strel,
      List.forall_mem_cons.mpr ⟨?ldd8, List.forall_mem_singleton.mpr ?std8⟩⟩⟩⟩⟩
    case ld => exact traps_of_address hn rfl (by decide) (trap_of_scalarLoad (exec_ld d a w 0 x i s))
    case st => exact traps_of_address hn rfl (by decide) (trap_of_scalarStore (exec_st d a w 0 i s))
    case ldacq => exact traps_of_address hn rfl (by decide) (trap_of_scalarLoad (exec_ldacq d a w 0 x c i7 s))
    case strel => exact traps_of_address hn rfl (by decide) (trap_of_scalarStore (exec_strel d a w 0 c i7 s))
    case ldd8 => exact traps_of_address (by decide) hshort rfl (trap_of_scalarLoad (exec_ldd8 d o s))
    case std8 => exact traps_of_address (by decide) hshort rfl (trap_of_scalarStore (exec_std8 d o s))
  · refine List.forall_mem_cons.mpr ⟨?ldDeck, List.forall_mem_cons.mpr ⟨?stDeck, List.forall_mem_cons.mpr ⟨?ldacqDeck,
      List.forall_mem_singleton.mpr ?strelDeck⟩⟩⟩
    case ldDeck => exact traps_of_deck rfl (by decide) (trap_of_scalarLoad (exec_ld d a w 1 x i s))
    case stDeck => exact traps_of_deck rfl (by decide) (trap_of_scalarStore (exec_st d a w 1 i s))
    case ldacqDeck => exact traps_of_deck rfl (by decide) (trap_of_scalarLoad (exec_ldacq d a w 1 x c i7 s))
    case strelDeck => exact traps_of_deck rfl (by decide) (trap_of_scalarStore (exec_strel d a w 1 c i7 s))

end Sys2Proof.Machine
end

/-! ## Vector loads and stores, gathers and scatters (09 R233-R237) -/
section
namespace Sys2Proof.Machine

open Sys2Proof

/-! ### Lanes of a mask, and elements -/

/-- A mask enables no lane where it is 0. -/
theorem lanesOf_eq_nil {k : KWord} : lanesOf k = [] ↔ k = 0 := by
  constructor
  · intro h
    by_contra hk
    have hhead := headD_lanesOf hk
    rw [h] at hhead
    exact absurd hhead.1 (by decide)
  · rintro rfl
    simp [lanesOf]

/-- The lanes that a mask enables are lanes of a register. -/
theorem lt_of_mem_lanesOf {k : KWord} {i : Nat} (h : i ∈ lanesOf k) : i < 32 := List.mem_range.mp (List.mem_filter.mp h).1

/-- The mask of the lanes that a mask enables is that mask. -/
theorem lanesMask_lanesOf (k : KWord) : lanesMask (lanesOf k) = k := by
  refine BitVec.eq_of_getLsbD_eq fun j hj => Bool.eq_iff_iff.mpr ?_
  rw [lanesMask, getLsbD_foldl_or (fun i => ((1 <<< i : Nat) : KWord))]
  have hbit (i : Nat) : ((1 <<< i : Nat) : KWord).getLsbD j = true ↔ i = j := by
    rw [BitVec.natCast_eq_ofNat, BitVec.getLsbD_ofNat, Nat.one_shiftLeft, Nat.testBit_two_pow]
    simp [hj]
  simp only [BitVec.ofNat_eq_ofNat, BitVec.getLsbD_zero, Bool.false_or, List.any_eq_true, hbit, exists_eq_right, lanesOf, List.mem_filter,
    List.mem_range, hj, true_and]

/-- A bit of packed elements is one of the element that it lies in. -/
theorem testBit_packElems {w : Nat} (hw : 0 < w) (xs : List Nat) (b : Nat) :
    (packElems w xs).testBit b = (xs.getD (b / w) 0).testBit (b % w) := by
  have hlt := Nat.mod_lt b hw
  have helem := congrArg (Nat.testBit · (b % w)) (packElems_elem w xs (b / w))
  simpa [Nat.testBit_mod_two_pow, Nat.testBit_div_two_pow, hlt, Nat.mod_add_div] using helem

/-- The value at an index of a list that has each index once. -/
theorem find?_index_eq {got : List (Nat × Nat)} (hnodup : (got.map (·.1)).Nodup) {p : Nat × Nat} (hp : p ∈ got) :
    got.find? (fun q => q.1 = p.1) = some p := by
  cases hfind : got.find? (fun q => q.1 = p.1) with
  | none => simpa using List.find?_eq_none.mp hfind p hp
  | some q =>
    have hq : q.1 = p.1 := by simpa using List.find?_some hfind
    rw [List.inj_on_of_nodup_map hnodup (List.mem_of_find?_eq_some hfind) hp hq]

/-! ### Loads (09 R233, R234, R236) -/

/-- A load of no lane is none. -/
theorem loadLanes_nil (d : BitVec 4) (addr : Nat → Word) (s : State) : loadLanes d addr [] s = s := rfl

/-- A load of some lanes is one load with a piece for each. -/
theorem beginsLoad_loadLanes (d : BitVec 4) (addr : Nat → Word) {ps : List (Nat × List Loc)} (h : ps ≠ []) (s : State) :
    BeginsLoad none (.v d (elemMask 32 (lanesMask (ps.map (·.1))))) (.reading .lanes (ps.map fun p => ⟨p.1, addr p.1, p.2⟩) []) s
      (loadLanes d addr ps s) := by
  rw [loadLanes, if_neg (by simpa using h)]
  exact beginsLoad_pushAcquire ..

section VectorLoad

variable {i : Instr} {d base : BitVec 4} {addr : Nat → Word} {field : Nat × Nat} {k : KWord} {s s1 : State} {ps : List (Nat × List Loc)}

/-- A vector load whose lanes are all admitted and met no storage error. -/
theorem exec_of_vectorLoad {s2 : State} (hexec : exec i s = vectorLoad d addr base field k s)
    (hplaces : lanePlaces .read addr base.toNat field (3, base.toNat) (lanesOf k) s = .ok (ps, s1))
    (hdata : checkLanes addr ps s1 = .ok s2) : exec i s = .next (advance 4 (loadLanes d addr ps s2)) := by
  rw [hexec, vectorLoad, hplaces]
  dsimp only [bind, Except.bind]
  rw [hdata]
  rfl

/-- What a vector load does whose lanes are all admitted and met no storage error. -/
theorem vectorLoad_spec {s2 : State} (hexec : exec i s = vectorLoad d addr base field k s)
    (hplaces : lanePlaces .read addr base.toNat field (3, base.toNat) (lanesOf k) s = .ok (ps, s1))
    (hdata : checkLanes addr ps s1 = .ok s2) :
    ps.map (·.1) = lanesOf k ∧ (∀ p ∈ ps, p.2.length = 4) ∧ (k = 0 → Past i 4 s s2)
    ∧ (k ≠ 0 → ∃ u, Past i 4 s u
        ∧ BeginsLoad none (.v d (elemMask 32 k)) (.reading .lanes (ps.map fun p => ⟨p.1, addr p.1, p.2⟩) []) s2 u) := by
  obtain ⟨hmap, hlen⟩ := lanePlaces_spec hplaces
  have hpast := past_of_advance (exec_of_vectorLoad hexec hplaces hdata)
  refine ⟨hmap, hlen, fun hk => ?_, fun hk => ⟨_, hpast, ?_⟩⟩
  · rw [lanesOf_eq_nil.mpr hk, List.map_eq_nil_iff] at hmap
    rwa [hmap, loadLanes_nil] at hpast
  · have hsome : ps ≠ [] := fun h => hk (lanesOf_eq_nil.mp (by rw [← hmap, h, List.map_nil]))
    have hbegins := beginsLoad_loadLanes d addr hsome s2
    rwa [hmap, lanesMask_lanesOf] at hbegins

end VectorLoad

/-- VLD is a vector load of neighbouring lanes. -/
theorem exec_vld (d a : BitVec 4) (k : BitVec 3) (s : State) :
    exec (.vld d a k) s = vectorLoad d (unitAddr (s.getS a)) a (3, a.toNat) (s.getK k) s := rfl

/-- VLDS is a vector load of lanes a stride apart. -/
theorem exec_vlds (d a b : BitVec 4) (k : BitVec 3) (s : State) :
    exec (.vlds d a b k) s = vectorLoad d (strideAddr (s.getS a) (s.getS b)) a (strideField s a b) (s.getK k) s := rfl

/-- VLD6 with no element enabled. -/
theorem exec_vld6_none {d a : BitVec 4} {k : BitVec 3} {s : State} (hk : s.getK k = 0) : exec (.vld6 d a k) s = .next (advance 4 s) :=
  if_pos hk

/-- VLD6 of a block that is admitted and met no storage error. -/
theorem exec_vld6_some {d a : BitVec 4} {k : BitVec 3} {s s1 s2 : State} {ls : List Loc} (hk : s.getK k ≠ 0)
    (hplace : spanPlace .read (s.getS a) 24 8 3 a.toNat s = .ok (ls, s1)) (hdata : checkData (s.getS a) ls s1 = .ok s2) :
    exec (.vld6 d a k) s
      = .next (advance 4 (s2.pushLoad (.v d (elemMask 8 (s.getK k))) (.reading .fp6 (groupParts (s.getS a) ls) []))) := by
  change execVld6 d a k s = _
  rw [execVld6, if_neg hk]
  simp only [hplace, dataChecked_ok hdata]

/-- The lane that a load of lanes gives its register from the piece of the lane. -/
theorem toNat_lane_lanesValue {got : List (Nat × Nat)} (hnodup : (got.map (·.1)).Nodup) {p : Nat × Nat} (hp : p ∈ got) (hlt : p.1 < 32) :
    (lane (LoadForm.value .lanes got) p.1).toNat = p.2 % 2 ^ 32 := by
  have hlane : (lane (LoadForm.value .lanes got) p.1).toNat = VElem 32 (LoadForm.value .lanes got) p.1 := BitVec.toNat_ofNat ..
  rw [hlane, LoadForm.value, packLaneValues, velem_pack _ _ _ (by simp), getD_lanes _ _ _ hlt, find?_index_eq hnodup hp]
  rfl

/-- The elements that a load of FP6 groups gives its register from the piece of a group. -/
theorem velem_fp6Value {got : List (Nat × Nat)} (hnodup : (got.map (·.1)).Nodup) {p : Nat × Nat} (hp : p ∈ got) (hlt : p.1 < 8)
    {j : Nat} (hj : j < 4) : VElem 8 (LoadForm.value .fp6 got) (4 * p.1 + j) = p.2 / 2 ^ (6 * j) % 64 := by
  rw [LoadForm.value, velem_pack _ _ _ (by simp), getD_lanes _ _ _ (by omega), show (4 * p.1 + j) / 4 = p.1 by omega,
    show (4 * p.1 + j) % 4 = j by omega]
  simp only [find?_index_eq hnodup hp]
  exact Nat.mod_eq_of_lt (Nat.lt_trans (Nat.mod_lt _ (by decide)) (by decide))

/-- Settles O30: lanes that are all admitted make one load with a piece each, a block of FP6 elements one with a piece for each
group; the value of a load is packed from its pieces by their index. -/
theorem vectorLoads : Obligations.VectorLoads := by
  constructor
  · intro d a b k s K
    refine ⟨List.forall_mem_cons.mpr ⟨?unit, List.forall_mem_singleton.mpr ?strided⟩, fun hk => past_of_advance (exec_vld6_none hk),
      fun hk ls s1 s2 hplace hdata => ⟨_, past_of_advance (exec_vld6_some hk hplace hdata), beginsLoad_pushAcquire ..⟩⟩
    case unit => exact fun ps s1 s2 => vectorLoad_spec (exec_vld d a k s)
    case strided => exact fun ps s1 s2 => vectorLoad_spec (exec_vlds d a b k s)
  · intro got hnodup p hp
    exact ⟨toNat_lane_lanesValue hnodup hp, fun hlt j hj => velem_fp6Value hnodup hp hlt hj⟩

/-! ### Stores (09 R233, R234, R236, R237) -/

/-- A store without STAT carries no partial. -/
theorem storePartial_none (s : State) (n : BitVec 3) (xs : List Num) : storePartial s n 0 xs = none := by
  simp [storePartial]

/-- A store with STAT carries the partial of the values that it delivers, for the record that its scale register names. -/
theorem storePartial_some (s : State) (n : BitVec 3) {xs : List Num} (h : xs ≠ []) :
    storePartial s n 1 xs = some (BitVec.ofNat 64 ((s.th.getSc n).toNat / 2 ^ 8 % 2 ^ 16), Partial.ofNums xs, s.th.entry 0x1F) := by
  have hxs : xs.isEmpty = false := by simpa using h
  simp [storePartial, hxs, Nat.shiftRight_eq_div_pow]

/-- The partial of a store of `xs` with STAT `st` for the record that n names, in a state (09 R237). -/
def Carries (n : BitVec 3) (st : BitVec 1) (u : State) (xs : List Num) (q : QStore) : Prop :=
  (st = 0 → q.part = none)
    ∧ (st = 1 → xs ≠ [] → ∃ e, q.part = some (BitVec.ofNat 64 ((u.th.getSc n).toNat / 2 ^ 8 % 2 ^ 16), Partial.ofNums xs, e))

/-- A store carries what its partial is. -/
theorem carries_storePartial {n : BitVec 3} {st : BitVec 1} {u : State} {xs : List Num} {q : QStore}
    (h : q.part = storePartial u n st xs) : Carries n st u xs q := by
  constructor
  · rintro rfl
    rw [h, storePartial_none]
  · rintro rfl hxs
    exact ⟨_, h.trans (storePartial_some u n hxs)⟩

/-- An instruction of 4 bytes queues a store of pieces from a state, with the partial of `xs`, and is past it; where the queue has
room, memory, the registers and the other threads stay. -/
def QueuesPieces (n : BitVec 3) (st : BitVec 1) (i : Instr) (s u : State) (parts : List StorePart) (xs : List Num) : Prop :=
  ∃ t v q, exec i s = .next t ∧ v = { makeRoom u with fresh := (makeRoom u).fresh + 1
                                                      th := { (makeRoom u).th with sq := (makeRoom u).th.sq ++ [.store q] } }
    ∧ MovesPast 4 v t ∧ q.parts = parts ∧ q.rel = none ∧ q.lvl = 0 ∧ Carries n st u xs q
    ∧ (storeCount u.th.sq < 16 → SameMemory u t ∧ t.th.s = u.th.s ∧ t.th.v = u.th.v ∧ t.threads = u.threads)

/-- An instruction that ends with a queued store of some pieces queues it. -/
theorem queuesPieces_of_queueStore {i : Instr} {s u : State} {parts : List StorePart} {xs : List Num} {n : BitVec 3} {st : BitVec 1}
    {issuer : LogEntry} (hparts : parts ≠ [])
    (hexec : exec i s = .next (advance 4 (queueStore none parts (storePartial u n st xs) issuer u))) : QueuesPieces n st i s u parts xs := by
  obtain ⟨q, hjoined, -, hq, hrel, hlvl, hpart⟩ := queueStore_pieces (s := u) (rel := none) (part := storePartial u n st xs)
    (issuer := issuer) hparts
  rw [hjoined] at hexec
  exact ⟨_, _, q, hexec, rfl, movesPast_advance 4 _, hq, hrel, hlvl, carries_storePartial hpart,
    fun hroom => frame_of_joined hroom (movesPast_advance 4 _)⟩

/-- Lanes that are stored, as pieces of a store. -/
theorem storeLanes_eq (d : BitVec 4) (n : BitVec 3) (st : BitVec 1) (va : Word) (ps : List (Nat × List Loc)) (s : State) :
    storeLanes d n st va ps s = queueStore none (ps.map fun p => wholePart p.2 (lane (s.getV d) p.1).toNat)
      (storePartial s n st (ps.map fun p => decodeNum .f32 (lane (s.getV d) p.1).toNat)) (storeIssuer s va) s := rfl

section VectorStore

variable {i : Instr} {d base : BitVec 4} {n : BitVec 3} {st : BitVec 1} {addr : Nat → Word} {field : Nat × Nat} {k : KWord}
  {s s1 : State} {ps : List (Nat × List Loc)} (hexec : exec i s = vectorStore d n st addr base field k s)
  (hplaces : lanePlaces .write addr base.toNat field (3, base.toNat) (lanesOf k) s = .ok (ps, s1))

include hexec hplaces

/-- A vector store whose lanes are all admitted. -/
theorem exec_of_vectorStore : exec i s = .next (advance 4 (storeLanes d n st (addr ((lanesOf k).headD 0)) ps s1)) := by
  rw [hexec, vectorStore, hplaces]
  rfl

/-- What a vector store does whose lanes are all admitted. -/
theorem vectorStore_spec : ps.map (·.1) = lanesOf k ∧ (∀ p ∈ ps, p.2.length = 4) ∧ (k = 0 → Past i 4 s s1)
    ∧ (k ≠ 0 → QueuesPieces n st i s s1 (ps.map fun p => ⟨p.2, (lane (s1.getV d) p.1).toNat, 2 ^ 32 - 1⟩)
        (ps.map fun p => decodeNum .f32 (lane (s1.getV d) p.1).toNat)) := by
  obtain ⟨hmap, hlen⟩ := lanePlaces_spec hplaces
  have hstored := exec_of_vectorStore hexec hplaces
  refine ⟨hmap, hlen, fun hk => ?_, fun hk => ?_⟩
  · rw [lanesOf_eq_nil.mpr hk, List.map_eq_nil_iff] at hmap
    subst hmap
    exact past_of_advance hstored
  · have hsome : ps ≠ [] := fun h => hk (lanesOf_eq_nil.mp (by rw [← hmap, h, List.map_nil]))
    have hparts : (ps.map fun p => wholePart p.2 (lane (s1.getV d) p.1).toNat)
        = ps.map fun p => ⟨p.2, (lane (s1.getV d) p.1).toNat, 2 ^ 32 - 1⟩ :=
      List.map_congr_left fun p hp => by rw [wholePart, hlen p hp]
    rw [storeLanes_eq, hparts] at hstored
    exact queuesPieces_of_queueStore (by simpa using hsome) hstored

end VectorStore

/-- VST is a vector store of neighbouring lanes. -/
theorem exec_vst (d a : BitVec 4) (k n : BitVec 3) (st : BitVec 1) (s : State) :
    exec (.vst d a k n st) s = vectorStore d n st (unitAddr (s.getS a)) a (3, a.toNat) (s.getK k) s := rfl

/-- VSTS is a vector store of lanes a stride apart. -/
theorem exec_vsts (d a b : BitVec 4) (k n : BitVec 3) (st : BitVec 1) (s : State) :
    exec (.vsts d a b k n st) s = vectorStore d n st (strideAddr (s.getS a) (s.getS b)) a (strideField s a b) (s.getK k) s := rfl

/-! ### FP6 groups (09 R236) -/

/-- A mask that enables an element has a group that holds it. -/
theorem groups6_ne_nil {m : KWord} (h : m ≠ 0) : groups6 m ≠ [] := by
  obtain ⟨hj, hbit, -⟩ := headD_lanesOf h
  generalize (lanesOf m).headD 32 = j at hj hbit
  refine List.ne_nil_of_mem (a := j / 4) (List.mem_filter.mpr ⟨List.mem_range.mpr (by omega), decide_eq_true fun hzero => ?_⟩)
  have htest : ((m.toNat >>> (4 * (j / 4))) % 2 ^ 4).testBit (j % 4) = true := by
    rw [Nat.testBit_mod_two_pow, Nat.testBit_shiftRight, Nat.div_add_mod, decide_eq_true (Nat.mod_lt j (by decide))]
    exact hbit
  rw [show (2 : Nat) ^ 4 = 16 from rfl, hzero] at htest
  simp at htest

/-- The first byte of a group that is accessed is one of its three. -/
theorem headD_groupBytes_lt (mask : Nat) : (groupBytes mask).headD 0 < 3 := by
  cases h : groupBytes mask with
  | nil => decide
  | cons b r =>
    have hb : b ∈ groupBytes mask := by simp [h]
    exact List.mem_range.mp (List.mem_filter.mp hb).1

/-- A piece holds the value and the mask of a group's bits from a byte of the group on. -/
def HoldsGroup (v : VWord) (m : KWord) (p : StorePart) (g : Nat) : Prop :=
  ∃ first, first < 3 ∧ p.value = (group6Bits v m g).1 / 256 ^ first ∧ p.mask = (group6Bits v m g).2 / 256 ^ first

/-- Groups that are all admitted have a piece each, in their order. -/
theorem groupStores6_spec {va : Word} {fval : Nat} {v : VWord} {m : KWord} {gs : List Nat} {s s1 : State} {ps : List StorePart}
    (h : groupStores6 va fval v m gs s = .ok (ps, s1)) : List.Forall₂ (HoldsGroup v m) ps gs := by
  induction gs generalizing s ps with
  | nil =>
    cases h
    exact .nil
  | cons g gs ih =>
    obtain ⟨⟨first, ls, u⟩, hgroup, h⟩ := checked_bind_eq_ok.mp h
    obtain ⟨⟨rest, w⟩, hrest, h⟩ := checked_bind_eq_ok.mp h
    obtain ⟨⟨ls', u'⟩, -, hfirst⟩ := checked_bind_eq_ok.mp hgroup
    cases h
    cases hfirst
    exact .cons ⟨_, headD_groupBytes_lt _, rfl, rfl⟩ (ih hrest)

/-- A bit of the four elements of a group, packed. -/
theorem testBit_packGroup (e : Nat → Nat) {f : Nat} (hf : f < 24) :
    (packElems 6 ((List.range 4).map e)).testBit f = (e (f / 6)).testBit (f % 6) := by
  rw [testBit_packElems (by decide), List.getD_eq_getElem _ _ (by simp; omega)]
  simp

/-- The bits of a piece of a group are those of the group's elements, and it changes the enabled ones. -/
theorem testBit_of_holdsGroup {v : VWord} {m : KWord} {p : StorePart} {g : Nat} (h : HoldsGroup v m p g) :
    ∃ first, first < 3 ∧ ∀ f, first * 8 ≤ f → f < 24 →
      p.value.testBit (f - 8 * first) = (VElem 8 v (4 * g + f / 6)).testBit (f % 6)
      ∧ p.mask.testBit (f - 8 * first) = m.getLsbD (4 * g + f / 6) := by
  obtain ⟨first, hfirst, hvalue, hmask⟩ := h
  refine ⟨first, hfirst, fun f hlo hhi => ?_⟩
  have hsix : f % 6 < 6 := Nat.mod_lt f (by decide)
  have hsum : f - 8 * first + 8 * first = f := by omega
  rw [hvalue, hmask, pow_256, Nat.testBit_div_two_pow, Nat.testBit_div_two_pow, hsum, group6Bits, testBit_packGroup _ hhi,
    testBit_packGroup _ hhi]
  constructor
  · rw [show (64 : Nat) = 2 ^ 6 from rfl, Nat.testBit_mod_two_pow, decide_eq_true hsix, Bool.true_and]
  · split
    · rw [show (63 : Nat) = 2 ^ 6 - 1 from rfl, Nat.testBit_two_pow_sub_one, decide_eq_true hsix, ‹m.getLsbD _ = true›]
    · rw [Nat.zero_testBit, Bool.eq_false_iff.mpr ‹¬ m.getLsbD _ = true›]

/-- VST6 with no element enabled. -/
theorem exec_vst6_none {d a : BitVec 4} {k n : BitVec 3} {st : BitVec 1} {s : State} (hk : s.getK k = 0) :
    exec (.vst6 d a k n st) s = .next (advance 4 s) := if_pos hk

/-- VST6 of groups that are all admitted. -/
theorem exec_vst6_some {d a : BitVec 4} {k n : BitVec 3} {st : BitVec 1} {s s1 : State} {ps : List StorePart} (hk : s.getK k ≠ 0)
    (hal : (s.getS a).toNat % 8 = 0)
    (hplaces : groupStores6 (s.getS a) a.toNat (s.getV d) (s.getK k) (groups6 (s.getK k)) s = .ok (ps, s1)) :
    exec (.vst6 d a k n st) s = .next (advance 4 (queueStore none ps
      (storePartial s1 n st ((lanesOf (s.getK k)).map fun j => decodeNum .fp6 (VElem 8 (s.getV d) j % 64))) (storeIssuer s1 (s.getS a)) s1)) := by
  change execVst6 d a k n st s = _
  rw [execVst6, if_neg hk, if_neg (not_not.mpr hal)]
  simp only [hplaces]

/-- Settles O31: the pieces of the lanes, or of the groups of FP6 elements, join the queue as one store with the partial of what it
delivers. -/
theorem vectorStores : Obligations.VectorStores := by
  intro d a b k n st s K carries queues
  refine ⟨List.forall_mem_cons.mpr ⟨?unit, List.forall_mem_singleton.mpr ?strided⟩, fun hk => past_of_advance (exec_vst6_none hk), ?groups⟩
  case unit => exact fun ps s1 => vectorStore_spec (exec_vst d a k n st s)
  case strided => exact fun ps s1 => vectorStore_spec (exec_vsts d a b k n st s)
  case groups =>
    intro hk hal ps s1 hplaces
    have hgroups := groupStores6_spec hplaces
    have hlen := hgroups.length_eq
    refine ⟨queuesPieces_of_queueStore (fun hnil => groups6_ne_nil hk (List.eq_nil_of_length_eq_zero (by rw [← hlen, hnil]; rfl)))
      (exec_vst6_some hk hal hplaces), hlen, fun j p g hp hg => ?_⟩
    have hholds := List.forall₂_iff_get.mp hgroups
    obtain ⟨hjp, rfl⟩ := List.getElem?_eq_some_iff.mp hp
    obtain ⟨hjg, rfl⟩ := List.getElem?_eq_some_iff.mp hg
    exact testBit_of_holdsGroup (hholds.2 j hjp hjg)

/-! ### Gathers and scatters (09 R235) -/

/-- The lanes that are left to do are the enabled ones from ERX up. -/
theorem lanesFrom_eq (erx : BitVec 32) (k : KWord) : lanesFrom erx k = (lanesOf k).filter fun i => decide (erx.toNat ≤ i) := by
  rw [lanesFrom]
  split
  · refine (List.filter_eq_nil_iff.mpr fun i hi => ?_).symm
    have := lt_of_mem_lanesOf hi
    simp only [decide_eq_true_eq]
    omega
  · rfl

section LaneWise

variable {d a b : BitVec 4} {k n : BitVec 3} {st : BitVec 1} {s s1 : State} {ps : List (Nat × List Loc)} {stop : Option (Nat × Trap)}

/-- A gather loads the lanes before the first that fails, and ends with it or past the last. -/
theorem exec_vldx (h : progress (gatherLane (indexAddr (s.getS a) (s.getV b)) a b)
      ((lanesOf (s.getK k)).filter fun i => decide (s.th.erx.toNat ≤ i)) s = (ps, stop, s1)) :
    exec (.vldx d a b k) s = .next (lanesEnd stop (loadLanes d (indexAddr (s.getS a) (s.getV b)) ps s1)) := by
  rw [← lanesFrom_eq] at h
  change execVldx d a b k s = _
  simp only [execVldx, h]

/-- A scatter stores the lanes before the first that fails, and ends with it or past the last. -/
theorem exec_vstx (h : progress (fun i => lanePlace .write (indexAddr (s.getS a) (s.getV b) i) a.toNat (4, b.toNat) (4, b.toNat))
      ((lanesOf (s.getK k)).filter fun i => decide (s.th.erx.toNat ≤ i)) s = (ps, stop, s1)) :
    exec (.vstx d a b k n st) s
      = .next (lanesEnd stop (storeLanes d n st (indexAddr (s.getS a) (s.getV b) ((ps.head?.map (·.1)).getD 0)) ps s1)) := by
  rw [← lanesFrom_eq] at h
  change execVstx d a b k n st s = _
  simp only [execVstx, h]

/-- Where no lane fails a lane-wise instruction ends with ERX 0; where one does it takes the lane's trap with ERX the lane. -/
theorem laneWise_ends {i : Instr} {u : State} (hexec : exec i s = .next (lanesEnd stop u)) :
    (stop = none → Past i 4 s { u with th := { u.th with erx := BitVec.ofNat 32 0 } })
    ∧ ∀ j tr, stop = some (j, tr) → exec i s = .next (takeTrap tr { u with th := { u.th with erx := BitVec.ofNat 32 j } }) := by
  constructor
  · rintro rfl
    exact past_of_advance hexec
  · rintro j tr rfl
    exact hexec

end LaneWise

/-- Settles O32: a gather and a scatter go through the lanes from ERX up; what they do with those before the first that fails is a load
or a store of these lanes. -/
theorem gatherScatter : Obligations.GatherScatter := by
  intro d a b k n st s addr K lanes erx loaded stored
  constructor
  · intro ps stop s1 h
    refine ⟨_, ?_, laneWise_ends (exec_vldx h)⟩
    by_cases hps : ps = []
    · subst hps
      exact (if_pos rfl).mpr rfl
    · exact (if_neg hps).mpr (beginsLoad_loadLanes d addr hps s1)
  · intro ps stop s1 h
    refine ⟨_, ?_, laneWise_ends (exec_vstx h)⟩
    rw [storeLanes_eq]
    by_cases hps : ps = []
    · subst hps
      exact (if_pos rfl).mpr rfl
    · obtain ⟨q, hjoined, -, hparts, hrel, -, hpart⟩ := queueStore_pieces (s := s1) (rel := none)
        (part := storePartial s1 n st (ps.map fun p => decodeNum .f32 (lane (s1.getV d) p.1).toNat)) (issuer := storeIssuer s1 _)
        (parts := ps.map fun p => wholePart p.2 (lane (s1.getV d) p.1).toNat) (by simpa using hps)
      exact (if_neg hps).mpr ⟨q, hjoined, hparts, hrel, (carries_storePartial hpart).1⟩

end Sys2Proof.Machine
end

/-! ## What the updates of replicas leave (11 R243, R246, 09 R239) -/
section
namespace Sys2Proof.Machine

open Sys2Proof

/-- The lines of which a stand holds replicas, stand by stand. -/
def State.replicaLines (s : State) (n : Nat) : List Nat := (s.stand n).replicas

/-- A stand set with the lines that it holds keeps what every stand holds. -/
theorem replicaLines_setStand {s : State} {st : Nat} {x : Stand} (h : x.replicas = (s.stand st).replicas) :
    (s.setStand st x).replicaLines = s.replicaLines := by
  funext n
  by_cases hn : n = st
  · subst hn
    simp [State.replicaLines, h]
  · simp [State.replicaLines, State.setStand_ne _ _ _ _ hn]

/-- `t` is `s` but for messages, and for the bytes of replicas and the clocks of stands, each of which holds the lines that it held. -/
def UpdatesOnly (s t : State) : Prop :=
  t = { s with stands := t.stands, msgs := t.msgs, fresh := t.fresh } ∧ t.replicaLines = s.replicaLines

/-- Updates leave what holds the bytes at their homes, and the cores. -/
theorem UpdatesOnly.homes {s t : State} (h : UpdatesOnly s t) : t.dram = s.dram ∧ t.wt = s.wt ∧ t.l2 = s.l2 ∧ t.cores = s.cores := by
  rw [h.1]
  exact ⟨rfl, rfl, rfl, rfl⟩

/-- No change is one of updates. -/
theorem UpdatesOnly.refl (s : State) : UpdatesOnly s s := ⟨rfl, rfl⟩

/-- Updates after updates. -/
theorem UpdatesOnly.trans {r s t : State} (h : UpdatesOnly r s) (h' : UpdatesOnly s t) : UpdatesOnly r t :=
  ⟨by rw [h'.1, h.1], h'.2.trans h.2⟩

/-- Updates for each member of a list. -/
theorem UpdatesOnly.foldl {α : Type} {f : State → α → State} (hf : ∀ s a, UpdatesOnly s (f s a)) (l : List α) (s : State) :
    UpdatesOnly s (l.foldl f s) :=
  List.foldlRecOn l f (motive := UpdatesOnly s) (.refl s) fun t ht a _ => ht.trans (hf t a)

/-- A stand that applies an update. -/
theorem applyUpdate_updates (st home : Nat) (stamp : List Nat) (bytes : List (Nat × Byte)) (s : State) :
    UpdatesOnly s (applyUpdate st home stamp bytes s) := ⟨rfl, replicaLines_setStand rfl⟩

/-- A stand that applies all that a clock covers. -/
theorem applyUpTo_updates (st : Nat) (t : List Nat) (s : State) : UpdatesOnly s (applyUpTo st t s) := by
  simp only [applyUpTo]
  split
  · exact .refl s
  · exact UpdatesOnly.trans (s := { s with msgs := _ }) ⟨rfl, rfl⟩ (.foldl (fun _ _ => applyUpdate_updates ..) _ _)

/-- The stamp of a write, and its updates. -/
theorem stampWrite_updates (home : Nat) (w : Writer) (bytes : List (Nat × Byte)) (s : State) :
    UpdatesOnly s (stampWrite home w bytes s) := by
  unfold stampWrite
  extract_lets cs seen u h n stamp v z
  have hnumbered : UpdatesOnly u v := ⟨rfl, replicaLines_setStand rfl⟩
  have hsent : UpdatesOnly v z := .foldl (fun x j => by
    split
    · exact .refl x
    · dsimp only
      split
      · exact applyUpdate_updates ..
      · exact ⟨rfl, rfl⟩) _ _
  have hz : UpdatesOnly s z := ((applyUpTo_updates ..).trans hnumbered).trans hsent
  split
  · exact hz
  · exact hz.trans (applyUpTo_updates ..)

/-! ### Copies of a line that go (09 R239) -/

/-- A stand's replica of a line that is dropped, where it has one: the step of `dropReplicas`. -/
def dropHeldReplica (line : Nat) (s : State) (j : Nat) : State :=
  if (s.stand j).replicas.contains line then
    s.setStand j { s.stand j with replicas := (s.stand j).replicas.filter (· ≠ line), replica := Memory.clear (s.stand j).replica (64 * line) 64 }
  else s

/-- Only stands change where a stand drops a replica. -/
theorem dropHeldReplica_frame (line : Nat) (s : State) (j : Nat) :
    dropHeldReplica line s j = { s with stands := (dropHeldReplica line s j).stands } := by
  rw [dropHeldReplica]
  split <;> rfl

/-- A line of which a stand still has a replica was there before, in a stand other than the one that dropped it. -/
theorem mem_replicaLines_dropHeldReplica {line j n : Nat} {s : State} (h : line ∈ (dropHeldReplica line s j).replicaLines n) :
    line ∈ s.replicaLines n ∧ n ≠ j := by
  rw [dropHeldReplica] at h
  by_cases hn : n = j
  · subst hn
    split at h
    · simp [State.replicaLines] at h
    · exact absurd (List.contains_iff_mem.mpr h) ‹_›
  · refine ⟨?_, hn⟩
    split at h
    · rwa [State.replicaLines, State.setStand_ne _ _ _ _ hn] at h
    · exact h

/-- The same, of the stands of a list one after the other. -/
theorem mem_replicaLines_foldl {line n : Nat} (js : List Nat) {s : State} (h : line ∈ (js.foldl (dropHeldReplica line) s).replicaLines n) :
    line ∈ s.replicaLines n ∧ n ∉ js := by
  induction js generalizing s with
  | nil => exact ⟨h, List.not_mem_nil⟩
  | cons j js ih =>
    obtain ⟨hdropped, hjs⟩ := ih h
    obtain ⟨hline, hj⟩ := mem_replicaLines_dropHeldReplica hdropped
    exact ⟨hline, List.not_mem_cons_of_ne_of_not_mem hj hjs⟩

/-- Only stands change where the stands of a list drop their replicas. -/
theorem foldl_dropHeldReplica_frame (line : Nat) (js : List Nat) (s : State) :
    js.foldl (dropHeldReplica line) s = { s with stands := (js.foldl (dropHeldReplica line) s).stands } :=
  List.foldlRecOn js _ (motive := fun t : State => t = { s with stands := t.stands }) rfl fun t ht j _ => by
    rw [dropHeldReplica_frame, ht]

/-- Every stand drops its replica of a line, and updates on their way lose the line's bytes. -/
theorem dropReplicas_eq (line : Nat) (s : State) :
    ∃ ms, dropReplicas line s = { (List.range 4).foldl (dropHeldReplica line) s with msgs := ms } := by
  unfold dropReplicas
  generalize List.range 4 = js
  exact ⟨_, rfl⟩

/-- Where every stand has dropped its replica of a line, no stand has one, and nothing but stands and messages has changed. -/
theorem dropReplicas_spec (line : Nat) (s : State) : (∃ st ms, dropReplicas line s = { s with stands := st, msgs := ms })
    ∧ ∀ n < 4, line ∉ (dropReplicas line s).replicaLines n := by
  obtain ⟨ms, hdrop⟩ := dropReplicas_eq line s
  have hframe := foldl_dropHeldReplica_frame line (List.range 4) s
  have hgone : ∀ n < 4, line ∉ ((List.range 4).foldl (dropHeldReplica line) s).replicaLines n := fun n hn h =>
    (mem_replicaLines_foldl (List.range 4) h).2 (List.mem_range.mpr hn)
  rw [hdrop]
  generalize (List.range 4).foldl (dropHeldReplica line) s = x at hframe hgone
  exact ⟨⟨x.stands, ms, by rw [hframe]⟩, hgone⟩

/-- No L1 has a line that goes from every L1. -/
theorem dropL1All_spec (line : Nat) (s : State) : ∀ c ∈ (dropL1All line s).cores, ∀ e ∈ c.2.l1, e.1 ≠ line := by
  intro c hc e he
  obtain ⟨p, -, rfl⟩ := List.mem_map.mp hc
  simpa using (List.mem_filter.mp he).2

/-- Every copy of a line goes, but for M memory, and nothing else at the homes. -/
theorem dropCopies_spec {line mt : Nat} {s u : State} (hu : (if mt = 2 then s else dropL1All line (dropReplicas line s)) = u) :
    u.dram = s.dram ∧ u.wt = s.wt ∧ u.l2 = s.l2
    ∧ (mt ≠ 2 → (∀ c ∈ u.cores, ∀ e ∈ c.2.l1, e.1 ≠ line) ∧ ∀ n < 4, line ∉ u.replicaLines n) := by
  obtain ⟨⟨st, ms, hdrop⟩, hlines⟩ := dropReplicas_spec line s
  generalize dropReplicas line s = x at hdrop hlines hu
  by_cases hmt : mt = 2
  · rw [if_pos hmt] at hu
    subst hu
    exact ⟨rfl, rfl, rfl, fun h => absurd hmt h⟩
  · rw [if_neg hmt] at hu
    subst hdrop hu
    exact ⟨rfl, rfl, rfl, fun _ => ⟨dropL1All_spec line _, hlines⟩⟩

/-- A stamp where a write has one. -/
theorem stampWhere_updates (c : Bool) (home : Nat) (w : Writer) (bytes : List (Nat × Byte)) (s : State) :
    UpdatesOnly s (if c = true then stampWrite home w bytes s else s) := by
  split
  · exact stampWrite_updates ..
  · exact .refl s

/-- What DISCARD does at the home of a line: the dirty data of N memory go, and but for M memory every copy in an L1 or replica. -/
theorem discardLine_spec {w : Writer} {a mt : Nat} {s u : State} (hu : discardLine w a mt s = u) :
    u.dram = s.dram ∧ u.wt = s.wt ∧ (mt = 0 → u.l2 = s.l2.filter fun p => lineOf p.1 ≠ lineOf a) ∧ (mt ≠ 0 → u.l2 = s.l2)
    ∧ (mt ≠ 2 → (∀ c ∈ u.cores, ∀ e ∈ c.2.l1, e.1 ≠ lineOf a) ∧ ∀ n < 4, lineOf a ∉ u.replicaLines n) := by
  unfold discardLine at hu
  extract_lets line r v z at hu
  obtain ⟨hdram, hwt, hl2, hcopies⟩ : z.dram = v.dram ∧ z.wt = v.wt ∧ z.l2 = v.l2 ∧ _ := dropCopies_spec rfl
  have hstamp := stampWhere_updates (z.ownPa a && mt != 2) (paStand a) w [] z
  generalize (if (z.ownPa a && mt != 2) = true then stampWrite (paStand a) w [] z else z) = x at hstamp hu
  subst hu
  obtain ⟨hdram', hwt', hl2', hcores'⟩ := hstamp.homes
  have hv : v.dram = s.dram ∧ v.wt = s.wt ∧ (mt = 0 → v.l2 = s.l2.filter fun p => lineOf p.1 ≠ lineOf a) ∧ (mt ≠ 0 → v.l2 = s.l2) := by
    by_cases hmt : mt = 0
    · simp only [v, if_pos hmt]
      exact ⟨rfl, rfl, fun _ => rfl, fun h => absurd hmt h⟩
    · simp only [v, if_neg hmt]
      exact ⟨rfl, rfl, fun h => absurd h hmt, fun _ => rfl⟩
  obtain ⟨hvdram, hvwt, hvN, hvother⟩ := hv
  refine ⟨hdram'.trans (hdram.trans hvdram), hwt'.trans (hwt.trans hvwt), fun h => hl2'.trans (hl2.trans (hvN h)),
    fun h => hl2'.trans (hl2.trans (hvother h)), fun h => ?_⟩
  obtain ⟨hl1, hreplicas⟩ := hcopies h
  rw [← hcores'] at hl1
  rw [← hstamp.2] at hreplicas
  exact ⟨hl1, hreplicas⟩

end Sys2Proof.Machine
end

/-! ## Line operations (09 R238-R240) -/
section
namespace Sys2Proof.Machine

open Sys2Proof

/-! ### DISCARD and WBACK as they issue -/

section LineOp

variable {i : Instr} {k : Access} {discard : Bool} {a : BitVec 4} {s : State} (hexec : exec i s = lineOp k discard a s)

include hexec

/-- A line operation on memory joins the queue of the thread's stores. -/
theorem past_of_lineOp_memory {x mt : Nat} {r : List Loc} {s1 : State}
    (hplace : spanPlace k (s.getS a) 1 1 3 a.toNat s = .ok (.pa x mt :: r, s1)) :
    Past i 4 s { s1 with fresh := s1.fresh + 1
                         th := { s1.th with sq := s1.th.sq
                           ++ [.line s1.fresh discard (.pa x mt) (issueClocks false (Loc.pa x mt).line s1)] } } := by
  simp only [lineOp, hplace] at hexec
  exact past_of_advance hexec

/-- A line operation on a local store or a scratchpad does nothing. -/
theorem past_of_lineOp_elsewhere {p : Loc} {r : List Loc} {s1 : State} (hp : ∀ x mt, p ≠ .pa x mt)
    (hplace : spanPlace k (s.getS a) 1 1 3 a.toNat s = .ok (p :: r, s1)) : Past i 4 s s1 := by
  cases p with
  | pa x mt => exact absurd rfl (hp x mt)
  | ls | sp =>
    simp only [lineOp, hplace] at hexec
    exact past_of_advance hexec

/-- A line operation whose address is refused takes the trap. -/
theorem trap_of_lineOp {tr : Trap} (hplace : spanPlace k (s.getS a) 1 1 3 a.toNat s = .error tr) : exec i s = .next (takeTrap tr s) := by
  simp only [hexec, lineOp, hplace]

end LineOp

/-! ### PREF: what L1s and replicas take (09 R218, 11 R246) -/

/-- `t` is `s` but for the L1s of cores, for replicas with the updates on their way to them, and for the free choices made. -/
def CachesOnly (s t : State) : Prop :=
  t = { s with stands := t.stands, msgs := t.msgs, fresh := t.fresh, cores := t.cores, free := t.free }
    ∧ ∀ c, (t.core c).ls = (s.core c).ls

/-- No change is one of caches. -/
theorem CachesOnly.refl (s : State) : CachesOnly s s := ⟨rfl, fun _ => rfl⟩

/-- Changes of caches after changes of caches. -/
theorem CachesOnly.trans {r s t : State} (h : CachesOnly r s) (h' : CachesOnly s t) : CachesOnly r t :=
  ⟨by rw [h'.1, h.1], fun c => (h'.2 c).trans (h.2 c)⟩

/-- Changes of caches for each member of a list. -/
theorem CachesOnly.foldl {α : Type} {f : State → α → State} (hf : ∀ s a, CachesOnly s (f s a)) (l : List α) (s : State) :
    CachesOnly s (l.foldl f s) :=
  List.foldlRecOn l f (motive := CachesOnly s) (.refl s) fun t ht a _ => ht.trans (hf t a)

/-- Updates of replicas are changes of caches. -/
theorem UpdatesOnly.caches {s t : State} (h : UpdatesOnly s t) : CachesOnly s t := by
  rw [h.1]
  exact ⟨rfl, fun _ => rfl⟩

/-- A stand that is set is a change of caches. -/
theorem setStand_caches (st : Nat) (x : Stand) (s : State) : CachesOnly s (s.setStand st x) := ⟨rfl, fun _ => rfl⟩

/-- A free choice is a change of caches. -/
theorem draw_caches (s : State) : CachesOnly s s.draw := ⟨rfl, fun _ => rfl⟩

/-- A core set with another L1 keeps every local store. -/
theorem setCore_caches {s : State} {c : Nat} {x : Core} (h : x.ls = (s.core c).ls) : CachesOnly s (s.setCore c x) := by
  refine ⟨rfl, fun d => ?_⟩
  by_cases hd : d = c
  · subst hd
    rw [State.core_setCore_self, h]
  · rw [State.core_setCore_ne _ _ _ _ hd]

/-- An L1 takes a line. -/
theorem fillL1_caches (h line : Nat) (bytes : List Byte) (s : State) : CachesOnly s (fillL1 h line bytes s) := by
  unfold fillL1
  dsimp only
  split
  · exact setCore_caches rfl
  · exact (draw_caches s).trans (setCore_caches rfl)

/-- A load of a core touches a line. -/
theorem touchL1_caches (core a mt : Nat) (s : State) : CachesOnly s (touchL1 core a mt s) := by
  unfold touchL1
  split
  · exact .refl s
  · dsimp only
    split
    · exact fillL1_caches ..
    · split
      · exact .refl s
      · split
        · exact draw_caches s
        · exact (draw_caches s).trans (fillL1_caches ..)

/-- A stand takes a replica of a line. -/
theorem fillReplica_caches (stand a mt : Nat) (s : State) : CachesOnly s (fillReplica stand a mt s) := by
  unfold fillReplica
  extract_lets line fill
  have hfill (u : State) : CachesOnly u (fill u) := (applyUpTo_updates ..).caches.trans (setStand_caches ..)
  split
  · exact .refl s
  · split
    · exact hfill s
    · split
      · exact .refl s
      · split
        · exact draw_caches s
        · exact ((draw_caches s).trans (setStand_caches ..)).trans (hfill _)

/-- Changes of caches leave every byte of memory, and every thread. -/
theorem CachesOnly.leaves {s t : State} (h : CachesOnly s t) : SameMemory s t ∧ t.th = s.th ∧ t.threads = s.threads := by
  obtain ⟨ht, hls⟩ := h
  refine ⟨⟨?_, ?_, ?_, hls, ?_⟩, ?_, ?_⟩
  all_goals rw [ht]
  exact fun _ => rfl

/-- PREF moves past itself from a state in which caches at most have changed. -/
theorem exec_pref (a : BitVec 4) (l : BitVec 1) (s : State) : ∃ u, exec (.pref a l) s = .next (advance 4 u) ∧ CachesOnly s u := by
  refine ⟨_, rfl, ?_⟩
  split
  · split
    · exact .refl s
    · exact (fillReplica_caches ..).trans (touchL1_caches ..)
  · exact .refl s

/-! ### At the home of the line -/

/-- A line operation of a thread at the home of its line. -/
theorem lineHome_memory (t : Thread) (i : Nat) (discard : Bool) (x mt : Nat) (cs : List (List Nat)) (s : State) :
    lineHome t i discard (.pa x mt) cs s
      = (let u := s.onThread t.id fun t => { t with sq := eraseEntry i t.sq }
        if discard then discardLine { stand := standOfCore t.core, clocks := cs, tid := t.id } x mt u else writeBack (lineOf x) u) := rfl

@[simp] theorem State.onThread_wt (s : State) (tid : Nat) (f : Thread → Thread) : (s.onThread tid f).wt = s.wt := by
  rw [State.onThread_frame]

@[simp] theorem State.onThread_l2 (s : State) (tid : Nat) (f : Thread → Thread) : (s.onThread tid f).l2 = s.l2 := by
  rw [State.onThread_frame]

/-- Settles O33: an operation on memory joins the queue; at its home DISCARD leaves all but the line's dirty data and copies, and
WBACK empties what holds the line; PREF changes caches only. -/
theorem lineOperations : Obligations.LineOperations := by
  constructor
  · intro a l s joins
    have hjoins {i : Instr} {discard : Bool} {k : Access} (hexec : exec i s = lineOp k discard a s) : joins i discard k := by
      intro p r s1 hplace
      constructor
      · rintro x mt rfl
        exact past_of_lineOp_memory hexec hplace
      · exact fun hp => past_of_lineOp_elsewhere hexec hp hplace
    obtain ⟨u, hpref, hcaches⟩ := exec_pref a l s
    obtain ⟨hmem, hth, hthreads⟩ := hcaches.leaves
    exact ⟨hjoins rfl, hjoins rfl, fun _ => trap_of_lineOp rfl, fun _ => trap_of_lineOp rfl,
      _, u, hpref, movesPast_advance 4 u, hmem, hth, hthreads⟩
  · intro t i x mt cs s
    simp only [lineHome_memory, if_true, Bool.false_eq_true, if_false]
    constructor
    · obtain ⟨hdram, hwt, hN, hother, hcopies⟩ := discardLine_spec (s := s.onThread t.id fun t => { t with sq := eraseEntry i t.sq })
        (w := { stand := standOfCore t.core, clocks := cs, tid := t.id }) (a := x) (mt := mt) rfl
      simp only [State.onThread_dram, State.onThread_wt, State.onThread_l2] at hdram hwt hN hother
      refine ⟨hdram, hwt, fun h p => ?_, hother, hcopies⟩
      rw [hN h, List.mem_filter, decide_eq_true_eq]
    · rw [writeBack_frame]
      simp only [State.onThread_l2, State.onThread_wt, List.mem_filter, decide_eq_true_eq]
      exact ⟨fun _ h => h.2, fun _ h => h.2, fun _ hp h => ⟨hp, h⟩⟩

end Sys2Proof.Machine
end

/-! ## What performing stores leaves of the loads of threads (11 R243-R249) -/
section
namespace Sys2Proof.Machine

open Sys2Proof

/-- Every thread's number, with the load-path results that it has outstanding. -/
def State.heldLoads (s : State) : List (Nat × List Load) := s.all.map fun x => (x.id, x.loads)

/-- A thread is found with the results that it held. -/
theorem thread?_of_heldLoads {s t : State} (h : t.heldLoads = s.heldLoads) {tid : Nat} {x : Thread} (hx : s.thread? tid = some x) :
    ∃ y, t.thread? tid = some y ∧ y.loads = x.loads := by
  have hfind (u : State) : (u.thread? tid).map (fun x => (x.id, x.loads)) = u.heldLoads.find? fun p => p.1 == tid := by
    rw [State.heldLoads, List.find?_map]
    rfl
  have ht := hfind t
  rw [h, ← hfind s, hx] at ht
  obtain ⟨y, hy, hsame⟩ := Option.map_eq_some_iff.mp ht
  exact ⟨y, hy, congrArg Prod.snd hsame⟩

/-- A change of a thread that keeps its number and its results. -/
theorem heldLoads_onThread {f : Thread → Thread} (hf : ∀ x, (f x).id = x.id ∧ (f x).loads = x.loads) (tid : Nat) (s : State) :
    (s.onThread tid f).heldLoads = s.heldLoads := by
  unfold State.onThread
  split
  · simp only [State.heldLoads, State.all, List.map_cons, hf]
  · simp only [State.heldLoads, State.all, List.map_cons, List.map_map, Function.comp_def]
    congr 1
    refine List.map_congr_left fun x _ => ?_
    split
    · rw [(hf x).1, (hf x).2]
    · rfl

/-- Changes of caches leave the threads' results. -/
theorem CachesOnly.heldLoads {s t : State} (h : CachesOnly s t) : t.heldLoads = s.heldLoads := by
  rw [h.1]
  rfl

/-- Updates of replicas leave the threads' results. -/
theorem UpdatesOnly.heldLoads {s t : State} (h : UpdatesOnly s t) : t.heldLoads = s.heldLoads := h.caches.heldLoads

/-- What each change of a list leaves, all of them leave. -/
theorem foldl_keeps {α β : Type} (p : State → β) {f : State → α → State} (hf : ∀ s a, p (f s a) = p s) (l : List α) (s : State) :
    p (l.foldl f s) = p s :=
  List.foldlRecOn l f (motive := fun t : State => p t = p s) rfl fun t ht a _ => (hf t a).trans ht

/-! ### Writes at home -/

@[simp] theorem heldLoads_wakeSpinners (hit : Loc → Bool) (s : State) : (wakeSpinners hit s).heldLoads = s.heldLoads := by
  have hkeep (x : Thread) : ∀ y, y = (match x.status with
      | .spinning l c p w => { x with status := .spinning l c p (w || hit l) }
      | _ => x) → (y.id, y.loads) = (x.id, x.loads) := by
    rintro y rfl
    split <;> rfl
  simp only [State.heldLoads, State.all, wakeSpinners, List.map_cons, List.map_map]
  congr 1
  · exact hkeep _ _ rfl
  · exact List.map_congr_left fun x _ => hkeep x _ rfl

@[simp] theorem heldLoads_writeBack (line : Nat) (s : State) : (writeBack line s).heldLoads = s.heldLoads := by
  rw [writeBack_frame]
  rfl

@[simp] theorem heldLoads_evictL2 (a : Nat) (s : State) : (evictL2 a s).heldLoads = s.heldLoads := by
  unfold evictL2
  split
  · rfl
  · exact heldLoads_writeBack ..

@[simp] theorem heldLoads_putBytes (w : Writer) (mt : Nat) (bytes : List (Nat × Byte)) (s : State) :
    (putBytes w mt bytes s).heldLoads = s.heldLoads := by
  have hheld (es : List Nat) : (holdElems es s).heldLoads = s.heldLoads := by
    unfold holdElems
    split <;> rfl
  unfold putBytes
  split
  · exact hheld _
  · split <;> rfl

@[simp] theorem heldLoads_noteWrite (a : Nat) (s : State) : (noteWrite a s).heldLoads = s.heldLoads := heldLoads_wakeSpinners ..

/-- Bytes that are written at their home. -/
@[simp] theorem heldLoads_homeWrite (w : Writer) (mt : Nat) (bytes : List (Nat × Byte)) (s : State) :
    (homeWrite w mt bytes s).heldLoads = s.heldLoads := by
  unfold homeWrite
  split
  · rfl
  · extract_lets u v
    have hv : v.heldLoads = s.heldLoads := by
      simp only [v, u]
      split
      · exact (heldLoads_evictL2 ..).trans (heldLoads_putBytes ..)
      · exact heldLoads_putBytes ..
    rw [heldLoads_noteWrite, (stampWhere_updates ..).heldLoads, hv]

@[simp] theorem heldLoads_lsStoreByte (c off : Nat) (b : Byte) (s : State) : (lsStoreByte c off b s).heldLoads = s.heldLoads := by
  unfold lsStoreByte
  dsimp only
  split <;> rfl

/-- Bytes of one line that are written to their places. -/
@[simp] theorem heldLoads_storeGroup (w : Writer) (s : State) (g : List (Loc × Byte)) : (storeGroup w s g).heldLoads = s.heldLoads := by
  unfold storeGroup
  split
  · rfl
  · exact heldLoads_homeWrite ..
  · rw [heldLoads_wakeSpinners]
    refine foldl_keeps State.heldLoads (fun v p => ?_) _ s
    split
    · exact heldLoads_lsStoreByte ..
    · rfl
    · rfl

/-- Bytes that are written to their places. -/
@[simp] theorem heldLoads_storeLocs (w : Writer) (bytes : List (Loc × Byte)) (s : State) : (storeLocs w bytes s).heldLoads = s.heldLoads :=
  foldl_keeps State.heldLoads (heldLoads_storeGroup w) _ s

/-! ### The device's own accesses (09 R224-R230) -/

@[simp] theorem heldLoads_retire (b : BadStorage) (s : State) : (retire b s).heldLoads = s.heldLoads := by
  unfold retire
  dsimp only
  split
  · rfl
  · split
    · rfl
    · split
      · split <;> rfl
      · rfl

@[simp] theorem heldLoads_countWalk (va root : Nat) (s : State) : (countWalk va root s).heldLoads = s.heldLoads := by
  unfold countWalk
  split
  · rfl
  · refine foldl_keeps State.heldLoads (fun u l => ?_) _ s
    split
    · split
      · exact heldLoads_retire ..
      · rfl
    · rfl

@[simp] theorem heldLoads_findLeaf (w : Who) (va root : Nat) (s : State) : (findLeaf w va root s).2.heldLoads = s.heldLoads := by
  unfold findLeaf
  extract_lets fresh u
  clear_value fresh
  have hu : u.heldLoads = s.heldLoads := heldLoads_countWalk ..
  have hdraw : u.draw.heldLoads = s.heldLoads := hu
  split
  · exact hu
  · split
    · split
      · exact hu
      · split <;> exact hdraw
    · split <;> exact hdraw

@[simp] theorem heldLoads_fillTlbs (w : Who) (e : TlbEntry) (s : State) : (fillTlbs w e s).heldLoads = s.heldLoads := by
  unfold fillTlbs
  split
  · rfl
  · refine foldl_keeps State.heldLoads (fun u p => ?_) _ s
    unfold fillTlb
    dsimp only
    split <;> rfl

@[simp] theorem heldLoads_useLeaf (w : Who) (stores : Bool) (va : Nat) (leaf : Nat × Nat × Nat) (s : State) :
    (useLeaf w stores va leaf s).heldLoads = s.heldLoads := by
  obtain ⟨e, at_, level⟩ := leaf
  unfold useLeaf
  dsimp only
  rw [heldLoads_fillTlbs]
  generalize e ||| 0x40 ||| (if stores then 0x80 else 0) = e'
  split
  · rfl
  · exact heldLoads_homeWrite ..

/-- An address that translates. -/
theorem heldLoads_translate {w : Who} {k : Access} {va : Nat} {s t : State} {pa mt : Nat} (h : translate w k va s = .ok (pa, mt, t)) :
    t.heldLoads = s.heldLoads := by
  unfold translate at h
  split at h
  · cases h
  next p _ =>
    split at h
    · cases h
    · cases h
    next e at_ level u hleaf =>
      have hu : u.heldLoads = s.heldLoads := by rw [← heldLoads_findLeaf w va p.grant.ptroot s, hleaf]
      split at h
      · cases h
      · dsimp only at h
        split at h
        · cases h
        · split at h
          · cases h
          · cases h
            rw [heldLoads_useLeaf, hu]

@[simp] theorem heldLoads_settleWays (g va : Nat) (s : State) : (settleWays g va s).heldLoads = s.heldLoads := by
  unfold settleWays
  split
  · unfold completeWays
    dsimp only
    split
    · show State.heldLoads (if _ then _ else _) = _
      split
      · exact foldl_keeps State.heldLoads (fun u l => heldLoads_writeBack l u) _ _
      · rfl
    · rfl
  · rfl

/-- An address that resolves, with the change of WAYS that it may wait for. -/
theorem heldLoads_resolve {w : Who} {k : Access} {va : Nat} {s t : State} {l : Loc} (h : resolve w k va s = .ok (l, t)) :
    t.heldLoads = s.heldLoads := by
  have htranslate {u : State} (h : (translate w k va u).map (fun r => (Loc.pa r.1 r.2.1, r.2.2)) = .ok (l, t)) : t.heldLoads = u.heldLoads := by
    cases hr : translate w k va u with
    | error f => rw [hr] at h; cases h
    | ok r =>
      rw [hr] at h
      cases h
      exact heldLoads_translate hr
  unfold resolve at h
  split at h
  · cases h
  · split at h
    · split at h
      · cases h
      · dsimp only at h
        split at h
        · cases h
        · split at h
          · cases h
          · cases h
            rfl
    · split at h
      next g _ =>
        extract_lets u x off size at h
        split at h
        · split at h
          · cases h
          · split at h
            · obtain ⟨-, rfl⟩ : Loc.sp g off = l ∧ u = t := by simpa using h
              exact heldLoads_settleWays ..
            · cases h
        · exact (htranslate h).trans (heldLoads_settleWays ..)
      · exact htranslate h

/-- A span that resolves. -/
theorem heldLoads_resolveSpan {w : Who} {k : Access} {fuel va len : Nat} {s t : State} {sp : List (Loc × Nat)}
    (h : resolveSpan w k fuel va len s = .ok (sp, t)) : t.heldLoads = s.heldLoads := by
  induction fuel generalizing va len s sp with
  | zero =>
    cases h
    rfl
  | succ fuel ih =>
    rw [resolveSpan] at h
    split at h
    · cases h
      rfl
    · dsimp only at h
      split at h
      · cases h
      next l u hresolve =>
        split at h
        · cases h
        next ls v hrest =>
          cases h
          rw [ih hrest, heldLoads_resolve hresolve]

@[simp] theorem heldLoads_storeAtHomes (bytes : List (Loc × Byte)) (s : State) : (storeAtHomes bytes s).heldLoads = s.heldLoads := by
  refine foldl_keeps State.heldLoads (fun u g => ?_) _ s
  split
  · exact heldLoads_storeGroup ..
  · exact heldLoads_storeGroup ..

@[simp] theorem heldLoads_toDram (ls : List Loc) (s : State) : (toDram ls s).heldLoads = s.heldLoads :=
  foldl_keeps State.heldLoads (fun u l => heldLoads_writeBack l u) _ s

@[simp] theorem heldLoads_partRelease (part va : Nat) (bs : List Byte) (s : State) : (partRelease part va bs s).heldLoads = s.heldLoads := by
  unfold partRelease
  split
  next sp u hspan => rw [heldLoads_toDram, heldLoads_storeAtHomes, heldLoads_resolveSpan hspan]
  · rfl

@[simp] theorem heldLoads_onPart (p : Nat) (f : Part → Part) (s : State) : (s.onPart p f).heldLoads = s.heldLoads := by
  unfold State.onPart
  split <;> rfl

/-! ### Faults and partials that are met on the way (17 R334, 20 R375, R386) -/

@[simp] theorem heldLoads_logAsync (part : Nat) (e : LogEntry) (s : State) : (s.logAsync part e).heldLoads = s.heldLoads := by
  unfold State.logAsync
  split
  · rfl
  next p _ =>
    extract_lets base word head u v z merged
    split
    · exact heldLoads_partRelease ..
    · have hz : z.heldLoads = s.heldLoads := (heldLoads_partRelease ..).trans (heldLoads_partRelease ..)
      rw [heldLoads_onPart]
      split
      · exact hz
      · exact hz

@[simp] theorem heldLoads_logFault (core part : Nat) (e : LogEntry) (s : State) : (s.logFault core part e).heldLoads = s.heldLoads := by
  unfold State.logFault
  split
  · unfold State.logMonitor
    split <;> rfl
  · exact heldLoads_logAsync ..

@[simp] theorem heldLoads_arrivePartial (part h : Nat) (p : Partial) (sender : LogEntry) (s : State) :
    (arrivePartial part h p sender s).heldLoads = s.heldLoads := by
  unfold arrivePartial
  split
  · rfl
  · split
    · exact heldLoads_homeWrite ..
    · exact heldLoads_logFault ..

/-! ### Stores of threads that are performed (11 R243, R244) -/

@[simp] theorem heldLoads_settleRows (ls : List Loc) (s : State) : (settleRows ls s).heldLoads = s.heldLoads := by
  refine foldl_keeps State.heldLoads (fun u c => ?_) _ s
  unfold unlockRows
  split
  · rfl
  · exact heldLoads_storeLocs ..

@[simp] theorem heldLoads_coreStore (part core : Nat) (w : Writer) (bytes : List (Loc × Byte)) (issuer : LogEntry) (s : State) :
    (coreStore part core w bytes issuer s).heldLoads = s.heldLoads := by
  have hstoreL1 (bs : List (Loc × Byte)) (u : State) : (storeL1 core bs u).heldLoads = u.heldLoads := by
    refine foldl_keeps State.heldLoads (fun v p => ?_) _ u
    split
    · dsimp only
      split <;> rfl
    · rfl
  unfold coreStore
  dsimp only
  rw [hstoreL1, heldLoads_storeLocs, heldLoads_settleRows]
  split
  · exact heldLoads_logFault ..
  · rfl

@[simp] theorem heldLoads_storePiece (t : Thread) (i j : Nat) (q : QStore) (s : State) : (storePiece t i j q s).heldLoads = s.heldLoads := by
  unfold storePiece
  split
  · rfl
  next p _ =>
    extract_lets w rest u v
    have hu : u.heldLoads = s.heldLoads := by
      simp only [u]
      split
      all_goals
        refine heldLoads_onThread ?_ ..
        exact fun _ => ⟨rfl, rfl⟩
    have hv : v.heldLoads = s.heldLoads := (heldLoads_coreStore ..).trans hu
    split
    · unfold storePartialHome
      split
      · exact (heldLoads_arrivePartial ..).trans hv
      · exact hv
    · exact hv

@[simp] theorem heldLoads_storeHome (tid no n : Nat) (s : State) : (storeHome tid no n s).heldLoads = s.heldLoads := by
  induction n generalizing s with
  | zero => rfl
  | succ n ih =>
    unfold storeHome
    split
    · rfl
    · split
      · rfl
      · split
        · rw [ih, heldLoads_storePiece]
        · rfl

@[simp] theorem heldLoads_settleRaised (t : Thread) (deep all : Bool) (ls : List Loc) (s : State) :
    (settleRaised t deep all ls s).heldLoads = s.heldLoads := by
  refine foldl_keeps State.heldLoads (fun u r => ?_) _ s
  split
  · exact heldLoads_storeHome ..
  · rfl

/-! ### Reads (09 R218, 11 R246) -/

/-- Lines that a core's load touches are changes of caches. -/
theorem touchLines_caches (core : Nat) (ls : List Loc) (s : State) : CachesOnly s (touchLines core ls s) := by
  refine List.foldlRecOn ls _ (motive := fun p : State × Option Nat => CachesOnly s p.1) (.refl s) fun p hp l _ => ?_
  split
  · split
    · exact hp
    · exact hp.trans (touchL1_caches ..)
  · exact hp

/-- Places that come within a stand's reach. -/
theorem heldLoads_reachPlaces (stand : Nat) (ls : List Loc) (s : State) : (reachPlaces stand ls s).heldLoads = s.heldLoads := by
  unfold reachPlaces
  extract_lets bare u
  have hfill (v : State) : CachesOnly v (fillReplicas stand ls v) := .foldl (fun w l => by
    split
    · exact fillReplica_caches ..
    · exact .refl w) _ _
  rw [(hfill _).heldLoads]
  split
  · exact (applyUpTo_updates ..).heldLoads.trans (heldLoads_settleRows ..)
  · exact heldLoads_settleRows ..

/-- A thread's load path that reads places leaves the results that threads hold. -/
theorem heldLoads_readAs (t : Thread) (deep : Bool) (ls : List Loc) (s : State) : (readAs t deep ls s).2.heldLoads = s.heldLoads := by
  unfold readAs
  dsimp only
  rw [(touchLines_caches ..).heldLoads, heldLoads_reachPlaces, heldLoads_settleRaised]

end Sys2Proof.Machine
end

/-! ## Scalar loads and stores, and the reading of a load (09 R230-R232, 11 R243, R249) -/
section
namespace Sys2Proof.Machine

open Sys2Proof

/-! ### A load is read whole (11 R249) -/

/-- The bytes that are read take no more than their bits. -/
theorem leNat_lt (bs : List Byte) : leNat bs < 2 ^ (8 * bs.length) := by
  induction bs with
  | nil => exact Nat.one_pos
  | cons b bs ih =>
    have hb : b.toNat < 256 := b.isLt
    rw [leNat, List.length_cons, Nat.mul_succ, Nat.pow_add]
    omega

/-- A value of 1, 2, 4 or 8 bytes is extended as its load says (09 R231). -/
theorem extended_extendValue {sx : Bool} {n : Nat} {bs : List Byte} (hn : n ∈ [1, 2, 4, 8]) (hlen : bs.length = n) :
    Extended sx n bs (extendValue sx n (leNat bs)) := by
  have hlt := leNat_lt bs
  rw [hlen] at hlt
  obtain ⟨hpos, hle⟩ : 0 < n ∧ n ≤ 8 := by
    simp only [List.mem_cons, List.not_mem_nil, or_false] at hn
    omega
  have hdouble : 2 ^ (8 * n) = 2 * 2 ^ (8 * n - 1) := by rw [← Nat.pow_succ', show (8 * n - 1).succ = 8 * n by omega]
  have hbound : 2 ^ (8 * n) ≤ 2 ^ 64 := Nat.pow_le_pow_right Nat.two_pos (by omega)
  cases sx with
  | true =>
    have hcast : ((2 ^ (8 * n) : Nat) : Int) = 2 ^ (8 * n) := by push_cast; rfl
    have hcast' : ((2 ^ (8 * n - 1) : Nat) : Int) = 2 ^ (8 * n - 1) := by push_cast; rfl
    simp only [Extended, extendValue, sext64, signedOf, if_true, Nat.mod_eq_of_lt hlt]
    rw [← hcast]
    split
    · rw [if_neg (by omega), Int.sub_zero]
      exact BitVec.toInt_ofInt_eq_self (by decide) (by omega) (by omega)
    · rw [if_pos (by omega)]
      exact BitVec.toInt_ofInt_eq_self (by decide) (by omega) (by omega)
  | false =>
    simp only [Extended, extendValue, Bool.false_eq_true, if_false]
    rw [BitVec.toNat_ofNat, Nat.mod_eq_of_lt (by omega)]

/-- The value of a scalar load from its one piece, as its register takes it. -/
theorem setWidth_scalarValue (sx : Bool) (n : Nat) (p : LoadPart) (x : Nat) (hp : p.idx = 0) :
    (LoadForm.value (.scalar sx n) (pieceValues [(p, x)])).setWidth 64 = extendValue sx n x := by
  simp [LoadForm.value, pieceValues, hp]

/-- An acquire changes L1s only. -/
theorem acquireL1_frame (c core : Nat) (s : State) : acquireL1 c core s = { s with cores := (acquireL1 c core s).cores } := by
  unfold acquireL1 clearL1
  split
  · rfl
  · split
    · split <;> rfl
    · split <;> rfl

/-- The acquire of a load at its scope, if it is one. -/
def acquireOf (acq : Option Nat) (core : Nat) (s : State) : State :=
  match acq with
  | some c => acquireL1 c core s
  | none => s

/-- A thread is found after an acquire as before. -/
theorem thread?_acquireOf (acq : Option Nat) (core : Nat) (s : State) (tid : Nat) : (acquireOf acq core s).thread? tid = s.thread? tid := by
  unfold acquireOf
  split
  · rw [acquireL1_frame]
    rfl
  · rfl

section Read

variable {s : State} {x : Thread} {l : Load} {form : LoadForm} {p : LoadPart} (hx : s.thread? x.id = some x)
  (hl : loadOf x l.id = some l) (hval : l.val = .reading form [p] [])

include hx hl hval

/-- The last piece of a load, of which nothing is in a failed package, gives it its data. -/
theorem readPart_last (hthere : p.locs.any (peerGone s) = false) : let r := readAs x (wideAcquire l.acq) p.locs s
    readPart x.id l.id p s
      = acquireOf l.acq x.core (r.2.fillLoad x.id l.id (.data (form.value (pieceValues [(p, leNat r.1)])) false)) := by
  obtain ⟨id, dest, val, pc, word, acq⟩ := l
  cases hval
  have hfind : x.loads.find? (fun l => l.id = id) = some ⟨id, dest, .reading form [p] [], pc, word, acq⟩ := hl
  simp only [readPart, hx, hfind, hthere, Bool.false_eq_true, if_false, List.nil_append, List.erase_cons_head, List.isEmpty_nil, if_true]
  rfl

/-- A load with one piece left is read with it. -/
theorem readLoad_single : readLoad x.id l.id s = readPart x.id l.id p s := by
  have hfind : (s.thread? x.id).bind (fun t => t.loads.find? fun y => y.id = l.id) = some l := by
    rw [hx]
    exact hl
  rw [readLoad, hfind]
  simp only [hval]
  rfl

end Read

/-- A value that returns to a scalar register is all that changes there. -/
theorem write_scalar (d : BitVec 4) (v : VWord) (raised : Bool) (t : Thread) : let u := (LoadDest.s d).write v raised t
    u.id = t.id ∧ u.loads = t.loads ∧ u.getS d = if d = 0 then 0 else v.setWidth 64 := by
  have hset (w : Thread) : (w.setS d (v.setWidth 64)).id = w.id ∧ (w.setS d (v.setWidth 64)).loads = w.loads
      ∧ (w.setS d (v.setWidth 64)).getS d = if d = 0 then 0 else v.setWidth 64 := by
    refine ⟨?_, ?_, ?_⟩
    · unfold Thread.setS
      split <;> rfl
    · unfold Thread.setS
      split <;> rfl
    · rw [Thread.getS_setS]
      by_cases hd : d = 0
      · rw [if_neg fun h => h.2 hd, if_pos hd, hd]
        rfl
      · rw [if_pos ⟨rfl, hd⟩, if_neg hd]
  cases raised
  · exact hset _
  · exact hset _

/-- A value in a spin trace leaves the thread's number. -/
theorem id_spinValue (l : Load) (v : VWord) (t : Thread) : (spinValue l v t).id = t.id := by
  unfold spinValue
  extract_lets watched x same
  split
  · rfl
  · split <;> rfl

/-- The load of a thread that has just been filled is found with its value. -/
theorem loadOf_filled {x : Thread} {l : Load} (hl : loadOf x l.id = some l) (val : LoadVal) {z : Thread} (hz : z.loads = x.loads) :
    loadOf { z with loads := z.loads.map fun k => if k.id = l.id then { k with val := val } else k } l.id = some { l with val := val } := by
  have hid : ((fun k : Load => decide (k.id = l.id)) ∘ fun k => if k.id = l.id then { k with val := val } else k)
      = fun k => decide (k.id = l.id) := by
    funext k
    simp only [Function.comp]
    split <;> simp [*]
  rw [loadOf, hz, List.find?_map, hid, show x.loads.find? (fun k => decide (k.id = l.id)) = some l from hl, Option.map_some, if_pos rfl]

/-- A scalar load that may be read returns what its load path reads, extended, and is gone. -/
theorem exec_loadReturn_scalar {s : State} {x : Thread} {l : Load} {d : BitVec 4} {sx : Bool} {n : Nat} {p : LoadPart}
    (hx : s.thread? s.arg.a = some x) (hl : loadOf x s.arg.b = some l) (hdest : l.dest = .s d)
    (hval : l.val = .reading (.scalar sx n) [p] []) (hidx : p.idx = 0) (hc : s.arg.c = 0) (hmay : mayPerform s x l.id p.locs = true)
    (hthere : p.locs.any (peerGone s) = false) : let r := readAs x (wideAcquire l.acq) p.locs s
    ∃ t y, exec .loadReturn s = .next t ∧ t.thread? x.id = some y ∧ y.getS d = (if d = 0 then 0 else extendValue sx n (leNat r.1))
      ∧ ∀ q ∈ y.loads, q.id ≠ l.id := by
  intro r
  have hself : s.thread? x.id = some x := thread?_arg_id hx
  have hown : loadOf x l.id = some l := by rw [id_of_loadOf hl, hl]
  obtain ⟨z, hz, hloads⟩ := thread?_of_heldLoads (heldLoads_readAs x (wideAcquire l.acq) p.locs s) hself
  let v := LoadForm.value (.scalar sx n) (pieceValues [(p, leNat r.1)])
  have hread : readLoad x.id l.id s = acquireOf l.acq x.core (r.2.fillLoad x.id l.id (.data v false)) := by
    rw [readLoad_single hself hown hval, readPart_last hself hown hval hthere]
  have hy : (readLoad x.id l.id s).thread? x.id
      = some { z with loads := z.loads.map fun k => if k.id = l.id then { k with val := .data v false } else k } := by
    rw [hread, thread?_acquireOf]
    exact State.thread?_onThread hz _ fun _ => rfl
  have hm := loadOf_filled hown (.data v false) hloads
  have hplaces : l.places = p.locs := by simp [Load.places, hval]
  have hexec := exec_loadReturn_read hx hl hval hc (by rw [hplaces, hmay]) hy hm
  rw [returnLoad_data rfl, hdest] at hexec
  refine ⟨_, _, hexec, State.thread?_onThread hy _ fun t => ?_, ?_, ?_⟩
  · exact (write_scalar ..).1.trans (id_spinValue ..)
  · rw [(write_scalar ..).2.2, setWidth_scalarValue sx n p _ hidx]
  · rw [(write_scalar ..).2.1]
    intro q hq
    simpa using (List.mem_filter.mp hq).2

/-- Settles O27: the load begins with the places of its access; it is read in one piece, whose value is extended into the register. -/
theorem scalarLoads : Obligations.ScalarLoads := by
  constructor
  · intro d a w k x c i i7 o s n
    refine ⟨fun va ls s1 s2 hplace hdata => ⟨loads_of_scalarLoad (exec_ld ..) hplace hdata, length_scalarPlace hplace, fun hk => ?_⟩,
      fun va ls s1 s2 hplace hdata => ⟨loads_of_scalarLoad (exec_ldacq ..) hplace hdata, length_scalarPlace hplace, fun hk => ?_⟩,
      fun va ls s1 s2 hplace hdata => ⟨loads_of_scalarLoad (exec_ldd8 ..) hplace hdata, length_scalarPlace hplace, ?_⟩⟩
    · exact scalarPlace_va hplace (decide_eq_false hk)
    · exact scalarPlace_va hplace (decide_eq_false hk)
    · rw [scalarPlace_va hplace rfl, scalarAddr_short]
  · intro s x l d sx n va ls hc hx hl hdest hval hn hlen hmay hthere r
    obtain ⟨t, y, hexec, hy, hgetS, hgone⟩ := exec_loadReturn_scalar hx hl hdest hval rfl hc hmay (by simpa using hthere)
    have hbytes : r.1.length = n := by rw [← hlen]; exact List.length_map ..
    exact ⟨rfl, t, y, _, hexec, hy, extended_extendValue hn hbytes, hgetS, hgone⟩

/-! ### The order of a load behind a store, and a local store's byte (11 R243, R249, 08 R189) -/

/-- An earlier store of the thread that touches a place keeps an access from being performed. -/
theorem mayPerform_of_queued {s : State} {x : Thread} {e : StoreEntry} {no : Nat} {ls : List Loc} (he : e ∈ x.sq) (hno : e.no < no)
    (hov : overlaps e.places ls = true) : mayPerform s x no ls = false := by
  have hearlier : x.sq.any (fun e => e.no < no && overlaps e.places ls) = true :=
    List.any_eq_true.mpr ⟨e, he, by simp [hno, hov]⟩
  simp [mayPerform, earlierOverlap, hearlier]

/-- A late act whose places may not be read yet is not ready. -/
theorem ready_late_eq_false {s : State} {x : Thread} {l : Load} {i : Instr} {a b : Word} {ls : List Loc}
    (h : mayPerform s x l.id ls = false) : (Acting.late i a b ls).ready s x l = false := by
  unfold Acting.ready
  split
  next heq => cases heq
  next heq =>
    cases heq
    rw [h, Bool.and_false]
  next heq =>
    cases heq
    exact h

/-- A load is not read, nor does one that acts late act, while an earlier store of its thread to a byte of it is queued. -/
theorem exec_loadReturn_behindStore {s : State} {x : Thread} {l : Load} {e : StoreEntry} (hc : s.arg.c = 0)
    (hx : s.thread? s.arg.a = some x) (hl : loadOf x s.arg.b = some l) (hunread : l.unread = true) (he : e ∈ x.sq) (hno : e.no < l.id)
    (hov : overlaps e.places l.places = true) : exec .loadReturn s = .next s := by
  have hmay : mayPerform s x l.id l.places = false := mayPerform_of_queued he hno hov
  cases hval : l.val with
  | reading form todo got => exact exec_loadReturn_blocked hx hl hval hc hmay
  | acting act =>
    rw [exec_loadReturn_acting hx hl hval]
    cases act with
    | late i a b ls =>
      rw [show l.places = ls by simp [Load.places, hval]] at hmay
      rw [ready_late_eq_false hmay, if_neg Bool.false_ne_true]
    | _ => simp [Load.unread, hval] at hunread
  | _ => simp [Load.unread, hval] at hunread

/-- A byte of a local store outside control blocks that is written reads as written, and every other byte as before. -/
theorem read_lsStoreByte {c off : Nat} {b : Byte} {s : State} (hwf : (s.core c).ls.wf = true)
    (hfree : ∀ cb ∈ (s.core c).cbs, off < cb ∨ cb + 32 ≤ off) (c' o : Nat) :
    ((lsStoreByte c off b s).core c').ls.read o = if c' = c ∧ o = off then b else (s.core c').ls.read o := by
  have hplain : lsStoreByte c off b s = s.setCore c { s.core c with ls := (s.core c).ls.write off b } := by
    refine if_neg fun hro => ?_
    obtain ⟨cb, hcb, hin⟩ := List.any_eq_true.mp hro
    have := hfree cb hcb
    simp only [Bool.and_eq_true, decide_eq_true_eq] at hin
    omega
  rw [hplain]
  by_cases hcore : c' = c
  · subst hcore
    rw [State.core_setCore_self, Memory.read_write off o b _ 0 hwf]
    simp
  · rw [State.core_setCore_ne _ _ _ _ hcore, if_neg fun h => hcore h.1]

/-- Settles O28: the low bytes join the queue as one piece; a load behind a store to its bytes stays; a local store's byte is read
as it was written. -/
theorem scalarStores : Obligations.ScalarStores := by
  refine ⟨?_, fun s x l e => exec_loadReturn_behindStore, fun c off c' o b s hwf hfree => read_lsStoreByte hwf hfree c' o⟩
  intro d a w k c i i7 o s n
  refine ⟨fun va ls s1 hplace => ⟨stores_of_scalarStore (exec_st ..) hplace, fun hk => ?_⟩,
    fun va ls s1 hplace => ⟨stores_of_scalarStore (exec_strel ..) hplace, fun hk => ?_⟩,
    fun va ls s1 hplace => ⟨stores_of_scalarStore (exec_std8 ..) hplace, ?_⟩⟩
  · exact scalarPlace_va hplace (decide_eq_false hk)
  · exact scalarPlace_va hplace (decide_eq_false hk)
  · rw [scalarPlace_va hplace rfl, scalarAddr_short]

end Sys2Proof.Machine
end

/-! ## Fences (11 R253-R255, 06 R158, 12 R270) -/
section
namespace Sys2Proof.Machine

open Sys2Proof

/-! ### The reduction log and deferred data errors (11 R266, 12 R270) -/

/-- An empty reduction log has nothing to report. -/
theorem reductionTrap_nil {s : State} (h : s.th.redlog = []) : reductionTrap s = none := by
  simp only [reductionTrap, h]

/-- The oldest entry of a reduction log is a trap, of which the last tells that others were dropped. -/
theorem reductionTrap_cons {s : State} {e : RedEntry} {r : List RedEntry} (h : s.th.redlog = e :: r) :
    reductionTrap s = some ({ cause := 0x14, fval := e.cause ||| (if r.isEmpty && s.th.redDropped then 0x80 else 0), a := e.addr
                              v := e.operand, word := some e.word },
      { s with th := { s.th with redlog := r, redDropped := s.th.redDropped && !r.isEmpty } }) := by
  simp only [reductionTrap, h]
  rfl

/-- An instruction of a thread with no deferred data error goes on. -/
theorem deferredError_none {s : State} (h : s.th.dataErr = none) (go : State → Outcome) : deferredError s go = go s := by
  simp only [deferredError, h]

/-- A deferred data error is taken in place of the instruction. -/
theorem deferredError_some {s : State} {a v : Word} (h : s.th.dataErr = some (a, v)) (go : State → Outcome) :
    deferredError s go
      = .next (takeTrap { cause := 0x12, a := a, v := v } { s with th := { s.th with dataErr := none } }) := by
  simp only [deferredError, h]
  rfl

/-! ### What every fence does first (11 R253 steps 1 to 4) -/

/-- An instruction reports the oldest entry of the reduction log that `u` has, in its own place, from `u` without the entry. -/
def ReportsReduction (i : Instr) (s u : State) : Prop :=
  ∀ e r, u.th.redlog = e :: r → ∃ (tr : Trap) (b : Bool),
    exec i s = .next (takeTrap tr { u with th := { u.th with redlog := r, redDropped := b } }) ∧ tr.cause = 0x14 ∧ tr.a = e.addr
      ∧ tr.v = e.operand ∧ tr.fval = (if r = [] ∧ u.th.redDropped = true then e.cause ||| 0x80 else e.cause)

section Fenced

variable {i : Instr} {scope : Nat} {s u : State} {go : State → Outcome} (hperform : performAt scope s.th.id s = u)

include hperform

/-- A fence with work left holds its thread for it. -/
theorem fenced_held (hwork : openWork scope u ≠ []) : fenced scope s go = .next (holdForWork (openWork scope u) u) := by
  obtain ⟨n, ns, hcons⟩ := List.exists_cons_of_ne_nil hwork
  simp only [fenced, hperform, hcons]

/-- A fence that leaves no work and finds no entry of the reduction log goes on. -/
theorem fenced_done (hwork : openWork scope u = []) (hlog : u.th.redlog = []) : fenced scope s go = go u := by
  simp only [fenced, hperform, hwork, reductionTrap_nil hlog]

/-- A fence that leaves no work reports the oldest entry of the reduction log. -/
theorem reportsReduction_of_fenced (hexec : exec i s = fenced scope s go) (hwork : openWork scope u = []) : ReportsReduction i s u := by
  intro e r hlog
  simp only [fenced, hperform, hwork, reductionTrap_cons hlog] at hexec
  refine ⟨_, _, hexec, rfl, rfl, rfl, ?_⟩
  by_cases hlast : r = [] ∧ u.th.redDropped = true
  · simp [hlast]
  · have hmore : (r.isEmpty && u.th.redDropped) = false := by simpa using hlast
    simp [hlast, hmore]

end Fenced

/-! ### The four instructions -/

/-- FENCE is a fence at its scope, which invalidates what the scope names of the L1s; a deferred data error comes first. -/
theorem exec_fence (c : BitVec 3) (s : State) : exec (.fence c) s
    = deferredError s fun s => fenced c.toNat s fun s => .next (advance 4 (acquireL1 c.toNat s.th.core s)) := rfl

/-- FENCE where no data error is deferred. -/
theorem exec_fence_noError {c : BitVec 3} {s : State} (h : s.th.dataErr = none) : exec (.fence c) s
    = fenced c.toNat s fun s => .next (advance 4 (acquireL1 c.toNat s.th.core s)) :=
  (exec_fence c s).trans (deferredError_none h _)

section Fencel

variable {s : State}

/-- FENCEL where nothing is outstanding leaves no mark. -/
theorem exec_fencel_nothing (h : openWork 3 s = []) :
    exec .fencel s = .next (advance 4 { s with th := { s.th with sq := s.th.sq.filter fun e => !e.isMark } }) := by
  change execFencel s = _
  simp only [execFencel, h, List.isEmpty_nil, if_true]
  rfl

/-- FENCEL behind what is outstanding leaves one mark, in place of any before. -/
theorem exec_fencel_marks (h : openWork 3 s ≠ []) : exec .fencel s = .next (advance 4 { s with
    fresh := s.fresh + 1, th := { s.th with sq := (s.th.sq.filter fun e => !e.isMark) ++ [.mark s.fresh] } }) := by
  change execFencel s = _
  simp only [execFencel, List.isEmpty_eq_false_iff.mpr h, Bool.false_eq_true, if_false]
  rfl

end Fencel

section Fenceh

variable {a : BitVec 4} {c : BitVec 3} {s : State}

/-- The stands of some groves apply what the writes of the focus thread are ordered behind (11 R255). -/
def applyAtGroves (gs : List Nat) (s : State) : State :=
  gs.foldl (fun s g => applyUpTo (standOfGrove g) (s.clockOf (standOfCore s.th.core)) s) s

/-- What stands apply for a FENCEH is updates of their replicas. -/
theorem applyAtGroves_updates (gs : List Nat) (s : State) : UpdatesOnly s (applyAtGroves gs s) :=
  .foldl (fun _ _ => applyUpTo_updates ..) gs s

/-- FENCEH of a target that is granted is a fence at .pkg, after which its thread is held for every core of the target. -/
theorem exec_fenceh_target {gs : List Nat} (h : fencehGroves s c.toNat (s.getS a) = some gs) : exec (.fenceh a c) s
    = fenced 3 s fun s => .next (holdFor (.fenceh (gs.flatMap coresOfGrove)) (applyAtGroves gs s)) := by
  change execFenceh a c s = _
  simp only [execFenceh, h]
  rfl

/-- FENCEH of an operand that names no granted target. -/
theorem exec_fenceh_noTarget (h : fencehGroves s c.toNat (s.getS a) = none) : exec (.fenceh a c) s
    = .next (takeTrap { cause := 4, fidx := 3, fval := a.toNat, a := s.getS a } s) := by
  change execFenceh a c s = _
  simp only [execFenceh, h]

/-- A thread whose own fence is done is held for the cores of the target; its registers, its pc, DRAM and the dirty lines stay. -/
theorem fenceh_holds {i : Instr} {gs cs : List Nat} {u : State}
    (hexec : exec i s = .next (holdFor (.fenceh cs) (applyAtGroves gs u))) : ∃ t, exec i s = .next t
      ∧ t.th.status = .holding (.fenceh cs) ∧ t.th.s = u.th.s ∧ t.th.pc = u.th.pc ∧ t.dram = u.dram ∧ t.l2 = u.l2 := by
  have hupdates := applyAtGroves_updates gs u
  obtain ⟨hdram, -, hl2, -⟩ := hupdates.homes
  obtain ⟨-, hth, -⟩ := hupdates.caches.leaves
  exact ⟨_, hexec, rfl, congrArg (·.s) hth, congrArg (·.pc) hth, hdram, hl2⟩

end Fenceh

section Ifence

variable {s u : State} (hperform : (s.th.atq.map (·.no)).foldl (performNo 3 s.th.id) s = u)

include hperform

/-- IFENCE with nothing left to wait for: the parcels that the core fetched are gone. -/
theorem exec_ifence_done (hwork : ifenceWork u = []) : exec .ifence s = .next (advance 4 { u.setCore u.th.core { u.myCore with icache := [] }
    with th := { u.th with ifence := u.fresh } }) := by
  change execIfence s = _
  simp only [execIfence, hperform, hwork]
  rfl

/-- IFENCE with work left holds its thread for it. -/
theorem exec_ifence_held (hwork : ifenceWork u ≠ []) : exec .ifence s = .next (holdForWork (ifenceWork u) u) := by
  change execIfence s = _
  simp only [execIfence, hperform]

end Ifence

/-- Settles O34: a fence performs, then holds, reports or goes on; FENCE, FENCEH and IFENCE differ in what comes before and after. -/
theorem fences : Obligations.Fences := by
  intro a c s reports held
  refine ⟨?fence, ?fencel, ?fenceh, fun hnone => ?noTarget, ?ifence⟩
  case fence =>
    refine ⟨fun e v herr => ?deferred, fun herr hwork => ⟨fun hlog => ?done, ?report⟩, fun herr hwork => ?hold⟩
    case deferred => exact traps_of_takeTrap ((exec_fence c s).trans (deferredError_some herr _)) rfl
    case done => exact past_of_advance ((exec_fence_noError herr).trans (fenced_done rfl hwork hlog))
    case report => exact reportsReduction_of_fenced rfl (exec_fence_noError herr) hwork
    case hold => exact (exec_fence_noError herr).trans (fenced_held rfl hwork)
  case fencel => exact ⟨fun h => past_of_advance (exec_fencel_nothing h), fun h => past_of_advance (exec_fencel_marks h)⟩
  case fenceh =>
    intro u work gs hgs
    refine ⟨fun hwork => ⟨fun hlog => ?done, ?report⟩, fun hwork => ?hold⟩
    case done => exact fenceh_holds ((exec_fenceh_target hgs).trans (fenced_done rfl hwork hlog))
    case report => exact reportsReduction_of_fenced rfl (exec_fenceh_target hgs) hwork
    case hold => exact (exec_fenceh_target hgs).trans (fenced_held rfl hwork)
  case noTarget => exact ⟨_, exec_fenceh_noTarget hnone, rfl, rfl, rfl, rfl⟩
  case ifence => exact ⟨fun h => past_of_advance (exec_ifence_done rfl h), exec_ifence_held rfl⟩

end Sys2Proof.Machine
end

/-! ## Atomics and reductions as they issue (11 R260-R263) -/
section
namespace Sys2Proof.Machine

open Sys2Proof

/-! ### Refused places (09 R225, R230, 11 R262) -/

/-- A CAS of a page that may be read and not written has a fault of its own, which tells whether the page is copied on a write. -/
theorem leafRefusal_cas_readOnly {priv e : Nat} (hread : natBit e 2 = true) (hwrite : natBit e 3 = false)
    (hpriv : natBit e 5 = false ∨ priv ≠ 0) : leafRefusal .cas priv e = some ⟨0x15, (natBit e 11).toNat, none⟩ := by
  have hallowed : (natBit e 5 && decide (priv = 0)) = false := by simpa [or_iff_not_imp_left] using hpriv
  simp [leafRefusal, Access.own, hallowed, hread, hwrite]

section Refused

variable {w : Who} {k : Access} {va : Nat} {s : State} {f : Flt}

/-- A leaf whose permissions refuse an access refuses its translation. -/
theorem translate_of_leafRefusal {p : Part} {e at_ level : Nat} {t : State} (hpart : s.part? w.part = some p)
    (hleaf : findLeaf w va p.grant.ptroot s = (.ok (e, at_, level), t)) (hrefused : leafRefusal k w.priv e = some f) :
    translate w k va s = .error f := by
  simp only [translate, hpart, hleaf, hrefused]

/-- An address outside the windows resolves as it translates. -/
theorem resolve_of_translate_error (hva : va < windowBase) (hout : ∀ g, w.grove = some g → (s.grove g).inWindow va = false)
    (h : translate w k va s = .error f) : resolve w k va s = .error f := by
  have hlow : ¬ 2 ^ 57 ≤ va := fun hhigh => absurd (lt_of_lt_of_le hva (by decide)) (not_lt.mpr hhigh)
  rw [resolve, if_neg hlow, if_neg (not_le.mpr hva)]
  split
  next g hg =>
    have hsettled : settleWays g va s = s := by simp [settleWays, waitsForWays, hout g hg]
    simp only [hsettled, hout g hg, Bool.false_eq_true, if_false, h]
    rfl
  next => simp only [h]; rfl

/-- A span of which the first byte is refused. -/
theorem resolveSpan_of_resolve_error {fuel len : Nat} (hlen : len ≠ 0) (h : resolve w k va s = .error f) :
    resolveSpan w k (fuel + 1) va len s = .error (f, va) := by
  simp only [resolveSpan, if_neg hlen, h]

/-- The trap of a refusal that is no data error names the field of the address. -/
theorem trap_field_of_refusal (h : f.cause ≠ 0x12) (fval b : Nat) : (f.trap 3 fval fval b).fidx = 3 ∧ (f.trap 3 fval fval b).fval = fval := by
  simp only [Flt.trap, if_neg h]
  split <;> exact ⟨rfl, rfl⟩

end Refused

/-! ### Joining the queue -/

/-- `s` with atomics and reductions of the focus thread at the end of its queue, which take the next numbers. -/
def State.withAtoms (s : State) (ops : List AtomOp) : State :=
  { s with fresh := s.fresh + ops.length, th := { s.th with atq := s.th.atq ++ ops } }

/-- No atomic joins the queue. -/
theorem withAtoms_nil (s : State) : s.withAtoms [] = s := by simp [State.withAtoms]

/-- One atomic joins the queue, then others. -/
theorem withAtoms_cons (s : State) (x : AtomOp) (ops : List AtomOp) : s.withAtoms (x :: ops) = (s.withAtoms [x]).withAtoms ops := by
  simp only [State.withAtoms, List.length_cons, List.length_nil, Nat.zero_add, Nat.add_assoc, Nat.add_comm 1, List.append_assoc,
    List.singleton_append]

/-! ### Returning atomics (11 R260, R261) -/

section Returning

variable {i : Instr} {k : Access} {kind op width : Nat} {d a b : BitVec 4} {s : State}
  (hexec : exec i s = returningAtom k kind op width d a b s)

include hexec

/-- An atomic whose place is admitted joins the queue behind a load of its own. -/
theorem queues_of_returningAtom {ls : List Loc} {s1 s2 : State} (hplace : spanPlace k (s.getS a) width width 3 a.toNat s = .ok (ls, s1))
    (hdata : checkData (s.getS a) ls s1 = .ok s2) : ∃ x u, BeginsLoad none (.s d) .waiting s2 u
      ∧ Past i 4 s (u.withAtoms [x]) ∧ x.no = s2.fresh + 1 ∧ x.kind = kind ∧ x.op = op ∧ x.width = width ∧ x.va = s.getS a
      ∧ x.locs = ls ∧ x.operand = s2.getS b ∧ x.expected = s2.getS d ∧ x.load = some s2.fresh := by
  simp only [returningAtom, hplace, dataChecked_ok hdata] at hexec
  exact ⟨_, _, beginsLoad_pushAcquire .., past_of_advance hexec, rfl, rfl, rfl, rfl, rfl, rfl, rfl, rfl, rfl⟩

/-- An atomic whose place is not admitted takes the trap. -/
theorem trap_of_returningAtom {tr : Trap} (hplace : spanPlace k (s.getS a) width width 3 a.toNat s = .error tr) :
    exec i s = .next (takeTrap tr s) := by
  simp only [hexec, returningAtom, hplace]

/-- A misaligned atomic. -/
theorem misaligned_of_returningAtom (h : (s.getS a).toNat % width ≠ 0) : Traps i s s 2 3 a.toNat (s.getS a) 0 :=
  traps_of_takeTrap (trap_of_returningAtom hexec (spanPlace_misaligned h)) rfl

/-- An aligned atomic that is refused. -/
theorem refused_of_returningAtom (hal : (s.getS a).toNat % width = 0) (f : Flt) (va : Nat)
    (hspan : resolveSpan s.who k (width / 2048 + 2) (s.getS a).toNat width s = .error (f, va)) (hcause : f.cause ≠ 0x12) :
    Traps i s s f.cause 3 a.toNat (BitVec.ofNat 64 va) (BitVec.ofNat 64 f.tv) := by
  have htraps := traps_of_takeTrap (trap_of_returningAtom hexec (spanPlace_refused hal hspan)) rfl
  obtain ⟨hfidx, hfval⟩ := trap_field_of_refusal hcause a.toNat va
  rwa [hfidx, hfval] at htraps

end Returning

section Instructions

variable (d a b o : BitVec 4) (w : BitVec 1) (s : State)

/-- AMO is a returning atomic that reads and writes. -/
theorem exec_amo : exec (.amo d a b o w) s = returningAtom .readWrite 0 o.toNat (atomWidth w) d a b s := rfl

/-- CAS is a returning atomic with permissions of its own. -/
theorem exec_cas : exec (.cas d a b w) s = returningAtom .cas 1 0 (atomWidth w) d a b s := rfl

/-- FAMO is a returning atomic of 4 bytes. -/
theorem exec_famo : exec (.famo d a b o) s = returningAtom .readWrite 2 o.toNat 4 d a b s := rfl

/-- An atomic has bytes. -/
theorem atomWidth_ne_zero : atomWidth w ≠ 0 := by
  unfold atomWidth
  split <;> decide

end Instructions

/-- A CAS of a page that may be read and not written takes the CAS write-permission fault (R262). -/
theorem traps_cas_readOnly {d a b : BitVec 4} {w : BitVec 1} {s s' : State} {p : Part} {e at_ level : Nat}
    (hal : (s.getS a).toNat % atomWidth w = 0) (hva : (s.getS a).toNat < windowBase) (hpart : s.part? s.who.part = some p)
    (hout : ∀ g, s.who.grove = some g → (s.grove g).inWindow (s.getS a).toNat = false)
    (hleaf : findLeaf s.who (s.getS a).toNat p.grant.ptroot s = (.ok (e, at_, level), s')) (hread : natBit e 2 = true)
    (hwrite : natBit e 3 = false) (hpriv : natBit e 5 = false ∨ s.th.priv ≠ 0) :
    Traps (.cas d a b w) s s 0x15 3 a.toNat (s.getS a) (if natBit e 11 = true then 1 else 0) := by
  have hwho : natBit e 5 = false ∨ s.who.priv ≠ 0 := hpriv.imp_right fun h h0 => h (BitVec.eq_of_toNat_eq h0)
  have hresolve := resolve_of_translate_error (k := .cas) hva hout
    (translate_of_leafRefusal hpart hleaf (leafRefusal_cas_readOnly hread hwrite hwho))
  have htraps := refused_of_returningAtom (exec_cas d a b w s) hal _ _
    (resolveSpan_of_resolve_error (atomWidth_ne_zero w) hresolve) (show 0x15 ≠ 0x12 by decide)
  rw [BitVec.ofNat_toNat, BitVec.setWidth_eq] at htraps
  cases hcow : natBit e 11 <;> simpa [hcow] using htraps

/-! ### Reductions (11 R260, R261) -/

section Reduction

variable {i : Instr} {kind op width : Nat} {a b : BitVec 4} {s : State} (hexec : exec i s = reduction kind op width a b s)

include hexec

/-- An aligned reduction joins the queue. -/
theorem queues_of_reduction (hal : (s.getS a).toNat % width = 0) : ∃ x, Past i 4 s (s.withAtoms [x])
    ∧ x.no = s.fresh ∧ x.kind = kind ∧ x.op = op ∧ x.width = width ∧ x.va = s.getS a ∧ x.operand = s.getS b ∧ x.load = none :=
  ⟨_, past_of_advance (hexec.trans (if_neg (not_not.mpr hal))), rfl, rfl, rfl, rfl, rfl, rfl, rfl⟩

/-- A misaligned reduction. -/
theorem misaligned_of_reduction (h : (s.getS a).toNat % width ≠ 0) : Traps i s s 2 3 a.toNat (s.getS a) 0 :=
  traps_of_takeTrap (hexec.trans (if_pos h)) rfl

end Reduction

/-- RED is a reduction of integers. -/
theorem exec_red (a b o : BitVec 4) (w : BitVec 1) (s : State) : exec (.red a b o w) s = reduction 3 o.toNat (atomWidth w) a b s := rfl

/-- FRED is a reduction of 4 bytes of floating point. -/
theorem exec_fred (a b o : BitVec 4) (s : State) : exec (.fred a b o) s = reduction 4 o.toNat 4 a b s := rfl

/-! ### VRED (11 R263) -/

/-- The trap of a misaligned lane of a VRED. -/
def laneTrap (addr : Nat → Word) (b : BitVec 4) (i : Nat) : Trap := { cause := 2, fidx := 4, fval := b.toNat, a := addr i }

/-- The check of a lane of a VRED: its alignment. -/
def alignedLane (addr : Nat → Word) (b : BitVec 4) (i : Nat) (s : State) : Checked (List Loc × State) :=
  if (addr i).toNat % 4 ≠ 0 then .error (laneTrap addr b i) else .ok ([], s)

/-- VRED checks the lanes from low(5, ERX) up, queues those before the first that fails, and ends with it or past the last. -/
theorem exec_vred_progress (d a b : BitVec 4) (k : BitVec 3) (o : BitVec 4) (s : State) : exec (.vred d a b k o) s
    = (let addr := indexAddr (s.getS a) (s.getV b)
       let r := progress (alignedLane addr b) (vredLanes s.th.erx (s.getK k)) s
       .next (lanesEnd r.2.1 (r.1.foldl (fun s p => vredLane o.toNat addr d s p.1) r.2.2))) := rfl

/-- Lanes whose check leaves the state are gone through, and the others from the same state. -/
theorem progress_append {check : Nat → State → Checked (List Loc × State)} {is : List Nat} {s : State}
    (h : ∀ j ∈ is, check j s = .ok ([], s)) (rest : List Nat) : progress check (is ++ rest) s
      = (is.map (·, []) ++ (progress check rest s).1, (progress check rest s).2) := by
  induction is with
  | nil => rfl
  | cons i is ih =>
    obtain ⟨hi, his⟩ := List.forall_mem_cons.mp h
    simp only [List.cons_append, progress, hi, ih his, List.map_cons]

section Lanes

variable {d a b o : BitVec 4} {k : BitVec 3} {s : State} {is : List Nat}

/-- VRED with some lanes aligned and the next, if there is one, not. -/
theorem exec_vred {rest : List Nat} (hlanes : vredLanes s.th.erx (s.getK k) = is ++ rest)
    (hal : ∀ j ∈ is, (indexAddr (s.getS a) (s.getV b) j).toNat % 4 = 0)
    (hrest : ∀ i ∈ rest.head?, (indexAddr (s.getS a) (s.getV b) i).toNat % 4 ≠ 0) : exec (.vred d a b k o) s
      = .next (lanesEnd (rest.head?.map fun i => (i, laneTrap (indexAddr (s.getS a) (s.getV b)) b i))
          (is.foldl (vredLane o.toNat (indexAddr (s.getS a) (s.getV b)) d) s)) := by
  have hchecks : ∀ j ∈ is, alignedLane (indexAddr (s.getS a) (s.getV b)) b j s = .ok ([], s) :=
    fun j hj => if_neg (not_not.mpr (hal j hj))
  simp only [exec_vred_progress, hlanes, progress_append hchecks]
  cases rest with
  | nil => simp [progress, List.foldl_map]
  | cons i rest =>
    have hfails : alignedLane (indexAddr (s.getS a) (s.getV b)) b i s = .error (laneTrap _ b i) := if_pos (hrest i rfl)
    simp [progress, hfails, List.foldl_map]

/-- `x` is the reduction, numbered `no`, that a VRED of code `o` makes of lane i. -/
def IsLaneOp (o d : BitVec 4) (addr : Nat → Word) (s : State) (no i : Nat) (x : AtomOp) : Prop :=
  x.no = no ∧ x.va = addr i ∧ x.lane = i ∧ x.isVector = true ∧ x.width = 4 ∧ x.kind = (if o = 0 then 3 else 4)
    ∧ x.op = (if o.toNat < 4 then 0 else o.toNat) ∧ x.operand.toNat = (lane (s.getV d) i).toNat ∧ x.load = none

/-- A lane of a VRED joins the queue. -/
theorem vredLane_queues (o d : BitVec 4) (addr : Nat → Word) (s : State) (i : Nat) :
    ∃ x, IsLaneOp o d addr s s.fresh i x ∧ vredLane o.toNat addr d s i = s.withAtoms [x] := by
  refine ⟨_, ⟨rfl, rfl, rfl, rfl, rfl, ?_, rfl, ?_, rfl⟩, rfl⟩
  · simp only [BitVec.toNat_eq (x := o) (y := 0)]
    rfl
  · exact BitVec.toNat_setWidth_of_le (by decide)

/-- `ops` are the reductions that a VRED of code `o` makes of lanes, in their order, from the next number on. -/
def AreLaneOps (o d : BitVec 4) (addr : Nat → Word) (s : State) (ops : List AtomOp) (is : List Nat) : Prop :=
  ops.length = is.length ∧ ∀ j x i, ops[j]? = some x → is[j]? = some i → IsLaneOp o d addr s (s.fresh + j) i x

/-- The reduction of a lane, then those of other lanes. -/
theorem AreLaneOps.cons {o d : BitVec 4} {addr : Nat → Word} {s : State} {x : AtomOp} {ops : List AtomOp} {i : Nat} {is : List Nat}
    (hx : IsLaneOp o d addr s s.fresh i x) (hops : AreLaneOps o d addr (s.withAtoms [x]) ops is) :
    AreLaneOps o d addr s (x :: ops) (i :: is) := by
  obtain ⟨hlen, hops⟩ := hops
  refine ⟨congrArg (· + 1) hlen, fun j y l hy hl => ?_⟩
  cases j with
  | zero =>
    cases hy
    cases hl
    exact hx
  | succ j =>
    have hrest := hops j y l hy hl
    rwa [show (s.withAtoms [x]).fresh + j = s.fresh + (j + 1) from Nat.add_right_comm ..] at hrest

/-- Lanes of a VRED join the queue in their order. -/
theorem foldl_vredLane (o d : BitVec 4) (addr : Nat → Word) (is : List Nat) (s : State) :
    ∃ ops, AreLaneOps o d addr s ops is ∧ is.foldl (vredLane o.toNat addr d) s = s.withAtoms ops := by
  induction is generalizing s with
  | nil => exact ⟨[], ⟨rfl, fun j x i hx => nomatch hx⟩, (withAtoms_nil s).symm⟩
  | cons i is ih =>
    obtain ⟨x, hx, hqueued⟩ := vredLane_queues o d addr s i
    obtain ⟨ops, hops, hrest⟩ := ih (s.withAtoms [x])
    exact ⟨x :: ops, .cons hx hops, by rw [List.foldl_cons, hqueued, hrest, ← withAtoms_cons]⟩

end Lanes

/-- Settles O35: AMO, CAS and FAMO are one returning atomic, RED and FRED one reduction; a VRED queues the lanes before the first that
is misaligned. -/
theorem atomicsIssue : Obligations.AtomicsIssue := by
  intro d a b o w k s va n queued returning misaligned refused reduces
  have hreduces {i : Instr} {kind op n : Nat} (hexec : exec i s = reduction kind op n a b s) : reduces i kind op n :=
    ⟨queues_of_reduction hexec, misaligned_of_reduction hexec⟩
  have hamo := exec_amo d a b o w s
  have hcas := exec_cas d a b w s
  have hfamo := exec_famo d a b o s
  refine ⟨fun _ _ _ => queues_of_returningAtom hamo, fun _ _ _ => queues_of_returningAtom hcas, fun _ _ _ => queues_of_returningAtom hfamo,
    misaligned_of_returningAtom hamo, misaligned_of_returningAtom hcas, misaligned_of_returningAtom hfamo,
    refused_of_returningAtom hamo, refused_of_returningAtom hcas, refused_of_returningAtom hfamo, fun _ _ _ _ _ => traps_cas_readOnly,
    hreduces (exec_red ..), hreduces (exec_fred ..), ?vred⟩
  case vred =>
    intro addr lanes after given
    constructor
    · intro hal
      obtain ⟨ops, hgiven, hqueued⟩ := foldl_vredLane o d addr lanes s
      obtain ⟨hpast, -⟩ := laneWise_ends (exec_vred (d := d) (o := o) (List.append_nil lanes).symm hal (by simp))
      rw [hqueued] at hpast
      exact ⟨ops, hgiven, hpast rfl⟩
    · intro done i rest hlanes hal hmis
      obtain ⟨ops, hgiven, hqueued⟩ := foldl_vredLane o d addr done s
      obtain ⟨-, htrap⟩ := laneWise_ends (exec_vred (d := d) (o := o) hlanes hal (by simpa using hmis))
      rw [hqueued] at htrap
      exact ⟨ops, hgiven, traps_of_takeTrap (htrap i _ rfl) rfl⟩

end Sys2Proof.Machine
end

/-! ## What an access to memory leaves of the arrays and of the focus thread (09 R223-R230, 18 R356) -/
section
namespace Sys2Proof.Machine

open Sys2Proof

/-- What no access to memory changes: the arrays, what the running event is about, and the focus thread but for what it waits
for. -/
def State.besideMemory (s : State) : Table MArray × EventArg × Thread := (s.arrays, s.arg, { s.th with status := .running })

section Equal

variable {s t : State} (h : t.besideMemory = s.besideMemory)

include h

/-- Every array is the same. -/
theorem array_of_besideMemory (a : Nat) : t.array a = s.array a := by
  have harrays : t.arrays = s.arrays := congrArg Prod.fst h
  rw [State.array, harrays]
  rfl

/-- The running event is about the same. -/
theorem arg_of_besideMemory : t.arg = s.arg := congrArg (fun p : Table MArray × EventArg × Thread => p.2.1) h

/-- The focus thread is on the same core. -/
theorem core_of_besideMemory : t.th.core = s.th.core := congrArg (fun p : Table MArray × EventArg × Thread => p.2.2.core) h

/-- Every scalar register of the focus thread is the same. -/
theorem getS_of_besideMemory (r : BitVec 4) : t.getS r = s.getS r :=
  congrArg (fun p : Table MArray × EventArg × Thread => p.2.2.getS r) h

/-- Every scale register of the focus thread is the same. -/
theorem getSc_of_besideMemory (r : BitVec 3) : t.th.getSc r = s.th.getSc r :=
  congrArg (fun p : Table MArray × EventArg × Thread => p.2.2.getSc r) h

end Equal

/-- Updates of replicas leave them. -/
theorem UpdatesOnly.besideMemory {s t : State} (h : UpdatesOnly s t) : t.besideMemory = s.besideMemory := by
  rw [h.1]
  rfl

/-! ### Writes at home -/

theorem besideMemory_wakeSpinners (hit : Loc → Bool) (s : State) : (wakeSpinners hit s).besideMemory = s.besideMemory := by
  simp only [State.besideMemory, wakeSpinners]
  split <;> rfl

theorem besideMemory_writeBack (line : Nat) (s : State) : (writeBack line s).besideMemory = s.besideMemory := by
  rw [writeBack_frame]
  rfl

theorem besideMemory_evictL2 (a : Nat) (s : State) : (evictL2 a s).besideMemory = s.besideMemory := by
  unfold evictL2
  split
  · rfl
  · exact besideMemory_writeBack ..

theorem besideMemory_putBytes (w : Writer) (mt : Nat) (bytes : List (Nat × Byte)) (s : State) :
    (putBytes w mt bytes s).besideMemory = s.besideMemory := by
  unfold putBytes holdElems
  dsimp only
  split
  · split <;> rfl
  · split <;> rfl

theorem besideMemory_homeWrite (w : Writer) (mt : Nat) (bytes : List (Nat × Byte)) (s : State) :
    (homeWrite w mt bytes s).besideMemory = s.besideMemory := by
  unfold homeWrite
  split
  · rfl
  · extract_lets u v
    have hu : u.besideMemory = s.besideMemory := besideMemory_putBytes ..
    have hv : v.besideMemory = u.besideMemory := by
      simp only [v]
      split
      · exact besideMemory_evictL2 ..
      · rfl
    exact (besideMemory_wakeSpinners ..).trans ((stampWhere_updates ..).besideMemory.trans (hv.trans hu))

/-- Bytes of one line that are written to their places. -/
theorem besideMemory_storeGroup (w : Writer) (s : State) (g : List (Loc × Byte)) :
    (storeGroup w s g).besideMemory = s.besideMemory := by
  unfold storeGroup
  split
  · rfl
  · exact besideMemory_homeWrite ..
  · rw [besideMemory_wakeSpinners]
    refine foldl_keeps State.besideMemory (fun v p => ?_) _ s
    split
    · unfold lsStoreByte
      dsimp only
      split <;> rfl
    · rfl
    · rfl

/-- Storage that is retired (09 R229). -/
theorem besideMemory_retire (b : BadStorage) (s : State) : (retire b s).besideMemory = s.besideMemory := by
  unfold retire
  dsimp only
  split
  · rfl
  · split
    · rfl
    · split
      · split <;> rfl
      · rfl

/-! ### Addresses that resolve (09 R224-R230) -/

theorem besideMemory_findLeaf (w : Who) (va root : Nat) (s : State) : (findLeaf w va root s).2.besideMemory = s.besideMemory := by
  unfold findLeaf
  extract_lets fresh u
  clear_value fresh
  have hu : u.besideMemory = s.besideMemory := by
    simp only [u]
    unfold countWalk
    split
    · rfl
    · refine foldl_keeps State.besideMemory (fun v l => ?_) _ s
      split
      · split
        · exact besideMemory_retire ..
        · rfl
      · rfl
  have hdraw : u.draw.besideMemory = s.besideMemory := hu
  split
  · exact hu
  · split
    · split
      · exact hu
      · split <;> exact hdraw
    · split <;> exact hdraw

theorem besideMemory_useLeaf (w : Who) (stores : Bool) (va : Nat) (leaf : Nat × Nat × Nat) (s : State) :
    (useLeaf w stores va leaf s).besideMemory = s.besideMemory := by
  have hfill (e : TlbEntry) (u : State) : (fillTlbs w e u).besideMemory = u.besideMemory := by
    unfold fillTlbs
    split
    · rfl
    · refine foldl_keeps State.besideMemory (fun u p => ?_) _ u
      unfold fillTlb
      dsimp only
      split <;> rfl
  obtain ⟨e, at_, level⟩ := leaf
  unfold useLeaf
  dsimp only
  rw [hfill]
  generalize e ||| 0x40 ||| (if stores then 0x80 else 0) = e'
  split
  · rfl
  · exact besideMemory_homeWrite ..

theorem besideMemory_translate {w : Who} {k : Access} {va : Nat} {s t : State} {pa mt : Nat}
    (h : translate w k va s = .ok (pa, mt, t)) : t.besideMemory = s.besideMemory := by
  unfold translate at h
  split at h
  · cases h
  next p _ =>
    have hfind := besideMemory_findLeaf w va p.grant.ptroot s
    split at h
    · cases h
    · cases h
    next e at_ level u hleaf =>
      rw [hleaf] at hfind
      split at h
      · cases h
      · dsimp only at h
        split at h
        · cases h
        · split at h
          · cases h
          · cases h
            exact (besideMemory_useLeaf ..).trans hfind

theorem besideMemory_settleWays (g va : Nat) (s : State) : (settleWays g va s).besideMemory = s.besideMemory := by
  unfold settleWays completeWays
  dsimp only
  split
  · split
    · show State.besideMemory (if _ then _ else _) = _
      split
      · exact foldl_keeps State.besideMemory (fun u l => besideMemory_writeBack l u) _ _
      · rfl
    · rfl
  · rfl

theorem besideMemory_resolve {w : Who} {k : Access} {va : Nat} {s t : State} {l : Loc} (h : resolve w k va s = .ok (l, t)) :
    t.besideMemory = s.besideMemory := by
  have htranslate {u : State} (h : (translate w k va u).map (fun r => (Loc.pa r.1 r.2.1, r.2.2)) = .ok (l, t)) :
      t.besideMemory = u.besideMemory := by
    cases hr : translate w k va u with
    | error f => rw [hr] at h; cases h
    | ok r =>
      rw [hr] at h
      cases h
      exact besideMemory_translate hr
  unfold resolve at h
  split at h
  · cases h
  · split at h
    · split at h
      · cases h
      · dsimp only at h
        split at h
        · cases h
        · split at h
          · cases h
          · cases h
            rfl
    · split at h
      next g _ =>
        extract_lets u x off size at h
        have hu : u.besideMemory = s.besideMemory := besideMemory_settleWays ..
        split at h
        · split at h
          · cases h
          · split at h
            · obtain ⟨-, rfl⟩ : Loc.sp g off = l ∧ u = t := by simpa using h
              exact hu
            · cases h
        · exact (htranslate h).trans hu
      · exact htranslate h

/-- A span that resolves. -/
theorem besideMemory_resolveSpan {w : Who} {k : Access} {fuel va len : Nat} {s t : State} {sp : List (Loc × Nat)}
    (h : resolveSpan w k fuel va len s = .ok (sp, t)) : t.besideMemory = s.besideMemory := by
  induction fuel generalizing va len s sp with
  | zero =>
    cases h
    rfl
  | succ fuel ih =>
    rw [resolveSpan] at h
    split at h
    · cases h
      rfl
    · dsimp only at h
      split at h
      · cases h
      next l u hresolve =>
        split at h
        · cases h
        next ls v hrest =>
          cases h
          exact (ih hrest).trans (besideMemory_resolve hresolve)

/-! ### The asynchronous log (18 R356) -/

theorem besideMemory_partRelease (part va : Nat) (bs : List Byte) (s : State) :
    (partRelease part va bs s).besideMemory = s.besideMemory := by
  have hstore (bytes : List (Loc × Byte)) (u : State) : (storeAtHomes bytes u).besideMemory = u.besideMemory := by
    refine foldl_keeps State.besideMemory (fun v g => ?_) _ u
    split
    · exact besideMemory_storeGroup ..
    · exact besideMemory_storeGroup ..
  unfold partRelease
  split
  next sp u hspan =>
    exact (foldl_keeps State.besideMemory (fun v l => besideMemory_writeBack l v) _ _).trans
      ((hstore ..).trans (besideMemory_resolveSpan hspan))
  · rfl

/-- An entry of the asynchronous log. -/
theorem besideMemory_logAsync (part : Nat) (e : LogEntry) (s : State) : (s.logAsync part e).besideMemory = s.besideMemory := by
  unfold State.logAsync
  split
  · rfl
  next p _ =>
    extract_lets base word head u v z merged
    split
    · exact besideMemory_partRelease ..
    · have hz : z.besideMemory = s.besideMemory := (besideMemory_partRelease ..).trans (besideMemory_partRelease ..)
      have hnotified : (if merged then z else notifySystem part z).besideMemory = s.besideMemory := by
        split
        · exact hz
        · exact hz
      unfold State.onPart
      split
      · exact hnotified
      · exact hnotified

/-! ### The slice of an array in the plane store (09 R228, R229) -/

section Slice

variable {arr off n : Nat} {s : State}

/-- A slice of which nothing is bad. -/
theorem sliceFault_none (h : badSlice s arr off n = none) (k : Nat) : sliceFault arr off n (k + 1) s = (none, s) := by
  simp only [sliceFault, h]

/-- A slice whose first bad byte neither the code nor the retry cures. -/
theorem sliceFault_some {b : BadStorage} (h : badSlice s arr off n = some b) (hpasses : b.passes = false) (k : Nat) :
    sliceFault arr off n (k + 1) s = (some b, s) := by
  simp only [sliceFault, h, hpasses, Bool.false_eq_true, if_false]

variable (part : Nat) (e : LogEntry)

/-- An array reads bytes of its slice of which nothing is bad. -/
theorem sliceChecked_ok (h : badSlice s arr off n = none) : sliceChecked arr part e off n s = .ok s := by
  rw [sliceChecked, sliceFault_none h]

/-- An array that cannot read bytes of its slice logs the error, which leaves the arrays. -/
theorem sliceChecked_error {b : BadStorage} (h : badSlice s arr off n = some b) (hpasses : b.passes = false) :
    ∃ t, sliceChecked arr part e off n s = .error t ∧ t.besideMemory = s.besideMemory := by
  rw [sliceChecked, sliceFault_some h hpasses]
  exact ⟨_, rfl, (besideMemory_logAsync ..).trans (besideMemory_retire ..)⟩

end Slice

end Sys2Proof.Machine
end

/-! ## Planes as threads see them (12 R283-R291) -/
section
namespace Sys2Proof.Machine

open Sys2Proof

/-! ### A deferred data error, and the plane queue (12 R269, R270) -/

/-- An instruction that reports a deferred data error takes it as a trap in its own place. -/
theorem traps_of_deferredError {i : Instr} {s : State} {e v : Word} {go : State → Outcome} (hexec : exec i s = deferredError s go)
    (h : s.th.dataErr = some (e, v)) : Traps i s { s with th := { s.th with dataErr := none } } 0x12 0 0 e v :=
  traps_of_takeTrap (hexec.trans (deferredError_some h go)) rfl

/-- The plane queue of the focus thread's array takes another command. -/
def PlaneRoom (u : State) : Prop :=
  (u.array (arrayOfCore u.th.core)).pq.length < 16 ∧ (u.array (arrayOfCore u.th.core)).frozen = false

/-- An instruction moves past itself from `u` with its command in the plane queue, which has a property. -/
def EntersPlaneQueue (i : Instr) (s u : State) (p : ArrayCmd → Prop) : Prop :=
  ∃ c, Past i 4 s { u.setArray (arrayOfCore u.th.core) { u.array (arrayOfCore u.th.core) with
      pq := (u.array (arrayOfCore u.th.core)).pq ++ [c] } with fresh := u.fresh + 1 }
    ∧ p c ∧ c.instr = i ∧ c.id = u.fresh ∧ c.tid = u.th.id ∧ c.core = u.th.core

section Queue

variable {c : ArrayCmd} {u : State}

/-- A command enters a plane queue that has room. -/
theorem enqueuePlane_room (h : PlaneRoom u) : enqueuePlane c u
    = .next (advance 4 { u.setArray (arrayOfCore u.th.core) { u.array (arrayOfCore u.th.core) with
        pq := (u.array (arrayOfCore u.th.core)).pq ++ [c] } with fresh := u.fresh + 1 }) := by
  obtain ⟨hlen, hfrozen⟩ := h
  rw [enqueuePlane, if_neg (by simpa [hfrozen] using hlen)]

/-- A thread waits for a plane queue that is full or frozen. -/
theorem enqueuePlane_full (h : ¬ PlaneRoom u) : enqueuePlane c u = .next (waitFor (.planeQueue (arrayOfCore u.th.core)) u) := by
  refine if_pos (Bool.or_eq_true_iff.mpr ?_)
  by_cases hlen : (u.array (arrayOfCore u.th.core)).pq.length < 16
  · exact .inr (by simpa [PlaneRoom, hlen] using h)
  · exact .inl (decide_eq_true (Nat.not_lt.mp hlen))

/-- An instruction whose command enters the plane queue. -/
theorem entersPlaneQueue_of_enqueuePlane {i : Instr} {s : State} {p : ArrayCmd → Prop} (hexec : exec i s = enqueuePlane c u)
    (hroom : PlaneRoom u) (hp : p c) (hinstr : c.instr = i) (hid : c.id = u.fresh) (htid : c.tid = u.th.id) (hcore : c.core = u.th.core) :
    EntersPlaneQueue i s u p :=
  ⟨c, past_of_advance (hexec.trans (enqueuePlane_room hroom)), hp, hinstr, hid, htid, hcore⟩

end Queue

/-- A queued plane instruction reports a deferred data error. -/
theorem planeInstr_deferredError (s : State) (check : Checked (ArrayCmd × State)) : ∃ go, planeInstr s check = deferredError s go := ⟨_, rfl⟩

/-- The plane instructions report a deferred data error. -/
theorem planes_deferredError (d a b : BitVec 4) (k l m : BitVec 3) (r : BitVec 1) (s : State) :
    ∀ i ∈ [Instr.pcfg a, .pstep k l m, .pfade a, .prwd a b r, .pgate a, .prd d a, .pwr a b, .pstat d],
      ∃ go, exec i s = deferredError s go := by
  simp only [List.forall_mem_cons, List.not_mem_nil, false_implies, implies_true, and_true]
  have hpcfg : ∃ go, execPcfg a s = deferredError s go := by
    unfold execPcfg
    exact ⟨_, rfl⟩
  exact ⟨hpcfg, planeInstr_deferredError s _, planeInstr_deferredError s _,
    ⟨_, show execPrwd a b r s = _ from rfl⟩, ⟨_, show execPgate a s = _ from rfl⟩, ⟨_, show execPrd d a s = _ from rfl⟩,
    ⟨_, show execPwr a b s = _ from rfl⟩, ⟨_, show execPstat d s = _ from rfl⟩⟩

/-! ### PCFG (R283) -/

section Pcfg

variable {a : BitVec 4} {s s1 : State} {ls : List Loc} (hnoerr : s.th.dataErr = none)
  (hplace : spanPlace .read (s.getS a) 208 8 3 a.toNat s = .ok (ls, s1))

include hnoerr hplace

/-- PCFG whose entry comes behind something else holds its thread. -/
theorem exec_pcfg_held {u : State} (hdata : checkData (s.getS a) ls s1 = .ok u) (hblocked : readBlocked (beforeReading ls u) ls = true) :
    exec (.pcfg a) s = .next (holdForWork (blockingWork ls (beforeReading ls u)) (beforeReading ls u)) := by
  change execPcfg a s = _
  simp only [execPcfg, deferredError_none hnoerr, hplace, readChecked, dataChecked, hdata, hblocked, if_true]

section Reads

variable {bs : List Byte} {s3 : State} (hreads : ReadsNow (s.getS a) ls s1 bs s3)

include hreads

/-- PCFG that reads an entry that is refused. -/
theorem exec_pcfg_refused {o : Nat} (hfault : planeEntryFault (arrayOfCore s3.th.core) bs = some o) : exec (.pcfg a) s
    = .next (takeTrap { cause := 0x17, fidx := 3, fval := a.toNat, a := s.getS a, v := BitVec.ofNat 64 o } s3) := by
  obtain ⟨u, hdata, hfree, hread⟩ := hreads
  change execPcfg a s = _
  simp only [execPcfg, deferredError_none hnoerr, hplace, readChecked, dataChecked, hdata, hfree, hread, hfault, Bool.false_eq_true, if_false]

/-- PCFG that reads a good entry queues its command with the bytes. -/
theorem exec_pcfg_queues (hfault : planeEntryFault (arrayOfCore s3.th.core) bs = none) : exec (.pcfg a) s
    = enqueuePlane { newCommand (.pcfg a) (s.getS a) 0 s3 with data := some bs } s3 := by
  obtain ⟨u, hdata, hfree, hread⟩ := hreads
  change execPcfg a s = _
  simp only [execPcfg, deferredError_none hnoerr, hplace, readChecked, dataChecked, hdata, hfree, hread, hfault, Bool.false_eq_true, if_false]

end Reads

end Pcfg

/-! ### PSTEP and PFADE (R287, R289) -/

/-- A slot of another size is deck misuse. -/
theorem needSlot_error {d : Deck} {size : Nat} (h : d.size ≠ size) (fidx fval : Nat) :
    needSlot d size fidx fval = .error { cause := 9, fidx := fidx, fval := fval, a := cbAddr d.off } :=
  need_false (decide_eq_false h) _

/-- A slot of the size needed. -/
theorem needSlot_ok {d : Deck} {size : Nat} (h : d.size = size) (fidx fval : Nat) : needSlot d size fidx fval = .ok () :=
  need_true (decide_eq_true h) _

section Pstep

variable {k l m : BitVec 3} {s : State} {o e p : Deck} (hnoerr : s.th.dataErr = none) (ho : boundDeck s k 2 0 = .ok o)
  (he : boundDeck s l 3 0 = .ok e) (hp : boundDeck s m 4 0 = .ok p)

include hnoerr ho he hp

/-- PSTEP whose event slots have another size. -/
theorem exec_pstep_events (h : e.size ≠ 128) :
    exec (.pstep k l m) s = .next (takeTrap { cause := 9, fidx := 3, fval := l.toNat, a := cbAddr e.off } s) := by
  change execPstep k l m s = _
  simp only [execPstep, planeInstr, deferredError_none hnoerr, ho, he, hp, bind, Except.bind, needSlot_error h]

/-- PSTEP whose post-factor slots have another size. -/
theorem exec_pstep_postFactors (h : e.size = 128) (h' : p.size ≠ 128) :
    exec (.pstep k l m) s = .next (takeTrap { cause := 9, fidx := 4, fval := m.toNat, a := cbAddr p.off } s) := by
  change execPstep k l m s = _
  simp only [execPstep, planeInstr, deferredError_none hnoerr, ho, he, hp, bind, Except.bind, needSlot_ok h, needSlot_error h']

/-- PSTEP whose output slots have another size. -/
theorem exec_pstep_output (h : e.size = 128) (h' : p.size = 128) (h'' : o.size ≠ 256) :
    exec (.pstep k l m) s = .next (takeTrap { cause := 9, fidx := 2, fval := k.toNat, a := cbAddr o.off } s) := by
  change execPstep k l m s = _
  simp only [execPstep, planeInstr, deferredError_none hnoerr, ho, he, hp, bind, Except.bind, needSlot_ok h, needSlot_ok h', needSlot_error h'']

/-- PSTEP of decks of the sizes that it needs queues its command. -/
theorem exec_pstep_sized (h : e.size = 128) (h' : p.size = 128) (h'' : o.size = 256) : exec (.pstep k l m) s
    = enqueuePlane { newCommand (.pstep k l m) 0 0 s with decks := [(o.core, o.off), (e.core, e.off), (p.core, p.off)] } s := by
  change execPstep k l m s = _
  simp only [execPstep, planeInstr, deferredError_none hnoerr, ho, he, hp, bind, Except.bind, needSlot_ok h, needSlot_ok h', needSlot_ok h'']

end Pstep

section Pfade

variable {a : BitVec 4} {s : State} (hnoerr : s.th.dataErr = none)

include hnoerr

/-- PFADE of a count in 16 bits queues its command. -/
theorem exec_pfade_counted (h : (s.getS a).toNat < 2 ^ 16) : exec (.pfade a) s
    = enqueuePlane { newCommand (.pfade a) (s.getS a) 0 s with left := (s.getS a).toNat } s := by
  change execPfade a s = _
  simp only [execPfade, planeInstr, deferredError_none hnoerr, need_true (decide_eq_true h)]
  rfl

/-- PFADE of a count beyond them. -/
theorem exec_pfade_refused (h : 2 ^ 16 ≤ (s.getS a).toNat) : exec (.pfade a) s
    = .next (takeTrap { cause := 0x17, fidx := 3, fval := a.toNat, v := s.getS a } s) := by
  change execPfade a s = _
  simp only [execPfade, planeInstr, deferredError_none hnoerr, need_false (decide_eq_false (Nat.not_lt.mpr h))]
  rfl

end Pfade

/-! ### PRD, PWR and PSTAT (R285, R286) -/

section PlaneAddress

variable {d a b : BitVec 4} {s : State} (hnoerr : s.th.dataErr = none)

include hnoerr

/-- PRD of an address that names nothing. -/
theorem exec_prd_nothing (h : planeLoc (s.array (arrayOfCore s.th.core)) (s.getS a) false = none) :
    exec (.prd d a) s = .next (takeTrap (badPlaneAddr a (s.getS a)) s) := by
  change execPrd d a s = _
  simp only [execPrd, deferredError_none hnoerr, h]

/-- PRD of a plane register. -/
theorem exec_prd_register {q y : Nat} (h : planeLoc (s.array (arrayOfCore s.th.core)) (s.getS a) false = some (.reg q))
    (hy : planeReg (s.array (arrayOfCore s.th.core)) q = some y) : exec (.prd d a) s = .next (loadS 4 d (BitVec.ofNat 64 y) s) := by
  change execPrd d a s = _
  simp only [execPrd, deferredError_none hnoerr, h, hy, Option.getD_some]

section Synapse

variable {o n : Nat} (h : planeLoc (s.array (arrayOfCore s.th.core)) (s.getS a) false = some (.synapse o n))

include h

/-- PRD of a synapse that can be read. -/
theorem exec_prd_synapse (hgood : badSlice s (arrayOfCore s.th.core) o n = none) : exec (.prd d a) s
    = .next (loadS 4 d (BitVec.ofNat 64 (leNat ((s.array (arrayOfCore s.th.core)).slice.readN o n))) s) := by
  change execPrd d a s = _
  simp only [execPrd, deferredError_none hnoerr, h, sliceFault_none hgood]

/-- PRD of a synapse that cannot be read. -/
theorem exec_prd_bad {e : BadStorage} (hbad : badSlice s (arrayOfCore s.th.core) o n = some e) (hpasses : e.passes = false) :
    exec (.prd d a) s = .next (takeTrap (e.trap (s.getS a)) s) := by
  change execPrd d a s = _
  simp only [execPrd, deferredError_none hnoerr, h, sliceFault_some hbad hpasses]

end Synapse

/-- PWR of an address that names nothing. -/
theorem exec_pwr_nothing (h : planeLoc (s.array (arrayOfCore s.th.core)) (s.getS a) true = none) :
    exec (.pwr a b) s = .next (takeTrap (badPlaneAddr a (s.getS a)) s) := by
  change execPwr a b s = _
  simp only [execPwr, deferredError_none hnoerr, h]

/-- PWR of a synapse. -/
theorem exec_pwr_synapse {o n : Nat} (h : planeLoc (s.array (arrayOfCore s.th.core)) (s.getS a) true = some (.synapse o n)) :
    exec (.pwr a b) s = .next (advance 4 (s.onArray (arrayOfCore s.th.core) fun x =>
      { x with slice := x.slice.writeN o (leBytes n (s.getS b).toNat) })) := by
  change execPwr a b s = _
  simp only [execPwr, deferredError_none hnoerr, h]

/-- PWR of a plane register. -/
theorem exec_pwr_register {q : Nat} (h : planeLoc (s.array (arrayOfCore s.th.core)) (s.getS a) true = some (.reg q)) :
    exec (.pwr a b) s = .next (advance 4 (s.onArray (arrayOfCore s.th.core) (setPlaneReg q (s.getS b)))) := by
  change execPwr a b s = _
  simp only [execPwr, deferredError_none hnoerr, h]

/-- PSTAT gives the status word. -/
theorem exec_pstat : exec (.pstat d) s = .next (loadS 4 d (planeStatus s (arrayOfCore s.th.core)) s) := by
  change execPstat d s = _
  simp only [execPstat, deferredError_none hnoerr]

end PlaneAddress

/-! ### PRWD and PGATE (R291) -/

/-- A list of messages of the focus thread, sent one after the other. -/
theorem foldl_send {α : Type} (body : α → Msg) (xs : List α) (s : State) :
    xs.foldl (fun s x => s.send s.th.id (body x)) s = { s with
      fresh := s.fresh + xs.length
      msgs := s.msgs ++ xs.zipIdx.map fun q =>
        ⟨s.fresh + q.2, s.th.id, if s.th.id = 0 then 0 else s.srcOf s.th.id, none, body q.1⟩ } := by
  induction xs generalizing s with
  | nil => simp
  | cons x xs ih =>
    rw [List.foldl_cons, ih]
    simp [State.send, State.sendFrom, State.srcOf, State.thread?, State.all, List.zipIdx_succ, Function.comp_def, Nat.add_assoc, Nat.add_comm 1]

/-- A reward that is sent to every plane of a group takes a message each, in their order. -/
theorem sendReward_eq (r : Reward) (s : State) : sendReward r s = { s with
    fresh := s.fresh + (rewardTargets s).length
    msgs := s.msgs ++ (rewardTargets s).zipIdx.map fun q =>
      ⟨s.fresh + q.2, s.th.id, if s.th.id = 0 then 0 else s.srcOf s.th.id, none, .reward q.1 r⟩ } :=
  foldl_send (fun arr => .reward arr r) (rewardTargets s) s

/-- PRWD and PGATE send their entries to the planes of the group. -/
theorem exec_reward {a b : BitVec 4} {r : BitVec 1} {s : State} (hnoerr : s.th.dataErr = none) :
    ∀ p ∈ [(Instr.prwd a b r, ({ r := (s.getS a).setWidth 32, cut := s.getS b, gate := false, sr := decide (r = 1) } : Reward)),
      (.pgate a, { r := 0, cut := s.getS a, gate := true, sr := false })], exec p.1 s = .next (advance 4 (sendReward p.2 s)) := by
  simp only [List.forall_mem_cons, List.not_mem_nil, false_implies, implies_true, and_true]
  exact ⟨show execPrwd a b r s = _ from deferredError_none hnoerr _, show execPgate a s = _ from deferredError_none hnoerr _⟩

/-! ### Plane registers and addresses (R284, R285) -/

/-- The numbers of the plane registers that are there and may be written. -/
theorem planeReg_writable_cases {x : MArray} {n : Nat} (hw : planeRegWritable n = true) (hr : planeReg x n ≠ none) :
    n = 1 ∨ n = 2 ∨ n = 3 ∨ n = 7 ∨ n = 8 ∨ (0x10 ≤ n ∧ n < 0x20) ∨ (0x20 ≤ n ∧ n < 0x30) ∨ (0x40 ≤ n ∧ n < 0x80) := by
  by_contra hout
  refine hr ?_
  simp only [planeRegWritable, Bool.or_eq_true, decide_eq_true_eq] at hw
  rw [planeReg]
  iterate 9 rw [if_neg (by omega)]
  iterate 3 rw [dif_neg (by omega)]

section Tables

variable {n : Nat} (x : MArray) (v : Word)

/-- The registers of λ. -/
theorem planeReg_lambda (h : 0x10 ≤ n ∧ n < 0x20) : planeReg x n = some (x.lambda[n - 0x10]'(by omega)).toNat := by
  rw [planeReg]
  iterate 9 rw [if_neg (by omega)]
  rw [dif_pos h]

/-- The registers of η. -/
theorem planeReg_eta (h : 0x20 ≤ n ∧ n < 0x30) : planeReg x n = some (x.eta[n - 0x20]'(by omega)).toNat := by
  rw [planeReg]
  iterate 9 rw [if_neg (by omega)]
  rw [dif_neg (by omega), dif_pos h]

/-- The registers of the column descriptors. -/
theorem planeReg_cold (h : 0x40 ≤ n ∧ n < 0x80) : planeReg x n = some (x.cold[n - 0x40]'(by omega)).toNat := by
  rw [planeReg]
  iterate 9 rw [if_neg (by omega)]
  rw [dif_neg (by omega), dif_neg (by omega), dif_pos h]

/-- A register of λ that is written. -/
theorem setPlaneReg_lambda (h : 0x10 ≤ n ∧ n < 0x20) :
    setPlaneReg n v x = { x with lambda := x.lambda.set (n - 0x10) (v.setWidth 32) (by omega) } := by
  rw [setPlaneReg]
  iterate 5 rw [if_neg (by omega)]
  rw [dif_pos h]

/-- A register of η that is written. -/
theorem setPlaneReg_eta (h : 0x20 ≤ n ∧ n < 0x30) :
    setPlaneReg n v x = { x with eta := x.eta.set (n - 0x20) (v.setWidth 32) (by omega) } := by
  rw [setPlaneReg]
  iterate 5 rw [if_neg (by omega)]
  rw [dif_neg (by omega), dif_pos h]

/-- A register of the column descriptors that is written. -/
theorem setPlaneReg_cold (h : 0x40 ≤ n ∧ n < 0x80) :
    setPlaneReg n v x = { x with cold := x.cold.set (n - 0x40) (v.setWidth 8 &&& 0x0F) (by omega) } := by
  rw [setPlaneReg]
  iterate 5 rw [if_neg (by omega)]
  rw [dif_neg (by omega), dif_neg (by omega), dif_pos h]

end Tables

/-- What a plane register that is written reads as: its bits of the word. -/
theorem planeReg_setPlaneReg_self {x : MArray} {n : Nat} (v : Word) (hw : planeRegWritable n = true) (hr : planeReg x n ≠ none) :
    planeReg (setPlaneReg n v x) n = some (if n = 1 then v.toNat else if n = 7 then v.toNat % 2 ^ 6 else if n = 8 then v.toNat % 2 ^ 17
      else if 0x40 ≤ n then v.toNat % 16 else v.toNat % 2 ^ 32) := by
  obtain rfl | rfl | rfl | rfl | rfl | h | h | h := planeReg_writable_cases hw hr
  · rfl
  · simp [planeReg, setPlaneReg]
  · simp [planeReg, setPlaneReg]
  · have hmask := Nat.and_two_pow_sub_one_eq_mod (v.toNat % 2 ^ 32) 6
    simp [planeReg, setPlaneReg] at hmask ⊢
    omega
  · have hmask := Nat.and_two_pow_sub_one_eq_mod (v.toNat % 2 ^ 32) 17
    simp [planeReg, setPlaneReg] at hmask ⊢
    omega
  · rw [setPlaneReg_lambda x v h, planeReg_lambda _ h, if_neg (by omega), if_neg (by omega), if_neg (by omega), if_neg (by omega)]
    simp
  · rw [setPlaneReg_eta x v h, planeReg_eta _ h, if_neg (by omega), if_neg (by omega), if_neg (by omega), if_neg (by omega)]
    simp
  · rw [setPlaneReg_cold x v h, planeReg_cold _ h, if_neg (by omega), if_neg (by omega), if_neg (by omega), if_pos (by omega)]
    have hmask := Nat.and_two_pow_sub_one_eq_mod (v.toNat % 2 ^ 8) 4
    simp at hmask ⊢
    omega

/-- A plane register that is written leaves every other. -/
theorem planeReg_setPlaneReg_ne (x : MArray) {n m : Nat} (v : Word) (h : m ≠ n) : planeReg (setPlaneReg n v x) m = planeReg x m := by
  by_cases hl : 0x10 ≤ n ∧ n < 0x20
  · rw [setPlaneReg_lambda x v hl]
    by_cases hm : 0x10 ≤ m ∧ m < 0x20
    · rw [planeReg_lambda _ hm, planeReg_lambda _ hm]
      simp only [Vector.getElem_set_ne _ _ (show n - 0x10 ≠ m - 0x10 by omega)]
    · simp only [planeReg, dif_neg hm]
  by_cases he : 0x20 ≤ n ∧ n < 0x30
  · rw [setPlaneReg_eta x v he]
    by_cases hm : 0x20 ≤ m ∧ m < 0x30
    · rw [planeReg_eta _ hm, planeReg_eta _ hm]
      simp only [Vector.getElem_set_ne _ _ (show n - 0x20 ≠ m - 0x20 by omega)]
    · simp only [planeReg, dif_neg hm]
  by_cases hc : 0x40 ≤ n ∧ n < 0x80
  · rw [setPlaneReg_cold x v hc]
    by_cases hm : 0x40 ≤ m ∧ m < 0x80
    · rw [planeReg_cold _ hm, planeReg_cold _ hm]
      simp only [Vector.getElem_set_ne _ _ (show n - 0x40 ≠ m - 0x40 by omega)]
    · simp only [planeReg, dif_neg hm]
  rw [setPlaneReg, dif_neg hl, dif_neg he, dif_neg hc]
  split_ifs with h1 h2 h3 h7 h8
  · subst h1; simp only [planeReg, if_neg h]
  · subst h2; simp only [planeReg, if_neg h]
  · subst h3; simp only [planeReg, if_neg h]
  · subst h7; simp only [planeReg, if_neg h]
  · subst h8; simp only [planeReg, if_neg h]
  · rfl

/-- A plane register that is written leaves the slice, the accumulators and the queues. -/
theorem setPlaneReg_frame (n : Nat) (v : Word) (x : MArray) : (setPlaneReg n v x).slice = x.slice ∧ (setPlaneReg n v x).acc = x.acc
    ∧ (setPlaneReg n v x).rq = x.rq ∧ (setPlaneReg n v x).pq = x.pq := by
  unfold setPlaneReg
  split_ifs <;> exact ⟨rfl, rfl, rfl, rfl⟩

/-- The plane registers that software only reads. -/
theorem planeLoc_readOnly (x : MArray) {v : Word} {n : Nat} (hn : n ∈ [0, 4, 5, 6]) (hv : v.toNat = 2 ^ 28 + n) :
    planeLoc x v true = none ∧ planeLoc x v false = some (.reg n) := by
  simp only [List.mem_cons, List.not_mem_nil, or_false] at hn
  obtain rfl | rfl | rfl | rfl := hn
  all_goals simp [planeLoc, hv, planeReg, planeRegWritable]

/-- An address with a bit outside its fields. -/
theorem planeLoc_outside (x : MArray) {v : Word} (h : 2 ^ 29 ≤ v.toNat ∨ v.toNat / 2 ^ 21 % 128 ≠ 0) (write : Bool) :
    planeLoc x v write = none := by
  refine if_pos ?_
  omega

/-! ### The obligation -/

/-- Settles O45: each instruction as it issues, by what its checks give and what its queue takes, and the plane registers
one by one. -/
theorem planeForms : Obligations.PlaneForms := by
  refine ⟨fun d a b k l m r s => ?_, fun x n v => planeReg_setPlaneReg_self v, fun x n m v => planeReg_setPlaneReg_ne x v,
    fun x n v => setPlaneReg_frame n v x, fun x v n => planeLoc_readOnly x, fun x v h => ⟨planeLoc_outside x h _, planeLoc_outside x h _⟩⟩
  refine ⟨fun e v herr i hi => ?dataError, fun hnoerr => ⟨fun ls s1 u hplace hdata hblocked => exec_pcfg_held hnoerr hplace hdata hblocked,
    fun ls s1 bs s3 hplace hreads => ?pcfg, fun o e p ho he hp => ?pstep, fun hcount => ?pfade,
    fun hcount => traps_of_takeTrap (exec_pfade_refused hnoerr hcount) rfl,
    fun hloc => traps_of_takeTrap (exec_prd_nothing hnoerr hloc) rfl, fun hloc => traps_of_takeTrap (exec_pwr_nothing hnoerr hloc) rfl,
    fun o n hloc => ⟨fun hgood => past_of_advance (exec_prd_synapse hnoerr hloc hgood),
      fun e hbad hpasses => traps_of_takeTrap (exec_prd_bad hnoerr hloc hbad hpasses) rfl⟩,
    fun q y hloc hy => past_of_advance (exec_prd_register hnoerr hloc hy), fun o n hloc => past_of_advance (exec_pwr_synapse hnoerr hloc),
    fun q hloc => past_of_advance (exec_pwr_register hnoerr hloc), past_of_advance (exec_pstat hnoerr), fun p hp => ?reward⟩⟩
  case dataError =>
    obtain ⟨go, hexec⟩ := planes_deferredError d a b k l m r s i hi
    exact traps_of_deferredError hexec herr
  case pcfg =>
    refine ⟨fun o hfault => traps_of_takeTrap (exec_pcfg_refused hnoerr hplace hreads hfault) rfl, fun hfault hroom => ?_,
      fun hfault hfull => (exec_pcfg_queues hnoerr hplace hreads hfault).trans (enqueuePlane_full hfull)⟩
    exact entersPlaneQueue_of_enqueuePlane (exec_pcfg_queues hnoerr hplace hreads hfault) hroom ⟨rfl, rfl⟩ rfl rfl rfl rfl
  case pstep =>
    refine ⟨fun h => traps_of_takeTrap (exec_pstep_events hnoerr ho he hp h) rfl,
      fun h h' => traps_of_takeTrap (exec_pstep_postFactors hnoerr ho he hp h h') rfl,
      fun h h' h'' => traps_of_takeTrap (exec_pstep_output hnoerr ho he hp h h' h'') rfl, fun h h' h'' hfull => ?_, fun h h' h'' hroom => ?_⟩
    · exact (exec_pstep_sized hnoerr ho he hp h h' h'').trans (enqueuePlane_full hfull)
    · exact entersPlaneQueue_of_enqueuePlane (exec_pstep_sized hnoerr ho he hp h h' h'') hroom rfl rfl rfl rfl rfl
  case pfade =>
    have hexec := exec_pfade_counted hnoerr hcount
    exact ⟨fun hroom => entersPlaneQueue_of_enqueuePlane hexec hroom rfl rfl rfl rfl rfl, fun hfull => hexec.trans (enqueuePlane_full hfull)⟩
  case reward =>
    have hsends := sendReward_eq p.2 s
    exact ⟨_, _, past_of_advance (exec_reward hnoerr p hp), by rw [hsends], by rw [hsends], by rw [hsends], by rw [hsends], by rw [hsends]⟩

end Sys2Proof.Machine
end

/-! ## What a plane does (12 R283-R292) -/
section
namespace Sys2Proof.Machine

open Sys2Proof

/-! ### Arrays changed, and pulses -/

@[simp] theorem State.onArray_self (s : State) (arr : Nat) (f : MArray → MArray) : (s.onArray arr f).array arr = f (s.array arr) :=
  State.setArray_self ..

@[simp] theorem pulse_array (s : State) (unit g line arr : Nat) : (s.pulse unit g line).array arr = s.array arr := by
  rw [pulse_frame]
  rfl

@[simp] theorem pulse_dram (s : State) (unit g line : Nat) : (s.pulse unit g line).dram = s.dram := by rw [pulse_frame]

@[simp] theorem pulse_th (s : State) (unit g line : Nat) : (s.pulse unit g line).th = s.th := by rw [pulse_frame]

/-- An array reads its synapse region, of which nothing is bad. -/
theorem regionChecked_ok {arr : Nat} {s : State}
    (h : badSlice s arr 0 (planeRows (s.array arr).cfg * rowBytes (s.array arr).cfg) = none) (part : Nat) (e : LogEntry) :
    regionChecked arr part e s = .ok s := sliceChecked_ok part e h

/-! ### Configuration (R283) -/

section Configure

variable {s : State} {c : ArrayCmd} {a : BitVec 4} {bs : List Byte} (hhead : (s.array s.arg.a).pq.head? = some c)
  (hinstr : c.instr = .pcfg a) (hdata : c.data = some bs)

include hhead hinstr hdata

/-- PCFG at the head of the plane queue configures the plane, or waits. -/
theorem exec_pcfgExecute : exec .pcfgExecute s = .next (if (s.array s.arg.a).frozen || !(s.array s.arg.a).rq.isEmpty
      || (s.array s.arg.a).running.isSome then s else s.setArray s.arg.a (popPlane (configurePlane bs (s.array s.arg.a)))) := by
  change execPcfgExecute s = _
  simp only [execPcfgExecute, hhead, hinstr, hdata]
  split <;> rfl

end Configure

/-! ### Steps (R287, R288) -/

section Step

variable {s : State} {c : ArrayCmd} {k l m : BitVec 3} {oc o ec e pc p : Nat} (hready : headReady s s.arg.a = some c)
  (hinstr : c.instr = .pstep k l m) (hdecks : c.decks = [(oc, o), (ec, e), (pc, p)])

include hready hinstr hdecks

/-- A ready step that the gate lets through starts, where its region can be read. -/
theorem exec_stepStart_starts (hgate : (s.array s.arg.a).psc.toNat + 1 ≤ (s.array s.arg.a).pgl.toNat)
    (hreadable : badSlice s s.arg.a 0 (planeRows (s.array s.arg.a).cfg * rowBytes (s.array s.arg.a).cfg) = none) :
    exec .stepStart s = .next (startStep s.arg.a c oc o ec e pc p s) := by
  change execStepStart s = _
  simp only [execStepStart, hready, hinstr, hdecks, gateOpen, decide_eq_true hgate, if_true, regionChecked_ok hreadable]

/-- A ready step that the gate lets through ends where its region cannot be read. -/
theorem exec_stepStart_ends (hgate : (s.array s.arg.a).psc.toNat + 1 ≤ (s.array s.arg.a).pgl.toNat) {t : State}
    (hregion : regionChecked s.arg.a c.part (c.entry s.arg.a 0x12) s = .error t) :
    exec .stepStart s = .next (t.onArray t.arg.a popPlane) := by
  change execStepStart s = _
  simp only [execStepStart, hready, hinstr, hdecks, gateOpen, decide_eq_true hgate, if_true, hregion]

/-- A ready step that the gate does not let through. -/
theorem exec_stepStart_shut (hgate : (s.array s.arg.a).pgl.toNat < (s.array s.arg.a).psc.toNat + 1) : exec .stepStart s = .next s := by
  change execStepStart s = _
  simp only [execStepStart, hready, hinstr, hdecks, gateOpen, decide_eq_false (Nat.not_le.mpr hgate), Bool.false_eq_true, if_false]

end Step

/-- A sweep over a region that can be read. -/
theorem sweepRegion_ok {arr : Nat} {s : State}
    (h : badSlice s arr 0 (planeRows (s.array arr).cfg * rowBytes (s.array arr).cfg) = none) (r : RunningStep) (after : MArray → MArray) :
    sweepRegion arr r after s = s.onArray arr fun x => after { sweepTraces r x with running := none } := by
  simp only [sweepRegion, regionChecked_ok h]

/-- The sweep of a step ends. -/
theorem exec_stepRetire {s : State} {run : RunningStep} (hrun : (s.array s.arg.a).running = some run) (hkind : run.kind = 0) :
    exec .stepRetire s
      = .next ((sweepRegion s.arg.a run popPlane s).pulse (arrayUnit s.arg.a) (groveOfArray s.arg.a) (s.arg.a % 4)) := by
  change execStepRetire s = _
  simp only [execStepRetire, hrun, hkind, if_true]

/-! ### Fades (R289) -/

/-- The next fade of the head starts. -/
theorem exec_fade_starts {s : State} {c : ArrayCmd} {a : BitVec 4} (hrun : (s.array s.arg.a).running = none)
    (hready : headReady s s.arg.a = some c) (hinstr : c.instr = .pfade a)
    (hgate : (s.array s.arg.a).psc.toNat + 1 ≤ (s.array s.arg.a).pgl.toNat) : exec .fade s
    = .next (s.setArray s.arg.a { s.array s.arg.a with
        psc := (s.array s.arg.a).psc + 1
        running := some { kind := 1, events := [], post := [], coeff := lambdaByColumn (s.array s.arg.a), reward := none } }) := by
  change execFade s = _
  simp only [execFade, hrun, hready, hinstr, gateOpen, decide_eq_true hgate, if_true]

/-- The fade that runs ends. -/
theorem exec_fade_ends {s : State} {run : RunningStep} (hrun : (s.array s.arg.a).running = some run) (hkind : run.kind = 1) :
    exec .fade s = .next (sweepRegion s.arg.a run countFade s) := by
  change execFade s = _
  simp only [execFade, hrun, hkind, if_true]

/-- The end of a fade counts its PFADE down. -/
theorem countFade_cons {x : MArray} {c : ArrayCmd} {rest : List ArrayCmd} (h : x.pq = c :: rest) :
    countFade x = { x with pq := if c.left ≤ 1 then rest else { c with left := c.left - 1 } :: rest } := by
  simp only [countFade, h]
  split <;> rfl

/-! ### Rewards and gates that arrive (R292) -/

/-- A reward that arrives enters the reward queue, or is held behind eight. -/
theorem exec_rewardArrival {s : State} {e : Envelope} {j : Nat} {r : Reward} (harr : arrived s s.arg.a = some e) (hbody : e.body = .reward j r) :
    exec .rewardArrival s = .next ((dropMsg e.seq s).onArray j fun x =>
      if x.held.isEmpty && decide (x.rq.length < 8) then { x with rq := x.rq ++ [r] } else { x with held := x.held ++ [r] }) := by
  change execRewardArrival s = _
  simp only [execRewardArrival, harr, hbody]

/-! ### The entry that is applied next (R292) -/

/-- The better of two entries: the earlier one but where the later one's cut is less. -/
def firstLeast (b : Option Reward) (r : Reward) : Option Reward :=
  match b with
  | none => some r
  | some q => if r.cut.toNat < q.cut.toNat then some r else some q

/-- The first entry of least cut of a list, from one that came before it: that one, or one of the list, before which every
entry has a greater cut. -/
theorem foldl_firstLeast {l : List Reward} {b : Option Reward} {r : Reward} (h : l.foldl firstLeast b = some r) :
    (b = some r ∧ ∀ q ∈ l, r.cut.toNat ≤ q.cut.toNat)
    ∨ ∃ older newer, l = older ++ r :: newer ∧ (∀ q ∈ older, r.cut.toNat < q.cut.toNat) ∧ (∀ q ∈ newer, r.cut.toNat ≤ q.cut.toNat)
        ∧ ∀ q, b = some q → r.cut.toNat < q.cut.toNat := by
  induction l generalizing b with
  | nil => exact .inl ⟨h, fun q hq => absurd hq List.not_mem_nil⟩
  | cons y ys ih =>
    obtain ⟨hb, hmin⟩ | ⟨older, newer, rfl, holder, hnewer, hb⟩ := ih h
    · cases b with
      | none =>
        obtain rfl : y = r := Option.some.inj hb
        exact .inr ⟨[], ys, rfl, fun q hq => absurd hq List.not_mem_nil, hmin, fun q hq => nomatch hq⟩
      | some p =>
        rw [firstLeast] at hb
        split at hb
        · obtain rfl : y = r := Option.some.inj hb
          refine .inr ⟨[], ys, rfl, fun q hq => absurd hq List.not_mem_nil, hmin, fun q hq => ?_⟩
          cases hq
          assumption
        · obtain rfl : p = r := Option.some.inj hb
          exact .inl ⟨rfl, List.forall_mem_cons.mpr ⟨Nat.not_lt.mp ‹_›, hmin⟩⟩
    · right
      cases b with
      | none => exact ⟨y :: older, newer, rfl, List.forall_mem_cons.mpr ⟨hb y rfl, holder⟩, hnewer, fun q hq => nomatch hq⟩
      | some p =>
        have hless : r.cut.toNat < y.cut.toNat ∧ r.cut.toNat < p.cut.toNat := by
          by_cases hlt : y.cut.toNat < p.cut.toNat
          · have hy := hb y (if_pos hlt)
            exact ⟨hy, hy.trans hlt⟩
          · have hp := hb p (if_neg hlt)
            exact ⟨hp.trans_le (Nat.not_lt.mp hlt), hp⟩
        refine ⟨y :: older, newer, rfl, List.forall_mem_cons.mpr ⟨hless.1, holder⟩, hnewer, fun q hq => ?_⟩
        cases hq
        exact hless.2

section Next

variable {x : MArray} {r : Reward} (h : nextReward x = some r)

include h

/-- Nothing runs in a plane that applies an entry, which is the best of those that are due. -/
theorem nextReward_some : x.running = none ∧ (x.rq.filter (rewardDue x)).foldl firstLeast none = some r := by
  unfold nextReward at h
  split at h
  · cases h
  · refine ⟨?_, h⟩
    simp_all

/-- The entry that is applied next is due, no older entry's cut is as low, and no newer one's is lower. -/
theorem nextReward_spec : r.cut.toNat ≤ x.psc.toNat ∧ ∃ older newer, x.rq = older ++ r :: newer
    ∧ (∀ q ∈ older, r.cut.toNat < q.cut.toNat) ∧ ∀ q ∈ newer, r.cut.toNat ≤ q.cut.toNat := by
  obtain ⟨-, hbest⟩ := nextReward_some h
  obtain ⟨hnone, -⟩ | ⟨older, newer, hdue, holder, hnewer, -⟩ := foldl_firstLeast hbest
  · cases hnone
  obtain ⟨front, back, hrq, hfront, hback⟩ := List.filter_eq_append_iff.mp hdue
  obtain ⟨gap, rest, rfl, hgap, hr, hrest⟩ := List.filter_eq_cons_iff.mp hback
  have hcut : r.cut.toNat ≤ x.psc.toNat := of_decide_eq_true hr
  have hlater {q : Reward} (hq : ¬ rewardDue x q = true) : r.cut.toNat < q.cut.toNat := by
    simp only [rewardDue, decide_eq_true_eq] at hq
    omega
  refine ⟨hcut, front ++ gap, rest, by rw [hrq, List.append_assoc], fun q hq => ?_, fun q hq => ?_⟩
  · obtain hq | hq := List.mem_append.mp hq
    · by_cases hqdue : rewardDue x q = true
      · exact holder q (hfront ▸ List.mem_filter.mpr ⟨hq, hqdue⟩)
      · exact hlater hqdue
    · exact hlater (hgap q hq)
  · by_cases hqdue : rewardDue x q = true
    · exact hnewer q (hrest ▸ List.mem_filter.mpr ⟨hq, hqdue⟩)
    · exact (hlater hqdue).le

end Next
/-! ### What applying an entry changes (R292) -/

/-- PLATE with a lateness counted: how often, and the greatest, each up to 65535. -/
theorem plate_countLate (r : Reward) (x : MArray) : (countLate r x).plate.toNat
    = if x.psc.toNat - r.cut.toNat = 0 then x.plate.toNat
      else min (x.plate.toNat % 65536 + 1) 65535 + 65536 * min (max (x.plate.toNat / 65536) (x.psc.toNat - r.cut.toNat)) 65535 := by
  simp only [countLate]
  split
  · rfl
  · simp only [BitVec.toNat_ofNat]
    omega

/-- Counting a lateness changes PLATE only. -/
theorem countLate_frame (r : Reward) (x : MArray) : countLate r x = { x with plate := (countLate r x).plate } := by
  simp only [countLate]
  split <;> rfl

/-- PGL that an entry raises is no lower than the step that the entry lets through. -/
theorem pgl_raiseGate (cut : Word) (x : MArray) :
    (raiseGate cut x).pgl.toNat = min (2 ^ 64 - 1) (max x.pgl.toNat (cut.toNat + x.pgw.toNat)) := by
  simp only [raiseGate, BitVec.toNat_ofNat]
  omega

/-- An entry that leaves the input changes the two queues of rewards only. -/
theorem admitHeld_frame (x : MArray) : admitHeld x = { x with rq := (admitHeld x).rq, held := (admitHeld x).held } := by
  unfold admitHeld
  split
  · split <;> rfl
  · rfl

section Apply

variable {s : State} {r : Reward} (h : nextReward (s.array s.arg.a) = some r)

include h

/-- A gate entry is applied. -/
theorem exec_gateApply (hgate : r.gate = true) : exec .gateApply s = .next ((s.setArray s.arg.a (admitHeld (raiseGate r.cut
      (countLate r { s.array s.arg.a with rq := (s.array s.arg.a).rq.erase r })))).pulse
        (arrayUnit s.arg.a) (groveOfArray s.arg.a) (44 + s.arg.a % 4)) := by
  change execGateApply s = _
  simp only [execGateApply, h, hgate, if_true]

/-- The sweep of a reward starts. -/
theorem exec_rewardApply_starts (hgate : r.gate = false) : ∃ (f : Flags) (run : RunningStep), exec .rewardApply s
      = .next (s.setArray s.arg.a (orPflg f (countLate r { s.array s.arg.a with rq := (s.array s.arg.a).rq.erase r, running := some run })))
    ∧ run.kind = 2 ∧ run.reward = some r ∧ run.coeff = (updateFactors (s.array s.arg.a) r).map fun u => BitVec.ofNat 32 u.1 := by
  change ∃ f run, execRewardApply s = _ ∧ _
  simp only [execRewardApply, (nextReward_some h).1, h, hgate, Bool.false_eq_true, if_false]
  exact ⟨_, _, rfl, rfl, rfl, rfl⟩

end Apply

/-! ### The sweep of a reward (R292, 17 R338) -/

/-- What the end of a sweep leaves of the plane, of memory and of the focus thread. -/
theorem endSweep_spec {arr : Nat} {r : Reward} {u t : State} (ht : endSweep arr r u = t) : (t.array arr).running = none ∧ t.dram = u.dram
    ∧ t.th = u.th ∧ (t.array arr).slice = (u.array arr).slice ∧ (t.array arr).pgc = (u.array arr).pgc
    ∧ (t.array arr).pgl.toNat = min (2 ^ 64 - 1) (max (u.array arr).pgl.toNat (r.cut.toNat + (u.array arr).pgw.toNat)) := by
  subst ht
  simp only [endSweep, pulse_array, State.onArray_self, pulse_dram, pulse_th]
  rw [admitHeld_frame]
  exact ⟨rfl, rfl, rfl, rfl, rfl, pgl_raiseGate r.cut _⟩

section Sweep

variable {s : State} {run : RunningStep} {r : Reward}

/-- What the sweep of weights leaves where no statistics are asked for: an array with its gate as it was. -/
theorem sweepWeights_uncounted {arr : Nat} (h : (s.array arr).sth.getLsbD 16 = false) : ∃ y : MArray, sweepWeights arr run r s = s.setArray arr y
    ∧ y.pgl = (s.array arr).pgl ∧ y.pgw = (s.array arr).pgw ∧ y.pgc = if r.sr = true then (s.array arr).pgc + 1 else (s.array arr).pgc := by
  simp only [sweepWeights, h, Bool.false_eq_true, if_false]
  exact ⟨_, rfl, rfl, rfl, rfl⟩

/-- Where statistics are asked for, their partial leaves, and the sweep waits for it. -/
theorem sweepWeights_counted {arr : Nat} (h : (s.array arr).sth.getLsbD 16 = true) : ∃ (y : MArray) (part : Nat) (q : Partial) (i : LogEntry),
    sweepWeights arr run r s = (s.sendFrom (arrayUnit arr + 1) 0
      (.statistics part (((s.array arr).sth.extractLsb' 0 16).setWidth 64) q i)).setArray arr y
    ∧ y.running = some { run with sent := some s.fresh } ∧ y.pgl = (s.array arr).pgl
    ∧ y.pgc = if r.sr = true then (s.array arr).pgc + 1 else (s.array arr).pgc := by
  simp only [sweepWeights, h, if_true]
  exact ⟨_, _, _, _, rfl, rfl, rfl, rfl⟩

variable (hrun : (s.array s.arg.a).running = some run) (hkind : run.kind = 2) (hreward : run.reward = some r)

include hrun hkind hreward

/-- A sweep that has sent no partial updates the weights, where they can be read, and ends where it sends none. -/
theorem exec_rewardApply_sweeps (hsent : run.sent = none)
    (hreadable : badSlice s s.arg.a 0 (planeRows (s.array s.arg.a).cfg * rowBytes (s.array s.arg.a).cfg) = none) : exec .rewardApply s
    = .next (if (s.array s.arg.a).sth.getLsbD 16 then sweepWeights s.arg.a run r s
      else endSweep s.arg.a r (sweepWeights s.arg.a run r s)) := by
  change execRewardApply s = _
  simp only [execRewardApply, hrun, hkind, hreward, hsent, Option.isSome_none, Bool.false_eq_true, if_false, regionChecked_ok hreadable]

/-- A sweep that has sent its partial ends once that is there. -/
theorem exec_rewardApply_sent {n : Nat} (hsent : run.sent = some n) : exec .rewardApply s
    = .next (if s.msgs.any (fun e => e.seq == n) then s else endSweep s.arg.a r s) := by
  change execRewardApply s = _
  simp only [execRewardApply, hrun, hkind, hreward, hsent, Option.isSome_some, if_true, partialThere, Option.all_some]
  cases s.msgs.any (fun e => e.seq == n) <;> rfl

end Sweep

/-! ### The obligation -/

/-- Settles O46: each step of a plane by its own equation, and what that leaves of the plane. -/
theorem planeEvents : Obligations.PlaneEvents := by
  intro s arr x region readable
  refine ⟨fun c bs a hhead hinstr hdata => ?pcfg, fun c k l m oc o ec e pc p hready hinstr hdecks => ?step,
    fun run hrun hkind hreadable => ?retire, fun c a hrun hready hinstr hgate => ?fadeStarts,
    fun run c rest hrun hkind hpq hreadable => ?fadeEnds, fun e j r harr hbody => ?arrival, fun r hnext => ?apply,
    fun run r hrun hkind hreward => ?sweep⟩
  case pcfg =>
    have hexec := exec_pcfgExecute hhead hinstr hdata
    refine ⟨fun hfrozen hrq hrun => hexec.trans (congrArg _ (if_neg ?_)), fun hbusy => hexec.trans (congrArg _ (if_pos ?_))⟩
    · show ¬ (x.frozen || !x.rq.isEmpty || x.running.isSome) = true
      simp [hfrozen, hrq, hrun]
    · show (x.frozen || !x.rq.isEmpty || x.running.isSome) = true
      rw [Bool.or_assoc]
      simpa [Option.isSome_iff_ne_none] using .inr hbusy
  case step =>
    refine ⟨exec_stepStart_starts hready hinstr hdecks, exec_stepStart_shut hready hinstr hdecks, fun b hgate hbad hpasses => ?_⟩
    obtain ⟨t, hregion, hsame⟩ := sliceChecked_error c.part (c.entry s.arg.a 0x12) hbad hpasses
    refine ⟨_, exec_stepStart_ends hready hinstr hdecks hgate hregion, ?_⟩
    rw [arg_of_besideMemory hsame, State.onArray_self, array_of_besideMemory hsame, popPlane]
  case retire =>
    refine ⟨_, exec_stepRetire hrun hkind, ?_⟩
    rw [sweepRegion_ok hreadable, pulse_array, State.onArray_self, pulse_dram, pulse_th]
    exact ⟨rfl, rfl, rfl⟩
  case fadeStarts =>
    refine ⟨_, exec_fade_starts hrun hready hinstr hgate, ?_⟩
    rw [State.setArray_self]
    exact ⟨rfl, rfl, _, rfl, rfl, rfl⟩
  case fadeEnds =>
    refine ⟨_, exec_fade_ends hrun hkind, ?_⟩
    have hends : (sweepRegion s.arg.a run countFade s).array s.arg.a = countFade { sweepTraces run x with running := none } := by
      rw [sweepRegion_ok hreadable, State.onArray_self]
    rw [hends.trans (countFade_cons (c := c) (rest := rest) hpq)]
    exact ⟨rfl, rfl, rfl⟩
  case arrival =>
    have hexec := exec_rewardArrival harr hbody
    refine ⟨fun hroom => ⟨_, hexec, ?_, rfl⟩, fun hfull => ⟨_, hexec, ?_, rfl⟩⟩
    · obtain ⟨hheld, hlen⟩ := hroom
      rw [State.onArray_self, dropMsg_get_array, if_pos (by simp [hheld, hlen])]
    · rw [State.onArray_self, dropMsg_get_array, if_neg (by simpa [imp_iff_not_or] using hfull)]
  case apply =>
    obtain ⟨hdue, hplace⟩ := nextReward_spec hnext
    refine ⟨hdue, hplace, fun hgate => ⟨_, exec_gateApply hnext hgate, ?_⟩, fun hgate => ?_⟩
    · rw [pulse_array, State.setArray_self, pulse_dram, pulse_th, admitHeld_frame]
      refine ⟨?_, ?_, ?_, plate_countLate r { x with rq := x.rq.erase r }, rfl, rfl⟩
      · rw [countLate_frame]
        rfl
      · rw [countLate_frame]
        rfl
      · refine (pgl_raiseGate _ _).trans ?_
        rw [countLate_frame]
    · obtain ⟨f, run, hexec, hkind, hreward, hcoeff⟩ := exec_rewardApply_starts hnext hgate
      refine ⟨_, run, hexec, ?_⟩
      rw [State.setArray_self]
      refine ⟨plate_countLate r _, ?_⟩
      rw [countLate_frame]
      exact ⟨rfl, hkind, hreward, hcoeff, rfl, rfl⟩
  case sweep =>
    refine ⟨fun hsent hreadable hsth => ?_, fun hsent hreadable hsth => ?_, fun n hsent => ?_⟩
    · have hexec := exec_rewardApply_sweeps hrun hkind hreward hsent hreadable
      obtain ⟨y, hsweep, hpgl, hpgw, hpgc⟩ := sweepWeights_uncounted (run := run) (r := r) hsth
      rw [if_neg (by simpa using hsth), hsweep] at hexec
      obtain ⟨hrunning, hdram, hth, -, hpgc', hpgl'⟩ := endSweep_spec (arr := s.arg.a) (r := r) (u := s.setArray s.arg.a y) rfl
      rw [State.setArray_self] at hpgc' hpgl'
      exact ⟨_, hexec, ⟨hrunning, hdram, hth, by rw [hpgl', hpgl, hpgw]⟩, hpgc'.trans hpgc⟩
    · have hexec := exec_rewardApply_sweeps hrun hkind hreward hsent hreadable
      obtain ⟨y, part, q, i, hsweep, hrunning, hpgl, hpgc⟩ := sweepWeights_counted (run := run) (r := r) hsth
      rw [if_pos (by simpa using hsth), hsweep] at hexec
      refine ⟨_, ⟨s.fresh, 0, arrayUnit arr + 1, none, .statistics part ((x.sth.extractLsb' 0 16).setWidth 64) q i⟩, hexec, ?_⟩
      rw [State.setArray_self]
      exact ⟨hrunning, hpgc, hpgl, rfl, rfl, rfl, rfl, _, _, _, rfl⟩
    · have hexec := exec_rewardApply_sent hrun hkind hreward hsent
      refine ⟨fun hthere => hexec.trans (congrArg _ (if_pos (by simpa using hthere))), fun hgone => ?_⟩
      obtain ⟨hrunning, hdram, hth, hslice, hpgc, hpgl⟩ := endSweep_spec (arr := s.arg.a) (r := r) (u := s) rfl
      exact ⟨_, hexec.trans (congrArg _ (if_neg (by simpa using hgone))), ⟨hrunning, hdram, hth, hpgl⟩, hslice, hpgc⟩

end Sys2Proof.Machine
end

/-! ## Array instructions as they issue (12 R269-R279) -/
section
namespace Sys2Proof.Machine

open Sys2Proof

/-! ### Entering the queues (R269, R270) -/

/-- A command captures what the focus thread gives it (R269, R270), and nothing has been done of it. -/
def CommandOf (i : Instr) (u : State) (c : ArrayCmd) : Prop :=
  c.instr = i ∧ c.id = u.fresh ∧ c.tid = u.th.id ∧ c.core = u.th.core ∧ c.draw = u.th.drawOf ∧ c.modw = u.th.modLatch.getD 0
    ∧ c.data = none ∧ c.left = 0

/-- A command that is made is the focus thread's. -/
theorem commandOf_newCommand (i : Instr) (x y : Word) (u : State) : CommandOf i u (newCommand i x y u) :=
  ⟨rfl, rfl, rfl, rfl, rfl, rfl, rfl, rfl⟩

/-- An instruction moves past itself from `go` of `u` with its command, which has a property, in the queues of arrays where each
has room, else it waits for the first that has none. -/
def EntersArrayQueues (i : Instr) (s : State) (arrs : List Nat) (u : State) (go : State → State) (p : ArrayCmd → Prop) : Prop :=
  ((∀ j ∈ arrs, arrayRoom (u.array j) = true) → ∃ c, Past i 4 s (go (arrs.foldl (pushArray c) { u with fresh := u.fresh + 1 }))
    ∧ p c ∧ CommandOf i u c)
  ∧ ∀ j, arrs.find? (fun j => !arrayRoom (u.array j)) = some j →
      exec i s = .next { u with th := { u.th with status := .waiting (.arrayQueue j) u.cycle, uncounted := true } }

/-- An instruction whose command enters queues. -/
theorem entersArrayQueues_of_enqueueArrays {i : Instr} {s u : State} {arrs : List Nat} {go : State → State} {p : ArrayCmd → Prop}
    {c : ArrayCmd} (hexec : exec i s = enqueueArrays arrs c u fun v => advance 4 (go v)) (hp : p c) (hc : CommandOf i u c) :
    EntersArrayQueues i s arrs u go p := by
  refine ⟨fun hroom => ⟨c, past_of_advance ?_, hp, hc⟩, fun j hj => ?_⟩
  · have hfind : arrs.find? (fun j => !arrayRoom (u.array j)) = none := List.find?_eq_none.mpr fun j hj => by simp [hroom j hj]
    simp only [hexec, enqueueArrays, hfind]
  · simp only [hexec, enqueueArrays, hj]
    rfl

/-! ### The checks (R271, R272) -/

section Owner

variable {n : Nat} {s : State}

/-- The core that owns a tile may name it. -/
theorem needOwner_mine (h : ownerOf (s.array (arrayOfCore s.th.core)).ownAhead n = s.th.core % 4) (fval : Nat) :
    needOwner n fval s = .ok () := need_true (decide_eq_true h) _

/-- The ownership trap of a tile, with the array and the core that owns the tile (R271). -/
def ownerTrap (n fval : Nat) (s : State) : Trap :=
  { cause := 0x16, fidx := 2, fval := fval
    v := BitVec.ofNat 64 (4 * (arrayOfCore s.th.core % 4) + ownerOf (s.array (arrayOfCore s.th.core)).ownAhead n) }

/-- Another core takes the ownership trap. -/
theorem needOwner_other (h : ¬ ownerOf (s.array (arrayOfCore s.th.core)).ownAhead n = s.th.core % 4) (fval : Nat) :
    needOwner n fval s = .error (ownerTrap n fval s) := need_false (decide_eq_false h) _

end Owner

section Tile

variable {v mask : Word} {z halves fidx fval : Nat}

/-- A tile offset that is admitted. -/
theorem needTile_ok (hmask : v &&& ~~~mask = 0) (hz : z ≤ v.toNat % 256) (hhalf : v.toNat / 1024 % 4 < halves) :
    needTile v mask z halves fidx fval = .ok () := need_true (by simp [hmask, hz, hhalf]) _

/-- A tile offset that is refused. -/
theorem needTile_refused (h : ¬ (v &&& ~~~mask = 0 ∧ z ≤ v.toNat % 256 ∧ v.toNat / 1024 % 4 < halves)) :
    needTile v mask z halves fidx fval = .error { cause := 0x17, fidx := fidx, fval := fval, v := v } :=
  need_false (by simpa [and_assoc] using h) _

end Tile

/-- The greatest of some numbers is within a bound that each of them is within. -/
theorem foldl_max_le {α : Type} {f : α → Nat} {w : Nat} {l : List α} (h : ∀ x ∈ l, f x ≤ w) {b : Nat} (hb : b ≤ w) :
    (l.map f).foldl max b ≤ w := by
  induction l generalizing b with
  | nil => exact hb
  | cons x xs ih =>
    obtain ⟨hx, hxs⟩ := List.forall_mem_cons.mp h
    exact ih hxs (max_le hb hx)

/-- A word without a bit above the low eight. -/
theorem toNat_lt_of_masked {v : Word} (h : v &&& ~~~0xFF = 0) : v.toNat < 256 := by
  have hlow : v = v &&& 0xFF := by
    calc v = v &&& (0xFF ||| ~~~0xFF) := by rw [show (0xFF ||| ~~~0xFF : Word) = BitVec.allOnes 64 from by decide, BitVec.and_allOnes]
      _ = v &&& 0xFF ||| v &&& ~~~0xFF := BitVec.and_or_distrib_left
      _ = v &&& 0xFF := by
        rw [h]
        exact BitVec.or_zero
  rw [hlow, BitVec.toNat_and]
  exact Nat.lt_of_le_of_lt Nat.and_le_right (by decide)

/-- A span that resolves leaves the arrays and the registers of the focus thread. -/
theorem besideMemory_spanOf {k : Access} {va : Word} {len align fidx fval : Nat} {s u : State} {sp : List (Loc × Nat)}
    (h : spanOf k va len align fidx fval s = .ok (sp, u)) : u.besideMemory = s.besideMemory := by
  rw [spanOf] at h
  split at h
  · cases h
  · split at h
    next hspan =>
      cases h
      exact besideMemory_resolveSpan hspan
    · cases h

/-! ### The instructions -/

section Issue

variable {d n m : BitVec 2} {a b f : BitVec 4} {sc md : BitVec 3} {sw bc ct st l : BitVec 1} {s : State}

/-- An array instruction reports a deferred data error. -/
theorem arrayInstr_deferredError (s : State) (check : Checked (ArrayCmd × State)) : ∃ go, arrayInstr s check = deferredError s go := ⟨_, rfl⟩

variable (n m d a b f sc md sw bc ct st l s) in
/-- The array instructions report a deferred data error. -/
theorem arrays_deferredError : ∀ i ∈ [Instr.mma n m a f sw bc, .mlda n a f 0, .mldb a b f bc, .mdrain n a sc f md ct st 0,
    .mown l, .mzero n, .msacc d n a, .mswap n a, .mflag a n], ∃ go, exec i s = deferredError s go := by
  simp only [List.forall_mem_cons, List.not_mem_nil, false_implies, implies_true, and_true]
  have hmma : ∃ go, execMma n m a f sw bc s = deferredError s go := by
    unfold execMma
    exact ⟨_, rfl⟩
  have hmldb : ∃ go, execMldb a b f bc s = deferredError s go := by
    unfold execMldb
    exact ⟨_, rfl⟩
  have hmdrain : ∃ go, execMdrain n a sc f md ct st 0 s = deferredError s go := by
    unfold execMdrain
    exact ⟨_, rfl⟩
  have hmflag : ∃ go, execMflag a n s = deferredError s go := by
    unfold execMflag
    exact ⟨_, rfl⟩
  exact ⟨hmma, arrayInstr_deferredError s _, hmldb, hmdrain, arrayInstr_deferredError s _, arrayInstr_deferredError s _,
    arrayInstr_deferredError s _, arrayInstr_deferredError s _, hmflag⟩

variable (hnoerr : s.th.dataErr = none)

include hnoerr

/-- An array instruction whose check traps. -/
theorem arrayInstr_error {check : Checked (ArrayCmd × State)} {t : Trap} (h : check = .error t) :
    arrayInstr s check = .next (takeTrap t s) := by
  simp only [arrayInstr, deferredError_none hnoerr, h]

/-- An array instruction whose check is met. -/
theorem arrayInstr_ok {check : Checked (ArrayCmd × State)} {c : ArrayCmd} {u : State} (h : check = .ok (c, u)) :
    arrayInstr s check = enqueueArray c u := by
  simp only [arrayInstr, deferredError_none hnoerr, h]

/-- A core that names a tile of another takes the ownership trap. -/
theorem exec_otherOwner (h : ¬ ownerOf (s.array (arrayOfCore s.th.core)).ownAhead n.toNat = s.th.core % 4) :
    ∀ p ∈ [(Instr.mma n m a f sw bc, 2), (.mlda n a f 0, 2), (.mlda n a f 1, 2), (.mdrain n a sc f md ct st 0, 2),
      (.mdrain n a sc f md ct st 1, 2), (.mzero n, 2), (.msacc d n a, 2), (.mswap n a, 2), (.mflag a n, 4)],
      exec p.1 s = .next (takeTrap (ownerTrap n.toNat (s.fieldOf p.2) s) s) := by
  have hneed (fval : Nat) := needOwner_other h fval
  have hqueued {rest : Unit → Checked (ArrayCmd × State)} : arrayInstr s (needOwner n.toNat (s.fieldOf 2) s >>= rest)
      = .next (takeTrap (ownerTrap n.toNat (s.fieldOf 2) s) s) := arrayInstr_error hnoerr (by rw [hneed]; rfl)
  have hmma : execMma n m a f sw bc s = .next (takeTrap (ownerTrap n.toNat (s.fieldOf 2) s) s) := by
    simp only [execMma, deferredError_none hnoerr, hneed, bind, Except.bind]
  have hmdrain (k : BitVec 1) : execMdrain n a sc f md ct st k s = .next (takeTrap (ownerTrap n.toNat (s.fieldOf 2) s) s) := by
    simp only [execMdrain, deferredError_none hnoerr, hneed, bind, Except.bind]
  have hmflag : execMflag a n s = .next (takeTrap (ownerTrap n.toNat (s.fieldOf 4) s) s) := by
    simp only [execMflag, deferredError_none hnoerr, hneed]
  simp only [List.forall_mem_cons, List.not_mem_nil, false_implies, implies_true, and_true]
  exact ⟨hmma, hqueued, hqueued, hmdrain 0, hmdrain 1, hqueued, hqueued, hqueued, hmflag⟩

/-- A claim against another core's claim takes the ownership trap. -/
theorem exec_mown_refused (hclaimed : (s.array (arrayOfCore s.th.core)).ownAhead.getLsbD 2 = true)
    (hother : (s.array (arrayOfCore s.th.core)).ownAhead.toNat % 4 ≠ s.th.core % 4) : exec (.mown 1) s
    = .next (takeTrap (Trap.mk 0x16 2 (s.fieldOf 2) 0 (BitVec.ofNat 64
      (4 * (arrayOfCore s.th.core % 4) + (s.array (arrayOfCore s.th.core)).ownAhead.toNat % 4)) false none none) s) := by
  refine arrayInstr_error hnoerr ?_
  rw [need_false (by simp [hclaimed, hother])]
  rfl

/-- MOWN that is not a claim against another core's claim queues its command. -/
theorem exec_mown_queues (h : l = 0 ∨ (s.array (arrayOfCore s.th.core)).ownAhead.getLsbD 2 = false
      ∨ (s.array (arrayOfCore s.th.core)).ownAhead.toNat % 4 = s.th.core % 4) :
    exec (.mown l) s = enqueueArray (newCommand (.mown l) 0 0 s) s := by
  refine arrayInstr_ok hnoerr ?_
  rw [need_true (by simpa [or_assoc] using h)]
  rfl

section Mine

variable (hn : ownerOf (s.array (arrayOfCore s.th.core)).ownAhead n.toNat = s.th.core % 4)

include hn

/-- MZERO of a tile of its core queues its command. -/
theorem exec_mzero_queues : exec (.mzero n) s = enqueueArray (newCommand (.mzero n) 0 0 s) s := by
  refine arrayInstr_ok hnoerr ?_
  rw [needOwner_mine hn]
  rfl

/-- MFLAG of a tile of its core queues its command with the load that it has on its way. -/
theorem exec_mflag_queues : exec (.mflag a n) s = enqueueArrays [arrayOfCore s.th.core]
    { newCommand (.mflag a n) 0 0 s with load := some (s.fresh + 1) } s fun u => advance 4 (u.pushLoad (.s a) .waiting) := by
  change execMflag a n s = _
  simp only [execMflag, deferredError_none hnoerr, needOwner_mine hn]

/-- MSACC of two tiles of its core queues its command. -/
theorem exec_msacc_queues (hd : ownerOf (s.array (arrayOfCore s.th.core)).ownAhead d.toNat = s.th.core % 4) :
    exec (.msacc d n a) s = enqueueArray (newCommand (.msacc d n a) (s.getS a) 0 s) s := by
  refine arrayInstr_ok hnoerr ?_
  rw [needOwner_mine hn, needOwner_mine hd]
  rfl

section Mma

variable (hm : ownerOf (s.array (arrayOfCore s.th.core)).ownAhead m.toNat = s.th.core % 4)

include hm

/-- MMA of a tile that its array cannot name. -/
theorem exec_mma_refused (h : ¬ (s.getS a &&& ~~~0xCFF = 0
      ∧ regionTiles (s.array (arrayOfCore s.th.core)).cfg ≤ (s.getS a).toNat % 256
      ∧ (s.getS a).toNat / 1024 % 4 < rowHalves (Fmt.ofCode f.toNat) (decide (sw = 1)))) :
    exec (.mma n m a f sw bc) s = .next (takeTrap { cause := 0x17, fidx := 3, fval := a.toNat, v := s.getS a } s) := by
  change execMma n m a f sw bc s = _
  simp only [execMma, deferredError_none hnoerr, needOwner_mine hn, needOwner_mine hm, needTile_refused h, bind, Except.bind]

/-- MMA of a tile that its array can name queues its command, and counts. -/
theorem exec_mma_queues (hmask : s.getS a &&& ~~~0xCFF = 0)
    (hz : regionTiles (s.array (arrayOfCore s.th.core)).cfg ≤ (s.getS a).toNat % 256)
    (hhalf : (s.getS a).toNat / 1024 % 4 < rowHalves (Fmt.ofCode f.toNat) (decide (sw = 1))) : exec (.mma n m a f sw bc) s
    = enqueueArrays [arrayOfCore s.th.core] (newCommand (.mma n m a f sw bc) (s.getS a) 0 s) s fun u => advance 4 (u.count 0x11) := by
  change execMma n m a f sw bc s = _
  simp only [execMma, deferredError_none hnoerr, needOwner_mine hn, needOwner_mine hm, needTile_ok hmask hz hhalf, bind, Except.bind]

end Mma

/-- MLDA from memory queues its command with the places of the tile. -/
theorem exec_mlda_memory {sp : List (Loc × Nat)} {u : State}
    (hspan : spanOf .read (s.getS a) (aTileBytes (Fmt.ofCode f.toNat)) 64 3 a.toNat s = .ok (sp, u)) :
    exec (.mlda n a f 0) s = enqueueArray { newCommand (.mlda n a f 0) (u.getS a) 0 u with locs := sp } u := by
  refine arrayInstr_ok hnoerr ?_
  rw [needOwner_mine hn, if_neg (by decide), hspan]
  rfl

/-- MLDA from a deck queues its command with the deck. -/
theorem exec_mlda_deck {k : Deck} (hdeck : deckOperand a (aTileBytes (Fmt.ofCode f.toNat)) s = .ok k) :
    exec (.mlda n a f 1) s = enqueueArray { newCommand (.mlda n a f 1) 0 0 s with decks := [(k.core, k.off)] } s := by
  refine arrayInstr_ok hnoerr ?_
  rw [needOwner_mine hn, if_pos rfl, hdeck]
  rfl

/-- MSWAP queues its command with the places of the block. -/
theorem exec_mswap_queues {sp : List (Loc × Nat)} {u : State} (hspan : spanOf .readWrite (s.getS a) 8256 64 3 a.toNat s = .ok (sp, u)) :
    exec (.mswap n a) s = enqueueArray { newCommand (.mswap n a) (u.getS a) 0 u with locs := sp } u := by
  refine arrayInstr_ok hnoerr ?_
  rw [needOwner_mine hn, hspan]
  rfl

/-- The rounding mode that a drain captures: its own, or the thread's. -/
def drainMode (md : BitVec 3) (s : State) : Nat := if md = 7 then (s.th.fcsr.extractLsb' 5 3).toNat else md.toNat

/-- A drain that rounds stochastically counts, and advances SRC by 64. -/
def bumpDrain (mode : Nat) (u : State) : State := if mode = 4 then (u.count 0x0E).onTh fun t => { t with src := t.src + 64 } else u

/-- MDRAIN to memory queues its command with the places of the tile. -/
theorem exec_mdrain_memory {sp : List (Loc × Nat)} {u : State}
    (hspan : spanOf .write (s.getS a) (drainBytes (Fmt.ofCode f.toNat)) 64 3 a.toNat s = .ok (sp, u)) :
    exec (.mdrain n a sc f md ct st 0) s = enqueueArrays [arrayOfCore u.th.core]
      { newCommand (.mdrain n a sc f md ct st 0) 0 0 u with
        mode := drainMode md s, sc := u.th.getSc sc, a := u.getS a, locs := sp } u
      fun v => advance 4 (bumpDrain (drainMode md s) v) := by
  change execMdrain n a sc f md ct st 0 s = _
  simp only [execMdrain, deferredError_none hnoerr, needOwner_mine hn, hspan, bind, Except.bind]
  rfl

/-- MDRAIN to a deck queues its command with the deck. -/
theorem exec_mdrain_deck {k : Deck} (hdeck : deckOperand a (drainBytes (Fmt.ofCode f.toNat)) s = .ok k) :
    exec (.mdrain n a sc f md ct st 1) s = enqueueArrays [arrayOfCore s.th.core]
      { newCommand (.mdrain n a sc f md ct st 1) 0 0 s with mode := drainMode md s, sc := s.th.getSc sc, decks := [(k.core, k.off)] } s
      fun v => advance 4 (bumpDrain (drainMode md s) v) := by
  change execMdrain n a sc f md ct st 1 s = _
  simp only [execMdrain, deferredError_none hnoerr, needOwner_mine hn, hdeck, bind, Except.bind]
  rfl

end Mine

/-- The arrays that an MLDB loads: with BC the four of the grove. -/
def mldbArrays (bc : BitVec 1) (s : State) : List Nat := if bc = 1 then groveArrays s else [arrayOfCore s.th.core]

/-- MLDB to a position outside every synapse region queues its command for each array. -/
theorem exec_mldb_queues {sp : List (Loc × Nat)} {u : State}
    (hspan : spanOf .read (s.getS a) (bTileBytes (Fmt.ofCode f.toNat)) 64 3 a.toNat s = .ok (sp, u)) (hmask : s.getS b &&& ~~~0xFF = 0)
    (hz : ∀ j ∈ mldbArrays bc s, regionTiles (s.array j).cfg ≤ (s.getS b).toNat % 256) : exec (.mldb a b f bc) s
    = enqueueArrays (mldbArrays bc s) { newCommand (.mldb a b f bc) (u.getS a) (s.getS b) u with locs := sp } u (advance 4) := by
  have harray := array_of_besideMemory (besideMemory_spanOf hspan)
  have hsmall : (s.getS b).toNat / 1024 % 4 < 1 := by
    have hlt := toNat_lt_of_masked hmask
    omega
  have htile : needTile (s.getS b) 0xFF (((mldbArrays bc s).map fun j => regionTiles (u.array j).cfg).foldl max 0) 1 4 b.toNat = .ok () :=
    needTile_ok hmask (foldl_max_le (fun j hj => by rw [harray]; exact hz j hj) (Nat.zero_le _)) hsmall
  change execMldb a b f bc s = _
  unfold mldbArrays at htile
  simp only [execMldb, deferredError_none hnoerr, hspan, htile, bind, Except.bind]
  rfl

end Issue
/-! ### The obligation -/

/-- Settles O43: each instruction as it issues, by what its checks give; what an address leaves of the arrays and of the thread
is what was there. -/
theorem arrayForms : Obligations.ArrayForms := by
  intro d n m a b f sc md sw bc ct st l s arr own owner mine V W fmt mode entered
  refine ⟨fun e v herr i hi => ?dataError, fun hnoerr => ⟨fun hn p hp => traps_of_takeTrap (exec_otherOwner hnoerr hn p hp) rfl,
    fun hclaimed hother => traps_of_takeTrap (exec_mown_refused hnoerr hclaimed hother) rfl,
    fun h => entersArrayQueues_of_enqueueArrays (exec_mown_queues hnoerr h) trivial (commandOf_newCommand _ 0 0 _),
    fun hn hm h => traps_of_takeTrap (exec_mma_refused hnoerr hn hm h) rfl,
    fun hn => ⟨entersArrayQueues_of_enqueueArrays (exec_mzero_queues hnoerr hn) trivial (commandOf_newCommand _ 0 0 _), ?flag⟩,
    fun hn hd => entersArrayQueues_of_enqueueArrays (exec_msacc_queues hnoerr hn hd) rfl (commandOf_newCommand _ 0 0 _),
    fun hn hm hmask hz hhalf => entersArrayQueues_of_enqueueArrays (exec_mma_queues hnoerr hn hm hmask hz hhalf) rfl (commandOf_newCommand _ 0 0 _),
    fun hn sp u hspan => ?mlda, fun hn k hdeck => ?mldaDeck, fun hmask => ?mldb, fun hn => ⟨fun sp u hspan => ?mdrain,
    fun k hdeck => ?mdrainDeck⟩, fun hn sp u hspan => ?mswap⟩⟩
  case dataError =>
    obtain ⟨go, hexec⟩ := arrays_deferredError d n m a b f sc md sw bc ct st l s i hi
    exact traps_of_deferredError hexec herr
  case flag => exact entersArrayQueues_of_enqueueArrays (exec_mflag_queues hnoerr hn) rfl (commandOf_newCommand _ 0 0 _)
  case mlda =>
    have hbeside := besideMemory_spanOf hspan
    have hexec := exec_mlda_memory hnoerr hn hspan
    rw [enqueueArray, core_of_besideMemory hbeside, getS_of_besideMemory hbeside] at hexec
    exact entersArrayQueues_of_enqueueArrays hexec ⟨rfl, rfl, rfl⟩ (commandOf_newCommand _ 0 0 _)
  case mldaDeck => exact entersArrayQueues_of_enqueueArrays (exec_mlda_deck hnoerr hn hdeck) ⟨rfl, rfl⟩ (commandOf_newCommand _ 0 0 _)
  case mldb =>
    intro arrs hz sp u hspan
    have hexec := exec_mldb_queues hnoerr hspan hmask hz
    rw [getS_of_besideMemory (besideMemory_spanOf hspan)] at hexec
    exact entersArrayQueues_of_enqueueArrays hexec ⟨rfl, rfl, rfl⟩ (commandOf_newCommand _ 0 0 _)
  case mdrain =>
    have hbeside := besideMemory_spanOf hspan
    have hexec := exec_mdrain_memory (md := md) (sc := sc) (ct := ct) (st := st) hnoerr hn hspan
    rw [core_of_besideMemory hbeside, getS_of_besideMemory hbeside, getSc_of_besideMemory hbeside] at hexec
    exact entersArrayQueues_of_enqueueArrays hexec ⟨rfl, rfl, rfl, rfl⟩ (commandOf_newCommand _ 0 0 _)
  case mdrainDeck => exact entersArrayQueues_of_enqueueArrays (exec_mdrain_deck hnoerr hn hdeck) ⟨rfl, rfl, rfl⟩ (commandOf_newCommand _ 0 0 _)
  case mswap =>
    have hbeside := besideMemory_spanOf hspan
    have hexec := exec_mswap_queues hnoerr hn hspan
    rw [enqueueArray, core_of_besideMemory hbeside, getS_of_besideMemory hbeside] at hexec
    exact entersArrayQueues_of_enqueueArrays hexec ⟨rfl, rfl⟩ (commandOf_newCommand _ 0 0 _)

end Sys2Proof.Machine
end

/-! ## What the accesses of an array leave of the running event (11 R243-R246, 12 R270) -/
section
namespace Sys2Proof.Machine

open Sys2Proof

/-- Caches leave what the event is about. -/
theorem CachesOnly.arg {s t : State} (h : CachesOnly s t) : t.arg = s.arg := by rw [h.1]

/-! ### Stores -/

theorem arg_storeLocs (w : Writer) (bytes : List (Loc × Byte)) (s : State) : (storeLocs w bytes s).arg = s.arg :=
  foldl_keeps State.arg (fun s g => arg_of_besideMemory (besideMemory_storeGroup w s g)) _ s

theorem arg_logFault (core part : Nat) (e : LogEntry) (s : State) : (s.logFault core part e).arg = s.arg := by
  unfold State.logFault
  split
  · unfold State.logMonitor
    split <;> rfl
  · exact arg_of_besideMemory (besideMemory_logAsync ..)

theorem arg_arrivePartial (part h : Nat) (p : Partial) (sender : LogEntry) (s : State) :
    (arrivePartial part h p sender s).arg = s.arg := by
  unfold arrivePartial
  split
  · rfl
  · split
    · exact arg_of_besideMemory (besideMemory_homeWrite ..)
    · exact arg_logFault ..

theorem arg_settleRows (ls : List Loc) (s : State) : (settleRows ls s).arg = s.arg := by
  refine foldl_keeps State.arg (fun u c => ?_) _ s
  unfold unlockRows
  split
  · rfl
  · exact arg_storeLocs ..

theorem arg_coreStore (part core : Nat) (w : Writer) (bytes : List (Loc × Byte)) (issuer : LogEntry) (s : State) :
    (coreStore part core w bytes issuer s).arg = s.arg := by
  have hstoreL1 (bs : List (Loc × Byte)) (u : State) : (storeL1 core bs u).arg = u.arg := by
    refine foldl_keeps State.arg (fun v p => ?_) _ u
    split
    · dsimp only
      split <;> rfl
    · rfl
  unfold coreStore
  dsimp only
  rw [hstoreL1, arg_storeLocs, arg_settleRows]
  split
  · exact arg_logFault ..
  · rfl

theorem arg_onThread (tid : Nat) (f : Thread → Thread) (s : State) : (s.onThread tid f).arg = s.arg := by
  rw [State.onThread_frame]

theorem arg_storePiece (t : Thread) (i j : Nat) (q : QStore) (s : State) : (storePiece t i j q s).arg = s.arg := by
  unfold storePiece
  split
  · rfl
  next p _ =>
    extract_lets w rest u v
    have hu : u.arg = s.arg := by
      simp only [u]
      split
      · exact arg_onThread ..
      · exact arg_onThread ..
    have hv : v.arg = s.arg := (arg_coreStore ..).trans hu
    split
    · unfold storePartialHome
      split
      · exact (arg_arrivePartial ..).trans hv
      · exact hv
    · exact hv

theorem arg_storeHome (tid no n : Nat) (s : State) : (storeHome tid no n s).arg = s.arg := by
  induction n generalizing s with
  | zero => rfl
  | succ n ih =>
    unfold storeHome
    split
    · rfl
    · split
      · rfl
      · split
        · rw [ih, arg_storePiece]
        · rfl

/-- What the grove's threads have stored short of its home is performed there. -/
theorem arg_settleGrove (g : Nat) (ls : List Loc) (s : State) : (settleGrove g ls s).arg = s.arg := by
  refine foldl_keeps State.arg (fun u t => foldl_keeps State.arg (fun v e => ?_) _ u) _ s
  split
  · split
    · exact arg_storeHome ..
    · rfl
  · rfl

/-! ### Reads -/

theorem arg_syncStand (stand : Nat) (s : State) : (syncStand stand s).arg = s.arg := (applyUpTo_updates ..).caches.arg

/-- A unit of a stand reads places. -/
theorem arg_standRead (stand : Nat) (ls : List Loc) (s : State) : (standRead stand ls s).2.arg = s.arg := by
  have hfill (v : State) : CachesOnly v (fillReplicas stand ls v) := .foldl (fun w l => by
    split
    · exact fillReplica_caches ..
    · exact .refl w) _ _
  refine (hfill _).arg.trans ?_
  split
  · exact (arg_syncStand ..).trans (arg_settleRows ..)
  · exact arg_settleRows ..

/-- The state after a read whose faults are settled. -/
theorem arg_of_settleBad_ok {n : Nat} {ls : List Loc} {s t : State} (h : settleBad n ls s = .ok t) : t.arg = s.arg := by
  induction n generalizing s with
  | zero =>
    cases h
    rfl
  | succ n ih =>
    unfold settleBad at h
    split at h
    · cases h
      rfl
    · split at h
      · exact (ih h).trans (arg_of_besideMemory (besideMemory_retire ..))
      · cases h

/-- The state at the fault that stops a read. -/
theorem arg_of_settleBad_error {n i : Nat} {b : BadStorage} {ls : List Loc} {s t : State}
    (h : settleBad n ls s = .error (i, b, t)) : t.arg = s.arg := by
  induction n generalizing s with
  | zero => cases h
  | succ n ih =>
    unfold settleBad at h
    split at h
    · cases h
    · split at h
      · exact (ih h).trans (arg_of_besideMemory (besideMemory_retire ..))
      · cases h
        rfl

/-- What an array reads for a command leaves what the event is about. -/
theorem arg_arrayRead (c : ArrayCmd) (addr : Nat → Word) (ls : List Loc) (s : State) : (arrayRead c addr ls s).2.2.arg = s.arg := by
  have hread : (standRead (standOfCore c.core) ls (settleGrove (groveOfCore c.core) ls s)).2.arg = s.arg :=
    (arg_standRead ..).trans (arg_settleGrove ..)
  unfold arrayRead
  dsimp only
  split
  next hsettle => exact (arg_of_settleBad_ok hsettle).trans hread
  next hsettle =>
    rw [arg_onThread, arg_of_besideMemory (besideMemory_retire ..)]
    exact (arg_of_settleBad_error hsettle).trans hread

end Sys2Proof.Machine
end

/-! ## What an array does with the command at the head of its queue (12 R271-R279) -/
section
namespace Sys2Proof.Machine

open Sys2Proof

/-! ### Tiles, flag registers and buffers of an array -/

section Named

variable {α : Type} (v : Vector α 4) (y z : α)

/-- What a two-bit number names in four, after it is written. -/
@[simp] theorem getD_setIfInBounds_self (n : BitVec 2) : (v.setIfInBounds n.toNat y).toList.getD n.toNat z = y := by
  have hn : n.toNat < 4 := n.isLt
  simp [List.getD, hn]

/-- What another number names. -/
theorem getD_setIfInBounds_ne {n k : BitVec 2} (h : k ≠ n) :
    (v.setIfInBounds n.toNat y).toList.getD k.toNat z = v.toList.getD k.toNat z := by
  have hne : n.toNat ≠ k.toNat := fun hnat => h (BitVec.eq_of_toNat_eq hnat.symm)
  simp [List.getD, hne]

end Named

/-! ### The state's operations on arrays -/

/-- An array whose head command has left its queue. -/
@[simp] theorem popArray_array (arr : Nat) (s : State) :
    (popArray arr s).array arr = { s.array arr with aq := (s.array arr).aq.tail } := by
  rw [popArray, State.setArray_self, List.drop_one]

/-- A load that returns leaves the arrays. -/
@[simp] theorem fillLoad_array (s : State) (tid load : Nat) (val : LoadVal) (arr : Nat) :
    (s.fillLoad tid load val).array arr = s.array arr := by
  rw [State.fillLoad, State.onThread_frame]
  rfl

/-- A load of the focus thread that returns has its value. -/
theorem val_of_fillLoad {s : State} {tid load : Nat} {val : LoadVal} (hfocus : s.th.id = tid) {q : Load}
    (hq : q ∈ (s.fillLoad tid load val).th.loads) (hid : q.id = load) : q.val = val := by
  rw [State.fillLoad, State.onThread, if_pos hfocus] at hq
  obtain ⟨l, -, rfl⟩ := List.mem_map.mp hq
  split at hid
  next h => rw [if_pos h]
  next h => exact absurd hid h

/-- Flags that are joined into a flag register. -/
theorem orAccf_array (arr n : Nat) (f : BitVec 32) (s : State) :
    (orAccf arr n f s).array arr = { s.array arr with accf := (s.array arr).accf.setIfInBounds n ((s.array arr).accf.toList.getD n 0 ||| f) } :=
  State.onArray_self ..

/-- A bit of a flag register with the flags of elements joined into it. -/
theorem getLsbD_joinedFlags (old : BitVec 32) (l : List (Nat × Flags)) {b : Nat} (hb : b < 5) :
    (old ||| (l.foldl (fun f o => f ||| o.2) (0 : Flags)).setWidth 32).getLsbD b = (old.getLsbD b || l.any fun o => o.2.getLsbD b) := by
  have hwide : b < 32 := by omega
  rw [BitVec.getLsbD_or, BitVec.getLsbD_setWidth, getLsbD_foldl_or fun o : Nat × Flags => o.2]
  simp [hwide]

/-- The array that computes an MMA: the product is in its tile, the flags are in its flag register. -/
theorem runMma_array (arr n m : Nat) (f : Fmt) (swapped : Bool) (h : Nat) (tile : List Byte) (s : State) :
    (runMma arr n m f swapped h tile s).array arr
      = (let x := s.array arr
        let p := tileProduct f swapped h ((x.abuf.toList.getD m []).span 0 8192) tile (x.tile n)
        { x with acc := x.acc.setIfInBounds n p.1, accf := x.accf.setIfInBounds n (x.accf.toList.getD n 0 ||| p.2.setWidth 32) }) := by
  simp only [runMma, orAccf_array, State.setArray_self]

/-- A partial that was sent has reached its record if no message on its way is it. -/
theorem partialThere_iff (sent : Option Nat) (s : State) : partialThere sent s = true ↔ ∀ e ∈ s.msgs, some e.seq ≠ sent := by
  cases sent with
  | none => simp [partialThere]
  | some n => simp [partialThere]

section Head

variable {s : State} {c : ArrayCmd} (hhead : headCommand s s.arg.a = some c)

include hhead

/-! ### Ownership, tiles and flags (R271, R278) -/

/-- MOWN at the head. -/
theorem exec_mownExecute {l : BitVec 1} (hinstr : c.instr = .mown l) : exec .mownExecute s
    = .next (popArray s.arg.a (s.onArray s.arg.a fun x => { x with own := ownAfter (decide (l = 1)) c.core x.own })) := by
  change execMownExecute s = _
  simp only [execMownExecute, hhead, hinstr]

/-- MZERO at the head. -/
theorem exec_mzeroExecute {n : BitVec 2} (hinstr : c.instr = .mzero n) : exec .mzeroExecute s
    = .next (popArray s.arg.a (s.onArray s.arg.a fun x =>
        { x with acc := x.acc.setIfInBounds n.toNat [], accf := x.accf.setIfInBounds n.toNat 0 })) := by
  change execMzeroExecute s = _
  simp only [execMzeroExecute, hhead, hinstr]

/-- MFLAG at the head. -/
theorem exec_mflagExecute {a : BitVec 4} {n : BitVec 2} {l : Nat} (hinstr : c.instr = .mflag a n) (hload : c.load = some l) :
    exec .mflagExecute s = .next (popArray s.arg.a ((s.fillLoad c.tid l
      (.data (((s.array s.arg.a).accf.toList.getD n.toNat 0).setWidth 1024) false)).onArray s.arg.a fun x =>
        { x with accf := x.accf.setIfInBounds n.toNat 0 })) := by
  have harg (val : LoadVal) : (s.fillLoad c.tid l val).arg = s.arg := arg_onThread ..
  change execMflagExecute s = _
  simp only [execMflagExecute, hhead, hinstr, hload, harg]

/-- The elements of MSACC, with their flags. -/
def scaledSums (c : ArrayCmd) (d n : Memory) : List (Nat × Flags) :=
  ((accWords d).zip (accWords n)).map fun p => sumScaled (nearExponent c.a.toInt) p.1 p.2

/-- MSACC at the head. -/
theorem exec_msaccExecute {d n : BitVec 2} {a : BitVec 4} (hinstr : c.instr = .msacc d n a) :
    let x := s.array s.arg.a; let out := scaledSums c (x.tile d.toNat) (x.tile n.toNat)
    exec .msaccExecute s = .next (popArray s.arg.a (orAccf s.arg.a d.toNat ((out.foldl (fun f o => f ||| o.2) (0 : Flags)).setWidth 32)
      (s.setArray s.arg.a { x with acc := x.acc.setIfInBounds d.toNat (accOf (out.map (·.1))) }))) := by
  change execMsaccExecute s = _
  simp only [execMsaccExecute, hhead, hinstr, scaledSums, State.setArray_arg]

/-! ### Products (R275) -/

section Mma

variable {n m : BitVec 2} {a f : BitVec 4} {sw : BitVec 1} (hinstr : c.instr = .mma n m a f sw 0)

include hinstr

/-- MMA at the head, whose tile can be read. -/
theorem exec_mmaExecute_readable (hreadable : badSlice s s.arg.a (16384 * (c.a.toNat % 256)) 16384 = none) :
    let x := s.array s.arg.a; let pos := c.a.toNat % 256
    exec .mmaExecute s = .next (popArray s.arg.a (runMma s.arg.a n.toNat m.toNat (Fmt.ofCode f.toNat) (decide (sw = 1))
      (c.a.toNat / 1024 % 4) (x.slice.span (16384 * pos) 16384)
      (s.setArray s.arg.a { x with tileRegs := loadTileRegs pos x.tileRegs }))) := by
  change execMmaExecute s = _
  simp only [execMmaExecute, hhead, hinstr, sliceChecked_ok _ _ hreadable, if_neg (show ¬ (0 : BitVec 1) = 1 by decide),
    State.setArray_arg]

/-- MMA at the head, whose tile cannot be read. -/
theorem exec_mmaExecute_unreadable {b : BadStorage} (hbad : badSlice s s.arg.a (16384 * (c.a.toNat % 256)) 16384 = some b)
    (hpasses : b.passes = false) :
    ∃ t, exec .mmaExecute s = .next (popArray s.arg.a t) ∧ t.array s.arg.a = s.array s.arg.a := by
  obtain ⟨t, hchecked, hbeside⟩ := sliceChecked_error c.part (c.entry s.arg.a 0x12) hbad hpasses
  refine ⟨t, ?_, array_of_besideMemory hbeside _⟩
  change execMmaExecute s = _
  simp only [execMmaExecute, hhead, hinstr, hchecked, if_neg (show ¬ (0 : BitVec 1) = 1 by decide), arg_of_besideMemory hbeside]

end Mma

/-! ### Commands that may not access memory yet (R270) -/

/-- What a command in memory that may not act does. -/
theorem exec_waits (hdecks : c.decks = []) (hdata : c.data = none) (hsent : c.sent = none) (hmay : arrayMay c s = false) :
    ∀ i ∈ [Instr.mldaExecute, .mldbExecute, .mdrainExecute, .mswapExecute], exec i s = .next s := by
  have hmlda : execMldaExecute s = .next s := by
    simp only [execMldaExecute, hhead, hdecks, hmay, Bool.false_eq_true, if_false]
    split <;> rfl
  have hmldb : execMldbExecute s = .next s := by
    simp only [execMldbExecute, hhead, hdata, hmay, Bool.false_eq_true, if_false]
    split <;> rfl
  have hmdrain : execMdrainExecute s = .next s := by
    simp only [execMdrainExecute, hhead, hdecks, hsent, hmay, Bool.false_eq_true, if_false, Option.isSome_none]
    split
    · split <;> rfl
    · rfl
  have hmswap : execMswapExecute s = .next s := by
    simp only [execMswapExecute, hhead, hmay, Bool.false_eq_true, if_false]
    split <;> rfl
  simp only [List.forall_mem_cons, List.not_mem_nil, false_implies, implies_true, and_true]
  exact ⟨hmlda, hmldb, hmdrain, hmswap⟩

end Head

end Sys2Proof.Machine
end

/-! ## What an array reads into buffers and tiles, drains and exchanges (12 R273-R279) -/
section
namespace Sys2Proof.Machine

open Sys2Proof

@[simp] theorem State.onArray_arg (s : State) (arr : Nat) (f : MArray → MArray) : (s.onArray arr f).arg = s.arg := rfl

/-! ### Loads of A buffers (R273) -/

/-- A buffer takes what was read for it, and whether the read failed. -/
def fillBuffer (arr n : Nat) (f : Fmt) (r : List Byte × Bool × State) : State :=
  (r.2.2.onArray arr fun x => { x with abuf := x.abuf.setIfInBounds n (Memory.ofBytes
    (mixBytes r.2.1 (((r.2.2.array arr).abuf.toList.getD n []).span 0 8192) (unpackTile f r.1) r.2.2)) }).draw

/-- Bytes whose read did not fail are the new ones. -/
@[simp] theorem mixBytes_read (old new : List Byte) (s : State) : mixBytes false old new s = new := if_neg Bool.false_ne_true

/-- A buffer whose read did not fail holds the tile. -/
theorem fillBuffer_array (arr n : Nat) (f : Fmt) {r : List Byte × Bool × State} (hread : r.2.1 = false) :
    (fillBuffer arr n f r).array arr = { r.2.2.array arr with
      abuf := (r.2.2.array arr).abuf.setIfInBounds n (Memory.ofBytes (unpackTile f r.1)) } := by
  rw [fillBuffer, hread, State.draw_get_array, State.onArray_self, mixBytes_read]

/-- The places that MLDA reads in a deck. -/
def deckSlots (core : Nat) (d : Deck) (len : Nat) : List Loc := (List.range len).map fun i => Loc.ls core (deckByte d true i)

section Mlda

variable {s : State} {c : ArrayCmd} (hhead : headCommand s s.arg.a = some c) {n : BitVec 2} {a f : BitVec 4} {k : BitVec 1}
  (hinstr : c.instr = .mlda n a f k)

include hhead hinstr

/-- MLDA from memory that may act fills its buffer. -/
theorem exec_mlda_reads (hdecks : c.decks = []) (hmay : arrayMay c s = true) : exec .mldaExecute s
    = .next (popArray s.arg.a (fillBuffer s.arg.a n.toNat (Fmt.ofCode f.toNat) (arrayRead c c.byteAddr c.places s))) := by
  have harg := arg_arrayRead c c.byteAddr c.places s
  change execMldaExecute s = _
  simp only [execMldaExecute, hhead, hinstr, hdecks, hmay, if_true, harg, fillBuffer]

section Deck

variable {core off : Nat} {rest : List (Nat × Nat)} (hdecks : c.decks = (core, off) :: rest)

include hdecks

/-- MLDA from a deck that does not hold its tile yet, or not to be freed yet, waits. -/
theorem exec_mlda_deck_waits
    (h : (unitDeck false core off s).fill * (unitDeck false core off s).size < aTileBytes (Fmt.ofCode f.toNat)
      ∨ arrayMayFree c (unitDeck false core off s) (deckSlots core (unitDeck false core off s) (aTileBytes (Fmt.ofCode f.toNat))) s
          = false) : exec .mldaExecute s = .next s := by
  change execMldaExecute s = _
  simp only [execMldaExecute, hhead, hinstr, hdecks]
  exact if_pos (by simpa [deckSlots] using h)

/-- MLDA from a deck fills its buffer, and frees the slots. -/
theorem exec_mlda_deck_reads
    (hfill : aTileBytes (Fmt.ofCode f.toNat) ≤ (unitDeck false core off s).fill * (unitDeck false core off s).size)
    (hmay : arrayMayFree c (unitDeck false core off s) (deckSlots core (unitDeck false core off s) (aTileBytes (Fmt.ofCode f.toNat))) s
      = true) :
    let d := unitDeck false core off s; let len := aTileBytes (Fmt.ofCode f.toNat)
    let u := fillBuffer s.arg.a n.toNat (Fmt.ofCode f.toNat) (arrayRead c (fun i => cbAddr (deckByte d true i)) (deckSlots core d len)
      (syncStand (standOfCore core) s))
    exec .mldaExecute s = .next (popArray s.arg.a (deckStore (deckConsume (len / d.size) (deckAt core off u)) u)) := by
  intro d len u
  have harg := (arg_arrayRead c (fun i => cbAddr (deckByte d true i)) (deckSlots core d len) (syncStand (standOfCore core) s)).trans
    (arg_syncStand ..)
  change execMldaExecute s = _
  simp only [execMldaExecute, hhead, hinstr, hdecks]
  refine (if_neg (by simpa [deckSlots] using ⟨hfill, hmay⟩)).trans ?_
  simp only [deckSlots, d, len] at harg
  simp only [harg, u, fillBuffer, deckSlots, d, len, State.draw_arg, State.onArray_arg]

end Deck

end Mlda

/-! ### Tiles of the plane store (R274) -/

/-- What a table's entry names is the entry. -/
theorem Table.mem_of_find {α : Type} {k : Nat} {v : α} {t : Table α} (h : Table.find k t = some v) : (k, v) ∈ t := by
  induction t with
  | nil => cases h
  | cons p t ih =>
    obtain ⟨i, x⟩ := p
    rw [Table.find] at h
    split at h
    next hi =>
      cases h
      cases hi
      exact List.mem_cons_self
    · exact List.mem_cons_of_mem _ (ih h)

/-- The entries of a table with one put in its place. -/
theorem Table.eq_or_mem_of_mem_put {α : Type} {k : Nat} {v : α} {t : Table α} {p : Nat × α} (h : p ∈ Table.put k v t) :
    p = (k, v) ∨ p ∈ t := by
  induction t with
  | nil => exact .inl (List.mem_singleton.mp h)
  | cons q t ih =>
    obtain ⟨i, x⟩ := q
    rw [Table.put] at h
    split at h
    · obtain rfl | hmem := List.mem_cons.mp h
      · exact .inr List.mem_cons_self
      · exact (ih hmem).imp_right (List.mem_cons_of_mem _)
    · split at h
      · exact (List.mem_cons.mp h).imp_right (List.mem_cons_of_mem _)
      · exact List.mem_cons.mp h

/-- The entry of a table whose entries are mapped. -/
theorem Table.find_map {α : Type} (k : Nat) (g : α → α) (t : Table α) :
    Table.find k (t.map fun p => (p.1, g p.2)) = (Table.find k t).map g := by
  induction t with
  | nil => rfl
  | cons p t ih =>
    simp only [List.map_cons, Table.find]
    split
    · rfl
    · exact ih

/-- Each command with a number, in the queues of arrays, has the bytes of a tile that was read. -/
def HoldsTile (id : Nat) (bs : List Byte) (t : Table MArray) : Prop :=
  ∀ q ∈ t, ∀ e ∈ q.2.aq, e.id = id → e.data = some bs ∧ e.failed = false

/-- A tile that was read is shared. -/
theorem holdsTile_shareTile (id : Nat) (bs : List Byte) (s : State) : HoldsTile id bs (shareTile id bs false s).arrays := by
  intro q hq e he hid
  obtain ⟨p, -, rfl⟩ := List.mem_map.mp hq
  obtain ⟨d, -, rfl⟩ := List.mem_map.mp he
  split at hid
  next h => simp only [if_pos h, and_self]
  next h => exact absurd hid h

/-- Sharing leaves the slices. -/
theorem shareTile_slice (id : Nat) (bs : List Byte) (failed : Bool) (s : State) (arr : Nat) :
    ((shareTile id bs failed s).array arr).slice = (s.array arr).slice := by
  have hfind := Table.find_map arr (fun x : MArray => { x with aq := x.aq.map fun c =>
    if c.id = id then { c with data := some bs, failed := failed, locs := [] } else c }) s.arrays
  simp only [State.array, shareTile, hfind]
  cases Table.find arr s.arrays with
  | none => rfl
  | some x => rfl

/-- An array that changes without a new command in its queue. -/
theorem HoldsTile.setArray {id : Nat} {bs : List Byte} {s : State} (h : HoldsTile id bs s.arrays) {arr : Nat} {y : MArray}
    (hsub : y.aq ⊆ (s.array arr).aq) : HoldsTile id bs (s.setArray arr y).arrays := by
  intro q hq e he hid
  obtain rfl | hmem := Table.eq_or_mem_of_mem_put hq
  · have hold := hsub he
    rw [State.array] at hold
    cases hfind : Table.find arr s.arrays with
    | none => simp [hfind] at hold
    | some x =>
      rw [hfind] at hold
      exact h _ (Table.mem_of_find hfind) e hold hid
  · exact h q hmem e he hid

/-- A tile that was read is in the slice, and in no tile register. -/
theorem placeTile_array (arr t : Nat) (bs : List Byte) (s : State) :
    (placeTile arr t bs false s).array arr = writeTile t bs (s.array arr) := by
  rw [placeTile, State.draw_get_array, State.onArray_self, mixBytes_read]

/-- No tile register holds a tile that is written. -/
theorem not_mem_tileRegs_writeTile (t : Nat) (bs : List Byte) (x : MArray) : t ∉ (writeTile t bs x).tileRegs := by
  simp [writeTile]

/-- An array whose tile is placed as its command leaves the queue. -/
theorem popArray_placeTile (arr t : Nat) (bs : List Byte) (s : State) :
    let y := (popArray arr (placeTile arr t bs false s)).array arr
    y.aq = (s.array arr).aq.tail ∧ y.slice = (s.array arr).slice.splice (16384 * t) bs ∧ t ∉ y.tileRegs := by
  simp only [popArray_array, placeTile_array]
  exact ⟨rfl, rfl, not_mem_tileRegs_writeTile _ _ _⟩

/-- The commands that remain as the tile is placed. -/
theorem HoldsTile.popArray_placeTile {id : Nat} {bs : List Byte} {s : State} (h : HoldsTile id bs s.arrays) (arr t : Nat) (tile : List Byte)
    (failed : Bool) : HoldsTile id bs (popArray arr (placeTile arr t tile failed s)).arrays := by
  have hplaced : HoldsTile id bs (placeTile arr t tile failed s).arrays := by
    refine h.setArray ?_
    exact List.Subset.refl (s.array arr).aq
  exact hplaced.setArray (List.drop_subset 1 _)

section Mldb

variable {s : State} {c : ArrayCmd} (hhead : headCommand s s.arg.a = some c) {a b f : BitVec 4} {bc : BitVec 1}
  (hinstr : c.instr = .mldb a b f bc)

include hhead hinstr

/-- MLDB with the tile that another array has read. -/
theorem exec_mldb_shared {bs : List Byte} (hdata : c.data = some bs) (hfailed : c.failed = false) : exec .mldbExecute s
    = .next (popArray s.arg.a (placeTile s.arg.a (c.b.toNat % 256) bs false s)) := by
  change execMldbExecute s = _
  simp only [execMldbExecute, hhead, hinstr, hdata, hfailed]

/-- MLDB that reads its tile. -/
theorem exec_mldb_reads (hdata : c.data = none) (hmay : arrayMay c s = true) (hread : (arrayRead c c.byteAddr c.places s).2.1 = false) :
    let r := arrayRead c c.byteAddr c.places s; let tile := unpackTile (Fmt.ofCode f.toNat) r.1
    exec .mldbExecute s = .next (popArray s.arg.a (placeTile s.arg.a (c.b.toNat % 256) tile false
      (if bc = 1 then shareTile c.id tile false r.2.2 else r.2.2))) := by
  have harg := arg_arrayRead c c.byteAddr c.places s
  change execMldbExecute s = _
  simp only [execMldbExecute, hhead, hinstr, hdata, hmay, if_true, harg, hread]

end Mldb

/-! ### Drains (R277) -/

/-- A drain that has no bytes yet converts its tile. -/
theorem drainedBytes_converted {c : ArrayCmd} (hdata : c.data = none) (arr n : Nat) (f : Fmt) (ct : Bool) (s : State) :
    drainedBytes arr c n f ct s = convertDrain arr c n f ct s := by
  simp only [drainedBytes, hdata]

/-- A drain that has converted its tile keeps the bytes. -/
theorem drainedBytes_kept {c : ArrayCmd} {bs : List Byte} (hdata : c.data = some bs) (arr n : Nat) (f : Fmt) (ct : Bool) (s : State) :
    drainedBytes arr c n f ct s = (bs, s) := by
  simp only [drainedBytes, hdata]

/-- The statistics partial of a drain leaves as one message, whose number the command keeps. -/
theorem sendDrainPartial_spec (arr : Nat) (c : ArrayCmd) (f : Fmt) (bs : List Byte) (u : State) :
    let t := sendDrainPartial arr c f bs u
    ∃ e, SameMemory u t ∧ t.th = u.th ∧ t.threads = u.threads ∧ t.msgs = u.msgs ++ [e] ∧ e.seq = u.fresh
      ∧ e.body = .statistics c.part (BitVec.ofNat 64 (c.sc.extractLsb' 8 16).toNat)
          (Partial.ofNums ((bytesToElems f bs).map (decodeNum f))) (c.entry arr 0x1F)
      ∧ (t.array arr).aq = (u.array arr).aq.map fun e => if e.id = c.id then { e with sent := some u.fresh } else e :=
  ⟨_, ⟨rfl, rfl, rfl, fun _ => rfl, fun _ => rfl⟩, rfl, rfl, rfl, rfl, rfl, congrArg MArray.aq (State.onArray_self ..)⟩

/-- A deck with one slot more filled with bytes of a drain, and published. -/
def fillSlot (c : ArrayCmd) (core off : Nat) (d : Deck) (q : List Byte × State) : State :=
  let slot := (q.1.drop (d.size * c.left)).take d.size
  let u := storeLocs { stand := standOfCore core, tid := c.tid }
    (slot.zipIdx.map fun p => (Loc.ls core (deckByte d false p.2), p.1)) q.2
  deckStore (deckPublish 1 (deckAt core off u)) u

/-- A drain without statistics, or with the partial sent, sends none. -/
theorem not_drainBegins {c : ArrayCmd} {st : BitVec 1} (h : st = 0 ∨ c.sent ≠ none) : (decide (st = 1) && c.sent.isNone) = false := by
  obtain rfl | hsent := h
  · rfl
  · rw [Option.isNone_eq_false_iff.mpr (Option.isSome_iff_ne_none.mpr hsent), Bool.and_false]

section Mdrain

variable {s : State} {c : ArrayCmd} (hhead : headCommand s s.arg.a = some c) {n : BitVec 2} {a f : BitVec 4} {sc m : BitVec 3}
  {ct st k : BitVec 1} (hinstr : c.instr = .mdrain n a sc f m ct st k)

include hhead hinstr

/-- A drain whose partial has not reached its record waits. -/
theorem exec_mdrain_partialWaits (hthere : partialThere c.sent s = false) : exec .mdrainExecute s = .next s := by
  change execMdrainExecute s = _
  simp only [execMdrainExecute, hhead, hinstr, hthere, Bool.not_false, if_true]

section Memory

variable (hthere : partialThere c.sent s = true) (hdecks : c.decks = [])

include hthere hdecks

/-- A drain to memory whose partial has reached its record is done. -/
theorem exec_mdrain_partialDone (hsent : c.sent ≠ none) : exec .mdrainExecute s = .next (finishDrainCmd s.arg.a s) := by
  change execMdrainExecute s = _
  simp only [execMdrainExecute, hhead, hinstr, hthere, hdecks, Option.isSome_iff_ne_none.mpr hsent, Bool.not_true, Bool.false_eq_true,
    if_false, if_true]

/-- A drain to memory that may act stores its bytes, then sends its partial or is done. -/
theorem exec_mdrain_stores (hsent : c.sent = none) (hmay : arrayMay c s = true) :
    let q := drainedBytes s.arg.a c n.toNat (Fmt.ofCode f.toNat) (decide (ct = 1)) s
    let u := arrayStore c c.places q.1 (c.entry s.arg.a 0) q.2
    exec .mdrainExecute s = .next (if st = 1 then sendDrainPartial s.arg.a c (Fmt.ofCode f.toNat) q.1 u else finishDrainCmd s.arg.a u) := by
  rw [hsent] at hthere
  change execMdrainExecute s = _
  simp [execMdrainExecute, hhead, hinstr, hthere, hdecks, hsent, hmay]

end Memory

section Deck

variable (hthere : partialThere c.sent s = true) {core off : Nat} {rest : List (Nat × Nat)} (hdecks : c.decks = (core, off) :: rest)

include hthere hdecks

/-- A drain to a deck waits for what its thread did before. -/
theorem exec_mdrain_deck_waits (hperformed : performedBefore s c.tid c.id 3 = false) : exec .mdrainExecute s = .next s := by
  change execMdrainExecute s = _
  simp only [execMdrainExecute, hhead, hinstr, hthere, hdecks, hperformed, Bool.not_true, Bool.not_false, Bool.false_eq_true, if_false, if_true]

variable (hperformed : performedBefore s c.tid c.id 3 = true)

include hperformed

/-- A drain with statistics to a deck first sends its partial. -/
theorem exec_mdrain_deck_sends (hst : st = 1) (hsent : c.sent = none) :
    let q := drainedBytes s.arg.a c n.toNat (Fmt.ofCode f.toNat) (decide (ct = 1)) s
    exec .mdrainExecute s = .next (sendDrainPartial s.arg.a c (Fmt.ofCode f.toNat) q.1 q.2) := by
  rw [hsent] at hthere
  change execMdrainExecute s = _
  simp [execMdrainExecute, hhead, hinstr, hthere, hdecks, hperformed, hst, hsent]

variable (hready : st = 0 ∨ c.sent ≠ none)

include hready

/-- A drain to a deck waits for a slot. -/
theorem exec_mdrain_deck_full (hroom : (unitDeck true core off s).room = 0) : exec .mdrainExecute s = .next s := by
  have hbegins := not_drainBegins hready
  change execMdrainExecute s = _
  simp only [execMdrainExecute, hhead, hinstr, hthere, hdecks, hperformed, hbegins, hroom, Nat.lt_irrefl, Bool.not_true,
    Bool.false_eq_true, if_false]

/-- A drain to a deck fills a slot, and is done after the last. -/
theorem exec_mdrain_deck_fills (hroom : 0 < (unitDeck true core off s).room) :
    let q := drainedBytes s.arg.a c n.toNat (Fmt.ofCode f.toNat) (decide (ct = 1)) s
    let d := unitDeck true core off s; let v := fillSlot c core off d q
    exec .mdrainExecute s = .next (if q.1.length ≤ d.size * (c.left + 1) then finishDrainCmd s.arg.a v else
      v.onArray s.arg.a fun x => { x with aq := x.aq.map fun e => if e.id = c.id then { e with left := e.left + 1 } else e }) := by
  have hbegins := not_drainBegins hready
  change execMdrainExecute s = _
  simp only [execMdrainExecute, hhead, hinstr, hthere, hdecks, hperformed, hbegins, hroom, fillSlot, Bool.not_true, Bool.false_eq_true,
    if_false, if_true]
  split <;> rfl

end Deck

end Mdrain

end Sys2Proof.Machine
end

/-! ## Array commands as they execute (12 R271-R279) -/
section
namespace Sys2Proof.Machine

open Sys2Proof

/-! ### Exchanges (R279) -/

/-- The bytes of a tile and its flag register as MSWAP writes them. -/
def swapImage (x : MArray) (n : Nat) : List Byte := (x.tile n).span 0 8192 ++ leBytes 4 (x.accf.toList.getD n 0).toNat

/-- A tile and its flag register as MSWAP takes them from a block. -/
def loadImage (n : Nat) (bs : List Byte) (x : MArray) : MArray :=
  { x with
    acc := x.acc.setIfInBounds n (Memory.ofBytes (bs.take 8192))
    accf := x.accf.setIfInBounds n (BitVec.ofNat 32 (leField bs 8192 4 % 64)) }

/-- MSWAP that may act exchanges. -/
theorem exec_mswap_swaps {s : State} {c : ArrayCmd} (hhead : headCommand s s.arg.a = some c) {n : BitVec 2} {a : BitVec 4}
    (hinstr : c.instr = .mswap n a) (hmay : arrayMay c s = true) (hread : (arrayRead c c.byteAddr c.places s).2.1 = false) :
    let r := arrayRead c c.byteAddr c.places s
    exec .mswapExecute s = .next (popArray s.arg.a ((arrayStore c (c.places.take 8196) (swapImage (r.2.2.array s.arg.a) n.toNat)
      (c.entry s.arg.a 0) r.2.2.draw).onArray s.arg.a (loadImage n.toNat (r.1.take 8196)))) := by
  change execMswapExecute s = _
  simp only [execMswapExecute, hhead, hinstr, hmay, if_true, hread, mixBytes_read, swapImage]
  rfl

/-! ### Rounds (R276) -/

/-- The head of an array's queue that is a BC MMA. -/
theorem headRound_of_headCommand {s : State} {arr : Nat} {c : ArrayCmd} (hhead : headCommand s arr = some c) {n m : BitVec 2}
    {a f : BitVec 4} {sw : BitVec 1} (hinstr : c.instr = .mma n m a f sw 1) : headRound s arr = some c := by
  simp [headRound, hhead, hinstr]

/-- A round in which array 0's tile can be read. -/
theorem exec_mmaBcRound {s : State} {c : ArrayCmd} {arr : Nat} (harr : arr = 4 * s.arg.a)
    (hheads : ∀ j < 4, (headRound s (arr + j)).isSome = true) (hround : headRound s arr = some c)
    (hreadable : badSlice s arr (16384 * (c.a.toNat % 256)) 16384 = none) :
    let x := s.array arr; let pos := c.a.toNat % 256
    exec .mmaBcRound s = .next ([arr, arr + 1, arr + 2, arr + 3].foldl (runRound (x.slice.span (16384 * pos) 16384))
      (s.setArray arr { x with tileRegs := loadTileRegs pos x.tileRegs })) := by
  have hall : ((List.range 4).map fun q => arr + q).all (fun j => (headRound s j).isSome) = true := by
    rw [List.all_map, List.all_eq_true]
    exact fun q hq => hheads q (List.mem_range.mp hq)
  change execMmaBcRound s = _
  simp only [execMmaBcRound, ← harr, hall, if_true, hround, sliceChecked_ok _ _ hreadable]
  rfl

/-! ### The obligation -/

/-- The flag register of a tile. -/
def MArray.flags (x : MArray) (n : Nat) : BitVec 32 := x.accf.toList.getD n 0

/-- An A buffer. -/
def MArray.buffer (x : MArray) (n : Nat) : Memory := x.abuf.toList.getD n []

/-- An array that a command changes as it leaves the queue. -/
theorem popArray_onArray_array (s : State) (arr : Nat) (f : MArray → MArray) :
    (popArray arr (s.onArray arr f)).array arr = { f (s.array arr) with aq := (f (s.array arr)).aq.tail } := by
  rw [popArray_array, State.onArray_self]

/-- Settles O44: each command as it executes, by what the accesses and the state's operations leave of the array. (The model's
`arrayEvents` lists the steps.) -/
theorem arrayEvents_hold : Obligations.ArrayEvents := by
  intro s c arr x hhead tile flags buffer ls r
  refine ⟨fun l hinstr => ⟨_, exec_mownExecute hhead hinstr, ?own⟩, fun n hinstr => ⟨_, exec_mzeroExecute hhead hinstr, ?zero⟩,
    fun a n l hinstr hload => ⟨_, exec_mflagExecute hhead hinstr hload, ?flag⟩,
    fun d n a hinstr => ⟨_, exec_msaccExecute hhead hinstr, ?sacc⟩,
    fun n m a f sw hinstr => ⟨fun hreadable => ⟨_, exec_mmaExecute_readable hhead hinstr hreadable, ?product⟩,
      fun b hbad hpasses => ?noProduct⟩,
    fun i hi hdecks hdata hsent hmay => exec_waits hhead hdecks hdata hsent hmay i hi,
    fun n a f k hinstr hdecks hmay hread => ⟨_, exec_mlda_reads hhead hinstr hdecks hmay, ?mlda⟩,
    fun n a f k core off rest hinstr hdecks => ?mldaDeck,
    fun a b f bc hinstr => ⟨fun bs hdata hfailed => ⟨_, exec_mldb_shared hhead hinstr hdata hfailed, ?shared⟩,
      fun hdata hmay hread => ⟨_, exec_mldb_reads hhead hinstr hdata hmay hread, ?mldb⟩⟩,
    fun n a sc f m ct st k hinstr => ?mdrain,
    fun n a hinstr hmay hread => ⟨_, exec_mswap_swaps hhead hinstr hmay hread, ?swap⟩, fun g harr hheads n m a f sw hinstr => ?round⟩
  case own =>
    have h := popArray_onArray_array s arr fun x => { x with own := ownAfter (decide (l = 1)) c.core x.own }
    exact ⟨congrArg MArray.own h, congrArg MArray.aq h, rfl⟩
  case zero =>
    have h := popArray_onArray_array s arr fun x => { x with acc := x.acc.setIfInBounds n.toNat [], accf := x.accf.setIfInBounds n.toNat 0 }
    exact ⟨(congrArg (MArray.tile · n.toNat) h).trans (getD_setIfInBounds_self ..),
      (congrArg (MArray.flags · n.toNat) h).trans (getD_setIfInBounds_self ..), congrArg MArray.aq h, fun k hk =>
      ⟨(congrArg (MArray.tile · k.toNat) h).trans (getD_setIfInBounds_ne _ _ _ hk),
        (congrArg (MArray.flags · k.toNat) h).trans (getD_setIfInBounds_ne _ _ _ hk)⟩⟩
  case flag =>
    have h := popArray_onArray_array (s.fillLoad c.tid l (.data ((x.accf.toList.getD n.toNat 0).setWidth 1024) false)) arr
      fun x => { x with accf := x.accf.setIfInBounds n.toNat 0 }
    rw [fillLoad_array] at h
    exact ⟨(congrArg (MArray.flags · n.toNat) h).trans (getD_setIfInBounds_self ..), congrArg MArray.aq h,
      fun hfocus q hq hid => val_of_fillLoad hfocus hq hid⟩
  case sacc =>
    have h := popArray_array arr (orAccf arr d.toNat
      (((scaledSums c (tile s d) (tile s n)).foldl (fun f o => f ||| o.2) (0 : Flags)).setWidth 32)
      (s.setArray arr { x with acc := x.acc.setIfInBounds d.toNat (accOf ((scaledSums c (tile s d) (tile s n)).map (·.1))) }))
    rw [orAccf_array, State.setArray_self] at h
    refine ⟨congrArg MArray.aq h, (congrArg (MArray.tile · d.toNat) h).trans (getD_setIfInBounds_self ..), fun b hb => ?_⟩
    have hflags := (congrArg (MArray.flags · d.toNat) h).trans (getD_setIfInBounds_self ..)
    exact (congrArg (BitVec.getLsbD · b) hflags).trans (getLsbD_joinedFlags _ _ hb)
  case product =>
    have h := popArray_array arr (runMma arr n.toNat m.toNat (Fmt.ofCode f.toNat) (decide (sw = 1)) (c.a.toNat / 1024 % 4)
      (x.slice.span (16384 * (c.a.toNat % 256)) 16384)
      (s.setArray arr { x with tileRegs := loadTileRegs (c.a.toNat % 256) x.tileRegs }))
    rw [runMma_array, State.setArray_self] at h
    exact ⟨congrArg MArray.aq h, (congrArg (MArray.tile · n.toNat) h).trans (getD_setIfInBounds_self ..),
      (congrArg (MArray.flags · n.toNat) h).trans (getD_setIfInBounds_self ..), rfl⟩
  case noProduct =>
    obtain ⟨t, hexec, harray⟩ := exec_mmaExecute_unreadable hhead hinstr hbad hpasses
    have h := popArray_array arr t
    rw [harray] at h
    exact ⟨_, hexec, congrArg MArray.aq h, (congrArg MArray.acc h).trans rfl, (congrArg MArray.accf h).trans rfl⟩
  case mlda =>
    have h := popArray_array arr (fillBuffer arr n.toNat (Fmt.ofCode f.toNat) r)
    rw [fillBuffer_array _ _ _ hread] at h
    exact ⟨congrArg MArray.aq h, (congrArg (MArray.buffer · n.toNat) h).trans (getD_setIfInBounds_self ..)⟩
  case mldaDeck =>
    intro d len slots q
    refine ⟨exec_mlda_deck_waits hhead hinstr hdecks, fun hfill hmay => ⟨_, _, exec_mlda_deck_reads hhead hinstr hdecks hfill hmay, rfl,
      fun hread => ?_⟩⟩
    have h := fillBuffer_array arr n.toNat (Fmt.ofCode f.toNat) hread
    exact (congrArg (MArray.buffer · n.toNat) h).trans (getD_setIfInBounds_self ..)
  case shared => exact popArray_placeTile ..
  case mldb =>
    obtain ⟨-, hslice, hregs⟩ := popArray_placeTile arr (c.b.toNat % 256) (unpackTile (Fmt.ofCode f.toNat) r.1)
      (if bc = 1 then shareTile c.id (unpackTile (Fmt.ofCode f.toNat) r.1) false r.2.2 else r.2.2)
    refine ⟨hslice.trans ?_, hregs, fun hbc => ?_⟩
    · split
      · rw [shareTile_slice]
      · rfl
    · rw [if_pos hbc]
      exact (holdsTile_shareTile _ _ _).popArray_placeTile _ _ _ _
  case mdrain =>
    intro fmt q there ends counts
    have hthere : there → partialThere c.sent s = true := (partialThere_iff ..).mpr
    have hcounts {u : State} (h : exec .mdrainExecute s = .next (sendDrainPartial arr c fmt q.1 u)) : counts u := by
      obtain ⟨e, he⟩ := sendDrainPartial_spec arr c fmt q.1 u
      exact ⟨_, e, h, he⟩
    refine ⟨fun hdata => ?converted, fun bs hdata => ?kept, fun ⟨e, he, hseq⟩ => ?awaiting,
      fun hdecks => ⟨fun hsent ht => exec_mdrain_partialDone hhead hinstr (hthere ht) hdecks hsent, fun hsent hmay => ?memory⟩,
      fun core off rest hdecks ht => ?deck⟩
    case converted => exact congrArg Prod.fst (drainedBytes_converted hdata ..)
    case kept => exact drainedBytes_kept hdata ..
    case awaiting =>
      refine exec_mdrain_partialWaits hhead hinstr (Bool.eq_false_iff.mpr fun h => ?_)
      exact (partialThere_iff ..).mp h e he hseq
    case memory =>
      have hnothing : partialThere c.sent s = true := by
        rw [hsent]
        rfl
      have h := exec_mdrain_stores hhead hinstr hnothing hdecks hsent hmay
      exact ⟨fun hst => h.trans (congrArg _ (if_neg (by rw [hst]; decide))), fun hst => hcounts (h.trans (congrArg _ (if_pos hst)))⟩
    case deck =>
      intro d
      refine ⟨exec_mdrain_deck_waits hhead hinstr (hthere ht) hdecks,
        fun hperformed hst hsent => hcounts (exec_mdrain_deck_sends hhead hinstr (hthere ht) hdecks hperformed hst hsent),
        fun hperformed hready => ?_⟩
      intro slot u v
      have h := exec_mdrain_deck_fills hhead hinstr (hthere ht) hdecks hperformed hready
      exact ⟨exec_mdrain_deck_full hhead hinstr (hthere ht) hdecks hperformed hready,
        fun hroom hlast => (h hroom).trans (congrArg _ (if_pos hlast)),
        fun hroom hmore => ⟨_, (h hroom).trans (congrArg _ (if_neg (Nat.not_le.mpr hmore))),
          ⟨rfl, rfl, rfl, fun _ => rfl, fun _ => rfl⟩, rfl, congrArg MArray.aq (State.onArray_self ..)⟩⟩
  case swap =>
    have h := popArray_onArray_array (arrayStore c (ls.take 8196) (swapImage (r.2.2.array arr) n.toNat) (c.entry arr 0) r.2.2.draw) arr
      (loadImage n.toNat (r.1.take 8196))
    exact ⟨(congrArg (MArray.tile · n.toNat) h).trans (getD_setIfInBounds_self ..),
      (congrArg (MArray.flags · n.toNat) h).trans (getD_setIfInBounds_self ..), rfl, rfl, rfl, fun _ => rfl, fun _ => rfl⟩
  case round =>
    intro u pos hreadable
    exact exec_mmaBcRound (s := u) harr hheads (headRound_of_headCommand hhead hinstr) hreadable

end Sys2Proof.Machine
end

/-! ## A reduction job in a slot past the last (14 R312) -/
section
namespace Sys2Proof.Machine

open Sys2Proof

/-- The parameter block of an FP32 sum of one element from two inputs. -/
def sumBlock : List Byte :=
  [0, 2] ++ zeroBytes 6 ++ leBytes 8 1 ++ leBytes 8 (placedPc + 0x800) ++ leBytes 8 (placedPc + 0x900) ++ zeroBytes 16
    ++ leBytes 8 (placedPc + 0x400) ++ leBytes 8 (placedPc + 0x440) ++ zeroBytes 128

/-- A thread whose s1 names the parameter block, in the page that its partition maps. The job table of its stand has a queued job
in each of the 32 slots, and a done one under the number 2^62. -/
def farSlot : State :=
  let s := State.reset.withFetchWord 32 0
  { s with
    th := { s.th with s := s.th.s.set 1 (BitVec.ofNat 64 (placedPc + 0x100)) }
    dram := Memory.writeN s.dram 0x105100 sumBlock
    stands := [(0, { bre := ((List.range 32).map fun i => (i, {})) ++ [(2 ^ 62, { state := 2 })] })] }

/-- A load of a thread has a number and data of more than 64 bits. -/
def hasWideData (n : Nat) (t : Thread) : Bool := t.loads.any fun l => match l.val with
  | .data v _ => decide (l.id = n) && decide (2 ^ 64 ≤ v.toNat)
  | _ => false

/-- BRED of the block answers with a handle of more than 64 bits. -/
theorem farSlot_answer {t : State} (h : exec (.bred 3 1 0 0) farSlot = .next t) : hasWideData farSlot.fresh t.th = true := by
  have hrun : (match exec (.bred 3 1 0 0) farSlot with
      | .next t => hasWideData farSlot.fresh t.th
      | _ => false) = true := by decide +kernel
  rwa [h] at hrun

/-- The block is read as BRED issues, and is admitted; the slot of the new job is the done one's. -/
theorem farSlot_queues : ∃ ls s1 bs s3 s4,
    spanPlace .read (farSlot.getS 1) 192 64 3 1 farSlot = .ok (ls, s1) ∧ ReadsNow (farSlot.getS 1) ls s1 bs s3
      ∧ s3.fresh = farSlot.fresh
      ∧ flagCheck (newJob (farSlot.getS 1) bs 0 0 (s3.pushLoad (.s 3) .waiting)) 1 (s3.pushLoad (.s 3) .waiting) = .ok s4
      ∧ (newJob (farSlot.getS 1) bs 0 0 (s3.pushLoad (.s 3) .waiting)).badField = none
      ∧ chooseSlot (savedSlots (standOfCore s4.th.core) s4) (s4.stand (standOfCore s4.th.core)).bre = some (2 ^ 62) := by
  have hrun : (match spanPlace .read (farSlot.getS 1) 192 64 3 1 farSlot with
      | .error _ => false
      | .ok (ls, s1) => match checkData (farSlot.getS 1) ls s1 with
        | .error _ => false
        | .ok u =>
          let r := readAs (beforeReading ls u).th false ls (beforeReading ls u)
          let v := r.2.pushLoad (.s 3) .waiting
          let j := newJob (farSlot.getS 1) r.1 0 0 v
          !readBlocked (beforeReading ls u) ls && decide (r.2.fresh = farSlot.fresh) && decide (j.badField = none)
            && match flagCheck j 1 v with
              | .error _ => false
              | .ok s4 => decide (chooseSlot (savedSlots (standOfCore s4.th.core) s4) (s4.stand (standOfCore s4.th.core)).bre = some (2 ^ 62)))
      = true := by decide +kernel
  split at hrun
  · cases hrun
  next ls s1 hplace =>
    split at hrun
    · cases hrun
    next u hdata =>
      dsimp only at hrun
      simp only [Bool.and_eq_true, decide_eq_true_eq, Bool.not_eq_true'] at hrun
      obtain ⟨⟨⟨hfree, hfresh⟩, hgood⟩, hslot⟩ := hrun
      split at hslot
      · cases hslot
      next s4 hflag => exact ⟨ls, s1, _, _, s4, hplace, ⟨u, hdata, hfree, rfl⟩, hfresh, hflag, hgood, of_decide_eq_true hslot⟩

/-- A load that has received a word has no wide data. -/
theorem hasWideData_fillLoad (n : Nat) (x : Word) (s : State) :
    hasWideData n (s.fillLoad s.th.id n (.data (x.setWidth 1024) false)).th = false := by
  refine List.any_eq_false.mpr fun l hl hwide => ?_
  split at hwide
  next v f hval =>
    simp only [Bool.and_eq_true, decide_eq_true_eq] at hwide
    obtain ⟨hid, hbig⟩ := hwide
    have hdata := val_of_fillLoad rfl hl hid
    rw [hval] at hdata
    cases hdata
    have hlt := x.isLt
    rw [BitVec.toNat_setWidth, Nat.mod_eq_of_lt (by omega)] at hbig
    omega
  · cases hwide

/-- Refutes O47: in the clause of BRED that finds a slot the answer is a word. The state's job table may hold a done job under a
number from 2^62 on, as `farSlot` does; with every slot of R312 busy the new job takes that number, and the load receives all
bits of the handle, more than 64. -/
theorem not_nearForms : ¬ Obligations.NearForms := by
  intro h
  obtain ⟨-, -, -, -, -, hbred, -⟩ := h 3 1 0 0 0 farSlot
  obtain ⟨ls, s1, bs, s3, s4, hplace, hreads, hfresh, hflag, hgood, hslot⟩ := farSlot_queues
  obtain ⟨-, hqueued⟩ := hbred ls s1 bs s3 _ s4 hplace hreads (beginsLoad_pushAcquire ..) hflag
  obtain ⟨-, htaken⟩ := hqueued hgood
  obtain ⟨v, y, handle, -, -, -, -, -, -, -, -, -, t, hexec, hmoves, -⟩ := htaken _ hslot
  have hwide := farSlot_answer hexec
  have hword := hasWideData_fillLoad s3.fresh handle
    (v.setStand (standOfCore s4.th.core) { v.stand (standOfCore s4.th.core) with bre := Table.put (2 ^ 62) y (v.stand (standOfCore s4.th.core)).bre })
  rw [hmoves, ← hfresh] at hwide
  exact absurd hwide (Bool.eq_false_iff.mp hword)

end Sys2Proof.Machine
end

/-! ## Walker commands as they start, move and complete (14 R296-R302, 02 R49) -/
section
namespace Sys2Proof.Machine

open Sys2Proof

section Command

variable {s : State} {c : NearCmd} (hfind : (s.stand s.arg.a).walkq.find? (fun x => x.id == s.arg.b) = some c)

include hfind

/-- A queued command whose block is not read has it read once all that its thread did before is performed. -/
theorem exec_walkerCommandStart_unread (hqueued : c.state = .queued) (hbytes : c.bytes = []) : exec .walkerCommandStart s
    = .next (if performedBefore s c.tid c.id 5 = true then readNear c s else s) := by
  change execWalkerCommandStart s = _
  simp only [execWalkerCommandStart, hfind, hqueued, hbytes, bne_self_eq_false, Bool.false_eq_true, if_false, List.isEmpty_nil, if_true]
  split <;> rfl

/-- A queued command whose block is read starts where it is served first and a walker is free for it. -/
theorem exec_walkerCommandStart_starts (hqueued : c.state = .queued) (hbytes : c.bytes ≠ [])
    (hfirst : (firstNear ((s.stand s.arg.a).walkq.filter (nearStartable s))).map (·.id) = some c.id)
    (hfree : runningOver (s.stand s.arg.a).walkq c.pri < walkersAtOnce (s.stand s.arg.a)) :
    exec .walkerCommandStart s = .next (startNear c s) := by
  change execWalkerCommandStart s = _
  simp only [execWalkerCommandStart, hfind, hqueued, bne_self_eq_false, Bool.false_eq_true, if_false,
    List.isEmpty_eq_false_iff.mpr hbytes, hfirst, beq_self_eq_true, decide_eq_true hfree, Bool.and_self, if_true]

/-- A running command that is not at a boundary where commands of higher priority go first does its next item, or fails. -/
theorem exec_walkerGranule (hrunning : c.state = .running) (hgoes : c.atBoundary = false
      ∨ ((s.stand s.arg.a).walkq.filter fun d => d.state == .running && decide (c.pri < d.pri)).length
        < walkersAtOnce (s.stand s.arg.a)) :
    (∀ u, nearItem c s = .ok u → exec .walkerGranule s = .next u)
      ∧ ∀ e, nearItem c s = .error e → exec .walkerGranule s = .next (failNear c e) := by
  have hno : (c.state != .running || (c.atBoundary && decide (walkersAtOnce (s.stand s.arg.a)
      ≤ ((s.stand s.arg.a).walkq.filter fun d => d.state == .running && decide (c.pri < d.pri)).length))) = false := by
    rw [hrunning, bne_self_eq_false, Bool.false_or]
    rcases hgoes with hbound | hfew
    · rw [hbound, Bool.false_and]
    · rw [decide_eq_false (Nat.not_le.mpr hfew), Bool.and_false]
  refine ⟨fun u hitem => ?_, fun e hitem => ?_⟩ <;> change execWalkerGranule s = _ <;>
    simp only [execWalkerGranule, hfind, hno, hitem, Bool.false_eq_true, if_false]

/-- A command that has moved its data or failed completes. -/
theorem exec_walkerComplete (hmoved : c.state = .moved) : exec .walkerComplete s = .next (completeNear c s) := by
  change execWalkerComplete s = _
  simp only [execWalkerComplete, hfind, hmoved, beq_self_eq_true, if_true]

end Command

/-- A pulse leaves the stands. -/
@[simp] theorem pulse_stand (unit g line n : Nat) (s : State) : (s.pulse unit g line).stand n = s.stand n := by
  rw [pulse_frame]
  rfl

/-- The completion of a tag leaves the stands. -/
@[simp] theorem completeTag_stand (core tag : Nat) (failed : Option Word) (n : Nat) (s : State) :
    (completeTag core tag failed s).stand n = s.stand n := by
  unfold completeTag
  rw [pulse_stand, State.setCore_get_stand]

/-- A change of a thread leaves the stands. -/
@[simp] theorem State.onThread_stand (s : State) (tid : Nat) (f : Thread → Thread) (n : Nat) :
    (s.onThread tid f).stand n = s.stand n := by
  rw [State.onThread_frame]
  rfl

/-- The queue of a stand whose commands are changed. -/
theorem walkq_onWalkq (n : Nat) (f : List NearCmd → List NearCmd) (s : State) :
    ((onWalkq n f s).stand n).walkq = f (s.stand n).walkq := by
  rw [onWalkq, State.setStand_self]

/-- A command that completes leaves the queue of its stand. -/
theorem walkq_completeNear (c : NearCmd) (s : State) : ((completeNear c s).stand (standOfCore c.core)).walkq
    = ((purge c.part c.regions s).stand (standOfCore c.core)).walkq.filter fun x => x.id ≠ c.id := by
  have hqueue := walkq_onWalkq (standOfCore c.core) (fun cs => cs.filter fun x => x.id ≠ c.id) (purge c.part c.regions s)
  rw [← hqueue, completeNear, State.onThread_stand]
  split <;> split <;> simp only [pulse_stand, completeTag_stand]

end Sys2Proof.Machine
end

/-! ## What the accesses of the near-memory engines leave of the running event (14 R297, 11 R257) -/
section
namespace Sys2Proof.Machine

open Sys2Proof

theorem arg_dropReplicas (line : Nat) (s : State) : (dropReplicas line s).arg = s.arg := by
  obtain ⟨⟨st, ms, hdrop⟩, -⟩ := dropReplicas_spec line s
  rw [hdrop]

theorem arg_purgeRegion (part : Nat) (r : Region) (s : State) : (purgeRegion part r s).arg = s.arg := by
  unfold purgeRegion
  split
  · exact foldl_keeps State.arg (fun u x => foldl_keeps State.arg
      (fun v l => (arg_dropReplicas ..).trans (arg_of_besideMemory (besideMemory_writeBack l v))) _ u) _ s
  · rfl

theorem arg_purge (part : Nat) (rs : List Region) (s : State) : (purge part rs s).arg = s.arg :=
  foldl_keeps State.arg (fun u r => arg_purgeRegion part r u) rs s

/-- The state in which an access is admitted, or refused. -/
def placesState (r : Except NearFault (List Loc × State)) : State :=
  match r with
  | .ok (_, s) => s
  | .error (_, _, s) => s

theorem arg_nearPlaces (who : Who) (rs : Option (List Region)) (k : Access) (va n : Nat) (s : State) :
    (placesState (nearPlaces who rs k va n s)).arg = s.arg := by
  unfold nearPlaces
  dsimp only
  split
  · rfl
  · split
    · rfl
    · split
      · rfl
      next sp u hspan =>
        split <;> exact arg_of_besideMemory (besideMemory_resolveSpan hspan)

theorem arg_nearStore (w : Writer) (ls : List Loc) (bs : List Byte) (s : State) : (nearStore w ls bs s).arg = s.arg :=
  (arg_storeLocs ..).trans (arg_settleRows ..)

theorem arg_jobFlag (stand slot : Nat) (j : BreJob) (s : State) : (jobFlag stand slot j s).2.arg = s.arg := by
  have hplaces := arg_nearPlaces j.who (some j.regions) .write j.flagAddr 8 s
  unfold jobFlag
  split
  next r a u h =>
    rw [h] at hplaces
    exact (arg_of_besideMemory (besideMemory_logAsync ..)).trans hplaces
  next ls u h =>
    rw [h] at hplaces
    exact (arg_nearStore ..).trans hplaces

end Sys2Proof.Machine
end

/-! ## Jobs of the reduction engine as they start, move and complete (14 R312, R313) -/
section
namespace Sys2Proof.Machine

open Sys2Proof

section Job

variable {s : State} {j : BreJob} (hfind : Table.find s.arg.b (s.stand s.arg.a).bre = some j)

include hfind

/-- A job that is served first starts where each running one is of lower priority and stands at a boundary. -/
theorem exec_breJobStart_starts
    (hfirst : firstJob ((s.stand s.arg.a).bre.filter fun q => jobStartable s s.arg.a q.2) = some s.arg.b)
    (hyield : ∀ q ∈ (s.stand s.arg.a).bre, (decide (q.2.state = 1) && !partHalted s q.2.part) = true →
      q.2.pri < j.pri ∧ q.2.atBoundary = true) :
    exec .breJobStart s = .next (putJob s.arg.a s.arg.b { j with state := 1 } (purge j.part j.regions s)) := by
  have hall : (((s.stand s.arg.a).bre.filter fun q => decide (q.2.state = 1) && !partHalted s q.2.part).all
      fun q => decide (q.2.pri < j.pri) && q.2.atBoundary) = true := by
    refine List.all_eq_true.mpr fun q hq => ?_
    obtain ⟨hmem, hrun⟩ := List.mem_filter.mp hq
    obtain ⟨hpri, hbound⟩ := hyield q hmem hrun
    rw [decide_eq_true hpri, hbound, Bool.and_self]
  change execBreJobStart s = _
  simp only [execBreJobStart, hfind, hfirst, hall, decide_true, Bool.and_self, if_true]

/-- The running job that is served first does its next piece, where it is not at a boundary at which one of higher priority may
start. -/
theorem exec_breGranule
    (hfirst : firstJob ((s.stand s.arg.a).bre.filter fun q => decide (q.2.state = 1) && !partHalted s q.2.part) = some s.arg.b)
    (hgood : j.failed = none) (hmore : j.pos < j.count)
    (hno : j.atBoundary = true → ∀ q ∈ (s.stand s.arg.a).bre, jobStartable s s.arg.a q.2 = true → q.2.pri ≤ j.pri) :
    (∀ u, jobPiece s.arg.a s.arg.b j s = .ok u → exec .breGranule s = .next u)
      ∧ ∀ e, jobPiece s.arg.a s.arg.b j s = .error e → exec .breGranule s = .next (failJob s.arg.a s.arg.b j e) := by
  have hgoes : (j.atBoundary && (s.stand s.arg.a).bre.any fun q => jobStartable s s.arg.a q.2 && decide (j.pri < q.2.pri)) = false := by
    refine Bool.and_eq_false_imp.mpr fun hbound => List.any_eq_false.mpr fun q hq hhigher => ?_
    obtain ⟨hstart, hpri⟩ := Bool.and_eq_true_iff.mp hhigher
    exact Nat.not_lt.mpr (hno hbound q hq hstart) (of_decide_eq_true hpri)
  refine ⟨fun u hpiece => ?_, fun e hpiece => ?_⟩ <;> change execBreGranule s = _ <;>
    simp only [execBreGranule, hfind, hfirst, hgood, hgoes, hpiece, decide_eq_false (Nat.not_le.mpr hmore), decide_true, Bool.not_true,
      Option.isSome_none, Bool.or_self, Bool.false_eq_true, if_false]

/-- A running job that is at its end, or has failed, writes its flag and then its status. -/
theorem exec_breJobComplete (hrunning : j.state = 1) (hlive : partHalted s j.part = false) (hend : j.failed ≠ none ∨ j.count ≤ j.pos) :
    exec .breJobComplete s = .next (
      let r := jobFlag s.arg.a s.arg.b j (purge j.part j.regions s)
      let x := r.2.stand s.arg.a
      putJob s.arg.a s.arg.b { j with state := if r.1 && j.failed.isNone then 2 else 3, finished := x.breDone }
        (r.2.setStand s.arg.a { x with breDone := x.breDone + 1 })) := by
  have hgoes : ¬ (j.state ≠ 1 ∨ partHalted s j.part = true ∨ (j.failed = none ∧ j.pos < j.count)) := by
    rintro (hstate | hhalt | ⟨hgood, hmore⟩)
    · exact hstate hrunning
    · exact Bool.false_ne_true (hlive.symm.trans hhalt)
    · exact hend.elim (· hgood) (Nat.not_le.mpr hmore)
  have harg : (jobFlag s.arg.a s.arg.b j (purge j.part j.regions s)).2.arg = s.arg := (arg_jobFlag ..).trans (arg_purge ..)
  change execBreJobComplete s = _
  simp only [execBreJobComplete, hfind, if_neg hgoes, State.setStand_arg, harg]

end Job

/-- A job that is put into its slot stands there. -/
theorem find_putJob (stand slot : Nat) (j : BreJob) (s : State) : Table.find slot ((putJob stand slot j s).stand stand).bre = some j := by
  rw [putJob, State.setStand_self]
  exact Table.find_put_self ..

/-! ### BRED whose parameter block is read late (R312) -/

section Late

variable {d a g : BitVec 4} {p : BitVec 2} {va b : Word} {l : Load} {ls : List Loc} {m u v : State} {bs : List Byte}
  (hreads : LateReads va l.acq ls m bs u) (hflag : flagCheck (newJob va bs g p u) a u = .ok v)

include hreads hflag

/-- A parameter block with a bad field is refused. -/
theorem lateOutcome_bred_bad {o : Nat} (hbad : (newJob va bs g p u).badField = some o) :
    lateOutcome (.bred d a p g) va b l ls m = .error { cause := 0x0E, a := va, v := BitVec.ofNat 64 o } := by
  rw [lateOutcome_of_reads rfl hreads]
  simp only [lateBody, bredRead, hflag, bind, Except.bind, hbad]

/-- Any other has its job queued. -/
theorem lateOutcome_bred_good (hgood : (newJob va bs g p u).badField = none) :
    lateOutcome (.bred d a p g) va b l ls m = .ok (queueJob l.id (newJob va bs g p u) v) := by
  rw [lateOutcome_of_reads rfl hreads]
  simp only [lateBody, bredRead, hflag, bind, Except.bind, hgood]

end Late

end Sys2Proof.Machine
end

/-! ## The end of a wait at NFENCE (14 R310) -/
section
namespace Sys2Proof.Machine

open Sys2Proof

/-- A wait at NFENCE ends where its core's picker lets the thread go on. -/
theorem exec_nfenceComplete {s : State} {y : Thread} {since : Nat} (hy : s.thread? s.arg.a = some y)
    (hst : y.status = .waiting .nfence since) : exec .nfenceComplete s
      = .next (if pickedWait s y .nfenceComplete = true then nfenceDone (s.focus y.id) else s) := by
  change execNfenceComplete s = _
  simp only [execNfenceComplete, hy, hst]
  split <;> rfl

/-- With no error to report the thread acquires its commands' writes, and runs on. -/
theorem nfenceDone_clear {s : State} (h : s.th.nearErrs = []) : nfenceDone s = finishWait (acquireAt s.th.core s) := by
  simp only [nfenceDone, nearReport, h]

/-- The oldest error is reported. -/
theorem nfenceDone_error {s : State} {p q : Word} {r : List (Word × Word)} (h : s.th.nearErrs = (p, q) :: r) :
    nfenceDone s = finishIssue false (takeTrap { cause := 0x0E, a := p, v := q }
      (pickFocus s.th.id { s with th := { s.th with nearErrs := r } })) := by
  simp only [nfenceDone, nearReport, h]
  rfl

end Sys2Proof.Machine
end

/-! ## The arithmetic of a walker (14 R303, R305, R307) -/
section
namespace Sys2Proof.Machine

open Sys2Proof

/-! ### One rounding -/

/-- Rounding once to nearest even, without a modifier. -/
theorem roundedOnce_nearest (e : Num × Flags) : roundedOnce .f32 .rne 0 {} e = rne32 e := by
  rw [roundedOnce, finishNum_plain]
  rfl

/-- c + a × b is the exact sum with the exact product, rounded once, with the flags of all three. -/
theorem rneFma_eq (c a b : Nat) : rneFma c a b
    = rne32 (((decodeNum .f32 c).add false ((decodeNum .f32 a).mul (decodeNum .f32 b)).1).1,
        ((decodeNum .f32 a).mul (decodeNum .f32 b)).2
          ||| ((decodeNum .f32 c).add false ((decodeNum .f32 a).mul (decodeNum .f32 b)).1).2) := by
  simp only [rneFma, addExact, BitVec.ofNat_eq_ofNat, BitVec.zero_or]

/-! ### A pooled row's element (R303) -/

/-- The elements of a list of rows, each with its weight, or with 0 where none is given. -/
def weightedElems (ws xs : List Nat) : List (Nat × Nat) := xs.zip (ws ++ List.replicate xs.length 0)

/-- Weights behind as many as there are rows have no row. -/
theorem zip_append_of_length {xs as : List Nat} (h : xs.length = as.length) (bs : List Nat) : xs.zip (as ++ bs) = xs.zip as := by
  have hzip := List.zip_append (r₁ := []) (r₂ := bs) h
  rwa [List.append_nil, List.zip_nil_left, List.append_nil] at hzip

/-- A further row has the further weight, where each row before it has its own. -/
theorem weightedElems_append_weight {ws xs : List Nat} (w x : Nat) (h : ws.length = xs.length) :
    weightedElems (ws ++ [w]) (xs ++ [x]) = weightedElems ws xs ++ [(x, w)] := by
  rw [weightedElems, weightedElems, zip_append_of_length h.symm, List.append_assoc, List.zip_append h.symm]
  rfl

/-- A further row has some weight, and the rows before it keep theirs. -/
theorem weightedElems_append (ws xs : List Nat) (x : Nat) : ∃ w, weightedElems ws (xs ++ [x]) = weightedElems ws xs ++ [(x, w)] := by
  obtain ⟨as, bs, hlen, hlist⟩ : ∃ as bs, xs.length = as.length ∧ ws ++ List.replicate xs.length 0 = as ++ bs :=
    ⟨_, _, by simp, (List.take_append_drop xs.length _).symm⟩
  obtain ⟨w, rest, hrest⟩ : ∃ w rest, bs ++ [0] = w :: rest := by cases bs <;> exact ⟨_, _, rfl⟩
  have hlonger : ws ++ List.replicate (xs ++ [x]).length 0 = as ++ w :: rest := by
    rw [List.length_append, List.length_singleton, List.replicate_succ', ← List.append_assoc, hlist, List.append_assoc, hrest]
  refine ⟨w, ?_⟩
  rw [weightedElems, weightedElems, hlonger, hlist, List.zip_append hlen, zip_append_of_length hlen]
  rfl

/-- There are elements with weights where there are rows. -/
theorem weightedElems_ne_nil {ws xs : List Nat} (h : xs ≠ []) : weightedElems ws xs ≠ [] := by
  obtain ⟨x, r, rfl⟩ := List.exists_cons_of_ne_nil h
  cases ws <;> exact fun h => nomatch h

/-- What a list of weighted elements gives: the first one, into which each further one is taken, in list order, with all flags. -/
def poolList (step : Nat → Nat × Nat → Nat × Flags) (first : Nat × Nat → Nat × Flags) : List (Nat × Nat) → Nat × Flags
  | [] => (0, 0)
  | p :: r => r.foldl (fun a x => ((step a.1 x).1, a.2 ||| (step a.1 x).2)) (first p)

/-- One more element is taken into the result of those before it. -/
theorem poolList_append {step : Nat → Nat × Nat → Nat × Flags} {first : Nat × Nat → Nat × Flags} {l : List (Nat × Nat)} (h : l ≠ [])
    (p : Nat × Nat) : poolList step first (l ++ [p])
      = ((step (poolList step first l).1 p).1, (poolList step first l).2 ||| (step (poolList step first l).1 p).2) := by
  obtain ⟨q, r, rfl⟩ := List.exists_cons_of_ne_nil h
  exact List.foldl_concat ..

section Pool

variable {ws xs : List Nat} (hrows : xs ≠ [])

include hrows

/-- A sum, a maximum and a weighted sum take the elements in list order. -/
theorem poolElem_eq_poolList :
    poolElem 0 ws xs = poolList (fun a y => rneAdd a y.1) (fun p => (p.1, 0)) (weightedElems ws xs)
      ∧ poolElem 2 ws xs = poolList (fun a y => minMaxBits true .f32 a y.1) (fun p => (p.1, 0)) (weightedElems ws xs)
      ∧ poolElem 3 ws xs = poolList (fun a y => rneFma a y.2 y.1) (fun p => rneMul p.2 p.1) (weightedElems ws xs) := by
  obtain ⟨p, r, hp⟩ := List.exists_cons_of_ne_nil (weightedElems_ne_nil (ws := ws) hrows)
  rw [hp]
  rw [weightedElems] at hp
  simp only [poolElem, hp]
  exact ⟨rfl, rfl, rfl⟩

/-- A mean is the sum divided by the number of rows. -/
theorem poolElem_mean : poolElem 1 ws xs = let s := poolElem 0 ws xs
    let q := rneDiv s.1 (roundNum .f32 .rne 0 (Num.ofInt xs.length)).1
    (q.1, s.2 ||| q.2) := by
  obtain ⟨p, r, hp⟩ := List.exists_cons_of_ne_nil (weightedElems_ne_nil (ws := ws) hrows)
  rw [weightedElems] at hp
  simp only [poolElem, hp]

/-- A sum of one more row. -/
theorem poolElem_sum_append (x : Nat) : poolElem 0 ws (xs ++ [x]) = let s := poolElem 0 ws xs
    ((rneAdd s.1 x).1, s.2 ||| (rneAdd s.1 x).2) := by
  obtain ⟨w, hw⟩ := weightedElems_append ws xs x
  obtain ⟨hsum, -⟩ := poolElem_eq_poolList (ws := ws) hrows
  obtain ⟨hlonger, -⟩ := poolElem_eq_poolList (ws := ws) (show xs ++ [x] ≠ [] by simp)
  rw [hlonger, hw, poolList_append (weightedElems_ne_nil hrows), ← hsum]

/-- A maximum of one more row. -/
theorem poolElem_max_append (x : Nat) : poolElem 2 ws (xs ++ [x]) = let s := poolElem 2 ws xs
    ((minMaxBits true .f32 s.1 x).1, s.2 ||| (minMaxBits true .f32 s.1 x).2) := by
  obtain ⟨w, hw⟩ := weightedElems_append ws xs x
  obtain ⟨-, hmax, -⟩ := poolElem_eq_poolList (ws := ws) hrows
  obtain ⟨-, hlonger, -⟩ := poolElem_eq_poolList (ws := ws) (show xs ++ [x] ≠ [] by simp)
  rw [hlonger, hw, poolList_append (weightedElems_ne_nil hrows), ← hmax]

/-- A weighted sum of one more row. -/
theorem poolElem_weighted_append (hlen : ws.length = xs.length) (w x : Nat) : poolElem 3 (ws ++ [w]) (xs ++ [x])
    = let s := poolElem 3 ws xs
      ((rneFma s.1 w x).1, s.2 ||| (rneFma s.1 w x).2) := by
  obtain ⟨-, -, hsum⟩ := poolElem_eq_poolList (ws := ws) hrows
  obtain ⟨-, -, hlonger⟩ := poolElem_eq_poolList (ws := ws ++ [w]) (show xs ++ [x] ≠ [] by simp)
  rw [hlonger, weightedElems_append_weight w x hlen, poolList_append (weightedElems_ne_nil hrows), ← hsum]

end Pool

/-! ### An entry of NADD (R305) -/

/-- The elements of a row with those of a source row added. -/
def addedElems (old src : List Byte) : List (Nat × Flags) := ((f32s old).zip (f32s src)).map fun x => rneAdd x.1 x.2

/-- An entry reads its index, its row and its source row, and writes the sums in the row's place. -/
theorem nearItem_add {c : NearCmd} {s u v w : State} {i : Nat} {ls : List Loc} {old src : List Byte} (hkind : c.kind = 1)
    (hidx : entryIndex c s = .ok (i, u)) (hrow : mRow c ((c.f 64 8 + i * (4 * c.rowLen)) % 2 ^ 64) (4 * c.rowLen) u = .ok ((ls, old), v))
    (hsrc : nearRead c.who (some c.regions) ((c.f 80 8 + c.pos * (4 * c.rowLen)) % 2 ^ 64) (4 * c.rowLen) v = .ok (src, w)) :
    nearItem c s = .ok (putNear (c.did (2 * (4 * c.rowLen)))
      ((nearStore c.writer ls (f32Bytes (addedElems old src)).1 w).orAew c.writer c.part (f32Bytes (addedElems old src)).2)) := by
  simp only [nearItem, hkind, addEntry, hidx, hrow, hsrc, bind, Except.bind, atRow]
  rfl

/-- The bytes of results are read back as their values. -/
theorem bytesToElems_f32Bytes (xs : List (Nat × Flags)) : bytesToElems .f32 (f32Bytes xs).1 = xs.map fun x => x.1 % 2 ^ 32 := by
  have hbytes : (f32Bytes xs).1 = elemsToBytes .f32 (xs.map (·.1)) := by
    rw [elemsToBytes_plain (by decide), List.flatMap_map]
    rfl
  rw [hbytes, bytesToElems_elemsToBytes (Nat.mod_one _), List.map_map]
  rfl

/-- An element of the sums is the sum of the elements in its place. -/
theorem getElem?_addedElems {old src : List Byte} {k x y : Nat} (hx : (bytesToElems .f32 old)[k]? = some x)
    (hy : (bytesToElems .f32 src)[k]? = some y) :
    (bytesToElems .f32 (f32Bytes (addedElems old src)).1)[k]? = some ((rneAdd x y).1 % 2 ^ 32) := by
  have hpair : ((f32s old).zip (f32s src))[k]? = some (x, y) := List.getElem?_zip_eq_some.mpr ⟨hx, hy⟩
  rw [bytesToElems_f32Bytes, addedElems, List.getElem?_map, List.getElem?_map, hpair]
  rfl

/-! ### An entry of NUPD (R307) -/

section Update

variable {c : NearCmd} (w st g : Nat)

/-- KIND 0: the weight loses the rate times the gradient, and the state stays. -/
theorem updateElem_sgd (h : c.rule = 0) : updateElem c w st g
    = (rneLess w ((decodeNum .f32 (c.p 4 4)).mul (decodeNum .f32 g)), (st, 0)) := by
  simp only [updateElem, h]

/-- KIND 1: the state takes the gradient, and the weight loses the rate times the new state. -/
theorem updateElem_momentum (h : c.rule = 1) : updateElem c w st g
    = let m := rne32 (addExact ((decodeNum .f32 (c.p 8 4)).mul (decodeNum .f32 st)) (decodeNum .f32 g, 0))
      (rneLess w ((decodeNum .f32 (c.p 4 4)).mul (decodeNum .f32 m.1)), m) := by
  simp only [updateElem, h]

/-- The new state of KIND 2. -/
def squareState (c : NearCmd) (st g : Nat) : Nat × Flags :=
  let k := (Num.ofInt 1).add false (decodeNum .f32 (c.p 8 4)).negate
  let x := k.1.mul (decodeNum .f32 g)
  let y := x.1.mul (decodeNum .f32 g)
  rne32 (addExact ((decodeNum .f32 (c.p 8 4)).mul (decodeNum .f32 st)) (y.1, k.2 ||| x.2 ||| y.2))

/-- KIND 2: the state takes the gradient's square, and the weight loses a quotient by the root of the new state. -/
theorem updateElem_square (h : c.rule = 2) : (updateElem c w st g).2 = squareState c st g
    ∧ (updateElem c w st g).1.1 = (rneLessQuot (decodeNum .f32 w) ((decodeNum .f32 (c.p 4 4)).mul (decodeNum .f32 g)).1
        (decodeNum .f32 (rneAdd (rneSqrt (squareState c st g).1).1 (c.p 12 4)).1)).1 := by
  simp only [updateElem, h]
  exact ⟨rfl, rfl⟩

end Update

/-- The value of a row block's norm, or of the global one. -/
def blockNorm (c : NearCmd) (gs : List Nat) : Nat :=
  if c.gclip then c.norm.toNat else (rneSqrt (gs.foldl (fun a g => (rneFma a g g).1) 0)).1

/-- The value of a sum of squares does without the flags. -/
theorem foldl_squares_fst (gs : List Nat) :
    (gs.foldl (fun a g => ((rneFma a.1 g g).1, a.2 ||| (rneFma a.1 g g).2)) ((0, 0) : Nat × Flags)).1
      = gs.foldl (fun a g => (rneFma a g g).1) 0 :=
  (List.foldl_hom Prod.fst (init := ((0, 0) : Nat × Flags)) fun _ _ => rfl).symm

/-- The clip factor is 1 unless the norm is above the bound. -/
theorem clipFactor_fst (c : NearCmd) (gs : List Nat) : (clipFactor c gs).1
    = if (relation 4 (decodeNum .f32 (blockNorm c gs)) (decodeNum .f32 (c.p 16 4))).1 = true then
        (rneDiv (c.p 16 4) (blockNorm c gs)).1 else 0x3F800000 := by
  unfold clipFactor blockNorm
  rw [← foldl_squares_fst]
  dsimp only
  split <;> split <;> rfl

/-- One number is above another where neither is a NaN and it compares above. -/
theorem relation_greater (x y : Num) : (relation 4 x y).1 = true ↔ x.isNan = false ∧ y.isNan = false ∧ 0 < x.cmp y := by
  simp [relation, and_assoc]

/-- An entry whose rows are locked ends: what was held for them is written. -/
theorem nearItem_update_held {c : NearCmd} {bytes : List (Loc × Byte)} (s : State) (hkind : c.kind = 2) (hheld : c.held = some bytes) :
    nearItem c s = .ok (putNear { c.did (4 * c.rowLen * (if c.rule = 0 then 2 else 3)) with held := none } (unlockRows c s)) := by
  simp only [nearItem, hkind, updateEntry, hheld]

end Sys2Proof.Machine
end

/-! ## O48: walkers and the reduction engine (14 R296-R314) -/
section
namespace Sys2Proof.Machine

open Sys2Proof

/-- Settles O48: the steps of a command, of a job and of a wait are followed branch by branch, and a BRED that acts late queues its
job; a pooled row is taken one row at a time, NADD's sums are read back element by element, and NUPD's update is taken rule by
rule. -/
theorem nearEvents : Obligations.NearEvents := by
  intro s x t
  refine ⟨fun c hfind => ⟨exec_walkerCommandStart_unread hfind, exec_walkerCommandStart_starts hfind, exec_walkerGranule hfind,
      fun hmoved => ⟨_, exec_walkerComplete hfind hmoved, rfl, ?left⟩⟩,
    fun j hfind => ⟨exec_breJobStart_starts hfind, exec_breGranule hfind, ?completes⟩,
    fun y since hy hst hfocus => ⟨fun hheld => ?held, fun hpicked => ?picked, ?late, ?arithmetic⟩⟩
  case left =>
    intro hstand y hy
    rw [← hstand, walkq_completeNear] at hy
    exact of_decide_eq_true (List.mem_filter.mp hy).2
  case completes =>
    intro hrunning hlive hend r
    refine ⟨_, _, exec_breJobComplete hfind hrunning hlive hend, find_putJob .., ?_, rfl, rfl, rfl⟩
    simp [r]
  case held => rw [exec_nfenceComplete hy hst, hheld, if_neg Bool.false_ne_true]
  case picked =>
    have hexec := exec_nfenceComplete hy hst
    rw [hpicked, if_pos rfl] at hexec
    refine ⟨fun hnone => runsOn_of_finishWait ?_, fun p q r herr => ⟨{ cause := 0x0E, a := p, v := q }, rfl, rfl, rfl, ?_⟩⟩
    · rw [hexec, nfenceDone_clear (by rw [hfocus, hnone]), hfocus]
    · rw [hexec, nfenceDone_error (by rw [hfocus, herr]), hfocus]
  case late =>
    intro y l d a p g va b ls m bs u v hy hl hval hmay hm hreads j hflag
    exact ⟨fun o hbad => lateFaults_of_outcome hy hl hval hmay hm (lateOutcome_bred_bad hreads hflag hbad),
      fun hgood => lateEnds_of_outcome hy hl hval hmay hm (lateOutcome_bred_good hreads hflag hgood)⟩
  case arithmetic =>
    intro one num also
    have hone (e : Num × Flags) : one e = rne32 e := roundedOnce_nearest e
    simp only [hone]
    refine ⟨fun ws => ⟨rfl, rfl, rfl, rfl⟩, fun ws x => ?single, fun ws xs x hrows => ⟨poolElem_sum_append hrows x,
        poolElem_max_append hrows x, poolElem_mean hrows⟩, fun w x => rfl, fun ws xs w x hrows hlen => ?weighted, fun bs e => ⟨rfl, ?bf16⟩,
      fun c i u ls old v src w hkind => ?add, fun c w st g => ⟨fun h => ?sgd, fun h => ?momentum, fun h => ?square⟩, fun c gs => ?clip,
      fun c bytes hkind hheld => nearItem_update_held s hkind hheld⟩
    case single => cases ws <;> exact ⟨rfl, rfl⟩
    case weighted =>
      have h := poolElem_weighted_append hrows hlen w x
      simp only [rneFma_eq] at h
      exact h
    case bf16 => simp [rowElem, rne32]
    case add =>
      intro hidx hrow hsrc
      exact ⟨_, _, nearItem_add hkind hidx hrow hsrc, fun k x y => getElem?_addedElems⟩
    case sgd =>
      rw [updateElem_sgd w st g h]
      exact ⟨rfl, rfl⟩
    case momentum =>
      rw [updateElem_momentum w st g h]
      exact ⟨rfl, rfl⟩
    case square =>
      obtain ⟨hstate, hweight⟩ := updateElem_square w st g h
      rw [hstate, hweight]
      exact ⟨rfl, rfl⟩
    case clip =>
      rw [clipFactor_fst, if_congr (relation_greater ..) rfl rfl]
      rfl

end Sys2Proof.Machine
end

/-! ## What performing outstanding accesses leaves of the focus thread (11 R242-R252) -/
section
namespace Sys2Proof.Machine

open Sys2Proof

/-! ### Accesses to memory -/

/-- Caches leave what memory does not touch. -/
theorem CachesOnly.besideMemory {s t : State} (h : CachesOnly s t) : t.besideMemory = s.besideMemory := by
  rw [h.1]
  rfl

theorem besideMemory_storeLocs (w : Writer) (bytes : List (Loc × Byte)) (s : State) :
    (storeLocs w bytes s).besideMemory = s.besideMemory :=
  foldl_keeps State.besideMemory (besideMemory_storeGroup w) _ s

theorem besideMemory_settleRows (ls : List Loc) (s : State) : (settleRows ls s).besideMemory = s.besideMemory := by
  refine foldl_keeps State.besideMemory (fun u c => ?_) _ s
  unfold unlockRows
  split
  · rfl
  · exact besideMemory_storeLocs ..

theorem besideMemory_logFault (core part : Nat) (e : LogEntry) (s : State) :
    (s.logFault core part e).besideMemory = s.besideMemory := by
  unfold State.logFault
  split
  · unfold State.logMonitor
    split <;> rfl
  · exact besideMemory_logAsync ..

/-- A record that is written at its home. -/
theorem besideMemory_recordWrite (p : Part) (h : Nat) (bs : List Byte) (s : State) :
    (recordWrite p h bs s).besideMemory = s.besideMemory := besideMemory_homeWrite ..

/-- A partial that reaches its record. -/
theorem besideMemory_arrivePartial (part h : Nat) (p : Partial) (sender : LogEntry) (s : State) :
    (arrivePartial part h p sender s).besideMemory = s.besideMemory := by
  unfold arrivePartial
  split
  · rfl
  · split
    · exact besideMemory_recordWrite ..
    · exact besideMemory_logFault ..

/-- Bytes that a core's thread stores. -/
theorem besideMemory_coreStore (part core : Nat) (w : Writer) (bytes : List (Loc × Byte)) (issuer : LogEntry) (s : State) :
    (coreStore part core w bytes issuer s).besideMemory = s.besideMemory := by
  have hstoreL1 (bs : List (Loc × Byte)) (u : State) : (storeL1 core bs u).besideMemory = u.besideMemory := by
    refine foldl_keeps State.besideMemory (fun v p => ?_) _ u
    split
    · dsimp only
      split <;> rfl
    · rfl
  unfold coreStore
  dsimp only
  rw [hstoreL1, besideMemory_storeLocs, besideMemory_settleRows]
  split
  · exact besideMemory_logFault ..
  · rfl

/-- Places that come within a stand's reach. -/
theorem besideMemory_reachPlaces (stand : Nat) (ls : List Loc) (s : State) :
    (reachPlaces stand ls s).besideMemory = s.besideMemory := by
  have hfill (v : State) : CachesOnly v (fillReplicas stand ls v) := .foldl (fun w l => by
    split
    · exact fillReplica_caches ..
    · exact .refl w) _ _
  unfold reachPlaces
  extract_lets bare u
  rw [(hfill _).besideMemory]
  split
  · exact (applyUpTo_updates ..).besideMemory.trans (besideMemory_settleRows ..)
  · exact besideMemory_settleRows ..

/-- The state after a read whose faults are settled. -/
theorem besideMemory_of_settleBad_ok {n : Nat} {ls : List Loc} {s t : State} (h : settleBad n ls s = .ok t) :
    t.besideMemory = s.besideMemory := by
  induction n generalizing s with
  | zero =>
    cases h
    rfl
  | succ n ih =>
    unfold settleBad at h
    split at h
    · cases h
      rfl
    · split at h
      · exact (ih h).trans (besideMemory_retire ..)
      · cases h

/-- The state at the fault that stops a read. -/
theorem besideMemory_of_settleBad_error {n i : Nat} {b : BadStorage} {ls : List Loc} {s t : State}
    (h : settleBad n ls s = .error (i, b, t)) : t.besideMemory = s.besideMemory := by
  induction n generalizing s with
  | zero => cases h
  | succ n ih =>
    unfold settleBad at h
    split at h
    · cases h
    · split at h
      · exact (ih h).trans (besideMemory_retire ..)
      · cases h
        rfl

/-- A record that is cleared at its home. -/
theorem besideMemory_recordHome (part addr h : Nat) (set : Option (Nat × Nat)) (issuer : LogEntry) (s : State) :
    (recordHome part addr h set issuer s).besideMemory = s.besideMemory := by
  unfold recordHome
  split
  next hbad => exact (besideMemory_logAsync ..).trans ((besideMemory_retire ..).trans (besideMemory_of_settleBad_error hbad))
  next hgood => exact (besideMemory_homeWrite ..).trans (besideMemory_of_settleBad_ok hgood)

/-- The device's own store. -/
theorem besideMemory_hwStore (part va : Nat) (bs : List Byte) (s : State) : (hwStore part va bs s).besideMemory = s.besideMemory := by
  have hstore (bytes : List (Loc × Byte)) (u : State) : (storeAtHomes bytes u).besideMemory = u.besideMemory := by
    refine foldl_keeps State.besideMemory (fun v g => ?_) _ u
    split <;> exact besideMemory_storeGroup ..
  unfold hwStore
  split
  next hspan =>
    have hsp := besideMemory_resolveSpan hspan
    split
    · exact (besideMemory_logAsync ..).trans ((hstore ..).trans hsp)
    · exact (hstore ..).trans hsp
  · rfl

/-- The end of a graph node's task. -/
theorem besideMemory_nodeEnd (part : Nat) (desc : Word) (s : State) : (nodeEnd part desc s).besideMemory = s.besideMemory := by
  have huse (va n : Nat) : (usePart .hardware part va n s).besideMemory = s.besideMemory := by
    unfold usePart
    split
    next hspan => exact besideMemory_resolveSpan hspan
    · rfl
  unfold nodeEnd
  dsimp only
  split
  · exact huse ..
  · exact (besideMemory_hwStore ..).trans (huse ..)

/-- A deck's control block that is written. -/
theorem besideMemory_deckStore (d : Deck) (s : State) : (deckStore d s).besideMemory = s.besideMemory := by
  have hpulse (old : Nat) (u : State) : (pulseDeck d old u).besideMemory = u.besideMemory := by
    unfold pulseDeck
    split
    · split
      · rw [pulse_frame]
        rfl
      · rfl
    · rfl
  exact (hpulse ..).trans (besideMemory_wakeSpinners ..)

/-- Flags that go to the exception word of a partition. -/
theorem besideMemory_orAew (w : Writer) (part : Nat) (f : Flags) (s : State) : (s.orAew w part f).besideMemory = s.besideMemory := by
  unfold State.orAew
  split
  · rfl
  · split
    · rfl
    · dsimp only
      split
      next hl =>
        have hresolve := besideMemory_resolve hl
        split
        · exact (besideMemory_logAsync ..).trans hresolve
        · exact (besideMemory_storeLocs ..).trans hresolve
      · rfl

/-! ### The focus thread's number and core -/

/-- The focus thread's number and its core. -/
def State.focusPlace (s : State) : Nat × Nat := (s.th.id, s.th.core)

/-- What leaves what memory does not touch leaves them. -/
theorem focusPlace_of_besideMemory {s t : State} (h : t.besideMemory = s.besideMemory) : t.focusPlace = s.focusPlace :=
  congrArg (fun p : Table MArray × EventArg × Thread => (p.2.2.id, p.2.2.core)) h

/-- A change of a thread that keeps its number and its core. -/
theorem focusPlace_onThread {f : Thread → Thread} (hf : ∀ x, (f x).id = x.id ∧ (f x).core = x.core) (tid : Nat) (s : State) :
    (s.onThread tid f).focusPlace = s.focusPlace := by
  unfold State.onThread
  split
  · exact Prod.ext (hf s.th).1 (hf s.th).2
  · rfl

theorem focusPlace_fillLoad (tid load : Nat) (val : LoadVal) (s : State) : (s.fillLoad tid load val).focusPlace = s.focusPlace :=
  focusPlace_onThread (fun _ => by exact ⟨rfl, rfl⟩) ..

/-! ### Stores -/

theorem focusPlace_storePiece (t : Thread) (i j : Nat) (q : QStore) (s : State) : (storePiece t i j q s).focusPlace = s.focusPlace := by
  unfold storePiece
  split
  · rfl
  next p _ =>
    extract_lets w rest u v
    have hu : u.focusPlace = s.focusPlace := by
      simp only [u]
      split
      all_goals
        refine focusPlace_onThread ?_ ..
        exact fun _ => ⟨rfl, rfl⟩
    have hv : v.focusPlace = s.focusPlace := (focusPlace_of_besideMemory (besideMemory_coreStore ..)).trans hu
    split
    · unfold storePartialHome
      split
      · exact (focusPlace_of_besideMemory (besideMemory_arrivePartial ..)).trans hv
      · exact hv
    · exact hv

theorem focusPlace_storeHome (tid no n : Nat) (s : State) : (storeHome tid no n s).focusPlace = s.focusPlace := by
  induction n generalizing s with
  | zero => rfl
  | succ n ih =>
    unfold storeHome
    split
    · rfl
    · split
      · rfl
      · split
        · rw [ih, focusPlace_storePiece]
        · rfl

theorem focusPlace_settleRaised (t : Thread) (deep all : Bool) (ls : List Loc) (s : State) :
    (settleRaised t deep all ls s).focusPlace = s.focusPlace := by
  refine foldl_keeps State.focusPlace (fun u r => ?_) _ s
  split
  · exact focusPlace_storeHome ..
  · rfl

theorem focusPlace_settleOwn (t : Thread) (no : Nat) (ls : List Loc) (s : State) :
    (settleOwn t no ls s).focusPlace = s.focusPlace := by
  refine foldl_keeps State.focusPlace (fun u e => ?_) _ s
  split
  · split
    · exact focusPlace_storeHome ..
    · rfl
  · rfl

theorem focusPlace_storeAt (scope : Nat) (t : Thread) (i : Nat) (q : QStore) (s : State) :
    (storeAt scope t i q s).focusPlace = s.focusPlace := by
  have hput (e : StoreEntry) : (putEntry t.id i e s).focusPlace = s.focusPlace := focusPlace_onThread (fun _ => by exact ⟨rfl, rfl⟩) ..
  unfold storeAt raiseStore storePartialHome
  split
  · split
    · split
      · exact (focusPlace_of_besideMemory (besideMemory_arrivePartial ..)).trans (hput _)
      · exact hput _
    · rfl
  · exact focusPlace_storeHome ..

/-! ### Loads -/

theorem focusPlace_readAs (t : Thread) (deep : Bool) (ls : List Loc) (s : State) :
    (readAs t deep ls s).2.focusPlace = s.focusPlace := by
  unfold readAs
  dsimp only
  rw [focusPlace_of_besideMemory (touchLines_caches ..).besideMemory, focusPlace_of_besideMemory (besideMemory_reachPlaces ..),
    focusPlace_settleRaised]

theorem focusPlace_readPart (tid id : Nat) (p : LoadPart) (s : State) : (readPart tid id p s).focusPlace = s.focusPlace := by
  unfold readPart
  split
  · rfl
  next t _ =>
    split
    next acq _ =>
      have hread := focusPlace_readAs t (wideAcquire acq) p.locs s
      split
      · exact focusPlace_fillLoad ..
      · dsimp only
        split
        · split
          · rw [acquireL1_frame]
            exact (focusPlace_fillLoad ..).trans hread
          · exact (focusPlace_fillLoad ..).trans hread
        · exact (focusPlace_fillLoad ..).trans hread
    · rfl

theorem focusPlace_readLoad (tid id : Nat) (s : State) : (readLoad tid id s).focusPlace = s.focusPlace := by
  unfold readLoad
  split
  · split
    · exact focusPlace_fillLoad ..
    · exact foldl_keeps State.focusPlace (fun u p => focusPlace_readPart tid id p u) _ s
    · rfl
  · rfl

/-! ### Atomics -/

theorem focusPlace_applyAtom (t : Thread) (op : AtomOp) (ls : List Loc) (s : State) :
    (applyAtom t op ls s).focusPlace = s.focusPlace := by
  have hmark (u : State) : (markStored t op u).besideMemory = u.besideMemory := by
    unfold markStored
    split
    next hl => exact besideMemory_resolve hl
    · rfl
  have hsaw (stand : Nat) (u : State) : (sawHome stand ls u).besideMemory = u.besideMemory := by
    unfold sawHome
    split
    · split
      · exact (applyUpTo_updates ..).besideMemory
      · rfl
    · rfl
  have hdrop (u : State) : (ls.foldl (fun s l => dropL1 t.core l s) u).besideMemory = u.besideMemory := by
    refine foldl_keeps State.besideMemory (fun v l => ?_) _ u
    unfold dropL1
    split
    · dsimp only
      split <;> rfl
    · rfl
  unfold applyAtom
  extract_lets n u old src stand
  split
  extract_lets v w x y
  have hu : u.besideMemory = s.besideMemory := besideMemory_settleRows ..
  have hv : v.besideMemory = u.besideMemory := by
    simp only [v]
    split
    · exact hmark u
    · rfl
  have hw : w.besideMemory = v.besideMemory := by
    simp only [w]
    split
    · exact besideMemory_storeLocs ..
    · rfl
  have hy : y.focusPlace = s.focusPlace := focusPlace_of_besideMemory <|
    (besideMemory_orAew ..).trans ((hdrop _).trans ((hsaw ..).trans (hw.trans (hv.trans hu))))
  split
  · exact (focusPlace_fillLoad ..).trans hy
  · exact hy

theorem focusPlace_performAtom (t : Thread) (op : AtomOp) (s : State) : (performAtom t op s).focusPlace = s.focusPlace := by
  have hlog (cause : Nat) (u : State) : (logReduction t.id op cause u).focusPlace = u.focusPlace := by
    refine focusPlace_onThread (fun x => ?_) ..
    split <;> exact ⟨rfl, rfl⟩
  unfold performAtom
  split
  · split
    · exact focusPlace_fillLoad ..
    · exact focusPlace_applyAtom ..
  · split
    · exact hlog ..
    next hl =>
      have hresolve := besideMemory_resolve hl
      dsimp only
      split
      next hbad =>
        rw [hlog]
        exact focusPlace_of_besideMemory ((besideMemory_retire ..).trans ((besideMemory_of_settleBad_error hbad).trans hresolve))
      next hgood =>
        rw [focusPlace_applyAtom]
        exact focusPlace_of_besideMemory ((besideMemory_of_settleBad_ok hgood).trans hresolve)

/-! ### Entries of a store queue -/

/-- A line whose dirty data are dropped. -/
theorem focusPlace_discardLine (w : Writer) (a mt : Nat) (s : State) : (discardLine w a mt s).focusPlace = s.focusPlace := by
  unfold discardLine
  extract_lets line u v x
  have hx : x.focusPlace = s.focusPlace := by
    have hv : v.focusPlace = s.focusPlace := by
      simp only [v]
      split <;> rfl
    simp only [x]
    split
    · exact hv
    · obtain ⟨st, ms, hdrop⟩ := (dropReplicas_spec line v).1
      rw [hdrop]
      exact hv
  have hstamp : (if (x.ownPa a && mt != 2) = true then stampWrite (paStand a) w [] x else x).focusPlace = x.focusPlace :=
    focusPlace_of_besideMemory (stampWhere_updates ..).besideMemory
  exact (focusPlace_of_besideMemory (besideMemory_wakeSpinners ..)).trans (hstamp.trans hx)

/-- An entry of a thread's queue that is performed. -/
theorem focusPlace_performEntry (scope : Nat) (t : Thread) (i : Nat) (e : StoreEntry) (s : State) :
    (performEntry scope t i e s).focusPlace = s.focusPlace := by
  have hgone : (s.onThread t.id fun t => { t with sq := eraseEntry i t.sq }).focusPlace = s.focusPlace :=
    focusPlace_onThread (fun _ => by exact ⟨rfl, rfl⟩) ..
  cases e with
  | store q => exact focusPlace_storeAt ..
  | line no discard l clocks =>
    refine Eq.trans ?_ hgone
    simp only [performEntry, lineHome]
    split
    · split
      · exact focusPlace_discardLine ..
      · exact focusPlace_of_besideMemory (besideMemory_writeBack ..)
    · rfl
  | advance no p core off c => exact (focusPlace_of_besideMemory (besideMemory_deckStore ..)).trans hgone
  | record no addr h set issuer => exact (focusPlace_of_besideMemory (besideMemory_recordHome ..)).trans hgone
  | live no desc => exact (focusPlace_of_besideMemory (besideMemory_nodeEnd ..)).trans hgone
  | mark no => rfl

theorem focusPlace_beforeEntry (t : Thread) (e : StoreEntry) (s : State) : (beforeEntry t e s).focusPlace = s.focusPlace := by
  have hsettle : (settleRaised t true (decide (e.releases ≠ 0)) e.places (settleOwn t e.no e.places s)).focusPlace = s.focusPlace :=
    (focusPlace_settleRaised ..).trans (focusPlace_settleOwn ..)
  unfold beforeEntry
  dsimp only
  split <;> exact hsettle

/-! ### What is outstanding -/

/-- An outstanding access that is performed. -/
theorem focusPlace_performNo (scope tid : Nat) (s : State) (no : Nat) : (performNo scope tid s no).focusPlace = s.focusPlace := by
  unfold performNo
  split
  · rfl
  next t _ =>
    split
    · dsimp only
      split
      · exact (focusPlace_readLoad ..).trans (focusPlace_settleOwn ..)
      · rfl
    · dsimp only
      split
      · refine (focusPlace_performAtom ..).trans ((focusPlace_onThread (fun _ => ?_) ..).trans
          ((focusPlace_settleRaised ..).trans (focusPlace_settleOwn ..)))
        exact ⟨rfl, rfl⟩
      · rfl
    next e _ _ _ =>
      have hbefore := focusPlace_beforeEntry t e s
      dsimp only
      split
      · split
        · split
          · exact (focusPlace_performEntry ..).trans hbefore
          · rfl
        · exact hbefore
      · rfl
    · rfl

/-- All that may be performed is. -/
theorem focusPlace_performAt (scope tid : Nat) (s : State) : (performAt scope tid s).focusPlace = s.focusPlace := by
  unfold performAt performBefore
  split
  · rfl
  next t _ =>
    extract_lets sc u v
    have hu : u.focusPlace = s.focusPlace := foldl_keeps State.focusPlace (focusPlace_performNo sc tid) _ s
    have hv : v.focusPlace = s.focusPlace := by
      simp only [v]
      split
      · exact hu
      · refine (foldl_keeps State.focusPlace (fun w r => ?_) _ u).trans hu
        split
        · rfl
        · exact focusPlace_storeHome ..
    split <;> exact hv

/-- What an instruction has performed before it reads. -/
theorem focusPlace_beforeReading (ls : List Loc) (s : State) : (beforeReading ls s).focusPlace = s.focusPlace := by
  unfold beforeReading
  split
  · have hblocking := foldl_keeps State.focusPlace (focusPlace_performNo 3 s.th.id) (blockingWork ls s) s
    dsimp only
    split
    · exact (focusPlace_performAt ..).trans hblocking
    · exact hblocking
  · rfl

/-- What threads of the same number and core find stored short of its home is the same. -/
theorem settleRaised_congr {x y : Thread} (h : x.id = y.id) (hcore : x.core = y.core) (deep all : Bool) (ls : List Loc) (s : State) :
    settleRaised x deep all ls s = settleRaised y deep all ls s := by
  simp only [settleRaised, raisedSeen, h, hcore]

/-- The focus thread finds the same before and after what it has performed before it reads. -/
theorem settleRaised_beforeReading (deep all : Bool) (ls : List Loc) (s t : State) :
    settleRaised (beforeReading ls s).th deep all ls t = settleRaised s.th deep all ls t :=
  settleRaised_congr (congrArg Prod.fst (focusPlace_beforeReading ls s)) (congrArg Prod.snd (focusPlace_beforeReading ls s)) ..

end Sys2Proof.Machine
end

/-! ## Bytes that an instruction reads as it issues, and the privilege of the table instructions (09 R229, 12 R270, 17 R321) -/
section
namespace Sys2Proof.Machine

open Sys2Proof

section Reading

variable {va : Word} {ls : List Loc} {s : State} {go : List Byte → State → Outcome}

/-- An instruction whose bytes come behind something else holds its thread. -/
theorem readChecked_blocked {u : State} (hdata : checkData va ls s = .ok u) (hblocked : readBlocked (beforeReading ls u) ls = true) :
    readChecked va ls s go = .next (holdForWork (blockingWork ls (beforeReading ls u)) (beforeReading ls u)) := by
  simp only [readChecked, dataChecked_ok hdata, hblocked, if_true]

/-- An instruction that may read its bytes as it issues does with them what it does. -/
theorem readChecked_now {bs : List Byte} {t : State} (h : ReadsNow va ls s bs t) : readChecked va ls s go = go bs t := by
  obtain ⟨u, hdata, hfree, hread⟩ := h
  simp only [readChecked, dataChecked_ok hdata, hfree, hread, Bool.false_eq_true, if_false]

end Reading

/-- A bit of a number. -/
theorem natBit_eq (w n : Nat) : natBit w n = decide (w / 2 ^ n % 2 = 1) := by
  rw [natBit, Nat.shiftRight_eq_div_pow]

/-- At privilege 0 the instructions on tables are refused. -/
theorem needTablePriv_denied {s : State} (h : s.th.priv = 0) : needTablePriv s = .error (denied 5 (s.fieldOf 5)) :=
  need_false (by rw [h]; rfl) _

/-- At any other privilege they go on. -/
theorem needTablePriv_ok {s : State} (h : s.th.priv ≠ 0) : needTablePriv s = .ok () :=
  need_true (decide_eq_true (Nat.one_le_iff_ne_zero.mpr fun h0 => h (BitVec.eq_of_toNat_eq h0))) _

end Sys2Proof.Machine
end

/-! ## Counting networks (17 R320-R330) -/
section
namespace Sys2Proof.Machine

open Sys2Proof

/-! ### The network that an instruction names -/

section Named

variable {a : BitVec 4} {s : State}

/-- A granted network is found by its number. -/
theorem needNet_named (h : (s.getS a).toNat < 128 ∧ netGranted s s.myPart (s.getS a).toNat = true) :
    needNet a s = .ok (s.getS a).toNat := by
  have hgood : (decide ((s.getS a).toNat < 128) && netGranted s s.myPart (s.getS a).toNat) = true := by
    rw [Bool.and_eq_true, decide_eq_true_eq]
    exact h
  simp only [needNet, need_true hgood, bind, Except.bind]

/-- A number that names no granted network is refused. -/
theorem needNet_unnamed (h : ¬ ((s.getS a).toNat < 128 ∧ netGranted s s.myPart (s.getS a).toNat = true)) :
    needNet a s = .error (tableOperand 3 a.toNat (s.getS a)) := by
  have hbad : (decide ((s.getS a).toNat < 128) && netGranted s s.myPart (s.getS a).toNat) = false := by
    rw [← Bool.not_eq_true, Bool.and_eq_true, decide_eq_true_eq]
    exact h
  simp only [needNet, need_false hbad, bind, Except.bind]

end Named

/-! ### TAKE and TAKEB (R322, R323, R326, R327) -/

section Take

variable {d a b : BitVec 4} {s : State}

/-- Both refuse a number that names no granted network. -/
theorem exec_take_unnamed {e : Trap} (h : needNet a s = .error e) :
    ∀ i ∈ [Instr.take d a, .takeb d a b], exec i s = .next (takeTrap e s) := by
  have htake : execTake d a s = .next (takeTrap e s) := by
    simp only [execTake, h, bind, Except.bind, settle]
  have htakeb : execTakeb d a b s = .next (takeTrap e s) := by
    simp only [execTakeb, h, bind, Except.bind, settle]
  simp only [List.forall_mem_cons, List.not_mem_nil, false_implies, implies_true, and_true]
  exact ⟨htake, htakeb⟩

variable {n : Nat} (hnet : needNet a s = .ok n)

include hnet

/-- TAKE sends a token for one place. -/
theorem exec_take : exec (.take d a) s = .next (sendToken d n 1 s) := by
  change execTake d a s = _
  simp only [execTake, hnet, bind, Except.bind, settle]

/-- TAKEB sends a token for as many places as it says. -/
theorem exec_takeb (h : 1 ≤ (s.getS b).toNat) (h' : (s.getS b).toNat ≤ 4096) :
    exec (.takeb d a b) s = .next (sendToken d n (s.getS b).toNat s) := by
  change execTakeb d a b s = _
  simp only [execTakeb, hnet, h, h', decide_true, Bool.and_self, need, if_true, bind, Except.bind, settle]

/-- TAKEB refuses a count that is not from 1 to 4,096. -/
theorem exec_takeb_badCount (h : ¬ (1 ≤ (s.getS b).toNat ∧ (s.getS b).toNat ≤ 4096)) :
    exec (.takeb d a b) s = .next (takeTrap (tableOperand 4 b.toNat (s.getS b)) s) := by
  have hbad : (decide (1 ≤ (s.getS b).toNat) && decide ((s.getS b).toNat ≤ 4096)) = false := by
    rw [← Bool.not_eq_true, Bool.and_eq_true, decide_eq_true_eq, decide_eq_true_eq]
    exact h
  change execTakeb d a b s = _
  simp only [execTakeb, hnet, need_false hbad, bind, Except.bind, settle]

end Take

/-- The word of a status alone. -/
theorem takeWord_status (status : Nat) : takeWord status 0 = BitVec.ofNat 64 (status * 2 ^ 62) := by
  rw [takeWord, Nat.zero_mod, Nat.add_zero]

/-- The word of a place alone. -/
theorem takeWord_place (num : Nat) : takeWord 0 num = BitVec.ofNat 64 (num % 2 ^ 62) := by
  rw [takeWord, Nat.zero_mul, Nat.zero_add]

section Token

variable {d : BitVec 4} {n m : Nat} {s : State}

/-- Where entry is not open the token is turned back. -/
theorem sendToken_closed (h : (s.net n).entry ≠ 0 ∨ (s.net n).broken = true) : sendToken d n m s
    = advance 4 ((s.count 0x13).pushLoad (.s d) (.data ((BitVec.ofNat 64 (2 ^ 62)).setWidth 1024) false)) := by
  rw [← Nat.one_mul (2 ^ 62), ← takeWord_status]
  exact if_pos h

/-- Where entry is open the token enters the first layer on its core's wire. -/
theorem sendToken_open (hentry : (s.net n).entry = 0) (hwhole : (s.net n).broken = false) : sendToken d n m s
    = advance 4 ((s.pushLoad (.s d) .waiting).send s.th.id (.token n 0 (entryWire s s.th.core n) m s.th.id s.fresh)) := by
  refine if_neg ?_
  rintro (h | h)
  · exact h hentry
  · exact Bool.false_ne_true (hwhole.symm.trans h)

end Token

/-! ### Tokens on their way (R322, R324) -/

section Arrival

variable {s : State} {e : Envelope} {n layer wire m tid l : Nat} (harr : arrived s s.arg.a = some e)
  (hbody : e.body = .token n layer wire m tid l)

include harr hbody

/-- A balancer sends a token on by its toggle, which flips. -/
theorem exec_balancerToken {lay : Nat × Nat} (hlayer : (netLayers (netLog n))[layer]? = some lay) :
    let b := balancerAt lay wire
    let i := netWidth n / 2 * layer + b.2.2
    exec .balancerToken s = .next (State.setNet { s with
      msgs := s.msgs.filter (fun f => f.seq ≠ e.seq)
        ++ [{ e with body := .token n (layer + 1) (if natBit (s.net n).toggles i then b.2.1 else b.1) m tid l }] } n
        { s.net n with toggles := (s.net n).toggles ^^^ 2 ^ i }) := by
  change execBalancerToken s = _
  simp only [execBalancerToken, harr, hbody, hlayer]
  rfl

/-- An output counter whose places are used up answers so. -/
theorem exec_outputCounter_exhausted (hout : (netLayers (netLog n)).length ≤ layer)
    (h : 2 ^ 48 < (Table.find wire (s.net n).counters).getD 0 + m) :
    exec .outputCounter s = .next ((dropMsg e.seq s).fillLoad tid l (.data ((takeWord 2 0).setWidth 1024) false)) := by
  change execOutputCounter s = _
  simp only [execOutputCounter, harr, hbody, if_neg (Nat.not_lt.mpr hout), if_pos h]

/-- An output counter gives a token the next places of its wire. -/
theorem exec_outputCounter_places (hout : (netLayers (netLog n)).length ≤ layer)
    (h : (Table.find wire (s.net n).counters).getD 0 + m ≤ 2 ^ 48) :
    exec .outputCounter s = .next (((dropMsg e.seq s).setNet n { s.net n with
      counters := Table.put wire ((Table.find wire (s.net n).counters).getD 0 + m) (s.net n).counters }).fillLoad tid l (.data ((takeWord 0
        ((s.net n).base.toNat + wire + netWidth n * (Table.find wire (s.net n).counters).getD 0)).setWidth 1024) false)) := by
  change execOutputCounter s = _
  simp only [execOutputCounter, harr, hbody, if_neg (Nat.not_lt.mpr hout), if_neg (Nat.not_lt.mpr h)]

end Arrival

/-! ### Control (R328, R329) -/

section Control

variable {a b : BitVec 4} {s : State}

/-- The three control instructions refuse what their privilege or their network refuses. -/
theorem exec_netControl_refused {e : Trap} (h : (needTablePriv s >>= fun _ => needNet a s) = .error e) :
    ∀ i ∈ [Instr.nsave a b, .nrest a b, .nreset a b], exec i s = .next (takeTrap e s) := by
  have hchecks {α : Type} (f : Nat → Checked α) : (needTablePriv s >>= fun _ => needNet a s >>= f) = .error e := by
    rw [← bind_assoc, h]
    rfl
  have hsave : execNsave a b s = .next (takeTrap e s) := by
    simp only [execNsave, hchecks]
  have hrest : execNrest a b s = .next (takeTrap e s) := by
    simp only [execNrest, hchecks]
  have hreset : execNreset a b s = .next (takeTrap e s) := by
    simp only [execNreset, hchecks, settle]
  simp only [List.forall_mem_cons, List.not_mem_nil, false_implies, implies_true, and_true]
  exact ⟨hsave, hrest, hreset⟩

variable {n : Nat} (hpriv : s.th.priv ≠ 0) (hnet : needNet a s = .ok n)

include hpriv hnet

/-- NSAVE waits for its network with the places that it stores to. -/
theorem exec_nsave {sp : List (Loc × Nat)} {s1 : State} (hspan : spanOf .write (s.getS b) 768 64 4 b.toNat s = .ok (sp, s1)) :
    exec (.nsave a b) s = .next (controlNet 0 n (s1.getS b) [] sp s1) := by
  change execNsave a b s = _
  simp only [execNsave, needTablePriv_ok hpriv, hnet, hspan, bind, Except.bind]

section Restore

variable {ls : List Loc} {s1 : State} (hplace : spanPlace .read (s.getS b) 768 64 4 b.toNat s = .ok (ls, s1))

include hplace

/-- NREST whose block comes behind something else holds its thread. -/
theorem exec_nrest_held {u : State} (hdata : checkData (s.getS b) ls s1 = .ok u) (hblocked : readBlocked (beforeReading ls u) ls = true) :
    exec (.nrest a b) s = .next (holdForWork (blockingWork ls (beforeReading ls u)) (beforeReading ls u)) := by
  change execNrest a b s = _
  simp only [execNrest, needTablePriv_ok hpriv, hnet, hplace, readChecked_blocked hdata hblocked, bind, Except.bind]

variable {bs : List Byte} {s3 : State} (hreads : ReadsNow (s.getS b) ls s1 bs s3)

include hreads

/-- NREST refuses a block with a bad field. -/
theorem exec_nrest_badBlock {o : Nat} (hbad : netBlockFault n bs = some o) : exec (.nrest a b) s
    = .next (takeTrap { cause := 0x19, a := s.getS b, v := BitVec.ofNat 64 o } s3) := by
  change execNrest a b s = _
  simp only [execNrest, needTablePriv_ok hpriv, hnet, hplace, readChecked_now hreads, hbad, bind, Except.bind]

/-- NREST waits for its network with the block that it has read. -/
theorem exec_nrest (hgood : netBlockFault n bs = none) : exec (.nrest a b) s = .next (controlNet 1 n (s.getS b) bs [] s3) := by
  change execNrest a b s = _
  simp only [execNrest, needTablePriv_ok hpriv, hnet, hplace, readChecked_now hreads, hgood, bind, Except.bind]

end Restore

/-- NRESET waits for its network with its base. -/
theorem exec_nreset (h : (s.getS b).toNat < 2 ^ 56) : exec (.nreset a b) s = .next (controlNet 2 n (s.getS b) [] [] s) := by
  change execNreset a b s = _
  simp only [execNreset, needTablePriv_ok hpriv, hnet, need_true (decide_eq_true h), bind, Except.bind, settle]

/-- NRESET refuses a base of more than 56 bits. -/
theorem exec_nreset_badBase (h : ¬ (s.getS b).toNat < 2 ^ 56) :
    exec (.nreset a b) s = .next (takeTrap (tableOperand 4 b.toNat (s.getS b)) s) := by
  change execNreset a b s = _
  simp only [execNreset, needTablePriv_ok hpriv, hnet, need_false (decide_eq_false h), bind, Except.bind, settle]

end Control

/-- A control instruction stands last in its network's queue, closes entry where it is the first, and holds its thread. -/
theorem joins_of_controlNet {i : Instr} {s u : State} {what n : Nat} {op : Word} {bytes : List Byte} {sp : List (Loc × Nat)}
    (h : exec i s = .next (controlNet what n op bytes sp u)) :
    ∃ t, exec i s = .next t ∧ t.th.status = .holding (.net what n op bytes sp) ∧ (t.net n).pending = (u.net n).pending ++ [u.th.id]
      ∧ (t.net n).entry = (if (u.net n).pending = [] then 1 else (u.net n).entry) ∧ (t.net n).toggles = (u.net n).toggles
      ∧ (t.net n).counters = (u.net n).counters ∧ t.th.pc = u.th.pc ∧ t.dram = u.dram ∧ t.l2 = u.l2 := by
  have hnet : (controlNet what n op bytes sp u).net n
      = { u.net n with pending := (u.net n).pending ++ [u.th.id]
                       entry := if (u.net n).pending.isEmpty then 1 else (u.net n).entry } := by
    rw [controlNet, holdFor, State.onTh_get_net, State.setNet_self]
  refine ⟨_, h, rfl, ?_, ?_, ?_, ?_, rfl, rfl, rfl⟩ <;> simp only [hnet, List.isEmpty_iff]

/-! ### A network that is quiet (R325, R328) -/

@[simp] theorem State.focus_get_net (s : State) (tid n : Nat) : (s.focus tid).net n = s.net n := by
  rw [State.focus_frame]
  rfl

section Quiet

variable {s : State} {tid what : Nat} {rest : List Nat} {y : Thread} {op : Word} {bytes : List Byte} {sp : List (Loc × Nat)}
  (hpending : (s.net s.arg.a).pending = tid :: rest) (hy : s.thread? tid = some y)

include hpending hy

/-- The first control instruction of a network may act where the network is quiet and its thread may store to its places. -/
theorem netReady_first : netReady s y s.arg.a sp
    = (netQuiet s s.arg.a && !readBlocked (beforeReading (spanLocs sp) (s.focus tid)) (spanLocs sp)) := by
  have hid := State.id_of_thread? hy
  simp only [netReady, hpending, hid, List.head?_cons, decide_true, Bool.true_and]

/-- The first control instruction of a network is applied where it may act and its core's picker lets its thread go on; the next
one closes entry again. -/
theorem exec_networkQuiet (hst : y.status = .holding (.net what s.arg.a op bytes sp)) : exec .networkQuiet s
    = .next (if netReady s y s.arg.a sp = true ∧ pickedEvent s y.core .networkQuiet s.arg.a = true then
        let u := applyControl what s.arg.a op bytes sp (s.focus tid)
        finishWait (u.setNet s.arg.a { u.net s.arg.a with
          pending := rest, entry := if rest = [] then (u.net s.arg.a).entry else 1 })
      else s) := by
  change execNetworkQuiet s = _
  simp only [execNetworkQuiet, hpending, hy, hst, ne_eq, not_true_eq_false, decide_false, Bool.false_or, List.isEmpty_iff]
  cases netReady s y s.arg.a sp <;> cases pickedEvent s y.core .networkQuiet s.arg.a <;> rfl

end Quiet

/-! ### The obligation -/

/-- Settles O49: tokens by the state of their network, control by its checks, and what each does to the network. -/
theorem networks : Obligations.Networks := by
  refine ⟨fun d a b s => ?issue, fun s e n layer wire m tid l harr hbody => ⟨fun lay hlayer => ?balancer, fun hout => ?counter⟩,
    fun s tid rest y what op bytes sp hpending hy hst hfocus => ⟨fun hnot => ?waits, fun hid hquiet hfree hpick => ?applies⟩⟩
  case issue =>
    intro v k n x named takes joins
    have hsends {i : Instr} {m : Nat} (h : exec i s = .next (sendToken d n m s)) : takes i m := by
      refine ⟨fun hclosed => ?_, fun hentry hwhole => ?_⟩
      · exact past_of_advance (h.trans (congrArg _ (sendToken_closed hclosed)))
      · exact past_of_advance (h.trans (congrArg _ (sendToken_open hentry hwhole)))
    have hnamed (h : named) : needNet a s = .ok n := needNet_named h
    have hunnamed (h : ¬ named) : needNet a s = .error (tableOperand 3 a.toNat v) := needNet_unnamed h
    refine ⟨fun h i hi => traps_of_takeTrap (exec_take_unnamed (hunnamed h) i hi) rfl, fun h => ⟨hsends (exec_take (hnamed h)),
        fun hk hk' => hsends (exec_takeb (hnamed h) hk hk'), fun hk => traps_of_takeTrap (exec_takeb_badCount (hnamed h) ?count) rfl⟩,
      fun hpriv i hi => traps_of_takeTrap (exec_netControl_refused (by rw [needTablePriv_denied hpriv]; rfl) i hi) rfl,
      fun hpriv => ⟨fun h i hi => traps_of_takeTrap (exec_netControl_refused (e := tableOperand 3 a.toNat v) ?refused i hi) rfl,
        fun h => ⟨fun sp s1 hspan => joins_of_controlNet (exec_nsave hpriv (hnamed h) hspan),
        fun ls s1 u hplace hdata hblocked => exec_nrest_held hpriv (hnamed h) hplace hdata hblocked, fun ls s1 bs s3 hplace hreads =>
          ⟨fun o hbad => traps_of_takeTrap (exec_nrest_badBlock hpriv (hnamed h) hplace hreads hbad) rfl,
          fun hgood => joins_of_controlNet (exec_nrest hpriv (hnamed h) hplace hreads hgood)⟩,
        fun hk => joins_of_controlNet (exec_nreset hpriv (hnamed h) hk),
        fun hk => traps_of_takeTrap (exec_nreset_badBase hpriv (hnamed h) (Nat.not_lt.mpr hk)) rfl⟩⟩⟩
    case count =>
      rintro ⟨hlow, hhigh⟩
      obtain hzero | hmore := hk
      · rw [show s.getS b = 0 from hzero] at hlow
        exact absurd hlow (by decide)
      · exact absurd hhigh (Nat.not_le.mpr hmore)
    case refused =>
      rw [needTablePriv_ok hpriv, hunnamed h]
      rfl
  case balancer =>
    intro b i
    have hexec := exec_balancerToken harr hbody hlayer
    simp only [natBit_eq, decide_eq_true_eq] at hexec
    refine ⟨_, hexec, ?_, ?_, rfl⟩ <;> rw [State.setNet_self]
  case counter =>
    intro c u answer
    refine ⟨fun hbeyond => ?_, fun hwithin => ?_⟩
    · have hexec := exec_outputCounter_exhausted harr hbody hout hbeyond
      rwa [takeWord_status] at hexec
    · have hexec := exec_outputCounter_places harr hbody hout hwithin
      rwa [takeWord_place] at hexec
  case waits =>
    rw [exec_networkQuiet hpending hy hst, if_neg]
    rintro ⟨hready, hpick⟩
    rw [netReady_first hpending hy, Bool.and_eq_true, Bool.not_eq_true'] at hready
    obtain ⟨hquiet, hfree⟩ := hready
    obtain hloud | hblocked | hnopick := hnot
    · exact Bool.false_ne_true (hloud.symm.trans hquiet)
    · exact Bool.false_ne_true (hfree.symm.trans hblocked)
    · exact Bool.false_ne_true (hnopick.symm.trans hpick)
  case applies =>
    have hready : netReady s y s.arg.a sp = true := by
      rw [netReady_first hpending hy, hquiet, hfree]
      rfl
    have hexec := exec_networkQuiet hpending hy hst
    rw [if_pos ⟨hready, hpick⟩] at hexec
    refine ⟨applyControl what s.arg.a op bytes sp (s.focus tid), runsOn_of_finishWait hexec, ?_, ?_, ?_⟩
    · rintro rfl
      rw [settleRaised_beforeReading, ← State.focus_get_net s tid]
      rfl
    · rintro rfl
      rw [← State.focus_get_net s tid]
      rfl
    · rintro rfl
      rw [← State.focus_get_net s tid]
      rfl

end Sys2Proof.Machine
end

/-! ## Fields of bytes that are put together (00 R1) -/
section
namespace Sys2Proof.Machine

open Sys2Proof

/-- A field of the first bytes. -/
theorem leField_append_left {as bs : List Byte} {lo n : Nat} (h : lo + n ≤ as.length) : leField (as ++ bs) lo n = leField as lo n := by
  rw [leField, leField, List.drop_append_of_le_length (by omega), List.take_append_of_le_length (by rw [List.length_drop]; omega)]

/-- A field of the bytes after the first ones. -/
theorem leField_append_right {as bs : List Byte} {lo n : Nat} (h : as.length ≤ lo) :
    leField (as ++ bs) lo n = leField bs (lo - as.length) n := by
  rw [leField, leField, List.drop_append, List.drop_eq_nil_of_le h, List.nil_append]

/-- A number's bytes as a field. -/
theorem leField_leBytes (n v : Nat) : leField (leBytes n v) 0 n = v % 2 ^ (8 * n) := by
  rw [leField_eq, leNat_leBytes, pow_256, Nat.pow_zero, Nat.div_one, Nat.mod_mod]

/-- Bytes of zeros as a field. -/
theorem leField_zeroBytes (k lo n : Nat) : leField (zeroBytes k) lo n = 0 := by
  have hzero : ∀ m, leNat (zeroBytes m) = 0 := fun m => by
    induction m with
    | zero => rfl
    | succ m ih => rw [zeroBytes, List.replicate_succ, leNat, ← zeroBytes, ih]; rfl
  rw [leField_eq, hzero, Nat.zero_div, Nat.zero_mod]

@[simp] theorem length_zeroBytes (n : Nat) : (zeroBytes n).length = n := List.length_replicate

/-- A field is less than its bits allow. -/
theorem leField_lt (bs : List Byte) (lo n : Nat) : leField bs lo n < 2 ^ (8 * n) := by
  rw [leField_eq, ← pow_256]
  exact Nat.mod_lt _ (Nat.pow_pos (by decide))

end Sys2Proof.Machine
end

/-! ## Statistics records (17 R331-R338) -/
section
namespace Sys2Proof.Machine

open Sys2Proof

/-! ### The record that an instruction names (R320, R331) -/

section Named

variable {a : BitVec 4} {s : State} {p : Part} (hp : s.part? s.myPart = some p)

include hp

/-- A record of the partition is found by its handle. -/
theorem needRecord_named (h : (s.getS a).toNat < 65536) (h' : recordOk p (s.getS a).toNat = true) :
    needRecord a s = .ok ((s.getS a).toNat, p) := by
  simp only [needRecord, hp, h, h', decide_true, Bool.and_self, need, if_true, bind, Except.bind]

/-- A handle that names none is refused. -/
theorem needRecord_unnamed (h : ¬ ((s.getS a).toNat < 65536 ∧ recordOk p (s.getS a).toNat = true)) :
    needRecord a s = .error (tableOperand 3 a.toNat (s.getS a)) := by
  have hbad : (decide ((s.getS a).toNat < 65536) && recordOk p (s.getS a).toNat) = false := by
    rw [← Bool.not_eq_true, Bool.and_eq_true, decide_eq_true_eq]
    exact h
  simp only [needRecord, hp, need_false hbad, bind, Except.bind]

end Named

/-- All four instructions refuse what their handle refuses. -/
theorem exec_statistics_unnamed {a : BitVec 4} {s : State} {e : Trap} (hrec : needRecord a s = .error e) (d b : BitVec 4) (n c : BitVec 3)
    (h : BitVec 2) : ∀ x ∈ [Instr.stata a b, .statc a, .statl n a b h c, .statr d a b], exec x s = .next (takeTrap e s) := by
  have hstata : execStata a b s = .next (takeTrap e s) := by
    simp only [execStata, hrec, clearRecord, bind, Except.bind]
  have hstatc : execStatc a s = .next (takeTrap e s) := by
    simp only [execStatc, hrec, clearRecord]
  have hstatl : execStatl n a b h c s = .next (takeTrap e s) := by
    simp only [execStatl, hrec, onRecord]
  have hstatr : execStatr d a b s = .next (takeTrap e s) := by
    simp only [execStatr, hrec, onRecord, bind, Except.bind]
  simp only [List.forall_mem_cons, List.not_mem_nil, false_implies, implies_true, and_true]
  exact ⟨hstata, hstatc, hstatl, hstatr⟩

/-! ### The four instructions on a record -/

section Instructions

variable {d a b : BitVec 4} {n c : BitVec 3} {h : BitVec 2} {s : State} {i : Nat} {p : Part} (hrec : needRecord a s = .ok (i, p))

include hrec

/-- STATA clears the record with a format and a base. -/
theorem exec_stata (hok : (s.getS b).toNat < 2 ^ 16 ∧ (s.getS b).toNat / 16 % 16 = 0 ∧ (s.getS b).toNat % 16 ≤ 8) :
    exec (.stata a b) s = dataChecked (BitVec.ofNat 64 (recordAddr p i)) (recordPlaces (recordAddr p i)) s fun u =>
      .next (advance 4 (queueRecord (recordAddr p i) i (some ((s.getS b).toNat % 16, (s.getS b).toNat / 256)) (u.th.entry 0) u)) := by
  obtain ⟨hsmall, hzero, hfmt⟩ := hok
  have hbase : (s.getS b).toNat / 256 % 256 = (s.getS b).toNat / 256 := Nat.mod_eq_of_lt (by omega)
  have hgood : (decide ((s.getS b).toNat / 2 ^ 16 = 0) && decide ((s.getS b).toNat / 16 % 16 = 0) && decide ((s.getS b).toNat % 16 ≤ 8))
      = true := by
    rw [Nat.div_eq_of_lt hsmall, hzero, decide_eq_true hfmt]
    rfl
  change execStata a b s = _
  simp only [execStata, hrec, need_true hgood, clearRecord, hbase, bind, Except.bind]

/-- STATA refuses any other operand. -/
theorem exec_stata_badOperand (hbad : ¬ ((s.getS b).toNat < 2 ^ 16 ∧ (s.getS b).toNat / 16 % 16 = 0 ∧ (s.getS b).toNat % 16 ≤ 8)) :
    exec (.stata a b) s = .next (takeTrap (tableOperand 4 b.toNat (s.getS b)) s) := by
  have hno : (decide ((s.getS b).toNat / 2 ^ 16 = 0) && decide ((s.getS b).toNat / 16 % 16 = 0) && decide ((s.getS b).toNat % 16 ≤ 8))
      = false := by
    rw [← Bool.not_eq_true, Bool.and_eq_true, Bool.and_eq_true, decide_eq_true_eq, decide_eq_true_eq, decide_eq_true_eq]
    omega
  change execStata a b s = _
  simp only [execStata, hrec, need_false hno, clearRecord, bind, Except.bind]

/-- STATC clears the record, which keeps its format and base. -/
theorem exec_statc : exec (.statc a) s = dataChecked (BitVec.ofNat 64 (recordAddr p i)) (recordPlaces (recordAddr p i)) s fun u =>
    .next (advance 4 (queueRecord (recordAddr p i) i none (u.th.entry 0) u)) := by
  change execStatc a s = _
  simp only [execStatc, hrec, clearRecord]

/-- STATL reads the record, and latches it. -/
theorem exec_statl : exec (.statl n a b h c) s = readOrLate (.sc n) (some c.toNat) (.statl n a b h c) (s.getS a) (s.getS b)
    (BitVec.ofNat 64 (recordAddr p i)) (recordPlaces (recordAddr p i)) s (latchRecord a b c (s.getS a) (s.getS b) h i) := by
  change execStatl n a b h c s = _
  simp only [execStatl, hrec, onRecord]

/-- STATR reads a word of the record. -/
theorem exec_statr (hw : (s.getS b).toNat < 8) : exec (.statr d a b) s = readOrLate (.s d) none (.statr d a b) (s.getS a) (s.getS b)
    (BitVec.ofNat 64 (recordAddr p i)) (recordPlaces (recordAddr p i)) s (recordWord (s.getS b)) := by
  change execStatr d a b s = _
  simp only [execStatr, hrec, need_true (decide_eq_true hw), onRecord, bind, Except.bind]

/-- STATR refuses a number that names no word. -/
theorem exec_statr_badWord (hw : 8 ≤ (s.getS b).toNat) :
    exec (.statr d a b) s = .next (takeTrap (tableOperand 4 b.toNat (s.getS b)) s) := by
  change execStatr d a b s = _
  simp only [execStatr, hrec, need_false (decide_eq_false (Nat.not_lt.mpr hw)), onRecord, bind, Except.bind]

end Instructions

/-! ### A record that is cleared (R335) -/

/-- The fields of a cleared record. -/
theorem clearedRecord_fields {h fmt e0 : Nat} (gen : Nat) (hh : h < 65536) (hfmt : fmt < 256) (he0 : e0 < 256) :
    let bs := clearedRecord h fmt e0 gen
    bs.length = 64 ∧ leField bs 0 2 = h ∧ leField bs 2 1 = fmt ∧ leField bs 3 1 = 0 ∧ leField bs 4 4 = (gen + 1) % 2 ^ 32
      ∧ leField bs 8 8 = 0 ∧ leField bs 16 1 = e0 ∧ leField bs 17 46 = 0 ∧ leField bs 63 1 = 0x80 := by
  simp only [clearedRecord, List.append_assoc]
  refine ⟨?_, ?_, ?_, ?_, ?_, ?_, ?_, ?_, ?_⟩ <;>
    simp [leField_append_left, leField_append_right, leField_leBytes, leField_zeroBytes, Nat.mod_eq_of_lt hh, Nat.mod_eq_of_lt hfmt,
      Nat.mod_eq_of_lt he0]

/-- A record of whose bytes none are bad is cleared at its home. -/
theorem recordHome_readable {part addr h : Nat} {set : Option (Nat × Nat)} {issuer : LogEntry} {s : State}
    (hread : badRead s (recordPlaces addr) = none) : recordHome part addr h set issuer s
    = let r := s.homeBytes addr 64
      let f := set.getD (leField r 2 1, leField r 16 1)
      homeWrite (homeWriter addr) 0 (bytesAt addr (clearedRecord h f.1 f.2 (leField r 4 4))) s := by
  have hsettle : settleBad (s.bad.length + 1) (recordPlaces addr) s = .ok s := by rw [settleBad, hread]
  simp only [recordHome, hsettle]

/-- What STATA and STATC do: the record is cleared at once, or the thread's queue takes it. -/
theorem past_of_queueRecord {x : Instr} {s s1 : State} {p : Part} {i : Nat} {set : Option (Nat × Nat)} (hi : i < 65536)
    (hset : ∀ f ∈ set, f.1 < 256 ∧ f.2 < 256)
    (hexec : exec x s = .next (advance 4 (queueRecord (recordAddr p i) i set (s1.th.entry 0) s1))) :
    let ls := recordPlaces (recordAddr p i)
    let u := settleRaised s1.th true false ls s1
    let r := recordRead p i u
    let f := set.getD (leField r 2 1, leField r 16 1)
    (mayPerform s1 s1.th s1.fresh ls = true → badRead u ls = none → ∃ bs : List Byte, Past x 4 s (recordWrite p i bs u)
      ∧ bs.length = 64 ∧ leField bs 0 2 = i ∧ leField bs 2 1 = f.1 ∧ leField bs 3 1 = 0
      ∧ leField bs 4 4 = (leField r 4 4 + 1) % 2 ^ 32 ∧ leField bs 8 8 = 0 ∧ leField bs 16 1 = f.2 ∧ leField bs 17 46 = 0
      ∧ leField bs 63 1 = 0x80)
    ∧ (mayPerform s1 s1.th s1.fresh ls = false → Past x 4 s { s1 with fresh := s1.fresh + 1, th := { s1.th with
        sq := s1.th.sq ++ [.record s1.fresh (recordAddr p i) i set (s1.th.entry 0)] } }) := by
  intro ls u r f
  refine ⟨fun hmay hread => ?_, fun hnot => ?_⟩
  · have hf : f.1 < 256 ∧ f.2 < 256 := by
      cases set with
      | none => exact ⟨leField_lt r 2 1, leField_lt r 16 1⟩
      | some q => exact hset q rfl
    rw [queueRecord, if_pos hmay, recordHome_readable hread] at hexec
    exact ⟨_, past_of_advance hexec, clearedRecord_fields _ hi hf.1 hf.2⟩
  · rw [queueRecord, if_neg (by rw [hnot]; exact Bool.false_ne_true)] at hexec
    exact past_of_advance hexec

/-! ### Data errors, and records that are read (R336, R337) -/

/-- Bytes that cannot be read are a data error. -/
theorem dataChecked_error {va : Word} {ls : List Loc} {s : State} {e : Trap} (h : checkData va ls s = .error e) (go : State → Outcome) :
    dataChecked va ls s go = .next (takeTrap e s) := by
  simp only [dataChecked, h]

/-- An instruction that may read its bytes as it issues, an acquire or not. -/
theorem readOrLate_reads {dest : LoadDest} {acq : Option Nat} {i : Instr} {a b va : Word} {ls : List Loc} {s s1 u : State} {r : List Byte}
    {go : Nat → List Byte → State → Checked State} (hdata : checkData va ls s = .ok s1)
    (hfree : readBlocked (beforeReading ls s1) ls = false)
    (hread : readAs (beforeReading ls s1).th (wideAcquire acq) ls (beforeReading ls s1) = (r, u)) :
    readOrLate dest acq i a b va ls s go = settle u ((go u.fresh r (u.pushLoad dest .waiting)).map (advance 4)) := by
  simp only [readOrLate, dataChecked_ok hdata, hfree, hread, Bool.false_eq_true, if_false]

section Latch

variable {a b : BitVec 4} {c : BitVec 3} {x y : Word} {h : BitVec 2} {i id : Nat} {r : List Byte} {s : State}

/-- STATL of another generation than the one awaited. -/
theorem latchRecord_otherGeneration (hb : b ≠ 0) (hgen : leField r 4 4 ≠ y.toNat % 2 ^ 32) : latchRecord a b c x y h i id r s
    = .error { cause := 0x18, fidx := 4, fval := b.toNat, v := BitVec.ofNat 64 (y.toNat % 2 ^ 32 * 2 ^ 32 + leField r 4 4) } := by
  have hno : (decide (b = 0) || decide (leField r 4 4 = y.toNat % 2 ^ 32)) = false := by
    rw [decide_eq_false hb, decide_eq_false hgen]
    rfl
  simp only [latchRecord, need_false hno, bind, Except.bind]

variable (hgen : b = 0 ∨ leField r 4 4 = y.toNat % 2 ^ 32)

include hgen

/-- STATL of a record whose format does not scale. -/
theorem latchRecord_noScale (hscale : scaleExponent (leField r 2 1) = none) :
    latchRecord a b c x y h i id r s = .error (tableOperand 3 a.toNat x) := by
  have hok : (decide (b = 0) || decide (leField r 4 4 = y.toNat % 2 ^ 32)) = true := by simpa using hgen
  simp only [latchRecord, need_true hok, hscale, bind, Except.bind]

/-- STATL latches the exponent in the record, reports what the record has to report, and acquires. -/
theorem latchRecord_latches {ef : Int} {p : Part} (hscale : scaleExponent (leField r 2 1) = some ef) (hp : s.part? s.myPart = some p) :
    let k := (latchExponent ef (leField r 8 4) h.toNat % 256).toNat
    ∃ (q : List Byte) (t : VWord) (report : Bool), (report = decide (leField r 3 1 / 2 % 2 = 1)
        ∧ t = BitVec.ofNat 1024 (leField r 4 4 * 2 ^ 24 + leField r 0 2 * 256 + k)
        ∧ q = patchBytes (patchBytes r 3 (leBytes 1 (if report = true then leField r 3 1 - 2 else leField r 3 1))) 63 (leBytes 1 k))
      ∧ latchRecord a b c x y h i id r s = .ok ((acquireL1 c.toNat s.th.core
          (if report = true then (recordWrite p i q s).count 0x14 else recordWrite p i q s)).fillLoad s.th.id id (.data t report)) := by
  have hok : (decide (b = 0) || decide (leField r 4 4 = y.toNat % 2 ^ 32)) = true := by simpa using hgen
  have hth (q : List Byte) (report : Bool) :
      (if report = true then (recordWrite p i q s).count 0x14 else recordWrite p i q s).focusPlace = s.focusPlace := by
    have hwrite := focusPlace_of_besideMemory (besideMemory_recordWrite p i q s)
    split
    · rw [State.focusPlace, count_th]
      exact hwrite
    · exact hwrite
  have hid q report := congrArg Prod.fst (hth q report)
  have hcore q report := congrArg Prod.snd (hth q report)
  simp only [State.focusPlace] at hid hcore
  refine ⟨_, _, _, ⟨rfl, rfl, rfl⟩, ?_⟩
  simp only [latchRecord, need_true hok, hscale, hp, natBit_eq, Nat.pow_one, hid, hcore, bind, Except.bind]

end Latch

/-! ### Late (12 R270) -/

/-- What an instruction does late with bytes at a physical address, where it reads them as a load does. -/
theorem lateOutcome_of_readsAt {i : Instr} {a b va : Word} {l : Load} {ls : List Loc} {m u : State} {bs : List Byte}
    (hreads : lateRead i a (wideAcquire l.acq) ls m
      = (checkData va ls m).bind fun s => .ok (readAs s.th (wideAcquire l.acq) ls s))
    (h : LateReads va l.acq ls m bs u) : lateOutcome i a b l ls m = lateBody i a b l.id bs u := by
  obtain ⟨w, hdata, hread⟩ := h
  rw [lateOutcome, hreads, hdata]
  simp only [Except.bind, bind, hread]

section Late

variable {a : BitVec 4} {v w : Word} {l : Load} {base mt : Nat} {rest : List Loc} {m u : State} {r : List Byte}
  (h : LateReads (BitVec.ofNat 64 base) l.acq (.pa base mt :: rest) m r u)

include h

/-- STATR that acts late reads its word then. -/
theorem lateOutcome_statr (d b : BitVec 4) :
    lateOutcome (.statr d a b) v w l (.pa base mt :: rest) m = recordWord w l.id r u := lateOutcome_of_readsAt rfl h

/-- STATL that acts late latches its record then. -/
theorem lateOutcome_statl (n c : BitVec 3) (b : BitVec 4) (h2 : BitVec 2) :
    lateOutcome (.statl n a b h2 c) v w l (.pa base mt :: rest) m = latchRecord a b c v w h2 (v.toNat % 65536) l.id r u :=
  lateOutcome_of_readsAt rfl h

end Late

/-! ### Partials that arrive (R334, 09 R237) -/

section Arrival

variable {s : State} {p : Part} {part h : Nat} {x : Partial} {sender : LogEntry} (hp : s.part? part = some p)

include hp

/-- A partial merges into its record. -/
theorem arrivePartial_record (hok : recordOk p h = true) :
    arrivePartial part h x sender s = recordWrite p h (mergePartial x (recordRead p h s)) s := by
  simp only [arrivePartial, hp, hok, if_true]

/-- A partial for no record is logged. -/
theorem arrivePartial_noRecord (hno : recordOk p h = false) :
    arrivePartial part h x sender s = s.logSender part { sender with cause := 0x1F, value := BitVec.ofNat 64 h } := by
  simp only [arrivePartial, hp, hno, Bool.false_eq_true, if_false]

end Arrival

/-- A message with a partial arrives at the record's home. -/
theorem exec_statisticsPartial {s : State} {e : Envelope} {part : Nat} {i : Word} {x : Partial} {sender : LogEntry}
    (harr : arrived s s.arg.a = some e) (hbody : e.body = .statistics part i x sender) :
    exec .statisticsPartial s = .next (arrivePartial part i.toNat x sender (dropMsg e.seq s)) := by
  change execStatisticsPartial s = _
  simp only [execStatisticsPartial, harr, hbody]

/-! ### The obligation -/

/-- Settles O50: each instruction by its handle, its operand and what comes before its record, the same late, and partials. -/
theorem statistics : Obligations.Statistics := by
  unfold Obligations.Statistics
  intro latched latches
  refine ⟨fun d a b n c h s p hp => ?issue, fun s x l v w ls m r u base mt rest hx hl hmay hls hm hreads => ?late,
    fun s e part i x sender p harr hbody hp => ⟨fun hok => ?merges, fun hno => ?logged⟩⟩
  case issue =>
    intro v w i base addr ls stataOk
    refine ⟨fun hbad x hx => traps_of_takeTrap (exec_statistics_unnamed (needRecord_unnamed hp hbad) d b n c h x hx) rfl, fun hi hok => ?_⟩
    have hrec : needRecord a s = .ok (i, p) := needRecord_named hp hi hok
    refine ⟨fun hbad => traps_of_takeTrap (exec_stata_badOperand hrec hbad) rfl, fun hw => traps_of_takeTrap (exec_statr_badWord hrec hw) rfl,
      fun e hdata => ⟨?error, fun hgood => (exec_stata hrec hgood).trans (dataChecked_error hdata _),
        fun hw => (exec_statr hrec hw).trans (by simp only [readOrLate]; exact dataChecked_error hdata _)⟩,
      fun s1 hdata => ⟨fun hgood => ?stata, ?statc⟩, readsLate_of_readOrLate (exec_statl hrec),
      fun hw => readsLate_of_readOrLate (exec_statr hrec hw),
      fun s1 hdata hfree => ⟨fun r u y hread hy hw => ?statr, fun r u y hread hy => ?statl⟩⟩
    case error =>
      simp only [List.forall_mem_cons, List.not_mem_nil, false_implies, implies_true, and_true]
      exact ⟨(exec_statc hrec).trans (dataChecked_error hdata _), (exec_statl hrec).trans (dataChecked_error hdata _)⟩
    case stata =>
      refine past_of_queueRecord hi ?_ ((exec_stata hrec hgood).trans (dataChecked_ok hdata _))
      obtain ⟨hsmall, -, hfmt⟩ : (s.getS b).toNat < 2 ^ 16 ∧ _ ∧ (s.getS b).toNat % 16 ≤ 8 := hgood
      rintro f ⟨⟩
      exact ⟨by omega, by omega⟩
    case statc => exact past_of_queueRecord hi (fun _ hf => absurd hf (Option.not_mem_none _)) ((exec_statc hrec).trans (dataChecked_ok hdata _))
    case statr =>
      obtain rfl : y = u.pushLoad (.s d) .waiting := hy
      have hword : (BitVec.ofNat 64 (leField r (8 * w.toNat) 8)).setWidth 1024 = BitVec.ofNat 1024 (leField r (8 * w.toNat) 8) := by
        have hlt := leField_lt r (8 * w.toNat) 8
        apply BitVec.eq_of_toNat_eq
        simp only [BitVec.toNat_setWidth, BitVec.toNat_ofNat]
        omega
      rw [hword]
      exact past_of_advance ((exec_statr hrec hw).trans (readOrLate_reads hdata hfree hread))
    case statl =>
      obtain rfl : y = u.pushLoad (.sc n) .waiting := hy
      have hexec := (exec_statl (n := n) (b := b) (c := c) (h := h) hrec).trans (readOrLate_reads hdata hfree hread)
      refine ⟨fun hb hgen => ?_, fun hgen => ⟨fun hscale => ?_, fun ef part hscale hpart => ?_⟩⟩
      · rw [latchRecord_otherGeneration hb hgen] at hexec
        exact traps_of_takeTrap hexec rfl
      · rw [latchRecord_noScale hgen hscale] at hexec
        exact traps_of_takeTrap hexec rfl
      · obtain ⟨q, t, report, hlatched, hlatch⟩ := latchRecord_latches (id := u.fresh) (a := a) (c := c) (x := v) (h := h) (i := i)
          hgen hscale hpart
        rw [hlatch] at hexec
        exact ⟨q, t, report, hlatched, past_of_advance hexec⟩
  case late =>
    subst hls
    refine ⟨fun d a b hval => lateEnds_of_outcome hx hl hval hmay hm (lateOutcome_statr hreads d b), fun n a b h c hval =>
      ⟨fun hb hgen => ?_, fun ef part hgen hscale hpart => ?_⟩⟩
    · exact lateFaults_of_outcome hx hl hval hmay hm ((lateOutcome_statl hreads n c b h).trans (latchRecord_otherGeneration hb hgen))
    · obtain ⟨q, t, report, hlatched, hlatch⟩ := latchRecord_latches (id := l.id) (a := a) (c := c) (x := v) (h := h)
        (i := v.toNat % 65536) hgen hscale hpart
      exact ⟨q, t, report, hlatched, lateEnds_of_outcome hx hl hval hmay hm ((lateOutcome_statl hreads n c b h).trans hlatch)⟩
  case merges => exact (exec_statisticsPartial harr hbody).trans (congrArg _ (arrivePartial_record hp hok))
  case logged => exact (exec_statisticsPartial harr hbody).trans (congrArg _ (arrivePartial_noRecord hp hno))

end Sys2Proof.Machine
end

/-! ## The event crossbar and the access-control table (17 R339-R350) -/
section
namespace Sys2Proof.Machine

open Sys2Proof

/-! ### EVCFG (R345) -/

section Configure

variable {a : BitVec 4} {s s1 : State} {ls : List Loc} (hplace : spanPlace .read (s.getS a) 640 64 3 a.toNat s = .ok (ls, s1))

include hplace

/-- EVCFG whose image comes behind something else holds its thread. -/
theorem exec_evcfg_held {u : State} (hdata : checkData (s.getS a) ls s1 = .ok u) (hblocked : readBlocked (beforeReading ls u) ls = true) :
    exec (.evcfg a) s = .next (holdForWork (blockingWork ls (beforeReading ls u)) (beforeReading ls u)) := by
  change execEvcfg a s = _
  simp only [execEvcfg, hplace, readChecked_blocked hdata hblocked]

variable {bs : List Byte} {s3 : State} (hreads : ReadsNow (s.getS a) ls s1 bs s3)

include hreads

/-- EVCFG refuses an image with a bad field. -/
theorem exec_evcfg_badImage {o : Nat} (hbad : imageFault (groveOfCore s3.th.core) bs = some o) : exec (.evcfg a) s
    = .next (takeTrap { cause := 0x19, a := s.getS a, v := BitVec.ofNat 64 o } s3) := by
  change execEvcfg a s = _
  simp only [execEvcfg, hplace, readChecked_now hreads, hbad]

/-- EVCFG puts its image in the place of the old one; zero events on their way stay. -/
theorem exec_evcfg (hgood : imageFault (groveOfCore s3.th.core) bs = none) : exec (.evcfg a) s
    = .next (advance 4 (s3.setGrove (groveOfCore s3.th.core) { s3.grove (groveOfCore s3.th.core) with evx :=
        { image := bs, value := Vector.ofFn fun j => BitVec.ofNat 16 (evxCounter bs j.val / 2 ^ 24)
          outs := (s3.grove (groveOfCore s3.th.core)).evx.outs } })) := by
  change execEvcfg a s = _
  simp only [execEvcfg, hplace, readChecked_now hreads, hgood]

end Configure

/-! ### EVRD (R347) -/

section Read

variable {s : State} {v : Nat}

/-- A counter's value, with its reload value. -/
theorem evxItem_counter (h : v < 0x10) : evxItem s v
    = some (((s.grove (groveOfCore s.th.core)).evx.value.toList.getD v 0).toNat
      + 65536 * (evxCounter (s.grove (groveOfCore s.th.core)).evx.image v % 65536)) := if_pos h

/-- A term's seen bits. -/
theorem evxItem_seen (h : 0x10 ≤ v) (h' : v < 0x20) : evxItem s v
    = some ((s.grove (groveOfCore s.th.core)).evx.seen.toList.getD (v - 0x10) 0).toNat :=
  (if_neg (Nat.not_lt.mpr h)).trans (if_pos h')

/-- A start line's credits. -/
theorem evxItem_credit (h : 0x20 ≤ v) (h' : v < 0x40) : evxItem s v
    = some ((s.grove (groveOfCore s.th.core)).evx.credit.toList.getD (v - 0x20) 0).toNat :=
  (if_neg (by omega)).trans ((if_neg (Nat.not_lt.mpr h)).trans (if_pos h'))

/-- A plane group. -/
theorem evxItem_group (h : 0x40 ≤ v) (h' : v < 0x50) : evxItem s v = some (groupEntry s s.myPart (v - 0x40)) :=
  (if_neg (by omega)).trans ((if_neg (by omega)).trans ((if_neg (Nat.not_lt.mpr h)).trans (if_pos h')))

/-- No other number selects an item. -/
theorem evxItem_none (h : 0x50 ≤ v) : evxItem s v = none :=
  (if_neg (by omega)).trans ((if_neg (by omega)).trans ((if_neg (by omega)).trans (if_neg (Nat.not_lt.mpr h))))

variable {d a : BitVec 4}

/-- EVRD of an item. -/
theorem exec_evrd {y : Nat} (h : evxItem s (s.getS a).toNat = some y) :
    exec (.evrd d a) s = .next (loadS 4 d (BitVec.ofNat 64 y) s) := by
  change execEvrd d a s = _
  simp only [execEvrd, h]

/-- EVRD of a number that selects none. -/
theorem exec_evrd_none (h : evxItem s (s.getS a).toNat = none) :
    exec (.evrd d a) s = .next (takeTrap (tableOperand 3 a.toNat (s.getS a)) s) := by
  change execEvrd d a s = _
  simp only [execEvrd, h]

end Read

/-! ### A pulse (R340, R343) -/

/-- What the pulse of a listed message adds to the lines of a cycle of grove g, at most one on each. -/
def takePulse (g : Nat) (st : List Nat × State) (e : Envelope) : List Nat × State :=
  match e.body with
  | .pulse h l =>
    if h = g && st.2.arg.list.contains e.seq && !st.1.contains l && mayArrive st.2 e then (l :: st.1, dropMsg e.seq st.2) else st
  | _ => st

/-- A cycle of a crossbar takes the pulses of the listed messages, one message after the other. -/
theorem exec_evxPulse (s : State) : exec .evxPulse s =
    let x := (s.grove s.arg.a).evx
    let r := s.msgs.foldl (takePulse s.arg.a) ((takeOnce x.outs).1, s)
    if x.image.isEmpty then .next r.2
    else .next (releaseArmed s.arg.a (r.2.setGrove s.arg.a { r.2.grove s.arg.a with
      evx := evxCycle r.1 { x with outs := (takeOnce x.outs).2 } })) := rfl

/-- A message that is not listed adds nothing. -/
theorem takePulse_unlisted {g : Nat} {st : List Nat × State} {e : Envelope} (h : e.seq ∉ st.2.arg.list) : takePulse g st e = st := by
  have hno : st.2.arg.list.contains e.seq = false := by simpa using h
  unfold takePulse
  split
  · rw [hno, Bool.and_false, Bool.false_and, Bool.false_and, if_neg Bool.false_ne_true]
  · rfl

/-- The pulse of a listed message that may arrive is on its line. -/
theorem takePulse_listed {g l : Nat} {s : State} {e : Envelope} (hlist : e.seq ∈ s.arg.list) (harr : mayArrive s e = true)
    (hbody : e.body = .pulse g l) : takePulse g ([], s) e = ([l], dropMsg e.seq s) := by
  have hlist : s.arg.list.contains e.seq = true := by simpa using hlist
  simp only [takePulse, hbody, hlist, harr, decide_true, List.contains_nil, Bool.not_false, Bool.and_self, if_true]

/-- A fold over a list of which nothing changes what it starts from. -/
theorem foldl_eq_self {α β : Type} {f : β → α → β} {b : β} {xs : List α} (h : ∀ x ∈ xs, f b x = b) : xs.foldl f b = b :=
  List.foldlRecOn xs f (motive := fun c => c = b) rfl fun c hc x hx => by rw [hc, h x hx]

/-- Where one message is listed, its pulse is the only one of the cycle. -/
theorem foldl_takePulse_single {s : State} {e : Envelope} {g l : Nat} (hlist : s.arg.list = [e.seq])
    (honly : s.msgs.filter (fun f => f.seq == e.seq) = [e]) (harr : mayArrive s e = true) (hbody : e.body = .pulse g l) :
    s.msgs.foldl (takePulse g) ([], s) = ([l], dropMsg e.seq s) := by
  obtain ⟨before, after, hmsgs, hbefore, -, hafter⟩ := List.filter_eq_cons_iff.mp honly
  have hother {f : Envelope} (hf : ¬ (f.seq == e.seq) = true) : f.seq ∉ s.arg.list := by simpa [hlist] using hf
  rw [hmsgs, List.foldl_append, List.foldl_cons, foldl_eq_self fun f hf => takePulse_unlisted (hother (hbefore f hf)),
    takePulse_listed (by simp [hlist]) harr hbody]
  exact foldl_eq_self fun f hf => takePulse_unlisted (hother (List.filter_eq_nil_iff.mp hafter f hf))

section Count

variable {f : Nat} {v : BitVec 16}

/-- A pulse on a counter that counts down. -/
theorem pulseCounter_down (h : f / 2 ^ 22 % 2 = 0) :
    pulseCounter f v = if 1 < v.toNat then (v - 1, false) else (BitVec.ofNat 16 f, true) := by
  have hup : natBit f 22 = false := by rw [natBit_eq, h]; rfl
  simp only [pulseCounter, hup, Bool.false_eq_true, if_false]

/-- A pulse on a counter that counts up. -/
theorem pulseCounter_up (h : f / 2 ^ 22 % 2 = 1) :
    pulseCounter f v = if v.toNat = 65535 then (BitVec.ofNat 16 f, true) else (v + 1, false) := by
  have hup : natBit f 22 = true := by rw [natBit_eq, h]; rfl
  have hend : v + 1 = 0 ↔ v.toNat = 65535 := by bv_omega
  simp only [pulseCounter, hup, if_true, hend]

end Count

/-! ### ACTW (R350) -/

/-- An entry as a block of 16 bytes says, but with a reserved count of its own. -/
def actEntry (v res : Nat) : BitVec 128 := BitVec.ofNat 128 (v - v / 2 ^ 48 % 2 ^ 13 * 2 ^ 48 + res * 2 ^ 48)

/-- The number of an entry: below bit 48 and from bit 61 on it is the block's. -/
theorem toNat_actEntry (v res : Nat) :
    (actEntry v res).toNat = (v % 2 ^ 48 + 2 ^ 48 * (res + 2 ^ 13 * (v / 2 ^ 61))) % 2 ^ 128 := by
  rw [actEntry, BitVec.toNat_ofNat]
  congr 1
  omega

theorem actEntry_low (v res : Nat) : (actEntry v res).extractLsb' 0 48 = BitVec.ofNat 48 v := by
  apply BitVec.eq_of_toNat_eq
  rw [BitVec.extractLsb'_toNat, toNat_actEntry, Nat.shiftRight_zero, BitVec.toNat_ofNat]
  omega

theorem actEntry_reserved (v res : Nat) : (actEntry v res).extractLsb' 48 13 = BitVec.ofNat 13 res := by
  apply BitVec.eq_of_toNat_eq
  rw [BitVec.extractLsb'_toNat, toNat_actEntry, Nat.shiftRight_eq_div_pow, BitVec.toNat_ofNat]
  omega

theorem actEntry_high (v : Nat) {res : Nat} (h : res < 2 ^ 13) : (actEntry v res).extractLsb' 61 67 = BitVec.ofNat 67 (v / 2 ^ 61) := by
  apply BitVec.eq_of_toNat_eq
  rw [BitVec.extractLsb'_toNat, toNat_actEntry, Nat.shiftRight_eq_div_pow, BitVec.toNat_ofNat]
  omega

section Write

variable {a b : BitVec 4} {s : State}

/-- Below privilege 1 ACTW is refused. -/
theorem exec_actw_denied (h : s.th.priv = 0) : exec (.actw a b) s = .next (takeTrap (denied 5 (s.fieldOf 5)) s) := by
  change execActw a b s = _
  simp only [execActw, needTablePriv_denied h, bind, Except.bind]

variable (hpriv : s.th.priv ≠ 0)

include hpriv

/-- ACTW refuses a number that names no entry. -/
theorem exec_actw_noEntry (h : 256 ≤ (s.getS a).toNat) :
    exec (.actw a b) s = .next (takeTrap (tableOperand 3 a.toNat (s.getS a)) s) := by
  change execActw a b s = _
  simp only [execActw, needTablePriv_ok hpriv, need_false (decide_eq_false (Nat.not_lt.mpr h)), bind, Except.bind]

variable {ls : List Loc} {s1 : State} (hentry : (s.getS a).toNat < 256)
  (hplace : spanPlace .read (s.getS b) 16 16 4 b.toNat s = .ok (ls, s1))

include hentry hplace

/-- ACTW whose block comes behind something else holds its thread. -/
theorem exec_actw_held {u : State} (hdata : checkData (s.getS b) ls s1 = .ok u) (hblocked : readBlocked (beforeReading ls u) ls = true) :
    exec (.actw a b) s = .next (holdForWork (blockingWork ls (beforeReading ls u)) (beforeReading ls u)) := by
  change execActw a b s = _
  simp only [execActw, needTablePriv_ok hpriv, need_true (decide_eq_true hentry), hplace, readChecked_blocked hdata hblocked, bind,
    Except.bind]

variable {bs : List Byte} {s3 : State} (hreads : ReadsNow (s.getS b) ls s1 bs s3)

include hreads

/-- ACTW refuses a block with a bad field. -/
theorem exec_actw_badBlock {o : Nat} (hbad : actFault (leNat bs) = some o) : exec (.actw a b) s
    = .next (takeTrap { cause := 0x19, a := s.getS b, v := BitVec.ofNat 64 o } s3) := by
  change execActw a b s = _
  simp only [execActw, needTablePriv_ok hpriv, need_true (decide_eq_true hentry), hplace, readChecked_now hreads, hbad, bind, Except.bind]

/-- ACTW writes its entry, whose reserved count stays. -/
theorem exec_actw (hgood : actFault (leNat bs) = none) {p : Part} (hp : s3.part? s3.myPart = some p) : exec (.actw a b) s
    = .next (advance 4 (s3.setPart s3.myPart { p with
        act := Table.put (s.getS a).toNat
          (actEntry (leNat bs) (((Table.find (s.getS a).toNat p.act).getD 0).extractLsb' 48 13).toNat) p.act })) := by
  change execActw a b s = _
  simp only [execActw, needTablePriv_ok hpriv, need_true (decide_eq_true hentry), hplace, readChecked_now hreads, hgood, State.onPart, hp,
    actEntry, bind, Except.bind]

end Write

/-! ### The obligation -/

/-- Settles O51: EVCFG and ACTW by what they read, EVRD by its number, one pulse of a cycle, and a counter by its direction. -/
theorem eventCrossbar : Obligations.EventCrossbar := by
  refine ⟨fun d a b n s => ⟨?held, fun ls s1 bs s3 hplace hreads => ⟨
        fun o hbad => traps_of_takeTrap (exec_evcfg_badImage hplace hreads hbad) rfl,
        fun hgood => past_of_advance (exec_evcfg hplace hreads hgood)⟩, past_of_advance rfl, ?read,
      fun hpriv => traps_of_takeTrap (exec_actw_denied hpriv) rfl, fun hpriv hno => traps_of_takeTrap (exec_actw_noEntry hpriv hno) rfl,
      fun hpriv hentry ls s1 bs s3 hplace hreads => ⟨
        fun o hbad => traps_of_takeTrap (exec_actw_badBlock hpriv hentry hplace hreads hbad) rfl,
        fun hgood p hp => ⟨_, past_of_advance (exec_actw hpriv hentry hplace hreads hgood hp), ?low, ?high, ?reserved⟩⟩⟩,
    fun s e g l hlist honly harr hg hbody houts => ?pulse,
    fun f v => ⟨fun h hlt => ?down, fun h hle => ?downEnd, fun h hlt => ?up, fun h heq => ?upEnd⟩⟩
  case held =>
    simp only [List.forall_mem_cons, List.not_mem_nil, false_implies, implies_true, and_true]
    refine ⟨fun _ ls s1 u hplace hdata hblocked => exec_evcfg_held hplace hdata hblocked, fun hor ls s1 u hplace hdata hblocked => ?_⟩
    obtain ⟨hpriv, hentry⟩ := hor.resolve_left Instr.noConfusion
    exact exec_actw_held hpriv hentry hplace hdata hblocked
  case read =>
    refine ⟨fun h => past_of_advance (exec_evrd (evxItem_counter h)), fun h h' => past_of_advance (exec_evrd (evxItem_seen h h')),
      fun h h' => past_of_advance (exec_evrd (evxItem_credit h h')), fun h h' => past_of_advance (exec_evrd (evxItem_group h h')),
      fun h => traps_of_takeTrap (exec_evrd_none (evxItem_none h)) rfl⟩
  case low => exact actEntry_low ..
  case high => exact actEntry_high _ (BitVec.isLt _)
  case reserved => rw [actEntry_reserved, BitVec.ofNat_toNat, BitVec.setWidth_eq]
  case pulse =>
    subst hg
    have hexec := exec_evxPulse s
    simp only [houts, takeOnce, foldl_takePulse_single hlist honly harr hbody] at hexec
    refine ⟨fun hoff => ?_, fun hon => ?_⟩
    · rw [hoff] at hexec
      exact hexec
    · rw [if_neg (by simpa using hon)] at hexec
      rw [hexec, ← houts]
      rfl
  case down => rw [pulseCounter_down h, if_pos hlt]
  case downEnd => rw [pulseCounter_down h, if_neg (Nat.not_lt.mpr hle)]
  case up => rw [pulseCounter_up h, if_neg (Nat.ne_of_lt hlt)]
  case upEnd => rw [pulseCounter_up h, if_pos heq]

end Sys2Proof.Machine
end

/-! ## Canonical DRAM, as a predicate of what an operation gives (notes/assumptions/1.md) -/
section
namespace Sys2Proof.Machine

open Sys2Proof

/-- DRAM of `t` has its canonical form where that of `o` has it, and the package keeps its number. -/
def Keeps (o t : State) : Prop := (dramSound o = true → dramSound t = true) ∧ t.pkg = o.pkg

/-- What an answer holds, as a value or as a refusal. -/
def Answers {ε α : Type} (E : ε → Prop) (Q : α → Prop) : Except ε α → Prop
  | .ok a => Q a
  | .error e => E e

/-- The state with a value keeps DRAM canonical; a refusal holds none. -/
abbrev OkKeeps {ε α : Type} (o : State) (p : α → State) (r : Except ε α) : Prop :=
  Answers (fun _ => True) (fun x => Keeps o (p x)) r

/-- The states with a value and with a refusal keep DRAM canonical. -/
abbrev BothKeep {ε α : Type} (o : State) (pe : ε → State) (p : α → State) (r : Except ε α) : Prop :=
  Answers (fun e => Keeps o (pe e)) (fun x => Keeps o (p x)) r

/-- A state that is found keeps DRAM canonical. -/
def OptKeeps {α : Type} (o : State) (p : α → State) (r : Option α) : Prop := ∀ x, r = some x → Keeps o (p x)

/-- An outcome is a next state, which keeps DRAM canonical. -/
def Ends (o : State) (r : Outcome) : Prop := ∃ t, r = .next t ∧ Keeps o t

section
variable {o s t : State}

theorem Keeps.refl (s : State) : Keeps s s := ⟨id, rfl⟩

/-- A step of an operation that keeps the form of DRAM. -/
theorem Keeps.of_wf (h : Keeps o s) (hwf : dramSound s = true → dramSound t = true) (hpkg : t.pkg = s.pkg := by rfl) :
    Keeps o t :=
  ⟨fun ho => hwf (h.1 ho), hpkg.trans h.2⟩

/-- A step of an operation that leaves DRAM as it is. -/
theorem Keeps.of_dram (h : Keeps o s) (e : t.dram = s.dram) (hpkg : t.pkg = s.pkg := by rfl) : Keeps o t :=
  h.of_wf (fun hs => (congrArg Memory.wf e).trans hs) hpkg

/-- The state of a pair that a call gives. -/
theorem Keeps.of_pair {β : Type} {p : β × State} {b : β} (h : Keeps o p.2) (e : p = (b, t)) : Keeps o t := by
  subst e
  exact h

/-- The state of a triple that a call gives. -/
theorem Keeps.of_triple {β γ : Type} {p : β × γ × State} {b : β} {c : γ} (h : Keeps o p.2.2) (e : p = (b, c, t)) :
    Keeps o t := by
  subst e
  exact h

theorem Keeps.ite {c : Prop} [Decidable c] (hs : Keeps o s) (ht : Keeps o t) : Keeps o (if c then s else t) := by
  split
  · exact hs
  · exact ht

/-- A fold of steps that keep the DRAM of a part of what they carry. -/
theorem Keeps.foldl_of {α β : Type} (p : β → State) {f : β → α → β} {b : β}
    (hf : ∀ x, Keeps o (p x) → ∀ a, Keeps o (p (f x a))) {l : List α} (h : Keeps o (p b)) : Keeps o (p (l.foldl f b)) :=
  List.foldlRecOn (motive := fun x => Keeps o (p x)) l f h fun x hx a _ => hf x hx a

theorem Keeps.foldl {α : Type} {f : State → α → State} (hf : ∀ s, Keeps o s → ∀ x, Keeps o (f s x)) {l : List α}
    (h : Keeps o s) : Keeps o (l.foldl f s) :=
  .foldl_of id hf h

theorem Keeps.getD {r : Option State} (hr : OptKeeps o (·) r) (h : Keeps o s) : Keeps o (r.getD s) := by
  cases r with
  | none => exact h
  | some t => exact hr t rfl

theorem Answers.map {ε α β : Type} {E : ε → Prop} {Q : α → Prop} {R : β → Prop} {r : Except ε α} {f : α → β}
    (h : Answers E Q r) (hf : ∀ x, Q x → R (f x)) : Answers E R (r.map f) := by
  cases r with
  | ok x => exact hf x h
  | error e => exact h

theorem Answers.bind {ε α β : Type} {E : ε → Prop} {Q : α → Prop} {R : β → Prop} {r : Except ε α} {k : α → Except ε β}
    (h : Answers E Q r) (hk : ∀ x, Q x → Answers E R (k x)) : Answers E R (r >>= k) := by
  cases r with
  | ok x => exact hk x h
  | error e => exact h

theorem Answers.ok {ε α : Type} {E : ε → Prop} {Q : α → Prop} {r : Except ε α} {x : α} (h : Answers E Q r) (e : r = .ok x) : Q x := by
  subst e
  exact h

theorem Answers.error {ε α : Type} {E : ε → Prop} {Q : α → Prop} {r : Except ε α} {x : ε} (h : Answers E Q r)
    (e : r = .error x) : E x := by
  subst e
  exact h

theorem Answers.ite {ε α : Type} {E : ε → Prop} {Q : α → Prop} {c : Prop} [Decidable c] {r q : Except ε α} (hr : Answers E Q r)
    (hq : Answers E Q q) : Answers E Q (if c then r else q) := by
  split
  · exact hr
  · exact hq

/-- An answer without a state is bound: what follows holds whatever it is. -/
theorem Answers.bind_any {ε α β : Type} {R : β → Prop} {r : Except ε α} {k : α → Except ε β}
    (hk : ∀ x, Answers (fun _ => True) R (k x)) : Answers (fun _ => True) R (r >>= k) := by
  cases r with
  | ok x => exact hk x
  | error e => trivial

/-- The state with the value that an answer is. -/
theorem OkKeeps.of_ok {ε α : Type} {r : Except ε α} {x : α} (p : α → State) (e : r = .ok x) (h : OkKeeps o p r) : Keeps o (p x) :=
  h.ok e

theorem OptKeeps.none {α : Type} {p : α → State} : OptKeeps o p none := nofun

theorem OptKeeps.some {α : Type} {p : α → State} {x : α} (h : Keeps o (p x)) : OptKeeps o p (some x) := by
  rintro _ ⟨⟩
  exact h

theorem OptKeeps.ite {α : Type} {p : α → State} {c : Prop} [Decidable c] {r q : Option α} (hr : OptKeeps o p r) (hq : OptKeeps o p q) :
    OptKeeps o p (if c then r else q) := by
  split
  · exact hr
  · exact hq

theorem OptKeeps.map {α β : Type} {p : α → State} {q : β → State} {r : Option α} {f : α → β} (h : OptKeeps o p r)
    (hf : ∀ x, Keeps o (p x) → Keeps o (q (f x))) : OptKeeps o q (r.map f) := by
  cases r with
  | none => exact .none
  | some x => exact .some (hf x (h x rfl))

theorem OptKeeps.bind {α β : Type} {p : α → State} {q : β → State} {r : Option α} {f : α → Option β} (h : OptKeeps o p r)
    (hf : ∀ x, Keeps o (p x) → OptKeeps o q (f x)) : OptKeeps o q (r.bind f) := by
  cases r with
  | none => exact .none
  | some x => exact hf x (h x rfl)

/-- An outcome is a next state, whose DRAM is canonical where that of `o` is. -/
def EndsSound (o : State) (r : Outcome) : Prop := ∃ t, r = .next t ∧ (dramSound o = true → dramSound t = true)

theorem Ends.sound {r : Outcome} (h : Ends o r) : EndsSound o r := by
  obtain ⟨t, ht, hk⟩ := h
  exact ⟨t, ht, hk.1⟩

theorem Ends.of_next {r : Outcome} (h : Ends o r) (e : r = .next t) : Keeps o t := by
  obtain ⟨u, hu, hk⟩ := h
  cases hu.symm.trans e
  exact hk

theorem Ends.next (h : Keeps o s) : Ends o (.next s) := ⟨s, rfl, h⟩

theorem Ends.ite {c : Prop} [Decidable c] {r q : Outcome} (hr : Ends o r) (hq : Ends o q) : Ends o (if c then r else q) := by
  split
  · exact hr
  · exact hq

end

end Sys2Proof.Machine
end

/-! ## DRAM stays canonical: units, registers and memory (09, 11) -/
section
namespace Sys2Proof.Machine

open Sys2Proof

variable {o s : State}

/-! ### Units looked up and replaced -/

theorem State.setCore_keeps {c : Nat} {x : Core} (h : Keeps o s) : Keeps o (s.setCore c x) := h

theorem State.setGrove_keeps {g : Nat} {x : Grove} (h : Keeps o s) : Keeps o (s.setGrove g x) := h

theorem State.setArray_keeps {a : Nat} {x : MArray} (h : Keeps o s) : Keeps o (s.setArray a x) := h

theorem State.setStand_keeps {n : Nat} {x : Stand} (h : Keeps o s) : Keeps o (s.setStand n x) := h

theorem State.setNet_keeps {n : Nat} {x : Net} (h : Keeps o s) : Keeps o (s.setNet n x) := h

theorem State.setPart_keeps {p : Nat} {x : Part} (h : Keeps o s) : Keeps o (s.setPart p x) := h

theorem State.onPart_keeps {p : Nat} {f : Part → Part} (h : Keeps o s) : Keeps o (s.onPart p f) := by
  unfold State.onPart
  split
  · exact State.setPart_keeps h
  · exact h

theorem State.focus_keeps {t : Nat} (h : Keeps o s) : Keeps o (s.focus t) := by
  unfold State.focus
  split
  · exact h
  · split <;> exact h

theorem State.onThread_keeps {t : Nat} {f : Thread → Thread} (h : Keeps o s) : Keeps o (s.onThread t f) := .ite h h

theorem State.onTh_keeps {f : Thread → Thread} (h : Keeps o s) : Keeps o (s.onTh f) := h

/-! ### Registers and results on their way (02 R31, R32, 06 R131-R138) -/

theorem State.sendFrom_keeps {src tid : Nat} {m : Msg} (h : Keeps o s) : Keeps o (s.sendFrom src tid m) := h

theorem State.send_keeps {tid : Nat} {m : Msg} (h : Keeps o s) : Keeps o (s.send tid m) := State.sendFrom_keeps h

theorem State.sendRelease_keeps {scope : Nat} {m : Msg} (h : Keeps o s) : Keeps o (s.sendRelease scope m) := h

theorem State.pulse_keeps {unit grove line : Nat} (h : Keeps o s) : Keeps o (s.pulse unit grove line) :=
  .ite h (State.sendFrom_keeps h)

theorem State.onCore_keeps {f : Core → Core} (h : Keeps o s) : Keeps o (s.onCore f) := State.setCore_keeps h

theorem writeL2wp_keeps {g : Nat} {v : Word} (h : Keeps o s) : Keeps o (writeL2wp g v s) := .ite h (State.setGrove_keeps h)

/-- Results that reach their registers leave DRAM. -/
theorem Keeps.of_results {s t : State} (h : Keeps o s) (r : ResultsOf s t) : Keeps o t := by
  obtain ⟨-, e⟩ := r
  rw [e]
  exact h

theorem tick_keeps {n : Nat} (h : Keeps o s) : Keeps o (tick n s) := h.of_results (tick_results n s)

theorem flushPend_keeps (h : Keeps o s) : Keeps o (flushPend s) := h.of_results (flushPend_results s)

theorem State.pushW_keeps {lat : Nat} {w : RegWrite} (h : Keeps o s) : Keeps o (s.pushW lat w) := h

theorem State.raise_keeps {lat : Nat} {f : Flags} (h : Keeps o s) : Keeps o (s.raise lat f) := .ite h (State.pushW_keeps h)

theorem State.pushAcquire_keeps {acq : Option Nat} {dest : LoadDest} {val : LoadVal} (h : Keeps o s) :
    Keeps o (s.pushAcquire acq dest val) :=
  h

theorem State.pushLoad_keeps {dest : LoadDest} {val : LoadVal} (h : Keeps o s) : Keeps o (s.pushLoad dest val) :=
  State.pushAcquire_keeps h

theorem State.fillLoad_keeps {tid load : Nat} {val : LoadVal} (h : Keeps o s) : Keeps o (s.fillLoad tid load val) :=
  State.onThread_keeps h

theorem countEvent_keeps {core : Nat} {priv : BitVec 2} {ev : Nat} (h : Keeps o s) : Keeps o (countEvent core priv ev s) :=
  .ite (State.setCore_keeps h) h

theorem State.count_keeps {ev : Nat} (h : Keeps o s) : Keeps o (s.count ev) := countEvent_keeps h

theorem State.draw_keeps (h : Keeps o s) : Keeps o (s.draw) := h

/-! ### Addresses and memory (09 R216-R230, 11 R243-R248) -/

theorem applyUpdate_keeps {st home : Nat} {stamp : List Nat} {bytes : List (Nat × Byte)} (h : Keeps o s) :
    Keeps o (applyUpdate st home stamp bytes s) :=
  State.setStand_keeps h

theorem applyUpTo_keeps {st : Nat} {t : List Nat} (h : Keeps o s) : Keeps o (applyUpTo st t s) :=
  .ite h (.foldl (fun _ h1 _ => applyUpdate_keeps h1) h)

theorem syncStand_keeps {st : Nat} (h : Keeps o s) : Keeps o (syncStand st s) := applyUpTo_keeps h

theorem syncAll_keeps (h : Keeps o s) : Keeps o (syncAll s) :=
  syncStand_keeps (syncStand_keeps (syncStand_keeps (syncStand_keeps h)))

theorem stampWrite_keeps {home : Nat} {w : Writer} {bytes : List (Nat × Byte)} (h : Keeps o s) :
    Keeps o (stampWrite home w bytes s) :=
  .ite (.foldl (fun _ h1 _ => .ite h1 (.ite (applyUpdate_keeps h1) (State.send_keeps h1))) (State.setStand_keeps (applyUpTo_keeps h)))
    (applyUpTo_keeps (.foldl (fun _ h1 _ => .ite h1 (.ite (applyUpdate_keeps h1) (State.send_keeps h1))) (State.setStand_keeps
    (applyUpTo_keeps h))))

theorem wakeSpinners_keeps {hit : Loc → Bool} (h : Keeps o s) : Keeps o (wakeSpinners hit s) := h

theorem writeBack_keeps {line : Nat} (h : Keeps o s) : Keeps o (writeBack line s) := by
  have hdram (hs : dramSound s = true) (l : List (Nat × Byte)) (w : Table (Byte × List Nat)) :
      Memory.wf (l.foldl (fun m p => Memory.write m p.1 p.2) (w.foldl (fun m p => Memory.write m p.1 p.2.1) s.dram)) = true :=
    Memory.wf_foldl_write _ _ l _ (Memory.wf_foldl_write _ (fun p => p.2.1) w _ hs)
  unfold writeBack
  dsimp only
  split
  · exact h.of_wf fun hs => hdram hs _ _
  · exact State.draw_keeps (h.of_wf fun hs => hdram hs _ _)

theorem holdElems_keeps {es : List Nat} (h : Keeps o s) : Keeps o (holdElems es s) := .ite h h

theorem writeThrough_keeps {tid : Nat} (h : Keeps o s) : Keeps o (writeThrough tid s) :=
  h.of_wf fun hs => Memory.wf_foldl_write (fun p : Nat × Byte × List Nat => p.1) (fun p => p.2.1) _ _ hs

theorem evictL2_keeps {a : Nat} (h : Keeps o s) : Keeps o (evictL2 a s) := by
  unfold evictL2
  split
  · exact h
  · exact writeBack_keeps (State.draw_keeps h)

theorem putBytes_keeps {w : Writer} {mt : Nat} {bytes : List (Nat × Byte)} (h : Keeps o s) : Keeps o (putBytes w mt bytes s) := by
  unfold putBytes
  split
  · exact (holdElems_keeps h).of_wf fun hs => Memory.wf_foldl_write _ _ bytes _ hs
  · exact .ite h h

theorem noteWrite_keeps {a : Nat} (h : Keeps o s) : Keeps o (noteWrite a s) := wakeSpinners_keeps h

theorem homeWrite_keeps {w : Writer} {mt : Nat} {bytes : List (Nat × Byte)} (h : Keeps o s) :
    Keeps o (homeWrite w mt bytes s) := by
  unfold homeWrite
  split
  · exact h
  · exact noteWrite_keeps (.ite (stampWrite_keeps (.ite (evictL2_keeps (putBytes_keeps h)) (putBytes_keeps h))) (.ite (evictL2_keeps
      (putBytes_keeps h)) (putBytes_keeps h)))

theorem lsStoreByte_keeps {c off : Nat} {b : Byte} (h : Keeps o s) : Keeps o (lsStoreByte c off b s) :=
  .ite h (State.setCore_keeps h)

theorem storeGroup_keeps {w : Writer} {g : List (Loc × Byte)} (h : Keeps o s) : Keeps o (storeGroup w s g) := by
  unfold storeGroup
  split
  · exact h
  · exact homeWrite_keeps h
  · refine wakeSpinners_keeps ?_
    refine .foldl (fun _ h1 _ => ?_) h
    split
    · exact lsStoreByte_keeps h1
    · exact State.setGrove_keeps h1
    · exact h1

theorem storeLocs_keeps {w : Writer} {bytes : List (Loc × Byte)} (h : Keeps o s) : Keeps o (storeLocs w bytes s) :=
  .foldl (fun _ h1 _ => storeGroup_keeps h1) h

theorem retire_keeps {b : BadStorage} (h : Keeps o s) : Keeps o (retire b s) := by
  unfold retire
  dsimp only
  split
  · exact h
  · split
    · exact h
    · split
      · exact .ite h h
      · exact h

theorem settleBad_keeps {n : Nat} {ls : List Loc} (h : Keeps o s) : BothKeep o (·.2.2) (·) (settleBad n ls s) := by
  induction n generalizing s with
  | zero => exact h
  | succ n ih =>
    unfold settleBad
    split
    · exact h
    · exact .ite (ih (retire_keeps h)) h

theorem countWalk_keeps {va root : Nat} (h : Keeps o s) : Keeps o (countWalk va root s) := by
  unfold countWalk
  split
  · exact h
  · refine .foldl (fun _ h1 _ => ?_) h
    split
    · exact .ite (retire_keeps h1) h1
    · exact h1

theorem fillTlb_keeps {e : TlbEntry} {u : Nat × Nat} (h : Keeps o s) : Keeps o (fillTlb e s u) := .ite h (State.draw_keeps h)

theorem fillTlbs_keeps {w : Who} {e : TlbEntry} (h : Keeps o s) : Keeps o (fillTlbs w e s) :=
  .ite h (.foldl (fun _ h1 _ => fillTlb_keeps h1) h)

theorem findLeaf_keeps {w : Who} {va root : Nat} (h : Keeps o s) : Keeps o (findLeaf w va root s).2 := by
  unfold findLeaf
  dsimp only
  split
  · exact countWalk_keeps h
  · split
    · split
      · exact countWalk_keeps h
      · split
        · exact State.draw_keeps (countWalk_keeps h)
        · exact State.draw_keeps (countWalk_keeps h)
    · split
      · exact State.draw_keeps (countWalk_keeps h)
      · exact State.draw_keeps (countWalk_keeps h)

theorem useLeaf_keeps {w : Who} {stores : Bool} {va : Nat} {leaf : Nat × Nat × Nat} (h : Keeps o s) :
    Keeps o (useLeaf w stores va leaf s) :=
  fillTlbs_keeps (.ite h (homeWrite_keeps h))

theorem translate_keeps {w : Who} {k : Access} {va : Nat} (h : Keeps o s) : OkKeeps o (·.2.2) (translate w k va s) := by
  unfold translate
  split
  · exact trivial
  · split
    · exact trivial
    · exact trivial
    next e =>
      split
      · exact trivial
      · exact .ite trivial (.ite trivial (useLeaf_keeps (Keeps.of_pair (findLeaf_keeps h) e)))

theorem completeWays_keeps {g : Nat} (h : Keeps o s) : Keeps o (completeWays g s) :=
  .ite (State.setGrove_keeps (.ite (.foldl (fun _ h1 _ => writeBack_keeps h1) (State.draw_keeps h)) h)) h

theorem settleWays_keeps {g va : Nat} (h : Keeps o s) : Keeps o (settleWays g va s) := .ite (completeWays_keeps h) h

theorem resolve_keeps {w : Who} {k : Access} {va : Nat} (h : Keeps o s) : OkKeeps o (·.2) (resolve w k va s) := by
  unfold resolve
  generalize 2 ^ 57 = top
  generalize windowBase = base
  generalize 0x8800 = own
  refine .ite trivial ?_
  split
  · split
    · exact trivial
    · exact .ite trivial (.ite trivial h)
  · split
    · extract_lets t x off
      have ht : Keeps o t := settleWays_keeps h
      refine .ite (.ite trivial ?_) (.map (translate_keeps ht) fun _ h1 => h1)
      split
      · exact ht
      · exact trivial
    · exact .map (translate_keeps h) fun _ h1 => h1

theorem resolveSpan_keeps {w : Who} {k : Access} {n va len : Nat} (h : Keeps o s) : OkKeeps o (·.2) (resolveSpan w k n va len s) := by
  induction n generalizing s va len with
  | zero => exact h
  | succ n ih =>
    unfold resolveSpan
    dsimp only
    split
    · exact h
    · split
      · exact trivial
      next e =>
        have h1 := (resolve_keeps h).ok e
        split
        · exact trivial
        next e1 =>
          have h2 := (ih h1).ok e1
          exact h2

theorem usePart_keeps {k : Access} {part va n : Nat} (h : Keeps o s) : Keeps o (usePart k part va n s) := by
  unfold usePart
  split
  next e => exact (resolveSpan_keeps h).ok e
  · exact h

theorem storeAtHomes_keeps {bytes : List (Loc × Byte)} (h : Keeps o s) : Keeps o (storeAtHomes bytes s) := by
  unfold storeAtHomes
  refine .foldl (fun _ h1 _ => ?_) h
  split
  · exact storeGroup_keeps h1
  · exact storeGroup_keeps h1

theorem toDram_keeps {ls : List Loc} (h : Keeps o s) : Keeps o (toDram ls s) := .foldl (fun _ h1 _ => writeBack_keeps h1) h

theorem partRelease_keeps {part va : Nat} {bs : List Byte} (h : Keeps o s) : Keeps o (partRelease part va bs s) := by
  unfold partRelease
  split
  next e => exact toDram_keeps (storeAtHomes_keeps ((resolveSpan_keeps h).ok e))
  · exact h

theorem dropReplicas_keeps {line : Nat} (h : Keeps o s) : Keeps o (dropReplicas line s) := by
  obtain ⟨⟨st, ms, e⟩, -⟩ := dropReplicas_spec line s
  rw [e]
  exact h

theorem dropReplica_keeps {st line : Nat} (h : Keeps o s) : Keeps o (dropReplica st line s) := State.setStand_keeps h

theorem fillReplica_keeps {stand a mt : Nat} (h : Keeps o s) : Keeps o (fillReplica stand a mt s) :=
  .ite h (.ite (State.setStand_keeps (applyUpTo_keeps h)) (.ite h (.ite (State.draw_keeps h) (State.setStand_keeps (applyUpTo_keeps
    (dropReplica_keeps (State.draw_keeps h)))))))

theorem fillL1_keeps {h' line : Nat} {bytes : List Byte} (h : Keeps o s) : Keeps o (fillL1 h' line bytes s) :=
  .ite (State.setCore_keeps h) (State.setCore_keeps (State.draw_keeps h))

theorem touchL1_keeps {core a mt : Nat} (h : Keeps o s) : Keeps o (touchL1 core a mt s) := by
  unfold touchL1
  split
  · exact h
  · dsimp only
    split
    · exact fillL1_keeps h
    · exact .ite h (.ite (State.draw_keeps h) (fillL1_keeps (State.draw_keeps h)))

theorem touchLines_keeps {core : Nat} {ls : List Loc} (h : Keeps o s) : Keeps o (touchLines core ls s) := by
  refine .foldl_of (Prod.fst : State × Option Nat → State) (fun _ h1 _ => ?_) h
  split
  · split
    · exact h1
    · exact touchL1_keeps h1
  · exact h1

theorem storeL1_keeps {core : Nat} {bytes : List (Loc × Byte)} (h : Keeps o s) : Keeps o (storeL1 core bytes s) := by
  unfold storeL1
  refine .foldl (fun _ h1 _ => ?_) h
  split
  · dsimp only
    split
    · exact State.setCore_keeps h1
    · exact h1
  · exact h1

theorem dropL1_keeps {core : Nat} {l : Loc} (h : Keeps o s) : Keeps o (dropL1 core l s) := by
  unfold dropL1
  split
  · exact .ite (State.setCore_keeps h) h
  · exact h

theorem dropL1All_keeps {line : Nat} (h : Keeps o s) : Keeps o (dropL1All line s) := h

theorem clearL1_keeps {wide : Bool} {core : Nat} (h : Keeps o s) : Keeps o (clearL1 wide core s) :=
  .ite (.ite h h) (.ite h (State.setCore_keeps h))

theorem fillReplicas_keeps {stand : Nat} {ls : List Loc} (h : Keeps o s) : Keeps o (fillReplicas stand ls s) := by
  unfold fillReplicas
  refine .foldl (fun _ h1 _ => ?_) h
  split
  · exact fillReplica_keeps h1
  · exact h1

/-! ### Logs, partials and records (17 R331-R335, 18 R356-R358, 20 R375) -/

theorem notifySystem_keeps {part : Nat} (h : Keeps o s) : Keeps o (notifySystem part s) := h

theorem State.logAsync_keeps {part : Nat} {e : LogEntry} (h : Keeps o s) : Keeps o (State.logAsync part e s) := by
  unfold State.logAsync
  split
  · exact h
  · exact .ite (partRelease_keeps (State.setPart_keeps h)) (State.onPart_keeps (.ite (partRelease_keeps (partRelease_keeps
      (State.setPart_keeps h))) (notifySystem_keeps (partRelease_keeps (partRelease_keeps (State.setPart_keeps h))))))

theorem State.logMonitor_keeps {e : LogEntry} (h : Keeps o s) : Keeps o (State.logMonitor e s) := .ite h h

theorem hwStore_keeps {part va : Nat} {bs : List Byte} (h : Keeps o s) : Keeps o (hwStore part va bs s) := by
  unfold hwStore
  split
  next e =>
    have h1' := (resolveSpan_keeps h).ok e
    split
    · exact State.logAsync_keeps (storeAtHomes_keeps h1')
    · exact storeAtHomes_keeps h1'
  · exact h

theorem State.logFault_keeps {core part : Nat} {e : LogEntry} (h : Keeps o s) : Keeps o (State.logFault core part e s) :=
  .ite (State.logMonitor_keeps h) (State.logAsync_keeps h)

theorem State.logSender_keeps {part : Nat} {e : LogEntry} (h : Keeps o s) : Keeps o (State.logSender part e s) :=
  State.logFault_keeps h

theorem State.orAew_keeps {w : Writer} {part : Nat} {f : Flags} (h : Keeps o s) : Keeps o (State.orAew w part f s) := by
  unfold State.orAew
  split
  · exact h
  · split
    · exact h
    · dsimp only
      split
      next e =>
        have h1' := (resolve_keeps h).ok e
        exact .ite (State.logAsync_keeps h1') (storeLocs_keeps h1')
      · exact h

theorem recordWrite_keeps {p : Part} {h' : Nat} {bs : List Byte} (h : Keeps o s) : Keeps o (recordWrite p h' bs s) :=
  homeWrite_keeps h

theorem arrivePartial_keeps {part h' : Nat} {p : Partial} {sender : LogEntry} (h : Keeps o s) :
    Keeps o (arrivePartial part h' p sender s) := by
  unfold arrivePartial
  split
  · exact h
  · exact .ite (recordWrite_keeps h) (State.logSender_keeps h)

theorem recordHome_keeps {part addr h' : Nat} {set : Option (Nat × Nat)} {issuer : LogEntry} (h : Keeps o s) :
    Keeps o (recordHome part addr h' set issuer s) := by
  unfold recordHome
  split
  next e => exact State.logAsync_keeps (retire_keeps ((settleBad_keeps h).error e))
  next e => exact homeWrite_keeps ((settleBad_keeps h).ok e)

/-! ### Accesses where they are serialised (11 R244, R260-R266) -/

theorem unlockRows_keeps {c : NearCmd} (h : Keeps o s) : Keeps o (unlockRows c s) := by
  unfold unlockRows
  split
  · exact h
  · exact storeLocs_keeps (State.setStand_keeps h)

theorem settleRows_keeps {ls : List Loc} (h : Keeps o s) : Keeps o (settleRows ls s) :=
  .foldl (fun _ h1 _ => unlockRows_keeps h1) h

theorem coreStore_keeps {part core : Nat} {w : Writer} {bytes : List (Loc × Byte)} {issuer : LogEntry} (h : Keeps o s) :
    Keeps o (coreStore part core w bytes issuer s) :=
  storeL1_keeps (storeLocs_keeps (settleRows_keeps (.ite (State.logFault_keeps h) h)))

theorem logReduction_keeps {tid : Nat} {op : AtomOp} {cause : Nat} (h : Keeps o s) : Keeps o (logReduction tid op cause s) :=
  State.onThread_keeps h

theorem sawHome_keeps {stand : Nat} {ls : List Loc} (h : Keeps o s) : Keeps o (sawHome stand ls s) := by
  unfold sawHome
  split
  · exact .ite (applyUpTo_keeps h) h
  · exact h

theorem markStored_keeps {t : Thread} {op : AtomOp} (h : Keeps o s) : Keeps o (markStored t op s) := by
  unfold markStored
  split
  next e => exact (resolve_keeps h).ok e
  · exact h

theorem applyAtom_keeps {t : Thread} {op : AtomOp} {ls : List Loc} (h : Keeps o s) : Keeps o (applyAtom t op ls s) := by
  unfold applyAtom
  dsimp only
  split
  · exact State.fillLoad_keeps (State.orAew_keeps (.foldl (fun _ h1 _ => dropL1_keeps h1) (sawHome_keeps (.ite (storeLocs_keeps (.ite
      (markStored_keeps (settleRows_keeps h)) (settleRows_keeps h))) (.ite (markStored_keeps (settleRows_keeps h))
      (settleRows_keeps h))))))
  · exact State.orAew_keeps (.foldl (fun _ h1 _ => dropL1_keeps h1) (sawHome_keeps (.ite (storeLocs_keeps (.ite (markStored_keeps
      (settleRows_keeps h)) (settleRows_keeps h))) (.ite (markStored_keeps (settleRows_keeps h)) (settleRows_keeps h)))))

theorem performAtom_keeps {t : Thread} {op : AtomOp} (h : Keeps o s) : Keeps o (performAtom t op s) := by
  unfold performAtom
  split
  · exact .ite (State.fillLoad_keeps h) (applyAtom_keeps h)
  · split
    · exact logReduction_keeps h
    next e =>
      have h1' := (resolve_keeps h).ok e
      dsimp only
      split
      next e => exact logReduction_keeps (retire_keeps ((settleBad_keeps h1').error e))
      next e => exact applyAtom_keeps ((settleBad_keeps h1').ok e)

theorem acquireL1_keeps {scope core : Nat} (h : Keeps o s) : Keeps o (acquireL1 scope core s) := .ite h (clearL1_keeps h)

theorem acquireAt_keeps {core : Nat} (h : Keeps o s) : Keeps o (acquireAt core s) := acquireL1_keeps (syncStand_keeps h)

/-! ### Places of accesses (09 R231, R234, R235) -/

theorem retireTrap_keeps {t : Trap} (h : Keeps o s) : Keeps o (retireTrap t s) := by
  unfold retireTrap
  split
  · exact retire_keeps h
  · exact h

theorem pulseDeck_keeps {d : Deck} {old : Nat} (h : Keeps o s) : Keeps o (pulseDeck d old s) := by
  unfold pulseDeck
  split
  · exact .ite (State.pulse_keeps h) h
  · exact h

theorem deckStore_keeps {d : Deck} (h : Keeps o s) : Keeps o (deckStore d s) :=
  pulseDeck_keeps (wakeSpinners_keeps (State.setCore_keeps h))

theorem spanPlace_keeps {k : Access} {va : Word} {len align fidx fval : Nat} (h : Keeps o s) :
    OkKeeps o (·.2) (spanPlace k va len align fidx fval s) := by
  unfold spanPlace
  split
  · exact trivial
  · split
    next e => exact (resolveSpan_keeps h).ok e
    · exact trivial

theorem checkData_keeps {va : Word} {ls : List Loc} (h : Keeps o s) : OkKeeps o (·) (checkData va ls s) := by
  unfold checkData
  split
  next e => exact (settleBad_keeps h).ok e
  · exact trivial

/-! ### Accesses that are performed (11 R242-R255, 12 R270) -/

theorem putEntry_keeps {tid i : Nat} {e : StoreEntry} (h : Keeps o s) : Keeps o (putEntry tid i e s) := State.onThread_keeps h

theorem storePartialHome_keeps {part : Nat} {q : QStore} (h : Keeps o s) : Keeps o (storePartialHome part q s) := by
  unfold storePartialHome
  split
  · exact arrivePartial_keeps h
  · exact h

theorem storePiece_keeps {t : Thread} {i j : Nat} {q : QStore} (h : Keeps o s) : Keeps o (storePiece t i j q s) := by
  unfold storePiece
  split
  · exact h
  · exact .ite (storePartialHome_keeps (coreStore_keeps (.ite (State.onThread_keeps h) (putEntry_keeps h)))) (coreStore_keeps (.ite
      (State.onThread_keeps h) (putEntry_keeps h)))

theorem storeHome_keeps {tid no n : Nat} (h : Keeps o s) : Keeps o (storeHome tid no n s) := by
  induction n generalizing s with
  | zero => exact h
  | succ n ih =>
    unfold storeHome
    split
    · exact h
    · split
      · exact h
      · split
        · exact ih (storePiece_keeps h)
        · exact h

theorem settleRaised_keeps {t : Thread} {deep all : Bool} {ls : List Loc} (h : Keeps o s) :
    Keeps o (settleRaised t deep all ls s) :=
  .foldl (fun _ h1 _ => .ite (storeHome_keeps h1) h1) h

theorem reachPlaces_keeps {stand : Nat} {ls : List Loc} (h : Keeps o s) : Keeps o (reachPlaces stand ls s) :=
  fillReplicas_keeps (.ite (syncStand_keeps (settleRows_keeps h)) (settleRows_keeps h))

theorem standRead_keeps {stand : Nat} {ls : List Loc} (h : Keeps o s) : Keeps o (standRead stand ls s).2 := reachPlaces_keeps h

theorem readAs_keeps {t : Thread} {deep : Bool} {ls : List Loc} (h : Keeps o s) : Keeps o (readAs t deep ls s).2 :=
  touchLines_keeps (reachPlaces_keeps (settleRaised_keeps h))

theorem readPart_keeps {tid id : Nat} {p : LoadPart} (h : Keeps o s) : Keeps o (readPart tid id p s) := by
  unfold readPart
  split
  · exact h
  · split
    · split
      · exact State.fillLoad_keeps h
      · dsimp only
        split
        · split
          · exact acquireL1_keeps (State.fillLoad_keeps (readAs_keeps h))
          · exact State.fillLoad_keeps (readAs_keeps h)
        · exact State.fillLoad_keeps (readAs_keeps h)
    · exact h

theorem readLoad_keeps {tid id : Nat} (h : Keeps o s) : Keeps o (readLoad tid id s) := by
  unfold readLoad
  split
  · split
    · exact State.fillLoad_keeps h
    · exact .foldl (fun _ h1 _ => readPart_keeps h1) h
    · exact h
  · exact h

theorem rereadAll_keeps {hit : Loc → Bool} (h : Keeps o s) : Keeps o (rereadAll hit s) := h

theorem discardLine_keeps {w : Writer} {a mt : Nat} (h : Keeps o s) : Keeps o (discardLine w a mt s) :=
  noteWrite_keeps (.ite (stampWrite_keeps (.ite (.ite h (rereadAll_keeps h)) (dropL1All_keeps (dropReplicas_keeps (.ite h
    (rereadAll_keeps h)))))) (.ite (.ite h (rereadAll_keeps h)) (dropL1All_keeps (dropReplicas_keeps (.ite h (rereadAll_keeps h))))))

theorem lineHome_keeps {t : Thread} {i : Nat} {discard : Bool} {l : Loc} {clocks : List (List Nat)} (h : Keeps o s) :
    Keeps o (lineHome t i discard l clocks s) := by
  unfold lineHome
  dsimp only
  split
  · exact .ite (discardLine_keeps (State.onThread_keeps h)) (writeBack_keeps (State.onThread_keeps h))
  · exact State.onThread_keeps h

theorem advanceHome_keeps {t : Thread} {i : Nat} {publish : Bool} {core off c : Nat} (h : Keeps o s) :
    Keeps o (advanceHome t i publish core off c s) :=
  deckStore_keeps (State.onThread_keeps h)

theorem nodeEnd_keeps {part : Nat} {desc : Word} (h : Keeps o s) : Keeps o (nodeEnd part desc s) :=
  .ite (usePart_keeps h) (hwStore_keeps (usePart_keeps h))

theorem raiseStore_keeps {t : Thread} {i lvl : Nat} {q : QStore} (h : Keeps o s) : Keeps o (raiseStore t i lvl q s) :=
  storePartialHome_keeps (putEntry_keeps h)

theorem storeAt_keeps {scope : Nat} {t : Thread} {i : Nat} {q : QStore} (h : Keeps o s) : Keeps o (storeAt scope t i q s) :=
  .ite (.ite (raiseStore_keeps h) h) (storeHome_keeps h)

theorem performEntry_keeps {scope : Nat} {t : Thread} {i : Nat} {e : StoreEntry} (h : Keeps o s) :
    Keeps o (performEntry scope t i e s) := by
  unfold performEntry
  dsimp only
  split
  · exact storeAt_keeps h
  · exact lineHome_keeps h
  · exact advanceHome_keeps h
  · exact recordHome_keeps (State.onThread_keeps h)
  · exact nodeEnd_keeps (State.onThread_keeps h)
  · exact h

theorem settleOwn_keeps {t : Thread} {no : Nat} {ls : List Loc} (h : Keeps o s) : Keeps o (settleOwn t no ls s) := by
  unfold settleOwn
  refine .foldl (fun _ h1 _ => ?_) h
  split
  · exact .ite (storeHome_keeps h1) h1
  · exact h1

theorem beforeEntry_keeps {t : Thread} {e : StoreEntry} (h : Keeps o s) : Keeps o (beforeEntry t e s) :=
  .ite (writeThrough_keeps (settleRaised_keeps (settleOwn_keeps h))) (settleRaised_keeps (settleOwn_keeps h))

theorem performNo_keeps {scope tid no : Nat} (h : Keeps o s) : Keeps o (performNo scope tid s no) := by
  unfold performNo
  split
  · exact h
  · split
    · exact .ite (readLoad_keeps (settleOwn_keeps h)) h
    · exact .ite (performAtom_keeps (State.onThread_keeps (settleRaised_keeps (settleOwn_keeps h)))) h
    · dsimp only
      split
      · split
        · exact .ite (performEntry_keeps (beforeEntry_keeps h)) h
        · exact beforeEntry_keeps h
      · exact h
    · exact h

theorem performBefore_keeps {scope tid no : Nat} (h : Keeps o s) : Keeps o (performBefore scope tid no s) := by
  unfold performBefore
  split
  · exact h
  · exact .ite (writeThrough_keeps (.ite (.foldl (fun _ h1 _ => performNo_keeps h1) h) (.foldl (fun _ h1 _ => .ite h1
      (storeHome_keeps h1)) (.foldl (fun _ h1 _ => performNo_keeps h1) h)))) (.ite (.foldl (fun _ h1 _ => performNo_keeps h1) h) (.foldl
      (fun _ h1 _ => .ite h1 (storeHome_keeps h1)) (.foldl (fun _ h1 _ => performNo_keeps h1) h)))

theorem performAt_keeps {scope tid : Nat} (h : Keeps o s) : Keeps o (performAt scope tid s) := performBefore_keeps h

theorem performAtoms_keeps {tid : Nat} (h : Keeps o s) : Keeps o (performAtoms tid s) := by
  unfold performAtoms
  split
  · exact performBefore_keeps h
  · exact h

theorem emptySlot_keeps {core : Nat} {slot : BitVec 2} (h : Keeps o s) : Keeps o (emptySlot core slot s) :=
  .foldl (fun _ h1 _ => performAt_keeps h1) h

theorem settleGrove_keeps {g : Nat} {ls : List Loc} (h : Keeps o s) : Keeps o (settleGrove g ls s) := by
  unfold settleGrove
  refine .foldl (fun _ h1 _ => ?_) h
  refine .foldl (fun _ h2 _ => ?_) h1
  split
  · exact .ite (storeHome_keeps h2) h2
  · exact h2

theorem makeRoom_keeps (h : Keeps o s) : Keeps o (makeRoom s) := by
  unfold makeRoom
  split
  · exact h
  · split
    · exact performNo_keeps h
    · exact performAt_keeps h

theorem queueEntry_keeps {e : Nat → StoreEntry} (h : Keeps o s) : Keeps o (queueEntry e s) := h

theorem queueStore_keeps {rel : Option Nat} {parts : List StorePart} {part : Option (Word × Partial × LogEntry)} {issuer : LogEntry}
    (h : Keeps o s) :
    Keeps o (queueStore rel parts part issuer s) :=
  .ite h (queueEntry_keeps (makeRoom_keeps h))

theorem queueAdvance_keeps {publish : Bool} {d : Deck} {c : Nat} (h : Keeps o s) : Keeps o (queueAdvance publish d c s) :=
  .ite (deckStore_keeps h) (queueEntry_keeps h)

theorem queueRecord_keeps {addr h' : Nat} {set : Option (Nat × Nat)} {issuer : LogEntry} (h : Keeps o s) :
    Keeps o (queueRecord addr h' set issuer s) :=
  .ite (recordHome_keeps (settleRaised_keeps h)) (queueEntry_keeps h)

theorem beforeReading_keeps {ls : List Loc} (h : Keeps o s) : Keeps o (beforeReading ls s) :=
  .ite (.ite (performAt_keeps (.foldl (fun _ h1 _ => performNo_keeps h1) h)) (.foldl (fun _ h1 _ => performNo_keeps h1) h)) h

end Sys2Proof.Machine
end

/-! ## DRAM stays canonical: threads, tasks and issue (02, 04, 06) -/
section
namespace Sys2Proof.Machine

open Sys2Proof

variable {o s : State}

/-! ### Traps, waits and what every family shares (06 R155, R156) -/

theorem advance_keeps {len : Nat} (h : Keeps o s) : Keeps o (advance len s) := State.onTh_keeps h

theorem jumpTo_keeps {pc : Word} (h : Keeps o s) : Keeps o (jumpTo pc s) := State.onTh_keeps h

theorem dissolveCrew_keeps {crew : Nat} (h : Keeps o s) : Keeps o (dissolveCrew crew s) := h

theorem closeStream_keeps {i : Nat} (h : Keeps o s) : Keeps o (closeStream i s) := by
  unfold closeStream
  split
  · exact State.onTh_keeps (.ite (State.send_keeps h) h)
  · exact h

theorem closeStreams_keeps (h : Keeps o s) : Keeps o (closeStreams s) :=
  closeStream_keeps (closeStream_keeps (closeStream_keeps (closeStream_keeps h)))

theorem discardReductions_keeps (h : Keeps o s) : Keeps o (discardReductions s) :=
  .foldl (fun _ h1 _ => State.logFault_keeps h1) (State.onTh_keeps h)

theorem endFocus_keeps {cause : Nat} (h : Keeps o s) : Keeps o (endFocus cause s) := by
  unfold endFocus
  dsimp only
  split
  · exact performAt_keeps (queueEntry_keeps (State.onTh_keeps (State.onCore_keeps (.ite (dissolveCrew_keeps (closeStreams_keeps (.ite h
      (discardReductions_keeps h)))) (closeStreams_keeps (.ite h (discardReductions_keeps h)))))))
  · exact State.onTh_keeps (State.onCore_keeps (.ite (dissolveCrew_keeps (closeStreams_keeps (.ite h (discardReductions_keeps h))))
      (closeStreams_keeps (.ite h (discardReductions_keeps h)))))

theorem dieFocus_keeps {cause : Nat} (h : Keeps o s) : Keeps o (dieFocus cause s) :=
  .ite (State.onTh_keeps (performAtoms_keeps h)) (endFocus_keeps (performAtoms_keeps h))

theorem takeTrap_keeps {t : Trap} (h : Keeps o s) : Keeps o (takeTrap t s) :=
  .ite (dieFocus_keeps (State.logMonitor_keeps (flushPend_keeps (retireTrap_keeps h)))) (State.onTh_keeps (State.count_keeps
    (flushPend_keeps (retireTrap_keeps h))))

theorem settle_keeps {r : Checked State} (h : Keeps o s) (hr : OkKeeps o (·) r) : Ends o (settle s r) := by
  cases r with
  | ok t => exact .next hr
  | error e => exact .next (takeTrap_keeps h)

theorem returnFromTrap_keeps (h : Keeps o s) : Ends o (returnFromTrap s) :=
  .ite (.next (takeTrap_keeps h)) (.ite (.next (takeTrap_keeps h)) (.next (State.onTh_keeps h)))

theorem waitFor_keeps {w : Wait} (h : Keeps o s) : Keeps o (waitFor w s) := State.onTh_keeps h

theorem holdFor_keeps {h' : Hold} (h : Keeps o s) : Keeps o (holdFor h' s) := State.onTh_keeps h

theorem holdForWork_keeps {work : List Nat} (h : Keeps o s) : Keeps o (holdForWork work s) := holdFor_keeps h

theorem writeS_keeps {lat : Nat} {d : BitVec 4} {x : Word} (h : Keeps o s) : Keeps o (writeS lat d x s) :=
  advance_keeps (State.pushW_keeps h)

theorem writeS16_keeps {lat : Nat} {d : BitVec 4} {x : Word} (h : Keeps o s) : Keeps o (writeS16 lat d x s) :=
  advance_keeps (State.pushW_keeps h)

theorem loadS_keeps {len : Nat} {d : BitVec 4} {x : Word} (h : Keeps o s) : Keeps o (loadS len d x s) :=
  advance_keeps (State.pushLoad_keeps h)

theorem bumpSrc_keeps {m : Mode} (h : Keeps o s) : Keeps o (bumpSrc m s) := .ite (State.onTh_keeps (State.count_keeps h)) h

theorem reductionTrap_keeps (h : Keeps o s) : OptKeeps o (·.2) (reductionTrap s) := by
  unfold reductionTrap
  split
  · exact .none
  · exact .some (State.onTh_keeps h)

theorem deferredError_keeps {go : State → Outcome} (h : Keeps o s) (hgo : ∀ u, Keeps o u → Ends o (go u)) :
    Ends o (deferredError s go) := by
  unfold deferredError
  split
  · exact .next (takeTrap_keeps (State.onTh_keeps h))
  · exact hgo _ h

theorem dataChecked_keeps {va : Word} {ls : List Loc} {go : State → Outcome} (h : Keeps o s)
    (hgo : ∀ u, Keeps o u → Ends o (go u)) :
    Ends o (dataChecked va ls s go) := by
  unfold dataChecked
  split
  · exact .next (takeTrap_keeps h)
  next e => exact hgo _ ((checkData_keeps h).ok e)

theorem readChecked_keeps {va : Word} {ls : List Loc} {go : List Byte → State → Outcome} (h : Keeps o s)
    (hgo : ∀ x u, Keeps o u → Ends o (go x u)) :
    Ends o (readChecked va ls s go) :=
  dataChecked_keeps h (fun _ h1 => .ite (.next (holdForWork_keeps (beforeReading_keeps h1))) (hgo _ _ (touchLines_keeps (reachPlaces_keeps
    (settleRaised_keeps (beforeReading_keeps h1))))))

theorem readOrLate_keeps {dest : LoadDest} {acq : Option Nat} {i : Instr} {a b va : Word} {ls : List Loc}
    {go : Nat → List Byte → State → Checked State} (h : Keeps o s)
    (hgo : ∀ x y u, Keeps o u → OkKeeps o (·) (go x y u)) :
    Ends o (readOrLate dest acq i a b va ls s go) :=
  dataChecked_keeps h (fun _ h1 => .ite (.next (advance_keeps (State.pushAcquire_keeps (beforeReading_keeps h1)))) (settle_keeps
    (touchLines_keeps (reachPlaces_keeps (settleRaised_keeps (beforeReading_keeps h1)))) (.map (hgo _ _ _ (State.pushLoad_keeps
    (touchLines_keeps (reachPlaces_keeps (settleRaised_keeps (beforeReading_keeps h1)))))) fun _ h2 => advance_keeps h2)))

theorem countIssue_keeps (h : Keeps o s) : Keeps o (countIssue s) :=
  .ite (countEvent_keeps (countEvent_keeps h)) (countEvent_keeps h)

theorem nextSlot_keeps (h : Keeps o s) : Keeps o (nextSlot s) := State.onCore_keeps h

theorem finishIssue_keeps {reloads : Bool} (h : Keeps o s) : Keeps o (finishIssue reloads s) :=
  .ite h (.ite (State.onTh_keeps h) (tick_keeps (State.onTh_keeps (.ite (nextSlot_keeps (.ite (State.onTh_keeps (countIssue_keeps h))
    (.ite (State.onTh_keeps (countIssue_keeps h)) (countIssue_keeps h)))) (.ite (State.onTh_keeps (countIssue_keeps h)) (.ite
    (State.onTh_keeps (countIssue_keeps h)) (countIssue_keeps h)))))))

/-! ### Tasks, counters and run queues (02 R16-R27) -/

theorem joinSpill_keeps {core : Nat} {e : RunEntry} (h : Keeps o s) : Keeps o (joinSpill core e s) := by
  unfold joinSpill
  dsimp only
  split
  · exact hwStore_keeps (State.draw_keeps (State.setCore_keeps h))
  · exact State.setCore_keeps h

theorem enqueue_keeps {core : Nat} {e : RunEntry} (h : Keeps o s) : Keeps o (enqueue core e s) :=
  .ite (State.setCore_keeps h) (.ite (joinSpill_keeps h) (State.setCore_keeps (.ite (State.logMonitor_keeps h) h)))

theorem admitInbound_keeps {core : Nat} (h : Keeps o s) : OptKeeps o (·) (admitInbound core s) := by
  unfold admitInbound
  dsimp only
  split
  · exact .ite (.some (State.setCore_keeps h)) (.ite (.some (joinSpill_keeps (State.setCore_keeps h))) .none)
  · exact .none

theorem refillOne_keeps {core : Nat} (h : Keeps o s) : OptKeeps o (·) (refillOne core s) := by
  unfold refillOne
  dsimp only
  split
  · exact .ite (.some (State.setCore_keeps h)) (admitInbound_keeps h)
  · exact admitInbound_keeps h

theorem refill_keeps {core n : Nat} (h : Keeps o s) : Keeps o (refill core n s) := by
  induction n generalizing s with
  | zero => exact h
  | succ n ih =>
    unfold refill
    split
    next e => exact ih (refillOne_keeps h _ e)
    · exact h

theorem placeNear_keeps {t : TaskDesc} {count : Nat} (h : Keeps o s) : OptKeeps o (·.2) (placeNear t count s) := by
  unfold placeNear
  dsimp only
  split
  · exact .none
  · exact .some (State.setCore_keeps (State.draw_keeps h))

theorem placeFar_keeps {t : TaskDesc} {count : Nat} (h : Keeps o s) : OptKeeps o (·.2) (placeFar t count s) := by
  unfold placeFar
  dsimp only
  split
  · exact .none
  · exact .some (State.onPart_keeps (hwStore_keeps (State.draw_keeps (.ite (usePart_keeps h) (usePart_keeps (usePart_keeps h))))))

theorem placeCounter_keeps {t : TaskDesc} {count : Nat} (h : Keeps o s) : OptKeeps o (·.2) (placeCounter t count s) := by
  have hnear : OptKeeps o (·.2) (if t.far then none else placeNear t count s) := .ite .none (placeNear_keeps h)
  unfold placeCounter
  dsimp only
  split
  next e => exact .some (hnear _ e)
  · exact .ite .none (placeFar_keeps h)

theorem submitRoots_keeps {part n : Nat} (h : Keeps o s) : Keeps o (submitRoots part n s) := by
  induction n generalizing s with
  | zero => exact h
  | succ n ih =>
    unfold submitRoots
    split
    · exact h
    · split
      · exact ih (hwStore_keeps (State.setPart_keeps h))
      · exact h

theorem popPacket_keeps {part queue : Nat} (h : Keeps o s) : Keeps o (popPacket part queue s) :=
  submitRoots_keeps (State.onPart_keeps h)

theorem sendReady_keeps {src : Nat} {t : TaskDesc} {ctr : CounterRef} (h : Keeps o s) : Keeps o (sendReady src t ctr s) :=
  State.sendFrom_keeps h

theorem finishReplay_keeps {part : Nat} {r : Replay} (h : Keeps o s) : Keeps o (finishReplay part r s) := by
  unfold finishReplay
  dsimp only
  split
  · exact State.fillLoad_keeps (.foldl (fun _ h1 _ => sendReady_keeps h1) (hwStore_keeps (.foldl (fun _ h1 _ => State.draw_keeps
      (hwStore_keeps h1)) h)))
  · exact popPacket_keeps (.foldl (fun _ h1 _ => sendReady_keeps h1) (hwStore_keeps (.foldl (fun _ h1 _ => State.draw_keeps
      (hwStore_keeps h1)) h)))
  · exact .foldl (fun _ h1 _ => sendReady_keeps h1) (hwStore_keeps (.foldl (fun _ h1 _ => State.draw_keeps (hwStore_keeps h1)) h))

theorem deliverHandle_keeps {part : Nat} {reply : Reply} {h' : Word} (h : Keeps o s) :
    Keeps o (deliverHandle part reply h' s) := by
  unfold deliverHandle
  split
  · exact h
  · exact State.fillLoad_keeps h
  · exact popPacket_keeps h
  · split
    · exact h
    · exact .ite (finishReplay_keeps (State.onPart_keeps h)) (State.onPart_keeps h)

theorem spawnTask_keeps {t : TaskDesc} {count : Nat} {reply : Reply} (h : Keeps o s) : Keeps o (spawnTask t count reply s) := by
  unfold spawnTask
  split
  · split
    · exact deliverHandle_keeps h
    · exact deliverHandle_keeps (sendReady_keeps h)
  · split
    next e => exact deliverHandle_keeps ((placeCounter_keeps h) _ e)
    · exact State.onPart_keeps (State.logMonitor_keeps h)

theorem freeCounter_keeps {r : CounterRef} {part home : Nat} (h : Keeps o s) : Keeps o (freeCounter r part home s) := by
  unfold freeCounter
  split
  · exact h
  · exact State.setCore_keeps h
  · exact State.onPart_keeps (hwStore_keeps h)

theorem decrement_keeps {part : Nat} {handle : Word} {amount : Nat} {sender : LogEntry} (h : Keeps o s) :
    Keeps o (decrement part handle amount sender s) := by
  unfold decrement
  dsimp only
  split
  · exact h
  · split
    · split
      · exact State.logSender_keeps h
      · split
        · exact enqueue_keeps (.ite (State.setCore_keeps h) (State.logSender_keeps (State.setCore_keeps h)))
        · exact .ite (State.setCore_keeps h) (State.logSender_keeps (State.setCore_keeps h))
    · split
      · split
        · exact State.logSender_keeps (usePart_keeps h)
        · split
          · exact sendReady_keeps (.ite (.ite (hwStore_keeps (hwStore_keeps (usePart_keeps h))) (hwStore_keeps (usePart_keeps h)))
              (State.logSender_keeps (.ite (hwStore_keeps (hwStore_keeps (usePart_keeps h))) (hwStore_keeps (usePart_keeps h)))))
          · exact .ite (.ite (hwStore_keeps (hwStore_keeps (usePart_keeps h))) (hwStore_keeps (usePart_keeps h))) (State.logSender_keeps
              (.ite (hwStore_keeps (hwStore_keeps (usePart_keeps h))) (hwStore_keeps (usePart_keeps h))))
      · split
        · exact State.logSender_keeps (usePart_keeps h)
        · split
          · exact sendReady_keeps (.ite (.ite (hwStore_keeps (hwStore_keeps (usePart_keeps h))) (hwStore_keeps (usePart_keeps h)))
              (State.logSender_keeps (.ite (hwStore_keeps (hwStore_keeps (usePart_keeps h))) (hwStore_keeps (usePart_keeps h)))))
          · exact .ite (.ite (hwStore_keeps (hwStore_keeps (usePart_keeps h))) (hwStore_keeps (usePart_keeps h))) (State.logSender_keeps
              (.ite (hwStore_keeps (hwStore_keeps (usePart_keeps h))) (hwStore_keeps (usePart_keeps h))))

theorem parkFocus_keeps {status : Nat → Status} (h : Keeps o s) : OptKeeps o (·) (parkFocus status s) := by
  unfold parkFocus
  split
  · exact .none
  · exact .some (hwStore_keeps (.ite (State.onCore_keeps (State.onCore_keeps (State.onTh_keeps (flushPend_keeps h)))) (hwStore_keeps
      (State.onCore_keeps (State.onTh_keeps (flushPend_keeps h))))))

theorem requeue_keeps {tid : Nat} (h : Keeps o s) : Keeps o (requeue tid s) := by
  unfold requeue
  split
  · exact h
  · exact enqueue_keeps (State.onThread_keeps h)

theorem bindCore_keeps {core : Nat} (h : Keeps o s) : Keeps o (bindCore core s) := by
  unfold bindCore
  split
  · dsimp only
    split
    · exact countEvent_keeps (State.focus_keeps (freeCounter_keeps (State.setCore_keeps (acquireAt_keeps (emptySlot_keeps h)))))
    · split
      · exact State.setCore_keeps (acquireAt_keeps (emptySlot_keeps h))
      · exact State.focus_keeps (State.onThread_keeps (State.setCore_keeps (acquireAt_keeps (emptySlot_keeps h))))
  · exact h

/-! ### Fetch and issue (04 R75-R96, 02 R29-R38) -/

theorem cacheParcel_keeps {a v : Nat} (h : Keeps o s) : Keeps o (cacheParcel a v s) :=
  .ite (State.onCore_keeps h) (State.draw_keeps (State.onCore_keeps h))

theorem cachedParcel_keeps {a mt : Nat} (h : Keeps o s) : Keeps o (cachedParcel a mt s).2 := by
  unfold cachedParcel
  dsimp only
  split
  · exact cacheParcel_keeps h
  · split
    · exact h
    · split
      · exact State.draw_keeps h
      · exact cacheParcel_keeps (State.draw_keeps h)

theorem readParcel_keeps {a mt : Nat} (h : Keeps o s) : Keeps o (readParcel a mt s).2 := by
  unfold readParcel
  dsimp only
  split
  · exact cachedParcel_keeps h
  · exact State.draw_keeps (cachedParcel_keeps h)

theorem fetchParcel_keeps {pc : Word} (h : Keeps o s) : OkKeeps o (·.2) (fetchParcel pc s) := by
  unfold fetchParcel
  split
  · trivial
  next e =>
    refine .bind (checkData_keeps ((resolve_keeps h).ok e)) fun _ h1 => ?_
    split
    · exact readParcel_keeps (fillReplica_keeps h1)
    · trivial

theorem fetchWord_keeps {pc : Word} (h : Keeps o s) : OkKeeps o (·.2.2) (fetchWord pc s) :=
  .bind (fetchParcel_keeps h) fun _ h1 => .ite h1 (.bind (fetchParcel_keeps h1) fun _ h2 => h2)

theorem wordAhead_keeps (h : Keeps o s) : OkKeeps o (·.2.2) (wordAhead s) := .ite h (fetchWord_keeps h)

theorem fetchFocus_keeps (h : Keeps o s) : BothKeep o (·) (·.2) (fetchFocus s) := by
  unfold fetchFocus
  split
  · exact dieFocus_keeps h
  · split
    · split
      · exact h
      · exact takeTrap_keeps h
    · split
      · exact takeTrap_keeps (State.onTh_keeps h)
      next e =>
        have h1' := (wordAhead_keeps h).ok e
        split
        · exact State.onTh_keeps h1'
        · split
          · dsimp only
            split
            · exact takeTrap_keeps (State.onTh_keeps h1')
            next e => exact takeTrap_keeps (State.onTh_keeps ((fetchWord_keeps h1').ok e))
          · exact takeTrap_keeps (State.onTh_keeps h1')

theorem forward_keeps (h : Keeps o s) : Keeps o (forward s) := .ite h h

theorem followed_keeps (h : Keeps o s) : Keeps o (followed s) := State.onTh_keeps h

theorem completed_keeps {reloads quiet : Bool} (h : Keeps o s) : Keeps o (completed reloads quiet s) :=
  .ite (finishIssue_keeps h) (finishIssue_keeps (forward_keeps (followed_keeps h)))

theorem spinPark_keeps {i : Instr} {old : Thread} (h : Keeps o s) : Keeps o (spinPark i old s) := by
  unfold spinPark
  dsimp only
  split
  · split
    · split
      next e => exact State.onCore_keeps (State.count_keeps ((parkFocus_keeps h) _ e))
      · exact State.onTh_keeps (State.logMonitor_keeps h)
    · exact h
  · exact h

theorem redirectStall_keeps {i : Instr} {t : State} (h : Keeps o t) : Keeps o (redirectStall i s t) := .ite (State.onTh_keeps h) h

theorem afterIssue_keeps {i : Instr} {t : State} (h : Keeps o t) : Keeps o (afterIssue i s t) :=
  spinPark_keeps (completed_keeps (redirectStall_keeps (.ite h (State.onTh_keeps h))))

theorem pickFocus_keeps {tid : Nat} (h : Keeps o s) : Keeps o (pickFocus tid s) :=
  State.onCore_keeps (State.onTh_keeps (State.focus_keeps h))

theorem finishWait_keeps (h : Keeps o s) : Keeps o (finishWait s) :=
  completed_keeps (advance_keeps (State.onTh_keeps (pickFocus_keeps h)))

/-! ### Decks (08 R189-R194) -/

theorem execDbind_keeps {h' : BitVec 3} {a : BitVec 4} {n : BitVec 11} (h : Keeps o s) : Ends o (execDbind h' a n s) :=
  settle_keeps h (.bind_any fun _ => advance_keeps (State.onTh_keeps h))

theorem deckOp_keeps {h' : BitVec 3} {a : BitVec 4} {n : BitVec 11} {limit : Deck → Nat} {go : Deck → Nat → Outcome} (h : Keeps o s)
    (hgo : ∀ x y, Ends o (go x y)) :
    Ends o (deckOp h' a n limit s go) := by
  unfold deckOp
  dsimp only
  split
  · exact .next (takeTrap_keeps h)
  · exact .ite (.next (advance_keeps h)) (.ite (.next (takeTrap_keeps h)) (hgo _ _))

theorem execDwaitc_keeps {h' : BitVec 3} {a : BitVec 4} {n : BitVec 11} (h : Keeps o s) : Ends o (execDwaitc h' a n s) :=
  deckOp_keeps h (fun _ _ => .ite (.next (advance_keeps (acquireAt_keeps h))) (.next (waitFor_keeps h)))

theorem execDwaitp_keeps {h' : BitVec 3} {a : BitVec 4} {n : BitVec 11} (h : Keeps o s) : Ends o (execDwaitp h' a n s) :=
  deckOp_keeps h (fun _ _ => .ite (.next (advance_keeps h)) (.next (waitFor_keeps h)))

theorem execDadvc_keeps {h' : BitVec 3} {a : BitVec 4} {n : BitVec 11} (h : Keeps o s) : Ends o (execDadvc h' a n s) :=
  deckOp_keeps h (fun _ _ => .next (advance_keeps (queueAdvance_keeps h)))

theorem execDadvp_keeps {h' : BitVec 3} {a : BitVec 4} {n : BitVec 11} (h : Keeps o s) : Ends o (execDadvp h' a n s) :=
  deckOp_keeps h (fun _ _ => .next (advance_keeps (queueAdvance_keeps h)))

theorem execDeckWaitComplete_keeps (h : Keeps o s) : Ends o (execDeckWaitComplete s) := by
  unfold execDeckWaitComplete
  split
  · split
    · exact .ite (.next (finishWait_keeps (acquireAt_keeps (State.focus_keeps h)))) (.next h)
    · exact .ite (.next (finishWait_keeps (State.focus_keeps h))) (.next h)
    · exact .next h
  · exact .next h

end Sys2Proof.Machine
end

/-! ## DRAM stays canonical: instructions that compute, and arrays (06, 07, 12) -/
section
namespace Sys2Proof.Machine

open Sys2Proof

variable {o s : State}

/-! ### Arrays as threads see them (12 R269-R279) -/

theorem pushArray_keeps {c : ArrayCmd} {arr : Nat} (h : Keeps o s) : Keeps o (pushArray c s arr) := State.setArray_keeps h

theorem enqueueArrays_keeps {arrs : List Nat} {c : ArrayCmd} {go : State → State} (h : Keeps o s)
    (hgo : ∀ u, Keeps o u → Keeps o (go u)) :
    Ends o (enqueueArrays arrs c s go) := by
  unfold enqueueArrays
  split
  · exact .next (waitFor_keeps h)
  · exact .next (hgo _ (.foldl (fun _ h1 _ => pushArray_keeps h1) h))

theorem enqueueArray_keeps {c : ArrayCmd} (h : Keeps o s) : Ends o (enqueueArray c s) :=
  enqueueArrays_keeps h (fun _ h1 => advance_keeps h1)

theorem arrayInstr_keeps {check : Checked (ArrayCmd × State)} (h : Keeps o s) (hcheck : OkKeeps o (·.2) check) :
    Ends o (arrayInstr s check) := by
  refine deferredError_keeps h fun _ h1 => ?_
  cases check with
  | error e => exact .next (takeTrap_keeps h1)
  | ok x => exact enqueueArray_keeps hcheck

theorem spanOf_keeps {k : Access} {va : Word} {len align fidx fval : Nat} (h : Keeps o s) :
    OkKeeps o (·.2) (spanOf k va len align fidx fval s) := by
  unfold spanOf
  split
  · exact trivial
  · split
    next e => exact (resolveSpan_keeps h).ok e
    · exact trivial

theorem execMma_keeps {n m : BitVec 2} {a f : BitVec 4} {sw c : BitVec 1} (h : Keeps o s) : Ends o (execMma n m a f sw c s) := by
  unfold execMma
  dsimp only
  refine deferredError_keeps h fun _ h1 => ?_
  split
  · exact .next (takeTrap_keeps h1)
  · exact enqueueArrays_keeps h1 (fun _ h2 => advance_keeps (State.count_keeps h2))

theorem execMlda_keeps {n : BitVec 2} {a f : BitVec 4} {k : BitVec 1} (h : Keeps o s) : Ends o (execMlda n a f k s) :=
  arrayInstr_keeps h (.bind_any fun _ => .ite (.bind_any fun _ => h) (.bind (spanOf_keeps h) fun _ h1 => h1))

theorem execMldb_keeps {a b f : BitVec 4} {c : BitVec 1} (h : Keeps o s) : Ends o (execMldb a b f c s) := by
  unfold execMldb
  extract_lets arrs v check
  have hc : OkKeeps o (Prod.snd : ArrayCmd × State → State) check := .bind (spanOf_keeps h) fun _ h1 => .bind_any fun _ => h1
  clear_value check
  refine deferredError_keeps h fun _ h1 => ?_
  split
  · exact .next (takeTrap_keeps h1)
  · exact enqueueArrays_keeps hc fun _ h2 => advance_keeps h2

theorem execMdrain_keeps {n : BitVec 2} {a f : BitVec 4} {sc m : BitVec 3} {c t k : BitVec 1} (h : Keeps o s) :
    Ends o (execMdrain n a sc f m c t k s) := by
  unfold execMdrain
  extract_lets len mode base _ check
  have hc : OkKeeps o (Prod.snd : ArrayCmd × State → State) check := by
    refine .bind_any fun _ => ?_
    split
    · exact .bind_any fun _ => h
    · exact .bind (spanOf_keeps h) fun _ h1 => h1
  clear_value check
  refine deferredError_keeps h fun _ h1 => ?_
  split
  · exact .next (takeTrap_keeps h1)
  · exact enqueueArrays_keeps hc fun _ h2 => advance_keeps (.ite (State.onTh_keeps (State.count_keeps h2)) h2)

theorem execMown_keeps {l : BitVec 1} (h : Keeps o s) : Ends o (execMown l s) := arrayInstr_keeps h (.bind_any fun _ => h)

theorem execMzero_keeps {n : BitVec 2} (h : Keeps o s) : Ends o (execMzero n s) := arrayInstr_keeps h (.bind_any fun _ => h)

theorem execMsacc_keeps {d n : BitVec 2} {a : BitVec 4} (h : Keeps o s) : Ends o (execMsacc d n a s) :=
  arrayInstr_keeps h (.bind_any fun _ => .bind_any fun _ => h)

theorem execMswap_keeps {n : BitVec 2} {a : BitVec 4} (h : Keeps o s) : Ends o (execMswap n a s) :=
  arrayInstr_keeps h (.bind_any fun _ => .bind (spanOf_keeps h) fun _ h1 => h1)

theorem execMflag_keeps {d : BitVec 4} {n : BitVec 2} (h : Keeps o s) : Ends o (execMflag d n s) := by
  unfold execMflag
  dsimp only
  refine deferredError_keeps h fun _ h1 => ?_
  split
  · exact .next (takeTrap_keeps h1)
  · exact enqueueArrays_keeps h1 (fun _ h2 => advance_keeps (State.pushLoad_keeps h2))

/-! ### Scalar instructions (06 R139-R146) -/

theorem fpuResult_keeps {lat : Nat} {d : BitVec 4} {m : BitVec 3} {x : Num × Flags} (h : Keeps o s) :
    Ends o (fpuResult lat d m x s) :=
  .next (advance_keeps (bumpSrc_keeps (State.raise_keeps (State.pushW_keeps h))))

theorem fpuBits_keeps {lat : Nat} {d : BitVec 4} {r : Nat × Flags} (h : Keeps o s) : Ends o (fpuBits lat d r s) :=
  .next (advance_keeps (State.raise_keeps (State.pushW_keeps h)))

theorem fpuCompare_keeps {r : Nat} {d a b : BitVec 4} (h : Keeps o s) : Ends o (fpuCompare r d a b s) := fpuBits_keeps h

theorem fromInteger_keeps {quiet : Bool} {d : BitVec 4} {m : BitVec 3} {x : Int} (h : Keeps o s) :
    Ends o (fromInteger quiet d m x s) :=
  .next (advance_keeps (bumpSrc_keeps (State.raise_keeps (State.pushW_keeps h))))

theorem fpuToInt_keeps {n : Nat} {d a : BitVec 4} {m : BitVec 3} (h : Keeps o s) : Ends o (fpuToInt n d a m s) :=
  .next (advance_keeps (bumpSrc_keeps (State.raise_keeps (State.pushW_keeps h))))

/-! ### Vector instructions (07 R161-R181) -/

theorem vectorResult_keeps {len lat w : Nat} {d : BitVec 4} {k : KWord} {f : Nat → Nat × Flags} (h : Keeps o s) :
    Keeps o (vectorResult len lat w d k f s) :=
  advance_keeps (State.raise_keeps (State.pushW_keeps h))

theorem vfp_keeps {len : Nat} {op : Bool → Num → Num → Num → Num × Flags} {d a b : BitVec 4} {k : KWord} {m : BitVec 3}
    (h : Keeps o s) :
    Ends o (vfp len op d a b k m s) :=
  .next (bumpSrc_keeps (vectorResult_keeps h))

theorem execVcmp_keeps {d a b : BitVec 4} {k : BitVec 3} {r : BitVec 4} {t : BitVec 3} (h : Keeps o s) :
    Ends o (execVcmp d a b k r t s) :=
  .next (advance_keeps (State.raise_keeps (State.pushW_keeps h)))

theorem vreduce_keeps {f : Nat → Nat → Nat → Nat × Flags} {neutral : Nat} {d a : BitVec 4} {k : BitVec 3} (h : Keeps o s) :
    Keeps o (vreduce f neutral d a k s) :=
  advance_keeps (State.raise_keeps (State.pushW_keeps h))

theorem execVqnt_keeps {d a : BitVec 4} {b k : BitVec 3} {f : BitVec 4} {m : BitVec 3} (h : Keeps o s) :
    Ends o (execVqnt d a b k f m s) := by
  unfold execVqnt
  dsimp only
  split
  · exact .next (takeTrap_keeps h)
  · exact .next (bumpSrc_keeps (vectorResult_keeps h))

theorem maskResult_keeps {d : BitVec 3} {x : KWord} (h : Keeps o s) : Ends o (maskResult d x s) :=
  .next (advance_keeps (State.pushW_keeps h))

/-! ### What an array does (12 R269-R279) -/

theorem popArray_keeps {arr : Nat} (h : Keeps o s) : Keeps o (popArray arr s) := State.setArray_keeps h

theorem State.onArray_keeps {arr : Nat} {f : MArray → MArray} (h : Keeps o s) : Keeps o (s.onArray arr f) :=
  State.setArray_keeps h

theorem orAccf_keeps {arr n : Nat} {f : BitVec 32} (h : Keeps o s) : Keeps o (orAccf arr n f s) := State.onArray_keeps h

theorem arrayRead_keeps {c : ArrayCmd} {addr : Nat → Word} {ls : List Loc} (h : Keeps o s) :
    Keeps o (arrayRead c addr ls s).2.2 := by
  unfold arrayRead
  dsimp only
  split
  next e => exact (settleBad_keeps (standRead_keeps (settleGrove_keeps h))).ok e
  next e => exact State.onThread_keeps (retire_keeps ((settleBad_keeps (standRead_keeps (settleGrove_keeps h))).error e))

theorem arrayStore_keeps {c : ArrayCmd} {ls : List Loc} {bs : List Byte} {issuer : LogEntry} (h : Keeps o s) :
    Keeps o (arrayStore c ls bs issuer s) :=
  coreStore_keeps (settleGrove_keeps h)

theorem sliceFault_keeps {arr off n k : Nat} (h : Keeps o s) : Keeps o (sliceFault arr off n k s).2 := by
  induction k generalizing s with
  | zero => exact h
  | succ k ih =>
    unfold sliceFault
    split
    · exact h
    · split
      · exact ih (retire_keeps h)
      · exact h

theorem sliceChecked_keeps {arr part : Nat} {e : LogEntry} {off n : Nat} (h : Keeps o s) :
    BothKeep o (·) (·) (sliceChecked arr part e off n s) := by
  unfold sliceChecked
  split
  next e => exact (Keeps.of_pair (sliceFault_keeps h) e)
  next e => exact State.logAsync_keeps (retire_keeps (Keeps.of_pair (sliceFault_keeps h) e))

theorem execMownExecute_keeps (h : Keeps o s) : Ends o (execMownExecute s) := by
  unfold execMownExecute
  split
  · split
    · exact .next (popArray_keeps (State.onArray_keeps h))
    · exact .next h
  · exact .next h

theorem execMldaExecute_keeps (h : Keeps o s) : Ends o (execMldaExecute s) := by
  unfold execMldaExecute
  split
  · split
    · dsimp only
      split
      · exact .ite (.next h) (.next (popArray_keeps (deckStore_keeps (State.draw_keeps (State.onArray_keeps (arrayRead_keeps
          (syncStand_keeps h)))))))
      · exact .next (.ite (popArray_keeps (State.draw_keeps (State.onArray_keeps (arrayRead_keeps h)))) h)
    · exact .next h
  · exact .next h

theorem shareTile_keeps {id : Nat} {bs : List Byte} {failed : Bool} (h : Keeps o s) : Keeps o (shareTile id bs failed s) := h

theorem placeTile_keeps {arr t : Nat} {bs : List Byte} {failed : Bool} (h : Keeps o s) : Keeps o (placeTile arr t bs failed s) :=
  State.draw_keeps (State.onArray_keeps h)

theorem execMldbExecute_keeps (h : Keeps o s) : Ends o (execMldbExecute s) := by
  unfold execMldbExecute
  split
  · split
    · dsimp only
      split
      · exact .next (popArray_keeps (placeTile_keeps h))
      · exact .ite (.next (popArray_keeps (placeTile_keeps (.ite (shareTile_keeps (arrayRead_keeps h)) (arrayRead_keeps h))))) (.next h)
    · exact .next h
  · exact .next h

theorem runMma_keeps {arr n m : Nat} {f : Fmt} {swapped : Bool} {h' : Nat} {tile : List Byte} (h : Keeps o s) :
    Keeps o (runMma arr n m f swapped h' tile s) :=
  orAccf_keeps (State.setArray_keeps h)

theorem execMmaExecute_keeps (h : Keeps o s) : Ends o (execMmaExecute s) := by
  unfold execMmaExecute
  split
  · split
    · split
      · exact .next h
      · dsimp only
        split
        next e => exact .next (popArray_keeps ((sliceChecked_keeps h).error e))
        next e => exact .next (popArray_keeps (runMma_keeps (State.setArray_keeps ((sliceChecked_keeps h).ok e))))
    · exact .next h
  · exact .next h

theorem runRound_keeps {tile : List Byte} {arr : Nat} (h : Keeps o s) : Keeps o (runRound tile s arr) := by
  unfold runRound
  split
  · split
    · exact popArray_keeps (runMma_keeps h)
    · exact h
  · exact h

theorem execMmaBcRound_keeps (h : Keeps o s) : Ends o (execMmaBcRound s) := by
  unfold execMmaBcRound
  dsimp only
  split
  · split
    · split
      next e => exact .next (.foldl (fun _ h1 _ => popArray_keeps h1) ((sliceChecked_keeps h).error e))
      next e => exact .next (.foldl (fun _ h1 _ => runRound_keeps h1) (State.setArray_keeps ((sliceChecked_keeps h).ok e)))
    · exact .next h
  · exact .next h

theorem convertDrain_keeps {arr : Nat} {c : ArrayCmd} {n : Nat} {f : Fmt} {ct : Bool} (h : Keeps o s) :
    Keeps o (convertDrain arr c n f ct s).2 :=
  State.onArray_keeps (State.onThread_keeps (orAccf_keeps h))

theorem sendDrainPartial_keeps {arr : Nat} {c : ArrayCmd} {f : Fmt} {bs : List Byte} (h : Keeps o s) :
    Keeps o (sendDrainPartial arr c f bs s) :=
  State.onArray_keeps (State.sendFrom_keeps h)

theorem finishDrainCmd_keeps {arr : Nat} (h : Keeps o s) : Keeps o (finishDrainCmd arr s) := State.pulse_keeps (popArray_keeps h)

theorem drainedBytes_keeps {arr : Nat} {c : ArrayCmd} {n : Nat} {f : Fmt} {ct : Bool} (h : Keeps o s) :
    Keeps o (drainedBytes arr c n f ct s).2 := by
  unfold drainedBytes
  split
  · exact h
  · exact convertDrain_keeps h

theorem execMdrainExecute_keeps (h : Keeps o s) : Ends o (execMdrainExecute s) := by
  unfold execMdrainExecute
  dsimp only
  split
  · split
    · split
      · exact .next h
      · split
        · exact .ite (.next h) (.ite (.next (sendDrainPartial_keeps (drainedBytes_keeps h))) (.ite (.ite (.next (finishDrainCmd_keeps
            (deckStore_keeps (storeLocs_keeps (drainedBytes_keeps h))))) (.next (State.onArray_keeps (deckStore_keeps (storeLocs_keeps
            (drainedBytes_keeps h)))))) (.next h)))
        · exact .ite (.next (finishDrainCmd_keeps h)) (.ite (.next (.ite (sendDrainPartial_keeps (arrayStore_keeps
            (drainedBytes_keeps h))) (finishDrainCmd_keeps (arrayStore_keeps (drainedBytes_keeps h))))) (.next h))
    · exact .next h
  · exact .next h

theorem execMzeroExecute_keeps (h : Keeps o s) : Ends o (execMzeroExecute s) := by
  unfold execMzeroExecute
  split
  · split
    · exact .next (popArray_keeps (State.onArray_keeps h))
    · exact .next h
  · exact .next h

theorem execMsaccExecute_keeps (h : Keeps o s) : Ends o (execMsaccExecute s) := by
  unfold execMsaccExecute
  split
  · split
    · exact .next (popArray_keeps (orAccf_keeps (State.setArray_keeps h)))
    · exact .next h
  · exact .next h

theorem execMswapExecute_keeps (h : Keeps o s) : Ends o (execMswapExecute s) := by
  unfold execMswapExecute
  dsimp only
  split
  · split
    · exact .ite (.next (popArray_keeps (State.onArray_keeps (arrayStore_keeps (State.draw_keeps (arrayRead_keeps h)))))) (.next h)
    · exact .next h
  · exact .next h

theorem execMflagExecute_keeps (h : Keeps o s) : Ends o (execMflagExecute s) := by
  unfold execMflagExecute
  split
  · split
    · dsimp only
      refine .next ?_
      refine popArray_keeps ?_
      refine State.onArray_keeps ?_
      split
      · exact State.fillLoad_keeps h
      · exact h
    · exact .next h
  · exact .next h

end Sys2Proof.Machine
end

/-! ## DRAM stays canonical: control, tags, copies, planes and streams (06, 08, 12) -/
section
namespace Sys2Proof.Machine

open Sys2Proof

variable {o s : State}

/-! ### Control (06 R147-R160) -/

theorem branchIf_keeps {len : Nat} {c : Bool} {off : Word} (h : Keeps o s) : Ends o (branchIf len c off s) :=
  .next (.ite (jumpTo_keeps h) (advance_keeps h))

theorem jumpReg_keeps {fval : Nat} {target : Word} {link : State → State} (hlink : ∀ u, Keeps o u → Keeps o (link u))
    (h : Keeps o s) :
    Ends o (jumpReg fval target link s) :=
  .ite (.next (takeTrap_keeps h)) (.next (jumpTo_keeps (hlink _ h)))

theorem execJr_keeps {a : BitVec 4} (h : Keeps o s) : Ends o (execJr a s) := jumpReg_keeps (fun _ h1 => h1) h

theorem execCallr_keeps {d a : BitVec 4} (h : Keeps o s) : Ends o (execCallr d a s) :=
  jumpReg_keeps (fun _ h1 => State.pushW_keeps h1) h

theorem execJr16_keeps {y : BitVec 4} (h : Keeps o s) : Ends o (execJr16 y s) := jumpReg_keeps (fun _ h1 => h1) h

theorem execCallr16_keeps {y : BitVec 4} (h : Keeps o s) : Ends o (execCallr16 y s) :=
  jumpReg_keeps (fun _ h1 => State.pushW_keeps h1) h

theorem execLoop_keeps {a : BitVec 4} {l : BitVec 1} {i : BitVec 14} (h : Keeps o s) : Ends o (execLoop a l i s) := by
  unfold execLoop
  dsimp only
  split
  · exact .next (advance_keeps (State.pushW_keeps h))
  · split
    · split
      · exact .next (takeTrap_keeps h)
      next e => exact .next (jumpTo_keeps (State.pushW_keeps ((fetchParcel_keeps h).ok e)))
    · exact .next (advance_keeps (State.pushW_keeps h))

theorem execIfence_keeps (h : Keeps o s) : Ends o (execIfence s) := by
  unfold execIfence
  dsimp only
  split
  · exact .next (advance_keeps (State.onTh_keeps (State.onCore_keeps (.foldl (fun _ h1 _ => performNo_keeps h1) h))))
  · exact .next (holdForWork_keeps (.foldl (fun _ h1 _ => performNo_keeps h1) h))

theorem csrValue_keeps {n : Nat} (h : Keeps o s) : Keeps o (csrValue n s).2 := by
  unfold csrValue
  split
  · exact State.draw_keeps h
  · exact h

theorem execCsrr_keeps {d : BitVec 4} {x : BitVec 10} (h : Keeps o s) : Ends o (execCsrr d x s) := by
  unfold execCsrr
  dsimp only
  exact .ite (.next (takeTrap_keeps h)) (.next (writeS_keeps (csrValue_keeps h)))

theorem csrWrite_keeps {op : Nat} {a : BitVec 4} {x : BitVec 10} (h : Keeps o s) : Ends o (csrWrite op a x s) := by
  unfold csrWrite
  dsimp only
  split
  · exact .next (takeTrap_keeps h)
  · split
    · exact .next (takeTrap_keeps h)
    · exact .ite (.next (takeTrap_keeps h)) (.next (advance_keeps (State.pushW_keeps (.ite (State.draw_keeps (State.onCore_keeps
        (csrValue_keeps h))) (csrValue_keeps h)))))

theorem handOver_keeps (h : Keeps o s) : OptKeeps o (·) (handOver s) := by
  unfold handOver
  split
  · exact .none
  next e =>
    exact .some (State.onTh_keeps (bindCore_keeps (requeue_keeps (State.count_keeps (State.count_keeps ((parkFocus_keeps h) _ e))))))

theorem yieldOf_keeps {len y : Nat} (h : Keeps o s) : Ends o (yieldOf len y s) :=
  .ite (.next (.getD (handOver_keeps (countIssue_keeps (advance_keeps (State.onTh_keeps h)))) (advance_keeps (State.onTh_keeps h))))
    (.next (advance_keeps (State.onTh_keeps h)))

theorem endOf_keeps (h : Keeps o s) : Ends o (endOf s) := by
  unfold endOf
  refine deferredError_keeps h fun _ h1 => ?_
  dsimp only
  split
  · exact .next (waitFor_keeps (performAtoms_keeps h1))
  · split
    next e1 => exact .next (takeTrap_keeps ((reductionTrap_keeps (performAtoms_keeps h1)) _ e1))
    · exact .next (endFocus_keeps (countIssue_keeps (performAtoms_keeps h1)))

theorem execFcld_keeps {d a : BitVec 4} {o' : BitVec 6} (h : Keeps o s) : Ends o (execFcld d a o' s) :=
  settle_keeps h (.bind_any fun _ => writeS_keeps h)

theorem execFcst_keeps {d a : BitVec 4} {o' : BitVec 6} (h : Keeps o s) : Ends o (execFcst d a o' s) :=
  settle_keeps h (.bind_any fun _ => advance_keeps (State.onTh_keeps h))

theorem execFcvld_keeps {d a : BitVec 4} {o' : BitVec 6} (h : Keeps o s) : Ends o (execFcvld d a o' s) :=
  settle_keeps h (.bind_any fun _ => advance_keeps (State.pushW_keeps h))

theorem execFcvst_keeps {d a : BitVec 4} {o' : BitVec 6} (h : Keeps o s) : Ends o (execFcvst d a o' s) :=
  settle_keeps h (.bind_any fun _ => advance_keeps (State.onTh_keeps h))

theorem execMod_keeps {u r q p : BitVec 1} {sc : BitVec 6} {t : BitVec 2} (h : Keeps o s) : Ends o (execMod u r q p sc t s) := by
  unfold execMod
  dsimp only
  split
  · exact .next (takeTrap_keeps (State.onTh_keeps h))
  next e =>
    have h1' := (fetchWord_keeps h).ok e
    split
    · exact .next (takeTrap_keeps (State.onTh_keeps h1'))
    · split
      · exact .next (takeTrap_keeps (State.onTh_keeps h1'))
      · split
        · split
          · exact .next (takeTrap_keeps (State.onTh_keeps h1'))
          · exact .next (takeTrap_keeps (State.onTh_keeps h1'))
          · exact .next (State.onTh_keeps h1')
        · exact .next (takeTrap_keeps (State.onTh_keeps h1'))
        · exact .next (takeTrap_keeps (State.onTh_keeps h1'))

/-! ### Copy tags (08 R198-R200) -/

theorem claimTag_keeps {tag : Word} {fval : Nat} (h : Keeps o s) : OkKeeps o (·) (claimTag tag fval s) :=
  .bind_any fun _ => .bind_any fun _ => .bind_any fun _ => State.onCore_keeps h

theorem completeTag_keeps {core tag : Nat} {failed : Option Word} (h : Keeps o s) : Keeps o (completeTag core tag failed s) :=
  State.pulse_keeps (State.setCore_keeps h)

theorem tagReport_keeps {mask : Word} (h : Keeps o s) : OptKeeps o (·.2) (tagReport mask s) := by
  unfold tagReport
  dsimp only
  split
  · exact .none
  · exact .some (State.onCore_keeps h)

theorem endTagWait_keeps {mask : Word} {go : State → State} (h : Keeps o s) (hgo : ∀ u, Keeps o u → Keeps o (go u)) :
    Keeps o (endTagWait mask s go) := by
  unfold endTagWait
  split
  next e => exact takeTrap_keeps ((tagReport_keeps h) _ e)
  · exact hgo _ (acquireAt_keeps h)

theorem execCwaitany_keeps {a : BitVec 4} (h : Keeps o s) : Ends o (execCwaitany a s) :=
  .ite (.next (takeTrap_keeps h)) (.ite (.next (waitFor_keeps h)) (.next (endTagWait_keeps h (fun _ h1 => advance_keeps h1))))

theorem execCwaitall_keeps {a : BitVec 4} (h : Keeps o s) : Ends o (execCwaitall a s) :=
  .ite (.next (takeTrap_keeps h)) (.ite (.next (advance_keeps h)) (.ite (.next (waitFor_keeps h)) (.next (endTagWait_keeps h (fun _ h1 =>
    advance_keeps h1)))))

theorem execCfind_keeps {d : BitVec 4} (h : Keeps o s) : Ends o (execCfind d s) := by
  unfold execCfind
  split
  · exact .next (writeS_keeps h)
  · exact .next (endTagWait_keeps h (fun _ h1 => writeS_keeps h1))

theorem execCtagclr_keeps {a : BitVec 4} (h : Keeps o s) : Ends o (execCtagclr a s) :=
  .ite (.next (takeTrap_keeps h)) (.next (advance_keeps (State.onCore_keeps h)))

theorem tagWaitDone_keeps {m : Word} (h : Keeps o s) : Keeps o (tagWaitDone m s) := by
  unfold tagWaitDone
  split
  next e => exact finishIssue_keeps (takeTrap_keeps (pickFocus_keeps ((tagReport_keeps h) _ e)))
  · exact finishWait_keeps (acquireAt_keeps h)

theorem execCopyTagWaitComplete_keeps (h : Keeps o s) : Ends o (execCopyTagWaitComplete s) := by
  unfold execCopyTagWaitComplete
  split
  · split
    · exact .ite (.next (tagWaitDone_keeps (State.focus_keeps h))) (.next h)
    · exact .ite (.next (tagWaitDone_keeps (State.focus_keeps h))) (.next h)
    · exact .next h
  · exact .next h

/-! ### What the engines share (11 R256) -/

theorem registerIn_keeps {stand : Nat} (h : Keeps o s) : Keeps o (registerIn stand s) := h

theorem engineSpans_keeps {w : Who} {k : Access} {l : List (Nat × Nat)} (h : Keeps o s) : Keeps o (engineSpans w k l s).2.2 := by
  induction l generalizing s with
  | nil => exact h
  | cons p l ih =>
    unfold engineSpans
    split
    next e => exact ih ((resolveSpan_keeps h).ok e)
    · split
      next e => exact (resolveSpan_keeps h).ok e
      · exact h

theorem readDram_keeps {ls : List Loc} (h : Keeps o s) : Keeps o (readDram ls s).2 := settleRows_keeps h

theorem readGrove_keeps {g : Nat} {ls : List Loc} (h : Keeps o s) : Keeps o (readGrove g ls s).2 :=
  standRead_keeps (settleGrove_keeps h)

theorem engineBytes_keeps {read : Reader} {addr : Nat → Nat} {ls : List Loc}
    (hread : ∀ x u, Keeps o u → Keeps o (read x u).2) (h : Keeps o s) :
    Keeps o (engineBytes read addr ls s).2.2 := by
  unfold engineBytes
  split
  next e => exact hread _ _ ((settleBad_keeps h).ok e)
  next e => exact retire_keeps (hread _ _ ((settleBad_keeps h).error e))

theorem engineRead_keeps {w : Who} {read : Reader} {sp : List (Nat × Nat)}
    (hread : ∀ x u, Keeps o u → Keeps o (read x u).2) (h : Keeps o s) :
    Keeps o (engineRead w read sp s).2.2 := by
  unfold engineRead
  dsimp only
  exact engineBytes_keeps hread (engineSpans_keeps h)

theorem engineStore_keeps {part : Nat} {w : Writer} {bytes : List (Loc × Byte)} {issuer : LogEntry} (h : Keeps o s) :
    Keeps o (engineStore part w bytes issuer s) :=
  .ite (storeLocs_keeps (State.logAsync_keeps (settleRows_keeps h))) (storeLocs_keeps (settleRows_keeps h))

/-! ### Copies (08 R195-R199) -/

theorem queueCopy_keeps {twoD : Bool} {a b gran : BitVec 4} {pri : BitVec 2} (h : Keeps o s) :
    Ends o (queueCopy twoD a b gran pri s) :=
  settle_keeps h (.bind_any fun _ => .bind (claimTag_keeps h) fun _ h1 => advance_keeps (State.setGrove_keeps (registerIn_keeps h1)))

theorem onCopies_keeps {g : Nat} {f : List CopyCmd → List CopyCmd} (h : Keeps o s) : Keeps o (onCopies g f s) :=
  State.setGrove_keeps h

theorem putCopy_keeps {g : Nat} {c : CopyCmd} (h : Keeps o s) : Keeps o (putCopy g c s) := onCopies_keeps h

theorem leaveCopy_keeps {g : Nat} {c : CopyCmd} {failed : Option Word} (h : Keeps o s) : Keeps o (leaveCopy g c failed s) :=
  completeTag_keeps (onCopies_keeps h)

theorem failCopy_keeps {g : Nat} {c : CopyCmd} {reason addr : Nat} (h : Keeps o s) : Keeps o (failCopy g c reason addr s) :=
  leaveCopy_keeps (State.logAsync_keeps h)

theorem releaseArmed_keeps {g : Nat} (h : Keeps o s) : Keeps o (releaseArmed g s) := State.setGrove_keeps h

theorem readBlock_keeps {g : Nat} {c : CopyCmd} (h : Keeps o s) : Keeps o (readBlock g c s) := by
  unfold readBlock
  split
  next e =>
    have h1 := Keeps.of_triple (engineRead_keeps (fun _ _ h1 => readGrove_keeps h1) (syncStand_keeps h)) e
    split
    · exact failCopy_keeps h1
    · exact .ite (releaseArmed_keeps (putCopy_keeps h1)) (failCopy_keeps h1)

theorem execCopyCommandStart_keeps (h : Keeps o s) : Ends o (execCopyCommandStart s) := by
  unfold execCopyCommandStart
  dsimp only
  split
  · exact .next h
  · exact .ite (.next h) (.ite (.ite (.next (readBlock_keeps h)) (.next h)) (.ite (.next (putCopy_keeps (syncStand_keeps h))) (.next h)))

theorem takeInput_keeps {c : CopyCmd} {n : Nat} (h : Keeps o s) : Keeps o (takeInput c n s).2 := State.orAew_keeps h

theorem wrote_keeps {c : CopyCmd} {n : Nat} (h : Keeps o s) : Keeps o (wrote c n s).2 := by
  unfold wrote
  dsimp only
  split
  · exact .ite (arrivePartial_keeps h) h
  · exact h

theorem CopyCmd.store_keeps {c : CopyCmd} {bytes : List (Loc × Byte)} (h : Keeps o s) : Keeps o (CopyCmd.store c bytes s) :=
  engineStore_keeps (settleGrove_keeps h)

theorem writePiece_keeps {g : Nat} {c : CopyCmd} {dst : Option Deck} (h : Keeps o s) : Keeps o (writePiece g c dst s) := by
  unfold writePiece
  split
  · split
    · dsimp only
      exact putCopy_keeps (wrote_keeps (deckStore_keeps (CopyCmd.store_keeps h)))
    · exact putCopy_keeps h
  · dsimp only
    split
    · exact failCopy_keeps (CopyCmd.store_keeps (State.draw_keeps (engineSpans_keeps h)))
    · exact putCopy_keeps (wrote_keeps (CopyCmd.store_keeps (engineSpans_keeps h)))

theorem failRead_keeps {g : Nat} {c : CopyCmd} {got : List Byte} {reason addr : Nat} {toDeck : Bool} (h : Keeps o s) :
    Keeps o (failRead g c got reason addr toDeck s) :=
  failCopy_keeps (.ite (engineSpans_keeps h) (CopyCmd.store_keeps (State.draw_keeps (engineSpans_keeps h))))

theorem movePiece_keeps {g : Nat} {c : CopyCmd} (h : Keeps o s) : Keeps o (movePiece g c s) := by
  have hgrove (ls : List Loc) (t : State) (ht : Keeps o t) : Keeps o (readGrove g ls t).2 := readGrove_keeps ht
  unfold movePiece
  extract_lets dst
  split
  extract_lets groups need
  split
  · split
    · split
      · exact failCopy_keeps h
      · split
        · exact h
        · split
          next e =>
            have h1 := Keeps.of_triple (engineBytes_keeps hgrove h) e
            split
            · exact failRead_keeps h1
            · exact putCopy_keeps (deckStore_keeps h1)
    · split
      next e =>
        have h1 := Keeps.of_triple (engineRead_keeps hgrove h) e
        split
        · exact failRead_keeps h1
        · exact writePiece_keeps (takeInput_keeps h1)
  · exact writePiece_keeps (takeInput_keeps h)

theorem execCopyGranule_keeps (h : Keeps o s) : Ends o (execCopyGranule s) := by
  unfold execCopyGranule
  dsimp only
  split
  · exact .next h
  · exact .ite (.next h) (.next (movePiece_keeps h))

theorem execCopyComplete_keeps (h : Keeps o s) : Ends o (execCopyComplete s) := by
  unfold execCopyComplete
  split
  · exact .ite (.next (leaveCopy_keeps h)) (.next h)
  · exact .next h

/-! ### Planes as threads see them (12 R282-R292) -/

theorem enqueuePlane_keeps {c : ArrayCmd} (h : Keeps o s) : Ends o (enqueuePlane c s) :=
  .ite (.next (waitFor_keeps h)) (.next (advance_keeps h))

theorem planeInstr_keeps {check : Checked (ArrayCmd × State)} (h : Keeps o s) (hcheck : OkKeeps o (·.2) check) :
    Ends o (planeInstr s check) := by
  refine deferredError_keeps h fun _ h1 => ?_
  cases check with
  | error e => exact .next (takeTrap_keeps h1)
  | ok x => exact enqueuePlane_keeps hcheck

theorem execPcfg_keeps {a : BitVec 4} (h : Keeps o s) : Ends o (execPcfg a s) := by
  unfold execPcfg
  dsimp only
  refine deferredError_keeps h fun _ h1 => ?_
  split
  · exact .next (takeTrap_keeps h1)
  next e1 =>
    refine readChecked_keeps ((spanPlace_keeps h1).ok e1) fun _ _ h2 => ?_
    split
    · exact .next (takeTrap_keeps h2)
    · exact enqueuePlane_keeps h2

theorem execPstep_keeps {d a b : BitVec 3} (h : Keeps o s) : Ends o (execPstep d a b s) :=
  planeInstr_keeps h (.bind_any fun _ => .bind_any fun _ => .bind_any fun _ => .bind_any fun _ => .bind_any fun _ => .bind_any fun _ => h)

theorem execPfade_keeps {a : BitVec 4} (h : Keeps o s) : Ends o (execPfade a s) := planeInstr_keeps h (.bind_any fun _ => h)

theorem execPrd_keeps {d a : BitVec 4} (h : Keeps o s) : Ends o (execPrd d a s) := by
  unfold execPrd
  refine deferredError_keeps h fun _ h1 => ?_
  dsimp only
  split
  · exact .next (takeTrap_keeps h1)
  · split
    next e1 => exact .next (takeTrap_keeps (Keeps.of_pair (sliceFault_keeps h1) e1))
    next e1 => exact .next (loadS_keeps (Keeps.of_pair (sliceFault_keeps h1) e1))
  · exact .next (loadS_keeps h1)

theorem execPwr_keeps {a b : BitVec 4} (h : Keeps o s) : Ends o (execPwr a b s) := by
  unfold execPwr
  refine deferredError_keeps h fun _ h1 => ?_
  dsimp only
  split
  · exact .next (takeTrap_keeps h1)
  · exact .next (advance_keeps (State.onArray_keeps h1))
  · exact .next (advance_keeps (State.onArray_keeps h1))

theorem execPstat_keeps {d : BitVec 4} (h : Keeps o s) : Ends o (execPstat d s) :=
  deferredError_keeps h (fun _ h1 => .next (loadS_keeps h1))

theorem sendReward_keeps {r : Reward} (h : Keeps o s) : Keeps o (sendReward r s) := .foldl (fun _ h1 _ => State.send_keeps h1) h

theorem execPrwd_keeps {a b : BitVec 4} {r : BitVec 1} (h : Keeps o s) : Ends o (execPrwd a b r s) :=
  deferredError_keeps h (fun _ h1 => .next (advance_keeps (sendReward_keeps h1)))

theorem execPgate_keeps {a : BitVec 4} (h : Keeps o s) : Ends o (execPgate a s) :=
  deferredError_keeps h (fun _ h1 => .next (advance_keeps (sendReward_keeps h1)))

/-! ### The fabric (01 R8, R9) -/

theorem dropMsg_keeps {seq : Nat} (h : Keeps o s) : Keeps o (dropMsg seq s) := h

/-! ### Streams (08 R201-R206) -/

theorem setStream_keeps {i : BitVec 2} {x : Stream} (h : Keeps o s) : Keeps o (setStream i x s) := State.onTh_keeps h

theorem execSopen_keeps {a : BitVec 4} {i : BitVec 2} (h : Keeps o s) : Ends o (execSopen a i s) := by
  unfold execSopen
  dsimp only
  split
  · exact .next (takeTrap_keeps h)
  · split
    · exact .next (advance_keeps (setStream_keeps (retireTrap_keeps h)))
    next e =>
      have h1' := (spanPlace_keeps h).ok e
      split
      · exact .next (advance_keeps (setStream_keeps (retireTrap_keeps h1')))
      next e =>
        have h1' := (checkData_keeps h1').ok e
        split
        · exact .next (holdForWork_keeps (beforeReading_keeps h1'))
        · split
          · exact .next (advance_keeps (setStream_keeps (readAs_keeps (beforeReading_keeps h1'))))
          · exact .next (advance_keeps (State.send_keeps (setStream_keeps (readAs_keeps (beforeReading_keeps h1')))))

theorem usedStream_keeps {i : BitVec 2} {go : Stream → Outcome} (h : Keeps o s) (hgo : ∀ x, Ends o (go x)) :
    Ends o (usedStream i s go) :=
  .ite (.next (takeTrap_keeps h)) (.ite (.next (takeTrap_keeps (setStream_keeps h))) (hgo _))

theorem execSclose_keeps {i : BitVec 2} (h : Keeps o s) : Ends o (execSclose i s) :=
  usedStream_keeps h (fun _ => .next (advance_keeps (closeStream_keeps h)))

theorem execSsend_keeps {i : BitVec 2} {a : BitVec 4} {k : BitVec 3} {c : BitVec 4} (h : Keeps o s) :
    Ends o (execSsend i a k c s) := by
  unfold execSsend
  exact usedStream_keeps h (fun _ => .ite (.next (takeTrap_keeps h)) (.ite (.next (waitFor_keeps h)) (.next (advance_keeps (.foldl
    (fun _ h1 _ => State.sendRelease_keeps h1) h)))))

theorem execStreamOpenFlit_keeps (h : Keeps o s) : Ends o (execStreamOpenFlit s) := by
  unfold execStreamOpenFlit
  split
  · split
    · exact .next (dropMsg_keeps (State.setCore_keeps h))
    · exact .next h
  · exact .next h

theorem landBytes_keeps {tid core dcb : Nat} {bs : List Byte} (h : Keeps o s) : Keeps o (landBytes tid core dcb bs s) :=
  State.setCore_keeps (.ite (deckStore_keeps (storeLocs_keeps h)) (storeLocs_keeps h))

theorem replayed_keeps {core dcb : Nat} (h : Keeps o s) : Keeps o (replayed core dcb s) := by
  unfold replayed
  dsimp only
  split
  · exact h
  · exact .ite (deckStore_keeps (State.setCore_keeps h)) (State.setCore_keeps h)

theorem execStreamFlitLand_keeps (h : Keeps o s) : Ends o (execStreamFlitLand s) := by
  unfold execStreamFlitLand
  split
  · split
    · exact .ite (.next (dropMsg_keeps (replayed_keeps (landBytes_keeps h)))) (.next h)
    · exact .next h
  · exact .next h

theorem freeRoute_keeps {core dcb : Nat} (h : Keeps o s) : Keeps o (freeRoute core dcb s) := by
  unfold freeRoute
  dsimp only
  split
  · exact State.setCore_keeps h
  · exact State.setCore_keeps h

theorem pulseMarker_keeps {core dcb : Nat} (h : Keeps o s) : Keeps o (pulseMarker core dcb s) :=
  .foldl (fun _ h1 _ => .ite (State.pulse_keeps h1) h1) h

theorem execStreamCloseMarker_keeps (h : Keeps o s) : Ends o (execStreamCloseMarker s) := by
  unfold execStreamCloseMarker
  split
  · split
    · exact .ite (.next (pulseMarker_keeps (dropMsg_keeps (freeRoute_keeps (.ite h (landBytes_keeps h)))))) (.next h)
    · exact .next h
  · exact .next h

end Sys2Proof.Machine
end

/-! ## DRAM stays canonical: networks, tasks, launches, loads and stores (08, 09, 11, 17) -/
section
namespace Sys2Proof.Machine

open Sys2Proof

variable {o s : State}

/-! ### Networks, records, the crossbar and access control (17 R319-R350) -/

theorem sendToken_keeps {d : BitVec 4} {n m : Nat} (h : Keeps o s) : Keeps o (sendToken d n m s) :=
  .ite (loadS_keeps (State.count_keeps h)) (advance_keeps (State.send_keeps (State.pushLoad_keeps h)))

theorem execTake_keeps {d a : BitVec 4} (h : Keeps o s) : Ends o (execTake d a s) :=
  settle_keeps h (.bind_any fun _ => sendToken_keeps h)

theorem execTakeb_keeps {d a b : BitVec 4} (h : Keeps o s) : Ends o (execTakeb d a b s) :=
  settle_keeps h (.bind_any fun _ => .bind_any fun _ => sendToken_keeps h)

theorem execBalancerToken_keeps (h : Keeps o s) : Ends o (execBalancerToken s) := by
  unfold execBalancerToken
  split
  · split
    · split
      · exact .next h
      · exact .next h
    · exact .next h
  · exact .next h

theorem execOutputCounter_keeps (h : Keeps o s) : Ends o (execOutputCounter s) := by
  unfold execOutputCounter
  split
  · split
    · exact .ite (.next h) (.ite (.next (State.fillLoad_keeps (dropMsg_keeps h))) (.next (State.fillLoad_keeps (State.setNet_keeps
        (dropMsg_keeps h)))))
    · exact .next h
  · exact .next h

theorem controlNet_keeps {what n : Nat} {operand : Word} {bytes : List Byte} {spans : List (Loc × Nat)} (h : Keeps o s) :
    Keeps o (controlNet what n operand bytes spans s) :=
  holdFor_keeps (State.setNet_keeps h)

theorem execNsave_keeps {a b : BitVec 4} (h : Keeps o s) : Ends o (execNsave a b s) := by
  unfold execNsave
  extract_lets check
  have hc : OkKeeps o (fun x : Nat × List (Loc × Nat) × State => x.2.2) check :=
    .bind_any fun _ => .bind_any fun _ => .bind (spanOf_keeps h) fun _ h1 => h1
  clear_value check
  split
  · exact .next (takeTrap_keeps h)
  · exact .next (controlNet_keeps hc)

theorem execNrest_keeps {a b : BitVec 4} (h : Keeps o s) : Ends o (execNrest a b s) := by
  unfold execNrest
  extract_lets va check
  have hc : OkKeeps o (fun x : Nat × List Loc × State => x.2.2) check :=
    .bind_any fun _ => .bind_any fun _ => .bind (spanPlace_keeps h) fun _ h1 => h1
  clear_value check
  split
  · exact .next (takeTrap_keeps h)
  · refine readChecked_keeps hc fun _ _ h2 => ?_
    split
    · exact .next (takeTrap_keeps h2)
    · exact .next (controlNet_keeps h2)

theorem execNreset_keeps {a b : BitVec 4} (h : Keeps o s) : Ends o (execNreset a b s) :=
  settle_keeps h (.bind_any fun _ => .bind_any fun _ => .bind_any fun _ => controlNet_keeps h)

theorem applyControl_keeps {what n : Nat} {operand : Word} {bytes : List Byte} {spans : List (Loc × Nat)} (h : Keeps o s) :
    Keeps o (applyControl what n operand bytes spans s) := by
  unfold applyControl
  dsimp only
  split
  · exact State.setNet_keeps (coreStore_keeps (settleRaised_keeps (beforeReading_keeps h)))
  · exact State.setNet_keeps h
  · exact State.setNet_keeps h

theorem execNetworkQuiet_keeps (h : Keeps o s) : Ends o (execNetworkQuiet s) := by
  unfold execNetworkQuiet
  dsimp only
  split
  · exact .next h
  · split
    · exact .next (State.setNet_keeps h)
    · split
      · exact .ite (.next h) (.next (finishWait_keeps (State.setNet_keeps (applyControl_keeps (State.focus_keeps h)))))
      · exact .next (State.setNet_keeps h)

theorem clearRecord_keeps {check : Checked (Nat × Part)} {set : Option (Nat × Nat)} (h : Keeps o s) :
    Ends o (clearRecord check set s) := by
  unfold clearRecord
  split
  · exact .next (takeTrap_keeps h)
  · exact dataChecked_keeps h (fun _ h1 => .next (advance_keeps (queueRecord_keeps h1)))

theorem onRecord_keeps {check : Checked (Nat × Part)} {dest : LoadDest} {acq : Option Nat} {i : Instr} {x y : Word}
    {go : Nat → Nat → List Byte → State → Checked State} (h : Keeps o s)
    (hgo : ∀ x y z u, Keeps o u → OkKeeps o (·) (go x y z u)) :
    Ends o (onRecord check dest acq i x y s go) := by
  unfold onRecord
  split
  · exact .next (takeTrap_keeps h)
  · exact readOrLate_keeps h (fun _ _ _ h1 => hgo _ _ _ _ h1)

theorem latchRecord_keeps {a b : BitVec 4} {c : BitVec 3} {x y : Word} {h2 : BitVec 2} {n id : Nat} {r : List Byte} (h : Keeps o s) :
    OkKeeps o (·) (latchRecord a b c x y h2 n id r s) := by
  refine .bind_any fun _ => ?_
  split
  · trivial
  · refine State.fillLoad_keeps (acquireL1_keeps (.ite (State.count_keeps ?_) ?_))
    all_goals
      split
      · exact recordWrite_keeps h
      · exact h

theorem execStatl_keeps {n : BitVec 3} {a b : BitVec 4} {h' : BitVec 2} {c : BitVec 3} (h : Keeps o s) :
    Ends o (execStatl n a b h' c s) :=
  onRecord_keeps h (fun _ _ _ _ h1 => latchRecord_keeps h1)

theorem recordWord_keeps {y : Word} {id : Nat} {r : List Byte} (h : Keeps o s) : OkKeeps o (·) (recordWord y id r s) :=
  State.fillLoad_keeps h

theorem execStatr_keeps {d a b : BitVec 4} (h : Keeps o s) : Ends o (execStatr d a b s) :=
  onRecord_keeps h (fun _ _ _ _ h1 => recordWord_keeps h1)

theorem execStatisticsPartial_keeps (h : Keeps o s) : Ends o (execStatisticsPartial s) := by
  unfold execStatisticsPartial
  split
  · split
    · exact .next (arrivePartial_keeps (dropMsg_keeps h))
    · exact .next h
  · exact .next h

theorem execEvcfg_keeps {a : BitVec 4} (h : Keeps o s) : Ends o (execEvcfg a s) := by
  unfold execEvcfg
  dsimp only
  split
  · exact .next (takeTrap_keeps h)
  next e =>
    refine readChecked_keeps ((spanPlace_keeps h).ok e) fun _ _ h1 => ?_
    split
    · exact .next (takeTrap_keeps h1)
    · exact .next (advance_keeps (State.setGrove_keeps h1))

theorem execEvrd_keeps {d a : BitVec 4} (h : Keeps o s) : Ends o (execEvrd d a s) := by
  unfold execEvrd
  split
  · exact .next (loadS_keeps h)
  · exact .next (takeTrap_keeps h)

theorem execEvxPulse_keeps (h : Keeps o s) : Ends o (execEvxPulse s) := by
  unfold execEvxPulse
  dsimp only
  refine .ite (.next ?_) (.next (releaseArmed_keeps (State.setGrove_keeps ?_)))
  all_goals
    refine .foldl_of (Prod.snd : List Nat × State → State) (fun _ h1 _ => ?_) h
    split
    · split
      · exact dropMsg_keeps h1
      · exact h1
    · exact h1

theorem execActw_keeps {a b : BitVec 4} (h : Keeps o s) : Ends o (execActw a b s) := by
  unfold execActw
  dsimp only
  split
  · exact .next (takeTrap_keeps h)
  next e =>
    refine readChecked_keeps (OkKeeps.of_ok (·.2) e (.bind_any fun _ => .bind_any fun _ => spanPlace_keeps h)) fun _ _ h1 => ?_
    split
    · exact .next (takeTrap_keeps h1)
    · exact .next (advance_keeps (State.onPart_keeps h1))

/-! ### Contexts of arrays (18 R364) -/

theorem loadArray_keeps {arr : Nat} {bs : List Byte} (h : Keeps o s) : Keeps o (loadArray arr bs s) := by
  unfold loadArray
  dsimp only
  split
  · exact .ite h (State.onThread_keeps h)
  · exact h

/-! ### Tasks, migration and crews (08 R183-R188, R211) -/

theorem spawnRead_keeps {va : Word} {id : Nat} {bs : List Byte} (h : Keeps o s) : OkKeeps o (·) (spawnRead va id bs s) := by
  unfold spawnRead
  split
  · exact trivial
  · exact State.fillLoad_keeps h

theorem execTspawn_keeps {d a : BitVec 4} (h : Keeps o s) : Ends o (execTspawn d a s) := by
  unfold execTspawn
  dsimp only
  split
  · exact .next (takeTrap_keeps h)
  next e => exact readOrLate_keeps ((spanPlace_keeps h).ok e) (fun _ _ _ h1 => spawnRead_keeps h1)

theorem execTdec_keeps {a b : BitVec 4} {n : BitVec 6} (h : Keeps o s) : Ends o (execTdec a b n s) :=
  .ite (.next (advance_keeps h)) (.next (advance_keeps (State.sendRelease_keeps h)))

theorem requeueSelf_keeps (h : Keeps o s) : Keeps o (requeueSelf s) := requeue_keeps (State.onTh_keeps h)

theorem accountNow_keeps (h : Keeps o s) : Keeps o (accountNow s) := finishIssue_keeps (State.onTh_keeps h)

theorem migrateTo_keeps {core : Nat} (h : Keeps o s) : Keeps o (migrateTo core s) :=
  State.send_keeps (State.onTh_keeps (State.onCore_keeps h))

theorem execMigr_keeps {a : BitVec 4} (h : Keeps o s) : Ends o (execMigr a s) := by
  unfold execMigr
  dsimp only
  split
  · exact .next (takeTrap_keeps h)
  · split
    · exact .next (takeTrap_keeps h)
    next e =>
      have h1' := (spanPlace_keeps h).ok e
      split
      · exact .next (holdForWork_keeps (performAt_keeps h1'))
      next e => exact .next (takeTrap_keeps ((reductionTrap_keeps (performAt_keeps h1')) _ e))
      · split
        · exact .next (requeueSelf_keeps (flushPend_keeps (accountNow_keeps (advance_keeps (performAt_keeps h1')))))
        · exact .next (migrateTo_keeps (flushPend_keeps (accountNow_keeps (advance_keeps (performAt_keeps h1')))))
        · exact .next (holdForWork_keeps (performAt_keeps h1'))

theorem addFollower_keeps {crew core cidx : Nat} (h : Keeps o s) : Keeps o (addFollower crew core cidx s) := by
  unfold addFollower
  split
  · exact h
  · exact emptySlot_keeps h

theorem execGang_keeps {n : BitVec 6} (h : Keeps o s) : Ends o (execGang n s) :=
  .ite (.next (takeTrap_keeps h)) (.ite (.next (waitFor_keeps h)) (.next (State.onTh_keeps (.foldl (fun _ h1 _ => addFollower_keeps h1)
    (advance_keeps h)))))

theorem leaveCrew_keeps (h : Keeps o s) : Keeps o (leaveCrew s) := State.onTh_keeps h

theorem leaveOrDissolve_keeps (h : Keeps o s) : Keeps o (leaveOrDissolve s) :=
  .ite h (.ite (dissolveCrew_keeps h) (leaveCrew_keeps h))

theorem rejoin_keeps {pc : Word} {tid : Nat} (h : Keeps o s) : Keeps o (rejoin pc s tid) := by
  unfold rejoin
  split
  · exact h
  · exact .ite (requeue_keeps (.ite (State.focus_keeps (finishIssue_keeps (advance_keeps (State.onTh_keeps (State.focus_keeps h)))))
      (State.onThread_keeps h))) (State.onThread_keeps (.ite (State.focus_keeps (finishIssue_keeps (advance_keeps (State.onTh_keeps
      (State.focus_keeps h))))) (State.onThread_keeps h)))

theorem reconverge_keeps (h : Keeps o s) : Keeps o (reconverge s) := .foldl (fun _ h1 _ => rejoin_keeps h1) (finishWait_keeps h)

theorem execJoin_keeps (h : Keeps o s) : Ends o (execJoin s) :=
  .ite (.next (advance_keeps h)) (.ite (.next (advance_keeps h)) (.next (waitFor_keeps h)))

theorem execJoinReconverge_keeps (h : Keeps o s) : Ends o (execJoinReconverge s) := by
  unfold execJoinReconverge
  split
  · split
    · exact .ite (.ite (.next (reconverge_keeps (State.focus_keeps h))) (.next (finishWait_keeps (State.focus_keeps h)))) (.next h)
    · exact .next h
  · exact .next h

theorem replaySpan_keeps {w : Who} {k : Access} {va n : Nat} (h : Keeps o s) : OkKeeps o (·.2) (replaySpan w k va n s) := by
  unfold replaySpan
  split
  · exact trivial
  next e =>
    have h1' := (resolveSpan_keeps h).ok e
    dsimp only
    split
    · exact h1'
    · split
      · exact trivial
      next e => exact (settleBad_keeps h1').ok e

theorem replayRead_keeps {w : Who} {k : Access} {va n : Nat} (h : Keeps o s) : OkKeeps o (·.2) (replayRead w k va n s) := by
  unfold replayRead
  split
  next e => exact (replaySpan_keeps h).ok e
  · exact trivial

theorem replayNodes_keeps {w : Who} {self : Option Nat} {desc : Word} {vsel : Bool} {succ shnd n j at_ : Nat} (h : Keeps o s) :
    OkKeeps o (·.2.2) (replayNodes w self desc vsel succ shnd n j at_ s) := by
  induction n generalizing s j at_ with
  | zero => exact h
  | succ n ih =>
    unfold replayNodes
    refine .bind (replayRead_keeps h) fun x h1 => .ite trivial (.bind (replayRead_keeps h1) fun y h2 => ?_)
    dsimp only
    split
    · exact trivial
    · exact .bind (replayRead_keeps h2) fun _ h3 => .bind (replayRead_keeps h3) fun _ h4 => .bind (ih h4) fun _ h5 => h5

theorem replayPlan_keeps {w : Who} {self : Option Nat} {desc : Word} (h : Keeps o s) : OkKeeps o (·.2) (replayPlan w self desc s) :=
  .bind (replayRead_keeps h) fun _ h1 => .bind (replayRead_keeps h1) fun _ h2 => .ite trivial (.ite trivial (.ite trivial (.bind
    (replayNodes_keeps h2) fun _ h3 => h3)))

theorem startReplay_keeps {part : Nat} {desc : Word} {p : ReplayPlan} {reply : Reply} (h : Keeps o s) :
    Keeps o (startReplay part desc p reply s) :=
  .foldl (fun _ h1 _ => spawnTask_keeps h1) (State.onPart_keeps h)

theorem spawnNow_keeps {t : Thread} {l : Load} {task : TaskDesc} {depc : Nat} (h : Keeps o s) :
    Keeps o (spawnNow t l task depc s) :=
  spawnTask_keeps (State.fillLoad_keeps h)

theorem runReplay_keeps {a : BitVec 4} {desc : Word} {id : Nat} (h : Keeps o s) : OkKeeps o (·) (runReplay a desc id s) := by
  unfold runReplay
  dsimp only
  split
  · exact State.fillLoad_keeps h
  · exact State.fillLoad_keeps (State.logFault_keeps h)
  · exact trivial
  next e => exact startReplay_keeps ((replayPlan_keeps h).ok e)

theorem execGreplay_keeps {d a : BitVec 4} (h : Keeps o s) : Ends o (execGreplay d a s) := by
  unfold execGreplay
  dsimp only
  split
  · exact .next (takeTrap_keeps h)
  next e =>
    exact dataChecked_keeps ((spanPlace_keeps h).ok e) (fun _ h1 => .ite (settle_keeps (performAt_keeps h1) (.map (runReplay_keeps
      (State.pushLoad_keeps (performAt_keeps h1))) fun _ h2 => advance_keeps h2)) (.next (advance_keeps (State.pushLoad_keeps
      (performAt_keeps h1)))))

/-! ### Launch packets (08 R207-R209, 20 R376, R377) -/

theorem launchRead_keeps {target id : Nat} {bs : List Byte} (h : Keeps o s) : OkKeeps o (·) (launchRead target id bs s) :=
  .ite (State.fillLoad_keeps h) (.ite (State.draw_keeps (State.fillLoad_keeps h)) (State.sendRelease_keeps h))

theorem execPlnch_keeps {d a b : BitVec 4} (h : Keeps o s) : Ends o (execPlnch d a b s) := by
  unfold execPlnch
  dsimp only
  split
  · exact .next (takeTrap_keeps h)
  next e => exact readOrLate_keeps ((spanPlace_keeps h).ok e) (fun _ _ _ h1 => launchRead_keeps h1)

theorem landPacket_keeps {part queue pkg rpart : Nat} {bs : List Byte} {sender : LogEntry} (h : Keeps o s) :
    Keeps o (landPacket part queue pkg rpart bs sender s).2 := by
  unfold landPacket
  split
  · exact h
  · split
    · exact hwStore_keeps (State.setPart_keeps h)
    · exact State.logAsync_keeps h
    · exact h

theorem execPacketArrival_keeps (h : Keeps o s) : Ends o (execPacketArrival s) := by
  unfold execPacketArrival
  split
  · split
    · dsimp only
      split
      · exact .next (State.fillLoad_keeps (landPacket_keeps (dropMsg_keeps h)))
      · exact .next (landPacket_keeps (dropMsg_keeps h))
    · exact .next h
  · exact .next h

theorem beginPacket_keeps {part queue : Nat} (h : Keeps o s) : Keeps o (beginPacket part queue s) := State.onPart_keeps h

theorem Flt.settle_keeps {f : Flt} (h : Keeps o s) : Keeps o (Flt.settle f s) := by
  unfold Flt.settle
  split
  · exact retire_keeps h
  · exact h

theorem failPacket_keeps {part queue : Nat} {sender : LogEntry} {cause : Nat} {addr : Word} {fval value : Nat} (h : Keeps o s) :
    Keeps o (failPacket part queue sender cause addr fval value s) :=
  popPacket_keeps (State.logAsync_keeps h)

theorem servePacket_keeps {part queue : Nat} {k : Packet} (h : Keeps o s) : Keeps o (servePacket part queue k s) := by
  unfold servePacket
  dsimp only
  split
  · split
    · exact failPacket_keeps h
    · split
      · exact failPacket_keeps (Flt.settle_keeps h)
      next e =>
        have h1' := (replaySpan_keeps h).ok e
        split
        · exact failPacket_keeps h1'
        · exact spawnTask_keeps h1'
  · split
    · split
      · exact failPacket_keeps h
      · exact spawnTask_keeps h
    · split
      · exact failPacket_keeps h
      · split
        · exact failPacket_keeps h
        · split
          · exact popPacket_keeps h
          · exact failPacket_keeps h
          · exact failPacket_keeps (Flt.settle_keeps h)
          next e => exact startReplay_keeps ((replayPlan_keeps h).ok e)

theorem execLandingServer_keeps (h : Keeps o s) : Ends o (execLandingServer s) := by
  unfold execLandingServer
  split
  · exact .next h
  · split
    · exact .ite (.next h) (.next (servePacket_keeps (beginPacket_keeps h)))
    · exact .next h

theorem execHostPacketWrite_keeps (h : Keeps o s) : Ends o (execHostPacketWrite s) := by
  unfold execHostPacketWrite
  dsimp only
  split
  · exact .next h
  · exact .ite (.next (State.onPart_keeps (landPacket_keeps h))) (.next (State.setPart_keeps h))

/-! ### Loads, stores, fences and atomics (chapters 09 and 11) -/

theorem scalarPlace_keeps {k : Access} {a : BitVec 4} {dk : Bool} {off : Int} {width fval : Nat} (h : Keeps o s) :
    OkKeeps o (·.2.2) (scalarPlace k a dk off width fval s) :=
  .ite (.bind_any fun _ => h) (.bind (spanPlace_keeps h) fun _ h1 => h1)

theorem scalarLoad_keeps {len : Nat} {d a : BitVec 4} {dk sx : Bool} {off : Int} {width fval : Nat} {acq : Option Nat}
    (h : Keeps o s) :
    Ends o (scalarLoad len d a dk sx off width fval acq s) := by
  unfold scalarLoad
  split
  · exact .next (takeTrap_keeps h)
  next e => exact dataChecked_keeps ((scalarPlace_keeps h).ok e) (fun _ h1 => .next (advance_keeps (State.pushAcquire_keeps h1)))

theorem scalarStore_keeps {len : Nat} {d a : BitVec 4} {dk : Bool} {off : Int} {width fval : Nat} {rel : Option Nat} (h : Keeps o s) :
    Ends o (scalarStore len d a dk off width fval rel s) := by
  unfold scalarStore
  split
  · exact .next (takeTrap_keeps h)
  next e => exact .next (advance_keeps (queueStore_keeps ((scalarPlace_keeps h).ok e)))

theorem lanePlace_keeps {k : Access} {va : Word} {base : Nat} {alignField transField : Nat × Nat} (h : Keeps o s) :
    OkKeeps o (·.2) (lanePlace k va base alignField transField s) := by
  unfold lanePlace
  split
  · exact trivial
  · split
    · exact trivial
    next e => exact (spanPlace_keeps h).ok e

theorem lanePlaces_keeps {k : Access} {addr : Nat → Word} {base : Nat} {x y : Nat × Nat} {l : List Nat} (h : Keeps o s) :
    OkKeeps o (·.2) (lanePlaces k addr base x y l s) := by
  induction l generalizing s with
  | nil => exact h
  | cons i l ih => exact .bind (lanePlace_keeps h) fun _ h1 => .bind (ih h1) fun _ h2 => h2

theorem checkLanes_keeps {addr : Nat → Word} {l : List (Nat × List Loc)} (h : Keeps o s) : OkKeeps o (·) (checkLanes addr l s) := by
  induction l generalizing s with
  | nil => exact h
  | cons p l ih => exact .bind (checkData_keeps h) fun _ h1 => ih h1

theorem loadLanes_keeps {d : BitVec 4} {addr : Nat → Word} {ps : List (Nat × List Loc)} (h : Keeps o s) :
    Keeps o (loadLanes d addr ps s) :=
  .ite h (State.pushLoad_keeps h)

theorem vectorLoad_keeps {d : BitVec 4} {addr : Nat → Word} {base : BitVec 4} {alignField : Nat × Nat} {k : KWord} (h : Keeps o s) :
    Ends o (vectorLoad d addr base alignField k s) :=
  settle_keeps h (.bind (lanePlaces_keeps h) fun _ h1 => .bind (checkLanes_keeps h1) fun _ h2 => advance_keeps (loadLanes_keeps h2))

theorem storeLanes_keeps {d : BitVec 4} {n : BitVec 3} {stat : BitVec 1} {va : Word} {ps : List (Nat × List Loc)} (h : Keeps o s) :
    Keeps o (storeLanes d n stat va ps s) :=
  queueStore_keeps h

theorem vectorStore_keeps {d : BitVec 4} {n : BitVec 3} {stat : BitVec 1} {addr : Nat → Word} {base : BitVec 4} {alignField : Nat × Nat}
    {k : KWord} (h : Keeps o s) :
    Ends o (vectorStore d n stat addr base alignField k s) :=
  settle_keeps h (.bind (lanePlaces_keeps h) fun _ h1 => advance_keeps (storeLanes_keeps h1))

theorem progress_keeps {check : Nat → State → Checked (List Loc × State)} {l : List Nat}
    (hcheck : ∀ i t, Keeps o t → OkKeeps o (·.2) (check i t)) (h : Keeps o s) :
    Keeps o (progress check l s).2.2 := by
  induction l generalizing s with
  | nil => exact h
  | cons i l ih =>
    unfold progress
    split
    · exact h
    next e => exact ih ((hcheck _ _ h).ok e)

theorem lanesEnd_keeps {stop : Option (Nat × Trap)} (h : Keeps o s) : Keeps o (lanesEnd stop s) := by
  unfold lanesEnd
  split
  · exact takeTrap_keeps (State.onTh_keeps h)
  · exact advance_keeps (State.onTh_keeps h)

theorem gatherLane_keeps {addr : Nat → Word} {a b : BitVec 4} {i : Nat} (h : Keeps o s) : OkKeeps o (·.2) (gatherLane addr a b i s) :=
  .bind (lanePlace_keeps h) fun _ h1 => .bind (checkData_keeps h1) fun _ h2 => h2

theorem execVldx_keeps {d a b : BitVec 4} {k : BitVec 3} (h : Keeps o s) : Ends o (execVldx d a b k s) :=
  .next (lanesEnd_keeps (loadLanes_keeps (progress_keeps (fun _ _ h1 => gatherLane_keeps h1) h)))

theorem execVstx_keeps {d a b : BitVec 4} {k n : BitVec 3} {t : BitVec 1} (h : Keeps o s) : Ends o (execVstx d a b k n t s) :=
  .next (lanesEnd_keeps (storeLanes_keeps (progress_keeps (fun _ _ h1 => lanePlace_keeps h1) h)))

theorem execVld6_keeps {d a : BitVec 4} {k : BitVec 3} (h : Keeps o s) : Ends o (execVld6 d a k s) := by
  unfold execVld6
  dsimp only
  split
  · exact .next (advance_keeps h)
  · split
    · exact .next (takeTrap_keeps h)
    next e => exact dataChecked_keeps ((spanPlace_keeps h).ok e) (fun _ h1 => .next (advance_keeps (State.pushLoad_keeps h1)))

theorem groupPlace_keeps {va : Word} {fval g mask : Nat} (h : Keeps o s) : OkKeeps o (·.2.2) (groupPlace va fval g mask s) :=
  .bind (spanPlace_keeps h) fun _ h1 => h1

theorem groupStores6_keeps {va : Word} {fval : Nat} {v : VWord} {m : KWord} {l : List Nat} (h : Keeps o s) :
    OkKeeps o (·.2) (groupStores6 va fval v m l s) := by
  induction l generalizing s with
  | nil => exact h
  | cons g l ih => exact .bind (groupPlace_keeps h) fun _ h1 => .bind (ih h1) fun _ h2 => h2

theorem execVst6_keeps {d a : BitVec 4} {k n : BitVec 3} {t : BitVec 1} (h : Keeps o s) : Ends o (execVst6 d a k n t s) := by
  unfold execVst6
  dsimp only
  split
  · exact .next (advance_keeps h)
  · split
    · exact .next (takeTrap_keeps h)
    · split
      · exact .next (takeTrap_keeps h)
      next e => exact .next (advance_keeps (queueStore_keeps ((groupStores6_keeps h).ok e)))

theorem lineOp_keeps {k : Access} {discard : Bool} {a : BitVec 4} (h : Keeps o s) : Ends o (lineOp k discard a s) := by
  unfold lineOp
  split
  · exact .next (takeTrap_keeps h)
  next e =>
    refine .next ?_
    refine advance_keeps ?_
    split
    next e => exact queueEntry_keeps ((spanPlace_keeps h).ok e)
    · exact (spanPlace_keeps h).ok e
  next e => exact .next (advance_keeps ((spanPlace_keeps h).ok e))

theorem execPref_keeps {a : BitVec 4} {l : BitVec 1} (h : Keeps o s) : Ends o (execPref a l s) := by
  unfold execPref
  refine .next ?_
  refine advance_keeps ?_
  split
  · exact .ite h (touchL1_keeps (fillReplica_keeps h))
  · exact h

theorem fenced_keeps {scope : Nat} {go : State → Outcome} (h : Keeps o s) (hgo : ∀ u, Keeps o u → Ends o (go u)) :
    Ends o (fenced scope s go) := by
  unfold fenced
  dsimp only
  split
  · exact .next (holdForWork_keeps (performAt_keeps h))
  next e => exact .next (takeTrap_keeps ((reductionTrap_keeps (performAt_keeps h)) _ e))
  · exact hgo _ (performAt_keeps h)

theorem execFence_keeps {c : BitVec 3} (h : Keeps o s) : Ends o (execFence c s) :=
  deferredError_keeps h (fun _ h1 => fenced_keeps h1 (fun _ h2 => .next (advance_keeps (acquireL1_keeps h2))))

theorem execFencel_keeps (h : Keeps o s) : Ends o (execFencel s) :=
  .next (advance_keeps (.ite (State.onTh_keeps h) (queueEntry_keeps (State.onTh_keeps h))))

theorem execFenceh_keeps {a : BitVec 4} {c : BitVec 3} (h : Keeps o s) : Ends o (execFenceh a c s) := by
  unfold execFenceh
  dsimp only
  split
  · exact .next (takeTrap_keeps h)
  · exact fenced_keeps h (fun _ h1 => .next (holdFor_keeps (.foldl (fun _ h2 _ => applyUpTo_keeps h2) h1)))

theorem drainMarked_keeps {core : Nat} (h : Keeps o s) : Keeps o (drainMarked core s) :=
  .foldl (fun _ h1 _ => .ite (performBefore_keeps h1) h1) h

theorem dropMarks_keeps {core : Nat} (h : Keeps o s) : Keeps o (dropMarks core s) := clearL1_keeps h

theorem execFencehTargetDrain_keeps (h : Keeps o s) : Ends o (execFencehTargetDrain s) := by
  unfold execFencehTargetDrain
  split
  · split
    · exact .next (.ite (finishWait_keeps (acquireL1_keeps (State.focus_keeps h))) h)
    · exact .ite (.next (State.onThread_keeps (dropMarks_keeps (drainMarked_keeps h)))) (.next h)
    · exact .next h
  · exact .next h

theorem queueAtom_keeps {op : Nat → AtomOp} (h : Keeps o s) : Keeps o (queueAtom op s) := h

theorem returningAtom_keeps {k : Access} {kind op width : Nat} {d a b : BitVec 4} (h : Keeps o s) :
    Ends o (returningAtom k kind op width d a b s) := by
  unfold returningAtom
  dsimp only
  split
  · exact .next (takeTrap_keeps h)
  next e =>
    exact dataChecked_keeps ((spanPlace_keeps h).ok e) (fun _ h1 => .next (advance_keeps (queueAtom_keeps (State.pushLoad_keeps h1))))

theorem reduction_keeps {kind op width : Nat} {a b : BitVec 4} (h : Keeps o s) : Ends o (reduction kind op width a b s) :=
  .ite (.next (takeTrap_keeps h)) (.next (advance_keeps (queueAtom_keeps h)))

theorem vredLane_keeps {o' : Nat} {addr : Nat → Word} {d : BitVec 4} {i : Nat} (h : Keeps o s) :
    Keeps o (vredLane o' addr d s i) :=
  queueAtom_keeps h

theorem execVred_keeps {d a b : BitVec 4} {k : BitVec 3} {o' : BitVec 4} (h : Keeps o s) : Ends o (execVred d a b k o' s) :=
  .next (lanesEnd_keeps (.foldl (fun _ h1 _ => vredLane_keeps h1) (progress_keeps (fun _ _ h1 => .ite trivial h1) h)))

theorem loadTrap_keeps {l : Load} {trap : Trap} (h : Keeps o s) : Keeps o (loadTrap l trap s) :=
  State.onTh_keeps (takeTrap_keeps (State.onTh_keeps h))

theorem returnLoad_keeps {t : Thread} {l : Load} (h : Keeps o s) : Keeps o (returnLoad t l s) := by
  unfold returnLoad
  dsimp only
  split
  · exact State.onThread_keeps h
  · exact .ite (State.onThread_keeps h) (.ite (loadTrap_keeps (State.focus_keeps (State.onThread_keeps h))) h)
  · exact h

theorem performLoad_keeps {t : Thread} {l : Load} {piece : Nat} (h : Keeps o s) : Keeps o (performLoad t l piece s) := by
  unfold performLoad
  split
  · split
    · exact .ite (readLoad_keeps h) h
    · split
      · exact .ite (readPart_keeps h) h
      · exact h
  · exact h

theorem execStoreAtHome_keeps (h : Keeps o s) : Ends o (execStoreAtHome s) := by
  unfold execStoreAtHome
  split
  · exact .next h
  · split
    · exact .next (.ite (performEntry_keeps h) h)
    · exact .next (.ite (raiseStore_keeps h) h)
    · exact .next (.ite (raiseStore_keeps h) h)
    · exact .next (.ite (storePiece_keeps h) h)
    · exact .next h

theorem execAtomicAtHome_keeps (h : Keeps o s) : Ends o (execAtomicAtHome s) := by
  unfold execAtomicAtHome
  split
  · split
    · exact .next (.ite (performAtom_keeps (State.onThread_keeps h)) h)
    · exact .next h
  · exact .next h

theorem execReplicaUpdateApply_keeps (h : Keeps o s) : Ends o (execReplicaUpdateApply s) := by
  unfold execReplicaUpdateApply
  split
  · exact .ite (.next (applyUpdate_keeps h)) (.next h)
  · exact .next h

end Sys2Proof.Machine
end

/-! ## DRAM stays canonical: near-memory engines, planes and the scheduler (02, 12, 14) -/
section
namespace Sys2Proof.Machine

open Sys2Proof

variable {o s : State}

/-! ### Commands to the near-memory engines (14 R296-R302, R310) -/

theorem queueNear_keeps {kind : Nat} {a b gran : BitVec 4} {pri : BitVec 2} (h : Keeps o s) :
    Ends o (queueNear kind a b gran pri s) := by
  unfold queueNear
  extract_lets va w stand bad
  refine settle_keeps h (.bind_any fun _ => ?_)
  extract_lets
  rename_i go _
  have hgo (t : State) (ht : Keeps o t) : OkKeeps o (·) (go t) := by
    refine .bind_any fun _ => .ite (waitFor_keeps h) ?_
    exact advance_keeps (State.onTh_keeps (State.setStand_keeps (registerIn_keeps ht)))
  clear_value go
  split
  · split
    next e => exact hgo _ ((claimTag_keeps h).ok e)
    · trivial
  · exact hgo s h

theorem nearReport_keeps (h : Keeps o s) : OptKeeps o (·.2) (nearReport s) := by
  unfold nearReport
  split
  · exact .none
  · exact .some (State.onTh_keeps h)

theorem execNfence_keeps (h : Keeps o s) : Ends o (execNfence s) := by
  unfold execNfence
  split
  · exact .next (waitFor_keeps h)
  · split
    next e => exact .next (takeTrap_keeps ((nearReport_keeps h) _ e))
    · exact .next (advance_keeps (acquireAt_keeps h))

theorem nfenceDone_keeps (h : Keeps o s) : Keeps o (nfenceDone s) := by
  unfold nfenceDone
  split
  next e => exact finishIssue_keeps (takeTrap_keeps (pickFocus_keeps ((nearReport_keeps h) _ e)))
  · exact finishWait_keeps (acquireAt_keeps h)

theorem execNfenceComplete_keeps (h : Keeps o s) : Ends o (execNfenceComplete s) := by
  unfold execNfenceComplete
  split
  · split
    · exact .ite (.next (nfenceDone_keeps (State.focus_keeps h))) (.next h)
    · exact .next h
  · exact .next h

theorem nearPlaces_keeps {who : Who} {rs : Option (List Region)} {k : Access} {va n : Nat} (h : Keeps o s) :
    BothKeep o (·.2.2) (·.2) (nearPlaces who rs k va n s) := by
  unfold nearPlaces
  dsimp only
  split
  · exact h
  · split
    · exact h
    · split
      · exact h
      next e =>
        have h1' := (resolveSpan_keeps h).ok e
        split <;> exact h1'

theorem nearBytes_keeps {va : Nat} {ls : List Loc} (h : Keeps o s) : BothKeep o (·.2.2) (·.2) (nearBytes va ls s) := by
  unfold nearBytes
  dsimp only
  split
  · exact engineBytes_keeps (fun _ _ h1 => readDram_keeps h1) h
  · exact engineBytes_keeps (fun _ _ h1 => readDram_keeps h1) h

theorem nearRead_keeps {who : Who} {rs : Option (List Region)} {va n : Nat} (h : Keeps o s) :
    BothKeep o (·.2.2) (·.2) (nearRead who rs va n s) :=
  .bind (nearPlaces_keeps h) fun _ h1 => nearBytes_keeps h1

theorem nearStore_keeps {w : Writer} {ls : List Loc} {bs : List Byte} (h : Keeps o s) : Keeps o (nearStore w ls bs s) :=
  storeLocs_keeps (settleRows_keeps h)

theorem purgeRegion_keeps {part : Nat} {r : Region} (h : Keeps o s) : Keeps o (purgeRegion part r s) := by
  unfold purgeRegion
  split
  · exact .foldl (fun _ h1 _ => .foldl (fun _ h2 _ => dropReplicas_keeps (writeBack_keeps h2)) h1) h
  · exact h

theorem purge_keeps {part : Nat} {rs : List Region} (h : Keeps o s) : Keeps o (purge part rs s) :=
  .foldl (fun _ h1 _ => purgeRegion_keeps h1) h

/-! ### The reduction engine (14 R311-R314) -/

theorem flagCheck_keeps {j : BreJob} {a : BitVec 4} (h : Keeps o s) : OkKeeps o (·) (flagCheck j a s) := by
  unfold flagCheck
  split
  next e => exact (resolveSpan_keeps h).ok e
  · exact trivial

theorem queueJob_keeps {id : Nat} {j : BreJob} (h : Keeps o s) : Keeps o (queueJob id j s) := by
  unfold queueJob
  dsimp only
  split
  · exact State.fillLoad_keeps h
  · exact State.fillLoad_keeps (State.setStand_keeps (registerIn_keeps h))

theorem bredRead_keeps {a : BitVec 4} {va : Word} {pri : BitVec 2} {gran : BitVec 4} {id : Nat} {bs : List Byte} (h : Keeps o s) :
    OkKeeps o (·) (bredRead a va pri gran id bs s) := by
  unfold bredRead
  dsimp only
  refine .bind (flagCheck_keeps h) fun _ h1 => ?_
  split
  · exact trivial
  · exact queueJob_keeps h1

theorem execBred_keeps {d a : BitVec 4} {pri : BitVec 2} {gran : BitVec 4} (h : Keeps o s) : Ends o (execBred d a pri gran s) := by
  unfold execBred
  dsimp only
  split
  · exact .next (takeTrap_keeps h)
  next e => exact readOrLate_keeps ((spanPlace_keeps h).ok e) (fun _ _ _ h1 => bredRead_keeps h1)

theorem putJob_keeps {stand slot : Nat} {j : BreJob} (h : Keeps o s) : Keeps o (putJob stand slot j s) := State.setStand_keeps h

theorem execBreJobStart_keeps (h : Keeps o s) : Ends o (execBreJobStart s) := by
  unfold execBreJobStart
  dsimp only
  split
  · exact .next h
  · exact .ite (.next (putJob_keeps (purge_keeps h))) (.next h)

theorem jobInputs_keeps {j : BreJob} {l : List Nat} (h : Keeps o s) : BothKeep o (·.2.2) (·.2) (jobInputs j l s) := by
  induction l generalizing s with
  | nil => exact h
  | cons i l ih => exact .bind (nearRead_keeps h) fun _ h1 => .bind (ih h1) fun _ h2 => h2

theorem jobPiece_keeps {stand slot : Nat} {j : BreJob} (h : Keeps o s) : BothKeep o (·.2.2) (·) (jobPiece stand slot j s) :=
  .bind (jobInputs_keeps h) fun _ h1 => .bind (nearPlaces_keeps h1) fun _ h2 => putJob_keeps (nearStore_keeps h2)

theorem failJob_keeps {stand slot : Nat} {j : BreJob} {e : NearFault} (he : Keeps o e.2.2) : Keeps o (failJob stand slot j e) :=
  putJob_keeps (State.logAsync_keeps he)

theorem execBreGranule_keeps (h : Keeps o s) : Ends o (execBreGranule s) := by
  unfold execBreGranule
  dsimp only
  split
  · exact .next h
  · split
    · exact .next h
    · split
      next e => exact .next ((jobPiece_keeps h).ok e)
      next e => exact .next (failJob_keeps ((jobPiece_keeps h).error e))

theorem jobFlag_keeps {stand slot : Nat} {j : BreJob} (h : Keeps o s) : Keeps o (jobFlag stand slot j s).2 := by
  unfold jobFlag
  split
  next e => exact State.logAsync_keeps ((nearPlaces_keeps h).error e)
  next e => exact nearStore_keeps ((nearPlaces_keeps h).ok e)

theorem execBreJobComplete_keeps (h : Keeps o s) : Ends o (execBreJobComplete s) := by
  unfold execBreJobComplete
  dsimp only
  split
  · exact .next h
  · exact .ite (.next h) (.next (putJob_keeps (State.setStand_keeps (jobFlag_keeps (purge_keeps h)))))

/-! ### Results that return or act late (04 R93) -/

theorem lateBody_keeps {i : Instr} {a b : Word} {id : Nat} {bs : List Byte} (h : Keeps o s) :
    OkKeeps o (·) (lateBody i a b id bs s) := by
  unfold lateBody
  split
  · exact spawnRead_keeps h
  · exact launchRead_keeps h
  · exact bredRead_keeps h
  · exact latchRecord_keeps h
  · exact recordWord_keeps h
  · exact runReplay_keeps h
  · exact h

theorem lateRead_keeps {i : Instr} {a : Word} {wide : Bool} {ls : List Loc} (h : Keeps o s) :
    OkKeeps o (·.2) (lateRead i a wide ls s) := by
  unfold lateRead
  split
  · exact h
  · exact .bind (checkData_keeps h) fun _ h1 => readAs_keeps h1

theorem actLate_keeps {t : Thread} {l : Load} {i : Instr} {a b : Word} {ls : List Loc} (h : Keeps o s) :
    Keeps o (actLate t l i a b ls s) := by
  unfold actLate
  dsimp only
  split
  next e =>
    exact State.focus_keeps (State.onTh_keeps (OkKeeps.of_ok (·) e (.bind (lateRead_keeps (State.onTh_keeps (State.focus_keeps
      (State.fillLoad_keeps h)))) fun _ h1 => lateBody_keeps h1)))
  · exact State.fillLoad_keeps (retireTrap_keeps h)

theorem act_keeps {t : Thread} {l : Load} {a : Acting} (h : Keeps o s) : Keeps o (act t l a s) := by
  unfold act
  split
  · exact spawnNow_keeps h
  · exact actLate_keeps h

theorem execLoadReturn_keeps (h : Keeps o s) : Ends o (execLoadReturn s) := by
  unfold execLoadReturn
  split
  · exact .next h
  · split
    · exact .next h
    · split
      · exact .next (.ite (act_keeps h) h)
      · dsimp only
        split
        · exact .next (returnLoad_keeps (performLoad_keeps h))
        · exact .next (performLoad_keeps h)

/-! ### What a plane does (12 R282-R292) -/

theorem execPcfgExecute_keeps (h : Keeps o s) : Ends o (execPcfgExecute s) := by
  unfold execPcfgExecute
  dsimp only
  split
  · split
    · exact .ite (.next h) (.next (State.setArray_keeps h))
    · exact .next h
  · exact .next h

theorem regionChecked_keeps {arr part : Nat} {e : LogEntry} (h : Keeps o s) : BothKeep o (·) (·) (regionChecked arr part e s) :=
  sliceChecked_keeps h

theorem readSlot_keeps {c : ArrayCmd} {core off n : Nat} (h : Keeps o s) : Keeps o (readSlot c core off n s).2 := by
  unfold readSlot
  dsimp only
  split
  · exact State.draw_keeps (arrayRead_keeps h)
  · exact arrayRead_keeps h

theorem logBadIndex_keeps {arr : Nat} {c : ArrayCmd} {psc : Word} {e : Nat × Nat × BitVec 16} (h : Keeps o s) :
    Keeps o (logBadIndex arr c psc s e) :=
  State.logAsync_keeps h

theorem startStep_keeps {arr : Nat} {c : ArrayCmd} {oc o' ec e pc p : Nat} (h : Keeps o s) :
    Keeps o (startStep arr c oc o' ec e pc p s) := by
  unfold startStep
  dsimp only
  exact deckStore_keeps (deckStore_keeps (deckStore_keeps (storeLocs_keeps (.foldl (fun _ h1 _ => logBadIndex_keeps h1)
    (State.setArray_keeps (readSlot_keeps (readSlot_keeps (syncStand_keeps (State.onArray_keeps h)))))))))

theorem execStepStart_keeps (h : Keeps o s) : Ends o (execStepStart s) := by
  unfold execStepStart
  split
  · split
    · split
      · split
        next e => exact .next (startStep_keeps ((regionChecked_keeps h).ok e))
        next e => exact .next (State.onArray_keeps ((regionChecked_keeps h).error e))
      · exact .next h
    · exact .next h
  · exact .next h

theorem sweepRegion_keeps {arr : Nat} {r : RunningStep} {after : MArray → MArray} (h : Keeps o s) :
    Keeps o (sweepRegion arr r after s) := by
  unfold sweepRegion
  split
  next e => exact State.onArray_keeps ((regionChecked_keeps h).ok e)
  next e => exact State.onArray_keeps ((regionChecked_keeps h).error e)

theorem execStepRetire_keeps (h : Keeps o s) : Ends o (execStepRetire s) := by
  unfold execStepRetire
  split
  · exact .ite (.next (State.pulse_keeps (sweepRegion_keeps h))) (.next h)
  · exact .next h

theorem execFade_keeps (h : Keeps o s) : Ends o (execFade s) := by
  unfold execFade
  dsimp only
  split
  · exact .ite (.next (sweepRegion_keeps h)) (.next h)
  · split
    · split
      · exact .ite (.next (State.setArray_keeps h)) (.next h)
      · exact .next h
    · split
      · split
        · exact .ite (.next (State.setArray_keeps h)) (.next h)
        · exact .next h
      · exact .next h

theorem execRewardArrival_keeps (h : Keeps o s) : Ends o (execRewardArrival s) := by
  unfold execRewardArrival
  split
  · split
    · exact .next (State.onArray_keeps (dropMsg_keeps h))
    · exact .next h
  · exact .next h

theorem sweepWeights_keeps {arr : Nat} {run : RunningStep} {r : Reward} (h : Keeps o s) : Keeps o (sweepWeights arr run r s) :=
  State.setArray_keeps (.ite (State.sendFrom_keeps h) h)

theorem endSweep_keeps {arr : Nat} {r : Reward} (h : Keeps o s) : Keeps o (endSweep arr r s) :=
  State.pulse_keeps (State.onArray_keeps h)

theorem execRewardApply_keeps (h : Keeps o s) : Ends o (execRewardApply s) := by
  unfold execRewardApply
  dsimp only
  split
  · split
    · split
      · exact .next (.ite (endSweep_keeps h) h)
      · split
        next e =>
          have h1' := (regionChecked_keeps h).ok e
          exact .next (.ite (sweepWeights_keeps h1') (endSweep_keeps (sweepWeights_keeps h1')))
        next e => exact .next (State.onArray_keeps ((regionChecked_keeps h).error e))
    · exact .next h
  · split
    · exact .ite (.next h) (.next (State.setArray_keeps h))
    · exact .next h

theorem execGateApply_keeps (h : Keeps o s) : Ends o (execGateApply s) := by
  unfold execGateApply
  dsimp only
  split
  · exact .ite (.next (State.pulse_keeps (State.setArray_keeps h))) (.next h)
  · exact .next h

/-! ### The scheduler (02 R18-R51) -/

theorem execDecrementMessage_keeps (h : Keeps o s) : Ends o (execDecrementMessage s) := by
  unfold execDecrementMessage
  split
  · split
    · exact .next (decrement_keeps (dropMsg_keeps h))
    · exact .next h
  · exact .next h

theorem execReadyMessage_keeps (h : Keeps o s) : Ends o (execReadyMessage s) := by
  unfold execReadyMessage
  split
  · split
    · exact .next (enqueue_keeps (dropMsg_keeps h))
    · exact .next h
  · exact .next h

theorem obtainFar_keeps {part : Nat} {w : WaitSpawn} (h : Keeps o s) : OptKeeps o (·) (obtainFar part w s) := by
  unfold obtainFar
  split
  · exact .none
  next e => exact .some (deliverHandle_keeps (State.onPart_keeps ((placeFar_keeps h) _ e)))

theorem execFarEntryObtained_keeps (h : Keeps o s) : Ends o (execFarEntryObtained s) := by
  unfold execFarEntryObtained
  split
  · exact .next h
  · split
    · exact .next (.getD (obtainFar_keeps h) h)
    · exact .next h

theorem parkWaiting_keeps {w : Wait} (h : Keeps o s) : Keeps o (parkWaiting w s) := by
  unfold parkWaiting
  dsimp only
  split
  next e => exact State.count_keeps ((parkFocus_keeps (.ite (dissolveCrew_keeps h) h)) _ e)
  · exact State.onTh_keeps (State.logMonitor_keeps (.ite (dissolveCrew_keeps h) h))

theorem execDwbPark_keeps (h : Keeps o s) : Ends o (execDwbPark s) := by
  unfold execDwbPark
  split
  · split
    · exact .ite (.next (parkWaiting_keeps (State.focus_keeps h))) (.next h)
    · exact .next h
  · exact .next h

theorem execParkedThreadWake_keeps (h : Keeps o s) : Ends o (execParkedThreadWake s) := by
  unfold execParkedThreadWake
  split
  · split
    · exact .ite (.next (requeue_keeps h)) (.next h)
    · exact .next h
  · exact .next h

theorem execSpinParkWake_keeps (h : Keeps o s) : Ends o (execSpinParkWake s) := by
  unfold execSpinParkWake
  split
  · split
    · exact .next (requeue_keeps h)
    · exact .next h
  · exact .next h

theorem execSpinParkTimeout_keeps (h : Keeps o s) : Ends o (execSpinParkTimeout s) := by
  unfold execSpinParkTimeout
  split
  · split
    · exact .ite (.next (requeue_keeps h)) (.next h)
    · exact .next h
  · exact .next h

theorem missDeadline_keeps (h : Keeps o s) : Keeps o (missDeadline s) := dieFocus_keeps (State.logFault_keeps h)

theorem execYieldDeadline_keeps (h : Keeps o s) : Ends o (execYieldDeadline s) := by
  unfold execYieldDeadline
  split
  · exact .ite (.next (State.onTh_keeps (missDeadline_keeps (State.focus_keeps h)))) (.next h)
  · exact .next h

theorem execMigrationArrival_keeps (h : Keeps o s) : Ends o (execMigrationArrival s) := by
  unfold execMigrationArrival
  split
  · split
    · exact .next (requeue_keeps (State.onThread_keeps (dropMsg_keeps h)))
    · exact .next h
  · exact .next h

end Sys2Proof.Machine
end

/-! ## DRAM stays canonical: loading, halting and the machine room (18, 20) -/
section
namespace Sys2Proof.Machine

open Sys2Proof

variable {o s : State}

/-! ### Loading an image (05 R110-R128, 20 R381) -/

theorem putPte_keeps {at_ e : Nat} (h : Keeps o s) : Keeps o (putPte at_ e s) := homeWrite_keeps h

theorem takeFrame_keeps {part : Nat} (h : Keeps o s) : OptKeeps o (·.2) (takeFrame part s) := by
  unfold takeFrame
  split
  · exact .none
  · split
    · exact .none
    · exact .some (h.of_wf fun hs => Memory.wf_clear _ _ _ hs)

theorem splitLeaf_keeps {e level frame : Nat} (h : Keeps o s) : Keeps o (splitLeaf e level frame s) :=
  .foldl (fun _ h1 _ => putPte_keeps h1) h

theorem splitGroup_keeps {table idx : Nat} (h : Keeps o s) : Keeps o (splitGroup table idx s) :=
  .foldl (fun _ h1 _ => putPte_keeps h1) h

/-- What the recursion of `ownLeaf` hands to level `l + 1`: the walk of level `l`, as the compiler keeps it. -/
noncomputable def ownLeafBelow (part va l : Nat) : Nat.below (motive := fun _ => Nat → State → Option (Nat × State)) (l + 1) :=
  (Nat.brecOn.go (l + 1) (ownLeaf._f part va)).2

theorem ownLeafBelow_fst (part va l : Nat) : (ownLeafBelow part va l).1 = ownLeaf part va l := by
  delta ownLeaf ownLeafBelow
  rfl

theorem ownLeaf_succ (part va l table : Nat) (s : State) :
    ownLeaf part va (l + 1) table s = ownLeaf._f part va (l + 1) (ownLeafBelow part va l) table s := by
  delta ownLeaf ownLeafBelow
  rfl

theorem ownLeaf_keeps {part va level table : Nat} (h : Keeps o s) : OptKeeps o (·.2) (ownLeaf part va level table s) := by
  induction level generalizing table s with
  | zero =>
    delta ownLeaf
    change OptKeeps o _ (ownLeaf._f part va 0 ⟨⟩ table s)
    delta ownLeaf._f
    dsimp -zeta only
    extract_lets idx at_ e
    refine .ite ?_ (.ite (.some (.ite (splitGroup_keeps h) h)) .none)
    rcases ht : takeFrame part s with _ | ⟨f, t⟩
    · exact .none
    · exact .some (putPte_keeps (takeFrame_keeps h _ ht))
  | succ l ih =>
    rw [ownLeaf_succ]
    simp only [← ownLeafBelow_fst] at ih
    generalize ownLeafBelow part va l = below at ih ⊢
    delta ownLeaf._f
    dsimp -zeta only
    extract_lets idx at_ e
    refine .ite ?_ (.ite ?_ (ih h))
    · rcases ht : takeFrame part s with _ | ⟨f, t⟩
      · exact .none
      · exact ih (putPte_keeps (takeFrame_keeps h _ ht))
    · rcases ht : takeFrame part s with _ | ⟨f, t⟩
      · exact .none
      · exact ih (putPte_keeps (splitLeaf_keeps (takeFrame_keeps h _ ht)))

theorem flushFrame_keeps {a : Nat} (h : Keeps o s) : Keeps o (flushFrame a s) :=
  .foldl (fun _ h1 _ => dropL1All_keeps (dropReplicas_keeps (writeBack_keeps h1))) h

theorem mapPage_keeps {part root : Nat} {x : Sect} {n : Nat} (h : Keeps o s) : OptKeeps o (·) (mapPage part root x n s) :=
  .map (ownLeaf_keeps h) fun _ h1 => putPte_keeps (.ite h1 (flushFrame_keeps h1))

theorem clearTlbs_keeps {part : Nat} (h : Keeps o s) : Keeps o (clearTlbs part s) := h

theorem mapPages_keeps {part root : Nat} {x : Sect} {l : List Nat} (h : Keeps o s) : OptKeeps o (·) (mapPages part root x l s) := by
  induction l generalizing s with
  | nil => exact .some h
  | cons n l ih => exact .bind (mapPage_keeps h) fun _ h1 => ih h1

theorem mapSections_keeps {p : Part} {l : List Sect} (h : Keeps o s) : OkKeeps o (·) (mapSections p l s) := by
  induction l generalizing s with
  | nil => exact h
  | cons x l ih =>
    unfold mapSections
    split
    · split
      next e => exact ih (mapPages_keeps h _ e)
      · trivial
    · exact ih h

theorem writeSection_keeps {p : Part} {x : Sect} (h : Keeps o s) : Keeps o (writeSection p s x) := .ite (partRelease_keeps h) h

theorem buildDeck_keeps {p : Part} {d : PlacedDeck} (h : Keeps o s) : Keeps o (buildDeck p s d) :=
  State.onPart_keeps (State.setCore_keeps h)

theorem buildRecords_keeps {p : Part} {n : Nat} {es : List (Nat × Nat × List Byte)} (h : Keeps o s) :
    Keeps o (buildRecords p n es s) :=
  State.onPart_keeps (.foldl (fun _ h1 _ => recordWrite_keeps h1) h)

theorem onGranted_keeps {p : Part} {f : Core → Core} (h : Keeps o s) : Keeps o (onGranted p f s) :=
  .foldl (fun _ h1 _ => State.setCore_keeps h1) h

theorem setHandlers_keeps {p : Part} {h' : Option Nat} (h : Keeps o s) : Keeps o (setHandlers p h' s) := by
  unfold setHandlers
  split
  · exact onGranted_keeps h
  · exact onGranted_keeps h

theorem setCaches_keeps {p : Part} {flags : Nat} (h : Keeps o s) : Keeps o (setCaches p flags s) :=
  .foldl (fun _ h1 _ => writeL2wp_keeps (State.setGrove_keeps (.foldl (fun _ h2 _ => State.setCore_keeps h2) h1))) h

theorem launchImage_keeps {p : Part} {seed : Nat} {xs : List Sect} {ds : List PlacedDeck} (h : Keeps o s) :
    Keeps o (launchImage p seed xs ds s) := by
  unfold launchImage
  dsimp only
  refine submitRoots_keeps ?_
  refine State.onPart_keeps ?_
  refine usePart_keeps ?_
  refine partRelease_keeps ?_
  refine setCaches_keeps ?_
  refine onGranted_keeps ?_
  refine buildRecords_keeps ?_
  refine .foldl (fun _ h1 _ => State.setArray_keeps h1) ?_
  refine setHandlers_keeps ?_
  refine .foldl (fun _ h1 _ => buildDeck_keeps h1) ?_
  refine .foldl (fun _ h1 _ => writeSection_keeps h1) ?_
  split
  next e => exact clearTlbs_keeps ((mapSections_keeps (.ite (onGranted_keeps (State.onPart_keeps h)) (State.onPart_keeps h))).ok e)
  · exact .ite (onGranted_keeps (State.onPart_keeps h)) (State.onPart_keeps h)

theorem respond_keeps {code result : Nat} {bytes : List Byte} (h : Keeps o s) : Keeps o (respond code result bytes s) := h

theorem mailbox_keeps {go : State → State} (h : Keeps o s) (hgo : ∀ u, Keeps o u → Keeps o (go u)) :
    Ends o (mailbox s go) :=
  .ite (.next (hgo _ h)) (.next h)

theorem measureImage_keeps {d : BitVec 512} (h : Keeps o s) : Keeps o (measureImage d s) := h

theorem execLoadImage_keeps (h : Keeps o s) : Ends o (execLoadImage s) := by
  unfold execLoadImage
  refine mailbox_keeps h fun _ h1 => ?_
  split
  · exact respond_keeps h1
  · split
    · exact respond_keeps h1
    · dsimp only
      split
      · exact respond_keeps h1
      · split
        · exact respond_keeps h1
        · split
          · exact respond_keeps (measureImage_keeps h1)
          · exact respond_keeps (launchImage_keeps (State.onPart_keeps (measureImage_keeps h1)))

/-! ### Walkers (14 R296-R309) -/

theorem onWalkq_keeps {stand : Nat} {f : List NearCmd → List NearCmd} (h : Keeps o s) : Keeps o (onWalkq stand f s) :=
  State.setStand_keeps h

theorem putNear_keeps {c : NearCmd} (h : Keeps o s) : Keeps o (putNear c s) := onWalkq_keeps h

theorem failNear_keeps {c : NearCmd} {e : WalkFault} (he : Keeps o e.1.2.2) : Keeps o (failNear c e) :=
  putNear_keeps (State.logAsync_keeps (State.draw_keeps he))

theorem readNear_keeps {c : NearCmd} (h : Keeps o s) : Keeps o (readNear c s) := by
  unfold readNear
  split
  next e => exact failNear_keeps ((nearRead_keeps h).error e)
  next e =>
    have h1' := (nearRead_keeps h).ok e
    dsimp only
    split
    · exact failNear_keeps h1'
    · split
      · exact putNear_keeps h1'
      · split
        next e => exact failNear_keeps ((nearRead_keeps h1').error e)
        next e =>
          have h1' := (nearRead_keeps h1').ok e
          split
          · exact failNear_keeps h1'
          · exact putNear_keeps h1'

theorem readParams_keeps {c : NearCmd} (h : Keeps o s) : Keeps o (readParams c s) := by
  unfold readParams
  split
  next e => exact failNear_keeps ((nearRead_keeps h).error e)
  next e =>
    have h1' := (nearRead_keeps h).ok e
    exact .ite (failNear_keeps h1') (putNear_keeps h1')

theorem startNear_keeps {c : NearCmd} (h : Keeps o s) : Keeps o (startNear c s) :=
  .ite (readParams_keeps (purge_keeps h)) (putNear_keeps (purge_keeps h))

theorem execWalkerCommandStart_keeps (h : Keeps o s) : Ends o (execWalkerCommandStart s) := by
  unfold execWalkerCommandStart
  dsimp only
  split
  · exact .next h
  · exact .ite (.next h) (.ite (.ite (.next (readNear_keeps h)) (.next h)) (.ite (.next (startNear_keeps h)) (.next h)))

/-- A row's number joins a refusal, whose state stays. -/
theorem atRow_keeps {α : Type} {p : α → State} {row : Option Nat} {r : Except NearFault α} (h : BothKeep o (·.2.2) p r) :
    BothKeep o (·.1.2.2) p (atRow row r) := by
  cases r with
  | ok x => exact h
  | error f => exact h

theorem walkRows_keeps {c : NearCmd} {base size : Nat} {l : List Nat} (h : Keeps o s) :
    BothKeep o (·.1.2.2) (·.2) (walkRows c base size l s) := by
  induction l generalizing s with
  | nil => exact h
  | cons i l ih => exact .bind (atRow_keeps (nearRead_keeps h)) fun _ h1 => .bind (ih h1) fun _ h2 => h2

theorem poolRecord_keeps {c : NearCmd} {r : WalkRecord} (h : Keeps o s) : BothKeep o (·.1.2.2) (·.2) (poolRecord c r s) :=
  .bind (atRow_keeps (nearRead_keeps h)) fun _ h1 => .bind (walkRows_keeps h1) fun _ h2 => h2

theorem recordDone_keeps {c : NearCmd} {r : WalkRecord} {out : List Byte} {moved : Nat} (h : Keeps o s) :
    Keeps o (recordDone c r out moved s) :=
  putNear_keeps (.ite (arrivePartial_keeps h) h)

theorem publishRow_keeps {c : NearCmd} {r : WalkRecord} {d : Deck} {moved : Nat} (h : Keeps o s) :
    Keeps o (publishRow c r d moved s) :=
  .ite (putNear_keeps h) (recordDone_keeps (deckStore_keeps (nearStore_keeps h)))

/-- Where a record's deck does not take its row, the state stays. -/
theorem walkDeck_keeps {c : NearCmd} {r : WalkRecord} (h : Keeps o s) :
    Answers (fun e => Keeps o e.1.2.2) (fun _ => True) (walkDeck c r s) := by
  unfold walkDeck
  split
  · exact h
  · split
    · exact h
    · split
      · exact h
      · trivial

theorem walkRecord_keeps {c : NearCmd} (h : Keeps o s) : BothKeep o (·.1.2.2) (·) (walkRecord c s) := by
  refine .ite (.bind (walkDeck_keeps h) fun _ _ => publishRow_keeps h) (.bind (poolRecord_keeps h) fun _ h1 => ?_)
  exact .ite (.bind (walkDeck_keeps h1) fun _ _ => publishRow_keeps (State.orAew_keeps h1))
    (.bind (atRow_keeps (nearPlaces_keeps h1)) fun _ h2 => recordDone_keeps (nearStore_keeps (State.orAew_keeps h2)))

theorem mRow_keeps {c : NearCmd} {va n : Nat} (h : Keeps o s) : BothKeep o (·.1.2.2) (·.2) (mRow c va n s) := by
  unfold mRow
  dsimp only
  refine .bind (atRow_keeps (nearPlaces_keeps h)) fun _ h1 => ?_
  split
  · exact h1
  · exact .bind (atRow_keeps (nearBytes_keeps h1)) fun _ h2 => h2

theorem entryIndex_keeps {c : NearCmd} (h : Keeps o s) : BothKeep o (·.1.2.2) (·.2) (entryIndex c s) :=
  .bind (atRow_keeps (nearRead_keeps h)) fun _ h1 => h1

theorem addEntry_keeps {c : NearCmd} (h : Keeps o s) : BothKeep o (·.1.2.2) (·) (addEntry c s) :=
  .bind (entryIndex_keeps h) fun _ h1 => .bind (mRow_keeps h1) fun _ h2 => .bind (atRow_keeps (nearRead_keeps h2)) fun _ h3 =>
    putNear_keeps (State.orAew_keeps (nearStore_keeps h3))

theorem blockFactor_keeps {c : NearCmd} (h : Keeps o s) : BothKeep o (·.1.2.2) (·.2) (blockFactor c s) := by
  unfold blockFactor
  dsimp only
  exact .ite h (.ite (State.orAew_keeps h) (.bind (atRow_keeps (nearRead_keeps h)) fun _ h1 => State.orAew_keeps h1))

theorem readBeforeLock_keeps {ls : List Loc} (h : Keeps o s) : Keeps o (readBeforeLock ls s) := by
  unfold readBeforeLock
  dsimp only
  refine rereadAll_keeps ?_
  refine .foldl (fun _ h1 _ => ?_) h
  refine .foldl (fun _ h2 _ => ?_) h1
  split
  · exact .foldl (fun _ h3 _ => readPart_keeps h3) h2
  · exact h2

theorem lockEntry_keeps {c : NearCmd} (h : Keeps o s) : BothKeep o (·.1.2.2) (·) (lockEntry c s) := by
  refine .bind (blockFactor_keeps h) fun _ h1 => .bind (entryIndex_keeps h1) fun _ h2 => .ite h (.bind (mRow_keeps h2) fun x h3 => ?_)
  obtain ⟨⟨wl, wb⟩, t⟩ := x
  dsimp -zeta only
  extract_lets
  rename_i go
  have hgo (y : (List Loc × List Byte) × State) (hy : Keeps o y.2) : BothKeep o (·.1.2.2) (·) (go y) :=
    .bind (atRow_keeps (nearRead_keeps hy)) fun _ h4 => putNear_keeps (State.orAew_keeps (readBeforeLock_keeps h4))
  clear_value go
  split
  · exact hgo _ h3
  · exact .bind (mRow_keeps h3) fun _ h4 => hgo _ h4

theorem updateEntry_keeps {c : NearCmd} (h : Keeps o s) : BothKeep o (·.1.2.2) (·) (updateEntry c s) := by
  unfold updateEntry
  split
  · exact lockEntry_keeps h
  · exact putNear_keeps (unlockRows_keeps h)

theorem nearItem_keeps {c : NearCmd} (h : Keeps o s) : BothKeep o (·.1.2.2) (·) (nearItem c s) := by
  unfold nearItem
  split
  · exact walkRecord_keeps h
  · exact addEntry_keeps h
  · exact updateEntry_keeps h

theorem execWalkerGranule_keeps (h : Keeps o s) : Ends o (execWalkerGranule s) := by
  unfold execWalkerGranule
  dsimp only
  split
  · exact .next h
  · split
    · exact .next h
    · split
      next e => exact .next ((nearItem_keeps h).ok e)
      next e => exact .next (failNear_keeps ((nearItem_keeps h).error e))

theorem completeNear_keeps {c : NearCmd} (h : Keeps o s) : Keeps o (completeNear c s) :=
  State.onThread_keeps (.ite (State.pulse_keeps (.ite (completeTag_keeps (onWalkq_keeps (purge_keeps h))) (onWalkq_keeps
    (purge_keeps h)))) (.ite (completeTag_keeps (onWalkq_keeps (purge_keeps h))) (onWalkq_keeps (purge_keeps h))))

theorem execWalkerComplete_keeps (h : Keeps o s) : Ends o (execWalkerComplete s) := by
  unfold execWalkerComplete
  split
  · exact .ite (.next (completeNear_keeps h)) (.next h)
  · exact .next h

/-! ### Halting, and contexts saved and loaded (18 R365-R371) -/

theorem runEvent_keeps {f : State → Outcome} {arg : EventArg} (hf : ∀ t, Keeps o t → Ends o (f t)) (h : Keeps o s) :
    Keeps o (runEvent f arg s) := by
  unfold runEvent
  split
  next e =>
    have ht := (hf { s with arg := arg } h).of_next e
    exact ht
  · exact h

theorem freezeThread_keeps {tid : Nat} (h : Keeps o s) : Keeps o (freezeThread s tid) := by
  unfold freezeThread
  dsimp only
  split
  · exact performAt_keeps h
  · exact .ite (State.onTh_keeps (flushPend_keeps (State.focus_keeps (performAt_keeps h)))) (performAt_keeps h)

theorem returnLoads_keeps {tid : Nat} (h : Keeps o s) : Keeps o (returnLoads s tid) := by
  unfold returnLoads
  split
  · exact h
  · exact .foldl (fun _ h1 _ => runEvent_keeps (fun _ h2 => execLoadReturn_keeps h2) h1) h

theorem landMessage_keeps {e : Envelope} (h : Keeps o s) : Keeps o (landMessage s e) := by
  unfold landMessage
  dsimp only
  split
  · exact runEvent_keeps (fun _ h1 => execDecrementMessage_keeps h1) h
  · exact runEvent_keeps (fun _ h1 => execReadyMessage_keeps h1) h
  · exact runEvent_keeps (fun _ h1 => execRewardArrival_keeps h1) h
  · exact runEvent_keeps (fun _ h1 => execStatisticsPartial_keeps h1) h
  · exact .ite (runEvent_keeps (fun _ h1 => execBalancerToken_keeps h1) h) (runEvent_keeps (fun _ h1 => execOutputCounter_keeps h1) h)
  · exact runEvent_keeps (fun _ h1 => execEvxPulse_keeps h1) h
  · exact runEvent_keeps (fun _ h1 => execStreamOpenFlit_keeps h1) h
  · exact runEvent_keeps (fun _ h1 => execStreamFlitLand_keeps h1) h
  · exact runEvent_keeps (fun _ h1 => execStreamCloseMarker_keeps h1) h
  · exact runEvent_keeps (fun _ h1 => execPacketArrival_keeps h1) h
  · exact runEvent_keeps (fun _ h1 => execMigrationArrival_keeps h1) h
  · exact runEvent_keeps (fun _ h1 => execReplicaUpdateApply_keeps h1) h

theorem landThread_keeps {tid n : Nat} (h : Keeps o s) : Keeps o (landThread tid n s) := by
  induction n generalizing s with
  | zero => exact h
  | succ n ih =>
    have ht : Keeps o (if s.msgs.any (returnsTo tid) then s.msgs.foldl landMessage s else s) :=
      .ite (.foldl (fun _ h1 _ => landMessage_keeps h1) h) h
    exact .ite (returnLoads_keeps ht) (ih ht)

theorem landAll_keeps {part n : Nat} (h : Keeps o s) : Keeps o (landAll part n s) := by
  induction n generalizing s with
  | zero => exact h
  | succ n ih =>
    have ht : Keeps o ((partMsgs part s).foldl landMessage s) := .foldl (fun _ h1 _ => landMessage_keeps h1) h
    exact .ite ht (ih ht)

theorem landSent_keeps {sent : Option Nat} (h : Keeps o s) : Keeps o (landSent sent s) := by
  unfold landSent
  split
  · exact landMessage_keeps h
  · exact h

theorem finishDrain_keeps {arr n : Nat} (h : Keeps o s) : Keeps o (finishDrain arr n s) := by
  induction n generalizing s with
  | zero => exact h
  | succ n ih =>
    have ht (arg : EventArg) (sent : Option Nat) : Keeps o (runEvent execMdrainExecute arg (landSent sent s)) :=
      runEvent_keeps (fun _ h1 => execMdrainExecute_keeps h1) (landSent_keeps h)
    unfold finishDrain
    split
    · split
      · exact .ite h (.ite (ht _ _) (ih (ht _ _)))
      · exact h
    · exact h

theorem finishRun_keeps {arr n : Nat} (h : Keeps o s) : Keeps o (finishRun arr n s) := by
  induction n generalizing s with
  | zero => exact h
  | succ n ih =>
    unfold finishRun
    split
    · exact h
    · exact ih (.ite (runEvent_keeps (fun _ h1 => execStepRetire_keeps h1) h) (.ite (runEvent_keeps (fun _ h1 => execFade_keeps h1) h)
        (runEvent_keeps (fun _ h1 => execRewardApply_keeps h1) (landSent_keeps h))))

theorem finishArray_keeps {arr : Nat} (h : Keeps o s) : Keeps o (finishArray s arr) := finishDrain_keeps (finishRun_keeps h)

theorem stopCopies_keeps {g n : Nat} (h : Keeps o s) : Keeps o (stopCopies g n s) := by
  induction n generalizing s with
  | zero => exact h
  | succ n ih =>
    have ht : Keeps o (runEvent execCopyGranule { a := g } s) := runEvent_keeps (fun _ h1 => execCopyGranule_keeps h1) h
    exact .ite (.ite ht (ih ht)) h

theorem completeCopies_keeps {g : Nat} (h : Keeps o s) : Keeps o (completeCopies s g) :=
  .foldl (fun _ h1 _ => runEvent_keeps (fun _ h2 => execCopyComplete_keeps h2) h1) h

theorem stopWalker_keeps {stand id n : Nat} (h : Keeps o s) : Keeps o (stopWalker stand id n s) := by
  induction n generalizing s with
  | zero => exact h
  | succ n ih =>
    have ht : Keeps o (runEvent execWalkerGranule { a := stand, b := id } s) :=
      runEvent_keeps (fun _ h1 => execWalkerGranule_keeps h1) h
    unfold stopWalker
    split
    · exact h
    · exact .ite (runEvent_keeps (fun _ h1 => execWalkerComplete_keeps h1) h) (.ite h (.ite ht (ih ht)))

theorem stopJob_keeps {stand slot n : Nat} (h : Keeps o s) : Keeps o (stopJob stand slot n s) := by
  induction n generalizing s with
  | zero => exact h
  | succ n ih =>
    have ht : Keeps o (runEvent execBreGranule { a := stand, b := slot } s) := runEvent_keeps (fun _ h1 => execBreGranule_keeps h1) h
    unfold stopJob
    split
    · exact h
    · exact .ite h (.ite (runEvent_keeps (fun _ h1 => execBreJobComplete_keeps h1) h) (.ite h (.ite ht (ih ht))))

theorem unlockAll_keeps {part : Nat} (h : Keeps o s) : Keeps o (unlockAll part s) := .foldl (fun _ h1 _ => unlockRows_keeps h1) h

theorem stopEngines_keeps {part : Nat} {g : Grant} (h : Keeps o s) : Keeps o (stopEngines part g s) :=
  .foldl (fun _ h1 _ => .foldl (fun _ h2 _ => stopJob_keeps h2) (.foldl (fun _ h2 _ => stopWalker_keeps h2) h1)) (.foldl (fun _ h1 _ =>
    completeCopies_keeps (stopCopies_keeps h1)) h)

theorem settlePart_keeps {part : Nat} {g : Grant} (h : Keeps o s) : Keeps o (settlePart part g s) :=
  landAll_keeps (syncAll_keeps (unlockAll_keeps (stopEngines_keeps (.foldl (fun _ h1 _ => finishArray_keeps h1) (.foldl (fun _ h1 _ =>
    returnLoads_keeps h1) (landAll_keeps (.foldl (fun _ h1 _ => freezeThread_keeps h1) (.foldl (fun _ h1 _ =>
    performAt_keeps h1) h))))))))

theorem settleAll_keeps {part : Nat} {g : Grant} {n : Nat} (h : Keeps o s) : Keeps o (settleAll part g n s) := by
  induction n generalizing s with
  | zero => exact h
  | succ n ih => exact .ite (settlePart_keeps h) (ih (settlePart_keeps h))

theorem overflowDeck_keeps {part : Nat} {flits : List (Nat × Nat × List Byte)} {d : Nat × Nat} (h : Keeps o s) :
    Keeps o (overflowDeck part flits s d) :=
  State.setCore_keeps (hwStore_keeps (deckStore_keeps h))

theorem overflowFlits_keeps {part : Nat} (h : Keeps o s) : Keeps o (overflowFlits part s) :=
  .foldl (fun _ h1 _ => overflowDeck_keeps h1) h

theorem writeHaltState_keeps {part n : Nat} (h : Keeps o s) : Keeps o (writeHaltState part n s) := by
  unfold writeHaltState
  split
  · exact partRelease_keeps h
  · exact h

theorem writeImage_keeps {part base : Nat} {g : Grant} {planes : Bool} (h : Keeps o s) :
    Keeps o (writeImage part base g planes s) :=
  writeHaltState_keeps (State.draw_keeps (partRelease_keeps (partRelease_keeps (partRelease_keeps (partRelease_keeps h)))))

theorem removeThreads_keeps {ids : List Nat} (h : Keeps o s) : Keeps o (removeThreads ids s) := h

theorem clearUnits_keeps {part : Nat} {g : Grant} (h : Keeps o s) : Keeps o (clearUnits part g s) :=
  .foldl (fun _ h1 _ => State.setNet_keeps h1) (.foldl (fun _ h1 _ => State.setStand_keeps h1) (.foldl (fun _ h1 _ =>
    State.onArray_keeps h1) (.foldl (fun _ h1 _ => State.setGrove_keeps h1) (.foldl (fun _ h1 _ => State.setCore_keeps h1)
    (removeThreads_keeps h)))))

theorem dissolveAll_keeps {part : Nat} (h : Keeps o s) : Keeps o (dissolveAll part s) :=
  .foldl (fun _ h1 _ => .ite (dissolveCrew_keeps h1) h1) h

theorem wakeParked_keeps {part : Nat} (h : Keeps o s) : Keeps o (wakeParked part s) := by
  unfold wakeParked
  refine .foldl (fun _ h1 _ => ?_) h
  split
  · exact .ite (requeue_keeps h1) h1
  · exact h1

theorem haltPartition_keeps {part : Nat} {planes : Bool} (h : Keeps o s) : Keeps o (haltPartition part planes s) := by
  unfold haltPartition
  split
  · exact h
  · exact State.focus_keeps (State.onPart_keeps (clearUnits_keeps (writeImage_keeps (wakeParked_keeps (dissolveAll_keeps (.foldl
      (fun _ h1 _ => State.setNet_keeps h1) (overflowFlits_keeps (settleAll_keeps (writeHaltState_keeps (State.setPart_keeps h))))))))))

theorem coreBack_keeps {part psave : Nat} {dir : List Byte} {x : (Nat × Core) × Nat} (h : Keeps o s) :
    Keeps o (coreBack part psave dir s x) :=
  State.setCore_keeps h

theorem groveBack_keeps {part psave : Nat} {dir : List Byte} {planes : Bool} {arrays : Nat} {x : (Nat × Grove) × Nat}
    (h : Keeps o s) :
    Keeps o (groveBack part psave dir planes arrays s x) :=
  State.setGrove_keeps h

theorem arrayBack_keeps {part psave : Nat} {dir : List Byte} {planes : Bool} {x : (Nat × MArray) × Nat} (h : Keeps o s) :
    Keeps o (arrayBack part psave dir planes s x) :=
  State.onArray_keeps (loadArray_keeps (State.setArray_keeps h))

theorem walkerBack_keeps {c : NearCmd} (h : Keeps o s) : Keeps o (walkerBack s c) := State.setStand_keeps h

theorem jobBack_keeps {j : Nat × Nat × BreJob} (h : Keeps o s) : Keeps o (jobBack s j) := State.setStand_keeps h

theorem replayDeck_keeps {part : Nat} {flits : List (Nat × Nat × List Byte)} {d : Nat × Nat} (h : Keeps o s) :
    Keeps o (replayDeck part flits s d) :=
  h

theorem replayOverflow_keeps {part : Nat} (h : Keeps o s) : Keeps o (replayOverflow part s) :=
  .foldl (fun _ h1 _ => replayDeck_keeps h1) h

theorem netBack_keeps {part psave : Nat} {dir : List Byte} {x : (Nat × Net) × Nat} (h : Keeps o s) :
    Keeps o (netBack part psave dir s x) :=
  State.setNet_keeps h

theorem resumePartition_keeps {part : Nat} (h : Keeps o s) : Keeps o (resumePartition part s) := by
  unfold resumePartition
  split
  · exact h
  · dsimp only
    refine State.onPart_keeps ?_
    refine writeHaltState_keeps ?_
    refine syncAll_keeps ?_
    refine .foldl (fun _ h1 _ => ?_) (.foldl (fun _ h1 _ => netBack_keeps h1) (replayOverflow_keeps (.foldl (fun _ h1 _ =>
      jobBack_keeps h1) (.foldl (fun _ h1 _ => walkerBack_keeps h1) (.foldl (fun _ h1 _ => arrayBack_keeps h1) (.foldl (fun _ h1 _ =>
      groveBack_keeps h1) (.foldl (fun _ h1 _ => coreBack_keeps h1) (usePart_keeps (writeHaltState_keeps (State.setPart_keeps h))))))))))
    split
    · exact requeue_keeps h1
    · exact h1

theorem execHaltp_keeps {a : BitVec 4} (h : Keeps o s) : Ends o (execHaltp a s) := by
  unfold execHaltp
  dsimp only
  refine settle_keeps h ?_
  refine .bind_any fun _ => ?_
  refine .bind_any fun _ => ?_
  split
  · exact trivial
  · exact haltPartition_keeps (.ite (accountNow_keeps (advance_keeps h)) (advance_keeps h))

theorem execResumep_keeps {a : BitVec 4} (h : Keeps o s) : Ends o (execResumep a s) := by
  unfold execResumep
  dsimp only
  refine settle_keeps h ?_
  refine .bind_any fun _ => ?_
  refine .bind_any fun _ => ?_
  split
  · exact trivial
  · exact acquireAt_keeps (resumePartition_keeps (advance_keeps h))

theorem storeBlock_keeps {ls : List Loc} {bs : List Byte} (h : Keeps o s) : Keeps o (storeBlock ls bs s) :=
  writeThrough_keeps (coreStore_keeps h)

theorem saveThread_keeps {t : Thread} {ls : List Loc} (h : Keeps o s) : Keeps o (saveThread t ls s) := by
  unfold saveThread
  dsimp only
  split
  · exact landThread_keeps (freezeThread_keeps (.ite (dissolveCrew_keeps (.ite (accountNow_keeps h) h)) (.ite (accountNow_keeps h) h)))
  · exact storeBlock_keeps (State.focus_keeps (State.onThread_keeps (landThread_keeps (freezeThread_keeps (.ite (dissolveCrew_keeps (.ite
      (accountNow_keeps h) h)) (.ite (accountNow_keeps h) h))))))

theorem execCtxsv_keeps {d a : BitVec 4} {u : BitVec 1} (h : Keeps o s) : Ends o (execCtxsv d a u s) := by
  unfold execCtxsv
  dsimp only
  refine settle_keeps h ?_
  refine .bind_any fun _ => ?_
  refine .bind (spanPlace_keeps h) fun _ h1 => ?_
  split
  · exact trivial
  · split
    · exact holdForWork_keeps (performAt_keeps h1)
    · split
      · exact storeBlock_keeps (State.onArray_keeps (finishArray_keeps (advance_keeps (performAt_keeps h1))))
      · split
        · exact trivial
        · exact .ite trivial (saveThread_keeps (advance_keeps (performAt_keeps h1)))

theorem execCtxld_keeps {d a : BitVec 4} {u : BitVec 1} (h : Keeps o s) : Ends o (execCtxld d a u s) := by
  unfold execCtxld
  extract_lets block bad size
  refine settle_keeps h (.bind_any fun _ => .bind (spanPlace_keeps h) fun x h1 => ?_)
  obtain ⟨ls, t⟩ := x
  dsimp -zeta only
  split
  · trivial
  next n _ =>
    refine .ite trivial (.bind (checkData_keeps h1) fun y h2 => ?_)
    have hread : Keeps o (beforeReading ls y) := beforeReading_keeps h2
    generalize beforeReading ls y = v at hread ⊢
    extract_lets before blocked now slot fin
    have hnow : Keeps o now := .ite (holdForWork_keeps hread) (readAs_keeps (acquireAt_keeps hread))
    refine .ite hnow (.ite (.ite (loadArray_keeps (advance_keeps hnow)) trivial) (.ite trivial ?_))
    split
    · exact State.onThread_keeps (advance_keeps (emptySlot_keeps hnow))
    · have hfin : Keeps o fin := advance_keeps (emptySlot_keeps hnow)
      exact .ite trivial hfin

theorem execHalt_keeps (h : Keeps o s) : Ends o (execHalt s) := by
  unfold execHalt
  refine mailbox_keeps h fun _ h1 => ?_
  split
  · exact respond_keeps h1
  · exact respond_keeps (haltPartition_keeps h1)

theorem execResume_keeps (h : Keeps o s) : Ends o (execResume s) := by
  unfold execResume
  refine mailbox_keeps h fun _ h1 => ?_
  split
  · exact respond_keeps h1
  · exact respond_keeps (resumePartition_keeps h1)

/-! ### The machine room (20 R373-R387) -/

theorem grantWays_keeps {g : Grant} {x : Nat × Nat} (h : Keeps o s) : Keeps o (grantWays g s x) :=
  completeWays_keeps (writeL2wp_keeps (completeWays_keeps h))

theorem zeroGrove_keeps {g : Nat} (h : Keeps o s) : Keeps o (zeroGrove s g) :=
  State.setGrove_keeps (.foldl (fun _ h1 _ => State.setArray_keeps h1) (.foldl (fun _ h1 _ => State.setCore_keeps h1) h))

theorem zeroRange_keeps {r : Nat × Nat} (h : Keeps o s) : Keeps o (zeroRange s r) := h.of_wf fun hs => Memory.wf_clear _ _ _ hs

theorem freeBre_keeps {part n : Nat} (h : Keeps o s) : Keeps o (freeBre part s n) := .ite h (State.setStand_keeps h)

theorem leaveJob_keeps {j : Nat × Nat × BreJob} (h : Keeps o s) : Keeps o (leaveJob s j) := jobBack_keeps h

theorem appendMargins_keeps {ms : List MarginEntry} (h : Keeps o s) : Keeps o (appendMargins ms s) := by
  unfold appendMargins
  extract_lets all
  generalize all.drop (all.length - 256) = kept
  exact h

theorem replan_keeps {m : MarginEntry} (h : Keeps o s) : Keeps o (replan m s) := State.setGrove_keeps (appendMargins_keeps h)

theorem measureAll_keeps (h : Keeps o s) : Keeps o (measureAll s) := State.draw_keeps (.foldl (fun _ h1 _ => replan_keeps h1) h)

theorem createPartition_keeps {g : Grant} (h : Keeps o s) : Keeps o (createPartition g s) := by
  have hzero (r : Nat × Nat) : Keeps o (zeroRange (clearTlbs g.part (g.ranges.foldl zeroRange (measureAll s))) r) :=
    zeroRange_keeps (clearTlbs_keeps (.foldl (fun _ h1 _ => zeroRange_keeps h1) (measureAll_keeps h)))
  unfold createPartition
  generalize zeroBytes 508 = z
  generalize 0x45564153 = magic
  generalize (g.recB, 2 ^ 22) = r
  extract_lets s0 s1 s2 s3 s4 s5 s6 s7 s8
  have h2 : Keeps o s2 := (hzero r).of_wf fun hs => Memory.wf_foldl_write _ _ g.image _ hs
  have h3 : Keeps o s3 := .foldl (fun _ h1 _ => State.setGrove_keeps (zeroGrove_keeps h1)) h2
  have h4 : Keeps o s4 := .foldl (fun _ h1 _ => freeBre_keeps h1) h3
  have h5 : Keeps o s5 := .foldl (fun _ h1 _ => State.setCore_keeps h1) h4
  have h6 : Keeps o s6 := .foldl (fun _ h1 _ => grantWays_keeps h1) h5
  have h7 : Keeps o s7 := .foldl (fun _ h1 _ => State.setNet_keeps h1) h6
  exact partRelease_keeps (State.setPart_keeps h7)

theorem execCreatePartition_keeps (h : Keeps o s) : Ends o (execCreatePartition s) := by
  unfold execCreatePartition
  refine mailbox_keeps h fun _ h1 => ?_
  split
  · exact .ite (respond_keeps (createPartition_keeps h1)) (respond_keeps h1)
  · exact respond_keeps h1

theorem purgeGrove_keeps {g : Nat} (h : Keeps o s) : Keeps o (purgeGrove s g) :=
  State.setStand_keeps (.foldl (fun _ h1 _ => writeBack_keeps h1) h)

theorem releasePartition_keeps {p : Part} (h : Keeps o s) : Keeps o (releasePartition p s) :=
  clearTlbs_keeps (.foldl (fun _ h1 _ => freeBre_keeps h1) (.foldl (fun _ h1 _ => leaveJob_keeps h1) (.foldl (fun _ h1 _ =>
    State.setGrove_keeps h1) (.foldl (fun _ h1 _ => State.setNet_keeps h1) (.foldl (fun _ h1 _ => State.setCore_keeps h1) (.foldl
    (fun _ h1 _ => zeroGrove_keeps h1) (.foldl (fun _ h1 _ => purgeGrove_keeps h1) h)))))))

theorem execRelease_keeps (h : Keeps o s) : Ends o (execRelease s) := by
  unfold execRelease
  refine mailbox_keeps h fun _ h1 => ?_
  split
  · exact .ite (respond_keeps (releasePartition_keeps h1)) (respond_keeps h1)
  · exact respond_keeps h1

theorem execHostMemoryRead_keeps (h : Keeps o s) : Ends o (execHostMemoryRead s) := by
  unfold execHostMemoryRead
  dsimp only
  split
  · exact .next h
  · split
    · exact .next h
    next e =>
      have h1' := (resolveSpan_keeps h).ok e
      split
      next e => exact .next (readDram_keeps ((settleBad_keeps h1').ok e))
      next e => exact .next (retire_keeps ((settleBad_keeps h1').error e))

theorem hostStore_keeps {part va : Nat} {ls : List Loc} {bs : List Byte} (h : Keeps o s) :
    Keeps o (hostStore part va ls bs s) := by
  unfold hostStore
  dsimp only
  refine .foldl (fun _ h1 _ => ?_) (.foldl (fun _ h1 _ => dropL1All_keeps (dropReplicas_keeps (writeBack_keeps h1))) ?_)
  · split
    · exact noteWrite_keeps (h1.of_wf fun hs => Memory.wf_write _ _ _ hs)
    · exact h1
  · split
    · exact State.logAsync_keeps (settleRows_keeps h)
    · exact settleRows_keeps h

theorem execHostMemoryWrite_keeps (h : Keeps o s) : Ends o (execHostMemoryWrite s) := by
  unfold execHostMemoryWrite
  dsimp only
  split
  · exact .next h
  · split
    · exact .next (State.logAsync_keeps h)
    next e => exact .next (hostStore_keeps ((resolveSpan_keeps h).ok e))

theorem execAttest_keeps (h : Keeps o s) : Ends o (execAttest s) := by
  unfold execAttest
  refine mailbox_keeps h fun _ h1 => ?_
  split
  · exact .ite (respond_keeps h1) (respond_keeps h1)
  · exact respond_keeps h1

theorem execReadMonitorLog_keeps (h : Keeps o s) : Ends o (execReadMonitorLog s) := mailbox_keeps h (fun _ h1 => respond_keeps h1)

theorem execReadMarginHistory_keeps (h : Keeps o s) : Ends o (execReadMarginHistory s) :=
  mailbox_keeps h (fun _ h1 => respond_keeps h1)

theorem zeroDram_keeps (h : Keeps o s) : Keeps o (zeroDram s) := h.of_wf fun hs => Memory.wf_filter _ _ hs

theorem bootFails_keeps {step : Nat} (h : Keeps o s) : Keeps o (bootFails step s) := State.draw_keeps h

theorem execBoot_keeps (h : Keeps o s) : Ends o (execBoot s) := by
  unfold execBoot
  split
  · exact .next h
  · exact .ite (.next h) (.ite (.next (bootFails_keeps h)) (.ite (.next (bootFails_keeps h)) (.ite (.next (bootFails_keeps h)) (.ite
      (.next (bootFails_keeps (measureImage_keeps h))) (.ite (.next (bootFails_keeps (zeroDram_keeps (measureImage_keeps h)))) (.ite
      (.next (bootFails_keeps (measureImage_keeps (zeroDram_keeps (measureImage_keeps h))))) (.next (zeroDram_keeps
      (measureImage_keeps h)))))))))

theorem execMarginMeasure_keeps (h : Keeps o s) : Ends o (execMarginMeasure s) := by
  unfold execMarginMeasure
  split
  · exact .next (.ite (replan_keeps h) h)
  · exact .next h

/-- A domain that forms may give the package another number, but leaves DRAM as it is. -/
theorem execDomainFormation_keeps (h : Keeps o s) : EndsSound o (execDomainFormation s) := by
  unfold execDomainFormation
  split
  · exact (Ends.next h).sound
  · exact ⟨_, rfl, fun ho => (Keeps.foldl (fun _ h1 _ => State.setNet_keeps h1) (.refl _)).1 (h.1 ho)⟩

theorem tokenLost_keeps {e : Envelope} (h : Keeps o s) : Keeps o (tokenLost s e) := by
  unfold tokenLost
  split
  · exact .ite h (dropMsg_keeps (State.fillLoad_keeps h))
  · exact .ite (dropMsg_keeps h) h
  · exact h

theorem execPeerFailure_keeps (h : Keeps o s) : Ends o (execPeerFailure s) :=
  .ite (.next h) (.next (State.logMonitor_keeps (.foldl (fun _ h1 _ => State.setNet_keeps h1) (.foldl (fun _ h1 _ =>
    tokenLost_keeps h1) h))))

theorem copyRange_keeps {src n dst : Nat} (h : Keeps o s) : Keeps o (copyRange src n dst s) :=
  h.of_wf fun hs => Memory.wf_foldl_write _ _ _ _ (Memory.wf_clear _ _ _ hs)

theorem copyRanges_keeps {l : List (Nat × Nat × Nat)} (h : Keeps o s) : Keeps o (copyRanges l s).2 := by
  induction l generalizing s with
  | nil => exact h
  | cons r l ih =>
    unfold copyRanges
    split
    · exact State.logMonitor_keeps (retire_keeps h)
    · exact ih (copyRange_keeps h)

theorem execSnapshot_keeps (h : Keeps o s) : Ends o (execSnapshot s) := by
  unfold execSnapshot
  refine mailbox_keeps h fun _ h1 => ?_
  dsimp only
  split
  · exact .ite (respond_keeps h1) (respond_keeps (resumePartition_keeps (copyRanges_keeps (haltPartition_keeps h1))))
  · exact respond_keeps h1

theorem moveTables_keeps {old new level table : Nat} (h : Keeps o s) : Keeps o (moveTables old new level table s) := by
  induction level generalizing s table with
  | zero => exact .foldl (fun _ h1 _ => .ite h1 (.ite (putPte_keeps h1) (putPte_keeps h1))) h
  | succ l ih => exact .foldl (fun _ h1 _ => .ite h1 (.ite (putPte_keeps h1) (ih (putPte_keeps h1)))) h

theorem execRestore_keeps (h : Keeps o s) : Ends o (execRestore s) := by
  unfold execRestore
  refine mailbox_keeps h fun _ h1 => ?_
  split
  · exact .ite (.ite (respond_keeps (resumePartition_keeps (State.onPart_keeps (moveTables_keeps (copyRanges_keeps
      (createPartition_keeps h1)))))) (respond_keeps (.ite h1 h1))) (respond_keeps h1)
  · exact respond_keeps h1

end Sys2Proof.Machine
end

/-! ## DRAM stays canonical: a step -/
section
namespace Sys2Proof.Machine

open Sys2Proof

variable {o s : State}

/-! ### Every instruction and every event -/

/-- Every instruction and every event ends in a next state. -/
theorem exec_keeps {i : Instr} (hi : i ≠ .domainFormation) (h : Keeps o s) : Ends o (exec i s) := by
  cases i with
  | add | sub | and | or | xor | andn | shl | shr | sar | mul | mulh | mulhu | div | divu | rem | remu | min | max | minu | maxu | slt
  | sltu | seq | clz | ctz | popc | sextB | sextH | sextW | sel | addi | andi | ori | xori | shli | shri | sari | slti | lui | adpc
  | vext | kpopc | kfirst | tself => exact .next (writeS_keeps h)
  | fadd | fsub | fmul | ffma | fdiv | fsqrt => exact fpuResult_keeps h
  | fmin | fmax | fclass | fmov | fsgnCp | fsgnNeg | fsgnAbs | fsgnMul => exact fpuBits_keeps h
  | fcmpEq | fcmpLt | fcmpLe => exact fpuCompare_keeps h
  | fcvtF32I32 | fcvtF32I64 => exact fromInteger_keeps h
  | fcvtI32F32 | fcvtI64F32 => exact fpuToInt_keeps h
  | beq | bne | blt | bge | bltu | bgeu | bz | bnz => exact branchIf_keeps h
  | call => exact .next (jumpTo_keeps (State.pushW_keeps h))
  | jr => exact execJr_keeps h
  | callr => exact execCallr_keeps h
  | loop => exact execLoop_keeps h
  | trap | brk => exact .next (takeTrap_keeps h)
  | csrr => exact execCsrr_keeps h
  | csrw | csrs | csrc => exact csrWrite_keeps h
  | yield | yield1 => exact yieldOf_keeps h
  | fcld => exact execFcld_keeps h
  | fcst => exact execFcst_keeps h
  | fcvld => exact execFcvld_keeps h
  | fcvst => exact execFcvst_keeps h
  | vadd | vsub | vmul | vfma | vfms | vaddF32 | vsubF32 | vmulF32 | vfmac => exact vfp_keeps h
  | vmin | vmax | viadd | visub | vimul | vand | vor | vxor | vshl | vshr | vsar | vsel | vmov | vbcast | vins | viota | vperm | vslide
  | vrcp | vrsq | vexp2 | vlog2 | vmaxF32 | vminF32 | viadd16 | visub16 | vand16 | vor16 | vxor16 | vshl16 | vshr16 | vmov16 | vnegF32
  | vabsF32 => exact .next (vectorResult_keeps h)
  | vcmp => exact execVcmp_keeps h
  | vredsum => exact .next (bumpSrc_keeps (vreduce_keeps h))
  | vredmax | vredmin => exact .next (vreduce_keeps h)
  | vcvt | vdeq | vsrnd | vsacc => exact .next (bumpSrc_keeps (vectorResult_keeps h))
  | vqnt => exact execVqnt_keeps h
  | kand | kor | kxor | knot | kmov => exact maskResult_keeps h
  | tspawn => exact execTspawn_keeps h
  | tdec => exact execTdec_keeps h
  | migr => exact execMigr_keeps h
  | gang => exact execGang_keeps h
  | dbind => exact execDbind_keeps h
  | dwaitc => exact execDwaitc_keeps h
  | dwaitp => exact execDwaitp_keeps h
  | dadvc => exact execDadvc_keeps h
  | dadvp => exact execDadvp_keeps h
  | cpy | cpy2 => exact queueCopy_keeps h
  | cwaitany => exact execCwaitany_keeps h
  | cwaitall => exact execCwaitall_keeps h
  | cfind => exact execCfind_keeps h
  | ctagclr => exact execCtagclr_keeps h
  | sopen => exact execSopen_keeps h
  | sclose => exact execSclose_keeps h
  | ssend => exact execSsend_keeps h
  | plnch => exact execPlnch_keeps h
  | greplay => exact execGreplay_keeps h
  | ld | ldacq | ldd8 => exact scalarLoad_keeps h
  | st | strel | std8 => exact scalarStore_keeps h
  | vld | vlds => exact vectorLoad_keeps h
  | vldx => exact execVldx_keeps h
  | vld6 => exact execVld6_keeps h
  | vst | vsts => exact vectorStore_keeps h
  | vstx => exact execVstx_keeps h
  | vst6 => exact execVst6_keeps h
  | discard | wback => exact lineOp_keeps h
  | pref => exact execPref_keeps h
  | fence => exact execFence_keeps h
  | fenceh => exact execFenceh_keeps h
  | amo | cas | famo => exact returningAtom_keeps h
  | red | fred => exact reduction_keeps h
  | vred => exact execVred_keeps h
  | mma => exact execMma_keeps h
  | mlda => exact execMlda_keeps h
  | mldb => exact execMldb_keeps h
  | mdrain => exact execMdrain_keeps h
  | mown => exact execMown_keeps h
  | mzero => exact execMzero_keeps h
  | msacc => exact execMsacc_keeps h
  | mswap => exact execMswap_keeps h
  | mflag => exact execMflag_keeps h
  | pcfg => exact execPcfg_keeps h
  | pstep => exact execPstep_keeps h
  | pfade => exact execPfade_keeps h
  | prwd => exact execPrwd_keeps h
  | pgate => exact execPgate_keeps h
  | prd => exact execPrd_keeps h
  | pwr => exact execPwr_keeps h
  | pstat => exact execPstat_keeps h
  | nwalk | nadd | nupd => exact queueNear_keeps h
  | bred => exact execBred_keeps h
  | bpoll => exact .next (loadS_keeps (.ite (acquireAt_keeps h) h))
  | take => exact execTake_keeps h
  | takeb => exact execTakeb_keeps h
  | nsave => exact execNsave_keeps h
  | nrest => exact execNrest_keeps h
  | nreset => exact execNreset_keeps h
  | stata | statc => exact clearRecord_keeps h
  | statl => exact execStatl_keeps h
  | statr => exact execStatr_keeps h
  | evcfg => exact execEvcfg_keeps h
  | evpulse => exact .next (advance_keeps (State.sendRelease_keeps h))
  | evrd => exact execEvrd_keeps h
  | actw => exact execActw_keeps h
  | haltp => exact execHaltp_keeps h
  | resumep => exact execResumep_keeps h
  | ctxsv => exact execCtxsv_keeps h
  | ctxld => exact execCtxld_keeps h
  | mod => exact execMod_keeps h
  | mov16 | add16 | sub16 | and16 | or16 | addi4 | shli4 | shri4 => exact .next (writeS16_keeps h)
  | jr16 => exact execJr16_keeps h
  | callr16 => exact execCallr16_keeps h
  | eret => exact returnFromTrap_keeps h
  | ifence => exact execIfence_keeps h
  | endTask | end16 => exact endOf_keeps h
  | gdis | detach => exact .next (leaveOrDissolve_keeps (advance_keeps h))
  | join => exact execJoin_keeps h
  | fencel => exact execFencel_keeps h
  | nfence => exact execNfence_keeps h
  | deckWaitComplete => exact execDeckWaitComplete_keeps h
  | copyTagWaitComplete => exact execCopyTagWaitComplete_keeps h
  | fencehTargetDrain => exact execFencehTargetDrain_keeps h
  | mownExecute => exact execMownExecute_keeps h
  | mldaExecute => exact execMldaExecute_keeps h
  | mldbExecute => exact execMldbExecute_keeps h
  | mmaExecute => exact execMmaExecute_keeps h
  | mmaBcRound => exact execMmaBcRound_keeps h
  | mdrainExecute => exact execMdrainExecute_keeps h
  | mzeroExecute => exact execMzeroExecute_keeps h
  | msaccExecute => exact execMsaccExecute_keeps h
  | mswapExecute => exact execMswapExecute_keeps h
  | mflagExecute => exact execMflagExecute_keeps h
  | pcfgExecute => exact execPcfgExecute_keeps h
  | stepStart => exact execStepStart_keeps h
  | stepRetire => exact execStepRetire_keeps h
  | fade => exact execFade_keeps h
  | rewardArrival => exact execRewardArrival_keeps h
  | rewardApply => exact execRewardApply_keeps h
  | gateApply => exact execGateApply_keeps h
  | nfenceComplete => exact execNfenceComplete_keeps h
  | walkerCommandStart => exact execWalkerCommandStart_keeps h
  | walkerGranule => exact execWalkerGranule_keeps h
  | walkerComplete => exact execWalkerComplete_keeps h
  | breJobStart => exact execBreJobStart_keeps h
  | breGranule => exact execBreGranule_keeps h
  | breJobComplete => exact execBreJobComplete_keeps h
  | balancerToken => exact execBalancerToken_keeps h
  | outputCounter => exact execOutputCounter_keeps h
  | networkQuiet => exact execNetworkQuiet_keeps h
  | statisticsPartial => exact execStatisticsPartial_keeps h
  | evxPulse => exact execEvxPulse_keeps h
  | loadReturn => exact execLoadReturn_keeps h
  | storeAtHome => exact execStoreAtHome_keeps h
  | replicaUpdateApply => exact execReplicaUpdateApply_keeps h
  | atomicAtHome => exact execAtomicAtHome_keeps h
  | l2wpWrite => exact .next (writeL2wp_keeps h)
  | waysChangeComplete => exact .next (completeWays_keeps h)
  | decrementMessage => exact execDecrementMessage_keeps h
  | readyMessage => exact execReadyMessage_keeps h
  | spillRefill => exact .next (refill_keeps h)
  | farEntryObtained => exact execFarEntryObtained_keeps h
  | taskBind => exact .next (.ite (bindCore_keeps h) h)
  | priorityRaise => exact .next (State.setCore_keeps h)
  | dwbPark => exact execDwbPark_keeps h
  | parkedThreadWake => exact execParkedThreadWake_keeps h
  | spinParkWake => exact execSpinParkWake_keeps h
  | spinParkTimeout => exact execSpinParkTimeout_keeps h
  | yieldDeadline => exact execYieldDeadline_keeps h
  | migrationArrival => exact execMigrationArrival_keeps h
  | joinReconverge => exact execJoinReconverge_keeps h
  | copyCommandStart => exact execCopyCommandStart_keeps h
  | copyGranule => exact execCopyGranule_keeps h
  | copyComplete => exact execCopyComplete_keeps h
  | streamOpenFlit => exact execStreamOpenFlit_keeps h
  | streamFlitLand => exact execStreamFlitLand_keeps h
  | streamCloseMarker => exact execStreamCloseMarker_keeps h
  | packetArrival => exact execPacketArrival_keeps h
  | landingServer => exact execLandingServer_keeps h
  | hostPacketWrite => exact execHostPacketWrite_keeps h
  | hostStatusRead | flitResend => exact .next h
  | hostMemoryRead => exact execHostMemoryRead_keeps h
  | hostMemoryWrite => exact execHostMemoryWrite_keeps h
  | createPartition => exact execCreatePartition_keeps h
  | loadImage => exact execLoadImage_keeps h
  | halt => exact execHalt_keeps h
  | resume => exact execResume_keeps h
  | release => exact execRelease_keeps h
  | attest => exact execAttest_keeps h
  | snapshot => exact execSnapshot_keeps h
  | restore => exact execRestore_keeps h
  | readMonitorLog => exact execReadMonitorLog_keeps h
  | readMarginHistory => exact execReadMarginHistory_keeps h
  | boot => exact execBoot_keeps h
  | peerFailure => exact execPeerFailure_keeps h
  | vfStep => exact .next (State.setGrove_keeps h)
  | refreshAdjust => exact .next (State.setStand_keeps h)
  | marginMeasure => exact execMarginMeasure_keeps h
  | l2WriteBack => exact .next (writeBack_keeps h)
  | linkEqualisation => exact .next (.ite h h)
  | walkerPlacement => exact .ite (.next (State.setStand_keeps h)) (.next h)
  | domainFormation => exact absurd rfl hi

theorem exec_sound {i : Instr} (h : Keeps o s) : EndsSound o (exec i s) := by
  by_cases hi : i = .domainFormation
  · subst hi
    exact execDomainFormation_keeps h
  · exact (exec_keeps hi h).sound

/-! ### What moves next -/

theorem nextMove_keeps (h : Keeps o s) : Keeps o (nextMove s).2 := by
  unfold nextMove
  split <;> split <;> exact h

/-! ### One step -/

theorem issued_keeps {i : Instr} {r : Outcome} (hr : EndsSound o r) : EndsSound o (issued i s r) := by
  obtain ⟨t, rfl, ht⟩ := hr
  exact ⟨_, rfl, fun ho => (afterIssue_keeps (.refl t)).1 (ht ho)⟩

theorem step_keeps (h : Keeps o s) : EndsSound o (step s) := by
  unfold step
  split
  next e =>
    have h1 := Keeps.of_pair (nextMove_keeps h) e
    exact ⟨_, rfl, h1.1⟩
  next e =>
    have h1 := Keeps.of_pair (nextMove_keeps h) e
    exact exec_sound h1
  next e =>
    have h1 := Keeps.of_pair (nextMove_keeps h) e
    split
    next e2 => exact (Ends.next (finishIssue_keeps ((fetchFocus_keeps (pickFocus_keeps h1)).error e2))).sound
    next e2 =>
      have h2 : Keeps o _ := (fetchFocus_keeps (pickFocus_keeps h1)).ok e2
      exact issued_keeps (exec_sound h2)

/-! ### The obligations -/

/-- Settles O1: nothing is listed at reset. -/
theorem resetSound : Obligations.ResetSound := ⟨rfl, rfl⟩

/-- Settles O59: an instruction, an event and a step each end in a next state, by their cases. -/
theorem neverStops : Obligations.NeverStops :=
  ⟨fun _ s => (exec_sound (.refl s)).imp fun _ h => h.1, fun s => (step_keeps (.refl s)).imp fun _ h => h.1⟩

/-- Settles O60: bytes reach DRAM by writes and go from it by ranges, which keep its form, in every instruction and every event. -/
theorem stepKeepsDram : Obligations.StepKeepsDram := by
  intro s t hs ht
  obtain ⟨u, hu, hkeeps⟩ := step_keeps (.refl s)
  cases hu.symm.trans ht
  exact hkeeps hs

end Sys2Proof.Machine
end

/-! ## Halting, and contexts saved and loaded (18 R366-R370, 20 R379) -/
section
namespace Sys2Proof.Machine

open Sys2Proof

/-! ### A partition that has halted, and one that runs again -/

/-- What a change of a partition that is there says of it afterwards. -/
theorem halt_of_onPart {n : Nat} {f : Part → Part} {h : HaltState} (hf : ∀ p, (f p).halt = h) {s : State} {q : Part}
    (hq : (s.onPart n f).part? n = some q) : q.halt = h := by
  cases hp : s.part? n with
  | none =>
    rw [State.onPart, hp] at hq
    cases hp.symm.trans hq
  | some p =>
    rw [part?_onPart hp] at hq
    cases hq
    exact hf p

theorem focus_part? (t n : Nat) (s : State) : (s.focus t).part? n = s.part? n := by
  unfold State.focus
  split
  · rfl
  · split <;> rfl

/-- The last thing that a halt does to its partition is to mark it halted. -/
theorem haltPartition_eq {n : Nat} {planes : Bool} {s : State} {p : Part} (hp : s.part? n = some p) :
    ∃ (t : State) (f : Part → Part), haltPartition n planes s = (t.onPart n f).focus s.th.id ∧ ∀ p, (f p).halt = .halted := by
  rw [haltPartition, hp]
  exact ⟨_, _, rfl, fun _ => rfl⟩

theorem haltPartition_halted (n : Nat) (planes : Bool) (s : State) (q : Part) (hq : (haltPartition n planes s).part? n = some q) :
    q.halt = .halted := by
  cases hp : s.part? n with
  | none =>
    rw [haltPartition, hp] at hq
    cases hp.symm.trans hq
  | some p =>
    obtain ⟨t, f, heq, hf⟩ := haltPartition_eq (planes := planes) hp
    rw [heq, focus_part?] at hq
    exact halt_of_onPart hf hq

/-- The last thing that a resumption does to its partition is to mark it running. -/
theorem resumePartition_eq {n : Nat} {s : State} {p : Part} (hp : s.part? n = some p) :
    ∃ (t : State) (f : Part → Part), resumePartition n s = t.onPart n f ∧ ∀ p, (f p).halt = .running := by
  rw [resumePartition, hp]
  exact ⟨_, _, rfl, fun _ => rfl⟩

theorem resumePartition_running (n : Nat) (s : State) (q : Part) (hq : (resumePartition n s).part? n = some q) :
    q.halt = .running := by
  cases hp : s.part? n with
  | none =>
    rw [resumePartition, hp] at hq
    cases hp.symm.trans hq
  | some p =>
    obtain ⟨t, f, heq, hf⟩ := resumePartition_eq hp
    rw [heq] at hq
    exact halt_of_onPart hf hq

/-- Moving past an instruction leaves the thread in its partition. -/
theorem advance_myPart (len : Nat) (s : State) : (advance len s).myPart = s.myPart :=
  (congrArg State.myPart (movesPast_advance len s).1 : _)

/-! ### The checks that the four instructions share -/

theorem needMonitor_ok {s : State} (h : s.th.priv = 2) : needMonitor s = .ok () := need_true (decide_eq_true h) _

/-- Below privilege 2, whatever comes after the check (R366). -/
theorem settle_notMonitor {s : State} (h : s.th.priv ≠ 2) (go : Unit → Checked State) :
    settle s (needMonitor s >>= go) = .next (takeTrap (denied 1 0x3E) s) := by
  rw [needMonitor, need_false (decide_eq_false h)]
  rfl

/-- A context fault with its reason (R370). -/
theorem traps_of_contextFault {i : Instr} {s : State} {r fidx fval : Nat} {block : Word}
    (h : exec i s = .next (takeTrap (contextFault r block fidx fval) s)) : Traps i s s 0x1B fidx fval block (BitVec.ofNat 64 r) :=
  traps_of_takeTrap h rfl

/-! ### HALTP and RESUMEP -/

section
variable {a : BitVec 4} {s : State} (hpriv : s.th.priv = 2)

include hpriv

theorem exec_haltp_outside (h : 16 ≤ (s.getS a).toNat) : exec (.haltp a) s = .next (takeTrap (contextFault 4 0 3 a.toNat) s) := by
  change execHaltp a s = _
  rw [execHaltp, needMonitor_ok hpriv, need_false (decide_eq_false (by omega))]
  rfl

theorem exec_haltp_refused (h : (s.getS a).toNat < 16) {r : Nat} (hr : haltRefusal ((s.getS a).toNat % 8) s = some r) :
    exec (.haltp a) s = .next (takeTrap (contextFault r 0 3 a.toNat) s) := by
  change execHaltp a s = _
  rw [execHaltp, needMonitor_ok hpriv, need_true (decide_eq_true h), hr]
  rfl

theorem exec_haltp (h : (s.getS a).toNat < 16) (hr : haltRefusal ((s.getS a).toNat % 8) s = none) :
    exec (.haltp a) s = .next (haltPartition ((s.getS a).toNat % 8) ((s.getS a).getLsbD 3)
      (if s.myPart = (s.getS a).toNat % 8 then accountNow (advance 4 s) else advance 4 s)) := by
  change execHaltp a s = _
  rw [execHaltp, needMonitor_ok hpriv, need_true (decide_eq_true h), hr]
  change Host.Outcome.next (haltPartition _ _ (if (advance 4 s).myPart = _ then _ else _)) = _
  rw [advance_myPart]

theorem exec_resumep_outside (h : 8 ≤ (s.getS a).toNat) : exec (.resumep a) s = .next (takeTrap (contextFault 4 0 3 a.toNat) s) := by
  change execResumep a s = _
  rw [execResumep, needMonitor_ok hpriv, need_false (decide_eq_false (by omega))]
  rfl

theorem exec_resumep_refused (h : (s.getS a).toNat < 8) {r : Nat} (hr : resumeRefusal (s.getS a).toNat s = some r) :
    exec (.resumep a) s = .next (takeTrap (contextFault r 0 3 a.toNat) s) := by
  change execResumep a s = _
  rw [execResumep, needMonitor_ok hpriv, need_true (decide_eq_true h), hr]
  rfl

theorem exec_resumep (h : (s.getS a).toNat < 8) (hr : resumeRefusal (s.getS a).toNat s = none) :
    exec (.resumep a) s = .next (acquireAt s.th.core (resumePartition (s.getS a).toNat (advance 4 s))) := by
  change execResumep a s = _
  rw [execResumep, needMonitor_ok hpriv, need_true (decide_eq_true h), hr]
  rfl

end
/-! ### CTXSV -/

/-- What CTXSV does with the context in place k, once what the thread queued is performed (R369). -/
def saveContext (a : BitVec 4) (u : BitVec 1) (block : Word) (ls : List Loc) (k : Nat) (r : State) : Checked State :=
  if readBlocked r ls then .ok (holdForWork (blockingWork ls r) r)
  else if u = 1 then
    let w := finishArray (advance 4 r) (arrayAtLoc k)
    .ok (storeBlock ls (arrayBytes w (arrayAtLoc k)) (w.onArray (arrayAtLoc k) fun x => { x with frozen := true }))
  else match threadAt k r with
    | none => .error (contextFault 5 block 3 a.toNat)
    | some t => if t.streams.toList.any (·.opened) then .error (contextFault 5 block 3 a.toNat) else .ok (saveThread t ls (advance 4 r))

section
variable {d a : BitVec 4} {u : BitVec 1} {s s1 : State} {ls : List Loc} {k : Nat} {r : State}

section
variable (hpriv : s.th.priv = 2)
  (hspan : spanPlace .write (s.getS d) (if u = 1 then arrayBlockBytes else 4096) 64 2 d.toNat s = .ok (ls, s1))

include hpriv hspan

theorem exec_ctxsv_noPlace (h : contextPlace (s1.getS a) (decide (u = 1)) s1 = none) :
    exec (.ctxsv d a u) s = .next (takeTrap (contextFault 4 (s.getS d) 3 a.toNat) s) := by
  change execCtxsv d a u s = _
  rw [execCtxsv, needMonitor_ok hpriv, hspan]
  dsimp only [bind, Except.bind]
  rw [h]
  rfl

theorem exec_ctxsv (h : contextPlace (s1.getS a) (decide (u = 1)) s1 = some k) :
    exec (.ctxsv d a u) s = settle s (saveContext a u (s.getS d) ls k (performAt 5 s1.th.id s1)) := by
  change execCtxsv d a u s = _
  rw [execCtxsv, needMonitor_ok hpriv, hspan]
  dsimp only [bind, Except.bind]
  rw [h]
  rfl

end

theorem saveContext_blocked {block : Word} (h : readBlocked r ls = true) :
    saveContext a u block ls k r = .ok (holdForWork (blockingWork ls r) r) := if_pos h

theorem saveContext_array {block : Word} (h : readBlocked r ls = false) (hu : u = 1) :
    saveContext a u block ls k r = .ok (storeBlock ls (arrayBytes (finishArray (advance 4 r) (arrayAtLoc k)) (arrayAtLoc k))
      ((finishArray (advance 4 r) (arrayAtLoc k)).onArray (arrayAtLoc k) fun x => { x with frozen := true })) := by
  rw [saveContext, if_neg (by simp [h]), if_pos hu]

theorem saveContext_noThread {block : Word} (h : readBlocked r ls = false) (hu : u = 0) (ht : threadAt k r = none) :
    saveContext a u block ls k r = .error (contextFault 5 block 3 a.toNat) := by
  rw [saveContext, if_neg (by simp [h]), if_neg (by simp [hu]), ht]

theorem saveContext_opened {block : Word} (h : readBlocked r ls = false) (hu : u = 0) {t : Thread} (ht : threadAt k r = some t)
    (ho : ∃ x ∈ t.streams.toList, x.opened = true) : saveContext a u block ls k r = .error (contextFault 5 block 3 a.toNat) := by
  rw [saveContext, if_neg (by simp [h]), if_neg (by simp [hu]), ht]
  exact if_pos (List.any_eq_true.2 ho)

theorem saveContext_thread {block : Word} (h : readBlocked r ls = false) (hu : u = 0) {t : Thread} (ht : threadAt k r = some t)
    (ho : ∀ x ∈ t.streams.toList, x.opened = false) : saveContext a u block ls k r = .ok (saveThread t ls (advance 4 r)) := by
  rw [saveContext, if_neg (by simp [h]), if_neg (by simp [hu]), ht]
  exact if_neg (Bool.not_eq_true _ ▸ List.any_eq_false.2 fun x hx => by simp [ho x hx])

end

/-! ### CTXLD -/

/-- What CTXLD does with a block that it has read, for the place k (R369). -/
def loadBlock (d a : BitVec 4) (u : BitVec 1) (block : Word) (k : Nat) (bs : List Byte) (s : State) : Checked State :=
  let bound (t : Thread) : Thread := { t with status := .running, slot := BitVec.ofNat 2 k, uncounted := false }
  if u = 1 then if arrayBlockOk bs then .ok (loadArray (arrayAtLoc k) bs (advance 4 s)) else .error (contextFault 6 block 2 d.toNat)
  else if leField bs 0 1 % 2 = 0 then .error (contextFault 6 block 2 d.toNat)
  else match s.all.find? fun t => describedBy bs t && decide (t.core = k / 4) with
    | some t => .ok ((advance 4 (emptySlot t.core (BitVec.ofNat 2 k) s)).onThread t.id fun t => bound (loadContext bs t))
    | none =>
      if s.all.any (describedBy bs) then .error (contextFault 5 block 3 a.toNat)
      else
        let m := advance 4 (emptySlot (k / 4) (BitVec.ofNat 2 k) s)
        .ok { m with threads := bound (blockThread bs k m) :: m.threads, fresh := m.fresh + 1 }

/-- What CTXLD does with the place k that it names: it must be free, and the block must be read (R369). -/
def loadContextAt (d a : BitVec 4) (u : BitVec 1) (block : Word) (ls : List Loc) (k : Nat) (s1 : State) : Checked State :=
  if u = 0 && (threadAt k s1).isSome then .error (contextFault 5 block 3 a.toNat)
  else do
    let v := beforeReading ls (← checkData block ls s1)
    if readBlocked v ls then .ok (holdForWork (blockingWork ls v) v)
    else
      let q := readAs v.th true ls (acquireAt v.th.core v)
      loadBlock d a u block k q.1 q.2

section
variable {d a : BitVec 4} {u : BitVec 1} {s s1 s2 : State} {ls : List Loc} {k : Nat} {block : Word} {bs : List Byte}

section
variable (hpriv : s.th.priv = 2)
  (hspan : spanPlace .read (s.getS d) (if u = 1 then arrayBlockBytes else 4096) 64 2 d.toNat s = .ok (ls, s1))

include hpriv hspan

theorem exec_ctxld_noPlace (h : contextPlace (s1.getS a) (decide (u = 1)) s1 = none) :
    exec (.ctxld d a u) s = .next (takeTrap (contextFault 4 (s.getS d) 3 a.toNat) s) := by
  change execCtxld d a u s = _
  rw [execCtxld, needMonitor_ok hpriv, hspan]
  dsimp only [bind, Except.bind]
  rw [h]
  rfl

theorem exec_ctxld (h : contextPlace (s1.getS a) (decide (u = 1)) s1 = some k) :
    exec (.ctxld d a u) s = settle s (loadContextAt d a u (s.getS d) ls k s1) := by
  change execCtxld d a u s = _
  rw [execCtxld, needMonitor_ok hpriv, hspan]
  dsimp only [bind, Except.bind, loadContextAt, loadBlock]
  rw [h]
  dsimp only
  split
  · rfl
  · split
    · rfl
    · split
      · simp only
      · rfl

end

theorem loadContextAt_taken (hu : u = 0) (h : (threadAt k s1).isSome = true) :
    loadContextAt d a u block ls k s1 = .error (contextFault 5 block 3 a.toNat) := if_pos (by simp [hu, h])

section
variable (hfree : u = 1 ∨ threadAt k s1 = none)

include hfree

/-- The place is free: the block is read. -/
theorem loadContextAt_free : loadContextAt d a u block ls k s1 = (checkData block ls s1).bind fun s2 =>
    if readBlocked (beforeReading ls s2) ls then .ok (holdForWork (blockingWork ls (beforeReading ls s2)) (beforeReading ls s2))
    else
      let q := readAs (beforeReading ls s2).th true ls (acquireAt (beforeReading ls s2).th.core (beforeReading ls s2))
      loadBlock d a u block k q.1 q.2 := by
  refine if_neg ?_
  rcases hfree with h | h <;> simp [h]

theorem loadContextAt_dataError {e : Trap} (h : checkData block ls s1 = .error e) : loadContextAt d a u block ls k s1 = .error e := by
  rw [loadContextAt_free hfree, h]
  rfl

variable (hdata : checkData block ls s1 = .ok s2)

include hdata

theorem loadContextAt_blocked (h : readBlocked (beforeReading ls s2) ls = true) : loadContextAt d a u block ls k s1 =
    .ok (holdForWork (blockingWork ls (beforeReading ls s2)) (beforeReading ls s2)) := by
  rw [loadContextAt_free hfree, hdata]
  exact if_pos h

theorem loadContextAt_read (h : readBlocked (beforeReading ls s2) ls = false) : loadContextAt d a u block ls k s1 =
    loadBlock d a u block k
      (readAs (beforeReading ls s2).th true ls (acquireAt (beforeReading ls s2).th.core (beforeReading ls s2))).1
      (readAs (beforeReading ls s2).th true ls (acquireAt (beforeReading ls s2).th.core (beforeReading ls s2))).2 := by
  rw [loadContextAt_free hfree, hdata]
  exact if_neg (by simp [h])

end

theorem loadBlock_array (hu : u = 1) (h : arrayBlockOk bs = true) :
    loadBlock d a u block k bs s = .ok (loadArray (arrayAtLoc k) bs (advance 4 s)) := by
  rw [loadBlock, if_pos hu, if_pos h]

theorem loadBlock_notArray (hu : u = 1) (h : arrayBlockOk bs = false) :
    loadBlock d a u block k bs s = .error (contextFault 6 block 2 d.toNat) := by
  rw [loadBlock, if_pos hu, if_neg (by simp [h])]

/-- No thread that the block describes was saved on the core. -/
theorem find_describedBy_none (hother : ∀ t ∈ s.all, describedBy bs t = true → t.core ≠ k / 4) :
    s.all.find? (fun t => describedBy bs t && decide (t.core = k / 4)) = none := by
  refine List.find?_eq_none.2 fun t ht h => ?_
  simp only [Bool.and_eq_true, decide_eq_true_eq] at h
  exact hother t ht h.1 h.2

section
variable (hu : u = 0)

include hu

theorem loadBlock_notContext (h : leField bs 0 1 % 2 = 0) :
    loadBlock d a u block k bs s = .error (contextFault 6 block 2 d.toNat) := by
  rw [loadBlock, if_neg (by simp [hu]), if_pos h]

variable (hvalid : leField bs 0 1 % 2 = 1)

include hvalid

/-- The block describes a thread that CTXSV saved on this core. -/
theorem loadBlock_back {t : Thread} (h : s.all.find? (fun t => describedBy bs t && decide (t.core = k / 4)) = some t) :
    loadBlock d a u block k bs s = .ok ((advance 4 (emptySlot t.core (BitVec.ofNat 2 k) s)).onThread t.id fun t =>
      { loadContext bs t with status := .running, slot := BitVec.ofNat 2 k, uncounted := false }) := by
  rw [loadBlock, if_neg (by simp [hu]), if_neg (by simp [hvalid]), h]

/-- The block describes a thread that was saved on another core. -/
theorem loadBlock_elsewhere (hother : ∀ t ∈ s.all, describedBy bs t = true → t.core ≠ k / 4)
    (h : ∃ t ∈ s.all, describedBy bs t = true) : loadBlock d a u block k bs s = .error (contextFault 5 block 3 a.toNat) := by
  rw [loadBlock, if_neg (by simp [hu]), if_neg (by simp [hvalid]), find_describedBy_none hother]
  exact if_pos (List.any_eq_true.2 h)

/-- The block describes no saved thread, and makes one. -/
theorem loadBlock_made (h : ∀ t ∈ s.all, describedBy bs t = false) : ∃ m, MovesPast 4 (emptySlot (k / 4) (BitVec.ofNat 2 k) s) m
    ∧ loadBlock d a u block k bs s = .ok { m with
      threads := { blockThread bs k m with status := .running, slot := BitVec.ofNat 2 k, uncounted := false } :: m.threads
      fresh := m.fresh + 1 } := by
  refine ⟨_, movesPast_advance _ _, ?_⟩
  rw [loadBlock, if_neg (by simp [hu]), if_neg (by simp [hvalid]), find_describedBy_none fun t ht h' => absurd (h t ht) (by simp [h'])]
  exact if_neg (Bool.not_eq_true _ ▸ List.any_eq_false.2 fun t ht => by simp [h t ht])

end

end

/-! ### The mailbox -/

theorem mailbox_closed {s : State} {go : State → State} (h : s.booted ≠ 5) : mailbox s go = .next s := if_neg h

theorem mailbox_open {s : State} {go : State → State} (h : s.booted = 5) : mailbox s go = .next (go s) := if_pos h

theorem exec_halt_closed {s : State} (hboot : s.booted ≠ 5) : exec .halt s = .next s := by
  change execHalt s = _
  rw [execHalt, mailbox_closed hboot]

theorem exec_halt_refused {s : State} {r : Nat} (hboot : s.booted = 5) (hr : haltRefusal s.arg.a s = some r) :
    exec .halt s = .next (respond 3 1 [] s) := by
  change execHalt s = _
  rw [execHalt, mailbox_open hboot, hr]

theorem exec_halt {s : State} (hboot : s.booted = 5) (hr : haltRefusal s.arg.a s = none) :
    exec .halt s = .next (respond 3 0 [] (haltPartition s.arg.a (decide (s.arg.b = 1)) s)) := by
  change execHalt s = _
  rw [execHalt, mailbox_open hboot, hr]

theorem exec_resume_closed {s : State} (hboot : s.booted ≠ 5) : exec .resume s = .next s := by
  change execResume s = _
  rw [execResume, mailbox_closed hboot]

theorem exec_resume_refused {s : State} {r : Nat} (hboot : s.booted = 5) (hr : resumeRefusal s.arg.a s = some r) :
    exec .resume s = .next (respond 4 1 [] s) := by
  change execResume s = _
  rw [execResume, mailbox_open hboot, hr]

theorem exec_resume {s : State} (hboot : s.booted = 5) (hr : resumeRefusal s.arg.a s = none) :
    exec .resume s = .next (respond 4 0 [] (resumePartition s.arg.a s)) := by
  change execResume s = _
  rw [execResume, mailbox_open hboot, hr]

/-! ### The obligation -/

/-- Settles O52, instruction by instruction, each along its checks in order. -/
theorem haltAndContext : Obligations.HaltAndContext := by
  refine ⟨fun d a u s => ⟨fun hpriv i hi => ?denied, fun hpriv => ⟨fun h => ?_, fun h => ?_, fun h => ?haltp, fun h => ?resumep,
    fun ls s1 hspan => ?ctxsv⟩, fun hpriv ls s1 hspan => ?ctxld⟩, fun s => ⟨fun hboot => ?_, fun hboot => ?mailbox⟩⟩
  case denied =>
    refine traps_of_takeTrap (tr := denied 1 0x3E) ?_ rfl
    simp only [List.mem_cons, List.not_mem_nil, or_false] at hi
    rcases hi with rfl | rfl | rfl | rfl <;> exact settle_notMonitor hpriv _
  · exact traps_of_contextFault (exec_haltp_outside hpriv h)
  · exact traps_of_contextFault (exec_resumep_outside hpriv h)
  case haltp =>
    exact ⟨fun r hr => traps_of_contextFault (exec_haltp_refused hpriv h hr),
      fun hr => ⟨_, _, movesPast_advance _ _, exec_haltp hpriv h hr, rfl, haltPartition_halted _ _ _⟩⟩
  case resumep =>
    exact ⟨fun r hr => traps_of_contextFault (exec_resumep_refused hpriv h hr),
      fun hr => ⟨_, movesPast_advance _ _, exec_resumep hpriv h hr⟩⟩
  case ctxsv =>
    refine ⟨fun hk => traps_of_contextFault (exec_ctxsv_noPlace hpriv hspan hk), fun k hk => ?_⟩
    have hexec := exec_ctxsv hpriv hspan hk
    refine ⟨fun hb => ?_, fun hb => ⟨fun hu => ⟨_, movesPast_advance _ _, ?_⟩, fun hu => ⟨fun ht => ?_, fun t ht =>
      ⟨fun ho => ?_, fun ho => ⟨_, movesPast_advance _ _, ?_⟩⟩⟩⟩⟩
    · exact hexec.trans (congrArg (settle s) (saveContext_blocked hb))
    · exact hexec.trans (congrArg (settle s) (saveContext_array hb hu))
    · exact traps_of_contextFault (hexec.trans (congrArg (settle s) (saveContext_noThread hb hu ht)))
    · exact traps_of_contextFault (hexec.trans (congrArg (settle s) (saveContext_opened hb hu ht ho)))
    · exact hexec.trans (congrArg (settle s) (saveContext_thread hb hu ht ho))
  case ctxld =>
    refine ⟨fun hk => traps_of_contextFault (exec_ctxld_noPlace hpriv hspan hk), fun k hk => ?_⟩
    have hexec := exec_ctxld hpriv hspan hk
    refine ⟨fun hu ht => ?_, fun hfree => ⟨fun e he => ?_, fun s2 hdata => ⟨fun hb => ?_, fun hb => ?_⟩⟩⟩
    · exact traps_of_contextFault (hexec.trans (congrArg (settle s) (loadContextAt_taken hu ht)))
    · exact hexec.trans (congrArg (settle s) (loadContextAt_dataError hfree he))
    · exact hexec.trans (congrArg (settle s) (loadContextAt_blocked hfree hdata hb))
    have hread := hexec.trans (congrArg (settle s) (loadContextAt_read hfree hdata hb))
    refine ⟨fun hu => ⟨fun hbad => ?_, fun hok => ⟨_, movesPast_advance _ _, ?_⟩⟩, fun hu hbad => ?_, fun hu hvalid =>
      ⟨fun t ht => ⟨_, movesPast_advance _ _, ?_⟩, fun hother hsome => ?_, fun hnone => ?_⟩⟩
    · exact traps_of_contextFault (hread.trans (congrArg (settle s) (loadBlock_notArray hu hbad)))
    · exact hread.trans (congrArg (settle s) (loadBlock_array hu hok))
    · exact traps_of_contextFault (hread.trans (congrArg (settle s) (loadBlock_notContext hu hbad)))
    · exact hread.trans (congrArg (settle s) (loadBlock_back hu hvalid ht))
    · exact traps_of_contextFault (hread.trans (congrArg (settle s) (loadBlock_elsewhere hu hvalid hother hsome)))
    · obtain ⟨m, hm, hmade⟩ := loadBlock_made hu hvalid hnone
      exact ⟨m, hm, hread.trans (congrArg (settle s) hmade)⟩
  · exact ⟨exec_halt_closed hboot, exec_resume_closed hboot⟩
  case mailbox =>
    exact ⟨fun r hr => exec_halt_refused hboot hr, fun hr => ⟨_, exec_halt hboot hr, rfl, haltPartition_halted _ _ _⟩,
      fun r hr => exec_resume_refused hboot hr, fun hr => ⟨_, exec_resume hboot hr, rfl, resumePartition_running _ _⟩⟩

end Sys2Proof.Machine
end

/-! ## The machine room (20 R373-R387) -/
section
namespace Sys2Proof.Machine

open Sys2Proof

/-! ### The mailbox -/

theorem exec_mailbox_closed {s : State} (hboot : s.booted ≠ 5) {i : Instr} (hi : i ∈ [Instr.createPartition, .loadImage, .release,
    .attest, .snapshot, .restore, .readMonitorLog, .readMarginHistory]) : exec i s = .next s := by
  simp only [List.mem_cons, List.not_mem_nil, or_false] at hi
  rcases hi with rfl | rfl | rfl | rfl | rfl | rfl | rfl | rfl <;> exact if_neg hboot

/-- An answer leaves the partitions. -/
theorem respond_part? (code result : Nat) (bytes : List Byte) (s : State) (n : Nat) : (respond code result bytes s).part? n = s.part? n :=
  rfl

/-! ### A snapshot copied back (R387) -/

/-- The snapshot at a base copied back into the ranges of a new grant. -/
def restoredCopy (g : Grant) (base : Nat) (s : State) : Bool × State :=
  copyRanges ((rangeOffsets 0 g.ranges).map fun r => (base + r.1, r.2.2, r.2.1)) (createPartition g s)

/-- The partition that a snapshot holds stands again under a new grant, its page tables moved to this package. -/
def restoredPart (g : Grant) (x : Snapshot) (s : State) : State :=
  (moveTables (paPkg x.held.grant.ptroot) s.pkg 4 g.ptroot (restoredCopy g x.base s).2).onPart g.part fun _ =>
    { x.held with grant := g, image := { x.held.image with grant := some g } }

/-- The package that copies a snapshot back keeps its number. -/
theorem restoredCopy_pkg (g : Grant) (base : Nat) (s : State) : (restoredCopy g base s).2.pkg = s.pkg :=
  (copyRanges_keeps (createPartition_keeps (.refl s))).2

section
variable {s : State} (hboot : s.booted = 5)

include hboot

/-! ### CREATE_PARTITION (R373) -/

theorem exec_createPartition_refused (h : ∀ g, s.arg.grant = some g → grantOk g s = false) :
    exec .createPartition s = .next (respond 1 1 [] s) := by
  change execCreatePartition s = _
  cases hg : s.arg.grant with
  | none => simp only [execCreatePartition, mailbox_open hboot, hg]
  | some g => simp [execCreatePartition, mailbox_open hboot, hg, h g hg]

theorem exec_createPartition {g : Grant} (hg : s.arg.grant = some g) (hok : grantOk g s = true) :
    exec .createPartition s = .next (respond 1 0 [] (createPartition g s)) := by
  change execCreatePartition s = _
  simp only [execCreatePartition, mailbox_open hboot, hg, hok, if_true]

/-! ### LOAD_IMAGE (R381) -/

section
variable {r : LoadRequest} {p : Part} (hr : s.arg.load = some r) (hp : s.part? r.part = some p)

include hr hp

theorem exec_loadImage_notRunning (h : p.halt ≠ .running) : exec .loadImage s = .next (respond 2 3 [] s) := by
  change execLoadImage s = _
  simp [execLoadImage, mailbox_open hboot, hr, hp, h]

variable (hrun : p.halt = .running)

include hrun

theorem exec_loadImage_unsigned (h : Config.verifies (Config.sha3 r.pof) r.signature p.grant.ownerKey = false) :
    exec .loadImage s = .next (respond 2 2 [] s) := by
  change execLoadImage s = _
  simp [execLoadImage, mailbox_open hboot, hr, hp, hrun, h]

variable (hsigned : Config.verifies (Config.sha3 r.pof) r.signature p.grant.ownerKey = true)

include hsigned

/-- An image whose checks fail: the fault's item and offset are answered (notes/assumptions/69.md). -/
theorem exec_loadImage_bad {i o : Nat} (h : checkImage (measureImage (Config.sha3 r.pof) s)
    (freeLaunches (measureImage (Config.sha3 r.pof) s) p) r.pof = .error (i, o)) :
    exec .loadImage s = .next (respond 2 1 (leBytes 4 i ++ leBytes 8 o) (measureImage (Config.sha3 r.pof) s)) := by
  change execLoadImage s = _
  simp [execLoadImage, mailbox_open hboot, hr, hp, hrun, hsigned, h]

theorem exec_loadImage {xs : List Sect} {ds : List PlacedDeck} (h : checkImage (measureImage (Config.sha3 r.pof) s)
    (freeLaunches (measureImage (Config.sha3 r.pof) s) p) r.pof = .ok (xs, ds)) :
    exec .loadImage s = .next (respond 2 0 [] (launchImage (freeLaunches (measureImage (Config.sha3 r.pof) s) p) r.seed xs ds
      ((measureImage (Config.sha3 r.pof) s).onPart r.part fun q => { q with imageDigest := Config.sha3 r.pof }))) := by
  change execLoadImage s = _
  simp [execLoadImage, mailbox_open hboot, hr, hp, hrun, hsigned, h]

end

/-! ### RELEASE and ATTEST (R374, R382) -/

section
variable {p : Part} (hp : s.part? s.arg.a = some p)

include hp

theorem exec_release_busy (h : partQuiet p s = false) : exec .release s = .next (respond 5 1 [] s) := by
  change execRelease s = _
  simp [execRelease, mailbox_open hboot, hp, h]

theorem exec_release (h : partQuiet p s = true) : exec .release s = .next (respond 5 0 [] (releasePartition p s)) := by
  change execRelease s = _
  simp [execRelease, mailbox_open hboot, hp, h]

theorem exec_attest_badNonce (h : s.arg.bytes.length ≠ 64) : exec .attest s = .next (respond 6 1 [] s) := by
  change execAttest s = _
  simp [execAttest, mailbox_open hboot, hp, h]

theorem exec_attest (h : s.arg.bytes.length = 64) : exec .attest s = .next (respond 6 0 (attestReport p s.arg.bytes s
    ++ padTo 4627 (Config.attestSign (digestBytes (Config.sha3 (attestReport p s.arg.bytes s))))) s) := by
  change execAttest s = _
  simp [execAttest, mailbox_open hboot, hp, h]

end

theorem exec_release_nobody (hp : s.part? s.arg.a = none) : exec .release s = .next (respond 5 1 [] s) := by
  change execRelease s = _
  simp [execRelease, mailbox_open hboot, hp]

theorem exec_attest_nobody (hp : s.part? s.arg.a = none) : exec .attest s = .next (respond 6 1 [] s) := by
  change execAttest s = _
  simp [execAttest, mailbox_open hboot, hp]

/-! ### SNAPSHOT (R387) -/

theorem exec_snapshot_refused {r : Nat} (h : haltRefusal s.arg.a s = some r) : exec .snapshot s = .next (respond 7 1 [] s) := by
  change execSnapshot s = _
  simp [execSnapshot, mailbox_open hboot, h]

theorem exec_snapshot_nobody (hp : s.part? s.arg.a = none) : exec .snapshot s = .next (respond 7 1 [] s) :=
  exec_snapshot_refused hboot (r := 4) (by rw [haltRefusal, hp])

section
variable {p : Part} (hhalt : haltRefusal s.arg.a s = none) (hp : s.part? s.arg.a = some p)

include hhalt hp

/-- The place for the snapshot is not one of a peer that stands. -/
theorem exec_snapshot_badPlace (h : s.ownPa s.arg.b = true ∨ s.paOk s.arg.b = false ∨ s.failed.contains (paPkg s.arg.b) = true) :
    exec .snapshot s = .next (respond 7 1 [] s) := by
  change execSnapshot s = _
  rw [execSnapshot, mailbox_open hboot]
  dsimp only
  rw [hhalt, hp]
  dsimp only
  rw [if_pos (by simpa [or_assoc] using h)]

theorem exec_snapshot (hown : s.ownPa s.arg.b = false) (hpa : s.paOk s.arg.b = true) (hpeer : s.failed.contains (paPkg s.arg.b) = false) :
    let u := copyRanges ((rangeOffsets 0 p.grant.ranges).map fun r => (r.2.1, r.2.2, s.arg.b + r.1)) (haltPartition s.arg.a true s)
    let kept := u.2.snaps.filter fun x => x.base ≠ s.arg.b
    exec .snapshot s = .next (respond 7 (if u.1 then 0 else 1) [] (resumePartition s.arg.a
      { u.2 with snaps := if u.1 then ⟨s.arg.b, (u.2.part? s.arg.a).getD p⟩ :: kept else kept })) := by
  change execSnapshot s = _
  rw [execSnapshot, mailbox_open hboot]
  dsimp only
  rw [hhalt, hp]
  dsimp only
  rw [if_neg (by simp only [hown, hpa, hpeer]; decide)]

end

/-! ### RESTORE (R387) -/

theorem exec_restore_noGrant (hg : s.arg.grant = none) : exec .restore s = .next (respond 8 1 [] s) := by
  change execRestore s = _
  simp [execRestore, mailbox_open hboot, hg]

section
variable {g : Grant} (hg : s.arg.grant = some g)

include hg

theorem exec_restore_noSnapshot (hx : s.snaps.find? (fun x => x.base = s.arg.b) = none) :
    exec .restore s = .next (respond 8 1 [] s) := by
  change execRestore s = _
  simp [execRestore, mailbox_open hboot, hg, hx]

variable {x : Snapshot} (hx : s.snaps.find? (fun x => x.base = s.arg.b) = some x)

include hx

theorem exec_restore_badGrant (h : (grantOk g s && sameGrant s.pkg g x.held.grant) = false) :
    exec .restore s = .next (respond 8 1 [] s) := by
  change execRestore s = _
  rw [execRestore, mailbox_open hboot, hg, hx]
  dsimp only
  rw [if_neg (by simp [h])]

section
variable (hok : grantOk g s = true) (hsame : sameGrant s.pkg g x.held.grant = true)

include hok hsame

/-- A snapshot is copied back; the partition resumes where the copy has been whole and nothing refuses that. -/
theorem exec_restore_copied :
    let u := restoredCopy g x.base s
    exec .restore s = .next (if u.1 && (resumeRefusal g.part (restoredPart g x s)).isNone then
        respond 8 0 [] (resumePartition g.part (restoredPart g x s))
      else respond 8 1 [] (if u.1 then s else { s with
        bad := u.2.bad, transients := u.2.transients, corrected := u.2.corrected
        monlog := u.2.monlog, monSeq := u.2.monSeq, monDropped := u.2.monDropped })) := by
  change execRestore s = _
  rw [execRestore, mailbox_open hboot, hg, hx]
  dsimp only
  rw [if_pos (by simp [hok, hsame])]
  have hcopy : copyRanges ((rangeOffsets 0 g.ranges).map fun r => (x.base + r.1, r.2.2, r.2.1)) (createPartition g s)
    = restoredCopy g x.base s := rfl
  rw [hcopy, restoredCopy_pkg]
  rfl

/-- A line of the snapshot cannot be read: only the records of errors change (notes/assumptions/126.md). -/
theorem exec_restore_notCopied (h : (restoredCopy g x.base s).1 = false) : exec .restore s = .next (respond 8 1 [] { s with
    bad := (restoredCopy g x.base s).2.bad, transients := (restoredCopy g x.base s).2.transients
    corrected := (restoredCopy g x.base s).2.corrected, monlog := (restoredCopy g x.base s).2.monlog
    monSeq := (restoredCopy g x.base s).2.monSeq, monDropped := (restoredCopy g x.base s).2.monDropped }) := by
  refine (exec_restore_copied hboot hg hx hok hsame).trans ?_
  rw [if_neg (by simp [h]), if_neg (by simp [h])]

variable (hdone : (restoredCopy g x.base s).1 = true)

include hdone

theorem exec_restore_notResumed {r : Nat} (h : resumeRefusal g.part (restoredPart g x s) = some r) :
    exec .restore s = .next (respond 8 1 [] s) := by
  refine (exec_restore_copied hboot hg hx hok hsame).trans ?_
  rw [if_neg (by simp [h]), if_pos hdone]

theorem exec_restore (h : resumeRefusal g.part (restoredPart g x s) = none) :
    exec .restore s = .next (respond 8 0 [] (resumePartition g.part (restoredPart g x s))) := by
  refine (exec_restore_copied hboot hg hx hok hsame).trans ?_
  rw [if_pos (by simp [h, hdone])]

end

end

/-! ### READ_MONITOR_LOG and READ_MARGIN_HISTORY (R375, R385) -/

theorem exec_readMonitorLog : exec .readMonitorLog s =
    .next (respond 9 0 (leBytes 4 s.monDropped ++ s.monlog.flatMap fun e => e.1.toBytes e.2) { s with monlog := [] }) := by
  change execReadMonitorLog s = _
  rw [execReadMonitorLog, mailbox_open hboot]

theorem exec_readMarginHistory : exec .readMarginHistory s =
    .next (respond 10 0 (s.margins.flatMap MarginEntry.toBytes) s) := by
  change execReadMarginHistory s = _
  rw [execReadMarginHistory, mailbox_open hboot]

end
/-! ### The host's window (R376, R378) -/

theorem freeBytes_length (n seed : Nat) : (freeBytes n seed).length = n := by
  rw [freeBytes, List.length_map, List.length_range]

section
variable {s : State}

theorem exec_hostMemoryRead_outside (h : apertureAddr s s.arg.a s.arg.b s.arg.c = none) :
    exec .hostMemoryRead s = .next { s.draw with response := { bytes := freeBytes s.arg.c s.free } } := by
  change execHostMemoryRead s = _
  simp only [execHostMemoryRead, h]

section
variable {va : Nat} (h : apertureAddr s s.arg.a s.arg.b s.arg.c = some va)

include h

theorem exec_hostMemoryRead_refused {e : Flt × Nat}
    (hspan : resolveSpan (hostWho s.arg.a) .read (s.arg.c / 2048 + 2) va s.arg.c s = .error e) :
    exec .hostMemoryRead s = .next { s.draw with response := { bytes := freeBytes s.arg.c s.free } } := by
  change execHostMemoryRead s = _
  simp only [execHostMemoryRead, h, hspan]

variable {sp : List (Loc × Nat)} {u : State}
  (hspan : resolveSpan (hostWho s.arg.a) .read (s.arg.c / 2048 + 2) va s.arg.c s = .ok (sp, u))

include hspan

theorem exec_hostMemoryRead {v : State} (hv : settleBad (u.bad.length + 1) (spanLocs sp) u = .ok v) :
    exec .hostMemoryRead s = .next { (readDram (spanLocs sp) v).2 with response := { bytes := (readDram (spanLocs sp) v).1 } } := by
  change execHostMemoryRead s = _
  simp only [execHostMemoryRead, h, hspan, hv]

theorem exec_hostMemoryRead_dataError {i : Nat} {b : BadStorage} {v : State}
    (hv : settleBad (u.bad.length + 1) (spanLocs sp) u = .error (i, b, v)) :
    exec .hostMemoryRead s = .next { (retire b v).draw with response := { bytes := freeBytes s.arg.c v.free } } := by
  change execHostMemoryRead s = _
  simp only [execHostMemoryRead, h, hspan, hv]

end

theorem exec_hostMemoryWrite_outside (h : apertureAddr s s.arg.a s.arg.b s.arg.bytes.length = none) :
    exec .hostMemoryWrite s = .next s := by
  change execHostMemoryWrite s = _
  simp only [execHostMemoryWrite, h]

section
variable {va : Nat} (h : apertureAddr s s.arg.a s.arg.b s.arg.bytes.length = some va)

include h

theorem exec_hostMemoryWrite {sp : List (Loc × Nat)} {u : State} (hspan : resolveSpan (hostWho s.arg.a) .write
    (s.arg.bytes.length / 2048 + 2) va s.arg.bytes.length s = .ok (sp, u)) :
    exec .hostMemoryWrite s = .next (hostStore s.arg.a va (spanLocs sp) s.arg.bytes u) := by
  have harg : u.arg = s.arg := arg_of_besideMemory (besideMemory_resolveSpan hspan)
  change execHostMemoryWrite s = _
  simp only [execHostMemoryWrite, h, hspan, harg]

theorem exec_hostMemoryWrite_refused {f : Flt} {at_ : Nat} (hspan : resolveSpan (hostWho s.arg.a) .write
    (s.arg.bytes.length / 2048 + 2) va s.arg.bytes.length s = .error (f, at_)) : exec .hostMemoryWrite s =
      .next (s.logAsync s.arg.a { cause := 4, unit := unitCode 6 0 0 0, issuer := 0xFFFFFFFF, addr := BitVec.ofNat 64 at_,
                                  value := BitVec.ofNat 64 (if f.cause = 4 then f.tv else 0) }) := by
  change execHostMemoryWrite s = _
  simp only [execHostMemoryWrite, h, hspan]

end

end

/-! ### Boot (R381) -/

section
variable {s : State} {b : BootRequest} (hb : s.arg.boot = some b)

include hb

theorem exec_boot_again (h : s.booted ≠ 0) : exec .boot s = .next s := by
  change execBoot s = _
  simp only [execBoot, hb, if_pos h]

variable (hreset : s.booted = 0)

include hreset

theorem exec_boot_unreadable (h : b.readable = false) : exec .boot s = .next (bootFails 1 s) := by
  change execBoot s = _
  simp [execBoot, hb, hreset, h]

variable (hread : b.readable = true)

include hread

theorem exec_boot_unsigned (h : Config.verifies (Config.sha3 b.firmware) b.fwSignature Config.fusedKey = false) :
    exec .boot s = .next (bootFails 2 s) := by
  change execBoot s = _
  simp [execBoot, hb, hreset, hread, h]

variable (hsigned : Config.verifies (Config.sha3 b.firmware) b.fwSignature Config.fusedKey = true)

include hsigned

theorem exec_boot_rolledBack (h : ¬ Config.fusedRollback ≤ b.version) : exec .boot s = .next (bootFails 3 s) := by
  change execBoot s = _
  simp [execBoot, hb, hreset, hread, hsigned, Nat.lt_of_not_le h]

variable (hfresh : Config.fusedRollback ≤ b.version)

include hfresh

/-- The links or the DRAM do not train, or the monitor's signature is wrong. -/
theorem exec_boot_noMonitor (h : b.trained = false ∨ Config.verifies (Config.sha3 b.monitor) b.monSignature Config.fusedKey = false) :
    ∃ u, exec .boot s = .next (bootFails 4 u) := by
  cases htrain : b.trained with
  | false =>
    refine ⟨measureImage (Config.sha3 b.firmware) s, ?_⟩
    change execBoot s = _
    simp [execBoot, hb, hreset, hread, hsigned, Nat.not_lt.2 hfresh, htrain]
  | true =>
    have hmon := h.resolve_left (by simp [htrain])
    refine ⟨zeroDram (measureImage (Config.sha3 b.firmware) s), ?_⟩
    change execBoot s = _
    simp [execBoot, hb, hreset, hread, hsigned, Nat.not_lt.2 hfresh, htrain, hmon]

variable (htrain : b.trained = true) (hmon : Config.verifies (Config.sha3 b.monitor) b.monSignature Config.fusedKey = true)

include htrain hmon

theorem exec_boot_notStarted (h : b.starts = false) : exec .boot s =
    .next (bootFails 5 (measureImage (Config.sha3 b.monitor) (zeroDram (measureImage (Config.sha3 b.firmware) s)))) := by
  change execBoot s = _
  simp [execBoot, hb, hreset, hread, hsigned, Nat.not_lt.2 hfresh, htrain, hmon, h]

theorem exec_boot (h : b.starts = true) : exec .boot s = .next { startMonitor (measureImage (Config.sha3 b.monitor)
    (zeroDram (measureImage (Config.sha3 b.firmware) s))) with booted := 5 } := by
  change execBoot s = _
  simp [execBoot, hb, hreset, hread, hsigned, Nat.not_lt.2 hfresh, htrain, hmon, h]

end

/-- No byte of the package's own DRAM is listed after it is zeroed. -/
theorem ownPa_of_mem_zeroDram {s : State} {p : Nat × Byte} (hp : p ∈ (zeroDram s).dram) : s.ownPa p.1 = false := by
  simpa using (List.mem_filter.1 hp).2

theorem ownPa_of_mem_zeroDram_l2 {s : State} {p : Nat × Byte} (hp : p ∈ (zeroDram s).l2) : s.ownPa p.1 = false := by
  simpa using (List.mem_filter.1 hp).2

/-- An entry of a table that lists the n numbers from a on. -/
theorem Table.find_map_range' {α : Type} (f : Nat → α) {a k n : Nat} (ha : a ≤ k) (hn : k < a + n) :
    Table.find k ((List.range' a n).map fun i => (i, f i)) = some (f k) := by
  induction n generalizing a with
  | zero => omega
  | succ n ih =>
    rw [List.range'_succ, List.map_cons, Table.find]
    split
    next h => rw [h]
    next h => exact ih (by omega) (by omega)

/-- The monitor runs on every supervisor core below 16. -/
theorem startMonitor_running (s : State) {n : Nat} (h : n < 16) :
    ∃ u, Table.find n (startMonitor s).supers = some u ∧ u.running = true :=
  ⟨_, by rw [startMonitor, List.range_eq_range', Table.find_map_range' _ n.zero_le (by omega)], rfl⟩

/-- Where boot stops, and what it leaves where it does not. -/
theorem boot_ends {s : State} {b : BootRequest} (hb : s.arg.boot = some b) (hreset : s.booted = 0) :
    let d := Config.sha3 b.firmware
    let m := Config.sha3 b.monitor
    ∃ t, exec .boot s = .next t ∧ t.booted = (if b.readable = false then 1
        else if ¬ Config.verifies d b.fwSignature Config.fusedKey = true then 2 else if ¬ Config.fusedRollback ≤ b.version then 3
        else if b.trained = false ∨ ¬ Config.verifies m b.monSignature Config.fusedKey = true then 4
        else if b.starts = false then 6 else 5)
      ∧ (t.booted = 5 → t.measure = Config.sha3 (digestBytes (Config.sha3 (digestBytes s.measure ++ digestBytes d)) ++ digestBytes m)
        ∧ (∀ p ∈ t.dram, s.ownPa p.1 = false) ∧ (∀ p ∈ t.l2, s.ownPa p.1 = false)
        ∧ ∀ n < 16, ∃ u, Table.find n t.supers = some u ∧ u.running = true) := by
  intro d m
  by_cases hread : b.readable = false
  · exact ⟨_, exec_boot_unreadable hb hreset hread, (if_pos hread).symm, nofun⟩
  rw [if_neg hread]
  rw [Bool.not_eq_false] at hread
  by_cases hsigned : ¬ Config.verifies d b.fwSignature Config.fusedKey = true
  · exact ⟨_, exec_boot_unsigned hb hreset hread (Bool.not_eq_true _ ▸ hsigned), (if_pos hsigned).symm, nofun⟩
  rw [if_neg hsigned]
  rw [not_not] at hsigned
  by_cases hfresh : ¬ Config.fusedRollback ≤ b.version
  · exact ⟨_, exec_boot_rolledBack hb hreset hread hsigned hfresh, (if_pos hfresh).symm, nofun⟩
  rw [if_neg hfresh]
  rw [not_not] at hfresh
  by_cases hmon : b.trained = false ∨ ¬ Config.verifies m b.monSignature Config.fusedKey = true
  · obtain ⟨u, hu⟩ := exec_boot_noMonitor hb hreset hread hsigned hfresh (hmon.imp_right (Bool.not_eq_true _).mp)
    exact ⟨_, hu, (if_pos hmon).symm, nofun⟩
  rw [if_neg hmon]
  rw [not_or, Bool.not_eq_false, not_not] at hmon
  obtain ⟨htrain, hmon⟩ := hmon
  by_cases hstarts : b.starts = false
  · exact ⟨_, exec_boot_notStarted hb hreset hread hsigned hfresh htrain hmon hstarts, (if_pos hstarts).symm, nofun⟩
  rw [if_neg hstarts]
  rw [Bool.not_eq_false] at hstarts
  refine ⟨_, exec_boot hb hreset hread hsigned hfresh htrain hmon hstarts, rfl, fun _ => ⟨rfl, fun q hq => ?_, fun q hq => ?_,
    fun n hn => startMonitor_running _ hn⟩⟩
  · exact ownPa_of_mem_zeroDram hq
  · exact ownPa_of_mem_zeroDram_l2 hq

/-! ### Control loops and ageing (R384, R385) -/

theorem exec_vfStep (s : State) : exec .vfStep s = .next (s.setGrove s.arg.a { s.grove s.arg.a with
    clock := if s.arg.b = 1 then min 32 ((s.grove s.arg.a).clock + 1) else max 16 ((s.grove s.arg.a).clock - 1)
    margin := (s.grove s.arg.a).replanned }) := rfl

theorem exec_refreshAdjust (s : State) : exec .refreshAdjust s = .next (s.setStand s.arg.a { s.stand s.arg.a with
    hot := if 85 < s.arg.b then true else if s.arg.b < 80 then false else (s.stand s.arg.a).hot }) := rfl

theorem exec_linkEqualisation (s : State) : exec .linkEqualisation s =
    .next (if s.arg.a < 256 then { s with taps := Table.put s.arg.a s.arg.b s.taps } else s) := rfl

theorem exec_walkerPlacement {s : State} (hb : s.arg.b < 64) (hlow : 1 ≤ s.arg.c) (hhigh : s.arg.c ≤ 4) : exec .walkerPlacement s
    = .next (s.setStand s.arg.a { s.stand s.arg.a with walkers := Table.put s.arg.b s.arg.c (s.stand s.arg.a).walkers }) :=
  if_pos ⟨hb, hlow, hhigh⟩

theorem exec_marginMeasure {s : State} {m : MarginEntry} (hm : s.arg.margin = some m)
    (hcore : isCore (16 * (32 * m.stand + m.grove)) = true) :
    exec .marginMeasure s = .next (replan m s) := by
  change execMarginMeasure s = _
  simp only [execMarginMeasure, hm, hcore, if_true]

/-- The history holds what was appended, of its last 256 entries. -/
theorem appendMargins_margins (ms : List MarginEntry) (s : State) :
    (appendMargins ms s).margins = (s.margins ++ ms).drop ((s.margins ++ ms).length - 256) := by
  rw [appendMargins]

theorem replan_margins (m : MarginEntry) (s : State) :
    (replan m s).margins = (s.margins ++ [m]).drop ((s.margins ++ [m]).length - 256) := by
  rw [replan, State.setGrove_margins, appendMargins_margins]

/-- The newest entry of the history is the one measured. -/
theorem getLast?_margins (m : MarginEntry) (s : State) : (replan m s).margins.getLast? = some m := by
  rw [replan_margins, List.getLast?_drop, if_neg, List.getLast?_concat]
  rw [List.length_append, List.length_singleton]
  omega

theorem length_margins (m : MarginEntry) (s : State) : (replan m s).margins.length ≤ 256 := by
  rw [replan_margins, List.length_drop]
  omega

/-- A history that is not full loses nothing. -/
theorem margins_of_room {m : MarginEntry} {s : State} (h : s.margins.length < 256) : (replan m s).margins = s.margins ++ [m] := by
  rw [replan_margins, List.length_append, List.length_singleton, Nat.sub_eq_zero_of_le h, List.drop_zero]

theorem replan_replanned (m : MarginEntry) (s : State) : ((replan m s).grove (32 * m.stand + m.grove)).replanned = m.version := by
  rw [replan, State.setGrove_self]

theorem appendMargins_frame (ms : List MarginEntry) (s : State) : ∃ l, appendMargins ms s = { s with margins := l } := by
  unfold appendMargins
  exact ⟨_, rfl⟩

/-- What a measurement changes. -/
theorem replan_frame (m : MarginEntry) (s : State) :
    replan m s = { s with margins := (replan m s).margins, groves := (replan m s).groves } := by
  obtain ⟨l, hl⟩ := appendMargins_frame [m] s
  rw [replan, hl]
  rfl

/-! ### Networks of a domain (R319, R386) -/

/-- A network that a list does not name keeps its record while the listed ones are replaced. -/
theorem net_foldl_setNet_ne (f : Net → Net) {n : Nat} {l : List Nat} (hn : n ∉ l) (s : State) :
    (l.foldl (fun (t : State) i => t.setNet i (f (t.net i))) s).net n = s.net n := by
  induction l generalizing s with
  | nil => rfl
  | cons i l ih =>
    rw [List.mem_cons, not_or] at hn
    rw [List.foldl_cons, ih hn.2, State.setNet_ne _ _ _ _ hn.1]

/-- A network that a list names has what every replaced record has. -/
theorem net_foldl_setNet {P : Net → Prop} {f : Net → Net} (hf : ∀ x, P (f x)) {n : Nat} {l : List Nat} (hn : n ∈ l) (s : State) :
    P ((l.foldl (fun (t : State) i => t.setNet i (f (t.net i))) s).net n) := by
  induction l generalizing s with
  | nil => cases hn
  | cons i l ih =>
    rw [List.foldl_cons]
    by_cases hl : n ∈ l
    · exact ih hl _
    · obtain rfl : n = i := (List.mem_cons.1 hn).resolve_right hl
      rw [net_foldl_setNet_ne f hl, State.setNet_self]
      exact hf _

/-- The numbers of the networks of the domain. -/
theorem mem_domainNets {n : Nat} : n ∈ (List.range 16).map (· + 64) ↔ 64 ≤ n ∧ n < 80 := by
  rw [List.mem_map]
  refine ⟨?_, fun h => ⟨n - 64, List.mem_range.2 (by omega), by omega⟩⟩
  rintro ⟨i, hi, rfl⟩
  have := List.mem_range.1 hi
  omega

/-! ### DOMAIN_FORMATION (R319, R373, R380) -/

theorem exec_domainFormation_refused {s : State} (h : (∃ n ∈ s.arg.a :: s.arg.list, 640 ≤ n) ∨ (s.arg.a ≠ s.pkg ∧ s.parts ≠ [])) :
    exec .domainFormation s = .next s := by
  refine if_pos (h.symm.imp (And.imp_right ?_) ?_)
  · exact fun hp => by simpa using hp
  · exact fun hn => List.any_eq_true.2 (by simpa using hn)

/-- The package joins the domain, before its networks are reset. -/
def joinDomain (s : State) : State := { s with pkg := s.arg.a, domain := s.arg.list, failed := [], placement := s.arg.nets }

/-- The networks of the domain are at reset. -/
def resetNets (s : State) : State := ((List.range 16).map (· + 64)).foldl (fun (t : State) n => t.setNet n {}) s

/-- Whatever no network is part of, the reset of the networks leaves. -/
theorem resetNets_keeps {β : Type} (p : State → β) (hp : ∀ (s : State) (n : Nat), p (s.setNet n {}) = p s) (s : State) :
    p (resetNets s) = p s := foldl_keeps p hp _ s

theorem resetNets_net (s : State) {n : Nat} (hlow : 64 ≤ n) (hhigh : n < 80) : (resetNets s).net n = {} :=
  net_foldl_setNet (P := (· = {})) (f := fun _ => {}) (fun _ => rfl) (mem_domainNets.2 ⟨hlow, hhigh⟩) s

theorem resetNets_net_package (s : State) {n : Nat} (hn : n < 64) : (resetNets s).net n = s.net n :=
  net_foldl_setNet_ne (fun _ => {}) (fun h => absurd (mem_domainNets.1 h).1 (by omega)) s

theorem exec_domainFormation {s : State} (hpkg : s.arg.a = s.pkg ∨ s.parts = []) (hnum : ∀ n ∈ s.arg.a :: s.arg.list, n < 640) :
    exec .domainFormation s = .next (resetNets (joinDomain s)) := by
  refine if_neg (not_or.2 ⟨fun h => ?_, fun h => ?_⟩)
  · rcases hpkg with hp | hp
    · exact h.1 hp
    · simp [hp] at h
  · obtain ⟨n, hn, hle⟩ := List.any_eq_true.1 h
    have := hnum n hn
    simp only [decide_eq_true_eq] at hle
    omega

/-! ### PEER_FAILURE (R386) -/

/-- What no token that is lost changes. -/
def State.besideTokens (s : State) : List Nat × Memory × List (LogEntry × Nat) := (s.failed, s.dram, s.monlog)

section
variable {t : State} {x : List Nat × Memory × List (LogEntry × Nat)} (h : t.besideTokens = x)

include h

theorem failed_of_besideTokens : t.failed = x.1 := congrArg Prod.fst h

theorem dram_of_besideTokens : t.dram = x.2.1 := congrArg (fun y => y.2.1) h

theorem monlog_of_besideTokens : t.monlog = x.2.2 := congrArg (fun y => y.2.2) h

end

theorem besideTokens_tokenLost (s : State) (e : Envelope) : (tokenLost s e).besideTokens = s.besideTokens := by
  unfold tokenLost
  split
  · split
    · rfl
    · simp only [State.besideTokens, dropMsg, State.fillLoad, State.onThread]
      split <;> rfl
  · split <;> rfl
  · rfl

/-- The state when a peer has failed, before the log names it. -/
def fencePeer (s : State) : State :=
  ((List.range 16).map (· + 64)).foldl (fun t n => t.setNet n { t.net n with broken := true })
    (s.msgs.foldl tokenLost { s with failed := s.arg.a :: s.failed })

theorem besideTokens_fencePeer (s : State) : (fencePeer s).besideTokens = (s.arg.a :: s.failed, s.dram, s.monlog) := by
  unfold fencePeer
  refine (foldl_keeps State.besideTokens (fun t n => ?_) _ _).trans (foldl_keeps State.besideTokens besideTokens_tokenLost _ _)
  rfl

theorem fencePeer_failed (s : State) : (fencePeer s).failed = s.arg.a :: s.failed := failed_of_besideTokens (besideTokens_fencePeer s)

theorem fencePeer_dram (s : State) : (fencePeer s).dram = s.dram := dram_of_besideTokens (besideTokens_fencePeer s)

theorem fencePeer_monlog (s : State) : (fencePeer s).monlog = s.monlog := monlog_of_besideTokens (besideTokens_fencePeer s)

/-- Every network of the domain is broken (notes/assumptions/66.md). -/
theorem fencePeer_net (s : State) {n : Nat} (hlow : 64 ≤ n) (hhigh : n < 80) : ((fencePeer s).net n).broken = true :=
  net_foldl_setNet (P := fun x => x.broken = true) (f := fun x => { x with broken := true }) (fun _ => rfl)
    (mem_domainNets.2 ⟨hlow, hhigh⟩) _

theorem exec_peerFailure {s : State} (hself : s.arg.a ≠ s.pkg) (hpeer : s.domain.contains s.arg.a = true)
    (hfirst : s.failed.contains s.arg.a = false) : exec .peerFailure s =
      .next ((fencePeer s).logMonitor { value := BitVec.ofNat 64 s.arg.a, issuer := 0xFFFFFFFF }) := by
  change execPeerFailure s = _
  unfold execPeerFailure
  extract_lets p t u v
  have h : ¬ (p = s.pkg ∨ s.domain.contains p = false ∨ s.failed.contains p = true) := by
    simp only [p, hself, hpeer, hfirst]
    decide
  rw [if_neg h]
  rfl

theorem logMonitor_failed (e : LogEntry) (s : State) : (s.logMonitor e).failed = s.failed := by
  unfold State.logMonitor
  split <;> rfl

theorem logMonitor_dram (e : LogEntry) (s : State) : (s.logMonitor e).dram = s.dram := by
  unfold State.logMonitor
  split <;> rfl

theorem logMonitor_net (e : LogEntry) (s : State) (n : Nat) : (s.logMonitor e).net n = s.net n := by
  unfold State.logMonitor
  split <;> rfl

theorem mem_logMonitor {e : LogEntry} {s : State} (h : s.monlog.length < 4095) : (e, s.monSeq) ∈ (s.logMonitor e).monlog := by
  rw [State.logMonitor, if_neg (by omega)]
  exact List.mem_concat_self

/-! ### The obligation -/

/-- Settles O55, party by party, each command along its checks. -/
theorem machineRoom : Obligations.MachineRoom := by
  refine ⟨fun s hboot i hi => exec_mailbox_closed hboot hi, fun s hboot => ?mailbox, fun s => ?host,
    fun s b hb hreset => boot_ends hb hreset, fun s b hb h => exec_boot_again hb h, fun s => ?loops⟩
  case mailbox =>
    refine ⟨exec_createPartition_refused hboot, fun g hg hok => ⟨_, exec_createPartition hboot hg hok, rfl, rfl⟩,
      fun r p hr hp => ⟨exec_loadImage_notRunning hboot hr hp, fun hrun => ⟨exec_loadImage_unsigned hboot hr hp hrun, fun hsigned =>
        ⟨fun i o h => exec_loadImage_bad hboot hr hp hrun hsigned h, fun xs ds h => exec_loadImage hboot hr hp hrun hsigned h⟩⟩⟩,
      fun p hp => ⟨exec_release_busy hboot hp, exec_release hboot hp, exec_attest_badNonce hboot hp, exec_attest hboot hp⟩,
      fun hp => ⟨exec_release_nobody hboot hp, exec_attest_nobody hboot hp, exec_snapshot_nobody hboot hp⟩,
      fun r hr => exec_snapshot_refused hboot hr,
      fun p hhalt hp => ⟨exec_snapshot_badPlace hboot hhalt hp, fun hown hpa hpeer => ?snapshot⟩,
      exec_restore_noGrant hboot, fun g hg hx => exec_restore_noSnapshot hboot hg hx,
      fun g x hg hx => ⟨exec_restore_badGrant hboot hg hx, fun hok hsame => ?restore⟩,
      exec_readMonitorLog hboot, exec_readMarginHistory hboot⟩
    case snapshot =>
      refine ⟨_, exec_snapshot hboot hhalt hp hown hpa hpeer, ⟨fun hdone q hq => ?_, fun hdone => ?_⟩,
        fun q hq => resumePartition_running _ _ q ((respond_part? ..).symm.trans hq)⟩
      · rw [if_pos hdone, if_pos hdone, hq]
        rfl
      · rw [if_neg (by rw [hdone]; decide), if_neg (by rw [hdone]; decide)]
    case restore =>
      exact ⟨exec_restore_notCopied hboot hg hx hok hsame, fun hdone r hr => exec_restore_notResumed hboot hg hx hok hsame hdone hr,
        fun hdone hr => ⟨_, exec_restore hboot hg hx hok hsame hdone hr, rfl,
          fun q hq => resumePartition_running _ _ q ((respond_part? ..).symm.trans hq)⟩⟩
  case host =>
    exact ⟨fun h => ⟨_, exec_hostMemoryRead_outside h, freeBytes_length ..⟩,
      fun va sp u h hspan => ⟨fun v hv => exec_hostMemoryRead h hspan hv,
        fun i b v hv => ⟨_, exec_hostMemoryRead_dataError h hspan hv, freeBytes_length ..⟩⟩,
      fun va e h hspan => ⟨_, exec_hostMemoryRead_refused h hspan, freeBytes_length ..⟩, exec_hostMemoryWrite_outside,
      fun va sp u h hspan => exec_hostMemoryWrite h hspan, fun va f p h hspan => exec_hostMemoryWrite_refused h hspan⟩
  case loops =>
    refine ⟨rfl, ?vfStep, ?refresh, exec_linkEqualisation s, exec_walkerPlacement, ?margin, exec_domainFormation_refused, ?domain, ?peer⟩
    case vfStep =>
      refine ⟨_, exec_vfStep s, ?_, ?_, rfl, rfl⟩
      · rw [State.setGrove_self]
      · rw [State.setGrove_self]
    case refresh =>
      refine ⟨_, exec_refreshAdjust s, fun h => ?_, fun h => ?_, rfl, rfl⟩
      · rw [State.setStand_self]
        exact if_pos h
      · rw [State.setStand_self]
        exact (if_neg (by omega)).trans (if_pos h)
    case margin =>
      refine fun m hm hcore => ⟨_, exec_marginMeasure hm hcore, ?_⟩
      exact ⟨getLast?_margins m s, length_margins m s, margins_of_room, replan_replanned m s, replan_frame m s⟩
    case domain =>
      exact fun hpkg hnum => ⟨_, exec_domainFormation hpkg hnum, resetNets_keeps State.pkg (fun _ _ => rfl) _,
        resetNets_keeps State.domain (fun _ _ => rfl) _, resetNets_keeps State.failed (fun _ _ => rfl) _,
        resetNets_keeps State.placement (fun _ _ => rfl) _, fun n => resetNets_net _, fun n => resetNets_net_package _,
        resetNets_keeps State.dram (fun _ _ => rfl) _, resetNets_keeps State.th (fun _ _ => rfl) _⟩
    case peer =>
      intro hself hpeer hfirst
      refine ⟨_, exec_peerFailure hself hpeer hfirst, ?_, fun n hlow hhigh => ?_, ?_, fun hroom => ⟨_, _, mem_logMonitor ?_, rfl⟩⟩
      · rw [logMonitor_failed, fencePeer_failed]
      · rw [logMonitor_net, fencePeer_net s hlow hhigh]
      · rw [logMonitor_dram, fencePeer_dram]
      · rwa [fencePeer_monlog]

end Sys2Proof.Machine
end
